-- ==== Sys2Proof/Word.lean ====
section
/-!
DEFINITION. The word types of the model and the indices of the module's parts: bit vectors for what the spec treats
as bits (registers, packet fields), `Fin` for a fixed number of like things, and the sorted association list in which
every sparse store is kept.
-/

namespace Sys2Proof

abbrev Byte := BitVec 8
abbrev W16 := BitVec 16
abbrev W32 := BitVec 32
abbrev W64 := BitVec 64

/-- A logical reed: its unit path's five digits, most significant first (R36, R37). -/
abbrev ReedIx := Fin 1048576
/-- A logical L3 sheaf, counted as die x 16 + sheaf (R101). -/
abbrev SheafIx := Fin 256
/-- A compute die D0-D15 (R13). -/
abbrev DieIx := Fin 16
/-- An eave E0-E7 (R13). -/
abbrev EaveIx := Fin 8
/-- A data lane of an eave (R347). -/
abbrev LaneIx := Fin 32
/-- A laser of an eave, 36 and 37 being CA and CB (R347). -/
abbrev LaserIx := Fin 38
/-- A memory channel (R371). -/
abbrev ChanIx := Fin 512
/-- A copper course B0, B1, K0, K1, K2 by its course code (R313). -/
abbrev CopperIx := Fin 5

/-- A store by key: a list of (key, value) pairs with keys strictly rising. -/
abbrev KMap (α : Type) := List (Nat × α)

/-- The sheaf that holds a reed. -/
def ReedIx.sheaf (r : ReedIx) : SheafIx := ⟨r.val / 4096, by omega⟩
/-- A reed's index within its sheaf. -/
def ReedIx.local (r : ReedIx) : Nat := r.val % 4096
/-- The die that carries a sheaf. -/
def SheafIx.die (s : SheafIx) : DieIx := ⟨s.val / 16, by omega⟩

end Sys2Proof
end

