-- ==== Sys2Proof/Syntax.lean ====
section
/-!
DEFINITION. The commands of the block: one constructor of `Instr` per row of spec/opcode_table.json, with the row's
operands. Rows that are host commands carry the packet header (R57) and the parameters of their opcode table
(R90 to R111); rows that are reed instructions carry the reed that issues them; every other row carries the object its
event concerns and what the outside world supplies (a received frame, a measurement, an outcome).
-/

namespace Sys2Proof

/-- The two PCI Express ports (R395). -/
inductive PortIx | port0 | port1
  deriving DecidableEq, Repr

/-- Where a command packet came from: a host port, a peer module over the fabric (its fabric address and the FPL its
frame carries, R75, R457), or the sideband (R410). -/
inductive Src
  | port (p : PortIx)
  | peer (addr : W32) (fpl : Byte)
  | sideband
  deriving DecidableEq, Repr

/-- The fields of a command packet header that survive the header checks of R65 (R57, R58). `mask` is the
member-mask word when MASK is set. -/
structure Hdr where
  src : Src
  priv : BitVec 4
  path : BitVec 24
  allot : W16
  slot : BitVec 4
  mask : Option W64
  quiet : Bool
  fence : Bool
  irq : Bool
  tag : W32
  deriving DecidableEq, Repr

/-- The queues of a reed's engines (R132, R133). XC has two orders, XPUT's and XGET's (R149). -/
inductive Engine | mx | vx | ld | st | xput | xget
  deriving DecidableEq, Repr

/-- A TENSOR_MOVE descriptor (Table 9-7). -/
structure MoveDesc where
  kind : Byte
  fmt : Byte
  flags : Byte
  handle : W16
  srcAddr : W64
  dstAddr : W64
  srcView : W32
  dstView : W32
  fill : W32
  deriving DecidableEq, Repr

/-- A dimension record of TENSOR_DEFINE (Table 9-8). -/
structure DimRec where
  size : W32
  split : Byte
  parts : W16
  place : BitVec 48
  halo : W16
  deriving DecidableEq, Repr

/-- The collective plan (Table 11-1). -/
structure Plan where
  op : Byte
  fmt : Byte
  outFmt : Byte
  shape : Byte
  radix : Byte
  courses : Byte
  root : W16
  buckets : W32
  src0 : W32
  src1 : W32
  dst0 : W32
  dst1 : W32
  acc : W32
  work : W32
  window : W16
  commit : W32
  planId : W32
  deriving DecidableEq, Repr

/-- A colour map (Table 12-5). -/
structure ColourMap where
  format : Byte
  radix : Byte
  mapId : W32
  tx : List Byte
  rx : List Byte
  deriving DecidableEq, Repr

/-- What an access finds in a sector or row tag beyond the stored data (R376, R377): the outcome that the error
falls to is the memory's, not the spec's to compute. -/
inductive MemErrKind
  | corrected
  | uncorrectable
  | rowFailure
  | tagCorrected
  /-- an error of three or more bits that the code took for one it could correct: wrong data, written back as corrected -/
  | miscorrected
  /-- an error of three or more bits that the code did not see: wrong data -/
  | unseen
  deriving DecidableEq, Repr

/-- An error found by an access, at a memory address; `data` is what the sector then delivers where that is wrong. -/
structure MemErr where
  addr : Nat
  kind : MemErrKind
  data : List Byte
  deriving DecidableEq, Repr

/-- The outcome of one eave's commissioning (Table 10 of chapter 13): what its six steps found. -/
structure CommOutcome where
  selfTestOk : Bool
  caOk : Bool
  cbOk : Bool
  /-- bit k: laser k reached -1.0 dB and locked on every slot (step 4) -/
  laserGood : BitVec 36
  ringsLocked : Bool
  /-- measured margin of the loopback in 0.1 dB; none when no light returned -/
  margin : Option Int
  deriving DecidableEq, Repr

/-- Which journal record a loss of standby cuts short (R441, R460): none, or the one being written, in copy A before copy B is begun, or
in copy B. -/
inductive Tear | none | copyA | copyB
  deriving DecidableEq, Repr

/-- What completes a command whose action takes time (COMMAND_ACTION_COMPLETE). -/
inductive ActionData
  | plain
  /-- errors that a transfer's reads of memory found -/
  | found (errs : List MemErr)
  /-- a host transfer's data, and the errors its writes found -/
  | bytes (data : List Byte) (errs : List MemErr)
  | commission (o : CommOutcome)
  /-- the address that answered, by 64 x eave + offset -/
  | sweep (answers : List (Nat × W32))
  | reading (value : W16)
  | elapsed (micros : W32)
  deriving DecidableEq, Repr

/-- A fabric table entry as tokens report it (R343, Table 12-11). -/
structure TableEntry where
  addr : W32
  state : Byte
  fpl : Byte
  eavesUp : Byte
  copper : Byte
  fabricId : W64
  deriving DecidableEq, Repr

/-- A bucket frame (Table 11-3) with its 512 payload words (R290). -/
structure BFrame where
  handle : W16
  allot : W16
  seq : W32
  bucket : Nat
  sender : Nat
  kind : Byte
  backup : Bool
  nonfinite : Bool
  substituted : Bool
  exp : Int
  count : Nat
  run : Byte
  attempt : Nat
  fpl : Byte
  planId : W32
  cs1 : Nat
  cs2 : Nat
  words : List W64
  deriving DecidableEq, Repr

/-- A control frame of a bucket (R290): exponents, failures and acknowledgements. -/
structure CFrame where
  handle : W16
  allot : W16
  seq : W32
  run : Byte
  bucket : Nat
  sender : Nat
  backup : Bool
  x : Int
  nonfinite : Bool
  status : W16
  planId : W32
  deriving DecidableEq, Repr

/-- News of one channel (R335): its course, the modules at its near and far end, the channel at the near end, whether it came up
or went down, and whether the course still joins the two in that direction by another channel. -/
structure News where
  course : Nat
  endA : W32
  endB : W32
  chan : Nat
  up : Bool
  hop : Bool
  deriving DecidableEq, Repr

/-- A link frame on a channel (Table 12-6) with the fabric header's fields that this model uses (Table 12-7). -/
structure LinkFrame where
  lseq : W16
  lack : W16
  cvl : Byte
  nack : Bool
  creditOnly : Bool
  park : Bool
  bseq : W16
  credit : W16
  creditCvl : Byte
  crcOk : Bool
  dest : W32
  srcAddr : W32
  allot : W16
  hop : Byte
  ftype : Byte
  route : W32
  msg : W32
  seg : W16
  segs : W16
  fpl : Byte
  payload : List Byte
  deriving DecidableEq, Repr

/-- The outcome of a boot step as its hardware reports it (Tables 16-3, 16-4). -/
structure BistOutcome where
  /-- reeds found failed, as global reed indices -/
  failed : List Nat
  /-- L1 sheaves whose spare failed, as global L1 indices -/
  badSpares : List Nat
  /-- L3 sheaves whose lodge, loft, truss or timer failed (R419) -/
  withheld : List Nat
  /-- dies whose BIST watchdog expired -/
  watchdog : List Nat
  /-- dies whose network domain failed -/
  netFailed : List Nat
  /-- loft rows replaced: sheaf, row, spare row (Table 17-7) -/
  loftRows : List (Nat × Nat × Nat)
  deriving DecidableEq, Repr

/-- The 1 ms windows in which a further event of one kind is withheld: a sheaf's THERMAL (R438) and WV_THRESHOLD (R265) events, the
module's POWER (R435) and SIGNATURE_FAIL (R463) events. -/
inductive RateWindow
  | thermal (sh : SheafIx)
  | weathervane (sh : SheafIx)
  | power
  | signature
  deriving DecidableEq, Repr

/-- THE INSTRUCTION TYPE: one constructor per row of spec/opcode_table.json, in the table's order. -/
inductive Instr
  -- Device class (Table 4-2)
  | nop (h : Hdr) (data : List Byte)
  | devInfo (h : Hdr)
  | regRead (h : Hdr) (regnum : W16)
  | regWrite (h : Hdr) (regnum : W16) (value : W64)
  | portGrant (h : Hdr) (grant : Byte)
  | takeover (h : Hdr) (allot : W16)
  -- Unit class (Table 4-5)
  | wake (h : Hdr)
  | sleep (h : Hdr)
  | reset (h : Hdr)
  | query (h : Hdr)
  | progLoad (h : Hdr) (source : Byte) (count : W16) (entry : W16) (address : W64) (image : List Byte)
  | start (h : Hdr) (args : List W32)
  | pause (h : Hdr)
  | resume (h : Hdr)
  | drain (h : Hdr)
  | uregRead (h : Hdr) (regnum : W16)
  | uregWrite (h : Hdr) (regnum : W16) (value : W64)
  | posIndexWrite (r : ReedIx) (index : BitVec 6)
  | trapctlClear (r : ReedIx)
  | spRead (h : Hdr) (offset : W16) (bytes : W16)
  | spWrite (h : Hdr) (offset : W16) (data : List Byte)
  | spareStatus (h : Hdr)
  -- Memory class (Table 4-6)
  | memGrant (h : Hdr) (allot : W16) (base : W64) (size : W64)
  | memRevoke (h : Hdr) (allot : W16) (base : W64)
  | hostDma (h : Hdr) (dir : Byte) (hostAddr : W64) (devAddr : W64) (bytes : W64)
  | hostDmaReadError (op : Nat) (data : List Byte) (errs : List MemErr)
  | aperture (h : Hdr) (base : W64)
  | memFill (h : Hdr) (devAddr : W64) (bytes : W64) (pattern : W64)
  | eccRead (h : Hdr) (clear : Byte)
  | rowRetire (h : Hdr) (address : W64)
  -- Tensor class (Table 4-7)
  | loftWrite (h : Hdr) (offset : W32) (data : List Byte)
  | loftRead (h : Hdr) (offset : W32) (bytes : W32)
  | tensorMove (h : Hdr) (descs : List MoveDesc)
  | tensorDefine (h : Hdr) (handle : W16) (format : Byte) (dims : List DimRec)
  | tensorRelease (h : Hdr) (handle : W16)
  -- Fabric class (Table 4-8)
  | allotCreate (h : Hdr) (allot : W16) (sheafSet : BitVec 256) (members : List W32)
  | allotDissolve (h : Hdr) (allot : W16)
  | allotResize (h : Hdr) (allot : W16) (op : Byte) (sheafSet : BitVec 256) (members : List W32)
  | topoDraw (h : Hdr) (shape : Byte) (ndim : Byte) (extents : List W16)
  | colourMapSet (h : Hdr) (eave : Byte) (map : ColourMap)
  | fabricTable (h : Hdr) (first : W32)
  | routeQuery (h : Hdr) (addr : W32)
  -- Collective class (Table 4-9)
  | collDefine (h : Hdr) (handle : W16) (planWords : W16) (plan : Plan)
  | collBackup (h : Hdr) (handle : W16) (rank : W16) (addr : W32)
  | collTune (h : Hdr) (handle : W16) (accumn : W16) (tlate : W32) (tlost : W32)
  | collCommit (h : Hdr) (handle : W16) (seq : W32)
  | collAbort (h : Hdr) (handle : W16)
  | collStatus (h : Hdr) (handle : W16)
  -- Numerics class (Table 4-10)
  | numCtl (h : Hdr) (value : W32)
  | wvConfig (h : Hdr) (sampleLog2 : Byte) (enable : Byte) (tolerance : W32) (threshold : W32) (reserve : W32)
  | wvStats (h : Hdr) (clear : Byte)
  | rngKey (h : Hdr) (key : W64) (step : W64)
  | determinism (h : Hdr) (on : Byte)
  | clampRead (h : Hdr) (clear : Byte)
  -- Optics class (Table 4-11)
  | eaveStatus (h : Hdr) (eave : Byte)
  | eaveCommission (h : Hdr) (eave : Byte)
  | laserSwap (h : Hdr) (eave : Byte) (lane : Byte) (spare : Byte)
  | monitorRead (h : Hdr) (eave : Byte) (laser : Byte) (integUs : W32)
  | eaveSweep (h : Hdr) (mask : Byte)
  -- Power and thermal class (Table 4-12)
  | domainSet (h : Hdr) (domain : Byte) (on : Byte)
  | dvfsSet (h : Hdr) (mhz : W16)
  | powerCap (h : Hdr) (watts : W16)
  | thermalRead (h : Hdr)
  | powerRead (h : Hdr)
  -- Security and maintenance class (Table 4-13)
  | attest (h : Hdr) (nonce : List Byte)
  | certRead (h : Hdr)
  | fwStage (h : Hdr) (offset : W32) (data : List Byte)
  | fwActivate (h : Hdr) (advance : Byte)
  | repairCommit (h : Hdr)
  | keyRotate (h : Hdr) (hash : List Byte)
  | primarySet (h : Hdr) (port : Byte)
  | debugLock (h : Hdr)
  | journalRead (h : Hdr) (first : W32)
  -- Reed instructions (Table 5-12): the reed whose stream issues its next instruction
  | nopInstruction (r : ReedIx)
  | seti (r : ReedIx)
  | alu (r : ReedIx)
  | sld (r : ReedIx)
  | sst (r : ReedIx)
  | movr (r : ReedIx)
  | movw (r : ReedIx)
  | loop (r : ReedIx)
  | br (r : ReedIx)
  | waitq (r : ReedIx)
  | waitqRelease (r : ReedIx)
  | endInstruction (r : ReedIx)
  | programEnd (r : ReedIx)
  | heldIssueRetry (r : ReedIx)
  | mma (r : ReedIx)
  | mmaf (r : ReedIx)
  | accz (r : ReedIx)
  | accst (r : ReedIx)
  | sumsLand (r : ReedIx)
  | vew (r : ReedIx)
  | vred (r : ReedIx)
  | vscan (r : ReedIx)
  | vsscan (r : ReedIx)
  | vwide (r : ReedIx)
  | vrng (r : ReedIx)
  | opt (r : ReedIx)
  | vcld (r : ReedIx)
  | vcst (r : ReedIx)
  | ld (r : ReedIx)
  | ldpage (r : ReedIx)
  | st (r : ReedIx)
  | stAcknowledged (r : ReedIx)
  | xput (r : ReedIx)
  | xget (r : ReedIx)
  | xcBufferRoom (r : ReedIx)
  | xcBytesArrive (r : ReedIx)
  | engineInstructionStart (r : ReedIx) (e : Engine) (errs : List MemErr)
  | engineInstructionComplete (r : ReedIx) (e : Engine)
  | numericTrap (r : ReedIx) (e : Engine)
  | wvSampleCompare (sh : SheafIx)
  -- Unit states, power-up of sheaves (chapters 2, 3, 16)
  | hardwareFault (r : ReedIx)
  | unitFaultedCoalesce (sh : SheafIx)
  | drainComplete (r : ReedIx)
  | drainLimit (r : ReedIx)
  | wakeComplete (sh : SheafIx)
  | poweringSlotGrant (sh : SheafIx)
  | pllLock (d : DieIx)
  | pllStop (d : DieIx)
  -- Lodges (chapters 2, 4)
  | lodgeAdmit (cmd : Nat)
  | commandArrival (op : Nat) (sh : SheafIx) (errs : List MemErr)
  /-- the member, by its path: an L4 lodge (depth 1) or an L3 lodge (depth 2) -/
  | memberReply (op : Nat) (member : BitVec 24)
  /-- the member, by its path: an L4, an L3 or an L2 lodge (depth 1 to 3) -/
  | memberSilent (op : Nat) (member : BitVec 24)
  /-- the level of the lodge whose census is told (1 to 5), and the one reed reported, or every change of the sheaf -/
  | censusUpdate (sh : SheafIx) (level : Nat) (reed : Option Nat)
  -- Ports (chapters 3, 15)
  | windowWrite (p : PortIx) (offset : Nat) (data : List Byte)
  | packetTaken (p : PortIx)
  | fenceRelease (p : PortIx)
  | resync (p : PortIx)
  | replyWrite (p : PortIx)
  | replyheadWrite (p : PortIx) (value : W32)
  | replyRingEnable (p : PortIx) (value : W32)
  | replyRingDisable (p : PortIx) (value : W32)
  | coalesceTimerExpiry (p : PortIx)
  | eventsLost (p : PortIx)
  | registerWrite (p : PortIx) (offset : Nat) (size : Nat) (value : W64)
  | bar2statClear (p : PortIx)
  | bar2Write (p : PortIx) (offset : Nat) (data : List (Option Byte)) (errs : List MemErr)
  | bar2Read (p : PortIx) (offset : Nat) (length : Nat) (errs : List MemErr)
  | portLinkDown (p : PortIx)
  | portLinkUp (p : PortIx) (speed : BitVec 4) (width : BitVec 4)
  | portReset (p : PortIx)
  /-- `low` is the level that PERST_N takes: an assertion, or the end of one (R469) -/
  | perstAssert (p : PortIx) (low : Bool)
  | graceExpiry (p : PortIx)
  | sidebandPacket (bytes : List Byte)
  -- Memory (chapter 14)
  | scrubRead (ch : ChanIx) (page : Nat) (errs : List MemErr)
  | rowRetirementDone (ch : ChanIx) (errs : List MemErr)
  | eccWindowClose (ch : ChanIx) (page : Nat)
  | driftCheck (ch : ChanIx) (beyond : Bool)
  | channelRetrainDone (ch : ChanIx)
  | deviceTemperatureRead (dev : Fin 16) (temp : Int)
  | selfRefreshEntry (ch : ChanIx)
  -- Collectives (chapter 11)
  | bucketReady (sh : SheafIx) (allot : W16) (handle : W16) (b : Nat)
  | exponentFrame (sh : SheafIx) (f : CFrame)
  | bucketExponent (sh : SheafIx) (f : CFrame)
  | bucketFrame (sh : SheafIx) (f : BFrame)
  | bucketNack (sh : SheafIx) (f : CFrame)
  | bucketAck (sh : SheafIx) (f : CFrame)
  | resultFrame (sh : SheafIx) (f : BFrame)
  | tlateExpiry (sh : SheafIx) (allot : W16) (handle : W16) (bucket : Nat) (rank : Nat)
  | tlostExpiry (sh : SheafIx) (allot : W16) (handle : W16) (bucket : Nat)
  | bucketFailFrame (sh : SheafIx) (f : CFrame)
  | vote (allot : W16) (handle : W16)
  | voteReceived (allot : W16) (handle : W16) (seq : W32) (run : Byte) (rank : Nat) (ok : Bool) (status : W16) (planId : W32)
  | decision (allot : W16) (handle : W16) (seq : W32) (run : Byte) (rank : Nat) (commit : Bool) (status : W16) (planId : W32)
  | undecided (allot : W16) (handle : W16)
  -- Fabric (chapter 12)
  /-- the channel it arrives on, and the own channel of which its LACK, NACK and CREDIT speak (the same number on a copper course) -/
  | linkFrameReceive (ch : Nat) (rev : Nat) (f : LinkFrame)
  | peerCommand (addr : W32) (fpl : Byte) (bytes : List Byte)
  | retransmitTimeout (ch : Nat)
  | channelDown (ch : Nat)
  /-- the source, message and segment by which repeats are told, the course it came on, and the news -/
  | fabricControlFrame (src : W32) (msg : W32) (seg : W16) (via : Nat) (news : News)
  | routeRecompute
  | copperLaneSwap (c : CopperIx) (lane : Nat)
  | courseTrained (c : CopperIx) (peer : TableEntry)
  /-- the lane's own token found, or did not find, the peer's ring; or, `incoming`, a peer's token reached the lane's ring -/
  | laneToken (e : EaveIx) (lane : LaneIx) (peer : W32) (peerHasRing : Bool) (incoming : Bool)
  | rackLeadRound (lead : W64)
  /-- `msg` numbers the token of the module `peer` (Table 12-7) -/
  | groupToken (e : EaveIx) (offset : Nat) (peer : TableEntry) (msg : W32)
  /-- a rack table, or a row table, from `src` under `msg`, that came on course `via` -/
  | tableExchange (entries : List TableEntry) (row : Bool) (via : Nat) (src msg : W32)
  | fabricReady
  | fabricReadyTimeout
  -- Optics (chapter 13)
  /-- lanes 0 to 31 are the data lanes, 32 and 33 the control lanes on CA and CB -/
  | lockLost (e : EaveIx) (lane : Fin 34)
  | relock (e : EaveIx) (lane : Fin 34)
  | relockRetry (e : EaveIx) (lane : Fin 34) (ok : Bool)
  /-- the averages of one 100 µs period: the raw monitor average of each lit laser -/
  | fadeAverage (e : EaveIx) (averages : List (LaserIx × W16))
  | spareLocked (e : EaveIx) (spare : Fin 4)
  | spareLockTimeout (e : EaveIx) (spare : Fin 4)
  | swapComplete (e : EaveIx) (lane : LaneIx)
  | fixedLaserFail (e : EaveIx) (cb : Bool)
  | photonicTemperatureRange (e : EaveIx) (temp : Int)
  | eaveLinksDown (e : EaveIx)
  -- Rails, reset and boot (chapters 16, 18)
  | standbyRailUp
  | standbyRailLoss (tear : Tear)
  | mainRailGood
  | mainRailLoss
  | resetNAssert
  | resetNRelease
  | powerOn (straps : BitVec 13)
  | fuse (ok : Bool)
  | image (primaryRead : Bool) (goldenRead : Bool)
  | journal (readableA : Bool) (readableB : Bool) (largestEpoch : W32)
  | power (ok : Bool)
  | bist (o : BistOutcome)
  | memory (rungs : List (Nat × Nat))
  | eaves (outcomes : List CommOutcome)
  | released
  | stepWatchdog (late : List Nat)
  -- Power and thermal governors (chapter 16)
  | powerSample (inputW : Nat) (averageW : Nat) (currentA : Nat) (vin12mV : Nat)
  | droop (sh : SheafIx)
  | droopRelease (sh : SheafIx)
  | thermalSample (sh : SheafIx) (temp : Int)
  | dieThermalSample (die : Fin 20) (temp : Int)
  | clockChangeDone (sh : SheafIx)
  | networkDomainSleep (d : DieIx)
  | networkDomainWake (d : DieIx)
  -- Later rows of the table
  | commandActionComplete (op : Nat) (data : ActionData)
  | decisionAcknowledged (allot : W16) (handle : W16) (seq : W32) (run : Byte) (rank : Nat) (planId : W32)
  /-- the asking module's rank (P + r for a backup module of rank r) and address -/
  | decisionRequest (allot : W16) (handle : W16) (seq : W32) (run : Byte) (rank : Nat) (addr : W32) (planId : W32)
  /-- the address that answered, by 64 x eave + offset -/
  | discoverySweepDone (answers : List (Nat × W32))
  | rateLimitWindowEnd (w : RateWindow)
  | memberSilentCoalesce (lodge : Nat)
  deriving DecidableEq, Repr

end Sys2Proof
end

