-- ==== Sys2Proof/Decode.lean ====
section
/-!
DEFINITION. The host's decoder. spec/opcode_table.json gives no row any bits: the commands of this block arrive as packets
(Machine/Packet.lean reads their bytes) and the other rows are events. No word spells a command, so the answer is
always none.
-/

namespace Sys2Proof

/-- The command a word spells by the table's bits: the table gives no bits, so none. -/
def decodeTableWord (_nbits _w : Nat) : Option Instr := none

end Sys2Proof
end

