-- ==== Sys2Proof/Config.lean ====
section
/-!
DEFINITION. What an implementation fixes and the spec leaves open, as constants without a body: nothing can be proved
about their values, so a statement about the model holds for every value of them (log entries 1, 6, 7, 8).
-/

namespace Sys2Proof.Config

/-- The free value with number `n` (log entry 1): the spec says some value results and not which. -/
opaque freeWord : Nat → W64

/-- FP32 result of the VEW function `fn` at an operand for which Table 7-4 gives an accuracy bound in ulps; the model takes it where it
keeps the bound. -/
opaque boundedVew : Nat → W32 → W32

/-- A byte of a moment block that a trap cuts between two of its steps, by its place in the block: a function of the new moments, the
draws, `NUMCTL` and how many elements were written (R200, R277). -/
opaque cutByte : List Nat → Nat → Byte

/-- The state of a lane random generator some array cycles after a state, and its output in a cycle that the number names (R193). -/
opaque laneAdvance : Nat → W64 → W64
opaque laneOutput : W64 → Nat → W64

/-- SM3 hash (GB/T 32905), named and not given by the spec. -/
opaque sm3 : List Byte → BitVec 256

/-- Whether a public key recoverable from an SM2 signature over a message has the given SM3 hash (R446). -/
opaque sm2Accepts : BitVec 256 → List Byte → List Byte → Bool

/-- The identity key's SM2 signature over a message, r then s (R450). -/
opaque sm2Sign : List Byte → BitVec 512

/-- The header of a section (0 release, 2 site) of the image in slot A, slot B or the golden device (0, 1, 2) with the slot's bytes,
whose layout the spec does not give (R452). -/
opaque sectionHeader : Nat → Nat → List (Nat × Byte) → List Byte
/-- The bytes of such a section, and its SM2 signature. -/
opaque sectionBody : Nat → Nat → List (Nat × Byte) → List Byte
opaque sectionSignature : Nat → Nat → List (Nat × Byte) → List Byte
/-- The header, bytes and signature of a module section: 0 the one shipped in slot A, 2 the golden image's; and the KEY_HASH it is bound
to (R452). -/
opaque moduleHeader : Nat → List Byte
opaque moduleBody : Nat → List Byte
opaque moduleSignature : Nat → List Byte
opaque boundKey : Nat → BitVec 256
/-- The hash that a section's header carries. -/
opaque headerHash : List Byte → BitVec 256
/-- The hashes of the release key, fused at manufacture, and of the manufacturing key (R452). -/
opaque releaseKeyHash : BitVec 256
opaque makerKeyHash : BitVec 256

/-- CRC-32C, named and not given by the spec. -/
opaque crc32c : List Byte → W32

/-- FW_VERSION of a release section: of slot A, slot B, or the golden image (0, 1, 2) with the slot's bytes. -/
opaque fwVersion : Nat → List (Nat × Byte) → W32
/-- SVN of a release section (R452). -/
opaque svn : Nat → List (Nat × Byte) → Byte
/-- FPL of a release section (R452). -/
opaque fpl : Nat → List (Nat × Byte) → Byte
/-- Silicon stepping code (Table 4-3). -/
opaque stepping : Byte
/-- Module identity used on the fabric (Table 4-3). -/
opaque fabricId : W64
/-- The identity public key, x then y, by byte (R445). -/
opaque identityByte : Nat → Byte
/-- SM3 hash of the 64-byte identity public key, KEY_HASH of DEV_INFO (R445, Table 4-3). -/
def keyHash : BitVec 256 := sm3 ((List.range 64).map identityByte)
/-- The identity certificate, at most 4 KiB, in a module section: 0 the one shipped in slot A, 2 the golden image's (R445, R452). -/
opaque certificate : Nat → List Byte
/-- Hash of the owner's key written at manufacture in slot 0 (Table 17-1). -/
opaque ownerHash0 : BitVec 256
/-- Expected extent of the fabric in a module section: EXT_C, EXT_X, EXT_Y (R342, R452). -/
opaque extent : Nat → Nat × Nat × Nat
/-- The buffer that this module's ports keep for a class and virtual lane, laid out as CVL, in units of 64 bytes (R324, R325). -/
opaque bufferUnits : Nat → W16
/-- The calibration record of an eave in a module section (Table 13-9, R452): 4,096 bytes, or none where the section has none. -/
opaque calibration : Nat → Nat → List Byte
/-- The serial number of the photonic die of an eave as its fuses give it (R366). -/
opaque photonicSerial : Nat → W32
/-- CODE of a check word (R375): the sector's 32 bytes, the bits [15:10] above it, and the sector's 27-bit location. The manual does
not give the code's matrix (R377). -/
opaque hsiao : List Byte → Nat → Nat → BitVec 10
/-- A channel's training record of 64 bytes in a module section (R382, R452). -/
opaque trainingRecord : Nat → Nat → List Byte
/-- The bytes of a measured component that is no section of an image, by its index in Table 17-3 and the numbers that make it up (log
entry 26). -/
opaque componentBytes : Nat → List Nat → List Byte
/-- The measurement of such a component: its SM3 hash (R449). -/
def measure (i : Nat) (l : List Nat) : BitVec 256 := sm3 (componentBytes i l)
/-- 100 MHz reference periods that pass in one keep tick of the model's idle tick, about 3,052 (log entry 5). -/
opaque periodsInTick : Nat → W16
/-- Array cycles that pass in one keep tick in the model's idle tick (log entry 5). -/
opaque cyclesInTick : Nat → W64

end Sys2Proof.Config
end

