-- ==== Sys2Proof/Machine/State.lean ====
section
/-!
DEFINITION. The state of the block as plain data: every register, queue, store, mode and pin the spec gives the
module (INVENTORY.md, State), and the queue of waiting commands. Large stores are sorted association lists from which
an entry equal to its default is left out. Fields that are the model's own record of what left the module are marked.
-/

namespace Sys2Proof.Machine

/-- Unit state codes (Table 3-13). -/
inductive UState | off | waking | idle | loaded | running | paused | draining | faulted
  deriving DecidableEq, Repr

/-- Status codes (Table 4-16). -/
inductive Status
  | ok | okDegraded | badOpcode | badLength | badParam | badState | badUnit | noPrivilege | engineFused
  | wrongAllotment | alignFault | layoutOverlap | shardConflict | noRoute | fplMismatch | checksumMismatch
  | backupSubstituted | contributionLost | numericTrap | fuseBudgetExhausted | signatureInvalid | rollbackRefused
  | linkDown | thermalLimit | powerLimit | queueOverrun
  deriving DecidableEq, Repr

/-- Why a step can stop. No rule of the spec stops the block as a whole; the type is kept for the host's form.
`outsideAddressSpace` would be raised by an access beyond the memory map, which every command checks first; safe. -/
inductive Fault
  | outsideAddressSpace
  deriving DecidableEq, Repr

/-- Why a row has no meaning. `notModelled` is raised by an arm of `exec` whose row has no meaning yet; safe. -/
inductive Refusal
  | notModelled (mnemonic : String)
  deriving DecidableEq, Repr

/-- A reply or event packet on its way to a ring, a peer or the sideband (R59). `payload` starts at offset 16. -/
structure OutPkt where
  event : Bool
  /-- the model's number of the command replied to, 0 for an event -/
  cmdId : Nat
  opcode : W16
  status : Status
  ustate : UState
  tag : W32
  path : BitVec 24
  slot : BitVec 4
  payload : List Byte
  irq : Bool
  deriving DecidableEq, Repr

/-- A BAR2 read completion returned to the host (R400); the model's own record. -/
structure Bar2Completion where
  data : List Byte
  ep : Bool
  ur : Bool
  deriving DecidableEq, Repr

/-- One host port: packet window, reply ring, event control, link and BAR2 aperture (chapters 3 and 15). -/
structure Port where
  /-- 4-byte halves of the window's words that are present (R61) -/
  win : KMap W32
  takePtr : Nat
  halted : Bool
  cause : Nat
  dropped : Nat
  taken : W32
  replyBase : W64
  replySize : BitVec 5
  latchedBase : W64
  latchedLog2 : Nat
  head : Nat
  tail : Nat
  phase : Bool
  enable : Bool
  irqEn : Bool
  vector : BitVec 6
  coalesceCount : Byte
  coalesceTime : BitVec 12
  headErr : Bool
  cfgErr : Bool
  hold : List OutPkt
  evGroups : Byte
  evLost : Nat
  lostSince : Nat
  evSeq : W32
  unsignalled : Nat
  timerArmed : Bool
  admin : Bool
  primary : Bool
  /-- PERST_N of the port is low (R469) -/
  perst : Bool
  /-- PCI Express configuration space of the function (Table 15-1): the max payload size the host programs, in bytes, the D3hot power
  state, and the uncorrectable errors of Advanced Error Reporting -/
  maxPayload : Nat
  d3hot : Bool
  aer : W32
  linkUp : Bool
  speed : BitVec 4
  width : BitVec 4
  graceRunning : Bool
  graceElapsed : Bool
  bar2Base : W64
  bar2Allot : W16
  denied : Nat
  bar2Poisoned : Bool
  msix : KMap Byte
  pba : W64
  /-- bytes the device has written to this host's memory; the model's own record -/
  hostMem : KMap Byte
  /-- MSI-X messages sent; the model's own record -/
  msiSent : List (BitVec 6)
  bar2Out : Option Bar2Completion
  /-- a HOST_LINK event kept for this port until its ring is enabled (R406) -/
  upEvent : Bool
  deriving DecidableEq, Repr

/-- What a command in progress waits for. -/
inductive OpWait
  /-- members still to be reached or to reply (R49) -/
  | members
  /-- every listed sheaf awake (WAKE, R93) -/
  | sheavesAwake (l : List Nat)
  /-- COMMAND_ACTION_COMPLETE (R89) -/
  | action
  /-- room in the holding store of the port the reply goes to (R66) -/
  | store (p : PortIx)
  /-- the decision of a round (R303) -/
  | decision (allot : W16) (handle : W16) (seq : W32)
  /-- the draining of a domain that is to power off (R337) -/
  | drain (domain : Nat)
  /-- the end of a laser swap, which applies a waiting colour map to the eave (R102) -/
  | mapApplied (eave : Nat)
  deriving DecidableEq, Repr

/-- What one member sheaf did with a command, until its reply is combined (R45, R46): the acting units (local indices; 0 for the
sheaf itself) that acted, that were already where the command leads, that were late-skipped, and that lie below a silent L2 lodge; the
status of those that acted; and its part of the payload, with the bytes of it that each acting unit gave, 0 where it is one piece.
`replied` once the reply has reached the die's lodge. -/
structure MemberRes where
  sheaf : Nat
  go : List Nat
  same : List Nat
  late : List Nat
  silent : List Nat
  /-- selected and retired as the command reached the member (R48) -/
  gone : List Nat
  status : Status
  piece : List Byte
  slice : Nat
  replied : Bool
  deriving DecidableEq, Repr

/-- A command in progress at its lodge, with the tallies of its combined reply (R46 to R49): the sheaves it is still on its way to,
those it has reached, and the L2 lodges that did not answer (16 x sheaf + L2). `acted` once any unit has acted. -/
structure Op where
  id : Nat
  cmd : Instr
  todo : List Nat
  acting : List MemberRes
  deaf : List Nat
  acted : Bool
  selected : Nat
  answered : Nat
  retired : Nat
  lateSkipped : Nat
  silent : Nat
  entries : List (Status × Nat)
  note : Option (BitVec 24)
  pieces : List (Nat × List Byte)
  wait : OpWait
  prepared : Option OutPkt
  deriving DecidableEq, Repr

/-- A START or DRAIN whose completion event is due (R80). -/
structure Watch where
  op : Op
  deriving DecidableEq, Repr

/-- What the checks at the module lodge made of a packet (R65, R87): an admitted command, one whose form check refused it, or the
status of the header check that it failed, with its header. -/
inductive Verdict
  | admitted
  | form (st : Status)
  | header (st : Status) (head : List Byte)
  deriving DecidableEq, Repr

/-- A command taken and not yet admitted, or held under FENCE until the listed earlier ones are replied to (R58). A packet that
failed a check and is held has its answer in `verdict`. -/
structure Waiting where
  id : Nat
  cmd : Instr
  fencedBy : List Nat
  verdict : Verdict
  deriving DecidableEq, Repr

/-- A coalescing window of UNIT_FAULTED or MEMBER_SILENT events (R116). -/
structure FaultWindow where
  path : BitVec 24
  cause : Nat
  count : Nat
  opcode : W16
  tag : W32
  deriving DecidableEq, Repr

/-- The lodges' command bookkeeping (chapters 2 to 4). -/
structure Lodge where
  nextId : Nat
  waiting : List Waiting
  ops : List Op
  watches : List Watch
  ownerTag : W32
  silentWin : KMap FaultWindow
  deriving DecidableEq, Repr

/-- One active hardware loop: the LOOP's entry, the body's last entry, ITER and COUNT (R119, R143). -/
structure Loop where
  start : Nat
  stop : Nat
  iter : W32
  count : W32
  deriving DecidableEq, Repr

/-- An engine instruction in a queue, with everything captured at issue (R132). Extents are half-open. -/
structure QEntry where
  seqNo : Nat
  raw : BitVec 256
  index : BitVec 6
  regs : Vector W32 16
  vl : W32
  enProduced : Bool
  enConsumed : Bool
  trapAction : Bool
  rngKeyed : Bool
  numctl : W32
  slot : BitVec 4
  iters : List W32
  ord : BitVec 24
  srcs : List (Nat × Nat)
  dsts : List (Nat × Nat)
  started : Bool
  trapsDone : Bool
  view : List Byte
  progress : Nat
  errs : List MemErr
  freeBase : Nat
  deriving DecidableEq, Repr

/-- Why the stream holds (R136, R137, R134, R148). -/
inductive Hold
  | none
  | fullQueue
  | waitq (mask : BitVec 5) (depth : Nat)
  | depend
  | fetch
  deriving DecidableEq, Repr

/-- A trap record, TRAPREC0 to TRAPREC3 (Table 8-10). -/
structure TrapRec where
  r0 : W64
  r1 : W64
  r2 : W64
  r3 : W64
  deriving DecidableEq, Repr

/-- One reed (chapters 5 to 8). Its power state is its sheaf's. -/
structure Reed where
  st : UState
  regs : Vector W32 16
  loops : List Loop
  index : Nat
  entry : Nat
  slot : BitVec 4
  vl : W32
  enProduced : Bool
  enConsumed : Bool
  trapAction : Bool
  trapCount : W16
  trapRec : TrapRec
  rngMode : Bool
  faultInfo : W32
  edgePut : BitVec 4
  edgeGet : BitVec 4
  cycles : W64
  fullq : W32
  portStalls : W32
  /-- a program has started and has not ended: `CYCLES` counts (Table 5-1, R141) -/
  counting : Bool
  /-- valid entries of the instruction buffer -/
  ibuf : KMap (BitVec 256)
  sp : KMap Byte
  bank : KMap (BitVec 40)
  cache : KMap Byte
  qmx : List QEntry
  qvx : List QEntry
  qld : List QEntry
  qst : List QEntry
  qxp : List QEntry
  qxg : List QEntry
  /-- sums in the pipeline: bank element and the value it takes when they land (R164) -/
  sums : List (Nat × BitVec 40)
  rxN : List Byte
  rxE : List Byte
  rxS : List Byte
  rxW : List Byte
  hold : Hold
  ended : Bool
  ord : BitVec 24
  seqNo : Nat
  deriving DecidableEq, Repr

/-- What a repair of an L1 sheaf does: the spare takes reed `i`'s place, reed `i` is retired, or all of it is (R54, R55). -/
inductive Repair
  | remap (i : Nat)
  | retire (i : Nat)
  | retireL1
  deriving DecidableEq, Repr

/-- A remap or retirement recorded in the journal under a SEQ and not yet in force (R55): whether the spare's own failure called for it,
and whether it was found at run time. -/
structure PendingRepair where
  what : Repair
  seq : Nat
  spare : Bool
  runtime : Bool
  deriving DecidableEq, Repr

/-- The repair record of an L1 sheaf (R53 to R55). `mapSeq` is the journal SEQ of a runtime remap in force, by which RUNTIME is told. -/
structure L1Repair where
  replaced : Option Nat
  spareBad : Bool
  retired : Option Nat
  l1Retired : Bool
  mapSeq : Option Nat
  pending : List PendingRepair
  deriving DecidableEq, Repr

/-- A weathervane capture (R258): the reed and the LD that took it, the LD's destination extent and row layout, its source
format, and its source elements by destination element, each with its block's scale byte in bits [39:32]. -/
structure Capture where
  reed : Nat
  seqNo : Nat
  lo : Nat
  hi : Nat
  fmt : Nat
  rowBytes : Nat
  stride : Nat
  dstSize : Nat
  elems : List W64
  bytes : Nat
  deriving DecidableEq, Repr

/-- A weathervane sample: the sampled instruction with the extents of its A and B and, once it has run, the narrow and wide values
(R258, R261, R262). `landed` holds once its sums have left the pipeline. -/
structure Sample where
  reed : Nat
  seqNo : Nat
  index : BitVec 6
  slot : BitVec 4
  caps : List Capture
  aExt : Nat × Nat
  bExt : Nat × Nat
  pairs : Option (List (W32 × W32))
  landed : Bool
  deriving DecidableEq, Repr

/-- The statistics record (Table 10-1). -/
structure WvStats where
  sampled : Nat
  wideBoth : Nat
  skipped : Nat
  excluded : Nat
  overTol : Nat
  maxRel : W32
  maxPath : BitVec 24
  maxInfo : Byte
  suppressed : Nat
  hist : List Nat
  deriving DecidableEq, Repr

/-- The weathervane (R257 to R266). `soiled` is how many of the loft's top bytes captures may have overwritten (R106, R260);
`eventWindow` holds for the 1 ms in which no further event is written. -/
structure Weathervane where
  enable : Bool
  log2 : Nat
  tolerance : W32
  threshold : W32
  reserve : Nat
  soiled : Nat
  counter : Nat
  armed : List Nat
  captures : List Capture
  samples : List Sample
  stats : WvStats
  eventWindow : Bool
  deriving DecidableEq, Repr

/-- A copy of an input that reached a bucket's node (R286 to R297): a rank's contribution, its backup's copy, or the partial
sum of the child that rank is. `sub` is the SUBSTITUTED flag below it. -/
structure CInput where
  rank : Nat
  backup : Bool
  x : Option Int
  nonfinite : Bool
  words : Option (List W64)
  cs1 : Nat
  cs2 : Nat
  count : Nat
  sub : Bool
  deriving DecidableEq, Repr

/-- A source bucket: its recorded 16-byte segments with the reed that wrote each (4096 for a command), and whether it is
ready, and so frozen (R282). -/
structure SrcBucket where
  segs : List (Nat × Nat)
  frozen : Bool
  deriving DecidableEq, Repr

/-- A bucket of the open round at this sheaf's truss (R283 to R297). `held` keeps the frames not yet acknowledged with
their destinations and `acked` those acknowledged, which a failed sum check may ask for again (R292); `since` is the sheaf timer at the
first arrival (R295), `subAt` what it was at each substitution (R296), and `taken` the sender, KIND and BACKUP flag of the frames taken
(R299). -/
structure Bucket where
  contributed : Bool
  arrived : Bool
  since : Nat
  /-- TLATE and TLOST in force at the first arrival (R283) -/
  tlate : W32
  tlost : W32
  inputs : List CInput
  substituted : List Nat
  subAt : KMap Nat
  lateRanks : List Nat
  compared : List Nat
  exponent : Option Int
  nonfinite : Bool
  expSent : Bool
  sumSent : Bool
  sub : Bool
  resultDone : Bool
  failed : Option Status
  held : List (W32 × BFrame)
  acked : List (W32 × BFrame)
  taken : List (Nat × Byte × Bool)
  deriving DecidableEq, Repr

/-- A contribution still owed to a round that has been decided: the exponent it will use, ACCUMN of that round, and whether it is sent as a
late copy before its bucket is freed (R298). -/
structure Owed where
  bucket : Nat
  seq : W32
  run : Byte
  exponent : Int
  nonfinite : Bool
  n : Nat
  send : Bool
  deriving DecidableEq, Repr

/-- The checksums of a substituted copy, kept for TLOST after the substitution, which took place when the sheaf timer was `since` (R296). -/
structure LateCheck where
  bucket : Nat
  seq : W32
  run : Byte
  since : Nat
  tlost : W32
  rank : Nat
  cs1 : Nat
  cs2 : Nat
  deriving DecidableEq, Repr

/-- What makes two bucket frames of a handle duplicates (R299). -/
structure FrameKey where
  seq : W32
  run : Byte
  bucket : Nat
  sender : Nat
  kind : Byte
  backup : Bool
  deriving DecidableEq, Repr

/-- A frame of a bucket that reached a truss, by its row. -/
inductive CollFrame
  | exponent (f : CFrame)
  | exponentDown (f : CFrame)
  | bucket (f : BFrame)
  | result (f : BFrame)
  | fail (f : CFrame)
  deriving DecidableEq, Repr

/-- A collective handle on one sheaf (R278 to R309). `ahead` keeps frames of rounds or runs that this module has not yet opened, `waiting` those that arrived while the truss stood (R441),
`lateHeld` frames of decided rounds that are not yet acknowledged, and `past` the keys of frames taken in earlier rounds and runs (R299). `base` counts the local rounds before the open round's first, `used`
those each bucket has gone through; `src` is keyed by 2 x bucket + buffer. -/
structure Coll where
  allot : W16
  handle : W16
  slot : BitVec 4
  plan : Plan
  accumn : Nat
  accumnNext : Nat
  tlate : W32
  tlost : W32
  ovfWide : Bool
  committed : W32
  decided : W32
  lastStatus : Status
  lastRun : Byte
  openSeq : W32
  run : Byte
  isFailed : Bool
  base : Nat
  used : KMap Nat
  src : KMap SrcBucket
  buckets : KMap Bucket
  owed : List Owed
  checks : List LateCheck
  ahead : List CollFrame
  waiting : List CollFrame
  lateHeld : List (W32 × BFrame)
  past : List FrameKey
  commitSeq : W32
  retries : Nat
  substitutions : Nat
  breaches : Nat
  duplicates : Nat
  reroutes : Nat
  race : Nat
  nonfinites : Nat
  mismatch : Nat
  deriving DecidableEq, Repr

/-- Power states of an L3 sheaf's domain (R426, R427): `rising` is the wake after its first 20 µs, and `sleeping` is a domain that SLEEP
powers off, its contents gone, until the command's action is complete. -/
inductive SPower | off | waitPll | waitSlot | powering | rising | awake | sleeping
  deriving DecidableEq, Repr

/-- Clock and thermal state of an L3 sheaf (R430 to R438). Temperatures are in 1/16 degree. -/
structure SClock where
  setpoint : Nat
  /-- the setpoint the clock runs by: a DVFS_SET during a stretch applies when the stretch ends (R441) -/
  inForce : Nat
  ceiling : Nat
  temp : Int
  samples : List Int
  stretch : Option Nat
  thermalStretch : Bool
  droopStretch : Bool
  currentStretch : Bool
  limited : Bool
  coolCount : Nat
  raiseCount : Nat
  action : Nat
  eventWindow : Bool
  eventAction : Nat
  ramping : Bool
  deriving DecidableEq, Repr

/-- What the census of one lodge level holds of a sheaf's units (R44): the state of all of them while the domain is not awake, as
the level last heard, and else the reeds' states, IDLE where not listed. -/
structure Census where
  dom : Option UState
  reeds : KMap UState
  deriving DecidableEq, Repr

/-- One L3 sheaf. `census` holds what the lodges of level L1 to L5 have heard of its reeds, by level - 1 (R44). -/
structure Sheaf where
  power : SPower
  withheld : Bool
  reeds : KMap Reed
  census : Vector Census 5
  /-- the sheaf timer: 100 MHz reference periods since the wake (R424) -/
  timer : Nat
  /-- the lane random generators of the sheaf's reeds (R193): the number of the first of the free values that seeded them at the wake, and the
  array cycles by which each has advanced since -/
  laneSeed : Nat
  laneCycles : Nat
  silent : Bool
  repair : KMap L1Repair
  loft : KMap Byte
  numctl : W32
  keys : KMap (W64 × W64)
  clamp : Nat
  filled : Nat
  dropped : Nat
  wv : Weathervane
  colls : List Coll
  clock : SClock
  faultWin : Option FaultWindow
  deriving DecidableEq, Repr

/-- A distributed tensor handle (R252). -/
structure Tensor where
  format : Byte
  dims : List DimRec
  deriving DecidableEq, Repr

/-- A route: the course code and the module reached, hop by hop (R325, R332). -/
abbrev Route := List (Nat × W32)

/-- The route in force to a member, and the alternate (R332, R335). -/
structure RouteRec where
  main : Option Route
  alt : Option Route
  deriving DecidableEq, Repr

/-- An allotment on this module (R329, R403). -/
structure Allot where
  owner : PortIx
  members : List W32
  sheaves : BitVec 256
  fpl : Byte
  det : Bool
  grants : List (Nat × Nat)
  revoking : List (Nat × Nat)
  tensors : KMap Tensor
  routes : KMap RouteRec
  /-- the shape last drawn, SHAPE and the extents, from which its maps are computed again when an eave goes or comes (R340, R368) -/
  shape : Option (Nat × List Nat)
  deriving DecidableEq, Repr

/-- What a COLLECTIVE event of one KIND has counted in the open round (R310). -/
structure Occ where
  bucket : Nat
  rank : Nat
  count : Nat
  lateness : W32
  deriving DecidableEq, Repr

/-- A decision of this module as the decider (R300): its round and run, COMMIT or FAIL, its status, the modules that have acknowledged it, whether
it is applied here, and whether its round is the handle's still, which an abort ends. -/
structure Outcome where
  seq : W32
  run : Byte
  commit : Bool
  status : Status
  acks : List Nat
  applied : Bool
  live : Bool
  deriving DecidableEq, Repr

/-- The module truss's state of one handle (R280, R293, R300 to R305): the participating sheaves, as COLL_DEFINE selected them; the
configured backups by rank; the group, backups and determinism mode of the open round, and whether a course on a route of the group
is down since it was opened or before (R297, R299); its vote; the decisions it has applied (R305); and, on the decider, the votes, those of runs
not yet started, and its own decisions. -/
structure ModColl where
  allot : W16
  handle : W16
  sheaves : List Nat
  backups : KMap W32
  group : List W32
  bk : KMap W32
  det : Bool
  linkDown : Bool
  voted : Bool
  vote : Bool × Status
  isUndecided : Bool
  votes : KMap (Bool × Status)
  early : List (W32 × Byte × Nat × Bool × Status)
  known : List (W32 × Byte × Bool × Status)
  outcomes : List Outcome
  /-- by KIND, with 16 x course for KIND 4 (R299, R310) -/
  occ : KMap Occ
  /-- events written: 256 x SEQ + 16 x course + KIND -/
  eventsDone : List Nat
  deriving DecidableEq, Repr

/-- The sending end of a channel: copper courses are channels 0-4, lane k of eave e is 5 + 32e + k, and the control lanes of eave e
on CA and CB are 261 + 2e and 262 + 2e (R324, R350). `spent` is the credit used up, by CVL, in units of 64 bytes. -/
structure TxChan where
  up : Bool
  next : W16
  unacked : List LinkFrame
  spent : KMap Nat
  deriving DecidableEq, Repr

/-- The receiving end of a channel: LSEQ of the next frame (R324, R326). -/
structure RxChan where
  up : Bool
  next : W16
  deriving DecidableEq, Repr

/-- A frame that waits for a channel of its bundle: whether it keeps its BSEQ, as one sent again over its bundle does; the one
channel it may take, for a flooded frame (R351); and the channel and CVL whose buffer it occupies until it has gone on (R325, R327). -/
structure QFrame where
  frame : LinkFrame
  keep : Bool
  via : Option Nat
  buffer : Option (Nat × Byte)
  deriving DecidableEq, Repr

/-- A copper course (R315 to R317). `serving` holds the lanes that carry traffic and `bad` those that failed. -/
structure Copper where
  trained : Bool
  miswired : Bool
  serving : BitVec 9
  bad : BitVec 9
  peer : Option TableEntry
  deriving DecidableEq, Repr

/-- A message that left the module over the fabric; the model's own record. -/
inductive OutMsg
  | peerReply (dest : W32) (allot : W16) (p : OutPkt)
  | exponent (dest : W32) (f : CFrame)
  | exponentDown (dest : W32) (f : CFrame)
  | bucket (dest : W32) (f : BFrame)
  | nack (dest : W32) (f : CFrame)
  | ack (dest : W32) (f : CFrame)
  | fail (dest : W32) (f : CFrame)
  | vote (dest : W32) (allot handle : W16) (seq : W32) (run : Byte) (rank : Nat) (ok : Bool) (status : Status)
  | decision (dest : W32) (allot handle : W16) (seq : W32) (run : Byte) (rank : Nat) (commit : Bool) (status : Status)
  | decisionAck (dest : W32) (allot handle : W16) (seq : W32) (run : Byte) (rank : Nat)
  | decisionAsk (dest : W32) (allot handle : W16) (seq : W32) (run : Byte) (rank : Nat)
  /-- a frame on a channel, and the channel of which its LACK, NACK and CREDIT speak -/
  | link (ch rev : Nat) (f : LinkFrame)
  /-- news told or relayed (R335) -/
  | control (n : News)
  | laneToken (eave lane : Nat)
  /-- a discovery token of this module on a course: 0 identity, 1 rack lead, 2 group, 3 rack table, 4 row table (R343) -/
  | token (kind course : Nat) (entries : List TableEntry)
  | deliver (f : LinkFrame)
  deriving DecidableEq, Repr

/-- The fabric side of the module (chapter 12). -/
structure Fabric where
  address : W32
  phase : Nat
  table : KMap TableEntry
  lead : W64
  leadRounds : Nat
  ready : Bool
  copper : Vector Copper 5
  tx : KMap TxChan
  rx : KMap RxChan
  /-- bundle peers: channel to the peer its matched lane reaches -/
  peers : KMap W32
  /-- the last lanes of bundles that retuning left without one, with their peers, until the bundle is declared down (R323) -/
  orphans : KMap W32
  /-- flooded frames seen: SRC, TYPE, MSG, SEG (R351) -/
  seen : List (W32 × Byte × W32 × W16)
  /-- modules under an address that another already reported (R344) -/
  conflicts : List TableEntry
  /-- modules that answered group tokens in phase 5 (R343) -/
  answered : List W32
  /-- segments received in order, by source, type and message: the next segment, and the bytes so far (R325) -/
  reassembly : KMap (Nat × List Byte)
  /-- the next MSG, by TYPE (Table 12-7) -/
  nextMsg : KMap W32
  /-- frames that wait for a channel, by bundle (R327) -/
  queue : KMap (List QFrame)
  /-- what is left of the arbitration round to each class of a bundle, and the allotment it served last (R28, R327) -/
  round : KMap Nat
  lastAllot : KMap W16
  /-- BSEQ of the next frame to send and to accept, by bundle and class (Table 12-6), and frames that came ahead of it -/
  bseqTx : KMap W16
  bseqRx : KMap W16
  reorder : KMap (List QFrame)
  /-- frames that wait for a route (R331, R335) -/
  waiting : List QFrame
  /-- hops reported down: course, near and far end -/
  downs : List (Nat × W32 × W32)
  sent : List OutMsg
  deriving DecidableEq, Repr

/-- States of an eave (Table 13-11). -/
inductive EaveSt | off | commissioning | up | degraded | failed | sweeping
  deriving DecidableEq, Repr

/-- A spare armed for a lane, and why (R360, R361, R364). -/
structure Arm where
  lane : Nat
  spare : Nat
  locked : Bool
  moving : Bool
  reason : Nat
  deriving DecidableEq, Repr

/-- An eave (chapter 13). Levels are in 0.1 dB, -128 unlit; temperatures in 1/16 degree. -/
structure Eave where
  st : EaveSt
  /-- the state before a sweep, to which the eave returns -/
  prior : EaveSt
  ca : Bool
  cb : Bool
  caRx : Bool
  cbRx : Bool
  sideband : Bool
  /-- control lanes whose lock is lost, and those declared down: bit 0 CA, bit 1 CB (R356) -/
  ctlLost : BitVec 2
  ctlDown : BitVec 2
  radix : Nat
  map : Option ColourMap
  mapAllot : W16
  laneUp : BitVec 32
  matched : BitVec 32
  quiesced : BitVec 32
  bind : List Nat
  level : List Int
  /-- the fade watcher's last averages of each laser, newest first, at most five (R359) -/
  averages : KMap (List Nat)
  recover : KMap Nat
  arms : List Arm
  badSpare : BitVec 4
  offLaser : List Nat
  miswired : Bool
  offsets : KMap W32
  tempPhot : Int
  /-- outside 35 to 85 degrees, where no ring holds its slot (R355) -/
  outOfRange : Bool
  swaps : Nat
  fails : Nat
  relocks : Nat
  resent : Nat
  downs : Nat
  commEpoch : W32
  linksDown : Bool
  /-- a DOMAIN_SET that turns the eave off waits for its channels to drain (R337) -/
  draining : Bool
  /-- a map that waits for a swap to end (R102); none within is the default map -/
  pendingMap : Option (Option ColourMap)
  /-- lanes below -1.0 dB that found no spare free, in the order they crossed (R363) -/
  fadeWait : List Nat
  /-- the state that follows once the eave's lanes have drained (R368) -/
  pendingDown : Option EaveSt
  deriving DecidableEq, Repr

/-- An ECC event's coalescing window of one page (R387). -/
structure EccWindow where
  kind : Nat
  addr : Nat
  source : Nat
  path : BitVec 24
  sectors : W64
  count : Nat
  /-- the place of its opening among the channel's windows -/
  order : Nat
  deriving DecidableEq, Repr

/-- A memory channel (chapter 14). Page keys are logical pages. `scrubbed` are the pages read in the scrub pass in progress (R385). -/
structure MemChan where
  rate : Nat
  selfRefresh : Bool
  retraining : Bool
  remap : KMap Nat
  sparesUsed : Nat
  failedPages : List Nat
  correctedInPass : KMap Nat
  retiring : List Nat
  windows : KMap EccWindow
  pass : Nat
  scrubbed : List Nat
  /-- check bursts in the check cache, the least recently used first: 2 x physical page + half (R375, R380) -/
  cache : List Nat
  deriving DecidableEq, Repr

/-- A BAR2 access that waits for its page, its channel or its feed die: the bytes a write enables, or none for a read of `n`. -/
structure HeldAccess where
  port : PortIx
  lo : Nat
  n : Nat
  data : Option (List (Option Byte))
  errs : List MemErr
  deriving DecidableEq, Repr

/-- Module memory (chapter 14). -/
structure Memory where
  bytes : KMap Byte
  /-- 32-byte sectors, by address / 32, whose POISON is 1 -/
  poison : List Nat
  chans : KMap MemChan
  corrected : Nat
  uncorrected : Nat
  refreshDouble : BitVec 16
  /-- errors that the accesses of the row in progress have still to find; empty between rows -/
  latent : List MemErr
  /-- BAR2 accesses that wait, in their order of arrival (R389, R394, R439) -/
  waiting : List HeldAccess
  deriving DecidableEq, Repr

/-- A domain's power state (R426). -/
inductive Dom | off | powering | awake | sleeping
  deriving DecidableEq, Repr

/-- A die's array PLL (R424). -/
inductive Pll | off | starting | locked
  deriving DecidableEq, Repr

/-- Module power, clocks, temperatures and pins (chapters 16 and 18). -/
structure Power where
  standby : Bool
  main : Bool
  resetLow : Bool
  stbyOk : Bool
  pwrGood : Bool
  overtemp : Bool
  cap : Nat
  /-- the cap the governor works with: a POWER_CAP during a clock change acts once the change is complete (R441) -/
  capNow : Nat
  ceiling : Nat
  inputW : Nat
  averageW : Nat
  vin12mV : Nat
  /-- energy since power-up in 1/100 mJ: one 10 µs sample of 1 W (Table 4-12) -/
  energy : Nat
  overCount : Nat
  underCount : Nat
  currentStretch : Bool
  eventWindow : Bool
  eventLimited : Bool
  limited : Bool
  tripped : Bool
  pll : Vector Pll 16
  net : Vector Dom 16
  /-- the network timer of each die: 100 MHz reference periods since its domain woke (R424) -/
  netTimer : Vector Nat 16
  feed : Vector Dom 4
  /-- sensors of the feed dies (0-3) and networks (4-19): paced, held -/
  paced : BitVec 20
  held : BitVec 20
  /-- sensors that read 100 °C or more: sheaves 0-255, feed dies 256-259, networks 260-275, eaves
  276-283, memory devices 284-299 -/
  hot : List Nat
  /-- the domains of the copper courses and of the two PCI Express ports (R34, R426) -/
  copper : Vector Dom 5
  ports : Vector Dom 2
  admitQueue : List Nat
  /-- sheaves in the powering phase, in the order their places were granted (R427) -/
  inPhase : List Nat
  halfInrush : Bool
  deriving DecidableEq, Repr

/-- A journal record (Table 17-6). -/
structure JRec where
  seq : Nat
  epoch : W32
  ticks : W64
  type : Nat
  status : Status
  body : List Byte
  deriving DecidableEq, Repr

/-- A flash slot: bytes written since the last erase (R453); the module section it holds, 0 the one shipped in slot A and 2 the golden
image's, which FW_ACTIVATE copies from the running image (R454); and whether a loss of power has cut a write to it (R464). -/
structure Slot where
  bytes : KMap Byte
  erased : Bool
  moduleSection : Option Nat
  cut : Bool
  deriving DecidableEq, Repr

/-- A copy of the journal (R460, R462): the boot-step area, by step; whether its second half is the one in use; the records appended to
that half, oldest first; and the SEQs of those whose CRC fails. -/
structure JCopy where
  area : KMap JRec
  second : Bool
  recs : List JRec
  torn : List Nat
  deriving DecidableEq, Repr

/-- A failed boot step of the previous power-up (R420): step, DETAIL, and the die, channel or eave concerned. -/
structure StepFail where
  step : Nat
  watchdog : Bool
  item : Nat
  deriving DecidableEq, Repr

/-- Boot, fuses, flash and journal (chapters 16 and 17). -/
structure Boot where
  step : Nat
  /-- the main rail was lost and ended the powered epoch; the module waits at step 0x04 (R412) -/
  ended : Bool
  halted : Bool
  degraded : Bool
  detail : Nat
  altered : BitVec 7
  restarts : Nat
  released : Bool
  failures : List StepFail
  gradeB : Bool
  primaryFused : Bool
  debugLeft : Nat
  /-- the debug lock applies: the test access port serves boundary scan only (R448) -/
  debugLocked : Bool
  keyLeft : Nat
  primaryLeft : Nat
  rollbackLeft : Nat
  repairLeft : Nat
  rollbackPending : Nat
  keySlot : Nat
  keyHashes : List (BitVec 256)
  slotA : Slot
  slotB : Slot
  /-- the golden device's image, which no command writes (R414, R451) -/
  golden : Slot
  chosen : Nat
  inUse : Nat
  trial : Option Nat
  lastReleased : Nat
  meas : List (BitVec 256)
  /-- the journal's records as the two copies give them together, oldest first (R415, R460) -/
  journal : List JRec
  copyA : JCopy
  copyB : JCopy
  journalSeq : Nat
  /-- the newest SEQ when the power-up began: the journal's final record at the JOURNAL step (R415) -/
  priorSeq : Nat
  compacted : Nat
  unfused : List Nat
  /-- remap records in the fused repair-map generations (R459) -/
  fusedMap : List JRec
  /-- within 1 ms of a SECURITY event for a SIGNATURE_FAIL record (R463) -/
  sigFailWindow : Bool
  /-- a slot has been abandoned: its FW_FALLBACK record is still to be written, and its SECURITY event to follow at release (R455) -/
  fallbackDue : Bool
  fallback : Bool
  deriving DecidableEq, Repr

/-- The state of the block. -/
structure State where
  pending : List Instr
  /-- the model's own counter that names the next free value -/
  free : Nat
  ticks : W64
  epoch : W32
  tcweight : W32
  port0 : Port
  port1 : Port
  sideband : Option OutPkt
  sidebandBusy : Bool
  lodge : Lodge
  sheaves : KMap Sheaf
  allots : KMap Allot
  modColls : List ModColl
  mem : Memory
  fabric : Fabric
  eaves : Vector Eave 8
  pow : Power
  boot : Boot
  deriving DecidableEq, Repr


/-! ### Reset values -/

/-- A host port after reset (Tables 3-4 to 3-12, 15-3, 15-4, R405). Port 0 is the fused primary (log entry 3). -/
def Port.reset (primary : Bool) : Port :=
  { win := [], takePtr := 0, halted := false, cause := 0, dropped := 0, taken := 0,
    replyBase := 0, replySize := 6, latchedBase := 0, latchedLog2 := 6, head := 0, tail := 0, phase := true,
    enable := false, irqEn := false, vector := 0, coalesceCount := 1, coalesceTime := 0,
    headErr := false, cfgErr := false, hold := [], evGroups := 0xFF, evLost := 0, lostSince := 0,
    evSeq := 1, unsignalled := 0, timerArmed := false, admin := primary, primary := primary,
    perst := false, maxPayload := 128, d3hot := false, aer := 0,
    linkUp := false, speed := 0, width := 0, graceRunning := false, graceElapsed := false,
    bar2Base := 0, bar2Allot := 0, denied := 0, bar2Poisoned := false, msix := [], pba := 0,
    hostMem := [], msiSent := [], bar2Out := none, upEvent := false }

/-- A reed at the wake of its sheaf (R117, R179, R224; Tables 5-2 to 5-9). -/
def Reed.reset : Reed :=
  { st := .idle, regs := Vector.replicate 16 0, loops := [], index := 0, entry := 0, slot := 0xF, vl := 8,
    enProduced := true, enConsumed := false, trapAction := false, trapCount := 0,
    trapRec := { r0 := 0, r1 := 0, r2 := 0, r3 := 0 }, rngMode := true, faultInfo := 0,
    edgePut := 0, edgeGet := 0, cycles := 0, fullq := 0, portStalls := 0, counting := false, ibuf := [], sp := [], bank := [],
    cache := [], qmx := [], qvx := [], qld := [], qst := [], qxp := [], qxg := [], sums := [],
    rxN := [], rxE := [], rxS := [], rxW := [], hold := .none, ended := false, ord := 0, seqNo := 0 }

/-- An L1 sheaf with nothing repaired (R53). -/
def L1Repair.none : L1Repair :=
  { replaced := .none, spareBad := false, retired := .none, l1Retired := false, mapSeq := .none, pending := [] }

/-- The statistics record after WAKE (R264). -/
def WvStats.reset : WvStats :=
  { sampled := 0, wideBoth := 0, skipped := 0, excluded := 0, overTol := 0, maxRel := 0, maxPath := 0, maxInfo := 0,
    suppressed := 0, hist := List.replicate 8 0 }

/-- The weathervane after WAKE (R266). -/
def Weathervane.reset : Weathervane :=
  { enable := false, log2 := 0, tolerance := 0, threshold := 0, reserve := 0, soiled := 0, counter := 0, armed := [],
    captures := [], samples := [], stats := WvStats.reset, eventWindow := false }

/-- A sheaf's clock as its domain powers up or off with a setpoint stored: its ceiling at the setpoint, no action (R437). -/
def SClock.resetAt (mhz : Nat) : SClock :=
  { setpoint := mhz, inForce := mhz, ceiling := mhz, temp := 0, samples := [], stretch := .none, thermalStretch := false,
    droopStretch := false, currentStretch := false, limited := false, coolCount := 0, raiseCount := 0, action := 0,
    eventWindow := false, eventAction := 0, ramping := false }

/-- A sheaf's clock: setpoint 800 MHz, the nominal clock (log entry 2). -/
def SClock.reset : SClock := SClock.resetAt 800

/-- The census of a sheaf whose domain is OFF. -/
def Census.off : Census := { dom := some .off, reeds := [] }

/-- The census of a sheaf that has just entered IDLE. -/
def Census.idle : Census := { dom := .none, reeds := [] }

/-- An L3 sheaf at release: OFF (R76). -/
def Sheaf.reset : Sheaf :=
  { power := .off, withheld := false, reeds := [], census := Vector.replicate 5 Census.off, timer := 0, laneSeed := 0, laneCycles := 0, silent := false, repair := [],
    loft := [], numctl := 0, keys := [], clamp := 0, filled := 0, dropped := 0, wv := Weathervane.reset, colls := [],
    clock := SClock.reset, faultWin := .none }

/-- A channel between modules before it trains or is matched, at either end. -/
def TxChan.reset : TxChan := { up := false, next := 0, unacked := [], spent := [] }
def RxChan.reset : RxChan := { up := false, next := 0 }

/-- A copper course before it trains: lanes 0-7 serve, lane 8 is the spare (R316). -/
def Copper.reset : Copper :=
  { trained := false, miswired := false, serving := 0x0FF, bad := 0, peer := .none }

/-- The fabric side after reset: address from the straps at step 0x00, discovery in phase 1 (R312, R343). -/
def Fabric.reset : Fabric :=
  { address := 0, phase := 1, table := [], lead := 0, leadRounds := 0, ready := false,
    copper := Vector.replicate 5 Copper.reset, tx := [], rx := [], peers := [], orphans := [], seen := [], conflicts := [],
    answered := [], reassembly := [], nextMsg := [], queue := [], round := [], lastAllot := [],
    bseqTx := [], bseqRx := [], reorder := [], waiting := [], downs := [], sent := [] }

/-- An eave that has not been commissioned (Table 13-11). -/
def Eave.reset : Eave :=
  { st := .off, prior := .off, ca := false, cb := false, caRx := false, cbRx := false, sideband := false, radix := 0,
    ctlLost := 0, ctlDown := 0, map := .none, mapAllot := 0, laneUp := 0, matched := 0, quiesced := 0,
    bind := List.replicate 32 255, level := List.replicate 38 (-128), averages := [], recover := [], arms := [],
    badSpare := 0, offLaser := [], miswired := false, offsets := [], tempPhot := 0, outOfRange := false, swaps := 0, fails := 0,
    relocks := 0, resent := 0, downs := 0, commEpoch := 0, linksDown := false, draining := false, pendingMap := .none, fadeWait := [], pendingDown := .none }

/-- A memory channel that trained at the manufacture record's rate (log entry 3), with its 34,952 spares (R374). -/
def MemChan.reset : MemChan :=
  { rate := 0, selfRefresh := false, retraining := false, remap := [], sparesUsed := 0, failedPages := [],
    correctedInPass := [], retiring := [], windows := [], pass := 0, scrubbed := [], cache := [] }

/-- Memory after the zero fill of R379. -/
def Memory.reset : Memory :=
  { bytes := [], poison := [], chans := [], corrected := 0, uncorrected := 0, refreshDouble := 0, latent := [], waiting := [] }

/-- Rails, pins, clocks and governors as a power-up begins: standby good, the main rail not yet (log entry 3). -/
def Power.reset : Power :=
  { standby := true, main := false, resetLow := false, stbyOk := false, pwrGood := false, overtemp := false,
    cap := 3600, capNow := 3600, ceiling := 900, inputW := 0, averageW := 0, vin12mV := 12000, energy := 0, overCount := 0,
    underCount := 0, currentStretch := false, eventWindow := false, eventLimited := false, limited := false,
    tripped := false, pll := Vector.replicate 16 .off, net := Vector.replicate 16 .off,
    netTimer := Vector.replicate 16 0,
    feed := Vector.replicate 4 .off, paced := 0, held := 0, hot := [], copper := Vector.replicate 5 .off,
    ports := Vector.replicate 2 .off, admitQueue := [], inPhase := [],
    halfInrush := false }

/-- An erased flash slot. -/
def Slot.blank : Slot := { bytes := [], erased := true, moduleSection := .none, cut := false }

/-- A copy of the journal with no record. -/
def JCopy.blank : JCopy := { area := [], second := false, recs := [], torn := [] }

/-- Boot at the start of a power-up: BOOTSTEP 0, budgets at shipment (Table 17-1), slot A chosen (R455). -/
def Boot.reset : Boot :=
  { step := 0, ended := false, halted := false, degraded := false, detail := 0, altered := 0, restarts := 0,
    released := false, failures := [], gradeB := false, primaryFused := false, debugLeft := 1, debugLocked := false, keyLeft := 3,
    primaryLeft := 8, rollbackLeft := 64, repairLeft := 16, rollbackPending := 0, keySlot := 0,
    keyHashes := [], slotA := { Slot.blank with erased := false, moduleSection := .some 0 }, slotB := Slot.blank,
    golden := { Slot.blank with erased := false, moduleSection := .some 2 }, chosen := 0, inUse := 0,
    trial := .none, lastReleased := 0, meas := List.replicate 6 0, journal := [], copyA := JCopy.blank, copyB := JCopy.blank,
    journalSeq := 0, priorSeq := 0, compacted := 0, unfused := [], fusedMap := [], sigFailWindow := false, fallbackDue := false,
    fallback := false }

/-- THE STATE AFTER RESET: a power-up begins with the standby rail good; no command is waiting. Every field has the
value the spec states for reset or the value log entries 1 to 3 name. -/
def State.reset : State :=
  { pending := [], free := 0, ticks := 0, epoch := 0, tcweight := 0x00110808,
    port0 := Port.reset true, port1 := Port.reset false, sideband := .none, sidebandBusy := false,
    lodge := { nextId := 1, waiting := [], ops := [], watches := [], ownerTag := 0, silentWin := [] },
    sheaves := [], allots := [], modColls := [], mem := Memory.reset, fabric := Fabric.reset,
    eaves := Vector.replicate 8 Eave.reset, pow := Power.reset, boot := Boot.reset }

end Sys2Proof.Machine
end

