-- ==== Sys2Proof/Machine/Store.lean ====
section
/-!
DEFINITION. Operations on sorted association lists (the model's sparse stores), on little-endian byte strings (R7) and
on bit fields.
-/

namespace Sys2Proof

/-- The value stored under a key, if any. -/
def KMap.look {α : Type} : KMap α → Nat → Option α
  | [], _ => none
  | (k', v) :: t, k => if k' = k then some v else KMap.look t k

/-- Store a value under a key, keeping keys rising. -/
def KMap.ins {α : Type} : KMap α → Nat → α → KMap α
  | [], k, v => [(k, v)]
  | (k', v') :: t, k, v =>
    if k < k' then (k, v) :: (k', v') :: t
    else if k' = k then (k, v) :: t
    else (k', v') :: KMap.ins t k v

/-- Remove a key. -/
def KMap.del {α : Type} : KMap α → Nat → KMap α
  | [], _ => []
  | (k', v) :: t, k => if k' = k then KMap.del t k else (k', v) :: KMap.del t k

/-- The value under a key, an unlisted key reading as the default. -/
def KMap.get {α : Type} (d : α) (m : KMap α) (k : Nat) : α := (KMap.look m k).getD d

/-- Store a value, leaving out an entry equal to the default, so that equal stores are equal data. -/
def KMap.put {α : Type} [DecidableEq α] (d : α) (m : KMap α) (k : Nat) (v : α) : KMap α :=
  if v = d then KMap.del m k else KMap.ins m k v

/-- The canonical form: keys strictly rising, and no entry equal to the default. -/
def KMap.wf {α : Type} [DecidableEq α] (d : α) : KMap α → Bool
  | [] => true
  | [(_, v)] => v ≠ d
  | (k, v) :: (k', v') :: t => decide (k < k') && decide (v ≠ d) && KMap.wf d ((k', v') :: t)

/-- Bytes of a store from an address on. -/
def KMap.bytes (m : KMap Byte) (addr : Nat) : Nat → List Byte
  | 0 => []
  | n + 1 => KMap.get 0 m addr :: KMap.bytes m (addr + 1) n

/-- Write bytes from an address on. -/
def KMap.write (m : KMap Byte) (addr : Nat) : List Byte → KMap Byte
  | [] => m
  | b :: t => KMap.write (KMap.put 0 m addr b) (addr + 1) t

/-- Write bytes from an address on, where some are not enabled. -/
def KMap.writeMasked (m : KMap Byte) (addr : Nat) : List (Option Byte) → KMap Byte
  | [] => m
  | none :: t => KMap.writeMasked m (addr + 1) t
  | some b :: t => KMap.writeMasked (KMap.put 0 m addr b) (addr + 1) t

/-- `n` bytes of a number, little-endian (R7). -/
def leBytes : Nat → Nat → List Byte
  | 0, _ => []
  | n + 1, v => BitVec.ofNat 8 v :: leBytes n (v / 256)

/-- The number a little-endian byte string spells (R7). -/
def ofLe : List Byte → Nat
  | [] => 0
  | b :: t => b.toNat + 256 * ofLe t

/-- `n` bytes of a byte string from an offset, zero beyond its end, as a number. -/
def leAt (bs : List Byte) (off n : Nat) : Nat := ofLe ((bs.drop off).take n)

/-- Pad with zero bytes to a multiple of `n`. -/
def padTo (n : Nat) (bs : List Byte) : List Byte := bs ++ List.replicate ((n - bs.length % n) % n) 0

/-- Bits [hi:lo] of a number. -/
def bitsOf (v hi lo : Nat) : Nat := (v / 2 ^ lo) % 2 ^ (hi + 1 - lo)

/-- One bit of a number. -/
def bitOf (v i : Nat) : Bool := (v / 2 ^ i) % 2 = 1

/-- A Boolean as a bit. -/
def b2n (b : Bool) : Nat := if b then 1 else 0

/-- Division rounded up. -/
def ceilDiv (a b : Nat) : Nat := (a + b - 1) / b

/-- Two's complement reading of the low `w` bits. -/
def toSigned (w v : Nat) : Int :=
  let m := v % 2 ^ w
  if 2 * m < 2 ^ w then (m : Int) else (m : Int) - (2 ^ w : Nat)

/-- The low `w` bits of an integer. -/
def ofInt (w : Nat) (x : Int) : Nat := (x % (2 ^ w : Nat)).toNat

/-- Whether two half-open extents share a byte. -/
def extOverlap (a b : Nat × Nat) : Bool := decide (a.1 < b.2) && decide (b.1 < a.2)

/-- A 256-bit bit map as the list of its set positions. -/
def setBits (w : BitVec n) : List Nat := (List.range n).filter (fun i => w.getLsbD i)

/-- Replace the element at an index of a list; beyond its end nothing changes. -/
def listSet {α : Type} : List α → Nat → α → List α
  | [], _, _ => []
  | _ :: t, 0, v => v :: t
  | x :: t, i + 1, v => x :: listSet t i v

end Sys2Proof
end

