-- ==== Sys2Proof/Machine/Ops.lean ====
section
/-!
DEFINITION. The named operations over the state: reading and writing ports, sheaves and reeds; status and state codes;
unit paths and selections; events and replies. Every meaning is written over these.
-/

namespace Sys2Proof.Machine

/-- What a meaning answers. -/
abbrev Out := Host.Outcome State Fault Refusal

/-! ### Codes -/

/-- The code of a status (Table 4-16). -/
def Status.code : Status → Nat
  | .ok => 0x0000 | .okDegraded => 0x0001 | .badOpcode => 0x0100 | .badLength => 0x0101 | .badParam => 0x0102
  | .badState => 0x0103 | .badUnit => 0x0104 | .noPrivilege => 0x0105 | .engineFused => 0x0106
  | .wrongAllotment => 0x0107 | .alignFault => 0x0200 | .layoutOverlap => 0x0201 | .shardConflict => 0x0202
  | .noRoute => 0x0300 | .fplMismatch => 0x0301 | .checksumMismatch => 0x0400 | .backupSubstituted => 0x0401
  | .contributionLost => 0x0402 | .numericTrap => 0x0500 | .fuseBudgetExhausted => 0x0600
  | .signatureInvalid => 0x0601 | .rollbackRefused => 0x0602 | .linkDown => 0x0700 | .thermalLimit => 0x0701
  | .powerLimit => 0x0702 | .queueOverrun => 0x0703

/-- The statuses of Table 4-16. -/
def allStatuses : List Status :=
  [.ok, .okDegraded, .badOpcode, .badLength, .badParam, .badState, .badUnit, .noPrivilege, .engineFused,
   .wrongAllotment, .alignFault, .layoutOverlap, .shardConflict, .noRoute, .fplMismatch, .checksumMismatch,
   .backupSubstituted, .contributionLost, .numericTrap, .fuseBudgetExhausted, .signatureInvalid, .rollbackRefused,
   .linkDown, .thermalLimit, .powerLimit, .queueOverrun]

/-- The status a code names; a code of no status is taken as `BAD_STATE` (only a peer's vote carries one). -/
def Status.ofCode (n : Nat) : Status := (allStatuses.find? (fun x => x.code = n)).getD .badState

/-- The rank of a status (Table 2-6). -/
def Status.rank : Status → Nat
  | .ok => 0
  | .okDegraded => 1
  | .backupSubstituted => 1
  | _ => 2

/-- Order of badness: by rank, then by code (R46). -/
def Status.key (x : Status) : Nat := x.rank * 65536 + x.code

/-- The worse of two statuses (R46). -/
def Status.worse (a b : Status) : Status := if a.key < b.key then b else a

/-- The code of a unit state (Table 3-13). -/
def UState.code : UState → Nat
  | .off => 0 | .waking => 1 | .idle => 2 | .loaded => 3 | .running => 4 | .paused => 5 | .draining => 6 | .faulted => 7

/-- The unit states by code. -/
def allUStates : List UState := [.off, .waking, .idle, .loaded, .running, .paused, .draining, .faulted]

/-- Precedence of a unit state in a combined reply (R47); the highest is FAULTED. -/
def UState.prec : UState → Nat
  | .off => 0 | .idle => 1 | .loaded => 2 | .paused => 3 | .running => 4 | .waking => 5 | .draining => 6 | .faulted => 7

/-- The state of higher precedence. -/
def UState.top (a b : UState) : UState := if a.prec < b.prec then b else a

/-- The state of highest precedence in a list, if any. -/
def topOf : List UState → Option UState
  | [] => none
  | x :: t => match topOf t with
    | none => some x
    | some y => some (UState.top x y)

/-- Whether a reed in this state counts as busy for R80, R102, R106 and R112. -/
def UState.busy : UState → Bool
  | .running => true | .paused => true | .draining => true | _ => false

/-! ### Ports, sheaves, reeds -/

/-- A port's number. -/
def portNum : PortIx → Nat
  | .port0 => 0
  | .port1 => 1

/-- The other port. -/
def otherPort : PortIx → PortIx
  | .port0 => .port1
  | .port1 => .port0

def State.port (s : State) : PortIx → Port
  | .port0 => s.port0
  | .port1 => s.port1

def State.setPort (s : State) (p : PortIx) (x : Port) : State :=
  match p with
  | .port0 => { s with port0 := x }
  | .port1 => { s with port1 := x }

def State.modPort (s : State) (p : PortIx) (f : Port → Port) : State := s.setPort p (f (s.port p))

def State.sheaf (s : State) (g : Nat) : Sheaf := KMap.get Sheaf.reset s.sheaves g

def State.setSheaf (s : State) (g : Nat) (x : Sheaf) : State :=
  { s with sheaves := KMap.put Sheaf.reset s.sheaves g x }

def State.modSheaf (s : State) (g : Nat) (f : Sheaf → Sheaf) : State := s.setSheaf g (f (s.sheaf g))

/-- A reed of a sheaf by its local index; a reed nothing has touched since the wake reads as reset. -/
def Sheaf.reed (x : Sheaf) (l : Nat) : Reed := KMap.get Reed.reset x.reeds l

def Sheaf.setReed (x : Sheaf) (l : Nat) (r : Reed) : Sheaf := { x with reeds := KMap.put Reed.reset x.reeds l r }

/-- A reed by its index in the module. -/
def State.reed (s : State) (r : Nat) : Reed := (s.sheaf (r / 4096)).reed (r % 4096)

def State.setReed (s : State) (r : Nat) (x : Reed) : State :=
  s.modSheaf (r / 4096) (fun sh => sh.setReed (r % 4096) x)

def State.modReed (s : State) (r : Nat) (f : Reed → Reed) : State := s.setReed r (f (s.reed r))

/-- The repair record of an L1 sheaf of a sheaf (R53). -/
def Sheaf.l1 (x : Sheaf) (k : Nat) : L1Repair := KMap.get L1Repair.none x.repair k

/-- Whether a reed is retired (R54, R55, R419). -/
def Sheaf.retired (x : Sheaf) (l : Nat) : Bool :=
  x.withheld || (x.l1 (l / 16)).l1Retired || decide ((x.l1 (l / 16)).retired = some (l % 16))

/-- How many of a sheaf's reeds are retired. -/
def Sheaf.retiredCount (x : Sheaf) : Nat :=
  if x.withheld then 4096 else
  (x.repair.map (fun e => if e.2.l1Retired then 16 else if e.2.retired.isSome then 1 else 0)).sum

/-- The state every reed of a sheaf has while its domain is not awake (R76). -/
def Sheaf.domState (x : Sheaf) : Option UState :=
  match x.power with
  | .off => some .off
  | .sleeping => some .off
  | .awake => none
  | _ => some .waking

/-- The actual state of a reed (R76). -/
def Sheaf.stOf (x : Sheaf) (l : Nat) : UState := (x.domState).getD (x.reed l).st

/-- What is known of a sheaf's units at a lodge level; level 0 is the units themselves (R44). -/
def Sheaf.heardAt (x : Sheaf) (k : Nat) : Census :=
  if k = 0 then { dom := x.domState, reeds := x.reeds.filterMap (fun e => if e.2.st = .idle then none else some (e.1, e.2.st)) }
  else (x.census.toList[k - 1]?).getD Census.off

/-- The state that lodge level `k` holds for a reed (R44). -/
def Sheaf.censusOf (x : Sheaf) (k l : Nat) : UState := ((x.heardAt k).dom).getD (KMap.get .idle (x.heardAt k).reeds l)

/-- The states of a sheaf's non-retired reeds as lodge level `k` holds them, IDLE once for all that are not listed. -/
def Sheaf.statesAt (x : Sheaf) (k : Nat) : List UState :=
  if x.withheld then [] else
  match (x.heardAt k).dom with
  | some d => [d]
  | none =>
    let listed := ((x.heardAt k).reeds.filter (fun e => !x.retired e.1)).map (·.2)
    (if listed.length + x.retiredCount < 4096 then [UState.idle] else []) ++ listed

/-- The state of highest precedence among the sheaf's non-retired reeds at a lodge level; none when all are retired. -/
def Sheaf.topAt (x : Sheaf) (k : Nat) : Option UState := topOf (x.statesAt k)

/-- Whether a sheaf has a reed in RUNNING, PAUSED or DRAINING, by the module lodge's census. -/
def Sheaf.busyCensus (x : Sheaf) : Bool := (x.statesAt 5).any UState.busy

/-- The highest state among some sheaves' non-retired reeds as the module lodge's census holds it; OFF where there is none. -/
def State.topAmong (s : State) (gs : List Nat) : UState :=
  (topOf (gs.filterMap (fun g => (s.sheaf g).topAt 5))).getD .off

/-- A lodge level hears of the listed reeds of a sheaf, and of its domain: what a lower level, or the sheaf, knows. -/
def Census.hear (c src : Census) (ls : List Nat) : Census :=
  match src.dom with
  | some d => { dom := some d, reeds := [] }
  | none =>
    { dom := none, reeds := ls.foldl (fun m l => KMap.put .idle m l (KMap.get .idle src.reeds l))
                              (if c.dom = none then c.reeds else []) }

/-- The lodges of the levels up to `n` hear what the listed reeds of a sheaf are in. -/
def Sheaf.tell (x : Sheaf) (n : Nat) (ls : List Nat) : Sheaf :=
  { x with census := Vector.ofFn (fun (i : Fin 5) => if i.val < n then x.census[i].hear (x.heardAt 0) ls else x.census[i]) }

/-- The module's state of highest precedence (R47). -/
def State.moduleTop (s : State) : UState := s.topAmong (List.range 256)

/-- The allotment that holds a sheaf; 0 when it is unallotted. -/
def State.allotOf (s : State) (g : Nat) : Nat :=
  ((s.allots.find? (fun e => e.2.sheaves.getLsbD g)).map (·.1)).getD 0

/-- An allotment by its ID; ID 0 names none. -/
def State.allot? (s : State) (a : Nat) : Option Allot := if a = 0 then none else KMap.look s.allots a

/-- Allotments of a port. -/
def State.allotsOf (s : State) (p : PortIx) : List Nat :=
  (s.allots.filter (fun e => decide (e.2.owner = p))).map (·.1)

/-- The next free value (log entry 1). -/
def State.fresh (s : State) : W64 × State := (Config.freeWord s.free, { s with free := s.free + 1 })

/-! ### Unit paths (Tables 2-1, 2-2) -/

/-- The binary path of a reed. -/
def reedPath (r : Nat) : BitVec 24 := BitVec.ofNat 24 (5 * 2 ^ 21 + r)
/-- The binary path of an L3 sheaf. -/
def sheafPath (g : Nat) : BitVec 24 := BitVec.ofNat 24 (2 * 2 ^ 21 + g * 4096)
/-- The binary path of a compute die. -/
def diePath (d : Nat) : BitVec 24 := BitVec.ofNat 24 (2 ^ 21 + d * 65536)

def pathDepth (p : BitVec 24) : Nat := p.toNat / 2 ^ 21
/-- The digit at a depth from 1 to 5. -/
def pathDigit (p : BitVec 24) (k : Nat) : Nat := (p.toNat / 16 ^ (5 - k)) % 16
def pathBit20 (p : BitVec 24) : Bool := p.getLsbD 20
/-- Whether a path is invalid: deeper than 5, or with a digit below its depth (R38). -/
def pathInvalid (p : BitVec 24) : Bool :=
  decide (5 < pathDepth p) || decide ((p.toNat % 2 ^ 20) % 16 ^ (5 - pathDepth p) ≠ 0)

/-- What a command selects: a product of L3 sheaves and of reeds within each. -/
structure Sel where
  sheaves : List Nat
  locals : List Nat
  deriving DecidableEq, Repr

/-- The depth at which a mask filters, with the mask (R39, R40). -/
def maskDepth (p : BitVec 24) (m : W64) : Nat :=
  let k := bitsOf m.toNat 18 16
  if k = 0 then pathDepth p + 1 else k

/-- The digits selected at a depth. -/
def digitsAt (p : BitVec 24) (mask : Option W64) (k : Nat) : List Nat :=
  if k ≤ pathDepth p then [pathDigit p k]
  else match mask with
    | some m => if maskDepth p m = k then (List.range 16).filter (fun i => bitOf m.toNat i) else List.range 16
    | none => List.range 16

/-- All numbers 16a + b for a in one list and b in the other, ascending when both are. -/
def cross (xs ys : List Nat) : List Nat := xs.flatMap (fun a => ys.map (fun b => 16 * a + b))

/-- The reeds a path and mask select (R40). -/
def selOf (p : BitVec 24) (mask : Option W64) : Sel :=
  { sheaves := cross (digitsAt p mask 1) (digitsAt p mask 2),
    locals := cross (cross (digitsAt p mask 3) (digitsAt p mask 4)) (digitsAt p mask 5) }

/-- No unit. -/
def Sel.none : Sel := { sheaves := [], locals := [] }

/-- Whether two selections share a reed. -/
def Sel.meets (a b : Sel) : Bool :=
  a.sheaves.any (fun g => b.sheaves.contains g) && a.locals.any (fun l => b.locals.contains l)

/-- How many units a selection has at the acting level. -/
def Sel.size (x : Sel) (level3 : Bool) : Nat := if level3 then x.sheaves.length else x.sheaves.length * x.locals.length

/-! ### On the package (R19 to R24; Tables 1-3, 1-4) -/

/-- The die at the other end of P link `i` of a die (R20). -/
def pPeer (d i : Nat) : Nat := Nat.xor d (2 ^ i)

/-- The dies on a packet's way between two compute dies, both included: it crosses the P courses in ascending order, leaving out
those in which the two agree (R19). -/
def dieRoute (a b : Nat) : List Nat :=
  ([0, 1, 2, 3].foldl (fun (l : List Nat × Nat) i =>
    if bitOf (Nat.xor a b) i then (l.1 ++ [pPeer l.2 i], pPeer l.2 i) else l) ([a], a)).1

/-- The compute dies linked to a feed die (Table 1-3). -/
def linkedDies (f : Nat) : List Nat :=
  if f = 0 then [0, 1, 14, 15] else if f = 1 then [2, 3, 12, 13] else if f = 2 then [4, 5, 10, 11] else [6, 7, 8, 9]

/-- The feed die a compute die is linked to (R21). -/
def feedOf (d : Nat) : Nat := (([0, 1, 2].find? (fun f => (linkedDies f).contains d))).getD 3

/-- The feed die of a copper course, of a port, and of the module lodge and the module truss (Table 1-4). -/
def courseFeed (c : Nat) : Nat := if c = 0 ∨ c = 2 then 0 else if c = 1 ∨ c = 3 then 1 else 2
def portFeed (p : PortIx) : Nat := portNum p
def lodgeFeed : Nat := 0
def trussFeed : Nat := 3

/-- The die by which a packet enters the field from a feed die on its way to a compute die: that die where it is linked, else the
linked die one P hop from it (R22). -/
def entryDie (f d : Nat) : Nat :=
  if (linkedDies f).contains d then d else ((linkedDies f).find? (fun a => decide ((dieRoute a d).length = 2))).getD d

/-- The dies that a packet between a feed die and a compute die crosses. -/
def feedRoute (f d : Nat) : List Nat := dieRoute (entryDie f d) d

/-- The dies on the shortest ways between two sets of dies (log entry 74: which of them traffic takes is not given). -/
def crossDies (a b : List Nat) : List Nat :=
  let l : List (List Nat) := a.flatMap (fun x => b.map (dieRoute x))
  let n := l.foldl (fun (n : Nat) r => min n r.length) 5
  ((l.filter (fun r => decide (r.length = n))).flatten).dedup

/-- A packet that must cross a sleeping die calls it: its network domain begins to wake (R31, R428). -/
def State.callDies (s : State) (l : List Nat) : State :=
  { s with pow := { s.pow with net := l.foldl (fun v d =>
      if v.toList[d]? = some .sleeping then v.setIfInBounds d .powering else v) s.pow.net } }

/-- The dies a packet crosses between the module lodge and a port (Table 1-4). -/
def portDies (p : PortIx) : List Nat :=
  if portFeed p = lodgeFeed then [] else crossDies (linkedDies lodgeFeed) (linkedDies (portFeed p))

/-- The dies a packet crosses between the module lodge and the unit that a path names (R22). -/
def pathDies (p : BitVec 24) : List Nat := if pathDepth p = 0 then [] else feedRoute lodgeFeed (pathDigit p 1)

/-- Whether a host's accesses reach a port: its link is up, its PERST_N is high, and its function is in D0 (R404, R469, Table 15-1). -/
def Port.reached (x : Port) : Bool := x.linkUp && !x.perst && !x.d3hot

/-! ### Packets out -/

/-- The whole length of a reply or event packet in bytes (R59). -/
def OutPkt.size (k : OutPkt) : Nat := 16 + 8 * ceilDiv k.payload.length 8

/-- Bytes held in a port's holding store (R66). -/
def Port.held (p : Port) : Nat := (p.hold.map OutPkt.size).sum

/-- Ring entries a packet needs (chapter 3, Reply rings). -/
def OutPkt.entries (k : OutPkt) : Nat := ceilDiv k.size 64

/-- Entries of the ring in force. -/
def Port.ringSize (p : Port) : Nat := 2 ^ p.latchedLog2

/-- Free space of the ring (R66). -/
def Port.freeSpace (p : Port) : Nat :=
  p.ringSize - 1 - ((p.tail + p.ringSize - p.head) % p.ringSize)

/-- Whether the packet at the head of the store can be written: it fits, or it can never fit whole and the ring is
empty (R66). -/
def Port.headFits (p : Port) : Bool :=
  match p.hold with
  | [] => false
  | k :: _ => decide (k.entries ≤ p.freeSpace) || (decide (p.ringSize - 1 < k.entries) && decide (p.head = p.tail))

/-- Whether replies are held under R66, so that no packet of the port is taken. -/
def Port.repliesHeld (p : Port) : Bool := p.hold.any (fun k => !k.event) && !p.headFits

/-- Put an event into a port's store: masked by EVCTL (R71), dropped and counted above 48 KiB (R72), otherwise numbered
in the port's sequence unless it is a completion event (R70). -/
def Port.putEvent (p : Port) (group : Nat) (completion : Bool) (k : OutPkt) : Port :=
  if !p.enable || !bitOf p.evGroups.toNat group then p
  else if 49152 < p.held then { p with evLost := min (p.evLost + 1) 0xFFFF, lostSince := p.lostSince + 1 }
  else { p with hold := p.hold ++ [if completion then k else { k with tag := p.evSeq }], evSeq := p.evSeq + 1 }

/-- What an event says (R70, Table 3-9). `ustate` is the state of the unit that raised it. -/
structure Ev where
  opcode : Nat
  group : Nat
  status : Status
  path : BitVec 24
  allot : Nat
  slot : BitVec 4
  ustate : UState
  detail : List Byte
  deriving DecidableEq, Repr

/-- The packet of an event at the present powered time (Table 3-9). -/
def State.eventPkt (s : State) (e : Ev) (tag : W32) : OutPkt :=
  { event := true, cmdId := 0, opcode := BitVec.ofNat 16 e.opcode, status := e.status, ustate := e.ustate, tag := tag,
    path := e.path, slot := e.slot, irq := false,
    payload := leBytes 4 s.epoch.toNat ++ leBytes 4 0 ++ leBytes 8 s.ticks.toNat ++ leBytes 2 e.allot ++
      [BitVec.ofNat 8 e.group] ++ leBytes 5 0 ++ e.detail }

/-- The ports an event goes to (R71). -/
def State.eventPorts (s : State) (allot : Nat) : List PortIx :=
  match s.allot? allot with
  | some a => [a.owner]
  | none => [.port0, .port1]

/-- Write an event (R70 to R72). -/
def State.event (s : State) (e : Ev) : State :=
  (s.eventPorts e.allot).foldl (fun s p => (s.callDies (portDies p)).modPort p (fun x => x.putEvent e.group false (s.eventPkt e 0)))
    (s.callDies (pathDies e.path))

/-- Write an event to one port only (HOST_LINK, WINDOW_FAULT). -/
def State.eventTo (s : State) (p : PortIx) (e : Ev) : State :=
  (s.callDies (portDies p)).modPort p (fun x => x.putEvent e.group false (s.eventPkt e 0))

/-- An event whose source is the module: path `S:`, no allotment, no slot. -/
def State.moduleEvent (s : State) (opcode group : Nat) (st : Status) (detail : List Byte) : State :=
  s.event { opcode := opcode, group := group, status := st, path := 0, allot := 0, slot := 0xF, ustate := s.moduleTop,
            detail := detail }

/-! ### Journal (R460 to R463) -/

/-- The 128 bytes of a journal record (Table 17-6). -/
def JRec.bytes (r : JRec) : List Byte :=
  let head := leBytes 4 r.seq ++ leBytes 4 r.epoch.toNat ++ leBytes 8 r.ticks.toNat ++ leBytes 2 r.type ++
    leBytes 2 r.status.code
  let body := (r.body ++ List.replicate 104 0).take 104
  head ++ leBytes 4 (Config.crc32c (head ++ body)).toNat ++ body

/-- Records of a half of a journal copy: 4,161,536 bytes (R462). -/
def journalHalf : Nat := 32512

/-- What a record supersedes within its kind: channel of TRAINING, eave and lane of LASER_BIND, the one FW_ACTIVATE. -/
def JRec.key (r : JRec) : Option (Nat × Nat) :=
  if r.type = 0x0009 then some (9, leAt r.body 0 2)
  else if r.type = 0x0008 then some (8, leAt r.body 0 2)
  else if r.type = 0x000C then some (12, 0)
  else none

/-- The parts that a record of a step's end names, as a set of bits: dies, channels or eaves (log entry 16). -/
def itemSet (l : List Nat) : Nat := l.foldl (fun a i => a ||| 2 ^ i) 0

/-- Whether a record is a failed step's end, of the step and the part that a failure names (R418). -/
def JRec.tells (r : JRec) (f : StepFail) : Bool :=
  decide (r.type = 0x0002) && decide (leAt r.body 2 1 = 1) && decide (leAt r.body 0 1 = f.step) &&
  (decide (leAt r.body 3 64 = 0) || bitOf (leAt r.body 3 64) f.item)

/-- Whether a record is still in force at a compaction (R462): a remap that is not fused, a step's failure not yet cleared, or the newest
of its kind; `t` holds the newer records. -/
def JRec.inForce (b : Boot) (r : JRec) (t : List JRec) : Bool :=
  (decide (4 ≤ r.type) && decide (r.type ≤ 7) && !(b.fusedMap.map (·.seq)).contains r.seq) ||
  (match r.key with | some k => !(t.any (fun x => x.key = some k)) | none => false) || b.failures.any r.tells

/-- The records a compaction keeps, oldest first: those in force and the newest 4,096 others, which it counts (R462). -/
def compactFrom (b : Boot) : List JRec → List JRec × Nat
  | [] => ([], 0)
  | r :: t =>
    let k := compactFrom b t
    if r.inForce b t then (r :: k.1, k.2) else if k.2 < 4096 then (r :: k.1, k.2 + 1) else k

def compact (b : Boot) (l : List JRec) : List JRec := (compactFrom b l).1

/-- A record is appended to a copy. -/
def JCopy.add (c : JCopy) (r : JRec) : JCopy := { c with recs := c.recs ++ [r] }

/-- A compaction of a copy: the records go into the other half, and the full one is erased (R462). -/
def JCopy.refill (c : JCopy) (l : List JRec) : JCopy := { c with second := !c.second, recs := l, torn := [] }

/-- The records a copy gives: one whose CRC fails is ignored (R460). -/
def JCopy.valid (c : JCopy) : List JRec := c.recs.filter (fun r => !c.torn.contains r.seq)

/-- A record takes its place by SEQ. -/
def insSeq (r : JRec) : List JRec → List JRec
  | [] => [r]
  | x :: t => if r.seq ≤ x.seq then r :: x :: t else x :: insSeq r t

/-- The records of the copy that is read first, with those that the other alone holds (R415). -/
def mergeCopies (a b : List JRec) : List JRec := (b.filter (fun r => !(a.map (·.seq)).contains r.seq)).foldr insSeq a

/-- A full half of copy A is compacted, in both copies (R462). -/
def Boot.makeRoom (b : Boot) : Boot :=
  if b.copyA.recs.length < journalHalf then b
  else
    let l := compact b b.journal
    { b with journal := l, copyA := b.copyA.refill l, copyB := b.copyB.refill l, compacted := b.compacted + 1 }

/-- Append a journal record at the present powered time, to copy A and then to copy B; a full half is compacted first (R460, R462). -/
def State.journalAdd (s : State) (type : Nat) (st : Status) (body : List Byte) : State × JRec :=
  let b := s.boot.makeRoom
  let r : JRec := { seq := b.journalSeq + 1, epoch := s.epoch, ticks := s.ticks, type := type, status := st, body := body }
  ({ s with boot := { b with journal := b.journal ++ [r], copyA := b.copyA.add r, copyB := b.copyB.add r,
                             journalSeq := b.journalSeq + 1 } }, r)

/-- Append a record and write its SECURITY event (R463). -/
def State.journalSecurity (s : State) (type : Nat) (st : Status) (body : List Byte) : State :=
  let r := s.journalAdd type st body
  r.1.moduleEvent 0x0B0F 7 st r.2.bytes

/-- The owner key hash in force (R447). -/
def State.ownerHash (s : State) : BitVec 256 :=
  if s.boot.keySlot = 0 then Config.ownerHash0 else (s.boot.keyHashes[s.boot.keySlot - 1]?).getD 0

/-- The 32 bytes of a hash. -/
def hashBytes (h : BitVec 256) : List Byte := leBytes 32 h.toNat

/-! ### Free bytes -/

/-- `n` bytes of which the spec says only that they hold something (log entry 1). -/
def freeByteList (base : Nat) : Nat → List Byte
  | 0 => []
  | n + 1 => (Config.freeWord base).setWidth 8 :: freeByteList (base + 1) n

/-- Take `n` free bytes. -/
def State.freshBytes (s : State) (n : Nat) : List Byte × State :=
  (freeByteList s.free n, { s with free := s.free + n })

/-! ### Firmware in use -/

/-- The flash slot of a number; 2 is the golden device's image. -/
def Boot.slot (b : Boot) (i : Nat) : Slot := if i = 0 then b.slotA else if i = 1 then b.slotB else b.golden
def Boot.setSlot (b : Boot) (i : Nat) (x : Slot) : Boot :=
  { b with slotA := if i = 0 then x else b.slotA, slotB := if i = 1 then x else b.slotB }

/-- The bytes of a flash slot that a command has written. -/
def slotBytes (b : Boot) (i : Nat) : KMap Byte := (b.slot i).bytes

/-- The module section of the image in use: the golden image has its own (R452). -/
def Boot.sectionInUse (b : Boot) : Nat := (b.slot b.inUse).moduleSection.getD 0

def fwVersionInUse (s : State) : W32 := Config.fwVersion s.boot.inUse (slotBytes s.boot s.boot.inUse)
def fplInUse (s : State) : Byte := Config.fpl s.boot.inUse (slotBytes s.boot s.boot.inUse)

/-- Whether the sheaf's array clock runs: awake, not held by action 3 or a module trip (R437, R440). -/
def clockRuns (s : State) (g : Nat) : Bool :=
  decide ((s.sheaf g).power = .awake) && !(s.sheaf g).clock.limited && !s.pow.tripped

/-- Whether a die holds all its traffic, by its own sensor or by a module trip (R439, R440): feed dies are 0-3, compute dies 4-19. -/
def dieHolds (s : State) (k : Nat) : Bool := s.pow.held.getLsbD k || s.pow.tripped

/-- Whether a compute die of a route holds its traffic. -/
def routeHolds (s : State) (ds : List Nat) : Bool := ds.any (fun d => dieHolds s (4 + d))

/-- Whether a sheaf's truss works: its clock runs and its die takes traffic (R439, R441). -/
def trussRuns (s : State) (g : Nat) : Bool := clockRuns s g && !dieHolds s (4 + g / 16)

/-- Whether a frame's FPL lies within one of this module's (R457). -/
def fplNear (own fpl : Byte) : Bool := decide (own.toNat ≤ fpl.toNat + 1) && decide (fpl.toNat ≤ own.toNat + 1)
def svnInUse (s : State) : Byte := Config.svn s.boot.inUse (slotBytes s.boot s.boot.inUse)

end Sys2Proof.Machine
end

