-- ==== Sys2Proof/Machine/Loft.lean ====
section
/-!
DEFINITION. Writes to a loft as the truss sees them (R282): recorded in the source buckets of a collective, dropped in frozen
ones. The place of this module in a collective's group (R280), and the counts behind COLLECTIVE events (R310).
-/

namespace Sys2Proof.Machine

/-! ### The group (R280) -/

/-- The module truss's record of a handle. -/
def State.modColl (s : State) (a h : W16) : Option ModColl :=
  s.modColls.find? (fun m => decide (m.allot = a) && decide (m.handle = h))

/-- Change the module truss's record of a handle. -/
def State.modModColl (s : State) (a h : W16) (f : ModColl → ModColl) : State :=
  { s with modColls := s.modColls.map (fun m => if m.allot = a ∧ m.handle = h then f m else m) }

/-- What this module is in a handle's open round. -/
inductive Role | rank (r : Nat) | backup (r : Nat) | outside
  deriving DecidableEq, Repr

/-- The position of an address in a list, if it stands there. -/
def positionIn (a : W32) : List W32 → Option Nat
  | [] => none
  | x :: t => if x = a then some 0 else (positionIn a t).map (· + 1)

/-- The role of this module: its rank, or the rank it backs (R280, R293). -/
def ModColl.role (m : ModColl) (own : W32) : Role :=
  match positionIn own m.group with
  | some r => .rank r
  | none => match m.bk.find? (fun e => decide (e.2 = own)) with
    | some e => .backup e.1
    | none => .outside

/-- The rank whose program this module runs. -/
def Role.actsFor : Role → Option Nat
  | .rank r => some r
  | .backup r => some r
  | .outside => none

/-- The sheaves of this module that hold a handle now, ascending. -/
def State.collSheaves (s : State) (a h : W16) : List Nat :=
  (s.sheaves.filter (fun e => e.2.colls.any (fun c => decide (c.allot = a) && decide (c.handle = h)))).map (·.1)

/-- The participating sheaves of a handle: those its COLL_DEFINE selected, whether or not they still hold it (R280, R306). -/
def State.collParts (s : State) (a h : W16) : List Nat := ((s.modColl a h).map (·.sheaves)).getD []

/-- The place q of a sheaf among them. -/
def State.collPlace (s : State) (a h : W16) (g : Nat) : Nat :=
  ((s.collParts a h).filter (fun x => decide (x < g))).length

/-- The bucket index of bucket `b` of a sheaf: q x BUCKETS + b (R280). -/
def State.bucketIndex (s : State) (c : Coll) (g b : Nat) : Nat := s.collPlace c.allot c.handle g * c.plan.buckets.toNat + b

/-! ### Counts behind COLLECTIVE events (R310) -/

/-- Count occurrences of a KIND, with 16 x course for KIND 4, in the open round of a handle. -/
def State.noteOcc (s : State) (a h : W16) (kind bucket rank n : Nat) (late : W32) : State :=
  if n = 0 then s else
  s.modModColl a h (fun m => { m with occ := match KMap.look m.occ kind with
    | none => KMap.ins m.occ kind { bucket := bucket, rank := rank, count := n, lateness := late }
    | some o => KMap.ins m.occ kind { o with count := o.count + n, lateness := if o.lateness.toNat < late.toNat then late else o.lateness } })

/-! ### Source buckets (R282) -/

/-- Bytes of an element: FP32 or BF16 (Table 11-1). -/
def collElem (f : Byte) : Nat := if f = 0 then 4 else 2

/-- A source bucket with nothing recorded. -/
def SrcBucket.empty : SrcBucket := { segs := [], frozen := false }

/-- Bytes of a source bucket. -/
def Coll.srcBytes (c : Coll) : Nat := 512 * collElem c.plan.fmt

/-- Loft offset of a source bucket by its key 2 x bucket + buffer. -/
def Coll.srcOff (c : Coll) (k : Nat) : Nat :=
  (if k % 2 = 0 then c.plan.src0.toNat else c.plan.src1.toNat) + (k / 2) * c.srcBytes

/-- The source bucket that holds a loft address. -/
def Coll.srcKey (c : Coll) (a : Nat) : Option Nat :=
  let n := c.plan.buckets.toNat * c.srcBytes
  if c.plan.src0.toNat ≤ a ∧ a < c.plan.src0.toNat + n then some (2 * ((a - c.plan.src0.toNat) / c.srcBytes))
  else if c.plan.src1.toNat ≤ a ∧ a < c.plan.src1.toNat + n then some (2 * ((a - c.plan.src1.toNat) / c.srcBytes) + 1)
  else none

def Coll.source (c : Coll) (k : Nat) : SrcBucket := KMap.get SrcBucket.empty c.src k
def Coll.setSource (c : Coll) (k : Nat) (x : SrcBucket) : Coll := { c with src := KMap.put SrcBucket.empty c.src k x }

/-- The local rounds a bucket has gone through. -/
def Coll.usedOf (c : Coll) (b : Nat) : Nat := KMap.get 0 c.used b

/-- Whether the contribution of bucket `b` to the open round is ready. -/
def Coll.isReady (c : Coll) (b : Nat) : Bool := decide (c.base + c.accumn ≤ c.usedOf b)

/-- The ACC bucket that holds a loft address, where it is frozen as the contribution to the open round (R283). -/
def Coll.accFrozen (c : Coll) (a : Nat) : Option Nat :=
  let b := (a - c.plan.acc.toNat) / 2048
  if c.plan.acc ≠ 0xFFFFFFFF ∧ c.plan.acc.toNat ≤ a ∧ b < c.plan.buckets.toNat ∧ 1 < c.accumn ∧ c.isReady b then some b else none

/-- Whether a loft address lies in a frozen source or ACC bucket. -/
def Coll.frozenAt (c : Coll) (a : Nat) : Bool := (c.srcKey a).any (fun k => (c.source k).frozen) || (c.accFrozen a).isSome

/-- Record a segment of a source bucket as written by a reed, or by a command (4096). -/
def Coll.recordSeg (c : Coll) (who k seg : Nat) : Coll :=
  let x := c.source k
  c.setSource k { x with segs := (x.segs.filter (fun e => decide (e.1 ≠ seg))) ++ [(seg, who)] }

/-- The segments, as pairs of bucket key and segment, that a list of addresses touches outside frozen buckets. -/
def Coll.segsOf (c : Coll) (as : List Nat) : List (Nat × Nat) :=
  (as.filterMap (fun a => (c.srcKey a).bind (fun k =>
    if (c.source k).frozen then none else some (k, (a - c.srcOff k) / 16)))).dedup

/-- The buckets whose frozen source or ACC a list of addresses touches, once for each. -/
def Coll.racesOf (c : Coll) (as : List Nat) : List Nat :=
  ((as.filterMap (fun a => (c.srcKey a).bind (fun k => if (c.source k).frozen then some k else none))).dedup).map (· / 2) ++
  (as.filterMap c.accFrozen).dedup

/-- Whether a handle records this module's sources: for BROADCAST the ROOT rank's only (R284). -/
def State.recordsFor (s : State) (c : Coll) : Bool :=
  if c.plan.op = 3 then
    match s.modColl c.allot c.handle with
    | some m => (m.role s.fabric.address).actsFor = some c.plan.root.toNat
    | none => false
  else true

/-- One handle's part in a write: RACE counts each frozen bucket the write touches, and the other segments are recorded where
`rec` says the write is of a recording kind. -/
def Coll.noteWrite (c : Coll) (who : Nat) (records : Bool) (as : List Nat) : Coll :=
  let n := (c.racesOf as).length
  let c := if records then (c.segsOf as).foldl (fun c e => c.recordSeg who e.1 e.2) c else c
  { c with race := min (c.race + n) 0xFFFFFFFF }

/-- Write bytes to a loft. `slot` is the captured slot of an ST, and none for a loft command or a TENSOR_MOVE, which record
for every handle (R282). -/
def State.loftStore (s : State) (g who : Nat) (slot : Option (BitVec 4)) (ws : List (Nat × Byte)) : State :=
  let sh := s.sheaf g
  let as := ws.map (·.1)
  let keep := if sh.colls.isEmpty then ws else ws.filter (fun w => !sh.colls.any (fun c => c.frozenAt w.1))
  let note := fun (c : Coll) => c.noteWrite who ((slot.isNone || decide (slot = some c.slot)) && s.recordsFor c) as
  let t := s.setSheaf g { sh with loft := keep.foldl (fun m w => KMap.put 0 m w.1 w.2) sh.loft, colls := sh.colls.map note }
  sh.colls.foldl (fun s c =>
    let rs := c.racesOf as
    s.noteOcc c.allot c.handle 7 (s.bucketIndex c g (rs.head?.getD 0)) 0xFFFF rs.length 0) t

/-- A unit reset of a reed: segments it recorded in buckets not yet ready become unrecorded (R306). -/
def Coll.withdraw (c : Coll) (l : Nat) : Coll :=
  { c with src := (c.src.map (fun e => if e.2.frozen then e else
      (e.1, { e.2 with segs := e.2.segs.filter (fun x => decide (x.2 ≠ l)) }))).filter (fun e => decide (e.2 ≠ SrcBucket.empty)) }

end Sys2Proof.Machine
end

