-- ==== Sys2Proof/Machine/Topo.lean ====
section
/-!
DEFINITION. Coordinates, courses and routes (R312 to R319, R332 to R335).
-/

namespace Sys2Proof.Machine

/-! ### Addresses (Table 12-1) and courses (Table 12-2) -/

def adC (a : W32) : Nat := a.toNat % 32
def adX (a : W32) : Nat := a.toNat / 32 % 16
def adY (a : W32) : Nat := a.toNat / 512 % 16
def mkAddr (c x y : Nat) : W32 := BitVec.ofNat 32 (c + 32 * x + 512 * y)
/-- Whether a reserved bit of an address is set (R312). -/
def addrReserved (a : W32) : Bool := decide (2 ^ 13 ≤ a.toNat)

/-- The coordinate of an address on an optical course: 5 L, 6 X, 7 Y. -/
def coordOn (course : Nat) (a : W32) : Nat := if course = 5 then adC a else if course = 6 then adX a else adY a
/-- The address with another coordinate on an optical course. -/
def withCoord (course : Nat) (a : W32) (k : Nat) : W32 :=
  if course = 5 then mkAddr k (adX a) (adY a) else if course = 6 then mkAddr (adC a) k (adY a) else mkAddr (adC a) (adX a) k
/-- Whether two addresses agree on every coordinate but that of an optical course. -/
def sameGroup (course : Nat) (a b : W32) : Bool := decide (withCoord course a (coordOn course b) = b)
/-- The radix of a course (Table 13-5). -/
def radixOf (course : Nat) : Nat := if course = 5 then 32 else 16
/-- The eaves of an optical course (R318). -/
def eavesOf (course : Nat) : List Nat := if course = 5 then [0, 1] else if course = 6 then [2, 3, 4] else [5, 6, 7]
/-- The course of an eave. -/
def courseOf (e : Nat) : Nat := if e < 2 then 5 else if e < 5 then 6 else 7
/-- The plane of an eave (R318). -/
def planeOf (e : Nat) : Nat := if e < 2 then e else if e < 5 then e - 2 else e - 5

/-- The copper neighbour's C coordinate (R314). -/
def copperPeer (c i : Nat) : Nat :=
  let t := Nat.xor c (2 ^ i)
  let t := if 2 ≤ i ∧ c % 2 = 1 then Nat.xor t 2 else t
  if i = 4 ∧ bitOf c 2 = true then Nat.xor t 8 else t

/-- The address of the copper neighbour on course `i`. -/
def copperAddr (a : W32) (i : Nat) : W32 := mkAddr (copperPeer (adC a) i) (adX a) (adY a)

/-- The channel of lane `k` of eave `e`; copper courses are channels 0 to 4 (R324). -/
def laneChan (e k : Nat) : Nat := 5 + 32 * e + k
/-- The channel of a control lane of eave `e`: 0 on CA, 1 on CB (R350). -/
def ctlChan (e c : Nat) : Nat := 261 + 2 * e + c
/-- The eave and lane of an optical channel: data lanes 0 to 31, CA 32, CB 33. -/
def laneAt (ch : Nat) : Nat × Nat :=
  if ch < 261 then ((ch - 5) / 32, (ch - 5) % 32) else ((ch - 261) / 2, 32 + (ch - 261) % 2)
/-- The channel of a lane numbered as `laneAt` does. -/
def chanOf (e k : Nat) : Nat := if k < 32 then laneChan e k else ctlChan e (k - 32)
/-- The course of a channel. -/
def chanCourse (ch : Nat) : Nat := if ch < 5 then ch else courseOf (laneAt ch).1

def State.tx (s : State) (ch : Nat) : TxChan := KMap.get TxChan.reset s.fabric.tx ch
def State.rx (s : State) (ch : Nat) : RxChan := KMap.get RxChan.reset s.fabric.rx ch
def State.modTx (s : State) (ch : Nat) (f : TxChan → TxChan) : State :=
  { s with fabric := { s.fabric with tx := KMap.put TxChan.reset s.fabric.tx ch (f (s.tx ch)) } }
def State.modRx (s : State) (ch : Nat) (f : RxChan → RxChan) : State :=
  { s with fabric := { s.fabric with rx := KMap.put RxChan.reset s.fabric.rx ch (f (s.rx ch)) } }
def State.eave (s : State) (e : Nat) : Eave := (s.eaves.toList[e]?).getD Eave.reset
def State.modEave (s : State) (e : Nat) (f : Eave → Eave) : State :=
  { s with eaves := s.eaves.setIfInBounds e (f (s.eave e)) }

/-- Whether a lane is lit: a laser serves it and the eave's data lanes run (Table 13-11). -/
def Eave.isLit (x : Eave) (k : Nat) : Bool :=
  decide ((x.bind[k]?).getD 255 ≠ 255) && (decide (x.st = .up) || decide (x.st = .degraded))

/-- Whether an eave passed its commissioning and is neither off, sweeping nor being commissioned (Table 13-11). -/
def Eave.isUp (x : Eave) : Bool := decide (x.st = .up) || decide (x.st = .degraded)

/-- Whether a map in force turns every lane of an eave off. -/
def Eave.allOff (x : Eave) : Bool := x.map.any (fun m => m.tx.all (fun t => decide (t = 255)))

/-- Whether an eave's data lanes are up (R32): commissioned, linked to a die (R24), wired right (R344), within the range in which its
rings hold (R355), with a lane that a laser serves, and not every lane that is on without its lock and declared down (R326, R356). -/
def Eave.dataUp (x : Eave) : Bool :=
  x.isUp && !x.linksDown && !x.miswired && !x.outOfRange && x.bind.any (fun l => decide (l ≠ 255)) &&
  (decide (x.laneUp ≠ 0) || decide (x.matched ≠ 0) || x.allOff)

/-- Whether a control lane's fixed laser works and it is not declared down (R356, R365). Control lanes stay up through a
sweep (R368). -/
def Eave.ctlOn (x : Eave) (c : Nat) : Bool := (if c = 0 then x.ca else x.cb) && !x.ctlDown.getLsbD c

/-- The duplicate of an eave (Table 13-3). -/
def duplicateOf (e : Nat) : Nat := if e < 2 then 1 - e else if e < 5 then (e - 2 + 1) % 3 + 2 else (e - 5 + 1) % 3 + 5

/-- Whether an eave's domain is powered (R34). -/
def State.eavePowered (s : State) (e : Nat) : Bool := decide ((s.eave e).st ≠ .off)

/-- Whether a control lane is up: with both eave links down it is only while its eave's and the duplicate's domains are (R24, R352). -/
def State.ctlOn (s : State) (e c : Nat) : Bool :=
  (s.eave e).ctlOn c && s.eavePowered e && (!(s.eave e).linksDown || s.eavePowered (duplicateOf e))

/-- Whether a control lane carries frames: up, and locked (R351, R356). -/
def State.ctlUp (s : State) (e c : Nat) : Bool := s.ctlOn e c && !(s.eave e).ctlLost.getLsbD c

/-- Tell each eave whether its control goes through the sideband: both its links are down, or both its fixed lasers have failed, and
the duplicate is powered (R352, R365). -/
def State.judgeSideband (s : State) : State :=
  { s with eaves := Vector.ofFn (fun (e : Fin 8) => { s.eaves[e] with
      sideband := s.eavePowered e && s.eavePowered (duplicateOf e) && (s.eaves[e].linksDown || (!s.eaves[e].ca && !s.eaves[e].cb)) }) }

/-! ### Courses and dies (R22, R24) -/

/-- The dies that a packet between the module lodge and a peer crosses: those between the lodge's feed die and the course by which the
peer's packets go (R22, R24). -/
def courseDies (c : Nat) : List Nat :=
  if c < 5 then (if courseFeed c = lodgeFeed then [] else crossDies (linkedDies lodgeFeed) (linkedDies (courseFeed c)))
  else crossDies (linkedDies lodgeFeed) ((eavesOf c).flatMap (fun e => [2 * e, 2 * e + 1]))

/-! ### Slots (R319, R321, R351) -/

/-- The slot of a lane in the default map (R321); 255 is off. -/
def defaultSlot (e k : Nat) : Nat :=
  if courseOf e = 5 then (if k ≤ 30 then k + 1 else 255)
  else if k ≤ 14 then k + 1 else if k ≤ 29 then k + 2 else 255

/-- A lane's transmit (or receive) slot under a map; no map is the default map. -/
def slotOf (tx : Bool) (e k : Nat) : Option ColourMap → Nat
  | none => defaultSlot e k
  | some m => (((if tx then m.tx else m.rx)[k]?).getD 255).toNat

/-- The module `n` positions on from this one on an eave's course. -/
def around (s : State) (e n : Nat) : W32 :=
  let c := courseOf e
  withCoord c s.fabric.address ((coordOn c s.fabric.address + n) % radixOf c)

/-- The module a lane's transmit slot reaches (R319). -/
def txPeer (s : State) (e slot : Nat) : W32 := around s e slot

/-- The module a lane's receive slot hears (R319). -/
def rxPeer (s : State) (e slot : Nat) : W32 := around s e (40 * radixOf (courseOf e) - slot)

/-- The module that the transmit side of a lane reaches by its slot; CA reaches port p - 1 and CB port p + 8 (R319, R351). -/
def farEnd (s : State) (ch : Nat) : Option W32 :=
  if ch < 5 then some (copperAddr s.fabric.address ch)
  else if ch < 261 then KMap.look s.fabric.peers ch
  else some (around s (laneAt ch).1 (if (laneAt ch).2 = 32 then radixOf (chanCourse ch) - 1 else 8))

/-- The module that the receive side of a channel hears: CA port p + 1, CB port p - 8 (R319, R351). -/
def nearEnd (s : State) (ch : Nat) : W32 :=
  if ch < 5 then copperAddr s.fabric.address ch
  else if ch < 261 then rxPeer s (laneAt ch).1 (slotOf false (laneAt ch).1 (laneAt ch).2 (s.eave (laneAt ch).1).map)
  else around s (laneAt ch).1 (if (laneAt ch).2 = 32 then 1 else radixOf (chanCourse ch) - 8)

/-! ### Channels that are up -/

/-- Whether a lane carries frames: lit and locked, matched, and its channel up (R320, R324). -/
def laneCarries (s : State) (e k : Nat) : Bool :=
  (s.eave e).laneUp.getLsbD k && (s.eave e).matched.getLsbD k && (s.tx (laneChan e k)).up

/-- Whether a lane is matched with its channel up; it may have lost its lock and have it back within 2 ms (R356). -/
def laneMatched (s : State) (e k : Nat) : Bool := (s.eave e).matched.getLsbD k && (s.tx (laneChan e k)).up

/-- The power state of a copper course's domain (R426). -/
def State.courseDom (s : State) (c : Nat) : Dom := (s.pow.copper.toList[c]?).getD .off

/-- Whether a copper course carries new frames: up, and its domain not about to power off (R337). -/
def courseCarries (s : State) (c : Nat) : Bool := (s.tx c).up && decide (s.courseDom c = .awake)

/-- The lanes of this module's bundle to a peer on a course (R320); those of an eave that is to power off are drained (R337). -/
def bundleLanes (s : State) (course : Nat) (peer : W32) : List (Nat × Nat) :=
  ((eavesOf course).filter (fun e => !(s.eave e).draining)).flatMap (fun e => ((List.range 32).filter (fun k =>
    laneMatched s e k && decide (KMap.look s.fabric.peers (laneChan e k) = some peer))).map (fun k => (e, k)))

/-- The lanes on which this module hears a peer's bundle. -/
def heardLanes (s : State) (course : Nat) (peer : W32) : List Nat :=
  (eavesOf course).flatMap (fun e => ((List.range 32).map (laneChan e)).filter (fun ch =>
    (s.rx ch).up && decide (nearEnd s ch = peer)))

/-- A module's fabric table entry. -/
def State.entry (s : State) (a : W32) : Option TableEntry := KMap.look s.fabric.table a.toNat

/-- Whether a module can be on a route: this one, or one found and not in conflict, absent or lost (R344, R346). -/
def usable (s : State) (a : W32) : Bool :=
  decide (a = s.fabric.address) || (s.entry a).any (fun e => decide (e.state = 1) || decide (e.state = 2))

/-- Whether a hop was reported down: a copper course by either end, a bundle by the end that sends on it (R335). -/
def reportedDown (s : State) (course : Nat) (a b : W32) : Bool :=
  s.fabric.downs.contains (course, a, b) || (decide (course < 5) && s.fabric.downs.contains (course, b, a))

/-- Whether the hop from one module to another on a course is up, by this module's own channels and the fabric table (R332). A bundle
that retuning left without a lane is not down before 2 ms have passed (R323). -/
def hopUp (s : State) (course : Nat) (a b : W32) : Bool :=
  let own := s.fabric.address
  if a = own then
    if course < 5 then courseCarries s course
    else !(bundleLanes s course b).isEmpty || s.fabric.orphans.any (fun o => decide (o.2 = b) && decide (chanCourse o.1 = course))
  else if b = own then
    (if course < 5 then courseCarries s course else !(heardLanes s course a).isEmpty) && !reportedDown s course a b
  else
    !reportedDown s course a b && (match s.entry a, s.entry b with
      | some x, some y =>
        if course < 5 then x.copper.getLsbD course && y.copper.getLsbD course
        else (eavesOf course).any (fun e => x.eavesUp.getLsbD e && y.eavesUp.getLsbD e)
      | _, _ => false)

/-! ### Routes (R332) -/

/-- The lexicographically lowest copper path of exactly `n` hops whose modules satisfy `mem`. -/
def copperExact (mem : Nat → Bool) (t : Nat) : Nat → Nat → Option (List Nat)
  | 0, c => if c = t then some [] else none
  | n + 1, c => [0, 1, 2, 3, 4].findSome? (fun i =>
      let d := copperPeer c i
      if mem d then (copperExact mem t n d).map (i :: ·) else none)

/-- The shortest copper path of at most six hops. -/
def copperShortest (mem : Nat → Bool) (c t : Nat) : Option (List Nat) :=
  [1, 2, 3, 4, 5, 6].findSome? (fun n => copperExact mem t n c)

/-- segment() of R332: the course codes from C to C' within a rack. -/
def segment (s : State) (mem : W32 → Bool) (x y c c' : Nat) : Option (List Nat) :=
  if c = c' then some []
  else
    let p := copperShortest (fun d => mem (mkAddr d x y)) c c'
    if p.any (fun l => decide (l.length ≤ 3)) then p
    else if hopUp s 5 (mkAddr c x y) (mkAddr c' x y) && hopUp s 5 (mkAddr c' x y) (mkAddr c x y) then some [5]
    else p

/-- Follow course codes from a module; an optical hop leads to the coordinate of the destination. -/
def follow (q : W32) : W32 → List Nat → Route
  | _, [] => []
  | a, i :: t =>
    let b := if i < 5 then copperAddr a i else withCoord i a (coordOn i q)
    (i, b) :: follow q b t

/-- A candidate of R332: the optical hops in an order, with the change of C in the rack at position `place` of the path. -/
def candidate (s : State) (mem : W32 → Bool) (p q : W32) (order : List Nat) (place : Nat) : Option Route :=
  let hops := order.filter (fun i => decide (coordOn i p ≠ coordOn i q))
  if hops.length < place then none
  else
    let before := hops.take place
    let rack := before.foldl (fun a i => withCoord i a (coordOn i q)) p
    (segment s mem (adX rack) (adY rack) (adC p) (adC q)).map (fun l =>
      follow q p (before ++ l ++ hops.drop place))

/-- Whether every module of a path is a member and every channel is up. -/
def pathUp (s : State) (mem : W32 → Bool) : W32 → Route → Bool
  | _, [] => true
  | a, h :: t => mem h.2 && usable s h.2 && hopUp s h.1 a h.2 && pathUp s mem h.2 t

/-- The places of R332: destination rack, source rack, middle rack. -/
def places (p q : W32) (order : List Nat) : List Nat :=
  let n := (order.filter (fun i => decide (coordOn i p ≠ coordOn i q))).length
  [n, 0] ++ (if n = 2 then [1] else [])

/-- Every valid candidate, in the order of R332. -/
def candidates (s : State) (mem : W32 → Bool) (p q : W32) : List Route :=
  ([[6, 7], [7, 6]].flatMap (fun o => (places p q o).map (fun k => candidate s mem p q o k))).filterMap (fun r =>
    r.bind (fun l => if pathUp s mem p l then some l else none))

/-- The first route of fewest hops. -/
def shortest : List Route → Option Route
  | [] => none
  | r :: t => match shortest t with
    | none => some r
    | some b => if b.length < r.length then some b else some r

/-- The channels of a route: course and both ends. -/
def routeHops : W32 → Route → List (Nat × W32 × W32)
  | _, [] => []
  | a, h :: t => (h.1, a, h.2) :: routeHops h.2 t

/-- Whether a module is of grade B: this one, or one whose entry says so (Table 12-11). -/
def isGradeB (s : State) (a : W32) : Bool :=
  if a = s.fabric.address then s.boot.gradeB else (s.entry a).any (fun e => e.copper.getLsbD 5)

/-- Whether two modules stand on one board (R313). -/
def sameBoard (a b : W32) : Bool := decide (adC a / 4 = adC b / 4) && decide (adX a = adX b) && decide (adY a = adY b)

/-- Whether a member of grade B is joined with a module beyond its board (R3, R333). -/
def offBoard (s : State) (members : List W32) : Bool :=
  members.any (fun a => isGradeB s a && members.any (fun b => !sameBoard a b))

/-- The route of R332 and the alternate of R335. None leads from or to a grade B module beyond its board (R333). -/
def routesTo (s : State) (mem : W32 → Bool) (q : W32) : RouteRec :=
  let p := s.fabric.address
  let cs := if offBoard s [p, q] then [] else candidates s mem p q
  match shortest cs with
  | none => { main := none, alt := none }
  | some m =>
    let used := routeHops p m
    { main := some m, alt := shortest (cs.filter (fun r => !(routeHops p r).any (fun h => used.contains h))) }

/-- The routes of an allotment from this module to its other members. -/
def allotRoutes (s : State) (members : List W32) : KMap RouteRec :=
  (members.filter (fun a => decide (a ≠ s.fabric.address))).foldl (fun m a =>
    KMap.ins m a.toNat (routesTo s (fun b => members.contains b) a)) []

/-- Whether every member can be reached. -/
def allReached (m : KMap RouteRec) : Bool := m.all (fun e => e.2.main.isSome)

/-- The route in force of an allotment to a member. -/
def State.route (s : State) (a : W16) (q : W32) : Option Route :=
  ((s.allot? a.toNat).bind (fun x => KMap.look x.routes q.toNat)).bind (·.main)

end Sys2Proof.Machine
end

