-- ==== Sys2Proof/Machine/Channel.lean ====
section
/-!
DEFINITION. Channels between modules: link frames, credit, windows and arbitration (R324 to R328, R350, R351), the routes that their
headers carry (R325), and the messages that leave this module (R60, R331).
-/

namespace Sys2Proof.Machine

/-! ### Ends of a channel -/

/-- Whether the sending end of a channel is up; a control lane is up while its laser works (R324, R350). -/
def State.txUp (s : State) (ch : Nat) : Bool :=
  if ch < 261 then (s.tx ch).up else s.ctlOn (laneAt ch).1 ((laneAt ch).2 - 32)

/-- Whether the receiving end of a channel is up. -/
def State.rxUp (s : State) (ch : Nat) : Bool :=
  if ch < 261 then (s.rx ch).up else s.ctlOn (laneAt ch).1 ((laneAt ch).2 - 32)

/-- Whether a channel takes frames now: up, and its domain not about to power off (R337); a data lane not quiesced, nor withheld while its
eave's lanes drain (R356, R368), with a link to a die (R24) and its rings within their range (R355). The die behind it takes traffic (R439). -/
def chanOpen (s : State) (ch : Nat) : Bool :=
  if ch < 5 then courseCarries s ch && !dieHolds s (courseFeed ch)
  else
    let x := s.eave (laneAt ch).1
    let k := (laneAt ch).2
    !x.draining && (if k < 32 then laneMatched s (laneAt ch).1 k && !x.quiesced.getLsbD k && x.pendingDown.isNone && !x.linksDown &&
      !x.outOfRange && !(dieHolds s (4 + 2 * (laneAt ch).1) && dieHolds s (5 + 2 * (laneAt ch).1)) else s.ctlUp (laneAt ch).1 (k - 32))

/-- A bundle (or copper course) as a key, and with a class. -/
def bundleOf (course : Nat) (peer : W32) : Nat := course * 2 ^ 32 + peer.toNat
def bundleKey (course : Nat) (peer : W32) (cls : Nat) : Nat := bundleOf course peer * 4 + cls

/-- The class of a frame and the virtual lane it takes, which is its HOP (Table 12-6, R325). -/
def frameClass (f : LinkFrame) : Nat := f.cvl.toNat % 4
def cvlOf (cls hop : Nat) : Byte := BitVec.ofNat 8 (cls % 4 + 4 * (hop % 8))

/-- Credit units of a frame: its payload with the fabric header, in units of 64 bytes (Table 12-6). -/
def frameUnits (f : LinkFrame) : Nat := ceilDiv (24 + f.payload.length) 64
/-- Bytes of a frame in the retransmit buffer: link header, payload with the fabric header, and CRC (R324). -/
def frameBytes (f : LinkFrame) : Nat := 44 + f.payload.length
/-- The retransmit window of a channel (Tables 12-8, 13-2). -/
def windowOf (ch : Nat) : Nat := if ch < 5 then 262144 else if ch < 261 then 32768 else 8192

/-- Whether a channel has credit and window for a frame (R324, R326). -/
def hasRoom (s : State) (ch : Nat) (f : LinkFrame) : Bool :=
  let c := s.tx ch
  let cvl := cvlOf (frameClass f) f.hop.toNat
  decide (KMap.get 0 c.spent cvl.toNat + frameUnits f ≤ (Config.bufferUnits cvl.toNat).toNat) &&
  decide ((c.unacked.map frameBytes).sum + frameBytes f ≤ windowOf ch)

/-! ### Sending link frames -/

/-- Record a message that leaves the module. -/
def State.record (s : State) (m : OutMsg) : State := { s with fabric := { s.fabric with sent := s.fabric.sent ++ [m] } }

/-- The reverse channel of which a frame's LACK speaks: the same copper course, or a lane on which the peer's bundle is heard
(log entry 72: R326 does not pair lanes). -/
def reverseOf (s : State) (ch : Nat) : Nat :=
  if ch < 5 then ch
  else match farEnd s ch with
    | some p => ((heardLanes s (chanCourse ch) p).head?).getD ch
    | none => ch

/-- Send a frame on a channel, hold it until it is acknowledged, and spend its credit (R324, R326). -/
def txFrame (s : State) (ch : Nat) (f : LinkFrame) : State :=
  let c := s.tx ch
  let rev := reverseOf s ch
  let g := { f with lseq := c.next, lack := (s.rx rev).next - 1, nack := false, creditOnly := false, park := false,
                    credit := 0, creditCvl := 0, crcOk := true }
  (s.modTx ch (fun c => { c with
    next := c.next + 1, unacked := c.unacked ++ [g],
    spent := KMap.put 0 c.spent g.cvl.toNat (KMap.get 0 c.spent g.cvl.toNat + frameUnits g) })).record (.link ch rev g)

/-- A frame without a payload that speaks of a channel on which this module hears a peer: it goes on the copper course, or on the first
lane to that peer (R326). -/
def answerLink (s : State) (ch : Nat) (nack park : Bool) (credit : Nat) (cvl : Byte) : State :=
  let out := if ch < 5 then some ch
    else ((bundleLanes s (chanCourse ch) (nearEnd s ch)).head?).map (fun e => laneChan e.1 e.2)
  match out with
  | none => s
  | some o => s.record (.link o ch
    { lseq := (s.tx o).next, lack := (s.rx ch).next - 1, cvl := 0, nack := nack, creditOnly := true, park := park, bseq := 0,
      credit := BitVec.ofNat 16 credit, creditCvl := cvl, crcOk := true, dest := 0, srcAddr := 0, allot := 0, hop := 0,
      ftype := 4, route := 0, msg := 0, seg := 0, segs := 1, fpl := 0, payload := [] })

/-- Give back the credit of a frame that has left its buffer (R324, R325). -/
def creditBack (s : State) (f : LinkFrame) : Option (Nat × Byte) → State
  | none => s
  | some b => answerLink s b.1 false false (frameUnits f) b.2

/-! ### Bundles: which frame goes next, and on which lane (R327) -/

/-- The channels of a bundle that a class may take: the copper course, or the matched lanes, and for C0 also a control lane whose peer
is the next hop (R327, R351). -/
def bundleChans (s : State) (course : Nat) (peer : W32) (cls : Nat) : List Nat :=
  if course < 5 then [course]
  else (bundleLanes s course peer).map (fun e => laneChan e.1 e.2) ++
    (if cls = 0 then ((eavesOf course).flatMap (fun e => [ctlChan e 0, ctlChan e 1])).filter (fun ch =>
      decide (farEnd s ch = some peer)) else [])

/-- The channel a waiting frame can take now. -/
def chanFor (s : State) (course : Nat) (peer : W32) (q : QFrame) : Option Nat :=
  (match q.via with | some ch => [ch] | none => bundleChans s course peer (frameClass q.frame)).find? (fun ch =>
    chanOpen s ch && hasRoom s ch q.frame)

/-- Whether two waiting frames must keep their order: one class, allotment and virtual lane (R327). -/
def QFrame.sameFlow (a b : QFrame) : Bool :=
  decide (frameClass a.frame = frameClass b.frame) && decide (a.frame.allot = b.frame.allot) &&
  decide (a.frame.hop = b.frame.hop) && decide (a.via = b.via)

/-- The frames of a bundle that can leave now, each with its channel: those that are sent again, and the first of each flow. -/
def sendable (s : State) (course : Nat) (peer : W32) : List (QFrame × Nat) :=
  let l := KMap.get [] s.fabric.queue (bundleOf course peer)
  (l.filter (fun q => q.keep || decide (l.find? (fun r => !r.keep && r.sameFlow q) = some q))).filterMap (fun q =>
    (chanFor s course peer q).map (fun ch => (q, ch)))

/-- The weight of a class (R33). -/
def classWeight (s : State) (cls : Nat) : Nat :=
  max 1 (bitsOf s.tcweight.toNat (if cls = 1 then 3 else if cls = 2 then 11 else 19) (if cls = 1 then 0 else if cls = 2 then 8 else 16))

/-- The class that is served of those that have a frame to send: C0 first, then the others in turn within a round (R26 to R28). -/
def classNow (s : State) (course : Nat) (peer : W32) (l : List (QFrame × Nat)) : Nat :=
  let cs := (List.range 4).filter (fun c => l.any (fun q => decide (frameClass q.1.frame = c)))
  if cs.contains 0 then 0
  else (cs.find? (fun c => decide (0 < KMap.get 0 s.fabric.round (bundleKey course peer c)))).getD (cs.headD 1)

/-- A class spends one frame of its share of the round; a class whose share is gone starts a new round. -/
def spendRound (s : State) (course : Nat) (peer : W32) (cls : Nat) : State :=
  if cls = 0 then s
  else
    let key := bundleKey course peer
    let m := if KMap.get 0 s.fabric.round (key cls) = 0 then
        [1, 2, 3].foldl (fun m c => KMap.put 0 m (key c) (classWeight s c)) s.fabric.round
      else s.fabric.round
    { s with fabric := { s.fabric with round := KMap.put 0 m (key cls) (KMap.get 0 m (key cls) - 1) } }

/-- The allotment served next: by round-robin in ascending ID. -/
def allotNow (last : W16) (ids : List W16) : W16 :=
  let low := fun (l : List W16) => l.foldl (fun (a : Option W16) x => match a with
    | none => some x
    | some y => if x.toNat < y.toNat then some x else a) none
  ((low (ids.filter (fun i => decide (last.toNat < i.toNat)))).orElse (fun _ => low ids)).getD 0

/-- The frame that leaves next, and its channel (R327): a frame sent again first, then the allotment whose turn it is, its highest
virtual lane first. -/
def pickFrame (s : State) (course : Nat) (peer : W32) : Option (QFrame × Nat) :=
  let all := sendable s course peer
  if all = [] then none
  else
    let cls := classNow s course peer all
    let mine := all.filter (fun q => decide (frameClass q.1.frame = cls))
    match mine.find? (fun q => q.1.keep) with
    | some q => some q
    | none =>
      let a := allotNow (KMap.get 0 s.fabric.lastAllot (bundleKey course peer cls)) (mine.map (·.1.frame.allot))
      let l := mine.filter (fun q => decide (q.1.frame.allot = a))
      let top := l.foldl (fun n q => max n q.1.frame.hop.toNat) 0
      l.find? (fun q => decide (q.1.frame.hop.toNat = top))

/-- A frame leaves on a channel: it takes the next BSEQ unless it keeps its own, and gives its buffer's credit back. -/
def launch (s : State) (course : Nat) (peer : W32) (q : QFrame) (ch : Nat) : State :=
  let cls := frameClass q.frame
  let key := bundleKey course peer cls
  let n := KMap.get 0 s.fabric.bseqTx key
  let s := spendRound s course peer cls
  let s := { s with fabric := { s.fabric with
    queue := KMap.put [] s.fabric.queue (bundleOf course peer) ((KMap.get [] s.fabric.queue (bundleOf course peer)).erase q),
    lastAllot := KMap.put 0 s.fabric.lastAllot key q.frame.allot,
    bseqTx := if q.keep then s.fabric.bseqTx else KMap.put 0 s.fabric.bseqTx key (n + 1) } }
  creditBack (txFrame s ch { q.frame with cvl := cvlOf cls q.frame.hop.toNat, bseq := if q.keep then q.frame.bseq else n })
    q.frame q.buffer

/-- Send the frames of a bundle that can leave, one after the other. -/
def serve : Nat → State → Nat → W32 → State
  | 0, s, _, _ => s
  | n + 1, s, course, peer =>
    match pickFrame s course peer with
    | some q => serve n (launch s course peer q.1 q.2) course peer
    | none => s

/-- Serve a bundle as far as its lanes, credit and windows allow. -/
def serveBundle (s : State) (course : Nat) (peer : W32) : State :=
  serve (KMap.get [] s.fabric.queue (bundleOf course peer)).length s course peer

/-- Serve the bundle that a channel belongs to. -/
def serveChan (s : State) (ch : Nat) : State :=
  match farEnd s ch with
  | some p => serveBundle s (chanCourse ch) p
  | none => s

/-- Put a frame into a bundle's queue; frames that keep their BSEQ stand before the others. -/
def queueFrame (s : State) (course : Nat) (peer : W32) (q : QFrame) : State :=
  let key := bundleOf course peer
  let l := KMap.get [] s.fabric.queue key
  let l := if q.keep then l.filter (·.keep) ++ [q] ++ l.filter (fun r => !r.keep) else l ++ [q]
  serveBundle { s with fabric := { s.fabric with queue := KMap.put [] s.fabric.queue key l } } course peer

/-- Serve the bundles of an eave's lanes. -/
def serveEave (s : State) (e : Nat) : State := (List.range 32).foldl (fun s k => serveChan s (laneChan e k)) s

/-! ### A network domain wakes (R24, R352, R428) -/

/-- A die's network domain wakes; its network timer starts at 0, and an eave whose links were both down runs again over this die's link
(R24, R352, R424, R428). -/
def wakeNet (s : State) (d : Nat) : State :=
  if (s.pow.net.toList[d]?).getD .off = .sleeping ∨ (s.pow.net.toList[d]?).getD .off = .powering then
    let s := { s with pow := { s.pow with net := s.pow.net.setIfInBounds d .awake, netTimer := s.pow.netTimer.setIfInBounds d 0 } }
    if (s.eave (d / 2)).linksDown then serveEave (s.modEave (d / 2) (fun x => { x with linksDown := false })).judgeSideband (d / 2) else s
  else s

/-- A packet between the module lodge and a die's sheaves wakes the domains it must cross (R428). -/
def wakeRoute (s : State) (d : Nat) : State := (feedRoute lodgeFeed d).foldl wakeNet s

/-! ### Routes in headers (Table 12-7) -/

/-- The course code of hop `h` in a ROUTE word. -/
def routeAt (r : W32) (h : Nat) : Nat := r.toNat / 16 ^ h % 16

/-- The number spelled by 4-bit digits, lowest first. -/
def ofNibbles : List Nat → Nat
  | [] => 0
  | d :: t => d + 16 * ofNibbles t

/-- Course codes as a ROUTE word, 0xF after the last. -/
def routeWord (codes : List Nat) : W32 := BitVec.ofNat 32 (ofNibbles ((codes ++ List.replicate 8 15).take 8))

/-- This module's route for a frame: its allotment's, whose members it goes to (R331). A reply `WRONG_ALLOTMENT` to a module beyond goes by
the route with every module as a member (R330; log entry 72). -/
def ownRoute (s : State) (a : W16) (q : W32) (beyond : Bool) : Option Route :=
  if (s.allot? a.toNat).any (fun x => x.members.contains q) then s.route a q
  else if beyond then (routesTo s (usable s) q).main else none

/-- Whether a frame is a peer reply `WRONG_ALLOTMENT` (R75, R330). -/
def wrongReply (f : LinkFrame) : Bool :=
  decide (f.ftype = 1) && decide (f.seg = 0) && decide (leAt f.payload 2 2 = Status.wrongAllotment.code)

/-- Send a frame over this module's own route to its DEST while the HOP count stays at most 8 (R335); none where no route allows it.
On the bundle `old` it keeps its BSEQ. -/
def sendOn (s : State) (old : Option (Nat × W32)) (q : QFrame) : Option State :=
  let f := q.frame
  match ownRoute s f.allot f.dest (wrongReply f) with
  | some (h :: t) =>
    if f.hop.toNat + (t.length + 1) ≤ 8 then
      let before := (List.range f.hop.toNat).map (routeAt f.route)
      some (queueFrame s h.1 h.2 { q with
        frame := { f with route := routeWord (before ++ (h :: t).map (·.1)) }, keep := q.keep && decide (old = some h), via := none })
    else none
  | _ => none

/-- A frame waits for a route (R331, R335). -/
def waitFrame (s : State) (q : QFrame) : State :=
  { s with fabric := { s.fabric with waiting := s.fabric.waiting ++ [{ q with keep := false }] } }

/-! ### Messages of this module -/

/-- The pieces of a message that fit a frame: 4,200 bytes each (R325). -/
def segmentsOf (bs : List Byte) : List (List Byte) :=
  (List.range (max 1 (ceilDiv bs.length 4200))).map (fun i => (bs.drop (4200 * i)).take 4200)

/-- Number a message of a TYPE (Table 12-7). -/
def takeMsg (s : State) (ftype : Byte) : W32 × State :=
  let n := KMap.get 0 s.fabric.nextMsg ftype.toNat
  (n, { s with fabric := { s.fabric with nextMsg := KMap.put 0 s.fabric.nextMsg ftype.toNat (n + 1) } })

/-- A frame of this module before it is routed. -/
def ownFrame (s : State) (allot : W16) (dest : W32) (ftype : Byte) (cls : Nat) (msg : W32) (seg segs : Nat) (bs : List Byte) :
    LinkFrame :=
  { lseq := 0, lack := 0, cvl := cvlOf cls 0, nack := false, creditOnly := false, park := false, bseq := 0, credit := 0, creditCvl := 0,
    crcOk := true, dest := dest, srcAddr := s.fabric.address, allot := allot, hop := 0, ftype := ftype, route := 0, msg := msg,
    seg := BitVec.ofNat 16 seg, segs := BitVec.ofNat 16 segs, fpl := fplInUse s, payload := bs }

/-- Send a message to another module, in segments, over its allotment's route; without a route its frames wait (R325, R331). -/
def postMsg (s : State) (allot : W16) (dest : W32) (ftype : Byte) (cls : Nat) (bs : List Byte) : State :=
  if dest = s.fabric.address then s
  else
    let m := takeMsg s ftype
    let parts := segmentsOf bs
    parts.zipIdx.foldl (fun s p =>
      let q : QFrame := { frame := ownFrame s allot dest ftype cls m.1 p.2 parts.length p.1, keep := false, via := none, buffer := none }
      (sendOn s none q).getD (waitFrame s q)) m.2

/-- The bytes of a packet as written to a ring whose largest packet is `cap` entries (R59, R66). -/
def OutPkt.ringBytes (k : OutPkt) (phase : Bool) (cap : Nat) : List Byte :=
  let cut := decide (cap < k.entries)
  let total := if cut then 64 * cap else k.size
  let head : List Byte := [BitVec.ofNat 8 (b2n phase + 2 * b2n k.event + 4 * b2n cut + 16), BitVec.ofNat 8 k.ustate.code] ++
    leBytes 2 k.status.code ++ leBytes 2 (total / 8) ++ leBytes 2 k.opcode.toNat ++ leBytes 4 k.tag.toNat ++
    leBytes 3 k.path.toNat ++ [BitVec.ofNat 8 k.slot.toNat]
  (padTo 8 (head ++ k.payload)).take total

/-- The fields of a collective control frame (R290). -/
structure CtlFields where
  handle : W16
  seq : W32
  run : Byte
  bucket : Nat
  sender : Nat
  flags : Nat
  x : Int
  status : Nat
  planId : W32
  deriving DecidableEq, Repr

/-- A collective control frame's bytes. R290 names its fields and lays out none of them; the order here is the model's (log
entry 72). -/
def CtlFields.bytes (f : CtlFields) (kind : Nat) : List Byte :=
  leBytes 2 f.handle.toNat ++ leBytes 1 kind ++ leBytes 1 f.flags ++ leBytes 4 f.seq.toNat ++ leBytes 4 f.bucket ++ leBytes 2 f.sender ++
  [f.run, 0] ++ leBytes 2 (ofInt 16 f.x) ++ leBytes 2 f.status ++ leBytes 4 f.planId.toNat

def ctlOf (f : CFrame) : CtlFields :=
  { handle := f.handle, seq := f.seq, run := f.run, bucket := f.bucket, sender := f.sender,
    flags := b2n f.backup + 2 * b2n f.nonfinite, x := f.x, status := f.status.toNat, planId := f.planId }

/-- The plan of a handle, from any sheaf that holds it. -/
def planOf (s : State) (a h : W16) : Option Plan :=
  s.sheaves.findSome? (fun e => (e.2.colls.find? (fun c => decide (c.allot = a) && decide (c.handle = h))).map (·.plan))

/-- A vote or decision message: no bucket. -/
def voteFields (s : State) (a h : W16) (seq : W32) (run : Byte) (rank : Nat) (ok : Bool) (status : Nat) : CtlFields :=
  { handle := h, seq := seq, run := run, bucket := 0, sender := rank, flags := b2n ok, x := 0, status := status,
    planId := ((planOf s a h).map (·.planId)).getD 0 }

/-- Bytes of an element in a bucket frame's payload (R290). -/
def frameElem (s : State) (f : BFrame) : Nat :=
  if f.kind.toNat < 2 then 8
  else ((planOf s f.allot f.handle).map (fun p => collElem (if f.kind = 2 then p.outFmt else p.fmt))).getD 4

/-- A bucket frame's bytes (Table 11-3). -/
def frameImage (s : State) (f : BFrame) : List Byte :=
  leBytes 2 f.handle.toNat ++ leBytes 2 f.allot.toNat ++ leBytes 4 f.seq.toNat ++ leBytes 4 f.bucket ++ leBytes 2 f.sender ++
  [f.kind] ++ leBytes 1 (b2n f.backup + 2 * b2n f.nonfinite + 4 * b2n f.substituted) ++ leBytes 2 (ofInt 16 f.exp) ++
  leBytes 2 f.count ++ [f.run] ++ leBytes 1 f.attempt ++ [f.fpl, 0] ++ leBytes 4 f.planId.toNat ++ leBytes 4 0 ++
  leBytes 8 f.cs1 ++ leBytes 8 f.cs2 ++ leBytes 16 0 ++ f.words.flatMap (fun w => leBytes (frameElem s f) w.toNat)

/-- The frames of a message: peer replies and control frames in C0, bucket frames in C1 (Table 1-7, Table 12-7). -/
def OutMsg.post (s : State) : OutMsg → State
  | .peerReply d a k => postMsg s a d 1 0 (k.ringBytes false 1024)
  | .exponent d f => postMsg s f.allot d 3 0 ((ctlOf f).bytes 0)
  | .exponentDown d f => postMsg s f.allot d 3 0 ((ctlOf f).bytes 1)
  | .ack d f => postMsg s f.allot d 3 0 ((ctlOf f).bytes 2)
  | .nack d f => postMsg s f.allot d 3 0 ((ctlOf f).bytes 3)
  | .fail d f => postMsg s f.allot d 3 0 ((ctlOf f).bytes 4)
  | .vote d a h q r k ok st => postMsg s a d 3 0 ((voteFields s a h q r k ok st.code).bytes 5)
  | .decision d a h q r k ok st => postMsg s a d 3 0 ((voteFields s a h q r k ok st.code).bytes 6)
  | .decisionAck d a h q r k => postMsg s a d 3 0 ((voteFields s a h q r k true 0).bytes 7)
  | .decisionAsk d a h q r k => postMsg s a d 3 0 ((voteFields s a h q r k true 0).bytes 8)
  | .bucket d f => postMsg s f.allot d 2 1 (frameImage s f)
  | .link _ _ _ => s
  | .control _ => s
  | .laneToken _ _ => s
  | .token _ _ _ => s
  | .deliver _ => s

/-- Send a message: it is recorded, and its frames start on their way. -/
def State.send (s : State) (m : OutMsg) : State := OutMsg.post (s.record m) m

/-! ### Fabric control and discovery (R335, R343, R351) -/

/-- Whether an eave has a control lane that carries frames. -/
def State.ctlAny (s : State) (e : Nat) : Bool := s.ctlUp e 0 || s.ctlUp e 1

/-- The two eaves on which a control frame of a course is sent: the lowest whose control lanes are up, and its duplicate, or the next
that is up (R351). -/
def ctlEaves (s : State) (course : Nat) : List Nat :=
  match (eavesOf course).find? (fun e => s.ctlAny e) with
  | none => []
  | some e =>
    let d := duplicateOf e
    e :: (if s.ctlAny d then [d]
      else ((eavesOf course).filter (fun x => decide (e < x) && s.ctlAny x)).take 1)

/-- Whether an eave is up at a module, by this module's own eaves or the fabric table. -/
def eaveUpOf (s : State) (e : Nat) (a : W32) : Bool :=
  if a = s.fabric.address then (s.eave e).dataUp else (s.entry a).any (fun x => x.eavesUp.getLsbD e)

/-- The matched keep lanes of a course: at the slot equal to the offset, on the first eave up at both ends (R340). An eave whose lanes are
about to go down has none (R337, R368). -/
def keepLanes (s : State) (course : Nat) : List Nat :=
  ((eavesOf course).filter (fun e => !(s.eave e).draining && (s.eave e).pendingDown.isNone)).flatMap (fun e => ((List.range 32).filter (fun k =>
    laneMatched s e k && decide (slotOf true e k (s.eave e).map < radixOf course) &&
    decide ((eavesOf course).find? (fun x => eaveUpOf s x s.fabric.address &&
      (farEnd s (laneChan e k)).any (fun p => eaveUpOf s x p)) = some e))).map (laneChan e))

/-- The channels of a course on which a flooded frame goes. -/
def floodChans (s : State) (course : Nat) : List Nat :=
  if course < 5 then (if (s.tx course).up then [course] else [])
  else (ctlEaves s course).flatMap (fun e => ([0, 1].filter (fun c => s.ctlUp e c)).map (ctlChan e)) ++ keepLanes s course

/-- Flood a message on some courses (R351): TYPE 4, ALLOT 0, one hop each time, in segments from `seg` on (R325). -/
def flood (s : State) (courses : List Nat) (src : W32) (msg : W32) (seg : W16) (bs : List Byte) : State :=
  let parts := segmentsOf bs
  courses.foldl (fun s c => (floodChans s c).foldl (fun s ch =>
    match farEnd s ch with
    | none => s
    | some p => parts.zipIdx.foldl (fun s b => queueFrame s c p
        { frame := { ownFrame s 0 p 4 0 msg (seg.toNat + b.2) parts.length b.1 with srcAddr := src },
          keep := false, via := some ch, buffer := none }) s) s) s

/-- Remember the frames of a flooded message, so that a repeat is discarded (R351). -/
def markSeen (s : State) (src msg : W32) (segs : Nat) : State :=
  { s with fabric := { s.fabric with seen := s.fabric.seen ++ (List.range segs).map (fun i => (src, 4, msg, BitVec.ofNat 16 i)) } }

/-- The bytes of news of a channel. R335 gives no layout; the order is the model's (log entry 72). -/
def newsBytes (n : News) : List Byte :=
  leBytes 1 n.course ++ leBytes 4 n.endA.toNat ++ leBytes 4 n.endB.toNat ++ leBytes 2 n.chan ++ leBytes 1 (b2n n.up + 2 * b2n n.hop)

/-- Pass news on over some courses (R335, R351). -/
def relayNews (s : State) (courses : List Nat) (src msg : W32) (seg : W16) (n : News) : State :=
  flood (s.record (.control n)) courses src msg seg (newsBytes n)

/-- Tell news to the groups and the copper neighbours (R335). -/
def sendNews (s : State) (src msg : W32) (seg : W16) (n : News) : State := relayNews s (List.range 8) src msg seg n

/-- The 16 bytes of a fabric table entry (Table 12-11). -/
def entryBytes (e : TableEntry) : List Byte :=
  leBytes 4 e.addr.toNat ++ [e.state, e.fpl, e.eavesUp, e.copper] ++ leBytes 8 e.fabricId.toNat

/-- The bytes of a discovery token: its kind and entries. R343 gives no layout; it is the model's (log entry 72). -/
def tokenBytes (kind : Nat) (entries : List TableEntry) : List Byte := leBytes 1 (16 + kind) ++ entries.flatMap entryBytes

/-- Record that a discovery token goes out on some courses. -/
def noteToken (s : State) (kind : Nat) (courses : List Nat) (entries : List TableEntry) : State :=
  courses.foldl (fun s c => s.record (.token kind c entries)) s

/-- Send a discovery token of this module on some courses (R343). -/
def sendToken (s : State) (kind : Nat) (courses : List Nat) (entries : List TableEntry) : State :=
  let m := takeMsg (noteToken s kind courses entries) 4
  let bs := tokenBytes kind entries
  flood (markSeen m.2 m.2.fabric.address m.1 (segmentsOf bs).length) courses m.2.fabric.address m.1 0 bs

/-- Forward a discovery token once on some courses (R351). -/
def relayToken (s : State) (kind : Nat) (courses : List Nat) (src msg : W32) (entries : List TableEntry) : State :=
  let bs := tokenBytes kind entries
  flood (markSeen (noteToken s kind courses entries) src msg (segmentsOf bs).length) courses src msg 0 bs

/-! ### Replies (R58, R60, R66, R75, R410) -/

/-- Record a command that keeps its reply at the lodge until the holding store has room (R66). -/
def Op.stored (id : Nat) (cmd : Instr) (p : PortIx) (k : OutPkt) : Op :=
  { id := id, cmd := cmd, todo := [], acting := [], deaf := [], acted := false, selected := 0, answered := 0, retired := 0, lateSkipped := 0,
    silent := 0, entries := [], note := none, pieces := [], wait := .store p, prepared := some k }

/-- Whether a reply to a port still waits at its lodge, so that every later one waits behind it (R60, R66). -/
def State.storedFor (s : State) (p : PortIx) : Bool := s.lodge.ops.any (fun o => decide (o.wait = .store p))

/-- The dies that a message to a peer crosses from the module lodge to the course by which it leaves. -/
def peerDies (s : State) (a : W16) (dest : W32) (st : Status) : List Nat :=
  match ownRoute s a dest (decide (st = .wrongAllotment)) with
  | some (h :: _) => courseDies h.1
  | _ => []

/-- Send a reply: to the ring's holding store, over the fabric to a peer, or to the sideband (R60, R66, R75, R410).
QUIET suppresses an `OK` reply; a disabled ring discards it (R58, R405). -/
def State.sendReply (s : State) (h : Hdr) (cmd : Instr) (k : OutPkt) : State :=
  let quiet := h.quiet && decide (k.status = .ok)
  match h.src with
  | .port p =>
    if quiet || !(s.port p).enable then s
    else
      let s := s.callDies (portDies p)
      if !(s.storedFor p) && decide ((s.port p).held + k.size ≤ 65536) then s.modPort p (fun x => { x with hold := x.hold ++ [k] })
      else { s with lodge := { s.lodge with ops := s.lodge.ops ++ [Op.stored k.cmdId cmd p k] } }
  | .peer a _ =>
    if quiet then s
    else (s.callDies (peerDies s h.allot a k.status)).send (.peerReply a h.allot k)
  | .sideband =>
    if quiet then { s with sidebandBusy := false }
    else { s with sideband := some k, sidebandBusy := false }

end Sys2Proof.Machine
end

