-- ==== Sys2Proof/Machine/Operands.lean ====
section
/-!
DEFINITION. Operand forms: the fields of a reed instruction (Tables 5-10, 5-13), the scratchpad operand descriptor and its
checks at issue (R127, R128).
-/

namespace Sys2Proof.Machine

/-! ### Instruction fields (Table 5-10) -/

/-- Byte `k` of an instruction. -/
def insByte (w : BitVec 256) (k : Nat) : Nat := (w.toNat / 2 ^ (8 * k)) % 256
/-- OPC. -/
def insOpc (w : BitVec 256) : Nat := insByte w 0
/-- MOD, 24 bits. -/
def insMod (w : BitVec 256) : Nat := (w.toNat / 2 ^ 8) % 2 ^ 24
/-- AUX, 32 bits. -/
def insAux (w : BitVec 256) : Nat := (w.toNat / 2 ^ 32) % 2 ^ 32
/-- F1, F2 or F3, 64 bits each. -/
def insF (w : BitVec 256) (i : Nat) : Nat := (w.toNat / 2 ^ (64 * i)) % 2 ^ 64

/-- The OPC codes of Table 5-12. -/
def opcodes : List Nat :=
  [0x00, 0x01, 0x02, 0x03, 0x04, 0x05, 0x06, 0x08, 0x09, 0x0A, 0x1F, 0x40, 0x41, 0x42, 0x43, 0x60, 0x61, 0x62, 0x63, 0x64,
   0x65, 0x66, 0x67, 0x68, 0x80, 0x81, 0xA0, 0xC0, 0xC1]

/-! ### Stream faults (Table 5-7) -/

/-- Causes of a stream fault. -/
inductive Cause
  | align | bound | rowOverlapWrite | illegalOpcode | reservedField | fetchInvalid | loopDepth | loopEnd | badReg | fieldRange
  deriving DecidableEq, Repr

def Cause.code : Cause → Nat
  | .align => 1 | .bound => 2 | .rowOverlapWrite => 3 | .illegalOpcode => 4 | .reservedField => 5 | .fetchInvalid => 6
  | .loopDepth => 7 | .loopEnd => 8 | .badReg => 9 | .fieldRange => 10

/-- A fault found by a check: its cause and the operand field concerned (0 none). -/
abbrev Flaw := Cause × Nat

/-- The first flaw of a list of checks. -/
def firstFlaw : List (Bool × Flaw) → Option Flaw
  | [] => none
  | (bad, f) :: t => if bad then some f else firstFlaw t

/-! ### Scratchpad operands (R127, R128) -/

/-- A checked operand: effective base, rows, stride and bytes per row. -/
structure Operand where
  base : Nat
  rows : Nat
  stride : Nat
  rowBytes : Nat
  deriving DecidableEq, Repr

/-- A descriptor with its register offset applied (R127, R128 step 2). -/
def operandOf (d : Nat) (regs : Vector W32 16) : Operand :=
  let k := bitsOf d 63 60
  let off := if k = 0 then 0 else (regs.toList[k]?).elim 0 BitVec.toNat
  { base := (bitsOf d 13 0 + off) % 2 ^ 32, rows := bitsOf d 25 16, stride := bitsOf d 45 32, rowBytes := bitsOf d 59 48 }

/-- One past the last byte of an operand (R128 step 5). -/
def Operand.endAddr (o : Operand) : Nat := o.base + (o.rows - 1) * o.stride + o.rowBytes

/-- The extent of an operand, half-open (R128). -/
def Operand.extent (o : Operand) : Nat × Nat := (o.base, o.endAddr)

/-- Bytes of the scratchpad. -/
def spBytes : Nat := 0x3000

/-- The checks of R128 on the descriptor in field `f`, in order. -/
def checkOperand (d : Nat) (regs : Vector W32 16) (f : Nat) (dest : Bool) : Except Flaw Operand :=
  let o := operandOf d regs
  match firstFlaw
    [ (bitsOf d 15 14 ≠ 0 || bitsOf d 31 26 ≠ 0 || bitsOf d 47 46 ≠ 0, (.reservedField, f)),
      (o.base % 16 ≠ 0 || o.stride % 16 ≠ 0 || o.rowBytes % 16 ≠ 0, (.align, f)),
      (o.rows < 1 || 768 < o.rows || o.rowBytes < 16 || 4080 < o.rowBytes, (.fieldRange, f)),
      (spBytes < o.endAddr, (.bound, f)),
      (dest && 1 < o.rows && o.stride < o.rowBytes, (.rowOverlapWrite, f)) ] with
  | some e => .error e
  | none => .ok o

/-- The bytes an operand names, row after row. -/
def Operand.read (sp : KMap Byte) (o : Operand) : List Byte :=
  (List.range o.rows).flatMap (fun i => KMap.bytes sp (o.base + i * o.stride) o.rowBytes)

/-- Write bytes to the rows of an operand, row after row; bytes beyond the list are left as they were. -/
def Operand.write (sp : KMap Byte) (o : Operand) (bs : List Byte) : KMap Byte :=
  (List.range o.rows).foldl
    (fun m i => KMap.write m (o.base + i * o.stride) ((bs.drop (i * o.rowBytes)).take o.rowBytes)) sp

/-- The scratchpad address of byte `k` of an operand's data. -/
def Operand.addr (o : Operand) (k : Nat) : Nat := o.base + (k / o.rowBytes) * o.stride + k % o.rowBytes

end Sys2Proof.Machine
end

