-- ==== Sys2Proof/Machine/Mem.lean ====
section
/-!
DEFINITION. Module memory as every requester reaches it (chapter 14): the address map (R373), poison and errors found by an
access (R376 to R378), ECC events and their windows (R387), and the retirement of pages (R388 to R390).
-/

namespace Sys2Proof.Machine

/-- One past the last memory address (R98). -/
def memEnd : Nat := 0x01D800000000

/-! ### Address map (R373) -/

/-- The granule index within a channel. -/
def memJ (a : Nat) : Nat := bitsOf a 40 16
/-- The fold of a granule index into nine bits. -/
def memFold (j : Nat) : Nat := Nat.xor (Nat.xor (bitsOf j 8 0) (bitsOf j 17 9)) (bitsOf j 24 18)
/-- The channel of an address. -/
def memChan (a : Nat) : Nat := Nat.xor (bitsOf a 15 7) (memFold (memJ a))
/-- The logical page of an address in its channel. -/
def memPage (a : Nat) : Nat := memJ a / 15
/-- The sector of an address within its page. -/
def memSector (a : Nat) : Nat := ((memJ a % 15) * 128 + a % 128) / 32
/-- The address of byte `off` of granule `u` of a page. -/
def pageAddr (ch p u off : Nat) : Nat :=
  let j := 15 * p + u
  j * 2 ^ 16 + Nat.xor ch (memFold j) * 128 + off
/-- The row base of a page: granule 0 (R388). -/
def rowBase (ch p : Nat) : Nat := pageAddr ch p 0 0
/-- The sector numbers (address / 32) of a page's half, by sector 0-29 or 30-59; pages' unused granules lie beyond memory. -/
def halfSectors (ch p half : Nat) : List Nat :=
  ((List.range 30).map (fun k => let s := 30 * half + k; pageAddr ch p (s / 4) (s % 4 * 32) / 32)).filter
    (fun n => decide (n < memEnd / 32))

/-- The sector of a page, 0-59, from its address (R373). -/
def sectorAddr (ch p sector : Nat) : Nat := pageAddr ch p (sector / 4) (sector % 4 * 32)

/-- Bank and row of a physical page (R373). -/
def pageBank (q : Nat) : Nat := Nat.xor (bitsOf q 3 0) (bitsOf q 7 4)
def pageRow (q : Nat) : Nat := bitsOf q 20 4

/-- Pages in the spare pool of a channel (R374). -/
def sparePages : Nat := 34952
/-- Logical pages of a channel that hold addressable bytes. -/
def pagesPerChan : Nat := 2062200

def State.chan (s : State) (ch : Nat) : MemChan := KMap.get MemChan.reset s.mem.chans ch
def State.modChan (s : State) (ch : Nat) (f : MemChan → MemChan) : State :=
  { s with mem := { s.mem with chans := KMap.put MemChan.reset s.mem.chans ch (f (s.chan ch)) } }

/-- The physical page that holds a logical page (R373, R389). -/
def physPage (s : State) (ch p : Nat) : Nat := (KMap.look (s.chan ch).remap p).getD p

/-! ### Check bursts and the check cache (R375, R376, R380) -/

/-- Offset of a sector's check word, and of a half's row tag, within the physical page (R375). -/
def checkOffset (sector : Nat) : Nat := if sector < 30 then 1920 + 2 * sector else 1984 + 2 * (sector - 30)
def tagOffset (half : Nat) : Nat := if half = 0 then 1980 else 2044

/-- The row tag of a half of a physical page (R376). -/
def rowTag (ch q half : Nat) : W32 := Config.crc32c (leBytes 4 (ch * 2 ^ 22 + q * 2 + half))

/-- The check word of a sector number (Table 14-3): CODE over the data, bits [15:10] and the location, and POISON. -/
def checkWord (s : State) (n : Nat) : W16 :=
  let upper := b2n (s.mem.poison.contains n)
  let loc := (memChan (32 * n) * 2 ^ 21 + memPage (32 * n)) * 64 + memSector (32 * n)
  BitVec.ofNat 16 ((Config.hsiao (KMap.bytes s.mem.bytes (32 * n) 32) upper loc).toNat + 2 ^ 10 * upper)

/-- The 64 bytes of a check burst: the check words of the half's 30 sectors, then the row tag (R375). -/
def checkBurst (s : State) (ch p half : Nat) : List Byte :=
  (List.range 30).flatMap (fun k => leBytes 2 (checkWord s (sectorAddr ch p (30 * half + k) / 32)).toNat) ++
  leBytes 4 (rowTag ch (physPage s ch p) half).toNat

/-- The check burst of a sector number, as the check cache names it. -/
def burstOf (s : State) (n : Nat) : Nat :=
  2 * physPage s (memChan (32 * n)) (memPage (32 * n)) + memSector (32 * n) / 30

/-- Whether the check cache of its channel holds a sector's check burst. -/
def burstCached (s : State) (n : Nat) : Bool := (s.chan (memChan (32 * n))).cache.contains (burstOf s n)

/-- Bring a check burst into a channel's cache of 64; the least recently used one leaves it (R380; DESIGN CHOICE, log entry 73: the
spec names no replacement order). -/
def MemChan.fill (c : MemChan) (b : Nat) : MemChan :=
  let l := c.cache.filter (fun x => decide (x ≠ b)) ++ [b]
  { c with cache := l.drop (l.length - 64) }

/-- An access brings the check bursts of its sectors into the caches (R376, R380). -/
def State.fillCaches (s : State) (secs : List Nat) : State :=
  secs.foldl (fun s n => s.modChan (memChan (32 * n)) (fun c => c.fill (burstOf s n))) s

/-! ### Sectors -/

/-- Whether a sector lies in a page that failed in place (R390). -/
def sectorFailed (s : State) (n : Nat) : Bool := (s.chan (memChan (32 * n))).failedPages.contains (memPage (32 * n))
/-- Whether a sector is delivered poisoned (R377, R390). -/
def sectorBad (s : State) (n : Nat) : Bool := s.mem.poison.contains n || sectorFailed s n

/-- Insert into a rising list without repeats. -/
def insSorted (n : Nat) : List Nat → List Nat
  | [] => [n]
  | k :: t => if n < k then n :: k :: t else if n = k then k :: t else k :: insSorted n t

def State.poisonSector (s : State) (n : Nat) : State := { s with mem := { s.mem with poison := insSorted n s.mem.poison } }
def State.cleanSector (s : State) (n : Nat) : State := { s with mem := { s.mem with poison := s.mem.poison.filter (· ≠ n) } }

/-- The sectors of a byte range. -/
def sectorsOf (lo n : Nat) : List Nat := if n = 0 then [] else (List.range ((lo + n - 1) / 32 - lo / 32 + 1)).map (· + lo / 32)

/-! ### ECC events (R387) -/

/-- The DETAIL of an ECC event (Table 14-9). -/
def eccDetail (kind addr ch page source : Nat) (sectors : W64) (count : Nat) (path : BitVec 24) : List Byte :=
  leBytes 8 addr ++ leBytes 2 ch ++ [BitVec.ofNat 8 kind, BitVec.ofNat 8 source] ++ leBytes 4 page ++
  leBytes 8 sectors.toNat ++ leBytes 4 count ++ leBytes 3 path.toNat ++ [0]

/-- Write an ECC event. -/
def eccEvent (s : State) (kind addr ch page source : Nat) (sectors : W64) (count : Nat) (path : BitVec 24) : State :=
  s.moduleEvent 0x0B09 5 (if kind = 0 then .ok else .okDegraded) (eccDetail kind addr ch page source sectors count path)

/-- The key of a page's window of KIND 0 or 3. -/
def windowKey (page kind : Nat) : Nat := 2 * page + (if kind = 3 then 1 else 0)

/-- Count an occurrence of KIND 0 or 3 in its page's window, opening it at the first (R387). -/
def eccCoalesce (s : State) (kind source : Nat) (path : BitVec 24) (n : Nat) : State :=
  let a := 32 * n
  let bit : W64 := BitVec.ofNat 64 (2 ^ memSector a)
  s.modChan (memChan a) (fun c =>
    let k := windowKey (memPage a) kind
    { c with windows := match KMap.look c.windows k with
      | none => KMap.ins c.windows k { kind := kind, addr := a, source := source, path := path, sectors := bit, count := 1,
                                       order := (c.windows.map (fun e => e.2.order)).foldl max 0 + 1 }
      | some w => KMap.ins c.windows k { w with sectors := w.sectors ||| bit, count := w.count + 1 } })

/-! ### Retirement (R388 to R390) -/

/-- Spare pages left in a channel. -/
def MemChan.sparesLeft (c : MemChan) : Nat := sparePages - c.sparesUsed

/-- A page fails in place for want of a spare: a KIND 4 event and a ROW_RETIRED event, both OK_DEGRADED (R390). -/
def failPage (s : State) (ch p source : Nat) (path : BitVec 24) : State :=
  let s := s.modChan ch (fun c => { c with failedPages := insSorted p c.failedPages })
  let s := eccEvent s 4 (rowBase ch p) ch p source 0 1 path
  s.moduleEvent 0x0B0A 5 .okDegraded (leBytes 8 (rowBase ch p) ++ leBytes 4 (s.chan ch).sparesLeft)

/-- Start the retirement of a page, unless it is under way or has failed in place (R389, R390). -/
def retirePage (s : State) (ch p source : Nat) (path : BitVec 24) : State :=
  let c := s.chan ch
  if c.failedPages.contains p || c.retiring.contains p then s
  else if sparePages ≤ c.sparesUsed + c.retiring.length then failPage s ch p source path
  else s.modChan ch (fun c => { c with retiring := c.retiring ++ [p] })

/-- One corrected error: counted, coalesced, and at the eighth of a page within one scrub pass the page is retired (R388). -/
def correctedError (s : State) (source : Nat) (path : BitVec 24) (n : Nat) : State :=
  let ch := memChan (32 * n)
  let p := memPage (32 * n)
  let s := { s with mem := { s.mem with corrected := s.mem.corrected + 1 } }
  let s := eccCoalesce s 0 source path n
  let k := KMap.get 0 (s.chan ch).correctedInPass p + 1
  let s := s.modChan ch (fun c => { c with correctedInPass := KMap.put 0 c.correctedInPass p k })
  if 8 ≤ k then retirePage s ch p source path else s

/-- An uncorrectable error of one sector: POISON is written, a KIND 1 event, the page is retired (R377, R387, R388). -/
def uncorrectableError (s : State) (source : Nat) (path : BitVec 24) (n : Nat) : State :=
  let a := 32 * n
  let s := (s.poisonSector n)
  let s := { s with mem := { s.mem with uncorrected := s.mem.uncorrected + 1 } }
  let s := eccEvent s 1 a (memChan a) (memPage a) source (BitVec.ofNat 64 (2 ^ memSector a)) 1 path
  retirePage s (memChan a) (memPage a) source path

/-- A row failure of a sector's half-page: every sector of the half, but those in `spared`, is poisoned; a KIND 2 event,
the page is retired (R376, R387, R388). -/
def rowFailureError (s : State) (source : Nat) (path : BitVec 24) (n : Nat) (spared : List Nat) : State :=
  let a := 32 * n
  let ch := memChan a
  let p := memPage a
  let half := memSector a / 30
  let s := ((halfSectors ch p half).filter (fun k => !spared.contains k)).foldl State.poisonSector s
  let s := { s with mem := { s.mem with uncorrected := s.mem.uncorrected + 1 } }
  let s := eccEvent s 2 (rowBase ch p) ch p source (BitVec.ofNat 64 ((2 ^ 30 - 1) * 2 ^ (30 * half))) 1 path
  retirePage s ch p source path

/-- Store bytes at their addresses, later ones last. -/
def State.storeBytes (s : State) (ws : List (Nat × Byte)) : State :=
  { s with mem := { s.mem with bytes := ws.foldl (fun m w => KMap.put 0 m w.1 w.2) s.mem.bytes } }

/-- A sector reads as other data than it held: the bytes that the error gave it (R377). -/
def State.misread (s : State) (n : Nat) (data : List Byte) : State :=
  s.storeBytes (((data.take 32).zipIdx (32 * n)).map (fun e => (e.2, e.1)))

/-- Whether an error is found by reading a row tag (R376). -/
def ofTag (e : MemErr) : Bool := decide (e.kind = .rowFailure) || decide (e.kind = .tagCorrected)

/-- An error that an access found (R376, R377), in a page that failed in place as in any other (R390). A sector already poisoned gives no
further uncorrectable error. An error of three or more bits may be delivered as wrong data. -/
def applyErr (s : State) (source : Nat) (path : BitVec 24) (spared : List Nat) (e : MemErr) : State :=
  let n := e.addr / 32
  match e.kind with
  | .corrected => correctedError s source path n
  | .tagCorrected => correctedError s source path n
  | .uncorrectable => if s.mem.poison.contains n then s else uncorrectableError (s.misread n e.data) source path n
  | .miscorrected => correctedError (s.misread n e.data) source path n
  | .unseen => s.misread n e.data
  | .rowFailure => rowFailureError s source path n spared

/-- The errors that fall in a list of sectors. -/
def errsIn (errs : List MemErr) (secs : List Nat) : List MemErr := errs.filter (fun e => secs.contains (e.addr / 32))

/-- The errors of an access that its checks meet: those of its sectors' words, and those of the row tags it reads, which it does where
the check burst is not cached (R376, R377). -/
def errsMet (s : State) (errs : List MemErr) (secs : List Nat) : List MemErr :=
  (errsIn errs secs).filter (fun e => !ofTag e || !burstCached s (e.addr / 32))

/-- The errors that an access to some sectors leaves for later ones: those elsewhere, and those of row tags that it did not read. An error
found is written back, and one under a whole sector's new data is gone (R376 to R378). -/
def errsLeft (s : State) (errs : List MemErr) (secs : List Nat) : List MemErr :=
  errs.filter (fun e => !(secs.contains (e.addr / 32) && (!ofTag e || !burstCached s (e.addr / 32))))

/-! ### Traffic that waits (R384, R389, R394, R439) -/

/-- Whether accesses to a sector wait: its page is being retired, its channel is retraining, or its feed die holds traffic. -/
def sectorHeld (s : State) (n : Nat) : Bool :=
  let ch := memChan (32 * n)
  (s.chan ch).retiring.contains (memPage (32 * n)) || (s.chan ch).retraining || dieHolds s (ch / 128)

/-- Whether an access to some sectors waits. -/
def memHeld (s : State) (secs : List Nat) : Bool := secs.any (sectorHeld s)

/-- Whether an access of a sheaf waits: also where its own die holds traffic. -/
def sheafHeld (s : State) (g : Nat) (secs : List Nat) : Bool :=
  !secs.isEmpty && (dieHolds s (4 + g / 16) || memHeld s secs)

/-- Whether a page with bytes in a range is being retired. -/
def retiringIn (s : State) (lo hi : Nat) : Bool :=
  s.mem.chans.any (fun e => e.2.retiring.any (fun p =>
    (halfSectors e.1 p 0 ++ halfSectors e.1 p 1).any (fun n => decide (lo < 32 * n + 32) && decide (32 * n < hi))))

/-! ### Access -/

/-- An access wakes the channels it reaches from self-refresh (R426). -/
def State.wakeChans (s : State) (secs : List Nat) : State :=
  ((s.mem.chans.filter (fun e => e.2.selfRefresh)).map (·.1)).foldl (fun s ch =>
    if secs.any (fun n => decide (memChan (32 * n) = ch)) then s.modChan ch (fun c => { c with selfRefresh := false }) else s) s

/-- Read some sectors: sectors poisoned before the access are reported as KIND 3, then the errors found take effect. -/
def touchSectors (s : State) (source : Nat) (path : BitVec 24) (secs : List Nat) (errs : List MemErr) : State :=
  let s := s.wakeChans secs
  let bad := secs.filter (sectorBad s)
  let met := errsMet s errs secs
  let s := bad.foldl (fun s n => eccCoalesce s 3 source path n) (s.fillCaches secs)
  met.foldl (fun s e => applyErr s source path [] e) s

/-- Stored bytes of a range, whatever their poison. -/
def State.memBytes (s : State) (lo n : Nat) : List Byte := KMap.bytes s.mem.bytes lo n

/-- Bytes of a range as a requester that takes poisoned bytes as 0x00 receives them, and whether any was poisoned. -/
def State.memDeliver (s : State) (lo n : Nat) : List Byte × Bool :=
  (((s.memBytes lo n).zipIdx lo).map (fun e => if sectorBad s (e.2 / 32) then 0 else e.1),
   (sectorsOf lo n).any (sectorBad s))

/-- Whether one access covers a whole sector. -/
def coversSector (addrs : List Nat) (n : Nat) : Bool := (List.range 32).all (fun k => addrs.contains (32 * n + k))

/-- The bytes of a write that land: none in a page that failed in place (R390). -/
def landing (s : State) (ws : List (Nat × Byte)) : List (Nat × Byte) := ws.filter (fun w => !sectorFailed s (w.1 / 32))

/-- What a write finds before its bytes land: of sectors covered in part the words, and of every half not cached the row tag. A whole sector's
word is not read (R376, R378). -/
def writeChecks (s : State) (source : Nat) (path : BitVec 24) (ws : List (Nat × Byte)) (errs : List MemErr) : State :=
  let secs := (ws.map (fun w => w.1 / 32)).dedup
  let addrs := ws.map (·.1)
  let whole := secs.filter (coversSector addrs)
  let part := secs.filter (fun n => !whole.contains n)
  let met := errsMet s errs secs
  let s := (s.wakeChans secs).fillCaches secs
  let s := (part.filter (sectorBad s)).foldl (fun s n => eccCoalesce s 3 source path n) s
  let s := (met.filter (fun e => !ofTag e && part.contains (e.addr / 32))).foldl (fun s e => applyErr s source path [] e) s
  (met.filter ofTag).foldl (fun s e => applyErr s source path whole e) s

/-- The bytes of a write land, and sectors covered whole are clean; the others stay poisoned where they were (R378, R390). -/
def writeLands (s : State) (ws : List (Nat × Byte)) : State :=
  let s := s.storeBytes (landing s ws)
  (((ws.map (fun w => w.1 / 32)).dedup.filter (coversSector (ws.map (·.1)))).filter (fun n => !sectorFailed s n)).foldl State.cleanSector s

/-- One access that writes bytes: it is checked, and then lands. -/
def memWrite (s : State) (source : Nat) (path : BitVec 24) (ws : List (Nat × Byte)) (errs : List MemErr) : State :=
  writeLands (writeChecks s source path ws errs) ws

/-- A write of a contiguous range. -/
def memWriteRange (s : State) (source : Nat) (path : BitVec 24) (lo : Nat) (bs : List Byte) (errs : List MemErr) : State :=
  memWrite s source path ((bs.zipIdx lo).map (fun e => (e.2, e.1))) errs

/-- What a write of `n` bytes of whole sectors by HOST_DMA or MEM_FILL finds: row failures (R376, R391). -/
def wholeChecks (s : State) (lo n : Nat) (errs : List MemErr) : State :=
  let secs := sectorsOf lo n
  let met := (errsMet s errs secs).filter ofTag
  met.foldl (fun s e => applyErr s 4 0 secs e) ((s.wakeChans secs).fillCaches secs)

/-- Its bytes land, which clears poison; bytes of failed pages are dropped (R378, R390). -/
def wholeLands (s : State) (lo : Nat) (bs : List Byte) : State :=
  let s' := s.storeBytes (landing s ((bs.zipIdx lo).map (fun e => (e.2, e.1))))
  { s' with mem := { s'.mem with poison := s'.mem.poison.filter (fun n =>
      !(decide (lo ≤ 32 * n) && decide (32 * n + 32 ≤ lo + bs.length)) || sectorFailed s n) } }

/-- A write of whole sectors: it is checked, and then lands. -/
def memWriteWhole (s : State) (lo : Nat) (bs : List Byte) (errs : List MemErr) : State :=
  wholeLands (wholeChecks s lo bs.length errs) lo bs

end Sys2Proof.Machine
end

