-- ==== Sys2Proof/Machine/Num.lean ====
section
/-!
DEFINITION. Number formats and conversion (chapter 8): exact dyadic values, decoding and encoding of every format
(R201 to R207), rounding (R214), overflow and saturation (R216), flushing (R218), block scaling (R206, R219), LA40 (R207,
R210) and the draw of stochastic rounding (R194, R215).
-/

namespace Sys2Proof.Machine

/-! ### Values -/

/-- A value of a number format: a finite one is (−1)^neg × m × 2^e, a zero keeping its sign. NaN payloads are not kept
(R203). -/
inductive Val
  | nan
  | inf (neg : Bool)
  | fin (neg : Bool) (m : Nat) (e : Int)
  deriving DecidableEq, Repr

/-- +0. -/
def Val.zero : Val := .fin false 0 0

def Val.isNan : Val → Bool
  | .nan => true
  | _ => false

def Val.isZero : Val → Bool
  | .fin _ m _ => m = 0
  | _ => false

/-- The sign of an infinity, if the value is one. -/
def Val.infSign : Val → Option Bool
  | .inf n => some n
  | _ => none

def Val.negate : Val → Val
  | .nan => .nan
  | .inf n => .inf !n
  | .fin n m e => .fin (!n) m e

def Val.abs : Val → Val
  | .nan => .nan
  | .inf _ => .inf false
  | .fin _ m e => .fin false m e

/-- The value as an integer multiple of 2^q, for q at most its exponent. -/
def scaledInt (neg : Bool) (m : Nat) (e q : Int) : Int :=
  let x : Int := (m * 2 ^ (e - q).toNat : Nat)
  if neg then -x else x

/-- The finite value of an integer multiple of 2^q; an exact zero is +0 (R210). -/
def ofScaled (x : Int) (q : Int) : Val := .fin (decide (x < 0)) x.natAbs q

/-- Exact sum (R210): NaN from a NaN or from infinities of both signs; a zero sum is +0 unless both terms are −0. -/
def Val.add : Val → Val → Val
  | .nan, _ => .nan
  | _, .nan => .nan
  | .inf a, .inf b => if a = b then .inf a else .nan
  | .inf a, _ => .inf a
  | _, .inf b => .inf b
  | .fin n m e, .fin n' m' e' =>
    if m = 0 ∧ m' = 0 then .fin (n && n') 0 0
    else let q := min e e'; ofScaled (scaledInt n m e q + scaledInt n' m' e' q) q

/-- Exact product: zero times infinity is NaN; the sign of a zero product is the exclusive OR (R208, R210). -/
def Val.mul : Val → Val → Val
  | .nan, _ => .nan
  | _, .nan => .nan
  | .inf a, .inf b => .inf (a != b)
  | .inf a, .fin n m _ => if m = 0 then .nan else .inf (a != n)
  | .fin n m _, .inf a => if m = 0 then .nan else .inf (a != n)
  | .fin n m e, .fin n' m' e' => .fin (n != n') (m * m') (if m * m' = 0 then 0 else e + e')

/-- Whether a product is of zero and infinity (Table 8-9, ZERO_INF). -/
def zeroInf (a b : Val) : Bool := (a.isZero && b.infSign.isSome) || (b.isZero && a.infSign.isSome)

/-- Whether a sum's two terms are infinities of both signs (Table 8-9, INF_SUB). -/
def infSub (a b : Val) : Bool := match a.infSign, b.infSign with
  | some x, some y => x != y
  | _, _ => false

/-- Order of two values, −0 below +0 (R211); a NaN is never below. -/
def Val.lt : Val → Val → Bool
  | .nan, _ => false
  | _, .nan => false
  | .inf a, .inf b => a && !b
  | .inf a, _ => a
  | _, .inf b => !b
  | .fin n m e, .fin n' m' e' =>
    let q := min e e'
    let x := scaledInt n m e q
    let y := scaledInt n' m' e' q
    decide (x < y) || (decide (x = 0) && decide (y = 0) && n && !n')

/-- Multiply by a power of two; an infinity stays (R206). -/
def Val.scale (v : Val) (s : Int) : Val := match v with
  | .fin n m e => .fin n m (if m = 0 then 0 else e + s)
  | x => x

/-- ⌊log2⌋ of a finite non-zero magnitude. -/
def topBit (m : Nat) (e : Int) : Int := e + Nat.log2 m

/-! ### Rounding (R214) -/

/-- A rounding mode; a stochastic one carries its draw u. -/
inductive Rnd
  | nearest
  | zero
  | stochastic (u : Nat)
  deriving DecidableEq, Repr

/-- Drop the low `sh` bits of a magnitude under a mode. -/
def dropBits (m sh : Nat) (rnd : Rnd) : Nat :=
  let q := m / 2 ^ sh
  let r := m % 2 ^ sh
  match rnd with
  | .zero => q
  | .nearest => if 2 ^ sh < 2 * r ∨ (2 * r = 2 ^ sh ∧ q % 2 = 1) then q + 1 else q
  | .stochastic u => if r ≠ 0 ∧ 4096 ≤ r * 4096 / 2 ^ sh + u then q + 1 else q

/-- Round a magnitude to `p` bits of precision with a last bit never below 2^emin, on the grid continued without bound. -/
def roundMag (p : Nat) (emin : Int) (rnd : Rnd) (m : Nat) (e : Int) : Nat × Int :=
  if m = 0 then (0, emin) else
  let q := max emin (topBit m e - p + 1)
  if q ≤ e then (m * 2 ^ (e - q).toNat, q)
  else
    let r := dropBits m (q - e).toNat rnd
    if r = 2 ^ p then (r / 2, q + 1) else (r, q)

/-! ### Formats (R201 to R206) -/

/-- A floating-point layout (Table 8-2); `ieee` says that an all-ones exponent encodes infinity and NaN. -/
structure FFmt where
  ew : Nat
  fw : Nat
  bias : Nat
  ieee : Bool
  deriving DecidableEq, Repr

def fp32 : FFmt := ⟨8, 23, 127, true⟩
def lm19 : FFmt := ⟨8, 10, 127, true⟩
def bf16 : FFmt := ⟨8, 7, 127, true⟩
def fp16 : FFmt := ⟨5, 10, 15, true⟩
def e4m3 : FFmt := ⟨4, 3, 7, false⟩
def e5m2 : FFmt := ⟨5, 2, 15, true⟩

/-- The exponent of the last bit of a subnormal. -/
def FFmt.emin (f : FFmt) : Int := 1 - (f.bias : Int) - f.fw

/-- The largest finite encoding without its sign. -/
def FFmt.maxBits (f : FFmt) : Nat := if f.ieee then (2 ^ f.ew - 1) * 2 ^ f.fw - 1 else 2 ^ (f.ew + f.fw) - 2

/-- The sign bit of an encoding. -/
def FFmt.sign (f : FFmt) (neg : Bool) : Nat := b2n neg * 2 ^ (f.ew + f.fw)

/-- The canonical NaN (Table 8-3). -/
def FFmt.nanBits (f : FFmt) : Nat :=
  if f.ieee then (2 ^ f.ew - 1) * 2 ^ f.fw + 2 ^ (f.fw - 1) else 2 ^ (f.ew + f.fw) - 1

/-- Infinity (Table 8-3). -/
def FFmt.infBits (f : FFmt) (neg : Bool) : Nat := f.sign neg + (2 ^ f.ew - 1) * 2 ^ f.fw

/-- Read an encoding; with `ftz` a subnormal reads as zero of the same sign (R202, R203, R218). -/
def decodeFp (f : FFmt) (ftz : Bool) (raw : Nat) : Val :=
  let neg := bitOf raw (f.ew + f.fw)
  let ex := raw / 2 ^ f.fw % 2 ^ f.ew
  let fr := raw % 2 ^ f.fw
  if f.ieee && decide (ex = 2 ^ f.ew - 1) then (if fr = 0 then .inf neg else .nan)
  else if !f.ieee && decide (raw % 2 ^ (f.ew + f.fw) = 2 ^ (f.ew + f.fw) - 1) then .nan
  else if ex = 0 then (if ftz then .fin neg 0 0 else .fin neg fr (if fr = 0 then 0 else f.emin))
  else .fin neg (2 ^ f.fw + fr) (f.emin + ex - 1)

/-- Encode a magnitude that lies on the format's grid. -/
def packFp (f : FFmt) (m : Nat) (q : Int) : Nat :=
  if m < 2 ^ f.fw then m else m - 2 ^ f.fw + ((q - f.emin).toNat + 1) * 2 ^ f.fw

/-- What a conversion writes: the bits, whether a saturated value was written (R217), and whether NaN was written for a
value that is none (cause CONVERSION). -/
structure Enc where
  bits : Nat
  clamp : Bool
  conv : Bool
  deriving DecidableEq, Repr

/-! ### `NUMCTL` (Table 8-7) -/

def ncFtzIn (w : W32) : Bool := w.getLsbD 5
def ncFtzOut (w : W32) : Bool := w.getLsbD 6
/-- RND_CONV with the draw u. -/
def ncConv (w : W32) (u : Nat) : Rnd :=
  match w.toNat % 4 with
  | 0 => .nearest
  | 1 => .zero
  | _ => .stochastic u
/-- RND_SPILL with the draw u. -/
def ncSpill (w : W32) (u : Nat) : Rnd := if w.toNat / 4 % 4 = 2 then .stochastic u else .nearest
/-- Whether conversions round stochastically. -/
def ncStoConv (w : W32) : Bool := w.toNat % 4 = 2
def ncStoSpill (w : W32) : Bool := w.toNat / 4 % 4 = 2
def ncLm19Trunc (w : W32) : Bool := w.getLsbD 4
/-- The overflow field of a format. -/
def ncOvf (w : W32) (f : FFmt) : Bool :=
  if f = e4m3 then w.getLsbD 8 else if f = e5m2 then w.getLsbD 9 else w.getLsbD 10

/-- What an overflow writes (Table 8-8). -/
def overflowEnc (f : FFmt) (w : W32) (neg : Bool) : Enc :=
  if ncOvf w f then
    if f.ieee then ⟨f.infBits neg, false, false⟩ else ⟨f.nanBits, false, true⟩
  else ⟨f.sign neg + f.maxBits, true, false⟩

/-- Convert a value to a floating-point format (R212 to R218). -/
def encodeFp (f : FFmt) (w : W32) (rnd : Rnd) (v : Val) : Enc :=
  match v with
  | .nan => ⟨f.nanBits, false, false⟩
  | .inf neg => if f.ieee then ⟨f.infBits neg, false, false⟩ else overflowEnc f w neg
  | .fin neg m e =>
    let r := roundMag (f.fw + 1) f.emin rnd m e
    if f.maxBits < packFp f r.1 r.2 then overflowEnc f w neg
    else if ncFtzOut w && decide (r.1 < 2 ^ f.fw) then ⟨f.sign neg, false, false⟩
    else ⟨f.sign neg + packFp f r.1 r.2, false, false⟩

/-- Convert a value to an integer format of a range, `bits` wide (R211, R216). -/
def encodeInt (lo hi : Int) (bits : Nat) (rnd : Rnd) (v : Val) : Enc :=
  match v with
  | .nan => ⟨0, false, false⟩
  | .inf neg => ⟨ofInt bits (if neg then lo else hi), true, false⟩
  | .fin neg m e =>
    let n : Nat := if 0 ≤ e then m * 2 ^ e.toNat else dropBits m (-e).toNat rnd
    let x : Int := if neg then -(n : Int) else n
    if x < lo then ⟨ofInt bits lo, true, false⟩
    else if hi < x then ⟨ofInt bits hi, true, false⟩
    else ⟨ofInt bits x, false, false⟩

/-! ### Storage formats (Table 8-1) -/

/-- What an element of a storage format is. -/
inductive ElemKind
  | float (f : FFmt)
  | int (lo hi : Int) (bits : Nat)
  deriving DecidableEq, Repr

/-- The element of a format code; a code from 0x0D on names none. -/
def elemKind (code : Nat) : Option ElemKind :=
  match code with
  | 0x00 => some (.float fp32)
  | 0x01 => some (.float lm19)
  | 0x02 => some (.float bf16)
  | 0x03 => some (.float fp16)
  | 0x04 => some (.float e4m3)
  | 0x05 => some (.float e5m2)
  | 0x06 => some (.int (-128) 127 8)
  | 0x07 => some (.int 0 255 8)
  | 0x08 => some (.int (-128) 127 8)
  | 0x09 => some (.int 0 255 8)
  | 0x0A => some (.float e4m3)
  | 0x0B => some (.float e5m2)
  | 0x0C => some (.int (-(2 ^ 31)) (2 ^ 31 - 1) 32)
  | _ => none

/-- Bytes of an element (Table 8-1). -/
def elemSize (code : Nat) : Nat :=
  match code with
  | 0x00 => 4 | 0x01 => 4 | 0x0C => 4 | 0x02 => 2 | 0x03 => 2 | _ => 1

/-- Block-scaled formats. -/
def isBlockFmt (code : Nat) : Bool := decide (8 ≤ code) && decide (code ≤ 11)

/-- Read an element's bits (LM19 from its container, R204). -/
def decodeElem (code : Nat) (ftz : Bool) (raw : Nat) : Val :=
  match elemKind code with
  | some (.float f) => decodeFp f ftz (if code = 1 then raw / 2 ^ 13 else raw)
  | some (.int lo _ bits) =>
    let x := if lo < 0 then toSigned bits raw else (raw % 2 ^ bits : Nat)
    .fin (decide (x < 0)) x.natAbs 0
  | none => .nan

/-- Convert a value to an element of a format under a rounding (LM19 into its container). -/
def encodeElem (code : Nat) (w : W32) (rnd : Rnd) (v : Val) : Enc :=
  match elemKind code with
  | some (.float f) =>
    let e := encodeFp f w rnd v
    if code = 1 then { e with bits := e.bits * 2 ^ 13 } else e
  | some (.int lo hi bits) => encodeInt lo hi bits rnd v
  | none => ⟨0, false, false⟩

/-- Whether every value of a floating-point format is exact in another, so that no `NUMCTL` field but FTZ_IN acts (R212). -/
def widensFp (a b : FFmt) : Bool :=
  decide (a.fw ≤ b.fw) && decide (a.bias ≤ b.bias) && decide (a.ew ≤ b.ew)

/-- The same for two format codes. -/
def widens (a b : Nat) : Bool :=
  match elemKind a, elemKind b with
  | some (.float f), some (.float g) => !isBlockFmt a && !isBlockFmt b && widensFp f g
  | _, _ => false

/-! ### Block scales (R206, R219) -/

/-- The exponent of a scale byte; none for the NaN block. -/
def scaleOf (b : Nat) : Option Int := if b % 256 = 0x80 then none else some (toSigned 8 b)

/-- An element under its block's scale. -/
def Val.scaled (v : Val) (b : Nat) : Val :=
  match scaleOf b with
  | none => .nan
  | some s => v.scale s

/-- c of R219 rule 3. -/
def blockC (code : Nat) : Int :=
  match code with
  | 0x0A => 7 | 0x0B => 14 | 0x08 => 6 | _ => 7

/-- The exponent of the largest magnitude of some values; none where every one is zero. -/
def maxTop : List Val → Option Int
  | [] => none
  | .fin _ m e :: t =>
    if m = 0 then maxTop t else
    match maxTop t with
    | none => some (topBit m e)
    | some x => some (max x (topBit m e))
  | _ :: t => maxTop t

/-- A converted block: the scale byte, the elements, and per element whether it was clamped and whether NaN was formed. -/
structure BlockEnc where
  scale : Nat
  elems : List Enc
  deriving DecidableEq, Repr

/-- An integer block's element that rounding carried just beyond the range is not counted (R219). -/
def blockElem (code : Nat) (w : W32) (rnd : Rnd) (s : Int) (sat : Bool) (v : Val) : Enc :=
  let e := encodeElem code w rnd (v.scale (-s))
  match elemKind code with
  | some (.int lo _ _) =>
    let neg := match v with | .fin n m _ => n && decide (m ≠ 0) | _ => false
    { e with clamp := e.clamp && (sat || (neg && decide (lo = 0))) }
  | _ => e

/-- Convert a block of values (after FTZ_IN) to a block-scaled format; `rnds` gives each element's rounding (R219). -/
def encodeBlock (code : Nat) (w : W32) (rnds : List Rnd) (vs : List Val) : BlockEnc :=
  if vs.any (fun v => v.isNan || v.infSign.isSome) then
    { scale := 0x80, elems := vs.map (fun v => ⟨0, false, v.infSign.isSome⟩) }
  else match maxTop vs with
  | none => { scale := 0x81, elems := vs.map (fun _ => ⟨0, false, false⟩) }
  | some x =>
    let s := max (-127) (min 127 (x - blockC code))
    { scale := ofInt 8 s,
      elems := (vs.zip rnds).map (fun p => blockElem code w p.2 s (decide (127 < x - blockC code)) p.1) }

/-! ### LA40 (R207, R210) -/

/-- Round a value to LA40's 29 bits, to nearest even; its range is never left (R209). -/
def roundLa (v : Val) : Val :=
  match v with
  | .fin n m e => if m = 0 then v else let r := roundMag 29 (-100000) .nearest m e; .fin n r.1 r.2
  | _ => v

/-- The 40 bits of an LA40 value. -/
def encodeLa (v : Val) : BitVec 40 :=
  match v with
  | .nan => 0x7FF0000000
  | .inf n => BitVec.ofNat 40 (b2n n * 2 ^ 39 + 1023 * 2 ^ 29)
  | .fin n m e =>
    if m = 0 then BitVec.ofNat 40 (b2n n * 2 ^ 39)
    else
      let r := roundMag 29 (-100000) .nearest m e
      BitVec.ofNat 40 (b2n n * 2 ^ 39 + (r.2 + 28 + 511).toNat % 1024 * 2 ^ 29 + r.1)

/-- The value of 40 LA40 bits. -/
def decodeLa (b : BitVec 40) : Val :=
  let v := b.toNat
  let n := bitOf v 39
  let ex := bitsOf v 38 29
  let g := bitsOf v 28 0
  if ex = 1023 then (if g = 0 then .inf n else .nan)
  else if ex = 0 then .fin n 0 0
  else .fin n g ((ex : Int) - 511 - 28)

/-! ### FP32 arithmetic (R211) -/

/-- Round an exact result to FP32, to nearest even; overflow gives an infinity. -/
def round32 (v : Val) : Val :=
  match v with
  | .fin n m e =>
    if m = 0 then v else
    let r := roundMag 24 fp32.emin .nearest m e
    if fp32.maxBits < packFp fp32 r.1 r.2 then .inf n else .fin n r.1 r.2
  | _ => v

/-- The FP32 encoding of a value already rounded to FP32. -/
def bits32 (v : Val) : Nat :=
  match v with
  | .nan => fp32.nanBits
  | .inf n => fp32.infBits n
  | .fin n m e => let r := roundMag 24 fp32.emin .nearest m e; fp32.sign n + packFp fp32 r.1 r.2

/-- The value of FP32 bits. -/
def val32 (ftz : Bool) (raw : Nat) : Val := decodeFp fp32 ftz raw

/-! ### Stochastic draws (R194, R215) -/

/-- One round of the keyed function. -/
def keyedRound (k z : W64) : W64 :=
  let z := z + k
  let z := z ^^^ (z >>> 30)
  let z := z * 0xBF58476D1CE4E5B9
  z ^^^ (z >>> 27)

/-- The keyed 64-bit value of an index (R194). -/
def keyedDraw (k0 k1 x : W64) : W64 :=
  keyedRound k1 (keyedRound k0 (keyedRound k1 (keyedRound k0 (keyedRound k1 (keyedRound k0 x)))))

/-- KEY and STEP of a slot; zero where the sheaf holds none (R215). -/
def slotKey (sh : Sheaf) (slot : BitVec 4) : W64 × W64 := (KMap.look sh.keys slot.toNat).getD (0, 0)

/-- STEP xor (SLOT << 60). -/
def stepWord (sh : Sheaf) (slot : BitVec 4) : W64 := (slotKey sh slot).2 ^^^ (BitVec.ofNat 64 slot.toNat <<< 60)

/-- The 64-bit state of lane `i` mod 8 of a reed's eight lane random generators (R193). How a generator advances is not given (log entry 6). -/
def laneState (sh : Sheaf) (r i : Nat) : W64 :=
  Config.laneAdvance sh.laneCycles (Config.freeWord (sh.laneSeed + 8 * (r % 4096) + i % 8))

/-- Lane (`i` mod 8)'s output in the cycle that produces element `i`; the number `n` stands for the cycle (R193). -/
def laneDraw (sh : Sheaf) (r i n : Nat) : W64 := Config.laneOutput (laneState sh r i) n

/-- The u of pass `j` of an instruction, for output element `i`: keyed, or an output of the lane generators (R193, R215). -/
def drawU (sh : Sheaf) (r : Nat) (q : QEntry) (j i : Nat) : Nat :=
  let z : W64 :=
    if q.rngKeyed then
      keyedDraw (slotKey sh q.slot).1 (stepWord sh q.slot ^^^ (1#64 <<< 59))
        (BitVec.ofNat 64 ((reedPath r).toNat * 2 ^ 40 + (q.ord.toNat + j) % 2 ^ 24 * 2 ^ 16 + i))
    else laneDraw sh r i (q.freeBase + 32768 * j + i)
  z.toNat / 2 ^ 52

/-! ### Trap events (R220 to R222) -/

/-- A trap event: causes of Table 8-9 with the coordinates of R173 and Table 7-10. `chunk` orders MX row steps. -/
structure TrapEv where
  chunk : Nat
  m : Nat
  n : Nat
  k : Nat
  cause : Nat
  deriving DecidableEq, Repr

/-- The order of R222: chunk, m, n, k, a produced cause before CONSUMED. -/
def TrapEv.key (t : TrapEv) : Nat :=
  (((t.chunk * 65536 + t.m) * 65536 + t.n) * 65536 + t.k) * 8 + t.cause

/-- The event first in the order of R222. -/
def firstEv : List TrapEv → Option TrapEv
  | [] => none
  | e :: t => match firstEv t with
    | none => some e
    | some f => if f.key < e.key then some f else some e

/-- The enabled events of an instruction (R220, R121). -/
def enabledEvs (q : QEntry) (l : List TrapEv) : List TrapEv :=
  l.filter (fun e => if e.cause = 5 then q.enConsumed else q.enProduced)

end Sys2Proof.Machine
end

