-- ==== Sys2Proof/Machine/View.lean ====
section
/-!
DEFINITION. View records and walks over the loft and memory (R226 to R229), their footprints, and the spaces a reed may reach
(R224, R225).
-/

namespace Sys2Proof.Machine

/-- A dimension entry of a view (Table 9-2); `used` is false for an all-zero entry. -/
structure VDim where
  count : Nat
  start : Int
  extent : Nat
  stride : Int
  used : Bool
  deriving DecidableEq, Repr

/-- An unused dimension (R226). -/
def VDim.unused : VDim := { count := 1, start := 0, extent := 1, stride := 0, used := false }

/-- A view: its four dimensions, 0 fastest. -/
structure View where
  d0 : VDim
  d1 : VDim
  d2 : VDim
  d3 : VDim
  deriving DecidableEq, Repr

def View.dims (v : View) : List VDim := [v.d0, v.d1, v.d2, v.d3]

/-- One entry of a record; none when it is invalid (R226). -/
def dimOf (b : List Byte) : Option VDim :=
  if b.all (· = 0) then some .unused
  else
    let c := leAt b 0 4
    if c = 0 ∨ 2 ^ 24 < c then none
    else some { count := c, start := toSigned 32 (leAt b 4 4), extent := leAt b 8 4, stride := toSigned 32 (leAt b 12 4),
                used := true }

/-- A view from the 64 bytes of its record. -/
def viewOf (b : List Byte) : Option View := do
  let d0 ← dimOf ((b.drop 0).take 16)
  let d1 ← dimOf ((b.drop 16).take 16)
  let d2 ← dimOf ((b.drop 32).take 16)
  let d3 ← dimOf ((b.drop 48).take 16)
  pure { d0 := d0, d1 := d1, d2 := d2, d3 := d3 }

/-- The one-dimensional view of VIEW = 0 (R235). -/
def flatView (n size : Nat) : View :=
  { d0 := { count := n, start := 0, extent := n, stride := size, used := true }, d1 := .unused, d2 := .unused, d3 := .unused }

/-- N, the element count. -/
def View.count (v : View) : Nat := v.d0.count * v.d1.count * v.d2.count * v.d3.count

/-- The indices of output element `i` in each dimension. -/
def View.index (v : View) (i : Nat) : List Nat :=
  [i % v.d0.count, i / v.d0.count % v.d1.count, i / (v.d0.count * v.d1.count) % v.d2.count,
   i / (v.d0.count * v.d1.count * v.d2.count)]

/-- The coordinates of output element `i` (R227). -/
def View.coords (v : View) (i : Nat) : List Int := (v.dims.zip (v.index i)).map (fun e => e.1.start + e.2)

/-- Whether output element `i` is valid. -/
def View.valid (v : View) (i : Nat) : Bool :=
  (v.dims.zip (v.coords i)).all (fun e => decide (0 ≤ e.2) && decide (e.2 < e.1.extent))

/-- The packed dimension of a block-scaled tensor: the one whose STRIDE is 1; none unless exactly one is (R229). -/
def View.packed (v : View) : Option Nat :=
  match (v.dims.zipIdx.filter (fun e => e.1.used && decide (e.1.stride = 1))).map (·.2) with
  | [d] => some d
  | _ => none

/-- Offset of a coordinate of the packed dimension (R229). -/
def packedPos (c : Int) : Int := c / 512 * 528 + c % 512
/-- Offset of the scale byte of its block. -/
def scalePos (c : Int) : Int := c / 512 * 528 + 512 + c % 512 / 32

/-- Byte offset of coordinates from the base; `pos` places the packed dimension. -/
def View.offset (v : View) (packed : Option Nat) (pos : Int → Int) (cs : List Int) : Int :=
  ((v.dims.zip cs).zipIdx.map (fun e =>
    if packed = some e.2 then pos e.1.2 else e.1.2 * e.1.1.stride)).sum

/-- The packed dimension of a side in a format: none for formats that are not block-scaled. -/
def View.packedFor (v : View) (fmt : Nat) : Option Nat := if isBlockFmt fmt then v.packed else none

/-- Address of output element `i`; none when it is padding. -/
def View.addr (v : View) (fmt base i : Nat) : Option Int :=
  if v.valid i then some (base + v.offset (v.packedFor fmt) packedPos (v.coords i)) else none

/-- Address of the scale byte of output element `i`'s block. -/
def View.scaleAddr (v : View) (base i : Nat) : Int := base + v.offset v.packed scalePos (v.coords i)

/-- The valid coordinates of a dimension, from lowest to highest. -/
def VDim.range (d : VDim) : Option (Int × Int) :=
  let lo := max 0 d.start
  let hi := min (d.extent : Int) (d.start + d.count) - 1
  if lo ≤ hi then some (lo, hi) else none

/-- The footprint, half-open, scale bytes included (R227, R229); none when no element is valid. -/
def View.footprint (v : View) (fmt base : Nat) : Option (Int × Int) :=
  match v.dims.mapM VDim.range with
  | none => none
  | some rs =>
    let p := v.packedFor fmt
    let side := fun (low : Bool) => ((v.dims.zip rs).zipIdx.map (fun e =>
      let d := e.1.1
      let r := e.1.2
      if p = some e.2 then (if low then packedPos r.1 else scalePos r.2)
      else
        let a := r.1 * d.stride
        let b := r.2 * d.stride
        if low then min a b else max a b)).sum
    some (base + side true, base + side false + (if p.isSome then 1 else elemSize fmt))

/-- Base and strides meet R228 and R229. -/
def View.aligned (v : View) (fmt base : Nat) : Bool :=
  decide (base % 16 = 0) &&
  v.dims.zipIdx.all (fun e =>
    if isBlockFmt fmt then decide (v.packed = some e.2) || decide (e.1.stride % 16 = 0)
    else decide (e.1.stride % (elemSize fmt : Int) = 0))

/-- Whether no element is padding. -/
def View.full (v : View) : Bool :=
  v.dims.all (fun d => decide (0 ≤ d.start) && decide (d.start + d.count ≤ d.extent))

/-- Whole blocks under R238: in the packed dimension START and the end are multiples of 32, or the end is at or beyond EXTENT;
no STRIDE is 0. -/
def View.wholeBlocks (v : View) : Bool :=
  v.dims.zipIdx.all (fun e =>
    let d := e.1
    !d.used || (decide (d.stride ≠ 0) &&
      (v.packed ≠ some e.2 || (decide (d.start % 32 = 0) &&
        (decide ((d.start + d.count) % 32 = 0) || decide ((d.extent : Int) ≤ d.start + d.count))))))

/-! ### Spaces -/

/-- Bytes of a loft that programs may use (R224). -/
def loftSpace (sh : Sheaf) : Nat := 2 ^ 22 - sh.wv.reserve

/-- Whether a range lies wholly inside the union of some ranges. -/
def insideRanges (rs : List (Nat × Nat)) (lo hi : Nat) : Bool :=
  decide (hi ≤ (List.range rs.length).foldl (fun p _ =>
    match rs.find? (fun r => decide (r.1 ≤ p) && decide (p < r.2)) with
    | some r => r.2
    | none => p) lo)

/-- Every range of memory that is in a grant, being revoked included. -/
def State.granted (s : State) : List (Nat × Nat) := s.allots.flatMap (fun e => e.2.grants)

/-- Whether an allotment's units may reach a range of memory; allotment 0 stands for none (R98, R225). -/
def memAllowed (s : State) (a lo hi : Nat) : Bool :=
  decide (hi ≤ memEnd) &&
  match s.allot? a with
  | some x => insideRanges (x.grants.filter (fun g => !x.revoking.contains g)) lo hi
  | none => !(s.granted.any (fun g => extOverlap g (lo, hi)))

end Sys2Proof.Machine
end

