-- ==== Sys2Proof/Machine/Tensor.lean ====
section
/-!
DEFINITION. Distributed tensors and their local layout (R252 to R255), and the plan of a TENSOR_MOVE descriptor with its checks
(R246 to R250).
-/

namespace Sys2Proof.Machine

/-! ### Layout (R253, R254) -/

/-- The distinct coordinates that members hold on a course. -/
def memberCoords (course : Nat) (members : List W32) : List Nat := (members.map (coordOn course)).dedup

/-- A module's part index along a split, and how many parts there are: course splits 1 to 3, sheaf split 4 (R253). -/
def partOf (s : State) (a : Allot) (split g : Nat) : Nat × Nat :=
  if split = 0 then (0, 1)
  else if split = 4 then
    let l := setBits a.sheaves
    ((l.filter (fun x => decide (x < g))).length, l.length)
  else
    let l := memberCoords (split + 4) a.members
    ((l.filter (fun x => decide (x < coordOn (split + 4) s.fabric.address))).length, l.length)

/-- A dimension of a local layout: its stride, local length, the global coordinate of local index 0, and the own part. -/
structure LDim where
  stride : Nat
  len : Nat
  first : Int
  size : Nat
  course : Bool
  sheafSplit : Bool
  partLo : Nat
  partHi : Nat
  deriving DecidableEq, Repr

/-- q of R253. -/
def partLen (d : DimRec) : Nat := ceilDiv d.size.toNat d.parts.toNat

/-- The layout of one dimension on this module, for a sheaf (R253, R254). -/
def layoutDim (s : State) (a : Allot) (g : Nat) (d : DimRec) : LDim :=
  let k := (partOf s a d.split.toNat g).1
  let lo := k * partLen d
  let hi := min ((k + 1) * partLen d) d.size.toNat
  let course := decide (1 ≤ d.split.toNat) && decide (d.split.toNat ≤ 3)
  { stride := d.place.toNat, len := if course then hi - lo + 2 * d.halo.toNat else d.size.toNat,
    first := if course then (lo : Int) - d.halo.toNat else 0, size := d.size.toNat, course := course,
    sheafSplit := decide (d.split.toNat = 4), partLo := lo, partHi := hi }

def layout (s : State) (a : Allot) (g : Nat) (dims : List DimRec) : List LDim := dims.map (layoutDim s a g)

/-- Bytes from a dimension-0 cell to the last byte of `n` of them (R229, R254). -/
def span0 (fmt n : Nat) : Nat :=
  if n = 0 then 0 else if isBlockFmt fmt then (scalePos (n - 1)).toNat + 1 else n * elemSize fmt

/-- The local byte spans of the dimensions, innermost first. -/
def spans (fmt : Nat) : List LDim → List Nat
  | [] => []
  | d0 :: t => (t.foldl (fun (acc : List Nat) d => acc ++ [(d.len - 1) * d.stride + acc.getLastD 0]) [span0 fmt d0.len])

/-- The bytes a module holds (R254). -/
def heldBytes (fmt : Nat) (ls : List LDim) : Nat := (spans fmt ls).getLastD 0

/-- The local indices of the cell at a byte offset from the local origin, innermost first; none where no cell lies. -/
def cellAt (fmt : Nat) (ls : List LDim) (off : Int) : Option (List Nat) :=
  match ls with
  | [] => none
  | d0 :: t =>
    if off < 0 then none
    else
      let r := t.reverse.foldl (fun (a : Nat × List Nat × Bool) d =>
        let i := if d.stride = 0 then 0 else a.1 / d.stride
        (a.1 - i * d.stride, i :: a.2.1, a.2.2 && decide (i < d.len))) (off.toNat, ([] : List Nat), true)
      let rem := r.1
      let l0 := if isBlockFmt fmt then (if rem % 528 < 512 then some (rem / 528 * 512 + rem % 528) else none)
        else if rem % elemSize fmt = 0 then some (rem / elemSize fmt) else none
      match l0 with
      | some i => if r.2.2 && decide (i < d0.len) then some (i :: r.2.1) else none
      | none => none

/-- Whether a handle side reads real data at a cell: its global coordinate lies within SIZE in every dimension (R248). -/
def cellReads (ls : List LDim) (ix : List Nat) : Bool :=
  (ls.zip ix).all (fun e => decide (0 ≤ e.1.first + e.2) && decide (e.1.first + e.2 < e.1.size))

/-- Whether a handle side performs a write at a cell (R248). -/
def cellWrites (halo : Bool) (ls : List LDim) (ix : List Nat) : Bool :=
  cellReads ls ix && (ls.zip ix).all (fun e =>
    let c := e.1.first + e.2
    let own := decide ((e.1.partLo : Int) ≤ c) && decide (c < e.1.partHi)
    if e.1.course then own || halo else if e.1.sheafSplit then own else true)

/-- The base of a handle side on a sheaf (R248). -/
def handleBase (fmt : Nat) (place0 : Nat) (ls : List LDim) : Nat :=
  place0 + (ls.zipIdx.map (fun e =>
    if !e.1.sheafSplit then 0
    else if e.2 = 0 then (if isBlockFmt fmt then (packedPos e.1.partLo).toNat else e.1.partLo * elemSize fmt)
    else e.1.partLo * e.1.stride)).sum

/-! ### A descriptor's plan -/

/-- One side of a move: in memory or the loft, its base, its view, and the layout behind a handle. -/
structure MoveSide where
  mem : Bool
  base : Nat
  view : View
  origin : Nat
  dims : Option (List LDim)
  deriving DecidableEq, Repr

/-- The address of output element `i` for reading; none for padding (R248). -/
def MoveSide.readAt (m : MoveSide) (fmt i : Nat) : Option Int :=
  (m.view.addr fmt m.base i).bind (fun a => match m.dims with
    | none => some a
    | some ls => match cellAt fmt ls (a - m.origin) with
      | some ix => if cellReads ls ix then some a else none
      | none => none)

/-- The address of output element `i` for writing; none where the write is dropped (R231, R248). -/
def MoveSide.writeAt (m : MoveSide) (fmt : Nat) (halo : Bool) (i : Nat) : Option Int :=
  (m.view.addr fmt m.base i).bind (fun a => match m.dims with
    | none => some a
    | some ls => match cellAt fmt ls (a - m.origin) with
      | some ix => if cellWrites halo ls ix then some a else none
      | none => none)

/-- The footprint of a side, half-open. -/
def MoveSide.foot (m : MoveSide) (fmt : Nat) : Option (Int × Int) := m.view.footprint fmt m.base

/-- What a checked descriptor will do on a sheaf. -/
inductive MovePlan
  | counters (off : Nat) (clear : Bool)
  | move (fmt : Nat) (halo : Bool) (fill : Nat) (src dst : MoveSide)
  deriving DecidableEq, Repr

/-- Whether a descriptor's side is in memory. -/
def srcInMem (d : MoveDesc) : Bool := decide (d.kind = 2) || decide (d.kind = 3)
def dstInMem (d : MoveDesc) : Bool := decide (d.kind = 1) || decide (d.kind = 3)

/-- A side of a descriptor of KIND 0 to 3 once its view is read. -/
def moveSide (s : State) (al : Option Allot) (g : Nat) (d : MoveDesc) (src : Bool) (v : View) (t : Option Tensor) : MoveSide :=
  let viaHandle := if src then d.flags.getLsbD 0 else d.flags.getLsbD 1
  let addr := (if src then d.srcAddr else d.dstAddr).toNat
  let mem := if src then srcInMem d else dstInMem d
  match viaHandle, al, t with
  | true, some a, some t =>
    let ls := layout s a g t.dims
    let o := (t.dims.head?.map (·.place.toNat)).getD 0
    { mem := mem, base := handleBase d.fmt.toNat o ls, view := v, origin := o, dims := some ls }
  | _, _, _ => { mem := mem, base := addr, view := v, origin := 0, dims := none }

/-- A footprint, if any, overlaps another. -/
def footsMeet (a b : Option (Int × Int)) : Bool :=
  match a, b with
  | some x, some y => decide (x.1 < y.2) && decide (y.1 < x.2)
  | _, _ => false

/-- The view rules of R247 for block-scaled formats. -/
def moveBlockOk (v : View) : Bool :=
  decide (v.packed = some 0) && v.full && decide (v.d0.start % 32 = 0) && decide (v.d0.count % 32 = 0)

/-- The checks of R249 on one descriptor on one sheaf: the number of the first that fails with its status, or the plan.
`scope` says whether a range of memory may be named. -/
def planMove (s : State) (al : Option Allot) (scope : Nat → Nat → Bool) (g : Nat) (d : MoveDesc) :
    Except (Nat × Status) MovePlan :=
  let sh := s.sheaf g
  let space := loftSpace sh
  if d.kind = 4 then
    if space < d.dstAddr.toNat + 16 then .error (4, .badParam) else .ok (.counters d.dstAddr.toNat (d.flags.getLsbD 3))
  else
    let fmt := d.fmt.toNat
    let rec1 := KMap.bytes sh.loft d.srcView.toNat 64
    let rec2 := KMap.bytes sh.loft d.dstView.toNat 64
    let t := al.bind (fun a => KMap.look a.tensors d.handle.toNat)
    let handled := d.flags.getLsbD 0 || d.flags.getLsbD 1
    match viewOf rec1, viewOf rec2 with
    | some v, some w =>
      let a := moveSide s al g d true v t
      let b := moveSide s al g d false w t
      let fa := a.foot fmt
      let fb := b.foot fmt
      let over' := fun (m : MoveSide) (f : Option (Int × Int)) => m.mem &&
        (match f with | some x => decide (x.1 < 0) || decide ((memEnd : Int) < x.2) | none => false)
      let foreign := fun (m : MoveSide) (f : Option (Int × Int)) => m.mem &&
        (match f with | some x => !scope x.1.toNat x.2.toNat | none => false)
      let outLoft := fun (m : MoveSide) (f : Option (Int × Int)) => !m.mem &&
        (match f with | some x => decide (x.1 < 0) || decide ((space : Int) < x.2) | none => false)
      let same := decide (a.base = b.base) && decide (rec1 = rec2) && decide (d.flags.getLsbD 0 = d.flags.getLsbD 1)
      if v.dims.map (·.count) ≠ w.dims.map (·.count) ∨ (isBlockFmt fmt = true ∧ ¬(moveBlockOk v = true ∧ moveBlockOk w = true)) ∨
         (handled = true ∧ t = none) then .error (1, .badParam)
      else if !(v.aligned fmt a.base && w.aligned fmt b.base) then .error (2, .alignFault)
      else if over' a fa || over' b fb then .error (3, .badParam)
      else if foreign a fa || foreign b fb then .error (3, .wrongAllotment)
      else if outLoft a fa || outLoft b fb || decide (space < d.srcView.toNat + 64) || decide (space < d.dstView.toNat + 64) then
        .error (4, .badParam)
      else if a.mem == b.mem && footsMeet fa fb && !same then .error (5, .layoutOverlap)
      else if (handled && t.any (fun x => decide (x.format ≠ d.fmt))) || (d.flags.getLsbD 0 && !a.mem) || (d.flags.getLsbD 1 && !b.mem) then
        .error (6, .shardConflict)
      else .ok (.move fmt (d.flags.getLsbD 2) d.fill.toNat a b)
    | _, _ => .error (1, .badParam)

/-- The memory ranges a TENSOR_MOVE of an allotment names on one sheaf, half-open (R98). -/
def moveRanges (s : State) (allot : Nat) (g : Nat) (ds : List MoveDesc) : List (Nat × Nat) :=
  ds.flatMap (fun d => match planMove s (s.allot? allot) (fun _ _ => true) g d with
    | .ok (.move fmt _ _ a b) =>
      (if a.mem then (a.foot fmt).toList else []).map (fun e => (e.1.toNat, e.2.toNat)) ++
      (if b.mem then (b.foot fmt).toList else []).map (fun e => (e.1.toNat, e.2.toNat))
    | _ => [])

end Sys2Proof.Machine
end

