-- ==== Sys2Proof/WellFormed.lean ====
section
/-!
DEFINITION. Which commands can be a packet: the data a command carries has the length that its count field and R57, R84
and R85 allow. A command that is not well formed is refused with `BAD_LENGTH` (R87, stage 1). Rows that are events carry
no packet and are always well formed, but for the byte strings of the sideband and of fixed records.
-/

namespace Sys2Proof

/-- Whether a packet of `words` words, mask word and trailer apart, fits LENGTH (R57). -/
def fitsLength (words : Nat) : Bool := decide (words ≤ 8192)

/-- Whether the data a command carries agrees with its count fields (R85) and its fixed-size parameters. -/
def Instr.wf : Instr → Bool
  | .nop _ data => decide (data.length % 8 = 0) && fitsLength (2 + data.length / 8)
  | .progLoad _ source count _ _ img =>
    if source = 0 then decide (img.length = 32 * count.toNat) && fitsLength (4 + 4 * count.toNat)
    else decide (img = [])
  | .start _ args => decide (args.length ≤ 255)
  | .spWrite _ _ data => decide (data.length ≤ 65504)
  | .loftWrite _ _ data => decide (data.length ≤ 65512)
  | .fwStage _ _ data => decide (data.length ≤ 65512)
  | .tensorMove _ descs => decide (descs.length ≤ 255)
  | .tensorDefine _ _ _ dims => decide (dims.length ≤ 255)
  | .allotCreate _ _ _ members => decide (members.length ≤ 16370)
  | .allotResize _ _ _ _ members => decide (members.length ≤ 16370)
  | .topoDraw _ _ _ extents => decide (extents.length = 4)
  | .colourMapSet _ _ map => decide (map.tx.length = 32) && decide (map.rx.length = 32)
  | .attest _ nonce => decide (nonce.length = 32)
  | .keyRotate _ hash => decide (hash.length = 32)
  | .sidebandPacket bytes => decide (bytes.length ≤ 4096)
  | _ => true

end Sys2Proof
end

