-- ==== Sys2Proof/Machine/Commands.lean ====
section
/-!
DEFINITION. What every host command shares: the columns of the opcode tables (R84), state legality (R113), the
resources by which commands wait for one another (R88), admission (R42, R74, R86), the combined summary record (R46 to
R48), completion events (R80), and the two ways a command is carried out, as a unit command or as a module command.
-/

namespace Sys2Proof.Machine

/-! ### The opcode tables -/

/-- One row of an opcode table (Table 4-1): acting level 0, 3 or 5; minimum class 0 job, 1 admin, 2 owner; whether a
sequence slot is required. -/
structure CmdInfo where
  code : Nat
  level : Nat
  minClass : Nat
  slotReq : Bool
  deriving DecidableEq, Repr

/-- The header and the opcode-table row of a command; none for a row of the table that is an event. -/
def cmdOf : Instr → Option (Hdr × CmdInfo)
  | .nop h _ => some (h, ⟨0x0100, 5, 0, false⟩)
  | .devInfo h => some (h, ⟨0x0101, 5, 0, false⟩)
  | .regRead h _ => some (h, ⟨0x0102, 5, 0, false⟩)
  | .regWrite h _ _ => some (h, ⟨0x0103, 5, 1, false⟩)
  | .portGrant h _ => some (h, ⟨0x0104, 5, 1, false⟩)
  | .takeover h _ => some (h, ⟨0x0105, 5, 1, false⟩)
  | .wake h => some (h, ⟨0x0201, 3, 0, false⟩)
  | .sleep h => some (h, ⟨0x0202, 3, 0, false⟩)
  | .reset h => some (h, ⟨0x0203, 0, 0, false⟩)
  | .query h => some (h, ⟨0x0204, 0, 0, false⟩)
  | .progLoad h _ _ _ _ _ => some (h, ⟨0x0205, 0, 0, false⟩)
  | .start h _ => some (h, ⟨0x0206, 0, 0, true⟩)
  | .pause h => some (h, ⟨0x0207, 0, 0, false⟩)
  | .resume h => some (h, ⟨0x0208, 0, 0, false⟩)
  | .drain h => some (h, ⟨0x0209, 0, 0, false⟩)
  | .uregRead h _ => some (h, ⟨0x020A, 0, 0, false⟩)
  | .uregWrite h _ _ => some (h, ⟨0x020B, 0, 0, false⟩)
  | .spRead h _ _ => some (h, ⟨0x020C, 0, 0, false⟩)
  | .spWrite h _ _ => some (h, ⟨0x020D, 0, 0, false⟩)
  | .spareStatus h => some (h, ⟨0x020E, 3, 0, false⟩)
  | .memGrant h _ _ _ => some (h, ⟨0x0301, 5, 1, false⟩)
  | .memRevoke h _ _ => some (h, ⟨0x0302, 5, 1, false⟩)
  | .hostDma h _ _ _ _ => some (h, ⟨0x0303, 5, 0, false⟩)
  | .aperture h _ => some (h, ⟨0x0304, 5, 0, false⟩)
  | .memFill h _ _ _ => some (h, ⟨0x0305, 5, 0, false⟩)
  | .eccRead h _ => some (h, ⟨0x0306, 5, 1, false⟩)
  | .rowRetire h _ => some (h, ⟨0x0307, 5, 1, false⟩)
  | .loftWrite h _ _ => some (h, ⟨0x0401, 3, 0, false⟩)
  | .loftRead h _ _ => some (h, ⟨0x0402, 3, 0, false⟩)
  | .tensorMove h _ => some (h, ⟨0x0403, 3, 0, false⟩)
  | .tensorDefine h _ _ _ => some (h, ⟨0x0404, 5, 0, false⟩)
  | .tensorRelease h _ => some (h, ⟨0x0405, 5, 0, false⟩)
  | .allotCreate h _ _ _ => some (h, ⟨0x0501, 5, 1, false⟩)
  | .allotDissolve h _ => some (h, ⟨0x0502, 5, 1, false⟩)
  | .allotResize h _ _ _ _ => some (h, ⟨0x0503, 5, 1, false⟩)
  | .topoDraw h _ _ _ => some (h, ⟨0x0504, 5, 0, false⟩)
  | .colourMapSet h _ _ => some (h, ⟨0x0505, 5, 1, false⟩)
  | .fabricTable h _ => some (h, ⟨0x0506, 5, 0, false⟩)
  | .routeQuery h _ => some (h, ⟨0x0507, 5, 0, false⟩)
  | .collDefine h _ _ _ => some (h, ⟨0x0601, 3, 0, true⟩)
  | .collBackup h _ _ _ => some (h, ⟨0x0602, 5, 0, false⟩)
  | .collTune h _ _ _ _ => some (h, ⟨0x0603, 3, 0, false⟩)
  | .collCommit h _ _ => some (h, ⟨0x0604, 3, 0, true⟩)
  | .collAbort h _ => some (h, ⟨0x0605, 3, 0, true⟩)
  | .collStatus h _ => some (h, ⟨0x0606, 3, 0, false⟩)
  | .numCtl h _ => some (h, ⟨0x0701, 3, 0, false⟩)
  | .wvConfig h _ _ _ _ _ => some (h, ⟨0x0702, 3, 0, false⟩)
  | .wvStats h _ => some (h, ⟨0x0703, 3, 0, false⟩)
  | .rngKey h _ _ => some (h, ⟨0x0704, 3, 0, true⟩)
  | .determinism h _ => some (h, ⟨0x0705, 5, 0, false⟩)
  | .clampRead h _ => some (h, ⟨0x0706, 3, 0, false⟩)
  | .eaveStatus h _ => some (h, ⟨0x0801, 5, 0, false⟩)
  | .eaveCommission h _ => some (h, ⟨0x0802, 5, 1, false⟩)
  | .laserSwap h _ _ _ => some (h, ⟨0x0803, 5, 1, false⟩)
  | .monitorRead h _ _ _ => some (h, ⟨0x0804, 5, 0, false⟩)
  | .eaveSweep h _ => some (h, ⟨0x0805, 5, 1, false⟩)
  | .domainSet h _ _ => some (h, ⟨0x0901, 5, 1, false⟩)
  | .dvfsSet h _ => some (h, ⟨0x0902, 3, 0, false⟩)
  | .powerCap h _ => some (h, ⟨0x0903, 5, 1, false⟩)
  | .thermalRead h => some (h, ⟨0x0904, 3, 0, false⟩)
  | .powerRead h => some (h, ⟨0x0905, 5, 0, false⟩)
  | .attest h _ => some (h, ⟨0x0A01, 5, 0, false⟩)
  | .certRead h => some (h, ⟨0x0A02, 5, 0, false⟩)
  | .fwStage h _ _ => some (h, ⟨0x0A03, 5, 2, false⟩)
  | .fwActivate h _ => some (h, ⟨0x0A04, 5, 2, false⟩)
  | .repairCommit h => some (h, ⟨0x0A05, 5, 2, false⟩)
  | .keyRotate h _ => some (h, ⟨0x0A06, 5, 2, false⟩)
  | .primarySet h _ => some (h, ⟨0x0A07, 5, 2, false⟩)
  | .debugLock h => some (h, ⟨0x0A08, 5, 2, false⟩)
  | .journalRead h _ => some (h, ⟨0x0A09, 5, 1, false⟩)
  | _ => none

/-- The marks of Table 4-14. -/
inductive Mark | t | q | n | same | w | no
  deriving DecidableEq, Repr

/-- State legality of a unit command (R113, Table 4-14). -/
def markOf (c : Instr) (u : UState) : Mark :=
  match c with
  | .wake _ => match u with | .off => .t | .waking => .w | _ => .same
  | .sleep _ => match u with | .off => .same | .idle => .t | .loaded => .t | .faulted => .t | _ => .no
  | .reset _ => match u with | .off => .no | .waking => .no | _ => .t
  | .query _ => .q
  | .spareStatus _ => .q
  | .progLoad .. => match u with | .idle => .t | .loaded => .t | _ => .no
  | .start .. => match u with | .loaded => .t | _ => .no
  | .pause _ => match u with | .running => .t | .paused => .same | _ => .no
  | .resume _ => match u with | .running => .same | .paused => .t | _ => .no
  | .drain _ => match u with | .running => .t | .paused => .t | .draining => .same | _ => .no
  | .uregRead .. => match u with | .off => .no | .waking => .no | _ => .q
  | .wvStats .. => match u with | .off => .no | .waking => .no | _ => .q
  | .clampRead .. => match u with | .off => .no | .waking => .no | _ => .q
  | .thermalRead _ => match u with | .off => .no | .waking => .no | _ => .q
  | .collStatus .. => match u with | .off => .no | .waking => .no | _ => .q
  | .loftRead .. => match u with | .off => .no | .waking => .no | _ => .q
  | .uregWrite .. => match u with | .idle => .n | .loaded => .n | .paused => .n | .faulted => .n | _ => .no
  | .numCtl .. => match u with | .idle => .n | .loaded => .n | .paused => .n | .faulted => .n | _ => .no
  | .rngKey .. => match u with | .idle => .n | .loaded => .n | .paused => .n | .faulted => .n | _ => .no
  | .spRead .. => match u with | .idle => .q | .loaded => .q | .paused => .q | .faulted => .q | _ => .no
  | .spWrite .. => match u with | .idle => .n | .loaded => .n | _ => .no
  | .dvfsSet .. => .n
  | _ => match u with | .off => .no | .waking => .no | _ => .n

/-! ### Resources (R88, R98) -/

/-- What a command names, by which two commands are carried out one at a time. -/
inductive Res
  | units (x : Sel)
  | reg (n : Nat)
  | mem (lo hi : Nat)
  | allot (a : Nat)
  | tensor (a h : Nat)
  | coll (a h : Nat)
  | eave (e : Nat)
  deriving DecidableEq, Repr

def Res.meets : Res → Res → Bool
  | .units a, .units b => a.meets b
  | .reg a, .reg b => decide (a = b)
  | .mem a b, .mem c d => extOverlap (a, b) (c, d)
  | .allot a, .allot b => decide (a = b)
  | .tensor a h, .tensor a' h' => decide (a = a' ∧ h = h')
  | .coll a h, .coll a' h' => decide (a = a' ∧ h = h')
  | .eave a, .eave b => decide (a = b)
  | _, _ => false

/-- What a command names (R88). A unit command names the units it selects; TENSOR_MOVE also its memory ranges (R98).
Boolean bit maps of eaves name each eave in them. -/
def resOf (s : State) (c : Instr) : List Res :=
  match c with
  | .regRead _ n => [.reg n.toNat]
  | .regWrite _ n _ => [.reg n.toNat]
  | .portGrant .. => [.reg 0x10000]
  | .takeover h a =>
    if a.toNat = 0xFFFF then
      match h.src with
      | .port p => (s.allotsOf (otherPort p)).map .allot
      | _ => []
    else [.allot a.toNat]
  | .memGrant _ a b n => [.allot a.toNat, .mem b.toNat (b.toNat + n.toNat)]
  | .memRevoke _ a b => [.allot a.toNat] ++
      (match (s.allot? a.toNat).bind (fun x => x.grants.find? (fun e => e.1 = b.toNat)) with
       | some e => [.mem e.1 e.2]
       | none => [])
  | .hostDma _ _ _ d n => [.mem d.toNat (d.toNat + n.toNat)]
  | .memFill _ d n _ => [.mem d.toNat (d.toNat + n.toNat)]
  | .rowRetire _ a => [.mem a.toNat (a.toNat + 1)]
  | .tensorDefine h n _ _ => [.tensor h.allot.toNat n.toNat]
  | .tensorRelease h n => [.tensor h.allot.toNat n.toNat]
  | .allotCreate _ a _ _ => [.allot a.toNat]
  | .allotDissolve _ a => [.allot a.toNat]
  | .allotResize _ a _ _ _ => [.allot a.toNat]
  | .topoDraw h _ _ _ => .allot h.allot.toNat :: (List.range 8).map .eave
  | .colourMapSet _ e _ => [.eave e.toNat]
  | .collBackup h n _ _ => [.coll h.allot.toNat n.toNat]
  | .determinism h _ => [.allot h.allot.toNat]
  | .eaveStatus _ e => [.eave e.toNat]
  | .eaveCommission _ e => [.eave e.toNat]
  | .laserSwap _ e _ _ => [.eave e.toNat]
  | .monitorRead _ e _ _ => [.eave e.toNat]
  | .eaveSweep _ m => ((List.range 8).filter (fun i => m.getLsbD i)).map .eave
  | .domainSet _ d _ => if d.toNat < 8 then [.eave d.toNat] else [.reg (0x10100 + d.toNat)]
  | .powerCap .. => [.reg 0x10001]
  | .fwStage .. => [.reg 0x10200]
  | .fwActivate .. => [.reg 0x10200, .reg 0x10201]
  | .repairCommit _ => [.reg 0x10201]
  | .keyRotate .. => [.reg 0x10201]
  | .primarySet .. => [.reg 0x10201]
  | .debugLock _ => [.reg 0x10201]
  | .tensorMove h ds =>
    let x := selOf h.path h.mask
    let hs := ds.filterMap (fun d => if d.handle = 0 then none else some (Res.tensor h.allot.toNat d.handle.toNat))
    .units x :: (hs ++ (x.sheaves.flatMap (fun g => moveRanges s h.allot.toNat g ds)).map (fun e => .mem e.1 e.2))
  | _ => match cmdOf c with
    | some (h, i) => if i.level = 5 then [] else [.units (selOf h.path h.mask)]
    | none => []

/-- Whether two commands name a common resource. -/
def clash (s : State) (a b : Instr) : Bool := (resOf s a).any (fun x => (resOf s b).any x.meets)

/-- Whether a command in progress still holds back others: a COLL_COMMIT is finished at admission, though it waits for its
round's decision (R303), and a FW_ACTIVATE with its reply, before the restart (Table 17-8). -/
def Op.holds (o : Op) : Bool :=
  match o.wait, o.cmd with
  | .decision .., .collCommit .. => false
  | _, .fwActivate .. => false
  | _, _ => true

/-- The sheaves that a unit command selects. -/
def cmdSheaves (c : Instr) : List Nat :=
  match cmdOf c with
  | some (h, i) => if i.level = 5 then [] else (selOf h.path h.mask).sheaves
  | none => []

/-- Whether a die between the module lodge and a sheaf holds its traffic (R439, R440). -/
def lodgeHolds (s : State) (g : Nat) : Bool := routeHolds s (feedRoute lodgeFeed (g / 16))

/-- Whether a command must wait: an earlier command in progress or waiting names what it names, 256 module commands
are in progress (R88), or a die on its way holds traffic (R439). `ahead` is the part of the waiting list received earlier. -/
def mustWait (s : State) (ahead : List Waiting) (c : Instr) : Bool :=
  s.lodge.ops.any (fun o => o.holds && clash s o.cmd c) ||
  ahead.any (fun w => w.fencedBy.isEmpty && decide (w.verdict = .admitted) && clash s w.cmd c) ||
  (match cmdOf c with
   | some (_, i) => decide (i.level = 5) &&
      decide (256 ≤ (s.lodge.ops.filter (fun o => decide (((cmdOf o.cmd).map (·.2.level)) = some 5))).length)
   | none => false) ||
  (cmdSheaves c).any (lodgeHolds s)

/-- Commands of a port that have been taken and are not yet replied to (R58). -/
def State.openCmds (s : State) (p : PortIx) : List Nat :=
  let mine := fun (c : Instr) => decide (((cmdOf c).map (·.1.src)) = some (Src.port p))
  (s.lodge.waiting.filter (fun w => mine w.cmd)).map (·.id) ++
  (s.lodge.ops.filter (fun o => mine o.cmd)).map (·.id) ++
  ((s.port p).hold.filter (fun k => !k.event)).map (·.cmdId)

/-! ### Replies -/

/-- A reply packet to a command (R59). -/
def mkReply (id : Nat) (c : Instr) (st : Status) (u : UState) (payload : List Byte) : OutPkt :=
  match cmdOf c with
  | some (h, i) => { event := false, cmdId := id, opcode := BitVec.ofNat 16 i.code, status := st, ustate := u,
                     tag := h.tag, path := h.path, slot := h.slot, payload := payload, irq := h.irq }
  | none => { event := false, cmdId := id, opcode := 0, status := st, ustate := u, tag := 0, path := 0, slot := 0xF,
                payload := payload, irq := false }

/-- Reply to a command (R59). -/
def State.reply (s : State) (id : Nat) (c : Instr) (st : Status) (u : UState) (payload : List Byte) : State :=
  match cmdOf c with
  | some (h, _) => s.sendReply h c (mkReply id c st u payload)
  | none => s

/-! ### The combined summary record (R46 to R48) -/

/-- The tallies of a reply to a unit command. -/
structure Summary where
  selected : Nat
  answered : Nat
  retired : Nat
  late : Nat
  silent : Nat
  note : Option Nat
  counts : List Nat
  entries : List (Status × Nat)
  deriving DecidableEq, Repr

/-- Add units under a status. -/
def addEntry (st : Status) (n : Nat) : List (Status × Nat) → List (Status × Nat)
  | [] => if n = 0 then [] else [(st, n)]
  | (x, m) :: t => if x = st then (x, m + n) :: t else (x, m) :: addEntry st n t

/-- Insert an entry so that the list stays from worst to least bad. -/
def insEntry (e : Status × Nat) : List (Status × Nat) → List (Status × Nat)
  | [] => [e]
  | x :: t => if x.1.key < e.1.key then e :: x :: t else x :: insEntry e t

/-- Entries from worst to least bad (R48). -/
def sortEntries : List (Status × Nat) → List (Status × Nat)
  | [] => []
  | e :: t => insEntry e (sortEntries t)

/-- The bytes of a summary record (Table 2-7). -/
def Summary.bytes (x : Summary) : List Byte :=
  leBytes 4 x.selected ++ leBytes 4 x.answered ++ leBytes 4 x.retired ++ leBytes 4 x.late ++ leBytes 4 x.silent ++
  leBytes 3 (x.note.getD 0) ++ [0] ++ leBytes 2 x.entries.length ++ leBytes 6 0 ++
  x.counts.flatMap (leBytes 3) ++
  (sortEntries x.entries).flatMap (fun e => leBytes 2 e.1.code ++ leBytes 2 0 ++ leBytes 4 e.2)

/-- The combined status (R46): the worst entry, raised by retired and late-skipped units. -/
def Summary.status (x : Summary) : Status :=
  let w := x.entries.foldl (fun a e => Status.worse a e.1) .ok
  if 0 < x.retired + x.late then Status.worse w .okDegraded else w

/-- The lower of two optional paths. -/
def lowNote : Option Nat → Option Nat → Option Nat
  | none, b => b
  | a, none => a
  | some a, some b => some (min a b)

/-- How often each state code occurs in a list. -/
def countStates (l : List UState) : List Nat := allUStates.map (fun u => (l.filter (fun x => decide (x = u))).length)

/-- The state of highest precedence that occurs in the counts, if any. -/
def topOfCounts (c : List Nat) : Option UState :=
  topOf ((allUStates.zip c).filterMap (fun e => if e.2 = 0 then none else some e.1))

/-- The states of the non-retired selected units as lodge level `k` holds them (0: as they are): reeds, or sheaves as the
combination of their reeds (R76). -/
def selStates (s : State) (x : Sel) (level3 : Bool) (k : Nat) : List UState :=
  x.sheaves.flatMap (fun g =>
    let sh := s.sheaf g
    if level3 then (sh.topAt k).toList else (x.locals.filter (fun l => !sh.retired l)).map (sh.censusOf k))

/-- Retired units of a selection and the lowest of their paths (R48, R419). -/
def selRetired (s : State) (x : Sel) (level3 : Bool) : List Nat :=
  if level3 then (x.sheaves.filter (fun g => (s.sheaf g).withheld)).map (fun g => (sheafPath g).toNat)
  else x.sheaves.flatMap (fun g =>
    ((x.locals.filter (fun l => (s.sheaf g).retired l)).map (fun l => (reedPath (4096 * g + l)).toNat)))

/-- The smallest number of a list, if any. -/
def lowest (l : List Nat) : Option Nat := l.foldl (fun a b => lowNote a (some b)) none

/-! ### Admission -/

/-- The checks of path and mask (R38, R40, R41). -/
def pathMaskCheck (h : Hdr) (level : Nat) : Option Status :=
  let act := if level = 0 then 5 else if level = 3 then 2 else 0
  if pathInvalid h.path then some .badUnit
  else if act < pathDepth h.path then some .badUnit
  else match h.mask with
    | none => none
    | some m =>
      let k := maskDepth h.path m
      if bitsOf m.toNat 15 0 = 0 || decide (k ≤ pathDepth h.path) || decide (5 < k) || decide (act < k) ||
         decide (pathDepth h.path = 5) then some .badParam else none

/-- Why a unit command is refused: its status, the state its reply carries when a unit caused it, and how many units. -/
structure Refuse where
  status : Status
  state : Option UState
  count : Nat
  note : Option Nat
  /-- refused by the path, the mask or a form check: the record of an invalid path (R48) -/
  bare : Bool
  deriving DecidableEq, Repr

def Refuse.form (st : Status) : Refuse := { status := st, state := none, count := 1, note := none, bare := true }

/-- Refused by the listed selected units: sheaves or reeds (lowest first), with their states at lodge level `k`. -/
def Refuse.units (s : State) (st : Status) (level3 : Bool) (k : Nat) (us : List Nat) : Refuse :=
  match us with
  | [] => { status := st, state := none, count := 0, note := none, bare := false }
  | u :: _ =>
    { status := st, count := us.length, bare := false,
      state := some (if level3 then (((s.sheaf u).topAt k).getD .off) else (s.sheaf (u / 4096)).censusOf k (u % 4096)),
      note := some (if level3 then (sheafPath u).toNat else (reedPath u).toNat) }

/-- Refused ahead of admission by the lane the command came over, through no unit: the record keeps the selection of a valid path
and mask (R48). -/
def Refuse.lane (h : Hdr) (i : CmdInfo) (st : Status) : Refuse :=
  if (pathMaskCheck h i.level).isNone then { status := st, state := none, count := 0, note := none, bare := false }
  else Refuse.form st

/-- The units of a selection at the acting level: sheaf numbers, or reed numbers. -/
def Sel.unitList (x : Sel) (level3 : Bool) : List Nat :=
  if level3 then x.sheaves else x.sheaves.flatMap (fun g => x.locals.map (fun l => 4096 * g + l))

/-- Reserved bits of the path and the mask word (R38, R39, R8). -/
def reservedBits (h : Hdr) : Bool :=
  pathBit20 h.path || (match h.mask with | some m => decide (m.toNat / 2 ^ 19 ≠ 0) | none => false)

/-- A SLOT that does not suit the opcode, or an undefined class (R58, R65). A packet never brings one this far; a command that
does is refused as the header check refuses it. -/
def headerBad (h : Hdr) (i : CmdInfo) : Bool :=
  reservedBits h || decide (2 < h.priv.toNat) ||
  (if i.slotReq then decide (3 < h.slot.toNat) else decide (h.slot.toNat ≠ 15))

/-- The port a command came from. -/
def portOf (h : Hdr) : Option PortIx := match h.src with | .port p => some p | _ => none

/-- R74 steps 1 to 3, R75 and the two clauses on named allotments. `named` marks TAKEOVER, whose rules decide. -/
def privCheck (s : State) (h : Hdr) (minClass : Nat) (isTakeover : Bool) : Option Status :=
  match h.src with
  | .port p =>
    if h.priv.toNat = 1 && !(s.port p).admin then some .noPrivilege
    else if h.priv.toNat < minClass then some .noPrivilege
    else if h.priv.toNat = 2 then none
    else match s.allot? h.allot.toNat with
      | some a => if a.owner = p ∨ (isTakeover ∧ h.priv.toNat = 1) then none else some .wrongAllotment
      | none => if h.priv.toNat = 0 then some .wrongAllotment else none
  | .peer addr _ =>
    if h.priv.toNat ≠ 0 ∨ 0 < minClass then some .noPrivilege
    else match s.allot? h.allot.toNat with
      | some a => if a.members.contains addr then none else some .wrongAllotment
      | none => some .wrongAllotment
  | .sideband =>
    if h.priv.toNat < minClass then some .noPrivilege else none

/-- Whether a sheaf lies outside what a command may select (R74 steps 4 and 5). -/
def foreignSheaf (s : State) (h : Hdr) (g : Nat) : Bool :=
  if h.priv.toNat = 2 then false
  else if h.allot ≠ 0 then decide (s.allotOf g ≠ h.allot.toNat)
  else match s.allot? (s.allotOf g) with
    | none => false
    | some a => decide (some a.owner ≠ portOf h)

/-- The mark of a unit for a command: of a reed, or the combination over a sheaf's reeds (R113). -/
def unitMark (c : Instr) (us : List UState) : Mark :=
  let ms := us.map (markOf c)
  if ms.contains .no then .no
  else if ms.contains .w then .w
  else if ms.any (fun m => decide (m ≠ .same)) then (ms.find? (fun m => decide (m ≠ .same))).getD .same
  else .same

/-- The level of the lodge that admits a command: that of the addressed unit, a reed being its own (R42, Table 2-1). -/
def lodgeLevel (h : Hdr) : Nat := 5 - pathDepth h.path

/-- Selected units whose state in the census of lodge level `k` makes the command illegal (R42 step 4). -/
def illegalUnits (s : State) (c : Instr) (x : Sel) (level3 : Bool) (k : Nat) : List Nat :=
  if level3 then x.sheaves.filter (fun g => decide (unitMark c ((s.sheaf g).statesAt k) = .no))
  else x.sheaves.flatMap (fun g =>
    ((x.locals.filter (fun l => !(s.sheaf g).retired l && decide (markOf c ((s.sheaf g).censusOf k l) = .no))).map
      (fun l => 4096 * g + l)))

/-! ### Unit commands -/

/-- What acting on one sheaf yields. -/
structure ActRes where
  state : State
  status : Status
  piece : List Byte

/-- What is particular to a unit command: its form checks and resource checks, its effect on the acting units of one
sheaf (their local indices), its reply payload from the sheaves' pieces, and what its reply waits for. -/
structure UnitDef where
  level3 : Bool
  form : State → Sel → Option Status
  /-- the first resource check that fails, with the units that fail it -/
  resource : State → Sel → Option (Status × List Nat)
  act : State → Nat → List Nat → ActRes
  payload : Op → List Byte
  wait : State → Op → Option OpWait
  /-- the bytes of a sheaf's piece that each acting unit gives; 0 where the piece is one -/
  slice : Nat := 0

/-- The pieces of a reply in path order. -/
def joinPieces (o : Op) : List Byte := o.pieces.flatMap (·.2)

/-- No form check of its own. -/
def noCheck : State → Sel → Option Status := fun _ _ => none

/-- No resource check. -/
def noRes : State → Sel → Option (Status × List Nat) := fun _ _ => none

/-- The reply waits for nothing. -/
def noWait : State → Op → Option OpWait := fun _ _ => none

/-- Admission of a unit command: form checks, path, mask, privilege and allotment, legality (R87, R42). -/
def admitUnit (s : State) (c : Instr) (h : Hdr) (i : CmdInfo) (d : UnitDef) : Option Refuse :=
  let pm := pathMaskCheck h i.level
  let x := if pm.isNone then selOf h.path h.mask else Sel.none
  if headerBad h i then some (Refuse.form .badParam)
  else if !c.wf then some (Refuse.form .badLength)
  else match d.form s x with
  | some st => some (Refuse.form st)
  | none =>
    match pm with
    | some st => some (Refuse.form st)
    | none =>
      let us := x.unitList d.level3
      let k := lodgeLevel h
      if pathDepth h.path = 5 && us.all (fun r => (s.sheaf (r / 4096)).retired (r % 4096)) then
        some (Refuse.units s .badUnit d.level3 k us)
      else match privCheck s h i.minClass false with
      | some .wrongAllotment => some (Refuse.units s .wrongAllotment d.level3 k us)
      | some st => some (Refuse.units s st d.level3 k [])
      | none =>
        let out := us.filter (fun u => foreignSheaf s h (if d.level3 then u else u / 4096))
        if out ≠ [] then some (Refuse.units s .wrongAllotment d.level3 k out)
        else
          let bad := illegalUnits s c x d.level3 k
          if bad ≠ [] then some (Refuse.units s .badState d.level3 k bad) else none

/-- The reply to a refused unit command (R47, R48). -/
def refuseUnit (s : State) (id : Nat) (c : Instr) (h : Hdr) (d : UnitDef) (r : Refuse) : State :=
  let x := if r.bare then Sel.none else selOf h.path h.mask
  let ret := selRetired s x d.level3
  let y : Summary :=
    { selected := x.size d.level3, answered := 0, retired := ret.length, late := 0, silent := 0,
      note := lowNote (lowest ret) r.note, counts := countStates (selStates s x d.level3 (lodgeLevel h)),
      entries := [(r.status, r.count)] }
  (s.callDies (if r.bare || decide (h.src = .sideband) then [] else pathDies h.path)).reply id c r.status (r.state.getD s.moduleTop) y.bytes

/-- The summary record of a command in progress or done, with the units' states as they are now. -/
def Op.summary (s : State) (o : Op) (level3 : Bool) : Summary :=
  match cmdOf o.cmd with
  | some (h, _) =>
    { selected := o.selected, answered := o.answered, retired := o.retired, late := o.lateSkipped, silent := o.silent,
      note := o.note.map BitVec.toNat, counts := countStates (selStates s (selOf h.path h.mask) level3 0),
      entries := o.entries }
  | none => { selected := 0, answered := 0, retired := 0, late := 0, silent := 0, note := none, counts := [], entries := [] }

/-- The state code for a combination that may hold no unit: then the spec names none, and it is a free value. -/
def State.combinedState (s : State) (c : List Nat) : UState × State :=
  match topOfCounts c with
  | some u => (u, s)
  | none => let f := s.fresh; ((allUStates[f.1.toNat % 8]?).getD .off, f.2)

/-- START and DRAIN are followed by a completion event (R80). -/
def isWatched : Instr → Bool
  | .start .. => true
  | .drain _ => true
  | _ => false

/-- Write the combined reply of a unit command (R46 to R48) and, for START and DRAIN, keep the watch of R80. -/
def finishUnit (s : State) (d : UnitDef) (o : Op) : State :=
  let y := o.summary s d.level3
  let u := s.combinedState y.counts
  let s := u.2.reply o.id o.cmd y.status u.1 (y.bytes ++ d.payload o)
  if isWatched o.cmd then { s with lodge := { s.lodge with watches := s.lodge.watches ++ [⟨o⟩] } } else s

/-- A fresh record of a unit command that has been admitted. Its tallies grow as members answer; RETIRED too, so that the units counted
are those retired as the command reached them and SELECTED is the sum of Table 2-7 (R48; log entry 33). -/
def Op.begin (id : Nat) (c : Instr) (h : Hdr) (level3 : Bool) : Op :=
  let x := selOf h.path h.mask
  { id := id, cmd := c, todo := x.sheaves, acting := [], deaf := [], acted := false, selected := x.size level3, answered := 0, retired := 0,
    lateSkipped := 0, silent := 0, entries := [], note := none, pieces := [],
    wait := .members, prepared := none }

/-- The selected units of a sheaf that are retired: local indices, 0 for the sheaf itself (R48, R419). -/
def goneUnits (sh : Sheaf) (h : Hdr) (level3 : Bool) : List Nat :=
  if level3 then (if sh.withheld then [0] else []) else (selOf h.path h.mask).locals.filter (fun l => sh.retired l)

/-- A command reaches one sheaf: units in a legal state act, the others are late-skipped, those already where the
command leads only answer, and those below a silent L2 lodge are not reached (R45, R49, R113). -/
def arriveAt (s : State) (c : Instr) (h : Hdr) (d : UnitDef) (deaf : List Nat) (g : Nat) : State × MemberRes :=
  let sh := s.sheaf g
  let gone := goneUnits sh h d.level3
  let res := fun (go same late silent : List Nat) (st : Status) (p : List Byte) =>
    (⟨g, go, same, late, silent, gone, st, p, d.slice, false⟩ : MemberRes)
  if d.level3 then
    if sh.withheld then
      match c with
      | .spareStatus _ => let r := d.act s g []; (r.state, res [] [] [] [] .ok r.piece)
      | _ => (s, res [] [] [] [] .ok [])
    else match unitMark c (sh.statesAt 0) with
      | .no => (s, res [] [] [0] [] .ok [])
      | .same => (s, res [] [0] [] [] .ok [])
      | _ => let r := d.act s g (List.range 4096); (r.state, res [0] [] [] [] r.status r.piece)
  else
    let all := (selOf h.path h.mask).locals.filter (fun l => !sh.retired l)
    let lost := all.filter (fun l => deaf.contains (16 * g + l / 256))
    let live := all.filter (fun l => !deaf.contains (16 * g + l / 256))
    let late := live.filter (fun l => decide (markOf c (sh.stOf l) = .no))
    let same := live.filter (fun l => decide (markOf c (sh.stOf l) = .same))
    let go := live.filter (fun l => decide (markOf c (sh.stOf l) ≠ .no) && decide (markOf c (sh.stOf l) ≠ .same))
    let r := d.act s g go
    (r.state, res go same late lost r.status r.piece)

/-- The path of an acting unit of a sheaf. -/
def unitPath (level3 : Bool) (g l : Nat) : Nat := if level3 then (sheafPath g).toNat else (reedPath (4096 * g + l)).toNat

/-- Combine one member's answer into a command's tallies (R46, R48). -/
def Op.absorb (o : Op) (level3 : Bool) (m : MemberRes) : Op :=
  let bad := (if m.status = .ok then [] else m.go) ++ m.late ++ m.silent ++ m.gone
  { o with answered := o.answered + m.same.length + m.go.length, retired := o.retired + m.gone.length, lateSkipped := o.lateSkipped + m.late.length,
           silent := o.silent + m.silent.length, acted := o.acted || !m.go.isEmpty,
           entries := addEntry .badState m.silent.length (addEntry .ok m.same.length (addEntry m.status m.go.length o.entries)),
           note := (lowNote (o.note.map BitVec.toNat) (lowest (bad.map (unitPath level3 m.sheaf)))).map (BitVec.ofNat 24),
           pieces := if m.piece = [] then o.pieces else KMap.ins o.pieces m.sheaf m.piece }

/-- The census of a sheaf's lodges up to level `n` takes the states of the selected reeds (R44). -/
def State.censusSel (s : State) (n g : Nat) (locals : List Nat) : State := s.modSheaf g (fun sh => sh.tell n locals)

/-- Every member has answered: reply, or wait for what the command waits for (R89). -/
def concludeUnit (s : State) (d : UnitDef) (o : Op) : State :=
  match d.wait s o with
  | some w => { s with lodge := { s.lodge with ops := s.lodge.ops ++ [{ o with wait := w }] } }
  | none => finishUnit s d o

/-- Carry out a unit command on every selected sheaf at once and combine the answers. It wakes the network domains that it must cross
(R428). -/
def runUnitAll (s : State) (c : Instr) (h : Hdr) (d : UnitDef) (id : Nat) : State :=
  let x := selOf h.path h.mask
  let s := x.sheaves.foldl (fun s g => wakeRoute s (g / 16)) s
  let r := x.sheaves.foldl (fun (a : State × Op) g =>
    let t := arriveAt a.1 c h d [] g
    (t.1.censusSel 5 g x.locals, a.2.absorb d.level3 t.2)) (s, { Op.begin id c h d.level3 with todo := [] })
  concludeUnit r.1 d r.2

/-- Whether a command in progress keeps a completion event back: the watched command itself, whose reply goes first (R60), and a
RESET of a drain's units, whose reply the drain's event follows (R82). -/
def Op.keepsBack (s : State) (w : Watch) (o : Op) : Bool :=
  decide (o.id = w.op.id) ||
  (match o.cmd, w.op.cmd with | .reset _, .drain _ => clash s o.cmd w.op.cmd | _, _ => false)

/-- Whether every reed a watched command selected has stopped, and nothing keeps its completion event back (R80). -/
def watchDue (s : State) (w : Watch) : Bool :=
  match cmdOf w.op.cmd with
  | some (h, _) =>
    let x := selOf h.path h.mask
    !(x.sheaves.any (fun g =>
      let sh := s.sheaf g
      decide (sh.power = .awake) &&
      sh.reeds.any (fun e => e.2.st.busy && x.locals.contains e.1 && !sh.retired e.1))) &&
    !(s.lodge.ops.any (Op.keepsBack s w))
  | none => false

/-- The completion event of a START or DRAIN (R80). Its source is the addressed unit; where that spans sheaves of several allotments,
the event goes by the allotment of the first selected sheaf (DESIGN CHOICE, log entry 65: R71 does not say whose). -/
def completionEvent (s : State) (w : Watch) : State :=
  match cmdOf w.op.cmd with
  | some (h, _) =>
    let y := w.op.summary s false
    let u := s.combinedState y.counts
    let s := u.2
    let a := match (selOf h.path h.mask).sheaves with | g :: _ => s.allotOf g | [] => 0
    let e : Ev := { opcode := 0x0B01, group := 0, status := y.status, path := h.path, allot := a, slot := h.slot,
                    ustate := u.1, detail := y.bytes }
    let k := s.eventPkt e h.tag
    match h.src with
    | .peer addr _ => (s.callDies (peerDies s h.allot addr .ok)).send (.peerReply addr h.allot k)
    | _ => (s.eventPorts a).foldl (fun s p => (s.callDies (portDies p)).modPort p (fun q => q.putEvent 0 true k)) s
  | none => s

/-- Write every completion event that has fallen due (R80). -/
def State.flushWatches (s : State) : State :=
  let due := s.lodge.watches.filter (watchDue s)
  due.foldl completionEvent
    { s with lodge := { s.lodge with watches := s.lodge.watches.filter (fun w => !watchDue s w) } }

/-- Every check of a unit command, by its lane: the sideband takes none (R411); any other, the checks of admission and then the
resource checks at the executing lodge (R42, R87). -/
def admitOn (s : State) (c : Instr) (h : Hdr) (i : CmdInfo) (d : UnitDef) : Option Refuse :=
  if h.src = .sideband then some (Refuse.lane h i .noPrivilege)
  else match admitUnit s c h i d with
    | some r => some r
    | none => (d.resource s (selOf h.path h.mask)).map (fun e => Refuse.units s e.1 d.level3 (lodgeLevel h) e.2)

/-- Admit and carry out a unit command (R42, R87 to R89). -/
def runUnit (c : Instr) (d : UnitDef) (id : Nat) (s : State) : State :=
  match cmdOf c with
  | some (h, i) =>
    match admitOn s c h i d with
    | some r => refuseUnit s id c h d r
    | none => (runUnitAll s c h d id).flushWatches
  | none => s

/-! ### Module commands -/

/-- The sheaves whose reeds' state the reply to a module command carries (R47, R86): those of the allotment that its row
names, else of its header's allotment, else the module's. -/
def stateScope (s : State) (c : Instr) (h : Hdr) : List Nat :=
  let a := match c with
    | .takeover _ a => a.toNat
    | .memGrant _ a _ _ => a.toNat
    | .memRevoke _ a _ => a.toNat
    | .allotDissolve _ a => a.toNat
    | .allotResize _ a _ _ _ => a.toNat
    | .allotCreate _ a _ _ => a.toNat
    | _ => 0
  match s.allot? a with
  | some x => setBits x.sheaves
  | none => match s.allot? h.allot.toNat with
    | some x => setBits x.sheaves
    | none => List.range 256

/-- Reply to a module command: no summary record; STATE by R86. -/
def finishModule (s : State) (id : Nat) (c : Instr) (st : Status) (payload : List Byte) : State :=
  match cmdOf c with
  | some (h, _) => s.reply id c st (s.topAmong (stateScope s c h)) payload
  | none => s

/-- Sideband rules (R411): the listed opcodes only, and before release or without the main rail the standby-capable ones
only. -/
def sidebandCheck (s : State) (c : Instr) : Option Status :=
  let up := s.boot.released && s.pow.main
  let need := fun (ok standby : Bool) => if !ok then some Status.noPrivilege else if standby || up then none else some .badState
  match c with
  | .devInfo h => need (decide (h.priv.toNat < 2)) true
  | .certRead h => need (decide (h.priv.toNat < 2)) true
  | .journalRead h _ => need (decide (h.priv.toNat < 2)) true
  | .regRead h n => need (decide (h.priv.toNat < 2)) (decide (3 ≤ n.toNat ∧ n.toNat ≤ 6))
  | .powerRead h => need (decide (h.priv.toNat = 1)) false
  | .powerCap h _ => need (decide (h.priv.toNat = 1)) false
  | .attest h _ => need (decide (h.priv.toNat < 2)) false
  | .fwStage h _ _ => need (decide (h.priv.toNat = 2)) false
  | .fwActivate h _ => need (decide (h.priv.toNat = 2)) false
  | _ => some .noPrivilege

/-- The sideband's own checks, where a command comes over the sideband (R411). -/
def sideCheck (s : State) (c : Instr) (h : Hdr) : Option Status :=
  match h.src with | .sideband => sidebandCheck s c | _ => none

/-- The class a command needs of its lane; the sideband's classes are checked by `sideCheck`. -/
def classNeeded (h : Hdr) (i : CmdInfo) : Nat := match h.src with | .sideband => 0 | _ => i.minClass

/-- TAKEOVER alone may name an allotment whose owner the port is not (R407). -/
def isTakeover : Instr → Bool
  | .takeover .. => true
  | _ => false

/-- Admission of a module command: form checks, path, mask, privilege, the objects named (R86, R87). The first check that
fails names the status. -/
def admitModule (s : State) (c : Instr) (h : Hdr) (i : CmdInfo) (form : State → Hdr → Option Status)
    (foreign : State → Hdr → Bool) : Option Status :=
  if headerBad h i then some .badParam
  else if !c.wf then some .badLength
  else match form s h with
  | some st => some st
  | none =>
    if h.path ≠ 0 then some .badUnit
    else if h.mask.isSome then some .badParam
    else match privCheck s h (classNeeded h i) (isTakeover c) with
    | some st => some st
    | none => if foreign s h then some .wrongAllotment else none

/-- Admit and carry out a module command (R86, R87): the admission checks, then `body`, which makes the resource checks
and replies. -/
def runModule (c : Instr) (form : State → Hdr → Option Status) (foreign : State → Hdr → Bool)
    (body : State → Nat → Hdr → State) (id : Nat) (s : State) : State :=
  match cmdOf c with
  | some (h, i) =>
    match sideCheck s c h with
    | some .badState => s.reply id c .badState .off []
    | some st => finishModule s id c st []
    | none =>
      match admitModule s c h i form foreign with
      | some st => finishModule s id c st []
      | none => body s id h
  | none => s

/-- No form check of its own. -/
def noForm : State → Hdr → Option Status := fun _ _ => none
/-- Names no object. -/
def noObjects : State → Hdr → Bool := fun _ _ => false

/-- Keep a module command in progress until what it waits for. -/
def holdFor (w : OpWait) (s : State) (id : Nat) (c : Instr) (st : Status) (payload : List Byte) : State :=
  match cmdOf c with
  | some (h, _) =>
    let o : Op := { Op.stored id c .port0 (mkReply id c st (s.topAmong (stateScope s c h)) payload) with wait := w }
    { s with lodge := { s.lodge with ops := s.lodge.ops ++ [o] } }
  | none => s

/-- Keep a module command in progress until COMMAND_ACTION_COMPLETE (R89). -/
def holdModule : State → Nat → Instr → Status → List Byte → State := holdFor .action

/-- Commands kept in progress whose wait is over are replied to with `OK`. -/
def finishHeld (s : State) (w : OpWait) : State :=
  (s.lodge.ops.filter (fun o => decide (o.wait = w))).foldl (fun s o => finishModule s o.id o.cmd .ok [])
    { s with lodge := { s.lodge with ops := s.lodge.ops.filter (fun o => decide (o.wait ≠ w)) } }

/-- Take a command in progress off the lodge's list. -/
def State.dropOp (s : State) (id : Nat) : State :=
  { s with lodge := { s.lodge with ops := s.lodge.ops.filter (fun o => decide (o.id ≠ id)) } }

/-! ### Taking a command -/

/-- Whether the lane a command comes over takes commands: the sideband under standby power and out of reset (R411), a
port after release while its link is up (R404, R409, R416), and the fabric after release. -/
def laneOpen (s : State) (h : Hdr) : Bool :=
  match h.src with
  | .sideband => s.pow.standby && !s.pow.resetLow
  | .port p => s.boot.released && (s.port p).reached
  | .peer _ _ => s.boot.released

/-- The commands a FENCE flag waits for: every command of the same port that is not finished (R58). -/
def fenceOf (s : State) (h : Hdr) : List Nat :=
  match h.src with | .port p => if h.fence then s.openCmds p else [] | _ => []

/-- A command that has passed the header checks reaches the module lodge (R43, R58, R88): held under FENCE, or behind an
earlier command that names what it names, or carried out. Before release no port takes a packet (R416). -/
def submit (c : Instr) (now : Nat → State → State) (s : State) : State :=
  match cmdOf c with
  | some (h, _) =>
    if !laneOpen s h then s else
    let id := s.lodge.nextId
    let fence := fenceOf s h
    let s := { s with lodge := { s.lodge with nextId := id + 1 } }
    if fence ≠ [] || mustWait s s.lodge.waiting c then
      { s with lodge := { s.lodge with waiting := s.lodge.waiting ++ [⟨id, c, fence, .admitted⟩] } }
    else now id s
  | none => s

/-- The same of a command that has, where `held` and its checks pass, to wait for something that no command names: it is admitted
later (R42). -/
def submitOr (held : State → Bool) (c : Instr) (d : UnitDef) (s : State) : State :=
  match cmdOf c with
  | some (h, i) =>
    let t := { s with lodge := { s.lodge with nextId := s.lodge.nextId + 1 } }
    if held t && (admitOn t c h i d).isNone then
      if !laneOpen s h then s
      else { t with lodge := { t.lodge with waiting := t.lodge.waiting ++ [⟨s.lodge.nextId, c, fenceOf s h, .admitted⟩] } }
    else submit c (runUnit c d) s
  | none => s

end Sys2Proof.Machine
end

