-- ==== Sys2Proof/Machine/Ports.lean ====
section
/-!
DEFINITION. The host ports (chapters 3 and 15): packet window, reply ring, register area of BAR0, link and resets.
-/

namespace Sys2Proof.Machine

/-- A host's access to a port's BAR0: nothing while the port is not reached (R404, R469). -/
def hostAccess (s : State) (p : PortIx) (f : State → State) : State := if (s.port p).reached then f s else s

/-! ### Window -/

/-- Bytes of the packet window (chapter 3). -/
def windowBytes : Nat := 262144

/-- Whether an 8-byte word of the window is present: both 4-byte halves have arrived (R61). -/
def Port.wordPresent (x : Port) (w : Nat) : Bool :=
  (KMap.look x.win (2 * w)).isSome && (KMap.look x.win (2 * w + 1)).isSome

/-- How many words are present. -/
def Port.presentWords (x : Port) : Nat :=
  (x.win.filter (fun e => e.1 % 2 = 0 && (KMap.look x.win (e.1 + 1)).isSome)).length

/-- `PWFREE` (Table 3-4). -/
def pwfree (s : State) (p : PortIx) : Nat :=
  if s.boot.released then windowBytes - 8 * (s.port p).presentWords else 0

/-- `PWSTAT` (Table 3-6). -/
def Port.pwstat (x : Port) : Nat :=
  x.takePtr + b2n x.halted * 2 ^ 18 + x.cause * 2 ^ 19 + x.dropped * 2 ^ 21

/-- Halt a window and write the WINDOW_FAULT event (R64). -/
def haltWindow (s : State) (p : PortIx) (cause : Nat) : State :=
  let s := s.modPort p (fun x => { x with halted := true, cause := cause, dropped := 0 })
  s.moduleEvent 0x0B0D 7 .queueOverrun (leBytes 4 (s.port p).pwstat)

/-- Store the 4-byte halves of a write. -/
def putHalves (m : KMap W32) (k : Nat) : List Byte → KMap W32
  | a :: b :: c :: d :: t => putHalves (KMap.ins m k (BitVec.ofNat 32 (ofLe [a, b, c, d]))) (k + 1) t
  | _ => m

/-- WINDOW_WRITE: a host write into the packet window (R61, R63, R64, R416). A write that is misaligned and also meets a present word halts
with CAUSE 3 (DESIGN CHOICE, log entry 68: R64 gives the two faults no order). -/
def execWindowWrite (p : PortIx) (offset : Nat) (data : List Byte) (s : State) : Out :=
  .next (
    let x := s.port p
    if !s.boot.released || !x.reached then s
    else if x.halted then s.setPort p { x with dropped := min (x.dropped + 1) 1023 }
    else if offset % 4 ≠ 0 || data.length % 4 ≠ 0 then haltWindow s p 3
    else
      let data := data.take (windowBytes - offset)
      let halves := (List.range (data.length / 4)).map (fun i => offset / 4 + i)
      if halves.any (fun k => x.wordPresent (k / 2)) then haltWindow s p 2
      else s.setPort p { x with win := putHalves x.win (offset / 4) data })

/-- Clear a window: no word present, take pointer and `PWTAKEN` 0, open (R64). -/
def Port.resynced (x : Port) : Port :=
  { x with win := [], takePtr := 0, taken := 0, halted := false, cause := 0, dropped := 0 }

/-- RESYNC: the host writes `PWSTAT`.RESYNC (R64). -/
def execResync (p : PortIx) (s : State) : Out := .next (hostAccess s p (fun s => s.modPort p Port.resynced))

/-! ### Ring -/

/-- Whether a command's reply goes to a port. -/
def repliesTo (p : PortIx) (c : Instr) : Bool := decide (((cmdOf c).map (·.1.src)) = some (Src.port p))

/-- Move replies that wait at their lodges into the holding store, in order, as room appears (R66). -/
def drainStored (p : PortIx) : List Op → Port → List Op × Port
  | [], x => ([], x)
  | o :: t, x =>
    match o.prepared, decide (o.wait = .store p) with
    | some k, true =>
      if x.held + k.size ≤ 65536 then drainStored p t { x with hold := x.hold ++ [k] } else (o :: t, x)
    | _, _ => let r := drainStored p t x; (o :: r.1, r.2)

/-- Apply `drainStored` to the state. -/
def State.drainStore (s : State) (p : PortIx) : State :=
  let r := drainStored p s.lodge.ops (s.port p)
  { s with lodge := { s.lodge with ops := r.1 } }.setPort p r.2

/-- Write bytes to ring entries from an entry on, wrapping after the last entry. -/
def ringWrite (m : KMap Byte) (base n tail : Nat) (bs : List Byte) : KMap Byte :=
  let room := 64 * (n - tail)
  KMap.write (KMap.write m (base + 64 * tail) (bs.take room)) base (bs.drop room)

/-- A byte of the MSI-X table; after a port reset every vector reads masked (R405; the layout is PCI Express's). -/
def Port.msixByte (x : Port) (o : Nat) : Byte := (KMap.look x.msix o).getD (if o % 16 = 12 then 1 else 0)

/-- Send the ring's MSI-X message, or set its pending bit while the vector is masked (R68). -/
def Port.signal (x : Port) : Port :=
  let x := { x with unsignalled := 0, timerArmed := false }
  if (x.msixByte (16 * x.vector.toNat + 12)).getLsbD 0 then { x with pba := x.pba ||| BitVec.ofNat 64 (2 ^ x.vector.toNat) }
  else { x with msiSent := x.msiSent ++ [x.vector] }

/-- Write the packet at the head of the store to the ring and do the message bookkeeping (R66 to R68). -/
def Port.writeHead (x : Port) : Port :=
  match x.hold with
  | [] => x
  | k :: rest =>
    if !x.enable || !x.headFits then x else
    let n := x.ringSize
    let used := min k.entries (n - 1)
    let bs := k.ringBytes x.phase (n - 1)
    let wrap := decide (n ≤ x.tail + used)
    let y := { x with hold := rest, hostMem := ringWrite x.hostMem x.latchedBase.toNat n x.tail bs,
                      tail := (x.tail + used) % n, phase := if wrap then !x.phase else x.phase,
                      unsignalled := x.unsignalled + 1,
                      timerArmed := x.timerArmed || decide (x.coalesceTime ≠ 0) }
    if y.irqEn && (k.irq || decide (max 1 y.coalesceCount.toNat ≤ y.unsignalled)) then y.signal else y

/-- REPLY_WRITE: the device writes a reply or event to the ring (R66, R67, R68); a reply that now leaves its lodge lets its
completion event follow (R60, R80). -/
def execReplyWrite (p : PortIx) (s : State) : Out :=
  .next (((s.modPort p Port.writeHead).drainStore p).flushWatches)

/-- Write `REPLYHEAD` (R69). -/
def Port.writeHeadIndex (x : Port) (value : Nat) : Port :=
  let v := value % 65536
  let n := x.ringSize
  if v < n && (v + n - x.head) % n ≤ (x.tail + n - x.head) % n then { x with head := v } else { x with headErr := true }

/-- REPLYHEAD_WRITE: the host writes `REPLYHEAD` (R69). -/
def execReplyheadWrite (p : PortIx) (value : W32) (s : State) : Out :=
  .next (hostAccess s p (fun s => s.modPort p (fun x => x.writeHeadIndex value.toNat)))

/-- Discard what a ring that is disabled holds, with the replies kept back for it (R69); a completion event that waited for such a reply
follows (R60, R80). -/
def State.disableRing (s : State) (p : PortIx) : State :=
  let s := s.modPort p (fun x => { x with enable := false, hold := [], unsignalled := 0, timerArmed := false })
  ({ s with lodge := { s.lodge with ops := s.lodge.ops.filter (fun o => decide (o.wait ≠ .store p)) } } : State).flushWatches

/-- A HOST_LINK event (Table 4-17). -/
def State.hostLink (s : State) (dest which : PortIx) (what allot : Nat) : State :=
  s.eventTo dest
    { opcode := 0x0B11, group := 7, status := .ok, path := 0, allot := 0, slot := 0xF, ustate := s.moduleTop,
      detail := [BitVec.ofNat 8 (portNum which), BitVec.ofNat 8 what] ++ leBytes 2 allot }

/-- Whether the stored ring configuration can be enabled (Table 3-8e, CFG_ERR). -/
def Port.cfgOk (x : Port) : Bool :=
  decide (6 ≤ x.replySize.toNat) && decide (x.replySize.toNat ≤ 16) &&
  decide (x.replyBase.toNat + 64 * 2 ^ x.replySize.toNat ≤ 2 ^ 64)

/-- What a write of `REPLYCTL` makes of the entries not yet signalled (R68): COALESCE_TIME runs for them or not as it now says (log
entry 69), and a COALESCE_COUNT already reached signals them. -/
def Port.recheck (x : Port) : Port :=
  let y := { x with timerArmed := decide (x.coalesceTime ≠ 0) && decide (0 < x.unsignalled) }
  if y.irqEn && decide (max 1 y.coalesceCount.toNat ≤ y.unsignalled) then y.signal else y

/-- Write `REPLYCTL` (Table 3-8e): settings, RW1C bits, and an enable or a disable. An enable latches the configuration,
restarts the ring and the event sequence, and writes the HOST_LINK event kept since the link came up (R68, R70, R406). -/
def State.writeReplyCtl (s : State) (p : PortIx) (value : W32) : State :=
  let v := value.toNat
  let s := s.modPort p (fun x => Port.recheck { x with
    irqEn := bitOf v 1, vector := BitVec.ofNat 6 (v / 4), coalesceCount := BitVec.ofNat 8 (v / 2 ^ 8),
    coalesceTime := BitVec.ofNat 12 (v / 2 ^ 16), headErr := x.headErr && !bitOf v 29, cfgErr := x.cfgErr && !bitOf v 30 })
  let x := s.port p
  if bitOf v 0 then
    if x.enable then s
    else if !x.cfgOk then s.setPort p { x with cfgErr := true }
    else
      let s := s.setPort p { x with
        enable := true, latchedBase := x.replyBase, latchedLog2 := x.replySize.toNat,
        head := 0, tail := 0, phase := true, evSeq := 1, evLost := 0, lostSince := 0, unsignalled := 0,
        timerArmed := false, upEvent := false }
      if x.upEvent then s.hostLink p p 1 0 else s
  else if x.enable then s.disableRing p else s

/-- REPLY_RING_ENABLE: a `REPLYCTL` write that takes ENABLE from 0 to 1 (R68). -/
def execReplyRingEnable (p : PortIx) (value : W32) (s : State) : Out :=
  .next (hostAccess s p (fun s => if value.getLsbD 0 then s.writeReplyCtl p value else s))

/-- REPLY_RING_DISABLE: a `REPLYCTL` write with ENABLE 0 (R69). -/
def execReplyRingDisable (p : PortIx) (value : W32) (s : State) : Out :=
  .next (hostAccess s p (fun s => if value.getLsbD 0 then s else s.writeReplyCtl p value))

/-- COALESCE_TIMER_EXPIRY: COALESCE_TIME has passed since the first entry not yet signalled (R68). With IRQ_EN 0 the timer only stops;
a later write of `REPLYCTL` starts it again (DESIGN CHOICE, log entry 69: R68 does not say). -/
def execCoalesceTimerExpiry (p : PortIx) (s : State) : Out :=
  .next (s.modPort p (fun x =>
    if x.timerArmed && decide (0 < x.unsignalled) then
      if x.irqEn then x.signal else { x with timerArmed := false }
    else x))

/-- EVENTS_LOST: once the store falls below 32 KiB, one event carries the count of dropped events (R72). -/
def execEventsLost (p : PortIx) (s : State) : Out :=
  .next (
    let x := s.port p
    if x.enable && decide (0 < x.lostSince) && decide (x.held < 32768) && x.evGroups.getLsbD 7 then
      (s.setPort p { x with lostSince := 0 }).eventTo p
        { opcode := 0x0B10, group := 7, status := .ok, path := 0, allot := 0, slot := 0xF, ustate := s.moduleTop,
          detail := leBytes 4 x.lostSince }
    else s)

/-! ### Registers of BAR0 (Table 15-2) -/

/-- `HOSTLINK` (Table 15-3). -/
def hostlinkReg (s : State) (p : PortIx) : Nat :=
  let x := s.port p
  let o := s.port (otherPort p)
  x.speed.toNat + 16 * x.width.toNat + 2 ^ 8 * b2n o.linkUp + 2 ^ 9 * b2n o.graceElapsed +
  2 ^ 10 * b2n (!x.primary && x.admin) + 2 ^ 16 * (s.allotsOf (otherPort p)).length

/-- A 4-byte register of the register area as the host reads it (R398, Tables 3-4 to 3-12, 15-3, 15-4). -/
def readReg (s : State) (p : PortIx) (offset : Nat) : Nat :=
  let x := s.port p
  if offset = 0x40000 then pwfree s p
  else if offset = 0x40004 then x.taken.toNat
  else if offset = 0x40008 then x.pwstat
  else if offset = 0x40010 then x.replyBase.toNat % 2 ^ 32
  else if offset = 0x40014 then x.replyBase.toNat / 2 ^ 32
  else if offset = 0x40018 then x.replySize.toNat
  else if offset = 0x4001C then x.head
  else if offset = 0x40020 then x.tail + 2 ^ 16 * b2n x.phase
  else if offset = 0x40024 then b2n x.enable + 2 * b2n x.irqEn + 4 * x.vector.toNat + 2 ^ 8 * x.coalesceCount.toNat +
    2 ^ 16 * x.coalesceTime.toNat + 2 ^ 29 * b2n x.headErr + 2 ^ 30 * b2n x.cfgErr
  else if offset = 0x40028 then x.evGroups.toNat + 2 ^ 16 * x.evLost
  else if offset = 0x4002C then b2n x.admin + 4 * b2n x.primary
  else if offset = 0x40030 then hostlinkReg s p
  else if offset = 0x40034 then x.denied + 2 ^ 16 * b2n x.bar2Poisoned
  else if 0x80000 ≤ offset ∧ offset < 0x80400 ∧ offset % 4 = 0 then ofLe ((List.range 4).map (fun i => x.msixByte (offset - 0x80000 + i)))
  else if offset = 0x81000 then x.pba.toNat % 2 ^ 32
  else if offset = 0x81004 then x.pba.toNat / 2 ^ 32
  else 0

/-- What a host read of the register area returns: aligned reads of 4 or 8 bytes; any other access reads zero (R398). -/
def hostRead (s : State) (p : PortIx) (offset size : Nat) : Nat :=
  if size = 4 && offset % 4 = 0 then readReg s p offset
  else if size = 8 && offset % 8 = 0 then readReg s p offset + 2 ^ 32 * readReg s p (offset + 4)
  else 0

/-- Send the message of every vector whose pending bit is set and that is no longer masked. -/
def Port.unmasked (x : Port) : Port :=
  let go := (List.range 64).filter (fun v => x.pba.getLsbD v && !(x.msixByte (16 * v + 12)).getLsbD 0)
  { x with pba := go.foldl (fun a v => a &&& ~~~(BitVec.ofNat 64 (2 ^ v))) x.pba,
           msiSent := x.msiSent ++ go.map (BitVec.ofNat 6) }

/-- Write a 4-byte register (R398, R10). Writes to read-only fields and to undefined offsets are dropped. -/
def writeReg (s : State) (p : PortIx) (offset : Nat) (v : Nat) : State :=
  let x := s.port p
  if offset = 0x40008 then if bitOf v 31 then s.modPort p Port.resynced else s
  else if offset = 0x40010 then
    s.setPort p { x with replyBase := BitVec.ofNat 64 ((x.replyBase.toNat / 2 ^ 32) * 2 ^ 32 + (v % 2 ^ 32) / 4096 * 4096) }
  else if offset = 0x40014 then
    s.setPort p { x with replyBase := BitVec.ofNat 64 ((v % 2 ^ 32) * 2 ^ 32 + x.replyBase.toNat % 2 ^ 32) }
  else if offset = 0x40018 then s.setPort p { x with replySize := BitVec.ofNat 5 v }
  else if offset = 0x4001C then s.setPort p (x.writeHeadIndex v)
  else if offset = 0x40024 then s.writeReplyCtl p (BitVec.ofNat 32 v)
  else if offset = 0x40028 then s.setPort p { x with evGroups := BitVec.ofNat 8 v }
  else if offset = 0x40034 then
    s.setPort p { x with bar2Poisoned := x.bar2Poisoned && !bitOf v 16, denied := if bitOf v 31 then 0 else x.denied }
  else if 0x80000 ≤ offset ∧ offset < 0x80400 then
    s.setPort p { x with msix := (leBytes 4 v).zipIdx.foldl (fun m (e : Byte × Nat) => KMap.ins m (offset - 0x80000 + e.2) e.1) x.msix }.unmasked
  else s

/-- A write to the function's configuration space (Table 15-1): at 0 the max payload size, 128, 256 or 512 bytes; at 4 the power state, D0 or
D3hot; at 8 the error bits of AER, cleared by ones (the codes are PCI Express's; PRESUMED, log entry 80). -/
def Port.configWrite (x : Port) (reg v : Nat) : Port :=
  if reg = 0 then { x with maxPayload := if v % 8 ≤ 2 then 128 * 2 ^ (v % 8) else x.maxPayload }
  else if reg = 4 then { x with d3hot := if v % 4 = 3 then true else if v % 4 = 0 then false else x.d3hot }
  else if reg = 8 then { x with aer := x.aer &&& ~~~(BitVec.ofNat 32 v) }
  else x

/-- Offsets from the end of BAR0 on stand for the function's configuration space (DESIGN CHOICE, log entry 80: no row of the table is a
configuration write). -/
def configBase : Nat := 0x100000

/-- REGISTER_WRITE: an aligned 4-byte or 8-byte host write to the register area of BAR0 (R398), or a 4-byte write to configuration space.
Any other access is dropped. -/
def execRegisterWrite (p : PortIx) (offset size : Nat) (value : W64) (s : State) : Out :=
  .next (
    if configBase ≤ offset then
      if (s.port p).linkUp && !(s.port p).perst && decide (size = 4) then
        s.modPort p (fun x => x.configWrite (offset - configBase) (value.toNat % 2 ^ 32))
      else s
    else hostAccess s p (fun s =>
      if size = 4 && offset % 4 = 0 then writeReg s p offset (value.toNat % 2 ^ 32)
      else if size = 8 && offset % 8 = 0 then
        writeReg (writeReg s p offset (value.toNat % 2 ^ 32)) p (offset + 4) (value.toNat / 2 ^ 32)
      else s))

/-- BAR2STAT_CLEAR: the host writes `BAR2STAT`.CLEAR (R401). -/
def execBar2statClear (p : PortIx) (s : State) : Out :=
  .next (hostAccess s p (fun s => s.modPort p (fun x => { x with denied := 0 })))

/-! ### Links and port resets (R404 to R406) -/

/-- What a port's function identifies itself as (Table 15-1): device ID, class code, and the subsystem ID of a T or a B module. -/
def pciDevice : W16 := 0x7200
def pciClass : BitVec 24 := 0x120000
def pciSubsystem (gradeB : Bool) : W16 := if gradeB then 1 else 0

/-- The part of a HOST_DMA that a port reset lets stand (R405): a free number of whole sectors has been moved, of free host bytes
into memory, or of memory's bytes to the host. -/
def partDma (s : State) (p : PortIx) (dir : Byte) (host dev n : Nat) : State :=
  let k := s.fresh
  let len := 32 * (k.1.toNat % (n / 32 + 1))
  if dir = 0 then
    let b := k.2.freshBytes len
    memWriteWhole b.2 dev b.1 []
  else
    let s := touchSectors k.2 4 0 (sectorsOf dev len) []
    s.modPort p (fun x => { x with hostMem := KMap.write x.hostMem host (s.memDeliver dev len).1 })

/-- Stop the HOST_DMA commands in progress on a port: the bytes already written stay, and the spec does not say how many they are
(R405, log entry 39). No reply follows, because the ring is disabled. -/
def stopDma (p : PortIx) : List Op → State → State
  | [], s => s
  | o :: t, s =>
    match o.cmd, o.wait, repliesTo p o.cmd with
    | .hostDma _ dir host dev n, .action, true =>
      stopDma p t (partDma { s with lodge := { s.lodge with ops := s.lodge.ops.filter (fun v => v.id ≠ o.id) } } p dir host.toNat
        dev.toNat n.toNat)
    | _, _, _ => stopDma p t s

/-- A port reset (R405): registers, ring, window, aperture, MSI-X table; a grant of admin is withdrawn. The max payload size and the power
state are reset too, and the AER bits stay (PRESUMED, log entry 80: as PCI Express has it). -/
def State.resetPort (s : State) (p : PortIx) : State :=
  let s := s.disableRing p
  let s := stopDma p s.lodge.ops s
  s.modPort p (fun x => { Port.reset x.primary with
    perst := x.perst, aer := x.aer, linkUp := x.linkUp, speed := x.speed, width := x.width, graceRunning := x.graceRunning,
    graceElapsed := x.graceElapsed, hostMem := x.hostMem, msiSent := x.msiSent, upEvent := x.upEvent,
    bar2Out := x.bar2Out })

/-- A link loss: the port goes down and is reset, the other port learns of it, and the grace period starts (R404 to
R406). -/
def State.linkLoss (s : State) (p : PortIx) : State :=
  if !(s.port p).linkUp then s else
  let s := s.resetPort p
  let s := s.modPort p (fun x => { x with linkUp := false, speed := 0, width := 0, graceRunning := true,
                                          graceElapsed := false, upEvent := false })
  s.hostLink (otherPort p) p 0 0

/-- PORT_LINK_DOWN: the data link layer of a port becomes inactive (R404 to R406). -/
def execPortLinkDown (p : PortIx) (s : State) : Out := .next (s.linkLoss p)

/-- PERST_ASSERT: PERST0_N or PERST1_N goes low: a port reset and a link loss, and the port is held in reset; high again, its link may train
(R405, R469). -/
def execPerstAssert (p : PortIx) (low : Bool) (s : State) : Out :=
  .next (((if low then (s.resetPort p).linkLoss p else s)).modPort p (fun x => { x with perst := low }))

/-- PORT_LINK_UP: a port's link trains in Flit mode at a supported speed and width, once step 0x04 has powered the ports and while its PERST_N
is high (R395, R406, R426, R469). -/
def execPortLinkUp (p : PortIx) (speed width : BitVec 4) (s : State) : Out :=
  .next (
    if !s.pow.pwrGood || (s.port p).perst || (s.port p).linkUp || !([4, 5, 6].contains speed.toNat) || !([1, 2, 4, 8].contains width.toNat) then s
    else
      let s := s.modPort p (fun x => { x with linkUp := true, speed := speed, width := width, graceRunning := false,
                                              graceElapsed := false, upEvent := true })
      let s := s.hostLink (otherPort p) p 1 0
      if (s.port p).enable then (s.modPort p (fun x => { x with upEvent := false })).hostLink p p 1 0 else s)

/-- PORT_RESET: a Function Level Reset, or a hot reset within one training (R405). -/
def execPortReset (p : PortIx) (s : State) : Out := .next (s.resetPort p)

/-- GRACE_EXPIRY: 65,536 keep ticks after the port went down (R404). -/
def execGraceExpiry (p : PortIx) (s : State) : Out :=
  .next (
    let x := s.port p
    if x.linkUp || !x.graceRunning then s
    else (s.setPort p { x with graceRunning := false, graceElapsed := true }).hostLink (otherPort p) p 2 0)

end Sys2Proof.Machine
end

