-- ==== Sys2Proof/Machine/Device.lean ====
section
/-!
DEFINITION. Module registers and the device-class commands (chapter 4, R90 to R92; Tables 1-8, 1-9, 16-2, 17-2).
-/

namespace Sys2Proof.Machine

/-! ### Module registers -/

/-- `DIEMAP` (Table 1-8). -/
def diemap (s : State) : Nat :=
  let present := if s.boot.gradeB then 0 else 0xFF
  let up := ((List.range 8).map (fun i => if (s.eave i).dataUp then 2 ^ i else 0)).sum
  let courses := if s.boot.gradeB then 0x03 else 0x1F
  let cup := ((List.range 5).map (fun i => if (s.tx i).up then 2 ^ i else 0)).sum
  present + 2 ^ 8 * up + 2 ^ 16 * courses + 2 ^ 21 * cup + 2 ^ 26 * b2n s.boot.gradeB

/-- `BOOTSTEP` (Table 16-2). -/
def bootstepReg (s : State) : Nat :=
  s.boot.step + 2 ^ 8 * b2n s.boot.halted + 2 ^ 9 * b2n s.boot.degraded + 2 ^ 16 * s.boot.detail +
  2 ^ 24 * s.boot.altered.toNat

/-- `FUSEBUDGET` (Table 17-2). -/
def fusebudgetReg (s : State) : Nat :=
  let b := s.boot
  b.debugLeft + 2 ^ 4 * b.keyLeft + 2 ^ 12 * b.primaryLeft + 2 ^ 16 * b.rollbackLeft + 2 ^ 24 * b.repairLeft +
  2 ^ 32 * b.rollbackPending + 2 ^ 40 * b.keySlot + 2 ^ 42 * b2n b.primaryFused

/-- A module register by its number (Table 4-4). -/
def moduleReg (s : State) (n : Nat) : Option Nat :=
  match n with
  | 1 => some (diemap s)
  | 2 => some s.tcweight.toNat
  | 3 => some (bootstepReg s)
  | 4 => some s.ticks.toNat
  | 5 => some s.epoch.toNat
  | 6 => some (fusebudgetReg s)
  | _ => none

/-- The reply payload of REG_READ and REG_WRITE (Table 4-2). -/
def regPayload (n v : Nat) : List Byte := leBytes 2 n ++ leBytes 6 0 ++ leBytes 8 v

/-! ### Commands -/

def nopNow (h : Hdr) (data : List Byte) : Nat → State → State :=
  runModule (.nop h data) noForm noObjects (fun s id _ => finishModule s id (.nop h data) .ok data)

/-- NOP returns its parameter bytes unchanged (R90). -/
def execNop (h : Hdr) (data : List Byte) (s : State) : Out := .next (submit (.nop h data) (nopNow h data) s)

/-- The DEV_INFO reply payload (Table 4-3). -/
def devInfoPayload (s : State) : List Byte :=
  leBytes 2 0x7200 ++ leBytes 1 (b2n s.boot.gradeB) ++ [Config.stepping] ++ leBytes 4 (fwVersionInUse s).toNat ++
  leBytes 1 s.boot.inUse ++ [fplInUse s, svnInUse s] ++ leBytes 5 0 ++ leBytes 8 Config.fabricId.toNat ++
  leBytes 8 s.epoch.toNat ++ hashBytes Config.keyHash

def devInfoNow (h : Hdr) : Nat → State → State :=
  runModule (.devInfo h) noForm noObjects (fun s id _ => finishModule s id (.devInfo h) .ok (devInfoPayload s))

/-- DEV_INFO (R90, Table 4-3). -/
def execDevInfo (h : Hdr) (s : State) : Out := .next (submit (.devInfo h) (devInfoNow h) s)

def regReadNow (h : Hdr) (n : W16) : Nat → State → State :=
  runModule (.regRead h n) (fun s _ => if (moduleReg s n.toNat).isSome then none else some .badParam) noObjects
    (fun s id _ => finishModule s id (.regRead h n) .ok (regPayload n.toNat ((moduleReg s n.toNat).getD 0)))

/-- REG_READ of a module register (R91). -/
def execRegRead (h : Hdr) (regnum : W16) (s : State) : Out := .next (submit (.regRead h regnum) (regReadNow h regnum) s)

/-- `TCWEIGHT` after a write: its three weights are writable, CTRL_SHARE is fixed (Table 1-9, R10). -/
def tcweightWrite (v : Nat) : W32 := BitVec.ofNat 32 (v % 16 + (v / 2 ^ 8 % 16) * 2 ^ 8 + (v / 2 ^ 16 % 16) * 2 ^ 16 + 2 ^ 20)

def regWriteNow (h : Hdr) (n : W16) (v : W64) : Nat → State → State :=
  runModule (.regWrite h n v)
    (fun _ _ => if n.toNat ≠ 2 then some .badParam else if v.toNat / 2 ^ 32 ≠ 0 then some .badParam else none)
    noObjects
    (fun s id _ =>
      let s := { s with tcweight := tcweightWrite v.toNat }
      finishModule s id (.regWrite h n v) .ok (regPayload n.toNat s.tcweight.toNat))

/-- REG_WRITE: only `TCWEIGHT` has writable fields (R91, R92, R33). -/
def execRegWrite (h : Hdr) (regnum : W16) (value : W64) (s : State) : Out :=
  .next (submit (.regWrite h regnum value) (regWriteNow h regnum value) s)

/-- The secondary port (R402). -/
def secondaryPort (s : State) : PortIx := if s.port0.primary then .port1 else .port0

def portGrantNow (h : Hdr) (g : Byte) : Nat → State → State :=
  runModule (.portGrant h g) (fun _ _ => if 1 < g.toNat then some .badParam else none) noObjects
    (fun s id h' =>
      if h'.src = .port (otherPort (secondaryPort s)) then
        let s := s.modPort (secondaryPort s) (fun x => { x with admin := decide (g = 1) })
        finishModule s id (.portGrant h g) .ok [g]
      else finishModule s id (.portGrant h g) .noPrivilege [])

/-- PORT_GRANT: the primary port gives the secondary port an admin ceiling or withdraws it (R73, R92). -/
def execPortGrant (h : Hdr) (grant : Byte) (s : State) : Out :=
  .next (submit (.portGrant h grant) (portGrantNow h grant) s)

/-- Move one allotment to a port. -/
def takeAllot (p : PortIx) (s : State) (a : Nat) : State :=
  match KMap.look s.allots a with
  | some x => { s with allots := KMap.ins s.allots a { x with owner := p } }
  | none => s

/-- The TAKEOVER action from a port (R407): the allotments it takes over; none once the port is down itself (R409). -/
def takeoverBody (h : Hdr) (a : W16) (s : State) (id : Nat) (p : PortIx) : State :=
  let c := Instr.takeover h a
  let o := s.port (otherPort p)
  let ready := (s.port p).linkUp && !o.linkUp && o.graceElapsed
  let theirs := s.allotsOf (otherPort p)
  let doIt := fun (l : List Nat) =>
    let s := l.foldl (takeAllot p) s
    let s := finishModule s id c .ok (leBytes 2 l.length)
    l.foldl (fun s x => s.hostLink p (otherPort p) 3 x) s
  if a.toNat = 0xFFFF then
    if theirs = [] then finishModule s id c .ok (leBytes 2 0)
    else if ready then doIt theirs
    else s.reply id c .badState (s.topAmong (theirs.flatMap (fun x => (s.allot? x).elim [] (fun y => setBits y.sheaves)))) []
  else if theirs.contains a.toNat && a ≠ 0 then
    if ready then doIt [a.toNat] else finishModule s id c .badState []
  else finishModule s id c .badParam []

def takeoverNow (h : Hdr) (a : W16) : Nat → State → State :=
  runModule (.takeover h a) noForm noObjects (fun s id h' =>
    match h'.src with
    | .port p => takeoverBody h a s id p
    | _ => finishModule s id (.takeover h a) .noPrivilege [])

/-- TAKEOVER moves allotments of the other port, which is down beyond its grace period, to the sending port (R407). -/
def execTakeover (h : Hdr) (allot : W16) (s : State) : Out := .next (submit (.takeover h allot) (takeoverNow h allot) s)

end Sys2Proof.Machine
end

