-- ==== Sys2Proof/Machine/Coll.lean ====
section
/-!
DEFINITION. The trusses (chapter 11): groups and rounds (R280 to R284), the bucket tree (R285), exponent agreement, exact sums
and results (R286 to R289), frames and checksums (R290 to R292), and late copies (R295 to R298).
-/

namespace Sys2Proof.Machine

/-! ### Handles, buckets and regions -/

/-- A bucket of the open round that nothing has reached. -/
def Bucket.empty : Bucket :=
  { contributed := false, arrived := false, since := 0, tlate := 0, tlost := 0, inputs := [], substituted := [], subAt := [],
    lateRanks := [], compared := [], exponent := none, nonfinite := false, expSent := false, sumSent := false, sub := false,
    resultDone := false, failed := none, held := [], acked := [], taken := [] }

def Coll.bucket (c : Coll) (b : Nat) : Bucket := KMap.get Bucket.empty c.buckets b
def Coll.setBucket (c : Coll) (b : Nat) (x : Bucket) : Coll := { c with buckets := KMap.put Bucket.empty c.buckets b x }

/-- A handle on a sheaf. -/
def State.coll (s : State) (g : Nat) (a h : W16) : Option Coll :=
  (s.sheaf g).colls.find? (fun c => decide (c.allot = a) && decide (c.handle = h))

/-- Change a handle on a sheaf. -/
def State.modHandle (s : State) (g : Nat) (a h : W16) (f : Coll → Coll) : State :=
  s.modSheaf g (fun sh => { sh with colls := sh.colls.map (fun c => if c.allot = a ∧ c.handle = h then f c else c) })

def State.modBucket (s : State) (g : Nat) (a h : W16) (b : Nat) (f : Bucket → Bucket) : State :=
  s.modHandle g a h (fun c => c.setBucket b (f (c.bucket b)))

/-- Bytes of a plan's regions (Table 11-2), half-open, an absent ACC left out. -/
def planRegions (p : Plan) : List (Nat × Nat) :=
  let n := p.buckets.toNat
  let reg := fun (o : W32) (k : Nat) => (o.toNat, o.toNat + k)
  [reg p.src0 (n * 512 * collElem p.fmt), reg p.src1 (n * 512 * collElem p.fmt), reg p.dst0 (n * 512 * collElem p.outFmt),
   reg p.dst1 (n * 512 * collElem p.outFmt), reg p.work (p.window.toNat * 4096), reg p.commit 16] ++
  (if p.acc = 0xFFFFFFFF then [] else [reg p.acc (n * 2048)])

/-- A truss's own write to its loft: it records no source, and frozen sources drop it (R282). -/
def trussStore (s : State) (g off : Nat) (bs : List Byte) : State :=
  s.loftStore g 4096 (some 15) ((bs.zipIdx off).map (fun e => (e.2, e.1)))

/-! ### The group and the tree (R280, R285) -/

/-- Whether an address agrees with this module's on every optical course that COURSES does not name. -/
def onCourses (own : W32) (courses : Byte) (a : W32) : Bool :=
  [5, 6, 7].all (fun k => courses.getLsbD (k - 5) || decide (coordOn k a = coordOn k own))

/-- Insert an address into a rising list. -/
def insAddr (a : W32) : List W32 → List W32
  | [] => [a]
  | x :: t => if a.toNat < x.toNat then a :: x :: t else if a = x then x :: t else x :: insAddr a t

/-- The group: the members on the courses, backups left out, by ascending address (R280). A module that is itself a backup lies on other
coordinates than the group it serves, as in Table 11-9; its group is that of the lowest member that lies there (DEDUCED, log entry 48). -/
def groupOf (s : State) (members : List W32) (courses : Byte) (bk : KMap W32) : List W32 :=
  let own := s.fabric.address
  let free := (members.filter (fun a => !(bk.any (fun e => decide (e.2 = a))))).foldl (fun l a => insAddr a l) []
  let seat := if bk.any (fun e => decide (e.2 = own)) then ((free.filter (fun a => !onCourses own courses a)).head?).getD own else own
  free.filter (onCourses seat courses)

/-- P. -/
def ModColl.p (m : ModColl) : Nat := m.group.length

/-- The root rank of a bucket (R285). -/
def rootRank (p : Plan) (n idx : Nat) : Nat := if p.op = 2 ∨ p.op = 3 then p.root.toNat else idx % n

/-- The parent of a node. -/
def parentNode (p : Plan) (v : Nat) : Nat := if p.shape = 0 then (v - 1) / p.radix.toNat else 0

/-- The children of a node. -/
def childNodes (p : Plan) (n v : Nat) : List Nat :=
  if p.shape = 0 then ((List.range p.radix.toNat).map (fun i => p.radix.toNat * v + 1 + i)).filter (fun w => decide (w < n))
  else if v = 0 then (List.range (n - 1)).map (· + 1) else []

/-- A rank's node in a bucket's tree, and the rank at a node. -/
def nodeOf (p : Plan) (n idx r : Nat) : Nat := (r + n - rootRank p n idx) % n
def rankAt (p : Plan) (n idx v : Nat) : Nat := (v + rootRank p n idx) % n

/-- Whether a node adds inputs: it has a child, or it is alone. -/
def addsAt (p : Plan) (n v : Nat) : Bool := decide (n ≤ 1) || !(childNodes p n v).isEmpty

/-- The rank whose truss adds a rank's contribution (R285). -/
def adderRank (p : Plan) (n idx r : Nat) : Nat :=
  let v := nodeOf p n idx r
  if addsAt p n v then r else rankAt p n idx (parentNode p v)

/-- What is fixed for a bucket on this module while its round is open. -/
structure Place where
  g : Nat
  b : Nat
  idx : Nat
  n : Nat
  rank : Nat
  backup : Bool
  node : Nat
  /-- this module's truss adds inputs of the bucket -/
  adds : Bool
  /-- ranks whose contributions are added here -/
  direct : List Nat
  /-- ranks whose partial sums are added here -/
  parts : List Nat
  /-- where this module's contribution or partial sum goes -/
  up : W32
  /-- where exponents and results go from here -/
  down : List W32
  deriving DecidableEq, Repr

/-- The place of a bucket; none when this module has no part in the handle's round. -/
def placeOf (s : State) (m : ModColl) (c : Coll) (g b : Nat) : Option Place :=
  match (m.role s.fabric.address).actsFor with
  | none => none
  | some r =>
    let n := m.p
    let idx := s.bucketIndex c g b
    let backup := decide ((m.role s.fabric.address) = .backup r)
    let v := nodeOf c.plan n idx r
    let adds := addsAt c.plan n v && !backup
    let kids := if adds then (childNodes c.plan n v) else []
    let leaf := kids.filter (fun w => !addsAt c.plan n w)
    let direct := if adds then r :: leaf.map (rankAt c.plan n idx) else []
    let addr := fun (k : Nat) => (m.group[k]?).getD 0
    some { g := g, b := b, idx := idx, n := n, rank := r, backup := backup, node := v, adds := adds, direct := direct,
           parts := (kids.filter (addsAt c.plan n)).map (rankAt c.plan n idx),
           up := if backup then addr (adderRank c.plan n idx r) else addr (rankAt c.plan n idx (parentNode c.plan v)),
           down := kids.map (fun w => addr (rankAt c.plan n idx w)) ++ direct.filterMap (fun k => KMap.look m.bk k) }

/-! ### Exponents and XR64 words (R286 to R289) -/

/-- X of an empty bucket, and E when there is no finite non-zero element. -/
def noExp : Int := -32768

/-- ⌊log2 |x|⌋ of a finite non-zero value. -/
def valExp : Val → Option Int
  | .fin _ m e => if m = 0 then none else some (topBit m e)
  | _ => none

/-- X of a contribution. -/
def maxExp (vs : List Val) : Int := (vs.filterMap valExp).foldl max noExp

/-- NONFINITE of a contribution. -/
def anyNonfinite (vs : List Val) : Bool := vs.any (fun v => match v with | .fin .. => false | _ => true)

def wNan : W64 := 0x8000000000000000
def wPosInf : W64 := 0x8000000000000001
def wNegInf : W64 := 0x8000000000000002
/-- Special words (R289). -/
def isSpecial (w : W64) : Bool := decide (w = wNan) || decide (w = wPosInf) || decide (w = wNegInf)

/-- The XR64 word of an element under E (R287, R289). -/
def xrWord (e : Int) (v : Val) : W64 :=
  match v with
  | .nan => wNan
  | .inf neg => if neg then wNegInf else wPosInf
  | .fin neg m q =>
    if e = noExp then 0
    else
      let k := q + 48 - e
      let a := if 0 ≤ k then m * 2 ^ k.toNat else dropBits m (-k).toNat .nearest
      BitVec.ofNat 64 (ofInt 64 (if neg then -(a : Int) else a))

/-- The sum of two words (R287, R289). -/
def addWord (a b : W64) : W64 :=
  if a = wNan ∨ b = wNan then wNan
  else if isSpecial a && isSpecial b then (if a = b then a else wNan)
  else if isSpecial a then a else if isSpecial b then b else a + b

/-- The element-wise sum of two payloads. -/
def addWords (a b : List W64) : List W64 := (a.zip b).map (fun e => addWord e.1 e.2)

/-- The prime of the checksums (R291). -/
def csPrime : Nat := 2 ^ 61 - 1

/-- r(w) of R291: signed for XR64, unsigned for results and sources. -/
def csTerm (signed : Bool) (w : W64) : Nat :=
  if signed then (if isSpecial w then 0 else ((toSigned 64 w.toNat) % (csPrime : Int)).toNat) else w.toNat % csPrime

/-- CS1 and CS2 of a payload (R291). -/
def checksums (signed : Bool) (ws : List W64) : Nat × Nat :=
  (((ws.map (csTerm signed)).sum) % csPrime, ((ws.zipIdx.map (fun e => (e.2 + 1) * csTerm signed e.1)).sum) % csPrime)

/-- A result element from a sum: its bits, whether it clamped, whether it is non-finite (R288, R289). -/
def backConvert (outFmt : Byte) (ovfWide : Bool) (e : Int) (w : W64) : Nat × Bool × Bool :=
  let f := if outFmt = 0 then fp32 else bf16
  if w = wNan then (f.nanBits, false, true)
  else if w = wPosInf then (f.infBits false, false, true)
  else if w = wNegInf then (f.infBits true, false, true)
  else
    let x := toSigned 64 w.toNat
    let r := encodeFp f (if ovfWide then 0x400 else 0) .nearest (if x = 0 then Val.zero else ofScaled x (e - 48))
    (r.bits, r.clamp, false)

/-! ### Sources and accumulation (R282, R283) -/

/-- Values of `n` packed elements of FP32 or BF16 in a loft. -/
def loftVals (sh : Sheaf) (fmt : Byte) (off n : Nat) : List Val :=
  (List.range n).map (fun i =>
    decodeElem fmt.toNat false (leAt (KMap.bytes sh.loft (off + i * collElem fmt) (collElem fmt)) 0 (collElem fmt)))

/-- The source values of bucket `b` in its next local round. -/
def Coll.nextVals (c : Coll) (sh : Sheaf) (b : Nat) : List Val :=
  loftVals sh c.plan.fmt (c.srcOff (2 * b + c.usedOf b % 2)) 512

/-- Loft offset of an ACC bucket. -/
def Coll.accOff (c : Coll) (b : Nat) : Nat := c.plan.acc.toNat + 2048 * b

/-- The bytes of FP32 values. -/
def fpBytes (vs : List Val) : List Byte := vs.flatMap (fun v => leBytes 4 (bits32 v))

/-- Key of the source bucket that a bucket's open contribution lies in under ACCUMN 1. -/
def Coll.openKey (c : Coll) (b : Nat) : Nat := 2 * b + c.base % 2

/-- The values of the contribution of bucket `b` to the open round: the source bucket, or its ACC bucket (R283). -/
def Coll.openVals (c : Coll) (sh : Sheaf) (b : Nat) : List Val :=
  if c.accumn = 1 then loftVals sh c.plan.fmt (c.srcOff (c.openKey b)) 512 else loftVals sh 0 (c.accOff b) 512

/-- Free a source bucket and count its local round. -/
def Coll.freeSource (c : Coll) (b : Nat) : Coll :=
  { (c.setSource (2 * b + c.usedOf b % 2) SrcBucket.empty) with used := KMap.put 0 c.used b (c.usedOf b + 1) }

/-- One local round of accumulation: position 1 writes ACC, a later one adds to it; the source bucket is freed (R283). -/
def accumulate (s : State) (g : Nat) (c : Coll) (b : Nat) (first : Bool) : State :=
  let sh := s.sheaf g
  let x := c.nextVals sh b
  let acc := loftVals sh 0 (c.accOff b) 512
  let y := if first then x else (acc.zip x).map (fun e => round32 (Val.add e.1 e.2))
  (trussStore s g (c.accOff b) (fpBytes y)).modHandle g c.allot c.handle (fun c => c.freeSource b)

/-! ### Frames -/

/-- A control frame from this module for a bucket. -/
def Place.ctrl (p : Place) (c : Coll) (x : Int) (nf : Bool) (st : Nat) : CFrame :=
  { handle := c.handle, allot := c.allot, seq := c.openSeq, run := c.run, bucket := p.idx, sender := p.rank,
    backup := p.backup, x := x, nonfinite := nf, status := BitVec.ofNat 16 st, planId := c.plan.planId }

/-- A bucket frame from this module (Table 11-3). -/
def Place.frame (s : State) (p : Place) (c : Coll) (kind : Byte) (e : Int) (nf sub : Bool) (count : Nat) (ws : List W64) :
    BFrame :=
  let cs := checksums (decide (kind.toNat < 2)) ws
  { handle := c.handle, allot := c.allot, seq := c.openSeq, bucket := p.idx, sender := p.rank, kind := kind,
    backup := p.backup, nonfinite := nf, substituted := sub, exp := e, count := count, run := c.run, attempt := 0,
    fpl := fplInUse s, planId := c.plan.planId, cs1 := cs.1, cs2 := cs.2, words := ws }

/-- Send a bucket frame and hold it until it is acknowledged (R292). -/
def sendHeld (s : State) (p : Place) (c : Coll) (dest : W32) (f : BFrame) : State :=
  (s.modBucket p.g c.allot c.handle p.b (fun x => { x with held := x.held ++ [(dest, f)] })).send (.bucket dest f)

/-! ### Inputs of a node -/

/-- A copy of an input, if it is there. -/
def Bucket.input (x : Bucket) (rank : Nat) (backup : Bool) : Option CInput :=
  x.inputs.find? (fun i => decide (i.rank = rank) && decide (i.backup = backup))

/-- Put a copy of an input, replacing what is known of it. -/
def Bucket.putInput (x : Bucket) (i : CInput) : Bucket :=
  { x with inputs := x.inputs.filter (fun y => !(decide (y.rank = i.rank) && decide (y.backup = i.backup))) ++ [i] }

/-- The copy of a rank's contribution that its node uses (R295). -/
def Bucket.chosen (x : Bucket) (rank : Nat) : Option CInput := x.input rank (x.substituted.contains rank)

/-- The inputs of a node, each as far as it is known. -/
def Bucket.wanted (x : Bucket) (p : Place) : List (Option CInput) :=
  p.direct.map x.chosen ++ p.parts.map (fun r => x.input r false)

/-- A copy known by its exponent. -/
def CInput.ofExp (rank : Nat) (backup : Bool) (x : Int) (nf : Bool) : CInput :=
  { rank := rank, backup := backup, x := some x, nonfinite := nf, words := none, cs1 := 0, cs2 := 0, count := 0, sub := false }

/-- The bucket's timer starts at its first arrival (R295). -/
def Bucket.touch (x : Bucket) (tlate tlost : W32) (now : Nat) : Bucket :=
  if x.arrived then x else { x with arrived := true, since := now, tlate := tlate, tlost := tlost }

/-- Something of a bucket arrives at its node: its timer starts, unless it runs already. -/
def touchBucket (s : State) (p : Place) (c : Coll) : State :=
  s.modBucket p.g c.allot c.handle p.b (fun x => x.touch c.tlate c.tlost (s.sheaf p.g).timer)

/-- The lateness behind a substitution: the sheaf timer's ticks since the first arrival, and not below TLATE, at whose expiry or after
it takes place (R295, R310). -/
def Bucket.lateness (x : Bucket) (now : Nat) : W32 := BitVec.ofNat 32 (min (max x.tlate.toNat (now - x.since)) 0xFFFFFFFF)

/-- Substitute a rank's backup copy (R295). -/
def substitute (s : State) (p : Place) (c : Coll) (rank : Nat) : State :=
  let s := s.modHandle p.g c.allot c.handle (fun c =>
    { c with substitutions := min (c.substitutions + 1) 0xFFFFFFFF })
  let s := s.modBucket p.g c.allot c.handle p.b (fun x => { x with
    substituted := x.substituted ++ [rank], subAt := KMap.ins x.subAt rank (s.sheaf p.g).timer, sub := true, lateRanks := x.lateRanks.filter (· ≠ rank) })
  s.noteOcc c.allot c.handle 2 p.idx rank 1 ((c.bucket p.b).lateness (s.sheaf p.g).timer)

/-- Count a determinism breach (R296). -/
def noteBreach (s : State) (g idx : Nat) (a h : W16) (rank : Nat) : State :=
  (s.modHandle g a h (fun c => { c with breaches := min (c.breaches + 1) 0xFFFFFFFF })).noteOcc a h 3 idx rank 1 0

/-- Whether TLOST has passed since a substitution, after which a primary is discarded unchecked (R296). -/
def lostBy (now since : Nat) (tlost : W32) : Bool := decide (tlost.toNat < now - since)

/-- Compare both copies of a rank's contribution once both payloads are here: bit for bit while the primary is in use, by
checksums within TLOST of a substitution (R296). -/
def compareCopies (s : State) (m : ModColl) (p : Place) (c : Coll) (rank : Nat) : State :=
  match s.coll p.g c.allot c.handle with
  | none => s
  | some c' =>
    let x := c'.bucket p.b
    match x.input rank false, x.input rank true with
    | some u, some v =>
      let lost := x.substituted.contains rank && lostBy (s.sheaf p.g).timer (KMap.get 0 x.subAt rank) x.tlost
      if !m.det || u.words.isNone || v.words.isNone || x.compared.contains rank || lost then s
      else
        let s := s.modBucket p.g c.allot c.handle p.b (fun x => { x with compared := x.compared ++ [rank] })
        let same := if x.substituted.contains rank then decide (u.cs1 = v.cs1) && decide (u.cs2 = v.cs2) else decide (u.words = v.words)
        if same then s else noteBreach s p.g p.idx c.allot c.handle rank
    | _, _ => s

/-! ### A bucket's progress -/

/-- Where this module writes results of a bucket (R284): every rank, the root's rank only, or the bucket's own root. -/
def writesResult (c : Coll) (p : Place) : Bool :=
  if c.plan.op = 1 ∨ c.plan.op = 2 then decide (p.rank = rootRank c.plan p.n p.idx) else true

/-- Loft offset of a bucket's result in the open round. -/
def Coll.dstOff (c : Coll) (b : Nat) : Nat :=
  (if c.openSeq.toNat % 2 = 1 then c.plan.dst0.toNat else c.plan.dst1.toNat) + b * 512 * collElem c.plan.outFmt

/-- A result is at hand: it is written, the bucket is done, and it travels on (R284, R285). -/
def deliver (s : State) (p : Place) (c : Coll) (kind : Byte) (e : Int) (nf sub : Bool) (count : Nat) (ws : List W64) : State :=
  let s := if writesResult c p then
      trussStore s p.g (c.dstOff p.b) (ws.flatMap (fun w => leBytes (collElem c.plan.outFmt) w.toNat))
    else s
  let s := s.modBucket p.g c.allot c.handle p.b (fun x => { x with resultDone := true, sub := x.sub || sub })
  p.down.foldl (fun s a => sendHeld s p c a (p.frame s c kind e nf sub count ws)) s

/-- The sum check of R292: the checksums of the sum equal the sums of the inputs' checksums, modulo p. Elements whose sum is a special
word are left out on both sides (DEDUCED, log entry 75: R291 takes special words as 0, and a finite word lost in one would else fail
every such sum). -/
def sumSound (inputs : List (List W64)) (sum : List W64) : Bool :=
  let clear := fun (l : List W64) => (l.zip sum).map (fun e => if isSpecial e.2 then 0 else e.1)
  let cs := inputs.map (fun l => checksums true (clear l))
  decide (checksums true (clear sum) = ((cs.map (·.1)).sum % csPrime, (cs.map (·.2)).sum % csPrime))

/-- A sum check fails: every input that came in a frame is asked for again, and each NACK counts in RETRIES (R292). -/
def nackInputs (s : State) (m : ModColl) (p : Place) (c : Coll) : State :=
  let ask := (c.bucket p.b).inputs.filter (fun i => i.words.isSome && decide (i.rank ≠ p.rank ∨ i.backup = true))
  let s := s.modHandle p.g c.allot c.handle (fun c => { c with retries := min (c.retries + ask.length) 0xFFFFFFFF })
  let s := s.modBucket p.g c.allot c.handle p.b (fun x => { x with
    inputs := x.inputs.map (fun i => if ask.contains i then { i with words := none } else i) })
  ask.foldl (fun s i =>
    let d := if i.backup then (KMap.look m.bk i.rank).getD 0 else (m.group[i.rank]?).getD 0
    s.send (.nack d (p.ctrl c 0 false 0))) s

/-- The inputs are added and checked: the root forms the result, another node sends its partial sum up and keeps it in its WORK slot
(R287 to R289, R292). -/
def sumStep (s : State) (m : ModColl) (p : Place) (c : Coll) : State :=
  let x := c.bucket p.b
  let ins := x.wanted p
  match x.exponent with
  | some e =>
    if !p.adds || x.sumSent || x.resultDone || x.failed.isSome || ins.any (fun i => !(i.any (fun y => y.words.isSome))) then s
    else
      let ins := ins.filterMap id
      let ws := (ins.filterMap (·.words)).foldl addWords (List.replicate 512 0)
      let count := (ins.map (·.count)).sum
      let sub := x.sub || ins.any (·.sub)
      if !sumSound (ins.filterMap (·.words)) ws then nackInputs s m p c
      else if p.node = 0 then
        let rs := ws.map (backConvert c.plan.outFmt c.ovfWide e)
        let s := s.modSheaf p.g (fun sh => { sh with clamp := min (sh.clamp + (rs.filter (·.2.1)).length) (2 ^ 64 - 1) })
        let s := s.modHandle p.g c.allot c.handle (fun c =>
          { c with nonfinites := min (c.nonfinites + (rs.filter (·.2.2)).length) 0xFFFFFFFF })
        deliver s p c 2 e x.nonfinite sub count (rs.map (fun r => BitVec.ofNat 64 r.1))
      else
        let s := s.modBucket p.g c.allot c.handle p.b (fun x => { x with sumSent := true, sub := sub })
        let s := trussStore s p.g (c.plan.work.toNat + 4096 * (p.b % c.plan.window.toNat)) (ws.flatMap (fun w => leBytes 8 w.toNat))
        sendHeld s p c p.up (p.frame s c 1 e x.nonfinite sub count ws)
  | none => s

/-- Convert this module's own contribution once E is known: into the node's input, or into a frame (R287). -/
def convertOwn (s : State) (m : ModColl) (p : Place) (c : Coll) : State :=
  let x := c.bucket p.b
  match x.exponent with
  | some e =>
    if !x.contributed || x.failed.isSome then s
    else
      let ws := (c.openVals (s.sheaf p.g) p.b).map (xrWord e)
      if p.adds then
        let cs := checksums true ws
        let own : CInput := { rank := p.rank, backup := false, x := some e, nonfinite := x.nonfinite, words := some ws, cs1 := cs.1,
                              cs2 := cs.2, count := 1, sub := false }
        compareCopies (s.modBucket p.g c.allot c.handle p.b (fun x => x.putInput own)) m p c p.rank
      else if x.held.any (fun y => decide (y.2.kind = 0)) then s
      else sendHeld s p c p.up (p.frame s c 0 e x.nonfinite false 1 ws)
  | none => s

/-- The place and handle of a bucket as they stand. -/
def bucketNow (s : State) (g : Nat) (a h : W16) (b : Nat) : Option (ModColl × Place × Coll) :=
  match s.modColl a h, s.coll g a h with
  | some m, some c => (placeOf s m c g b).map (fun p => (m, p, c))
  | _, _ => none

/-- E reaches this module: it is stored, goes on down the tree, and the own contribution is converted (R286, R287). -/
def takeExponent (s : State) (g : Nat) (a h : W16) (b : Nat) (e : Int) (nf : Bool) : State :=
  match bucketNow s g a h b with
  | none => s
  | some (m, p, c) =>
    if (c.bucket b).exponent.isSome then s
    else
      let s := s.modBucket g a h b (fun x => { x with exponent := some e, nonfinite := nf })
      let s := p.down.foldl (fun s d => s.send (.exponentDown d (p.ctrl c e nf 0))) s
      match s.coll g a h with
      | none => s
      | some c =>
        let s := convertOwn s m p c
        match s.coll g a h with
        | some c => sumStep s m p c
        | none => s

/-- A node whose inputs' exponents are all known sends their maximum to its parent; the root forms E (R286). -/
def exponentStep (s : State) (g : Nat) (a h : W16) (b : Nat) : State :=
  match bucketNow s g a h b with
  | none => s
  | some (_, p, c) =>
    let x := c.bucket b
    let ins := x.wanted p
    if !p.adds || c.plan.op = 3 || x.expSent || x.exponent.isSome || x.failed.isSome ||
       ins.any (fun i => !(i.any (fun y => y.x.isSome))) then s
    else
      let ins := ins.filterMap id
      let e := (ins.filterMap (·.x)).foldl max noExp
      let nf := ins.any (·.nonfinite)
      let s := s.modBucket g a h b (fun x => { x with expSent := true })
      if p.node = 0 then takeExponent s g a h b e nf else s.send (.exponent p.up (p.ctrl c e nf 0))

/-- The root of a BROADCAST has a copy of its payload, its own or its backup's: it goes out bit for bit (R286, R293). -/
def broadcastStep (s : State) (p : Place) (c : Coll) : State :=
  let x := c.bucket p.b
  match x.chosen p.rank with
  | some i => match i.words with
    | some ws =>
      if c.plan.op ≠ 3 ∨ p.node ≠ 0 ∨ p.adds = false ∨ x.resultDone ∨ x.failed.isSome then s
      else deliver s p c 3 0 false x.sub 1 ws
    | none => s
  | none => s

/-- Inputs and words may now be complete. -/
def advanceBucket (s : State) (g : Nat) (a h : W16) (b : Nat) : State :=
  let s := exponentStep s g a h b
  match bucketNow s g a h b with
  | some (m, p, c) => if c.plan.op = 3 then broadcastStep s p c else sumStep s m p c
  | none => s

/-- Buckets of a handle in flight on a sheaf (WINDOW, Table 11-1). -/
def Coll.inFlight (c : Coll) : Nat :=
  (c.buckets.filter (fun e => e.2.contributed && !e.2.resultDone && e.2.failed.isNone)).length

/-- The elements of a bucket in a loft, bit for bit. -/
def loftWords (sh : Sheaf) (fmt : Byte) (off : Nat) : List W64 :=
  (List.range 512).map (fun i => BitVec.ofNat 64 (leAt (KMap.bytes sh.loft (off + i * collElem fmt) (collElem fmt)) 0 (collElem fmt)))

/-- The payload of a BROADCAST from an ACC bucket; its BF16 bits are a free value, the spec giving no conversion of ACC (log entry 48). -/
def accWords (s : State) (g : Nat) (c : Coll) (b : Nat) : List W64 × State :=
  if c.plan.fmt = 0 then (loftWords (s.sheaf g) 0 (c.accOff b), s)
  else let f := s.freshBytes 1024; ((List.range 512).map (fun i => BitVec.ofNat 64 (leAt f.1 (2 * i) 2)), f.2)

/-- The root's contribution to a BROADCAST is its source bit for bit; its backup's copy goes to the root's truss (R286, R293). -/
def broadcastOut (s : State) (m : ModColl) (p : Place) (c : Coll) : State :=
  let raw := if c.accumn = 1 then (loftWords (s.sheaf p.g) c.plan.fmt (c.srcOff (c.openKey p.b)), s)
    else accWords s p.g c p.b
  if p.adds then
    let cs := checksums false raw.1
    let own : CInput := { rank := p.rank, backup := false, x := some 0, nonfinite := false, words := some raw.1, cs1 := cs.1,
                          cs2 := cs.2, count := 1, sub := false }
    let s := touchBucket raw.2 p c
    let s := s.modBucket p.g c.allot c.handle p.b (fun x =>
      { (x.putInput own) with lateRanks := x.lateRanks.filter (· ≠ p.rank) })
    advanceBucket (compareCopies s m p c p.rank) p.g c.allot c.handle p.b
  else sendHeld raw.2 p c p.up (p.frame raw.2 c 3 0 false false 1 raw.1)

/-- A ready contribution starts (R283, R284): its exponent joins the node's inputs or goes to the truss that adds it. -/
def contribute (s : State) (m : ModColl) (p : Place) (c : Coll) : State :=
  let s := s.modBucket p.g c.allot c.handle p.b (fun x => { x with contributed := true })
  if c.plan.op = 3 then broadcastOut s m p c
  else
    let vs := c.openVals (s.sheaf p.g) p.b
    let e := maxExp vs
    let nf := anyNonfinite vs
    let known := (c.bucket p.b).exponent.isSome
    let s := if p.adds then (touchBucket s p c).modBucket p.g c.allot c.handle p.b (fun x =>
        { (x.putInput (CInput.ofExp p.rank false e nf)) with lateRanks := x.lateRanks.filter (· ≠ p.rank) })
      else if known then s else s.send (.exponent p.up (p.ctrl c e nf 0))
    match s.coll p.g c.allot c.handle with
    | some c => advanceBucket (if known then convertOwn s m p c else s) p.g c.allot c.handle p.b
    | none => s

/-- Whether a bucket may start its contribution now. One whose result is here already was covered by a substitution: it is sent for
the check of R296 and takes no place in the window. -/
def mayContribute (m : ModColl) (p : Place) (c : Coll) : Bool :=
  let x := c.bucket p.b
  c.isReady p.b && !x.contributed && x.failed.isNone && !c.isFailed && !m.isUndecided &&
  (x.resultDone || decide (c.inFlight < c.plan.window.toNat)) && (decide (c.plan.op ≠ 3) || decide (p.rank = c.plan.root.toNat))

/-- A contribution that becomes ready at the node that adds it has arrived there, whether or not WINDOW lets it start (R295). -/
def arriveReady (s : State) (p : Place) (c : Coll) : State :=
  if c.isReady p.b && p.adds && !c.isFailed && (decide (c.plan.op ≠ 3) || decide (p.rank = c.plan.root.toNat)) then
    (touchBucket s p c).modBucket p.g c.allot c.handle p.b (fun x => { x with lateRanks := x.lateRanks.filter (· ≠ p.rank) })
  else s

/-- Start every contribution that is ready, lowest bucket first, as far as WINDOW allows. -/
def pump (s : State) (g : Nat) (a h : W16) : State :=
  match s.coll g a h with
  | none => s
  | some c => (List.range c.plan.buckets.toNat).foldl (fun s b =>
      match bucketNow s g a h b with
      | some (m, p, c) => if mayContribute m p c && trussRuns s g then contribute s m p c else arriveReady s p c
      | none => s) s

/-- A bucket fails here: a control frame fails it at every other node and backup (R292, R297). -/
def failBucket (s : State) (m : ModColl) (p : Place) (c : Coll) (st : Status) : State :=
  let x := c.bucket p.b
  if x.failed.isSome || x.resultDone then s
  else
    let s := s.modBucket p.g c.allot c.handle p.b (fun x => { x with failed := some st })
    let dests := (m.group ++ m.bk.map (·.2)).filter (fun d => decide (d ≠ s.fabric.address))
    dests.foldl (fun s d => s.send (.fail d (p.ctrl c 0 false st.code))) s

/-! ### COLLECTIVE events (R310) -/

/-- The DETAIL of a COLLECTIVE event (Table 11-7). -/
def collDetail (h : W16) (kind : Nat) (seq : W32) (run : Byte) (o : Occ) : List Byte :=
  leBytes 2 h.toNat ++ leBytes 1 kind ++ [run] ++ leBytes 4 seq.toNat ++ leBytes 4 o.bucket ++ leBytes 2 o.rank ++ leBytes 2 0 ++
  leBytes 4 o.count ++ leBytes 4 o.lateness.toNat

/-- The slot a handle is bound to on this module. -/
def State.collSlot (s : State) (a h : W16) : BitVec 4 :=
  ((s.collSheaves a h).head?.bind (fun g => s.coll g a h)).elim 0xF (·.slot)

/-- Write a COLLECTIVE event unless the round has had one of its KIND, or for KIND 4 one of its KIND and course (R299, R310; log entry 82).
`kind` holds 16 x course beside KIND 4. -/
def collEvent (s : State) (a h : W16) (kind : Nat) (st : Status) (seq : W32) (run : Byte) (o : Occ) : State :=
  match s.modColl a h with
  | none => s
  | some m =>
    let k := 256 * seq.toNat + kind
    if m.eventsDone.contains k then s
    else (s.modModColl a h (fun m => { m with eventsDone := m.eventsDone ++ [k] })).event
      { opcode := 0x0B06, group := 3, status := st, path := 0, allot := a.toNat, slot := s.collSlot a h, ustate := s.moduleTop,
        detail := collDetail h (kind % 16) seq run o }

/-- The STATUS of an event by its KIND, for the KINDs whose status no decision gives. -/
def occStatus (kind : Nat) : Status :=
  if kind = 2 then .backupSubstituted else if kind = 3 then .checksumMismatch else if kind = 4 then .linkDown else .okDegraded

/-- Write the events of what the open round has counted. -/
def flushOcc (s : State) (a h : W16) (seq : W32) (run : Byte) : State :=
  match s.modColl a h with
  | none => s
  | some m => m.occ.foldl (fun s e => collEvent s a h e.1 (occStatus (e.1 % 16)) seq run e.2) s

/-! ### Frames that arrive -/

/-- A frame's round against the handle's: old, current or ahead. -/
inductive Age | old | current | ahead
  deriving DecidableEq, Repr

def Coll.age (c : Coll) (seq : W32) (run : Byte) : Age :=
  if seq.toNat < c.openSeq.toNat then .old
  else if c.openSeq.toNat < seq.toNat then .ahead
  else if run.toNat < c.run.toNat then .old
  else if c.run.toNat < run.toNat then .ahead
  else if c.isFailed then .old else .current

/-- The handle, bucket, round, run and plan a frame names. -/
def CollFrame.handle : CollFrame → W16 × W16
  | .exponent f => (f.allot, f.handle)
  | .exponentDown f => (f.allot, f.handle)
  | .bucket f => (f.allot, f.handle)
  | .result f => (f.allot, f.handle)
  | .fail f => (f.allot, f.handle)

def CollFrame.round : CollFrame → W32 × Byte
  | .exponent f => (f.seq, f.run)
  | .exponentDown f => (f.seq, f.run)
  | .bucket f => (f.seq, f.run)
  | .result f => (f.seq, f.run)
  | .fail f => (f.seq, f.run)

def CollFrame.index : CollFrame → Nat
  | .exponent f => f.bucket
  | .exponentDown f => f.bucket
  | .bucket f => f.bucket
  | .result f => f.bucket
  | .fail f => f.bucket

def CollFrame.plan : CollFrame → W32
  | .exponent f => f.planId
  | .exponentDown f => f.planId
  | .bucket f => f.planId
  | .result f => f.planId
  | .fail f => f.planId

/-- The key of a frame (R299), its bucket as this sheaf numbers it. -/
def keyOf (f : BFrame) (b : Nat) : FrameKey :=
  { seq := f.seq, run := f.run, bucket := b, sender := f.sender, kind := f.kind, backup := f.backup }

/-- The keys of the frames taken in the open round and run. -/
def Coll.takenKeys (c : Coll) : List FrameKey :=
  c.buckets.flatMap (fun e => e.2.taken.map (fun k =>
    { seq := c.openSeq, run := c.run, bucket := e.1, sender := k.1, kind := k.2.1, backup := k.2.2 }))

/-- Whether a frame's PLAN_ID and bucket index are within the handle's plan (R281). -/
def frameFits (s : State) (c : Coll) (planId : W32) (index : Nat) : Bool :=
  decide (planId = c.plan.planId) && decide (index < (s.collParts c.allot c.handle).length * c.plan.buckets.toNat)

/-- Count a frame that is discarded under R281. -/
def noteMismatch (s : State) (g : Nat) (a h : W16) : State :=
  s.modHandle g a h (fun c => { c with mismatch := min (c.mismatch + 1) 0xFFFFFFFF })

/-- Whether a frame's own checksums agree with its payload (R292). -/
def frameSound (f : BFrame) : Bool :=
  decide (checksums (decide (f.kind.toNat < 2)) f.words = (f.cs1, f.cs2)) && decide (f.words.length = 512)

/-- The module that sent a frame: a rank, or the backup that stands for it. -/
def senderAddr (m : ModColl) (sender : Nat) (backup : Bool) : W32 :=
  if backup then (KMap.look m.bk sender).getD 0 else (m.group[sender]?).getD 0

/-- An acknowledgement or a NACK of a bucket frame, sent as a control frame from this module. -/
def answerFrame (s : State) (m : ModColl) (p : Place) (c : Coll) (f : BFrame) (ok : Bool) : State :=
  let k : CFrame := { p.ctrl c 0 false 0 with seq := f.seq, run := f.run, bucket := f.bucket }
  s.send (if ok then .ack (senderAddr m f.sender f.backup) k else .nack (senderAddr m f.sender f.backup) k)

/-- A frame whose checksums fail: a NACK that counts in RETRIES, or, at ATTEMPT 2, the bucket fails (R292). -/
def rejectFrame (s : State) (m : ModColl) (p : Place) (c : Coll) (f : BFrame) : State :=
  if f.attempt < 2 then
    answerFrame (s.modHandle p.g c.allot c.handle (fun c => { c with retries := min (c.retries + 1) 0xFFFFFFFF })) m p c f false
  else if c.age f.seq f.run = .current then pump (failBucket s m p c .checksumMismatch) p.g c.allot c.handle
  else s

/-- Count a duplicate that is discarded (R299). -/
def noteDuplicate (s : State) (g : Nat) (a h : W16) : State :=
  s.modHandle g a h (fun c => { c with duplicates := min (c.duplicates + 1) 0xFFFFFFFF })

/-- An input may come from this sender at this node. -/
def Place.expects (p : Place) (m : ModColl) (sender : Nat) (backup : Bool) : Bool :=
  if backup then p.direct.contains sender && (KMap.look m.bk sender).isSome else p.direct.contains sender || p.parts.contains sender

/-- An input of a rank has arrived: of a rank already late, a backup's copy is substituted now, and a primary ends the wait
(R295). -/
def settleLate (s : State) (p : Place) (c : Coll) (sender : Nat) (backup : Bool) : State :=
  match s.coll p.g c.allot c.handle with
  | none => s
  | some c' =>
    let x := c'.bucket p.b
    if !x.lateRanks.contains sender then s
    else if backup then substitute s p c' sender
    else s.modBucket p.g c.allot c.handle p.b (fun x => { x with lateRanks := x.lateRanks.filter (· ≠ sender) })

/-- An exponent frame of the open round reaches a node (R286, R295). -/
def takeInputExponent (s : State) (m : ModColl) (p : Place) (c : Coll) (f : CFrame) : State :=
  if !p.expects m f.sender f.backup then s
  else
    let s := touchBucket s p c
    if ((c.bucket p.b).input f.sender f.backup).isSome then noteDuplicate s p.g c.allot c.handle
    else
      let s := s.modBucket p.g c.allot c.handle p.b (fun x => x.putInput (CInput.ofExp f.sender f.backup f.x f.nonfinite))
      advanceBucket (settleLate s p c f.sender f.backup) p.g c.allot c.handle p.b

/-- Note that a frame has been taken. -/
def Bucket.noteTaken (x : Bucket) (f : BFrame) : Bucket := { x with taken := x.taken ++ [(f.sender, f.kind, f.backup)] }

/-- A contribution or partial sum of the open round reaches a node (R292, R295, R296, R299). -/
def takeInputFrame (s : State) (m : ModColl) (p : Place) (c : Coll) (f : BFrame) : State :=
  if !p.expects m f.sender f.backup then s
  else
    let s := touchBucket s p c
    if !frameSound f then rejectFrame s m p c f
    else
      let s := answerFrame s m p c f true
      let old := (c.bucket p.b).input f.sender f.backup
      if old.any (fun i => i.words.isSome) then noteDuplicate s p.g c.allot c.handle
      else
        let i : CInput := { rank := f.sender, backup := f.backup, x := (old.bind (·.x)), nonfinite := f.nonfinite,
                            words := some f.words, cs1 := f.cs1, cs2 := f.cs2, count := f.count, sub := f.substituted }
        let s := s.modBucket p.g c.allot c.handle p.b (fun x => (x.putInput i).noteTaken f)
        let s := settleLate s p c f.sender f.backup
        let s := compareCopies s m p c f.sender
        pump (advanceBucket s p.g c.allot c.handle p.b) p.g c.allot c.handle

/-- The rank a result comes from: the parent's, or the adding rank's for a backup or a leaf. -/
def Place.source (p : Place) (m : ModColl) : Option Nat := positionIn p.up m.group

/-- A result of the open round reaches this module (R284, R285, R292). -/
def takeResult (s : State) (m : ModColl) (p : Place) (c : Coll) (f : BFrame) : State :=
  if p.source m ≠ some f.sender ∨ f.backup = true ∨ (p.node = 0 ∧ p.backup = false) then s
  else
    let s := touchBucket s p c
    if !frameSound f then rejectFrame s m p c f
    else
      let s := answerFrame s m p c f true
      if (c.bucket p.b).resultDone then noteDuplicate s p.g c.allot c.handle
      else if (c.bucket p.b).failed.isSome then s
      else
        let s := s.modBucket p.g c.allot c.handle p.b (fun x => (if x.exponent.isNone && decide (f.kind = 2) then
          { x with exponent := some f.exp, nonfinite := f.nonfinite } else x).noteTaken f)
        pump (deliver s p c f.kind f.exp f.nonfinite f.substituted f.count f.words) p.g c.allot c.handle

/-- A late primary against the checksums kept of the substituted copy: within TLOST of the substitution a difference is a breach (R296). -/
def checkLate (s : State) (p : Place) (c : Coll) (k : LateCheck) (cs1 cs2 : Nat) : State :=
  let s := s.modHandle p.g c.allot c.handle (fun c => { c with checks := c.checks.filter (· ≠ k) })
  if lostBy (s.sheaf p.g).timer k.since k.tlost || decide (k.cs1 = cs1 ∧ k.cs2 = cs2) then s
  else
    let s := s.modHandle p.g c.allot c.handle (fun c => { c with breaches := min (c.breaches + 1) 0xFFFFFFFF })
    collEvent s c.allot c.handle 3 .checksumMismatch k.seq k.run { bucket := p.idx, rank := k.rank, count := 1, lateness := 0 }

/-- The check kept for a rank's bucket of a round and run. -/
def Coll.lateCheck (c : Coll) (b : Nat) (seq : W32) (run : Byte) (rank : Nat) : Option LateCheck :=
  c.checks.find? (fun k => decide (k.bucket = b) && decide (k.seq = seq) && decide (k.run = run) && decide (k.rank = rank))

/-- A frame of a decided round or an older run: one taken before is a duplicate and counts; a late primary is compared with the
substituted copy's checksums; any frame is discarded (R296, R299, R302). -/
def takeOld (s : State) (m : ModColl) (p : Place) (c : Coll) (f : BFrame) : State :=
  if !frameSound f then rejectFrame s m p c f
  else
    let s := answerFrame s m p c f true
    if c.past.contains (keyOf f p.b) then noteDuplicate s p.g c.allot c.handle
    else
      let s := s.modHandle p.g c.allot c.handle (fun c => { c with past := c.past ++ [keyOf f p.b] })
      match c.lateCheck p.b f.seq f.run f.sender with
      | some k => if f.kind ≠ 0 ∨ f.backup = true then s else checkLate s p c k f.cs1 f.cs2
      | none => s

/-- The fabric protocol level a frame carries, if its header has one (Table 11-3). -/
def CollFrame.fpl : CollFrame → Option Byte
  | .exponent _ => none
  | .exponentDown _ => none
  | .bucket f => some f.fpl
  | .result f => some f.fpl
  | .fail _ => none

/-- A frame reaches the truss of a sheaf (R281, R290, R299, R302); one whose FPL is two or more away is discarded (R457), and one that reaches a
truss while it stands waits (R441). -/
def takeFrame (s : State) (g : Nat) (k : CollFrame) : State :=
  let a := k.handle.1
  let h := k.handle.2
  match s.modColl a h, s.coll g a h with
  | some m, some c =>
    let n := c.plan.buckets.toNat
    if !(k.fpl.all (fplNear (fplInUse s))) then s
    else if !trussRuns s g then s.modHandle g a h (fun c => { c with waiting := c.waiting ++ [k] })
    else if !frameFits s c k.plan k.index then noteMismatch s g a h
    else if k.index / n ≠ s.collPlace a h g then s
    else match placeOf s m c g (k.index % n) with
      | none => s
      | some p =>
        match c.age k.round.1 k.round.2, k with
        | .ahead, _ => s.modHandle g a h (fun c => { c with ahead := c.ahead ++ [k] })
        | .old, .bucket f => takeOld s m p c f
        | .old, .result f => takeOld s m p c f
        | .old, _ => s
        | .current, .exponent f => takeInputExponent s m p c f
        | .current, .exponentDown f =>
          if p.source m ≠ some f.sender then s
          else if (c.bucket p.b).exponent.isSome then noteDuplicate s g a h else takeExponent s g a h p.b f.x f.nonfinite
        | .current, .bucket f =>
          if f.kind.toNat < 2 ∨ (f.kind = 3 ∧ f.backup = true ∧ c.plan.op = 3) then takeInputFrame s m p c f else s
        | .current, .result f => if f.kind.toNat = 2 ∨ f.kind.toNat = 3 then takeResult s m p c f else s
        | .current, .fail f =>
          if (c.bucket p.b).failed.isSome then s
          else pump (s.modBucket g a h p.b (fun x => { x with failed := some (Status.ofCode f.status.toNat) })) g a h
  | _, _ => s

/-- A bucket's late ranks whose backup's copy is here are substituted. -/
def settleWaiting (s : State) (g : Nat) (a h : W16) (b : Nat) : State :=
  match bucketNow s g a h b with
  | none => s
  | some (_, p, c) =>
    let due := (c.bucket b).lateRanks.filter (fun r => ((c.bucket b).input r true).isSome)
    if due = [] then s else advanceBucket (due.foldl (fun s r => substitute s p c r) s) g a h b

/-- A truss that stood goes on: the frames that waited are taken in their order of arrival, and substitutions whose time came meanwhile are
made (R437, R441). -/
def resumeTruss (s : State) (g : Nat) (a h : W16) : State :=
  match s.coll g a h with
  | none => s
  | some c =>
    let s := c.waiting.foldl (fun s k => takeFrame s g k) (s.modHandle g a h (fun c => { c with waiting := [] }))
    let s := (c.buckets.map (·.1)).foldl (fun s b => settleWaiting s g a h b) s
    pump s g a h

/-- Whether a truss that works again has something that waited. -/
def Coll.stood (c : Coll) : Bool :=
  !c.waiting.isEmpty || c.buckets.any (fun e => e.2.lateRanks.any (fun r => (e.2.input r true).isSome))

/-- Every truss that works and has something that waited goes on. -/
def resumeTrusses (s : State) : State :=
  (s.sheaves.filter (fun e => trussRuns s e.1)).foldl (fun s e =>
    (e.2.colls.filter Coll.stood).foldl (fun s c => resumeTruss s e.1 c.allot c.handle) s) s

/-- Frames kept for a round or run that has now opened are taken in their order of arrival. -/
def replayAhead (s : State) (g : Nat) (a h : W16) : State :=
  match s.coll g a h with
  | none => s
  | some c => c.ahead.foldl (fun s k => takeFrame s g k) (s.modHandle g a h (fun c => { c with ahead := [] }))

end Sys2Proof.Machine
end

