-- ==== Sys2Proof/Machine/Wv.lean ====
section
/-!
DEFINITION. The weathervane's bookkeeping (R257 to R260, R264): sample points, arming, captures and skipped samples.
-/

namespace Sys2Proof.Machine

/-- The statistics' counts saturate at 2^32 - 1 (R264). -/
def sat32 (n : Nat) : Nat := min n 0xFFFFFFFF

/-- Count skipped points, ended armings and discarded samples. -/
def Weathervane.skip (w : Weathervane) (n : Nat) : Weathervane :=
  { w with stats := { w.stats with skipped := sat32 (w.stats.skipped + n) } }

/-- Whether a capture supplies operand A, or B, of a sample (R258). -/
def Sample.wideA (y : Sample) : Bool := y.caps.any (fun c => extOverlap (c.lo, c.hi) y.aExt)
def Sample.wideB (y : Sample) : Bool := y.caps.any (fun c => extOverlap (c.lo, c.hi) y.bExt)

/-- Whether the checker may start on a sample: its instruction has run and its own sums have landed (R262). -/
def Sample.ready (y : Sample) : Bool := y.pairs.isSome && y.landed

/-- The sums of a reed land, those of its sampled instructions that have run among them (R164). -/
def Weathervane.land (w : Weathervane) (r : Nat) : Weathervane :=
  { w with samples := w.samples.map (fun y => if y.reed = r && y.pairs.isSome then { y with landed := true } else y) }

/-- Samples that are armed or waiting, besides the one the checker computes (R259). -/
def Weathervane.holding (w : Weathervane) : Nat :=
  w.armed.length + (w.samples.length - (if w.samples.any Sample.ready then 1 else 0))

/-- Bytes of the reserve in use by captures (R260). -/
def Weathervane.used (w : Weathervane) : Nat :=
  ((w.captures ++ w.samples.flatMap (·.caps)).map (·.bytes)).sum

/-- An armed reed's MMA or MMAF becomes its sampled instruction; captures that overlap neither operand are freed (R258). -/
def Weathervane.sampled (w : Weathervane) (r : Nat) (q : QEntry) (aExt bExt : Nat × Nat) : Weathervane :=
  if w.armed.contains r then
    let mine := w.captures.filter (fun c => decide (c.reed = r))
    { w with armed := w.armed.erase r, captures := w.captures.filter (fun c => decide (c.reed ≠ r)),
             samples := w.samples ++ [{
               reed := r, seqNo := q.seqNo, index := q.index, slot := q.slot,
               caps := mine.filter (fun c => extOverlap (c.lo, c.hi) aExt || extOverlap (c.lo, c.hi) bExt),
               aExt := aExt, bExt := bExt, pairs := none, landed := false }] }
  else w

/-- Count an issued MMA or MMAF; at a sample point the reed is armed, unless two samples are held already (R257, R259). -/
def Weathervane.count (w : Weathervane) (r : Nat) : Weathervane :=
  let n := (w.counter + 1) % 2 ^ w.log2
  let w := { w with counter := n }
  if w.enable && decide (n = 0) then
    if 2 ≤ w.holding then w.skip 1 else { w with armed := w.armed ++ [r] }
  else w

/-- The weathervane at the issue of an MMA or MMAF (R257, R258). -/
def Weathervane.onMma (w : Weathervane) (r : Nat) (q : QEntry) (aExt bExt : Nat × Nat) : Weathervane :=
  (w.sampled r q aExt bExt).count r

/-- An LD of an armed reed is tagged for a capture at its issue (R258); it takes space when it starts and its elements are
known. -/
def Weathervane.capture (w : Weathervane) (c : Capture) : Weathervane :=
  if w.armed.contains c.reed then { w with captures := w.captures ++ [c] } else w

/-- The capture of an LD that starts with `n` bytes of source elements: it is taken when they fit in the reserve's free bytes,
and then may overwrite any of the reserve (R106, R260). -/
def Weathervane.sized (w : Weathervane) (r seqNo n : Nat) : Weathervane :=
  let mine := fun (c : Capture) => decide (c.reed = r ∧ c.seqNo = seqNo)
  let each := fun (f : List Capture → List Capture) =>
    { w with captures := f w.captures, samples := w.samples.map (fun y => { y with caps := f y.caps }) }
  if !(w.captures ++ w.samples.flatMap (·.caps)).any mine then w
  else if w.used + n ≤ w.reserve then
    { each (fun l => l.map (fun c => if mine c then { c with bytes := n } else c)) with soiled := max w.soiled w.reserve }
  else each (fun l => l.filter (fun c => !mine c))

/-- An armed reed left RUNNING and PAUSED: its arming ends and its captures are freed (R259). -/
def Weathervane.endArming (w : Weathervane) (r : Nat) : Weathervane :=
  if w.armed.contains r then
    { w with armed := w.armed.erase r, captures := w.captures.filter (fun c => decide (c.reed ≠ r)) }.skip 1
  else w

/-- Samples whose instruction will not run, or faulted, are discarded (R259). -/
def Weathervane.dropSamples (w : Weathervane) (bad : Sample → Bool) : Weathervane :=
  { w with samples := w.samples.filter (fun x => !bad x) }.skip (w.samples.filter bad).length

/-- Every sample and arming is discarded, each sample counting as skipped (R266). -/
def Weathervane.discard (w : Weathervane) : Weathervane :=
  { w with armed := [], captures := [], samples := [] }.skip (w.armed.length + w.samples.length)

end Sys2Proof.Machine
end

