-- ==== Sys2Proof/Machine/Reeds.lean ====
section
/-!
DEFINITION. The reed: its registers by number (R117 to R125), its place on the grid and open neighbour directions (R14 to
R16, R151), loops and the stream position (R143 to R146), and faults (R140).
-/

namespace Sys2Proof.Machine

/-! ### Grid (R14) -/

/-- The two column bits, or the two row bits, of the four digits of a reed within its die. -/
def gridCoord (n sh : Nat) : Nat :=
  let d := fun k => (n / 16 ^ k % 16) / 2 ^ sh % 4
  d 3 * 64 + d 2 * 16 + d 1 * 4 + d 0

/-- The reed of a die at a column and a row. -/
def gridReed (col row : Nat) : Nat :=
  let d := fun k => (col / 4 ^ k % 4) + 4 * (row / 4 ^ k % 4)
  d 3 * 4096 + d 2 * 256 + d 1 * 16 + d 0

/-- The grid neighbour of a reed in direction 0 north, 1 east, 2 south, 3 west; none at the edge of the die (R14, R15). -/
def neighbour (r : Nat) (dir : Nat) : Option Nat :=
  let die := r / 65536
  let col := gridCoord (r % 65536) 0
  let row := gridCoord (r % 65536) 2
  match dir with
  | 0 => if row = 0 then none else some (die * 65536 + gridReed col (row - 1))
  | 1 => if col = 255 then none else some (die * 65536 + gridReed (col + 1) row)
  | 2 => if row = 255 then none else some (die * 65536 + gridReed col (row + 1))
  | _ => if col = 0 then none else some (die * 65536 + gridReed (col - 1) row)

/-- Whether the connection of a reed in a direction is open (R16, R151): the neighbour exists, is not retired, and lies in
the same sheaf or in an awake sheaf of the same allotment, two unallotted sheaves counting as the same. -/
def dirOpen (s : State) (r dir : Nat) : Bool :=
  match neighbour r dir with
  | none => false
  | some n =>
    let g := r / 4096
    let g' := n / 4096
    !(s.sheaf g').retired (n % 4096) &&
    (decide (g = g') ||
      (decide ((s.sheaf g).power = .awake) && decide ((s.sheaf g').power = .awake) &&
       decide (s.allotOf g = s.allotOf g')))

/-! ### Loops (R119, R143 to R146) -/

/-- A taken branch or a write of `POS`.INDEX: loops whose body does not contain the target end (R146). -/
def Reed.branchTo (x : Reed) (t : Nat) : Reed :=
  { x with index := t, loops := x.loops.filter (fun l => decide (l.start < t) && decide (t ≤ l.stop)) }

/-- The next position after the entry `i` has issued: loop ends are folded in (R145). Innermost loop first. -/
def afterEntry (i : Nat) : List Loop → Nat × List Loop
  | [] => (i + 1, [])
  | l :: t =>
    if i = l.stop then
      if l.iter.toNat + 1 < l.count.toNat then (l.start + 1, { l with iter := l.iter + 1 } :: t) else afterEntry i t
    else (i + 1, l :: t)

/-- Advance past the instruction just issued. -/
def Reed.advance (x : Reed) : Reed :=
  let a := afterEntry x.index x.loops
  { x with index := a.1, loops := a.2, hold := .none }

/-- The program's position back at its entry point with no loop active (R141, R142). -/
def Reed.atEntry (x : Reed) : Reed := { x with index := x.entry, loops := [], ended := false, hold := .none, counting := false }

/-! ### Queues (R120, R132, R133) -/

def Reed.queue (x : Reed) : Engine → List QEntry
  | .mx => x.qmx | .vx => x.qvx | .ld => x.qld | .st => x.qst | .xput => x.qxp | .xget => x.qxg

def Reed.setQueue (x : Reed) (e : Engine) (q : List QEntry) : Reed :=
  match e with
  | .mx => { x with qmx := q } | .vx => { x with qvx := q } | .ld => { x with qld := q }
  | .st => { x with qst := q } | .xput => { x with qxp := q } | .xget => { x with qxg := q }

/-- Entries in use by queue number 0 MX, 1 VX, 2 LD, 3 ST, 4 XC (R120). -/
def Reed.depth (x : Reed) (k : Nat) : Nat :=
  match k with
  | 0 => x.qmx.length | 1 => x.qvx.length | 2 => x.qld.length | 3 => x.qst.length
  | _ => x.qxp.length + x.qxg.length

/-- The queue number of an engine. -/
def engineNum : Engine → Nat
  | .mx => 0 | .vx => 1 | .ld => 2 | .st => 3 | .xput => 4 | .xget => 4

/-- Every queued instruction of a reed. -/
def Reed.allQueued (x : Reed) : List QEntry := x.qmx ++ x.qvx ++ x.qld ++ x.qst ++ x.qxp ++ x.qxg

def Reed.queuesEmpty (x : Reed) : Bool := x.allQueued.isEmpty

/-- Whether an instruction with these extents must wait for an older incomplete one (R134). -/
def waitsFor (older : List QEntry) (srcs dsts : List (Nat × Nat)) : Bool :=
  older.any (fun o =>
    o.dsts.any (fun d => (srcs ++ dsts).any (extOverlap d)) || o.srcs.any (fun x => dsts.any (extOverlap x)))

/-- Keep only the instructions that are executing (R140). -/
def Reed.dropQueued (x : Reed) : Reed :=
  let k := List.filter (fun (q : QEntry) => q.started)
  { x with qmx := k x.qmx, qvx := k x.qvx, qld := k x.qld, qst := k x.qst, qxp := k x.qxp, qxg := k x.qxg }

/-! ### Registers (Table 5-1) -/

/-- LC*n*: level 0 is the outermost active loop (R119). -/
def Reed.lc (x : Reed) (n : Nat) : Nat :=
  match x.loops.reverse[n]? with
  | some l => l.iter.toNat + 2 ^ 32 * l.count.toNat
  | none => 0

/-- `POS` (Table 5-2). DESIGN CHOICE: once the stream has advanced past entry 63, where R141 fixes only FAULTINFO.INDEX, INDEX reads 0
(log entry 78). -/
def Reed.pos (x : Reed) : Nat :=
  x.index % 64 + 2 ^ 8 * x.loops.length + 2 ^ 16 * x.slot.toNat + 2 ^ 24 * x.entry

def Reed.qdepth (x : Reed) : Nat :=
  x.depth 0 + 2 ^ 4 * x.depth 1 + 2 ^ 8 * x.depth 2 + 2 ^ 12 * x.depth 3 + 2 ^ 16 * x.depth 4

def Reed.trapctl (x : Reed) : Nat :=
  b2n x.enProduced + 2 * b2n x.enConsumed + 4 * b2n x.trapAction + 2 ^ 16 * x.trapCount.toNat

/-- Whether a key and step are loaded for the reed's slot (R122). -/
def keyValid (sh : Sheaf) (x : Reed) : Bool := (KMap.look sh.keys x.slot.toNat).isSome

def xcstat (s : State) (r : Nat) (x : Reed) : Nat :=
  ((List.range 4).map (fun d => if dirOpen s r d then 2 ^ d else 0)).sum + 2 ^ 4 * x.edgePut.toNat + 2 ^ 8 * x.edgeGet.toNat

/-- A reed register by number; none where the number is not in Table 5-1 (R117). -/
def reedReg (s : State) (r : Nat) (n : Nat) : Option Nat :=
  let x := s.reed r
  if n < 16 then some ((x.regs.toList[n]?).elim 0 BitVec.toNat)
  else if 16 ≤ n ∧ n < 20 then some (x.lc (n - 16))
  else match n with
    | 0x20 => some x.pos
    | 0x21 => some x.vl.toNat
    | 0x22 => some x.qdepth
    | 0x23 => some x.trapctl
    | 0x24 => some x.trapRec.r0.toNat
    | 0x25 => some x.trapRec.r1.toNat
    | 0x26 => some x.trapRec.r2.toNat
    | 0x27 => some x.trapRec.r3.toNat
    | 0x28 => some (b2n x.rngMode + 2 * b2n (keyValid (s.sheaf (r / 4096)) x))
    | 0x29 => some x.faultInfo.toNat
    | 0x2A => some (xcstat s r x)
    | 0x2B => some x.cycles.toNat
    | 0x2C => some (x.fullq.toNat + 2 ^ 32 * x.portStalls.toNat)
    | _ => none

/-- Whether a register number is in Table 5-1. -/
def regExists (n : Nat) : Bool := decide (n < 20) || (decide (0x20 ≤ n) && decide (n ≤ 0x2C))

/-- Registers UREG_WRITE can write (Table 5-1). -/
def regWritable (n : Nat) : Bool := decide (n < 16) || [0x20, 0x21, 0x23, 0x28, 0x2A].contains n

/-- Clear the trap count and record (R121, R223). -/
def Reed.clearTraps (x : Reed) : Reed := { x with trapCount := 0, trapRec := { r0 := 0, r1 := 0, r2 := 0, r3 := 0 } }

/-- Write `TRAPCTL` (Table 5-5). -/
def Reed.writeTrapctl (x : Reed) (v : Nat) : Reed :=
  let x := { x with enProduced := bitOf v 0, enConsumed := bitOf v 1, trapAction := bitOf v 2 }
  if bitOf v 3 then x.clearTraps else x

/-- Set a scalar register. -/
def Reed.setS (x : Reed) (n : Nat) (v : Nat) : Reed := { x with regs := x.regs.setIfInBounds n (BitVec.ofNat 32 v) }

/-- A scalar register. -/
def Reed.s (x : Reed) (n : Nat) : Nat := (x.regs.toList[n]?).elim 0 BitVec.toNat

/-- Write a register as UREG_WRITE does (Table 5-1, R118, R121, R122, R124). DEDUCED (log entry 78): a write of `POS`.INDEX ends the loops that
do not hold the target when it is made (R146), and not only at the next issue. -/
def Reed.writeReg (x : Reed) (n v : Nat) : Reed :=
  if n < 16 then x.setS n v
  else match n with
    | 0x20 => x.branchTo (v % 64)
    | 0x21 => { x with vl := BitVec.ofNat 32 (v % 65536) }
    | 0x23 => x.writeTrapctl v
    | 0x28 => { x with rngMode := bitOf v 0 }
    | 0x2A => { x with edgePut := x.edgePut &&& ~~~(BitVec.ofNat 4 (v / 16)),
                       edgeGet := x.edgeGet &&& ~~~(BitVec.ofNat 4 (v / 256)) }
    | _ => x

/-! ### Faults (R140, R116) -/

/-- Count a fault in the sheaf's UNIT_FAULTED window, opening one when none is open (R116). The window's path and cause are
those of the lowest reed in it. -/
def Sheaf.noteFault (x : Sheaf) (r cause : Nat) : Sheaf :=
  match x.faultWin with
  | none => { x with faultWin := some { path := reedPath r, cause := cause, count := 1, opcode := 0, tag := 0 } }
  | some w =>
    { x with faultWin := some { w with
        path := if (reedPath r).toNat < w.path.toNat then reedPath r else w.path,
        cause := if (reedPath r).toNat < w.path.toNat then cause else w.cause, count := w.count + 1 } }

/-- A reed left RUNNING and PAUSED: its weathervane arming ends (R259). -/
def Sheaf.endArming (x : Sheaf) (r : Nat) : Sheaf := { x with wv := x.wv.endArming r }

/-- Samples of a reed whose instruction was discarded from its queue are discarded (R259). -/
def Sheaf.dropUnstarted (x : Sheaf) (r : Nat) : Sheaf :=
  { x with wv := x.wv.dropSamples (fun y => decide (y.reed = r) && y.pairs.isNone &&
      !((x.reed (r % 4096)).qmx.any (fun q => decide (q.seqNo = y.seqNo)))) }

/-- A reed enters FAULTED: its queued instructions are discarded, those executing run on (R140). -/
def enterFaulted (s : State) (r cause : Nat) : State :=
  let s := s.modReed r (fun x => { x.dropQueued with st := .faulted, hold := .none })
  s.modSheaf (r / 4096) (fun sh => ((sh.noteFault r cause).endArming r).dropUnstarted r)

/-- A stream fault: `FAULTINFO` keeps the first since the last load or reset (R123, R140). -/
def streamFault (s : State) (r : Nat) (f : Flaw) (index : Nat) : State :=
  let s := s.modReed r (fun x =>
    if x.faultInfo.toNat % 256 = 0 then
      { x with faultInfo := BitVec.ofNat 32 (f.1.code + 2 ^ 8 * (index % 64) + 2 ^ 16 * f.2) } else x)
  (enterFaulted s r (if f.1 = .align then 2 else 6)).flushWatches

/-- The status of a UNIT_FAULTED event by its cause (Table 4-17). -/
def faultStatus (cause : Nat) : Status :=
  match cause with
  | 1 => .numericTrap | 2 => .alignFault | 3 => .okDegraded | 6 => .badParam | _ => .badState

/-! ### Issue (R132, R136, R140, R141, R147) -/

/-- Whether a queued LDPAGE of the reed will write an entry (R148). -/
def pageWill (x : Reed) (i : Nat) : Bool :=
  x.qld.any (fun q => insOpc q.raw = 0x81 &&
    (let m := insMod q.raw
     decide (bitsOf m 5 0 ≤ i) && decide (i ≤ bitsOf m 5 0 + bitsOf m 12 8)))

/-- Fetch the next instruction of a reed whose stream may issue, and give it to `body` when its OPC is the row's; the fetch
faults are taken here (R129, R141), and an entry a queued LDPAGE will write is waited for (R148). -/
def issue (s : State) (r : Nat) (opc : Nat) (body : State → Reed → BitVec 256 → State) : State :=
  let x := s.reed r
  if x.st ≠ .running || x.ended || !clockRuns s (r / 4096) || (s.sheaf (r / 4096)).retired (r % 4096) then s
  else if 64 ≤ x.index then streamFault s r (.fetchInvalid, 0) 63
  else if pageWill x x.index then s.setReed r { x with hold := .fetch }
  else match KMap.look x.ibuf x.index with
    | none => streamFault s r (.fetchInvalid, 0) x.index
    | some w =>
      if !(opcodes.contains (insOpc w)) then streamFault s r (.illegalOpcode, 0) x.index
      else if insOpc w ≠ opc then s
      else body s x w

/-- Issue a scalar instruction: take the first flaw, else its effect on the reed, which then advances. -/
def scalar (r : Nat) (flaws : BitVec 256 → Reed → Option Flaw) (eff : State → BitVec 256 → Reed → Reed) :
    State → Reed → BitVec 256 → State :=
  fun s x w =>
    match flaws w x with
    | some f => streamFault s r f x.index
    | none => s.setReed r (eff s w x).advance

/-- An entry for an engine's queue with everything captured at issue (R132). -/
def capture (x : Reed) (numctl : W32) (w : BitVec 256) (srcs dsts : List (Nat × Nat)) : QEntry :=
  { seqNo := x.seqNo, raw := w, index := BitVec.ofNat 6 x.index, regs := x.regs, vl := x.vl, enProduced := x.enProduced,
    enConsumed := x.enConsumed, trapAction := x.trapAction, rngKeyed := x.rngMode, numctl := numctl, slot := x.slot,
    iters := x.loops.reverse.map (·.iter), ord := x.ord, srcs := srcs, dsts := dsts, started := false, trapsDone := false,
    view := [], progress := 0, errs := [], freeBase := 0 }

/-- Enter a checked instruction in its engine's queue, or hold the stream while all 8 entries are in use (R136). -/
def enqueue (s : State) (r : Nat) (x : Reed) (e : Engine) (q : QEntry) : State :=
  if 8 ≤ x.depth (engineNum e) then s.setReed r { x with hold := .fullQueue }
  else s.setReed r ({ x with seqNo := x.seqNo + 1 }.setQueue e (x.queue e ++ [q])).advance

end Sys2Proof.Machine
end

