-- ==== Sys2Proof/Machine/Mx.lean ====
section
/-!
DEFINITION. The matrix array (chapter 6): the issue of MMA, MMAF, ACCZ and ACCST with their checks (Tables 6-2 to 6-4), and
what each does when it runs, up to a given row step (R153 to R174).
-/

namespace Sys2Proof.Machine

/-! ### Engine issue -/

/-- Whether an allotment's rounding draws are keyed whatever `RNGCTL` holds (R196, R215). -/
def alwaysKeyed (s : State) (g : Nat) : Bool :=
  match s.allot? (s.allotOf g) with
  | some a => a.det || decide (512 < a.members.length)
  | none => false

/-- The entry an instruction takes in its queue (R132). -/
def engineEntry (s : State) (r : Nat) (x : Reed) (w : BitVec 256) (ext : List (Nat × Nat) × List (Nat × Nat)) : QEntry :=
  { capture x (s.sheaf (r / 4096)).numctl w ext.1 ext.2 with rngKeyed := x.rngMode || alwaysKeyed s (r / 4096) }

/-- The checks of an engine instruction: a flaw, or the source and destination extents. -/
abbrev IssueCheck := State → Nat → BitVec 256 → Reed → Except Flaw (List (Nat × Nat) × List (Nat × Nat))

/-- Issue an engine instruction: its checks, then its place in the queue, the stream holding while the queue is full
(R132, R136); it counts `passes` rounding passes (R215). -/
def engineIssue (opc : Nat) (e : Engine) (chk : IssueCheck) (passes : BitVec 256 → Reed → W32 → Nat)
    (s : State) (r : Nat) : State :=
  issue s r opc (fun s x w =>
    match chk s r w x with
    | .error f => streamFault s r f x.index
    | .ok ext =>
      let q := engineEntry s r x w ext
      if 8 ≤ x.depth (engineNum e) then s.setReed r { x with hold := .fullQueue }
      else enqueue s r { x with ord := x.ord + BitVec.ofNat 24 (passes w x q.numctl) } e q)

/-- An optional descriptor check: none where the field holds no descriptor. -/
def optOperand (use : Bool) (d : Nat) (regs : Vector W32 16) (f : Nat) (dest : Bool) : Except Flaw (Option Operand) :=
  if use then (checkOperand d regs f dest).map some else .ok none

/-- Turn a first flaw into an error. -/
def noFlaw (l : List (Bool × Flaw)) : Except Flaw Unit :=
  match firstFlaw l with
  | some f => .error f
  | none => .ok ()

/-! ### Fields (Tables 6-1, 6-2, 6-4) -/

/-- The storage format of an MX type code (Table 6-1). -/
def mxFmt (t : Nat) : Option Nat :=
  match t with
  | 0x0 => some 0x04 | 0x1 => some 0x05 | 0x2 => some 0x0A | 0x3 => some 0x0B | 0x4 => some 0x06 | 0x5 => some 0x07
  | 0x6 => some 0x08 | 0x7 => some 0x09 | 0x8 => some 0x02 | 0x9 => some 0x03 | 0xA => some 0x01 | _ => none

/-- The class of an MX type code: F8, I8, H, L (Table 6-1). -/
def mxClass (t : Nat) : Nat := if t < 4 then 0 else if t < 8 then 1 else if t < 10 then 2 else 3

/-- Whether a type code is block-scaled. -/
def mxBlock (t : Nat) : Bool := [2, 3, 6, 7].contains t

/-- The fields of an MMA or MMAF. -/
structure MmaF where
  ta : Nat
  tb : Nat
  bank : Nat
  dest : Bool
  acc : Bool
  ks : Nat
  n : Nat
  k : Nat
  deriving DecidableEq, Repr

/-- Decode the fields of Table 6-2; MMA's tile is 4 × 4 (R170). -/
def mmaF (w : BitVec 256) : MmaF :=
  let m := insMod w
  let sh := if insOpc w = 0x41 then
      (match bitsOf m 17 16 with | 0 => (4, 2) | 1 => (2, 4) | 2 => (4, 1) | _ => (1, 4)) else (4, 4)
  { ta := bitsOf m 3 0, tb := bitsOf m 7 4, bank := bitsOf m 13 8, dest := bitOf m 14, acc := bitOf m 15,
    ks := sh.1, n := sh.2, k := bitsOf (insAux w) 12 0 }

/-- Bytes of an element of the operands. -/
def MmaF.e (f : MmaF) : Nat := elemSize ((mxFmt f.ta).getD 0)
def MmaF.scaledA (f : MmaF) : Bool := mxBlock f.ta
def MmaF.scaledB (f : MmaF) : Bool := mxBlock f.tb
def MmaF.blocked (f : MmaF) : Bool := f.scaledA || f.scaledB

/-- Length of the scale string for M rows (R169). -/
def MmaF.scaleLen (f : MmaF) (m : Nat) : Nat :=
  (if f.scaledA then m * (f.k / 32) else 0) + (if f.scaledB then 4 * (f.k / 32) else 0)

/-- Round up to a multiple of 16. -/
def up16 (n : Nat) : Nat := ceilDiv n 16 * 16

/-- The checks of Table 6-3 on descriptors that have passed R128. -/
def mmaChecks (w : BitVec 256) (f : MmaF) (a b : Operand) (c : Option Operand) : List (Bool × Flaw) :=
  let m := insMod w
  [ (bitsOf m 23 18 ≠ 0 || (decide (insOpc w = 0x40) && bitsOf m 17 16 ≠ 0) || bitsOf (insAux w) 31 13 ≠ 0,
      (.reservedField, 0)),
    (c.isNone && insF w 3 ≠ 0, (.reservedField, 3)),
    ((mxFmt f.ta).isNone || (mxFmt f.tb).isNone || mxClass f.ta ≠ mxClass f.tb, (.fieldRange, 0)),
    (f.k < 1 || 4080 < f.k || f.k % f.ks ≠ 0 || (f.blocked && f.k % 32 ≠ 0), (.fieldRange, 0)),
    (a.rowBytes ≠ up16 (f.k * f.e), (.fieldRange, 1)),
    (if f.dest then f.bank ≠ 0 else 64 < f.bank + a.rows, (.fieldRange, 1)),
    (b.rows * b.rowBytes ≠ up16 (f.k * f.n * f.e) || (1 < b.rows && b.stride ≠ b.rowBytes), (.fieldRange, 2)),
    (f.dest && c.any (fun o => o.rows ≠ a.rows || o.rowBytes ≠ 16), (.fieldRange, 3)),
    (f.blocked && (f.dest || decide (insOpc w = 0x41)), (.fieldRange, 3)),
    (f.blocked && c.any (fun o => (1 < o.rows && o.stride ≠ o.rowBytes) ||
      o.rows * o.rowBytes ≠ up16 (f.scaleLen a.rows)), (.fieldRange, 3)),
    (f.dest && c.any (fun o => extOverlap o.extent a.extent || extOverlap o.extent b.extent), (.fieldRange, 3)) ]

/-- The issue checks of MMA and MMAF: R128 on F1, F2 and F3 where it holds a descriptor, then Table 6-3 (R161). -/
def mmaCheck : IssueCheck := fun _ _ w x => do
  let f := mmaF w
  let a ← checkOperand (insF w 1) x.regs 1 false
  let b ← checkOperand (insF w 2) x.regs 2 false
  let c ← optOperand (f.dest || f.blocked) (insF w 3) x.regs 3 f.dest
  noFlaw (mmaChecks w f a b c)
  let ce := c.toList.map Operand.extent
  if f.dest then pure ([a.extent, b.extent], ce) else pure ([a.extent, b.extent] ++ ce, [])

/-- Rounding passes an MMA counts: one per chunk with DEST = 1 and stochastic RND_SPILL (R215). -/
def mmaPasses (w : BitVec 256) (_ : Reed) (nc : W32) : Nat :=
  let f := mmaF w
  if f.dest && ncStoSpill nc then f.k / f.ks else 0

/-- The issue of an MMA or MMAF, which the weathervane counts (R257). -/
def mmaIssue (opc : Nat) (s : State) (r : Nat) : State :=
  let t := engineIssue opc .mx mmaCheck mmaPasses s r
  let q0 := (s.reed r).qmx
  let q1 := (t.reed r).qmx
  if q0.length < q1.length then
    match q1.getLast?, q1.getLast?.bind (fun q => q.srcs[0]?), q1.getLast?.bind (fun q => q.srcs[1]?) with
    | some q, some a, some b => t.modSheaf (r / 4096) (fun sh => { sh with wv := sh.wv.onMma r q a b })
    | _, _, _ => t
  else t

def issueMma (s : State) (r : Nat) : State := mmaIssue 0x40 s r
def issueMmaf (s : State) (r : Nat) : State := mmaIssue 0x41 s r

/-- MMA: its checks and its place in MX's queue (R160, R161). -/
def execMma (r : ReedIx) (s : State) : Out := .next (issueMma s r)
/-- MMAF: MMA with a fall-back shape (R170). -/
def execMmaf (r : ReedIx) (s : State) : Out := .next (issueMmaf s r)

/-- FIRST and COUNT of ACCZ and ACCST (Table 6-4). -/
def accFirst (w : BitVec 256) : Nat := bitsOf (insMod w) 5 0
def accCount (w : BitVec 256) : Nat := bitsOf (insMod w) 13 8 + 1
/-- OUT as a storage format. -/
def accFmt (w : BitVec 256) : Option Nat :=
  match bitsOf (insMod w) 17 14 with
  | 0 => some 0x00 | 1 => some 0x02 | 2 => some 0x03 | 3 => some 0x04 | 4 => some 0x05 | _ => none
def accAdd (w : BitVec 256) : Bool := bitOf (insMod w) 18
def accClear (w : BitVec 256) : Bool := bitOf (insMod w) 19

/-- The checks of ACCZ (R162). DESIGN CHOICE (log entry 78): of several reserved fields, MOD and AUX are named before F1, F2 and F3; R162 gives
no order within its first step. -/
def acczCheck : IssueCheck := fun _ _ w _ => do
  let m := insMod w
  noFlaw [(bitsOf m 7 6 ≠ 0 || bitsOf m 23 14 ≠ 0 || insAux w ≠ 0, (.reservedField, 0)),
          (insF w 1 ≠ 0, (.reservedField, 1)), (insF w 2 ≠ 0, (.reservedField, 2)), (insF w 3 ≠ 0, (.reservedField, 3)),
          (64 < accFirst w + accCount w, (.fieldRange, 0))]
  pure ([], [])

/-- The checks of ACCST (R128, R162, R166); reserved fields in the order that `acczCheck` takes (log entry 78). -/
def accstCheck : IssueCheck := fun _ _ w x => do
  let m := insMod w
  let o ← checkOperand (insF w 1) x.regs 1 true
  noFlaw [(bitsOf m 7 6 ≠ 0 || bitsOf m 23 20 ≠ 0 || insAux w ≠ 0, (.reservedField, 0)),
          (insF w 2 ≠ 0, (.reservedField, 2)), (insF w 3 ≠ 0, (.reservedField, 3)),
          (64 < accFirst w + accCount w || (accFmt w).isNone || (accAdd w && accFmt w ≠ some 0), (.fieldRange, 0)),
          (o.rows * o.rowBytes ≠ accCount w * 4 * elemSize ((accFmt w).getD 0), (.fieldRange, 1))]
  pure ([], [o.extent])

def issueAccz (s : State) (r : Nat) : State := engineIssue 0x42 .mx acczCheck (fun _ _ _ => 0) s r
def issueAccst (s : State) (r : Nat) : State :=
  engineIssue 0x43 .mx accstCheck (fun _ _ nc => if ncStoConv nc then 1 else 0) s r

/-- ACCZ: its checks and its place in MX's queue (R162). -/
def execAccz (r : ReedIx) (s : State) : Out := .next (issueAccz s r)
/-- ACCST: its checks and its place in MX's queue (R162). -/
def execAccst (r : ReedIx) (s : State) : Out := .next (issueAccst s r)

/-! ### The bank (R163, R164) -/

/-- A bank element with the sums on their way to it: the newest of them is the one that will stand. -/
def Reed.bankAt (x : Reed) (i : Nat) : Val :=
  match (x.sums.filter (fun e => decide (e.1 = i))).getLast? with
  | some e => decodeLa e.2
  | none => decodeLa (KMap.get 0 x.bank i)

/-- Sums in the pipeline land in the order in which they left the array. -/
def Reed.land (x : Reed) : Reed :=
  { x with bank := x.sums.foldl (fun m e => KMap.put 0 m e.1 e.2) x.bank, sums := [] }

/-- Whether sums are on their way to rows FIRST to FIRST + COUNT − 1. -/
def Reed.rowsPending (x : Reed) (first count : Nat) : Bool :=
  x.sums.any (fun e => decide (first ≤ e.1 / 4) && decide (e.1 / 4 < first + count))

/-- The sums of a reed land, and the weathervane notes it. -/
def landSums (s : State) (r : Nat) : State :=
  (s.modReed r Reed.land).modSheaf (r / 4096) (fun sh => { sh with wv := sh.wv.land r })

/-- SUMS_LAND: sums already in the pipeline land, whatever the reed does (R164); the pipeline stands while the array clock is stopped
(R437). -/
def execSumsLand (r : ReedIx) (s : State) : Out :=
  .next (if (s.sheaf (r / 4096)).power = .awake && clockRuns s (r / 4096) then landSums s r else s)

/-! ### Operand values -/

/-- An element of `e` bytes at a scratchpad address. -/
def spElem (sp : KMap Byte) (addr e : Nat) : Nat := ofLe (KMap.bytes sp addr e)

/-- A running MMA's operands and fields. -/
structure MmaRun where
  f : MmaF
  a : Operand
  b : Operand
  c : Operand
  deriving DecidableEq, Repr

/-- The operands of a queued MMA, from the registers it captured. -/
def mmaRun (q : QEntry) : MmaRun :=
  { f := mmaF q.raw, a := operandOf (insF q.raw 1) q.regs, b := operandOf (insF q.raw 2) q.regs,
    c := operandOf (insF q.raw 3) q.regs }

def MmaRun.fmtA (u : MmaRun) : Nat := (mxFmt u.f.ta).getD 0
def MmaRun.fmtB (u : MmaRun) : Nat := (mxFmt u.f.tb).getD 0
def MmaRun.addrA (u : MmaRun) (m k : Nat) : Nat := u.a.base + m * u.a.stride + k * u.f.e
def MmaRun.addrB (u : MmaRun) (k n : Nat) : Nat := u.b.base + (k * u.f.n + n) * u.f.e

/-- The scale byte of A's block that holds (m, k) (R169). -/
def MmaRun.scaleA (u : MmaRun) (sp : KMap Byte) (m k : Nat) : Nat := spElem sp (u.c.base + m * (u.f.k / 32) + k / 32) 1
/-- The scale byte of B's block that holds (k, n). -/
def MmaRun.scaleB (u : MmaRun) (sp : KMap Byte) (k n : Nat) : Nat :=
  spElem sp (u.c.base + (if u.f.scaledA then u.a.rows * (u.f.k / 32) else 0) + 4 * (k / 32) + n) 1

/-- A[m, k] as the cell takes it (R155, R157, R168, R218). -/
def MmaRun.valA (u : MmaRun) (sp : KMap Byte) (ftz : Bool) (m k : Nat) : Val :=
  let v := decodeElem u.fmtA ftz (spElem sp (u.addrA m k) u.f.e)
  if u.f.scaledA then v.scaled (u.scaleA sp m k) else v

/-- B[k, n] as the cell takes it. -/
def MmaRun.valB (u : MmaRun) (sp : KMap Byte) (ftz : Bool) (k n : Nat) : Val :=
  let v := decodeElem u.fmtB ftz (spElem sp (u.addrB k n) u.f.e)
  if u.f.scaledB then v.scaled (u.scaleB sp k n) else v

/-! ### MMA and MMAF (R153, R154, R163, R167, R210) -/

/-- One output element as the row steps reach it. -/
structure ElemAcc where
  p : Val
  pos : Bool
  neg : Bool
  raised : Bool
  clamps : Nat
  evs : List TrapEv
  deriving DecidableEq, Repr

/-- Note an infinite term; INF_SUB is raised where infinities of both signs have first met (R221). -/
def ElemAcc.seen (x : ElemAcc) (v : Val) (ev : TrapEv) : ElemAcc :=
  let x := { x with pos := x.pos || decide (v.infSign = some false), neg := x.neg || decide (v.infSign = some true) }
  if x.pos && x.neg && !x.raised then { x with raised := true, evs := x.evs ++ [ev] } else x

/-- Note the products of a row step of one column: ZERO_INF and INF_SUB at their own k. -/
def ElemAcc.products (x : ElemAcc) (j m n k0 : Nat) (ps : List (Val × Val)) : ElemAcc :=
  (ps.zipIdx k0).foldl (fun x e =>
    let z := if zeroInf e.1.1 e.1.2 then { x with evs := x.evs ++ [⟨j, m, n, e.2, 1⟩] } else x
    z.seen (e.1.1.mul e.1.2) ⟨j, m, n, e.2, 2⟩) x

/-- Exact sum of a first term and products. -/
def sumProducts (p : Val) (ps : List (Val × Val)) : Val := ps.foldl (fun a e => a.add (e.1.mul e.2)) p

/-- The exact sum of the products alone. -/
def chunkSum : List (Val × Val) → Val
  | [] => .zero
  | e :: t => sumProducts (e.1.mul e.2) t

/-- One row step for one output element (R210, R167). -/
def ElemAcc.step (x : ElemAcc) (nc : W32) (dest : Bool) (u : Nat) (j m n k0 : Nat) (ps : List (Val × Val)) : ElemAcc :=
  let y := { x with pos := x.pos || decide (x.p.infSign = some false), neg := x.neg || decide (x.p.infSign = some true) }
  let y := y.products j m n k0 ps
  if dest then
    let e := encodeFp fp32 nc (ncSpill nc u) ((val32 (ncFtzIn nc) (bits32 x.p)).add (roundLa (chunkSum ps)))
    { y with p := val32 false e.bits, clamps := y.clamps + b2n e.clamp }
  else { y with p := roundLa (sumProducts x.p ps) }

/-- The products of chunk `j` of element (m, n). -/
def MmaRun.chunk (u : MmaRun) (sp : KMap Byte) (ftz : Bool) (j m n : Nat) : List (Val × Val) :=
  (List.range u.f.ks).map (fun i => (u.valA sp ftz m (j * u.f.ks + i), u.valB sp ftz (j * u.f.ks + i) n))

/-- Element (m, n) after its first `cs` chunks, from a starting value; `draw` gives each spill's u by the element's index in the output of
N columns (R159, R170, R215). -/
def MmaRun.elem (u : MmaRun) (sp : KMap Byte) (nc : W32) (start : Val) (draw : Nat → Nat → Nat) (m n cs : Nat) : ElemAcc :=
  (List.range cs).foldl
    (fun x j => x.step nc u.f.dest (draw j (u.f.n * m + n)) j m n (j * u.f.ks) (u.chunk sp (ncFtzIn nc) j m n))
    { p := start, pos := false, neg := false, raised := false, clamps := 0, evs := [] }

/-- The value an element starts from: +0 without ACC, else the bank's or the destination's (R163, R167, R210). -/
def MmaRun.start (u : MmaRun) (x : Reed) (nc : W32) (m n : Nat) : Val :=
  if !u.f.acc then .zero
  else if u.f.dest then val32 (ncFtzIn nc) (spElem x.sp (u.c.base + m * u.c.stride + 4 * n) 4)
  else x.bankAt (4 * (u.f.bank + m) + n)

/-- Chunks of element (m, ·) among the first `lim` row steps, which run through m within each chunk (R154). -/
def MmaRun.chunksOf (u : MmaRun) (lim m : Nat) : Nat := (lim + u.a.rows - 1 - m) / u.a.rows

/-- The output elements with their results after the first `lim` row steps. -/
def MmaRun.elems (u : MmaRun) (sh : Sheaf) (r : Nat) (q : QEntry) (x : Reed) (lim : Nat) : List (Nat × Nat × Nat × ElemAcc) :=
  (List.range u.a.rows).flatMap (fun m => (List.range u.f.n).map (fun n =>
    let cs := u.chunksOf lim m
    (m, n, cs, u.elem x.sp q.numctl (u.start x q.numctl m n) (drawU sh r q) m n cs)))

/-- Row steps of the whole instruction. -/
def MmaRun.steps (u : MmaRun) : Nat := u.a.rows * (u.f.k / u.f.ks)

/-- The reed and the clamps counted once the first `lim` row steps have been applied: sums enter the pipeline to the bank,
or the spilled FP32 elements stand in the scratchpad (R164, R167). -/
def mmaApply (sh : Sheaf) (r : Nat) (q : QEntry) (x : Reed) (lim : Nat) : Reed × Nat :=
  let u := mmaRun q
  let es := (u.elems sh r q x lim).filter (fun e => decide (0 < e.2.2.1))
  let clamps := (es.map (fun e => e.2.2.2.clamps)).sum
  if u.f.dest then
    ({ x with sp := es.foldl (fun sp e =>
        KMap.write sp (u.c.base + e.1 * u.c.stride + 4 * e.2.1) (leBytes 4 (bits32 e.2.2.2.p))) x.sp }, clamps)
  else
    ({ x with sums := x.sums ++ es.map (fun e => (4 * (u.f.bank + e.1) + e.2.1, encodeLa e.2.2.2.p)) }, 0)

/-- NaN operand elements and NaN block scales (R221): an A element is charged to its own row step at n = 0, a B element to
the first row step that uses it, a scale to its block's first k, a starting value to k 0. -/
def mmaConsumed (u : MmaRun) (x : Reed) (nc : W32) : List TrapEv :=
  let ks := u.f.ks
  let nanScale := fun (b : Nat) => decide (b = 0x80)
  let as := (List.range u.a.rows).flatMap (fun m => (List.range u.f.k).filterMap (fun k =>
    if u.f.scaledA && nanScale (u.scaleA x.sp m k) then
      (if k % 32 = 0 then some ⟨k / ks, m, 0, k, 5⟩ else none)
    else if (decodeElem u.fmtA false (spElem x.sp (u.addrA m k) u.f.e)).isNan then some ⟨k / ks, m, 0, k, 5⟩ else none))
  let bs := (List.range u.f.k).flatMap (fun k => (List.range u.f.n).filterMap (fun n =>
    if u.f.scaledB && nanScale (u.scaleB x.sp k n) then
      (if k % 32 = 0 then some ⟨k / ks, 0, n, k, 5⟩ else none)
    else if (decodeElem u.fmtB false (spElem x.sp (u.addrB k n) u.f.e)).isNan then some ⟨k / ks, 0, n, k, 5⟩ else none))
  let ds := (List.range u.a.rows).flatMap (fun m => (List.range u.f.n).filterMap (fun n =>
    if (u.start x nc m n).isNan then some ⟨0, m, n, 0, 5⟩ else none))
  as ++ bs ++ ds

/-- Every trap event of an MMA or MMAF (Table 8-9). -/
def mmaEvents (sh : Sheaf) (r : Nat) (q : QEntry) (x : Reed) : List TrapEv :=
  let u := mmaRun q
  mmaConsumed u x q.numctl ++ (u.elems sh r q x u.steps).flatMap (fun e => e.2.2.2.evs)

/-- The row step of a trap event. -/
def mmaStepOf (q : QEntry) (ev : TrapEv) : Nat := ev.chunk * (mmaRun q).a.rows + ev.m

/-! ### The weathervane's tap and checker (R261, R262) -/

/-- A captured element and its block's scale: source bits with a scale byte in bits [39:32], or, marked by bit 40 or 41, an FP32 or
INT32 fill. -/
def capVal (fmt : Nat) (w : W64) : Val × Option Nat :=
  let raw := w.toNat % 2 ^ 32
  if w.getLsbD 40 then (val32 false raw, none)
  else if w.getLsbD 41 then (decodeElem 0x0C false raw, none)
  else (decodeElem fmt false raw, if isBlockFmt fmt then some (w.toNat / 2 ^ 32 % 256) else none)

/-- The captured element of an address, if a capture holds it. -/
def capAt (caps : List Capture) (addr : Nat) : Option (Val × Option Nat) :=
  (caps.filterMap (fun c =>
    let o := addr - c.lo
    let p := c.rowBytes / c.dstSize
    let row := if c.stride = 0 then 0 else o / c.stride
    let col := (if c.stride = 0 then o else o % c.stride) / c.dstSize
    if c.lo ≤ addr ∧ addr < c.hi ∧ col < p then
      (c.elems[row * p + col]?).map (capVal c.fmt)
    else none)).getLast?

/-- A value as the checker takes it: converted to LM19, to nearest even (R262). -/
def toLm19 (v : Val) : Val := decodeFp lm19 false (encodeFp lm19 (0x400 : W32) .nearest v).bits

/-- A captured or scratchpad operand value in LM19, its block scale added to the exponent (R262). -/
def wideVal (caps : List Capture) (fmt addr raw : Nat) (scale : Option Nat) : Val :=
  let x := (capAt caps addr).getD (decodeElem fmt false raw, scale)
  match x.2 with
  | some b => (toLm19 x.1).scaled b
  | none => toLm19 x.1

/-- The narrow and wide FP32 values of the tapped elements of a sampled instruction (R261, R262). -/
def samplePairs (smp : Sample) (q : QEntry) (x : Reed) : List (W32 × W32) :=
  let u := mmaRun q
  let ftz := ncFtzIn q.numctl
  (List.range (min u.a.rows 64)).flatMap (fun m => (List.range u.f.n).map (fun n =>
    let narrow := (List.range (u.f.k / u.f.ks)).foldl (fun p j => roundLa (sumProducts p (u.chunk x.sp ftz j m n))) Val.zero
    let wide := (List.range u.f.k).foldl (fun p k =>
      let a := wideVal smp.caps u.fmtA (u.addrA m k) (spElem x.sp (u.addrA m k) u.f.e)
        (if u.f.scaledA then some (u.scaleA x.sp m k) else none)
      let b := wideVal smp.caps u.fmtB (u.addrB k n) (spElem x.sp (u.addrB k n) u.f.e)
        (if u.f.scaledB then some (u.scaleB x.sp k n) else none)
      round32 (p.add (a.mul b))) Val.zero
    (BitVec.ofNat 32 (bits32 (round32 narrow)), BitVec.ofNat 32 (bits32 wide))))

/-! ### ACCZ and ACCST (R166) -/

/-- ACCZ: the rows become zero. -/
def acczApply (q : QEntry) (x : Reed) : Reed :=
  { x with bank := (List.range (4 * accCount q.raw)).foldl (fun m i => KMap.del m (4 * accFirst q.raw + i)) x.bank }

/-- One converted element of an ACCST with its events. -/
structure AccOut where
  row : Nat
  enc : Enc
  evs : List TrapEv
  deriving DecidableEq, Repr

/-- Element `i` of the byte string of an ACCST, counted from its first row. DESIGN CHOICE (log entry 79): with ADD 1 the FP32 element and the
bank element are added exactly and rounded once, by the conversion; R166 names no rounding of the sum. -/
def accstElem (sh : Sheaf) (r : Nat) (q : QEntry) (x : Reed) (i : Nat) : AccOut :=
  let w := q.raw
  let o := operandOf (insF w 1) q.regs
  let row := accFirst w + i / 4
  let v := x.bankAt (4 * accFirst w + i)
  let d := val32 (ncFtzIn q.numctl) (spElem x.sp (o.addr (4 * i)) 4)
  let t := if accAdd w then d.add v else v
  let e := encodeElem ((accFmt w).getD 0) q.numctl (ncConv q.numctl (drawU sh r q 0 i)) t
  let ev := fun (c : Nat) => (⟨0, row, i % 4, 0, c⟩ : TrapEv)
  { row := row, enc := e,
    evs := (if v.isNan then [ev 5] else []) ++
      (if accAdd w then (if d.isNan then [ev 5] else []) ++ (if infSub d v then [ev 2] else []) else []) ++
      (if e.conv then [ev 3] else []) }

/-- Every converted element of an ACCST. -/
def accstElems (sh : Sheaf) (r : Nat) (q : QEntry) (x : Reed) : List AccOut :=
  (List.range (4 * accCount q.raw)).map (accstElem sh r q x)

/-- ACCST over its first `n` bank rows: they are written as one byte string, and zeroed under CLEAR (R166, R174). -/
def accstApply (sh : Sheaf) (r : Nat) (q : QEntry) (x : Reed) (n : Nat) : Reed × Nat :=
  let w := q.raw
  let o := operandOf (insF w 1) q.regs
  let es := (accstElems sh r q x).take (4 * n)
  let bs := es.flatMap (fun e => leBytes (elemSize ((accFmt w).getD 0)) e.enc.bits)
  ({ x with sp := o.write x.sp bs,
            bank := if accClear w then (List.range (4 * n)).foldl (fun m i => KMap.del m (4 * accFirst w + i)) x.bank
                    else x.bank },
   (es.map (fun e => b2n e.enc.clamp)).sum)

/-- Trap events of an ACCST. -/
def accstEvents (sh : Sheaf) (r : Nat) (q : QEntry) (x : Reed) : List TrapEv :=
  (accstElems sh r q x).flatMap (·.evs)

end Sys2Proof.Machine
end

