-- ==== Sys2Proof/Machine/Approx.lean ====
section
/-!
DEFINITION. Functions for which Table 7-4 gives an accuracy bound in units in the last place of the result (R186, R191, R211). The result is
any FP32 value that keeps the bound (log entry 7): the value that Config.boundedVew names where that one does, and otherwise the
nearest. RECIP and RSQRT are tested exactly; each of the other functions is computed here to a relative error below 2^-55.
-/

namespace Sys2Proof.Machine

/-- The value 1. -/
def Val.one : Val := .fin false 1 0
/-- A natural number. -/
def Val.nat (n : Nat) : Val := .fin false n 0

/-- Quotient of finite magnitudes with enough bits and a sticky bit, as an exact-rounding stand-in. -/
def quotVal (n : Bool) (m : Nat) (e : Int) (m' : Nat) (e' : Int) : Val :=
  let sh := Nat.log2 m' + 64 - Nat.log2 m
  let x := m * 2 ^ sh
  .fin n (2 * (x / m') + (if x % m' = 0 then 0 else 1)) (e - e' - sh - 1)

/-- A / B before rounding. -/
def Val.div (a b : Val) : Val :=
  match a, b with
  | .nan, _ => .nan
  | _, .nan => .nan
  | .inf _, .inf _ => .nan
  | .inf n, .fin n' _ _ => .inf (n != n')
  | .fin n _ _, .inf n' => .fin (n != n') 0 0
  | .fin n m e, .fin n' m' e' =>
    if m' = 0 then (if m = 0 then .nan else .inf (n != n'))
    else if m = 0 then .fin (n != n') 0 0
    else quotVal (n != n') m e m' e'

/-- ⌊√x⌋ for x below 4^k, bit by bit. -/
def isqrt (k x : Nat) : Nat :=
  (List.range k).foldl (fun a i => let b := a + 2 ^ (k - 1 - i); if b * b ≤ x then b else a) 0

/-- √ of a finite positive magnitude, 60 bits and a sticky bit. -/
def sqrtMag (m : Nat) (e : Int) : Val :=
  let k := 120 - Nat.log2 m
  let sh := if (e - k) % 2 = 0 then k else k + 1
  let x := m * 2 ^ sh
  let r := isqrt 64 x
  .fin false (2 * r + (if r * r = x then 0 else 1)) ((e - sh) / 2 - 1)

/-! ### Exponential and logarithm in fixed point, units of 2^-192 -/

/-- ln 2. -/
def ln2Fx : Nat := 4350955369971217654477563090224794165364344896676135745069

/-- e^r of a fixed-point r from 0 to ln 2: the first 48 terms of the series. -/
def expSeries (r : Nat) : Nat :=
  ((List.range 48).foldl (fun (a : Nat × Nat) i => (a.1 * r / 2 ^ 192 / (i + 1), a.2 + a.1)) (2 ^ 192, 0)).2

/-- e^x of a fixed-point x. -/
def expFx (x : Int) : Val := .fin false (expSeries (x - x / (ln2Fx : Int) * ln2Fx).toNat) (x / (ln2Fx : Int) - 192)

/-- A finite value in fixed point, toward minus infinity. -/
def toFx (n : Bool) (m : Nat) (e : Int) : Int :=
  let x : Int := if n then -(m : Int) else m
  if -192 ≤ e then x * 2 ^ (e + 192).toNat else x / 2 ^ (-192 - e).toNat

/-- A magnitude within `2 ^ k` of zero. -/
def inRange (k : Int) (m : Nat) (e : Int) : Bool := decide (m = 0) || decide (topBit m e < k)

/-- The natural logarithm of a positive magnitude: e ln 2 and twice the inverse hyperbolic tangent of (y - 1) / (y + 1) for its
mantissa y from 1 to 2. -/
def lnVal (m : Nat) (e : Int) : Val :=
  let b := Nat.log2 m
  let y := if b ≤ 192 then m * 2 ^ (192 - b) else m / 2 ^ (b - 192)
  let z := (y - 2 ^ 192) * 2 ^ 192 / (y + 2 ^ 192)
  let s := ((List.range 64).foldl (fun (a : Nat × Nat) i => (a.1 * z / 2 ^ 192 * z / 2 ^ 192, a.2 + a.1 / (2 * i + 1))) (z, 0)).2
  let t : Int := (e + b) * ln2Fx + 2 * s
  .fin (decide (t < 0)) t.natAbs (-192)

/-- 1 / (1 + e^-w) of a fixed-point w. -/
def sigmoidFx (w : Int) : Val :=
  let w := max (-(2 ^ 202 : Int)) (min w (2 ^ 202))
  Val.one.div (Val.one.add (expFx (-w)))

/-- The hyperbolic tangent of a finite value: its series below 2^-12, and (e^2x - 1) / (e^2x + 1) above. -/
def tanhVal (n : Bool) (m : Nat) (e : Int) : Val :=
  let x : Val := .fin n m e
  if inRange (-12) m e then
    let q := x.mul x
    (x.mul ((Val.nat 15).add ((q.mul (Val.nat 2)).add (Val.nat 5).negate |>.mul q))).div (Val.nat 15)
  else if inRange 7 m e then
    let t := expFx (2 * toFx n m e)
    (t.add Val.one.negate).div (t.add Val.one)
  else .fin n 1 0

/-- Twice the argument of the hyperbolic tangent in GELU, in fixed point (Table 7-4); it is clamped far beyond where GELU has reached A
or 0. -/
def geluArg (n : Bool) (m : Nat) (e : Int) : Int :=
  if inRange 8 m e then
    let a := toFx n m e
    2 * 79788456 * (a + 44715 * (a * a * a / 2 ^ 384) / 10 ^ 6) / 10 ^ 8
  else if n then -(2 ^ 202 : Int) else 2 ^ 202

/-! ### Results that keep a bound -/

/-- An FP32 result as a number with the weight of its last place; infinity stands at 2^128, one such weight above the largest value. -/
def placed (v : Val) : Option (Val × Int) :=
  match v with
  | .nan => none
  | .inf n => some (.fin n 1 128, 104)
  | .fin n m e => some (.fin n m e, if m = 0 then -149 else max (topBit m e - 23) (-149))

/-- The two ends of `n` units in the last place about an FP32 result. -/
def about (n : Nat) (v : Val) : Option (Val × Val) :=
  (placed v).map (fun p => (p.1.add (.fin true n p.2), p.1.add (.fin false n p.2)))

/-- A value is at most another. -/
def Val.atMost (a b : Val) : Bool := !a.isNan && !b.isNan && !b.lt a

/-- Whether an FP32 result lies within `n` units in its last place of a value. -/
def withinUlps (n : Nat) (t v : Val) : Bool :=
  match about n v with
  | some p => p.1.atMost t && t.atMost p.2
  | none => false

/-- The same of 1 / a, without division: both ends times a lie on the two sides of 1. -/
def recipWithin (n : Nat) (a v : Val) : Bool :=
  match about n v with
  | some p =>
    let l := p.1.mul a
    let h := p.2.mul a
    if a.lt .zero then h.atMost .one && Val.one.atMost l else l.atMost .one && Val.one.atMost h
  | none => false

/-- The same of 1 / √a, without division or root: the squares of both ends times a lie on the two sides of 1. -/
def rsqrtWithin (n : Nat) (a v : Val) : Bool :=
  match about n v with
  | some p =>
    (p.1.atMost .zero || ((p.1.mul p.1).mul a).atMost .one) && Val.zero.lt p.2 && Val.one.atMost ((p.2.mul p.2).mul a)
  | none => false

/-- The result of a function at `a`: the free value where it keeps the bound, and otherwise the FP32 value nearest to `t`. -/
def keepBound (fn : Nat) (a t : Val) (ok : Val → Bool) : Val :=
  let v := val32 false (Config.boundedVew fn (BitVec.ofNat 32 (bits32 a))).toNat
  if ok v then v else round32 t

end Sys2Proof.Machine
end

