-- ==== Sys2Proof/Machine/VxFp.lean ====
section
/-!
DEFINITION. FP32 functions of the vector engine (R186, R211): each gives its result rounded to FP32 and the trap causes of
Table 8-9 that it raises; functions for which the spec gives an accuracy bound take a free value within it (log entry 7).
-/

namespace Sys2Proof.Machine

/-- A result with the causes raised in forming it. -/
structure FR where
  v : Val
  causes : List Nat
  deriving DecidableEq, Repr

/-- A + B. -/
def fAdd (a b : Val) : FR := ⟨round32 (a.add b), if infSub a b then [2] else []⟩
/-- A − B. -/
def fSub (a b : Val) : FR := fAdd a b.negate
/-- A × B. -/
def fMul (a b : Val) : FR := ⟨round32 (a.mul b), if zeroInf a b then [1] else []⟩
/-- A × B + D with one rounding. -/
def fFma (a b d : Val) : FR :=
  let p := a.mul b
  ⟨round32 (p.add d), (if zeroInf a b then [1] else []) ++ (if infSub p d then [2] else [])⟩

/-- The smaller of two values: −0 below +0, NaN when either is NaN (R211). -/
def fMin (a b : Val) : Val := if a.isNan || b.isNan then .nan else if b.lt a then b else a
/-- The larger of two values. -/
def fMax (a b : Val) : Val := if a.isNan || b.isNan then .nan else if a.lt b then b else a

/-- A / B, correctly rounded; 0/0 and ∞/∞ are DOMAIN. -/
def fDiv (a b : Val) : FR :=
  ⟨round32 (a.div b), if (a.isZero && b.isZero) || (a.infSign.isSome && b.infSign.isSome) then [4] else []⟩

/-- Whether a value is negative and not zero. -/
def Val.below (v : Val) : Bool :=
  match v with
  | .nan => false
  | .inf n => n
  | .fin n m _ => n && decide (m ≠ 0)

/-- √A, correctly rounded; a negative non-zero A is DOMAIN. -/
def fSqrt (a : Val) : FR :=
  if a.below then ⟨.nan, [4]⟩
  else match a with
  | .fin _ m e => if m = 0 then ⟨a, []⟩ else ⟨round32 (sqrtMag m e), []⟩
  | v => ⟨v, []⟩

/-- 1 / A within one unit in the last place; RECIP(±0) is ±∞ (R211). -/
def fRecip (a : Val) : FR :=
  match a with
  | .fin _ m _ => if m = 0 then ⟨Val.one.div a, []⟩ else ⟨keepBound 0x09 a (Val.one.div a) (recipWithin 1 a), []⟩
  | _ => ⟨Val.one.div a, []⟩

/-- 1 / √A within one unit in the last place; RSQRT of a negative non-zero A is DOMAIN. -/
def fRsqrt (a : Val) : FR :=
  if a.below then ⟨.nan, [4]⟩
  else match a with
  | .fin n m e => if m = 0 then ⟨.inf n, []⟩ else ⟨keepBound 0x0C a (Val.one.div (sqrtMag m e)) (rsqrtWithin 1 a), []⟩
  | .inf _ => ⟨.zero, []⟩
  | .nan => ⟨.nan, []⟩

/-- e^A within two units in the last place; it overflows to infinity (R211). -/
def fExp (a : Val) : FR :=
  match a with
  | .nan => ⟨.nan, []⟩
  | .inf n => ⟨if n then .zero else .inf false, []⟩
  | .fin n m e =>
    let t := expFx (toFx n m e)
    if inRange 8 m e then ⟨keepBound 0x0D a t (withinUlps 2 t), []⟩
    else if n then ⟨keepBound 0x0D a .zero (withinUlps 2 .zero), []⟩ else ⟨.inf false, []⟩

/-- ln A within two units in the last place: LOG(±0) is −∞; a negative non-zero A is DOMAIN (R211). -/
def fLog (a : Val) : FR :=
  if a.below then ⟨.nan, [4]⟩
  else match a with
  | .nan => ⟨.nan, []⟩
  | .inf _ => ⟨.inf false, []⟩
  | .fin _ m e => if m = 0 then ⟨.inf true, []⟩ else ⟨keepBound 0x0E a (lnVal m e) (withinUlps 2 (lnVal m e)), []⟩

/-- TANH, SIGMOID, GELU and SILU within four units in the last place. At an infinity their expressions in Table 7-4 give ±1, 1 or 0, and
+∞; GELU and SILU of −∞ are 0 times ∞ and ∞ / ∞ there while they tend to −0, and the value is left free (log entry 7). -/
def fBounded (fn : Nat) (a : Val) : FR :=
  match a with
  | .nan => ⟨.nan, []⟩
  | .inf n =>
    if fn = 0x0F then ⟨.fin n 1 0, []⟩
    else if fn = 0x10 then ⟨if n then .zero else .one, []⟩
    else if n then
      let v := val32 false (Config.boundedVew fn (BitVec.ofNat 32 (bits32 a))).toNat
      ⟨v, if v.isNan then [4] else []⟩
    else ⟨a, []⟩
  | .fin n m e =>
    let w := if inRange 10 m e then toFx n m e else if n then -(2 ^ 202 : Int) else 2 ^ 202
    let t := if fn = 0x0F then tanhVal n m e else if fn = 0x10 then sigmoidFx w
      else if fn = 0x11 then a.mul (sigmoidFx (geluArg n m e)) else a.mul (sigmoidFx w)
    ⟨keepBound fn a t (withinUlps 4 t), []⟩

/-- The sign of a value for OPT FORM 1: −1, +0 or +1; NaN for NaN (R270). -/
def fSign (a : Val) : Val :=
  match a with
  | .nan => .nan
  | .inf n => .fin n 1 0
  | .fin n m _ => if m = 0 then .zero else .fin n 1 0

/-- A floating-point VEW function of its operands (Table 7-4); any NaN operand gives the canonical NaN. -/
def vewFp (fn : Nat) (a b d : Val) : FR :=
  match fn with
  | 0x00 => fAdd a b
  | 0x01 => fSub a b
  | 0x02 => fMul a b
  | 0x03 => fFma a b d
  | 0x04 => ⟨fMin a b, []⟩
  | 0x05 => ⟨fMax a b, []⟩
  | 0x06 => ⟨a.abs, []⟩
  | 0x07 => ⟨a.negate, []⟩
  | 0x08 => ⟨a, []⟩
  | 0x09 => fRecip a
  | 0x0A => fDiv a b
  | 0x0B => fSqrt a
  | 0x0C => fRsqrt a
  | 0x0D => fExp a
  | 0x0E => fLog a
  | n => fBounded n a

/-- An integer VEW function (Table 7-4). -/
def vewInt (fn : Nat) (a b : BitVec 32) : BitVec 32 :=
  match fn with
  | 0x20 => a + b
  | 0x21 => a - b
  | 0x22 => a * b
  | 0x23 => a &&& b
  | 0x24 => a ||| b
  | 0x25 => a ^^^ b
  | 0x26 => if a.toInt ≤ b.toInt then a else b
  | 0x27 => if a.toInt ≤ b.toInt then b else a
  | 0x28 => a <<< (b.toNat % 32)
  | 0x29 => a >>> (b.toNat % 32)
  | _ => a.sshiftRight (b.toNat % 32)

/-! ### Sums in LA40 (R188) -/

/-- A partial sum in LA40, its first term standing alone. -/
def laSum : List Val → Val
  | [] => .zero
  | a :: t => t.foldl (fun p v => roundLa (p.add v)) (roundLa a)

/-- The eight lane partial sums and their tree (R188). -/
def laneSum (l : List Val) : Val :=
  let p := fun (k : Nat) => laSum ((l.zipIdx.filter (fun e => decide (e.2 % 8 = k))).map (·.1))
  let add := fun (a b : Val) => roundLa (a.add b)
  add (add (add (p 0) (p 1)) (add (p 2) (p 3))) (add (add (p 4) (p 5)) (add (p 6) (p 7)))

/-- The smallest position at which infinities of both signs have occurred (R221). -/
def infSubAt (l : List Val) : Option Nat :=
  let at' := fun (n : Bool) => (l.findIdx? (fun v => decide (v.infSign = some n)))
  match at' false, at' true with
  | some a, some b => some (max a b)
  | _, _ => none

/-- The position of the largest, or smallest, value; the lowest position wins a tie (R188). -/
def bestAt (hi : Bool) (l : List Val) : Nat :=
  (l.zipIdx.foldl (fun (b : Nat × Option Val) e =>
    match b.2 with
    | none => (e.2, some e.1)
    | some v => if (if hi then v.lt e.1 else e.1.lt v) then (e.2, some e.1) else b) (0, none)).1

end Sys2Proof.Machine
end

