-- ==== Sys2Proof/Machine/Vx.lean ====
section
/-!
DEFINITION. The issue of the vector engine's instructions (chapter 7): operands (R176 to R182) and the checks of Table 7-12
(R479), instruction by instruction.
-/

namespace Sys2Proof.Machine

/-! ### What a check needs -/

/-- Bytes of a VX element type (Table 7-1). -/
def vxSize (t : Nat) : Nat := if t = 1 ∨ t = 2 then 2 else 4
/-- Whether a type code is a floating-point type. -/
def vxFloat (t : Nat) : Bool := decide (t < 3)
/-- Whether a type code is INT32. -/
def vxInt (t : Nat) : Bool := decide (t = 3)

/-- An operand of a VX instruction: its field, whether it is in the cache, element size, elements, whether it is written. -/
structure VOpd where
  field : Nat
  cache : Bool
  e : Nat
  count : Nat
  dest : Bool
  deriving DecidableEq, Repr

/-- Entries a cache operand occupies (R180). -/
def cacheEntries (n e : Nat) : Nat := ceilDiv (n * e) 16

/-- What an instruction gives to the checks of Table 7-12. `descs` lists the fields holding scratchpad descriptors, with
whether each is a destination; `reserved` and `kinds` are checks 2 and 3; `late` are checks 7 and 8; `exact` says that a
destination may coincide with a source; `record` is a further source extent. -/
structure VSpec where
  descs : List (Nat × Bool)
  reserved : List (Bool × Flaw)
  kinds : List Bool
  useVl : Bool
  opds : List VOpd
  late : List (Bool × Flaw)
  pairs : List (Nat × Nat × Bool)
  record : List (Nat × Nat)

/-- Reserved bits of a cache operand field (Table 7-2). -/
def cacheReserved (w : BitVec 256) (f : Nat) (cache : Bool) : Bool × Flaw :=
  (cache && insF w f / 32 ≠ 0, (.reservedField, f))

/-- Elements a descriptor holds (R177). -/
def Operand.capacity (o : Operand) (e : Nat) : Nat := o.rows * (o.rowBytes / e)

/-- The storage an operand names: in the cache, entries as bytes; else its whole extent, with the gaps between its rows and what lies beyond
its VL elements. DESIGN CHOICE: R182 does not say that overlap is judged on whole extents (log entry 78). -/
def vopdSpan (w : BitVec 256) (regs : Vector W32 16) (o : VOpd) : Nat × Nat :=
  if o.cache then (insF w o.field % 32, insF w o.field % 32 + cacheEntries o.count o.e)
  else (operandOf (insF w o.field) regs).extent

/-- Whether a destination and a source coincide exactly (R182). DESIGN CHOICE: "the same descriptor" is taken as the same effective base and
shape, not the same raw fields (log entry 78). -/
def sameOperand (w : BitVec 256) (regs : Vector W32 16) (a b : VOpd) : Bool :=
  decide (a.e = b.e) &&
  (if a.cache then decide (insF w a.field % 32 = insF w b.field % 32)
   else decide (operandOf (insF w a.field) regs = operandOf (insF w b.field) regs))

/-- A destination and a source overlap otherwise than allowed (check 9). -/
def badOverlap (w : BitVec 256) (regs : Vector W32 16) (exact : Bool) (d a : VOpd) : Bool :=
  decide (d.cache = a.cache) && !(exact && sameOperand w regs d a) &&
  extOverlap (vopdSpan w regs d) (vopdSpan w regs a)

/-- The first failing descriptor check, in F1, F2, F3 order (check 1). -/
def vxDescs (w : BitVec 256) (regs : Vector W32 16) : List (Nat × Bool) → Except Flaw Unit
  | [] => .ok ()
  | (f, d) :: t => match checkOperand (insF w f) regs f d with
    | .error e => .error e
    | .ok _ => vxDescs w regs t

/-- The operand of a field. -/
def VSpec.opd (v : VSpec) (f : Nat) : Option VOpd := v.opds.find? (fun o => o.field = f)

/-- The overlaps of check 9: each listed pair of fields, and every destination against the record. -/
def VSpec.overlaps (v : VSpec) (w : BitVec 256) (regs : Vector W32 16) : Bool :=
  v.pairs.any (fun p => match v.opd p.1, v.opd p.2.1 with
    | some d, some a => badOverlap w regs p.2.2 d a
    | _, _ => false) ||
  v.opds.any (fun o => o.dest && !o.cache && v.record.any (fun e => extOverlap e (vopdSpan w regs o)))

/-- The checks of Table 7-12 in order, and the extents of the scratchpad operands. -/
def vxCheck (v : VSpec) (w : BitVec 256) (x : Reed) : Except Flaw (List (Nat × Nat) × List (Nat × Nat)) := do
  vxDescs w x.regs v.descs
  noFlaw (v.reserved ++
    [(v.kinds.any (fun b => b), (.fieldRange, 0)), (v.useVl && decide (6144 < x.vl.toNat), (.fieldRange, 0))] ++
    v.opds.map (fun o => (o.cache && decide (32 < insF w o.field % 32 + cacheEntries o.count o.e), (.fieldRange, o.field))) ++
    v.opds.map (fun o => (!o.cache && decide ((operandOf (insF w o.field) x.regs).capacity o.e < o.count),
      (.fieldRange, o.field))) ++
    v.late ++ [(v.overlaps w x.regs, (.fieldRange, 3))])
  let ext := fun (d : Bool) => (v.opds.filter (fun o => !o.cache && decide (o.dest = d))).map (vopdSpan w x.regs)
  pure (ext false ++ v.record, ext true)

/-- Issue a VX instruction. -/
def vxIssue (opc : Nat) (spec : State → Nat → BitVec 256 → Reed → VSpec) (passes : BitVec 256 → Reed → W32 → Nat)
    (s : State) (r : Nat) : State :=
  engineIssue opc .vx (fun s r w x => vxCheck (spec s r w x) w x) passes s r

/-- The vector length an instruction works on; an illegal one is found by check 4. -/
def Reed.len (x : Reed) : Nat := x.vl.toNat

/-- One rounding pass when a condition holds and conversions round stochastically (R215). -/
def onePass (c : BitVec 256 → Bool) (w : BitVec 256) (_ : Reed) (nc : W32) : Nat := if c w && ncStoConv nc then 1 else 0

/-- A narrowing result type. -/
def narrowType (t : Nat) : Bool := decide (t = 1 ∨ t = 2)

/-! ### VEW (Tables 7-3, 7-4) -/

def vewFn (w : BitVec 256) : Nat := bitsOf (insMod w) 5 0
def vewBsc (w : BitVec 256) : Bool := bitOf (insMod w) 6
def vewTa (w : BitVec 256) : Nat := bitsOf (insMod w) 10 8
def vewTb (w : BitVec 256) : Nat := bitsOf (insMod w) 13 11
def vewTd (w : BitVec 256) : Nat := bitsOf (insMod w) 16 14
def vewCa (w : BitVec 256) : Bool := bitOf (insMod w) 17
def vewCb (w : BitVec 256) : Bool := bitOf (insMod w) 18
def vewCd (w : BitVec 256) : Bool := bitOf (insMod w) 19

/-- Functions of one operand. -/
def vewUnary (fn : Nat) : Bool := [0x06, 0x07, 0x08, 0x09, 0x0B, 0x0C, 0x0D, 0x0E, 0x0F, 0x10, 0x11, 0x12, 0x30, 0x31].contains fn
/-- Integer functions. -/
def vewIsInt (fn : Nat) : Bool := decide (0x20 ≤ fn) && decide (fn ≤ 0x2A)
/-- Functions of two operands, FMA among them. -/
def vewBinary (fn : Nat) : Bool := [0x00, 0x01, 0x02, 0x03, 0x04, 0x05, 0x0A].contains fn || vewIsInt fn

/-- Whether the operand types suit the function (R186); `bUsed` says that B's type counts. -/
def vewTypesOk (fn ta tb td : Nat) (bUsed : Bool) : Bool :=
  if vewIsInt fn then vxInt ta && vxInt td && (!bUsed || vxInt tb)
  else if fn = 0x30 then vxInt ta && vxFloat td
  else if fn = 0x31 then vxFloat ta && vxInt td
  else vxFloat ta && vxFloat td && (!bUsed || vxFloat tb)

def vewSpec (_ : State) (_ : Nat) (w : BitVec 256) (x : Reed) : VSpec :=
  let fn := vewFn w
  let two := vewBinary fn
  let mem := two && !vewBsc w
  let vl := x.len
  { descs := (if vewCa w then [] else [(1, false)]) ++ (if mem && !vewCb w then [(2, false)] else []) ++
      (if vewCd w then [] else [(3, true)]),
    reserved := [
      (bitOf (insMod w) 7 || bitsOf (insMod w) 23 20 ≠ 0 || insAux w ≠ 0 ||
        (vewUnary fn && (vewBsc w || vewCb w || vewTb w ≠ 0)) || (two && vewBsc w && vewTb w ≠ 0), (.reservedField, 0)),
      cacheReserved w 1 (vewCa w),
      ((vewUnary fn && insF w 2 ≠ 0) || (two && vewBsc w && insF w 2 / 16 ≠ 0), (.reservedField, 2)),
      cacheReserved w 2 (mem && vewCb w), cacheReserved w 3 (vewCd w)],
    kinds := [!(two || vewUnary fn), two && vewBsc w && (vewCb w || insF w 2 % 16 = 0),
      3 < vewTa w || 3 < vewTb w || 3 < vewTd w, !vewTypesOk fn (vewTa w) (vewTb w) (vewTd w) mem],
    useVl := true,
    opds := [⟨1, vewCa w, vxSize (vewTa w), vl, false⟩] ++ (if mem then [⟨2, vewCb w, vxSize (vewTb w), vl, false⟩] else []) ++
      [⟨3, vewCd w, vxSize (vewTd w), vl, true⟩],
    late := [], pairs := [(3, 1, true), (3, 2, true)], record := [] }

/-- A VEW rounds stochastically where it converts (R212). -/
def vewConverts (w : BitVec 256) : Bool := decide (vewFn w = 0x30) || decide (vewFn w = 0x31) || narrowType (vewTd w)

def issueVew (s : State) (r : Nat) : State := vxIssue 0x60 vewSpec (onePass vewConverts) s r
/-- VEW: its checks and its place in VX's queue (R185, R479). -/
def execVew (r : ReedIx) (s : State) : Out := .next (issueVew s r)

/-! ### VRED, VSCAN, VSSCAN (Table 7-5) -/

def redFn (w : BitVec 256) : Nat := bitsOf (insMod w) 3 0
def redTa (w : BitVec 256) : Nat := bitsOf (insMod w) 6 4
def redTd (w : BitVec 256) : Nat := bitsOf (insMod w) 9 7
def redCa (w : BitVec 256) : Bool := bitOf (insMod w) 10
def redCd (w : BitVec 256) : Bool := bitOf (insMod w) 11
def redExcl (w : BitVec 256) : Bool := bitOf (insMod w) 12
/-- G as written (Tables 7-5, 7-6). -/
def redG (w : BitVec 256) : Nat := bitsOf (insAux w) 12 0

/-- The group size in force: G 0, or at or above VL, gives one group (R188). -/
def groupSize (g vl : Nat) : Nat := if g = 0 ∨ vl ≤ g then vl else g
/-- The number of groups. -/
def groupCount (g vl : Nat) : Nat := if vl = 0 then 0 else ceilDiv vl (groupSize g vl)

/-- Legal types of VRED and the scans (R188, R189). -/
def redTypesOk (fn ta td : Nat) : Bool :=
  if fn = 4 ∨ fn = 5 then decide (ta ≤ 3) && vxInt td
  else if fn = 1 ∨ fn = 6 then vxFloat ta && vxFloat td
  else (vxInt ta && vxInt td) || (vxFloat ta && vxFloat td)

def redSpec (_ : State) (_ : Nat) (w : BitVec 256) (x : Reed) : VSpec :=
  let opc := insOpc w
  let red := decide (opc = 0x61)
  let vl := x.len
  { descs := (if redCa w then [] else [(1, false)]) ++ (if opc = 0x63 then [(2, false)] else []) ++
      (if redCd w then [] else [(3, true)]),
    reserved := [
      (bitsOf (insMod w) 23 13 ≠ 0 || (red && redExcl w) || (if red then bitsOf (insAux w) 31 13 ≠ 0 else insAux w ≠ 0),
        (.reservedField, 0)),
      cacheReserved w 1 (redCa w), (opc ≠ 0x63 && insF w 2 ≠ 0, (.reservedField, 2)), cacheReserved w 3 (redCd w)],
    kinds := [if red then 6 < redFn w else !([0, 2, 3].contains (redFn w)), red && 6144 < redG w,
      3 < redTa w || 3 < redTd w, !redTypesOk (redFn w) (redTa w) (redTd w)],
    useVl := true,
    opds := [⟨1, redCa w, vxSize (redTa w), vl, false⟩] ++
      (if opc = 0x63 then [⟨2, false, 1, ceilDiv vl 8, false⟩] else []) ++
      [⟨3, redCd w, vxSize (redTd w), if red then groupCount (redG w) vl else vl, true⟩],
    late := [], pairs := [(3, 1, true), (3, 2, true)], record := [] }

def redConverts (w : BitVec 256) : Bool := narrowType (redTd w)

def issueVred (s : State) (r : Nat) : State := vxIssue 0x61 redSpec (onePass redConverts) s r
def issueVscan (s : State) (r : Nat) : State := vxIssue 0x62 redSpec (onePass redConverts) s r
def issueVsscan (s : State) (r : Nat) : State := vxIssue 0x63 redSpec (onePass redConverts) s r
/-- VRED: its checks and its place in VX's queue (R187, R188). -/
def execVred (r : ReedIx) (s : State) : Out := .next (issueVred s r)
/-- VSCAN: its checks and its place in VX's queue (R189). -/
def execVscan (r : ReedIx) (s : State) : Out := .next (issueVscan s r)
/-- VSSCAN: its checks and its place in VX's queue (R189). -/
def execVsscan (r : ReedIx) (s : State) : Out := .next (issueVsscan s r)

/-! ### VWIDE (Tables 7-6, 7-7) -/

def wideFn (w : BitVec 256) : Nat := bitsOf (insMod w) 3 0
def wideTa (w : BitVec 256) : Nat := bitsOf (insMod w) 6 4
def wideTb (w : BitVec 256) : Nat := bitsOf (insMod w) 9 7
def wideTd (w : BitVec 256) : Nat := bitsOf (insMod w) 12 10
def wideEps (w : BitVec 256) : Nat := bitsOf (insMod w) 16 13

/-- Whether a function reads F2. -/
def wideHasB (fn : Nat) : Bool := [2, 3, 4, 5].contains fn
/-- The length of γ and β. -/
def wideG (w : BitVec 256) (vl : Nat) : Nat := if redG w = 0 then vl else redG w
/-- Elements of F2 (R191). -/
def wideCountB (w : BitVec 256) (vl : Nat) : Nat :=
  match wideFn w with
  | 2 => 2 * wideG w vl
  | 3 => wideG w vl
  | 4 => groupCount (redG w) vl
  | _ => vl
/-- Elements of D (R191). -/
def wideCountD (w : BitVec 256) (vl : Nat) : Nat :=
  match wideFn w with
  | 4 => groupCount (redG w) vl
  | 6 => 2 * groupCount (redG w) vl
  | _ => vl

/-- Legal types of VWIDE: floating point throughout, the targets of XENT INT32, the statistics of LNSTAT FP32 (R191). -/
def wideTypesOk (w : BitVec 256) : Bool :=
  let fn := wideFn w
  vxFloat (wideTa w) && vxFloat (wideTd w) &&
  (if fn = 4 then vxInt (wideTb w) else !wideHasB fn || vxFloat (wideTb w)) && (fn ≠ 6 || wideTd w = 0)

def wideSpec (_ : State) (_ : Nat) (w : BitVec 256) (x : Reed) : VSpec :=
  let fn := wideFn w
  let vl := x.len
  { descs := [(1, false)] ++ (if wideHasB fn then [(2, false)] else []) ++ [(3, true)],
    reserved := [(bitsOf (insMod w) 23 17 ≠ 0 || bitsOf (insAux w) 31 13 ≠ 0, (.reservedField, 0)),
      (fn < 7 && !wideHasB fn && insF w 2 ≠ 0, (.reservedField, 2))],
    kinds := [6 < fn, 6144 < redG w, 3 < wideTa w || 3 < wideTb w || 3 < wideTd w, !wideTypesOk w],
    useVl := true,
    opds := [⟨1, false, vxSize (wideTa w), vl, false⟩] ++
      (if wideHasB fn then [⟨2, false, vxSize (wideTb w), if vl = 0 then 0 else wideCountB w vl, false⟩] else []) ++
      [⟨3, false, vxSize (wideTd w), wideCountD w vl, true⟩],
    late := [], pairs := [(3, 1, true), (3, 2, true)], record := [] }

def issueVwide (s : State) (r : Nat) : State := vxIssue 0x64 wideSpec (onePass (fun w => narrowType (wideTd w))) s r
/-- VWIDE: its checks and its place in VX's queue (R190, R191). -/
def execVwide (r : ReedIx) (s : State) : Out := .next (issueVwide s r)

/-! ### VRNG (Table 7-8) -/

def rngForm (w : BitVec 256) : Nat := bitsOf (insMod w) 2 0
def rngT (w : BitVec 256) : Nat := bitsOf (insMod w) 6 3
def rngS (w : BitVec 256) : Nat := bitsOf (insMod w) 10 7
def rngLo (w : BitVec 256) : Nat := bitsOf (insMod w) 14 11
def rngHi (w : BitVec 256) : Nat := bitsOf (insMod w) 18 15
def rngType (w : BitVec 256) : Nat := bitsOf (insMod w) 21 19

def rngSpec (s : State) (r : Nat) (w : BitVec 256) (x : Reed) : VSpec :=
  let fm := rngForm w
  let vl := x.len
  { descs := (if fm = 3 then [(1, false)] else []) ++ [(3, true)],
    reserved := [
      (bitsOf (insMod w) 23 22 ≠ 0 || insAux w ≠ 0 || (fm < 2 && rngT w ≠ 0) || (fm < 3 && (rngS w ≠ 0 || rngType w ≠ 0)),
        (.reservedField, 0)),
      (fm < 3 && insF w 1 ≠ 0, (.reservedField, 1)), (insF w 2 ≠ 0, (.reservedField, 2))],
    kinds := [3 < fm, 2 < rngType w],
    useVl := true,
    opds := (if fm = 3 then [⟨1, false, vxSize (rngType w), vl, false⟩] else []) ++
      [if fm = 2 then ⟨3, false, 1, ceilDiv vl 8, true⟩ else ⟨3, false, if fm = 3 then vxSize (rngType w) else 4, vl, true⟩],
    late := [(if x.rngMode then !keyValid (s.sheaf (r / 4096)) x else alwaysKeyed s (r / 4096), (.fieldRange, 0))],
    pairs := [(3, 1, true)], record := [] }

def rngConverts (w : BitVec 256) : Bool := decide (rngForm w = 3) && narrowType (rngType w)

def issueVrng (s : State) (r : Nat) : State := vxIssue 0x65 rngSpec (onePass rngConverts) s r
/-- VRNG: its checks, the key and the mode among them, and its place in VX's queue (R195 to R197). -/
def execVrng (r : ReedIx) (s : State) : Out := .next (issueVrng s r)

/-! ### OPT (Table 7-9) -/

def optForm (w : BitVec 256) : Nat := bitsOf (insMod w) 1 0
def optParam (w : BitVec 256) : Nat := bitsOf (insMod w) 3 2
def optHp (w : BitVec 256) : Nat := bitsOf (insMod w) 7 4

/-- Bytes of a moment string (R271, R272). -/
def momentBytes (form vl : Nat) : Nat :=
  match form with
  | 0 => 80 * ceilDiv vl 32
  | 1 => 48 * ceilDiv vl 32
  | _ => 32 * ceilDiv vl 4

/-- The address of the hyperparameter record. -/
def optRecord (w : BitVec 256) (regs : Vector W32 16) : Nat := (regs.toList[optHp w]?).elim 0 BitVec.toNat

/-- Elements of a parameter. -/
def optSize (w : BitVec 256) : Nat := if optParam w = 1 then 2 else 4

def optSpec (_ : State) (_ : Nat) (w : BitVec 256) (x : Reed) : VSpec :=
  let vl := x.len
  let rec' := optRecord w x.regs
  { descs := [(1, true), (2, false), (3, true)],
    reserved := [(bitsOf (insMod w) 23 8 ≠ 0 || insAux w ≠ 0, (.reservedField, 0))],
    kinds := [optForm w = 3, 1 < optParam w, optHp w = 0],
    useVl := true,
    opds := [⟨1, false, optSize w, vl, true⟩, ⟨2, false, 4, vl, false⟩, ⟨3, false, 1, momentBytes (optForm w) vl, true⟩],
    late := [(rec' % 16 ≠ 0, (.align, 0)), (0x2FC0 < rec', (.bound, 0))],
    pairs := [(3, 1, false), (1, 2, true), (3, 2, false)], record := [(rec', rec' + 64)] }

/-- OPT counts a pass when it stores anything with stochastic rounding (R268). -/
def optPasses (w : BitVec 256) (_ : Reed) (_ : W32) : Nat := if optForm w < 2 || optParam w = 1 then 1 else 0

def issueOpt (s : State) (r : Nat) : State := vxIssue 0x66 optSpec optPasses s r
/-- OPT: its checks and its place in VX's queue (R198). -/
def execOpt (r : ReedIx) (s : State) : Out := .next (issueOpt s r)

/-! ### VCLD, VCST (R181) -/

def cacheSpec (_ : State) (_ : Nat) (w : BitVec 256) (x : Reed) : VSpec :=
  let st := decide (insOpc w = 0x68)
  let o := operandOf (insF w 1) x.regs
  { descs := [(1, st)],
    reserved := [(bitsOf (insMod w) 23 5 ≠ 0 || insAux w ≠ 0, (.reservedField, 0)), (insF w 2 ≠ 0, (.reservedField, 2)),
      (insF w 3 ≠ 0, (.reservedField, 3))],
    kinds := [], useVl := false, opds := [⟨1, false, 1, 0, st⟩],
    late := [(32 < insMod w % 32 + o.rows * o.rowBytes / 16, (.fieldRange, 1))], pairs := [], record := [] }

def issueVcld (s : State) (r : Nat) : State := vxIssue 0x67 cacheSpec (fun _ _ _ => 0) s r
def issueVcst (s : State) (r : Nat) : State := vxIssue 0x68 cacheSpec (fun _ _ _ => 0) s r
/-- VCLD: its checks and its place in VX's queue. -/
def execVcld (r : ReedIx) (s : State) : Out := .next (issueVcld s r)
/-- VCST: its checks and its place in VX's queue. -/
def execVcst (r : ReedIx) (s : State) : Out := .next (issueVcst s r)

end Sys2Proof.Machine
end

