-- ==== Sys2Proof/Machine/VxRun.lean ====
section
/-!
DEFINITION. What the vector engine's instructions do when they run (R184 to R200, R268 to R272): each is a list of units, the
steps of eight elements or the groups that a halting trap cuts between (R200), with what every unit writes, the clamps it
counts and the trap events it raises.
-/

namespace Sys2Proof.Machine

/-! ### Reading and writing elements (R177, R180) -/

/-- Where a running instruction's operand is. -/
inductive VLoc
  | sp (o : Operand)
  | cache (first : Nat)
  | scalar (v : Nat)
  deriving DecidableEq, Repr

/-- The operand in a field, in the cache or the scratchpad. -/
def vloc (q : QEntry) (f : Nat) (cache : Bool) : VLoc :=
  if cache then .cache (insF q.raw f % 32) else .sp (operandOf (insF q.raw f) q.regs)

/-- Scratchpad address of element `i` (R177). -/
def elemAddr (o : Operand) (e i : Nat) : Nat :=
  let p := o.rowBytes / e
  o.base + (i / p) * o.stride + (i % p) * e

/-- Element `i` of an operand. -/
def VLoc.read (x : Reed) (l : VLoc) (e i : Nat) : Nat :=
  match l with
  | .sp o => spElem x.sp (elemAddr o e i) e
  | .cache f => spElem x.cache (16 * f + i * e) e
  | .scalar v => v

/-- Write element `i` of an operand. -/
def VLoc.write (x : Reed) (l : VLoc) (e i v : Nat) : Reed :=
  match l with
  | .sp o => { x with sp := KMap.write x.sp (elemAddr o e i) (leBytes e v) }
  | .cache f => { x with cache := KMap.write x.cache (16 * f + i * e) (leBytes e v) }
  | .scalar _ => x

/-- Something a unit writes: an element of an operand. -/
structure VWrite where
  loc : VLoc
  e : Nat
  i : Nat
  v : Nat
  deriving DecidableEq, Repr

/-- One unit of an instruction. -/
structure VUnit where
  writes : List VWrite
  clamps : Nat
  evs : List TrapEv
  deriving DecidableEq, Repr

/-- The reed and the clamps after the first `n` units. -/
def applyUnits (us : List VUnit) (x : Reed) (n : Nat) : Reed × Nat :=
  let us := us.take n
  ((us.flatMap (·.writes)).foldl (fun x w => w.loc.write x w.e w.i w.v) x, (us.map (·.clamps)).sum)

/-- A VX operand element as an FP32 value (Table 7-1). -/
def vxVal (t : Nat) (ftz : Bool) (raw : Nat) : Val := decodeFp (if t = 1 then bf16 else if t = 2 then fp16 else fp32) ftz raw

/-- Convert a result to a floating-point TYPE_D, once (R186, R212). -/
def vxOut (t : Nat) (nc : W32) (u : Nat) (v : Val) : Enc :=
  match t with
  | 1 => encodeFp bf16 nc (ncConv nc u) v
  | 2 => encodeFp fp16 nc (ncConv nc u) v
  | _ => ⟨bits32 (round32 v), false, false⟩

/-- An FP32 result as a conversion reads it: under FTZ_IN a subnormal reads as zero of the same sign (R218). -/
def flushIn (nc : W32) (v : Val) : Val :=
  match v with
  | .fin n m e => if ncFtzIn nc ∧ m ≠ 0 ∧ topBit m e < -126 then .fin n 0 0 else v
  | _ => v

/-- Convert an FP32 result to TYPE_D. -/
def vxOutFp (t : Nat) (nc : W32) (u : Nat) (v : Val) : Enc := vxOut t nc u (if narrowType t then flushIn nc v else v)

/-- Events of an element from the causes raised. -/
def elemEvs (i k : Nat) (cs : List Nat) : List TrapEv := cs.map (fun c => ⟨0, i, 0, k, c⟩)

/-- CONSUMED once for each operand element that is NaN (Table 8-9). -/
def consumedIf (l : List Val) : List Nat := (l.filter Val.isNan).map (fun _ => 5)

/-- Gather elements into steps of eight (R184). -/
def stepsOf (n : Nat) (f : Nat → VUnit) : List VUnit :=
  (List.range (ceilDiv n 8)).map (fun j =>
    let us := ((List.range 8).filter (fun i => decide (8 * j + i < n))).map (fun i => f (8 * j + i))
    { writes := us.flatMap (·.writes), clamps := (us.map (·.clamps)).sum, evs := us.flatMap (·.evs) })

/-! ### VEW -/

/-- Element `i` of a VEW. -/
def vewElem (sh : Sheaf) (r : Nat) (q : QEntry) (x : Reed) (i : Nat) : VUnit :=
  let w := q.raw
  let fn := vewFn w
  let nc := q.numctl
  let ftz := ncFtzIn nc
  let la := vloc q 1 (vewCa w)
  let lb := if vewBsc w then .scalar ((q.regs.toList[insF w 2 % 16]?).elim 0 BitVec.toNat) else vloc q 2 (vewCb w)
  let ld := vloc q 3 (vewCd w)
  let ea := vxSize (vewTa w)
  let eb := if vewBsc w then 4 else vxSize (vewTb w)
  let ed := vxSize (vewTd w)
  let ra := la.read x ea i
  let rb := if vewBinary fn then lb.read x eb i else 0
  let u := drawU sh r q 0 i
  let out := fun (v : Nat) (c : Bool) (cs : List Nat) =>
    ({ writes := [⟨ld, ed, i, v⟩], clamps := b2n c, evs := elemEvs i 0 cs } : VUnit)
  if vewIsInt fn then out (vewInt fn (BitVec.ofNat 32 ra) (BitVec.ofNat 32 rb)).toNat false []
  else if fn = 0x30 then
    let v := toSigned 32 ra
    let e := encodeFp (if vewTd w = 1 then bf16 else if vewTd w = 2 then fp16 else fp32) nc (ncConv nc u)
      (.fin (decide (v < 0)) v.natAbs 0)
    out e.bits e.clamp []
  else
    let a := vxVal (vewTa w) ftz ra
    if fn = 0x31 then
      let e := encodeInt (-(2 ^ 31)) (2 ^ 31 - 1) 32 (ncConv nc u) a
      out e.bits e.clamp (consumedIf [a])
    else
      let b := if vewBinary fn then vxVal (if vewBsc w then 0 else vewTb w) ftz rb else .zero
      let d := if fn = 0x03 then vxVal (vewTd w) ftz (ld.read x ed i) else .zero
      let z := vewFp fn a b d
      let e := vxOutFp (vewTd w) nc u z.v
      out e.bits e.clamp (z.causes ++ consumedIf [a, b, d])

def vewUnits (sh : Sheaf) (r : Nat) (q : QEntry) (x : Reed) : List VUnit := stepsOf q.vl.toNat (vewElem sh r q x)

/-! ### VRED -/

/-- Elements of a floating-point operand with their positions in a group. -/
def groupVals (x : Reed) (l : VLoc) (t : Nat) (ftz : Bool) (lo n : Nat) : List Val :=
  (List.range n).map (fun k => vxVal t ftz (l.read x (vxSize t) (lo + k)))

/-- The value of a floating-point VRED of a group (R188). -/
def redFp (fn : Nat) (vs : List Val) : Val :=
  match fn with
  | 0 => laneSum vs
  | 1 => laneSum (vs.map (fun v => v.mul v))
  | _ =>
    let ys := if fn = 6 then vs.map Val.abs else vs
    if vs.any Val.isNan then .nan else (ys[bestAt (decide (fn ≠ 3)) ys]?).getD .zero

/-- The value of an INT32 SUM, MAX or MIN of a group (R188). -/
def redInt (fn : Nat) (xs : List Int) : Int :=
  match fn, xs with
  | 0, _ => xs.sum
  | _, [] => 0
  | 2, a :: t => t.foldl max a
  | _, a :: t => t.foldl min a

/-- Positions of NaN elements. -/
def nanAt (vs : List Val) : List Nat := (vs.zipIdx.filter (fun e => e.1.isNan)).map (·.2)

/-- Group `g` of a VRED. -/
def redGroup (sh : Sheaf) (r : Nat) (q : QEntry) (x : Reed) (g : Nat) : VUnit :=
  let w := q.raw
  let fn := redFn w
  let nc := q.numctl
  let vl := q.vl.toNat
  let size := groupSize (redG w) vl
  let lo := g * size
  let n := min size (vl - lo)
  let la := vloc q 1 (redCa w)
  let ld := vloc q 3 (redCd w)
  let arg := decide (fn = 4 ∨ fn = 5)
  let put := fun (v : Nat) (c : Bool) (evs : List TrapEv) =>
    ({ writes := [⟨ld, vxSize (redTd w), g, v⟩], clamps := b2n c, evs := evs } : VUnit)
  if vxInt (redTa w) then
    let xs := (List.range n).map (fun k => toSigned 32 (la.read x 4 (lo + k)))
    if arg then put (bestAt (decide (fn = 4)) (xs.map (fun v => .fin (decide (v < 0)) v.natAbs 0))) false []
    else put (ofInt 32 (redInt fn xs)) false []
  else
    let vs := groupVals x la (redTa w) (ncFtzIn nc) lo n
    let evs := (nanAt vs).map (fun k => (⟨0, g, 0, k, 5⟩ : TrapEv))
    if arg then put ((nanAt vs).head?.getD (bestAt (decide (fn = 4)) vs)) false evs
    else
      let e := vxOut (redTd w) nc (drawU sh r q 0 g) (redFp fn vs)
      put e.bits e.clamp
        ((if fn = 0 then ((infSubAt vs).toList.map (fun k => (⟨0, g, 0, k, 2⟩ : TrapEv))) else []) ++ evs)

def redUnits (sh : Sheaf) (r : Nat) (q : QEntry) (x : Reed) : List VUnit :=
  (List.range (groupCount (redG q.raw) q.vl.toNat)).map (redGroup sh r q x)

/-! ### VSCAN, VSSCAN -/

/-- The running state of a scan: none at the start of a segment. -/
structure ScanSt where
  fp : Option Val
  int : Option Int
  pos : Bool
  neg : Bool
  raised : Bool
  out : List VUnit
  deriving DecidableEq, Repr

/-- Identities of the scans (R189). -/
def scanIdent (fn : Nat) : Val := match fn with | 2 => .inf true | 3 => .inf false | _ => .zero
def scanIdentInt (fn : Nat) : Int := match fn with | 2 => -(2 ^ 31) | 3 => 2 ^ 31 - 1 | _ => 0

/-- One element of a floating-point scan. -/
def scanFp (sh : Sheaf) (r : Nat) (q : QEntry) (x : Reed) (a : ScanSt) (i : Nat) : ScanSt :=
  let w := q.raw
  let fn := redFn w
  let nc := q.numctl
  let v := vxVal (redTa w) (ncFtzIn nc) ((vloc q 1 (redCa w)).read x (vxSize (redTa w)) i)
  let new := match a.fp with
    | none => if fn = 0 then roundLa v else v
    | some p => match fn with
      | 0 => roundLa (p.add v)
      | 2 => fMax p v
      | _ => fMin p v
  let e := vxOut (redTd w) nc (drawU sh r q 0 i) (if redExcl w then a.fp.getD (scanIdent fn) else new)
  let pos := a.pos || decide (v.infSign = some false)
  let neg := a.neg || decide (v.infSign = some true)
  let hit := decide (fn = 0) && pos && neg && !a.raised
  { a with
    fp := some new, pos := pos, neg := neg, raised := a.raised || hit,
    out := a.out ++ [{ writes := [⟨vloc q 3 (redCd w), vxSize (redTd w), i, e.bits⟩], clamps := b2n e.clamp,
                       evs := elemEvs i 0 ((if hit then [2] else []) ++ consumedIf [v]) }] }

/-- One element of an INT32 scan; an ADD scan is modulo 2^32 (R189). -/
def scanInt (q : QEntry) (x : Reed) (a : ScanSt) (i : Nat) : ScanSt :=
  let w := q.raw
  let fn := redFn w
  let v := toSigned 32 ((vloc q 1 (redCa w)).read x 4 i)
  let new := match a.int with
    | none => v
    | some p => match fn with
      | 0 => p + v
      | 2 => max p v
      | _ => min p v
  let o := if redExcl w then a.int.getD (scanIdentInt fn) else new
  { a with
    int := some new,
    out := a.out ++ [{ writes := [⟨vloc q 3 (redCd w), vxSize (redTd w), i, ofInt 32 o⟩], clamps := 0, evs := [] }] }

/-- Whether element `i` starts a segment (R189). -/
def segStart (q : QEntry) (x : Reed) (i : Nat) : Bool :=
  decide (i = 0) || (decide (insOpc q.raw = 0x63) && bitOf ((vloc q 2 false).read x 1 (i / 8)) (i % 8))

/-- The elements of a scan in order. -/
def scanElems (sh : Sheaf) (r : Nat) (q : QEntry) (x : Reed) : List VUnit :=
  ((List.range q.vl.toNat).foldl (fun (a : ScanSt) i =>
    let a := if segStart q x i then { a with fp := none, int := none, pos := false, neg := false, raised := false } else a
    if vxInt (redTa q.raw) then scanInt q x a i else scanFp sh r q x a i)
    { fp := none, int := none, pos := false, neg := false, raised := false, out := [] }).out

def scanUnits (sh : Sheaf) (r : Nat) (q : QEntry) (x : Reed) : List VUnit :=
  let es := scanElems sh r q x
  stepsOf q.vl.toNat (fun i => (es[i]?).getD { writes := [], clamps := 0, evs := [] })

/-! ### VWIDE (Table 7-7) -/

/-- Results of a group with its events as (position, cause). -/
structure WideRes where
  vals : List Val
  evs : List (Nat × Nat)
  deriving DecidableEq, Repr

/-- Apply an FP32 function to every element with its position. -/
def mapFr (l : List Val) (f : Val → Nat → FR) : List Val × List (Nat × Nat) :=
  let rs := l.zipIdx.map (fun e => (f e.1 e.2, e.2))
  (rs.map (fun e => e.1.v), rs.flatMap (fun e => e.1.causes.map (fun c => (e.2, c))))

/-- The LA40 sum of a group, with INF_SUB at its position. -/
def sumEv (l : List Val) : Val × List (Nat × Nat) := (laneSum l, (infSubAt l).toList.map (fun k => (k, 2)))

/-- The FP32 quotient of an LA40 sum and the group's length. -/
def meanOf (sum : Val) (n : Nat) : Val := round32 (sum.div (Val.nat n))

/-- The largest value of a group, NaN when it holds one. -/
def groupMax (l : List Val) : Val :=
  match l with
  | [] => .zero
  | a :: t => t.foldl fMax a

/-- e^(x − max) of a group and the FP32 value of their sum (R191). -/
def expSum (l : List Val) : List Val × Val × Val × List (Nat × Nat) :=
  let mx := groupMax l
  let ts := mapFr l (fun v _ => fSub v mx)
  let es := ts.1.map (fun v => (fExp v).v)
  let s := sumEv es
  (es, round32 s.1, mx, ts.2 ++ s.2)

/-- Mean, deviations and 1/√(σ² + ε) of a group. -/
def meanVar (l : List Val) (eps : Val) : Val × List Val × Val × List (Nat × Nat) :=
  let s := sumEv l
  let mu := meanOf s.1 l.length
  let ds := mapFr l (fun v _ => fSub v mu)
  let v := meanOf (laneSum (ds.1.map (fun d => d.mul d))) l.length
  let t := fAdd v eps
  let rs := fRsqrt t.v
  (mu, ds.1, rs.v, s.2 ++ ds.2 ++ (t.causes ++ rs.causes).map (fun c => (0, c)))

/-- The function of Table 7-7 on one group. DESIGN CHOICE (log entry 79): each operation of an expression between the LA40 sums and the output is
rounded to FP32 by itself, and a quotient is the product with the rounded reciprocal; R191 does not say which steps round.
`b` gives element `k` of F2 for the group: γ or dy; `beta` gives β. -/
def wideGroupFn (fn : Nat) (l : List Val) (eps : Val) (b beta : Nat → Val) (target : Int) : WideRes :=
  match fn with
  | 0 =>
    let e := expSum l
    let rc := fRecip e.2.1
    let ys := mapFr e.1 (fun v _ => fMul v rc.v)
    ⟨ys.1, e.2.2.2 ++ ys.2⟩
  | 1 =>
    let e := expSum l
    let lg := fLog e.2.1
    let ys := mapFr l (fun v _ => let t := fSub v e.2.2.1; let z := fSub t.v lg.v; ⟨z.v, z.causes⟩)
    ⟨ys.1, e.2.2.2 ++ ys.2⟩
  | 2 =>
    let m := meanVar l eps
    let ys := mapFr m.2.1 (fun d k =>
      let y := fMul d m.2.2.1; let z := fMul y.v (b k); let t := fAdd z.v (beta k); ⟨t.v, y.causes ++ z.causes ++ t.causes⟩)
    ⟨ys.1, m.2.2.2 ++ ys.2⟩
  | 3 =>
    let v := meanOf (laneSum (l.map (fun x => x.mul x))) l.length
    let t := fAdd v eps
    let rs := fRsqrt t.v
    let ys := mapFr l (fun x k => let y := fMul x rs.v; let z := fMul y.v (b k); ⟨z.v, y.causes ++ z.causes⟩)
    ⟨ys.1, (t.causes ++ rs.causes).map (fun c => (0, c)) ++ ys.2⟩
  | 4 =>
    if target < 0 ∨ (l.length : Int) ≤ target then ⟨[.nan], [(0, 4)]⟩
    else
      let e := expSum l
      let lg := fLog e.2.1
      let k := target.toNat
      let t := fAdd lg.v e.2.2.1
      let z := fSub t.v ((l[k]?).getD .zero)
      ⟨[z.v], e.2.2.2 ++ (t.causes ++ z.causes).map (fun c => (k, c))⟩
  | 5 =>
    let ps := l.zipIdx.map (fun e => e.1.mul (b e.2))
    let zs := (l.zipIdx.filter (fun e => zeroInf e.1 (b e.2))).map (fun e => (e.2, 1))
    let s := sumEv ps
    let sv := round32 s.1
    let ys := mapFr l (fun y k => let d := fSub (b k) sv; let z := fMul y d.v; ⟨z.v, d.causes ++ z.causes⟩)
    ⟨ys.1, zs ++ s.2 ++ ys.2⟩
  | _ =>
    let m := meanVar l eps
    ⟨[m.1, m.2.2.1], m.2.2.2⟩

/-- Group `g` of a VWIDE. A NaN of γ or β is charged to the first group, one of A and of dy to its own (R221). -/
def wideGroup (sh : Sheaf) (r : Nat) (q : QEntry) (x : Reed) (g : Nat) : VUnit :=
  let w := q.raw
  let fn := wideFn w
  let nc := q.numctl
  let ftz := ncFtzIn nc
  let vl := q.vl.toNat
  let size := groupSize (redG w) vl
  let lo := g * size
  let n := min size (vl - lo)
  let la := vloc q 1 false
  let lb := vloc q 2 false
  let ld := vloc q 3 false
  let eb := vxSize (wideTb w)
  let eps := if wideEps w = 0 then Val.zero else val32 ftz ((q.regs.toList[wideEps w]?).elim 0 BitVec.toNat)
  let bAt := fun (j : Nat) => vxVal (wideTb w) ftz (lb.read x eb j)
  let b := fun (k : Nat) => if fn = 5 then bAt (lo + k) else bAt k
  let beta := fun (k : Nat) => bAt (wideG w vl + k)
  let target := if fn = 4 then toSigned 32 (lb.read x 4 g) else 0
  let l := groupVals x la (wideTa w) ftz lo n
  let z := wideGroupFn fn l eps b beta target
  let outBase := match fn with | 4 => g | 6 => 2 * g | _ => lo
  let es := z.vals.zipIdx.map (fun e => (e.2, vxOutFp (wideTd w) nc (drawU sh r q 0 (outBase + e.2)) e.1))
  let nans := fun (f : Nat → Val) => (List.range n).filter (fun k => (f k).isNan)
  let nanB := if fn = 5 then nans b
    else if (fn = 2 ∨ fn = 3) ∧ g = 0 then nans b ++ (if fn = 2 then nans beta else [])
    else []
  { writes := es.map (fun e => ⟨ld, vxSize (wideTd w), outBase + e.1, e.2.bits⟩),
    clamps := (es.map (fun e => b2n e.2.clamp)).sum,
    evs := z.evs.map (fun e => (⟨0, g, 0, e.1, e.2⟩ : TrapEv)) ++
      (nanAt l ++ nanB).map (fun k => (⟨0, g, 0, k, 5⟩ : TrapEv)) }

/-- The groups of a VWIDE. DESIGN CHOICE (log entry 79): every group reads what the scratchpad held before the instruction, also where D lies on
operands that a later group reads; R182 allows that and no rule says which a later group sees. -/
def wideUnits (sh : Sheaf) (r : Nat) (q : QEntry) (x : Reed) : List VUnit :=
  (List.range (groupCount (redG q.raw) q.vl.toNat)).map (wideGroup sh r q x)

/-! ### VRNG (R194, R197) -/

/-- A captured scalar register, number 0 reading as zero. -/
def QEntry.reg (q : QEntry) (n : Nat) : Nat := if n = 0 then 0 else (q.regs.toList[n]?).elim 0 BitVec.toNat

/-- z of element `i`: keyed from KEY, STEP, the slot and the index, or an output of the lane generators (R193, R194). DESIGN CHOICE (log
entry 79): KEY and STEP are those held when the instruction runs; neither R132 nor R194 says that they are captured at issue. -/
def rngZ (sh : Sheaf) (r : Nat) (q : QEntry) (i : Nat) : W64 :=
  if q.rngKeyed then
    keyedDraw (slotKey sh q.slot).1 (stepWord sh q.slot)
      (BitVec.ofNat 64 (q.reg (rngHi q.raw) * 2 ^ 32 + q.reg (rngLo q.raw) + i))
  else laneDraw sh r i (q.freeBase + 24576 + i)

/-- One element of a VRNG that writes whole elements. -/
def rngElem (sh : Sheaf) (r : Nat) (q : QEntry) (x : Reed) (i : Nat) : VUnit :=
  let w := q.raw
  let nc := q.numctl
  let z := (rngZ sh r q i).toNat
  let ld := vloc q 3 false
  match rngForm w with
  | 0 => { writes := [⟨ld, 4, i, z / 2 ^ 32⟩], clamps := 0, evs := [] }
  | 1 => { writes := [⟨ld, 4, i, bits32 (.fin false (z / 2 ^ 40) (-24))⟩], clamps := 0, evs := [] }
  | _ =>
    let t := rngType w
    let a := vxVal t (ncFtzIn nc) ((vloc q 1 false).read x (vxSize t) i)
    let p := if z / 2 ^ 32 < q.reg (rngT w) then fMul a (val32 (ncFtzIn nc) (q.reg (rngS w))) else ⟨Val.zero, []⟩
    let e := vxOutFp t nc (drawU sh r q 0 i) p.v
    { writes := [⟨ld, vxSize t, i, e.bits⟩], clamps := b2n e.clamp, evs := elemEvs i 0 (p.causes ++ consumedIf [a]) }

/-- Byte `j` of a MASK: bit i set when z[63:32] < T; bits beyond VL are 0. -/
def maskByte (sh : Sheaf) (r : Nat) (q : QEntry) (j : Nat) : Nat :=
  ((List.range 8).map (fun i =>
    if 8 * j + i < q.vl.toNat ∧ (rngZ sh r q (8 * j + i)).toNat / 2 ^ 32 < q.reg (rngT q.raw) then 2 ^ i else 0)).sum

def rngUnits (sh : Sheaf) (r : Nat) (q : QEntry) (x : Reed) : List VUnit :=
  if rngForm q.raw = 2 then
    (List.range (ceilDiv q.vl.toNat 8)).map (fun j =>
      { writes := [⟨vloc q 3 false, 1, j, maskByte sh r q j⟩], clamps := 0, evs := [] })
  else stepsOf q.vl.toNat (rngElem sh r q x)

/-! ### OPT (R268 to R272) -/

/-- The hyperparameter record's fields (Table 10-4). -/
def hyper (q : QEntry) (x : Reed) (off : Nat) : Val :=
  val32 (ncFtzIn q.numctl) (spElem x.sp (optRecord q.raw q.regs + off) 4)

/-- Whether the record's reserved bytes are zero. -/
def recordOk (q : QEntry) (x : Reed) : Bool := (KMap.bytes x.sp (optRecord q.raw q.regs + 36) 28).all (· = 0)

/-- Byte `k` of the moment string. -/
def momentByte (q : QEntry) (x : Reed) (k : Nat) : Nat := (vloc q 3 false).read x 1 k

/-- The first (0) or second (1) moment of element `i` as an FP32 value (R271, R272). -/
def moment (q : QEntry) (x : Reed) (second : Bool) (i : Nat) : Val :=
  match optForm q.raw with
  | 2 => val32 (ncFtzIn q.numctl)
      (ofLe ((List.range 4).map (fun k => BitVec.ofNat 8 (momentByte q x (i / 4 * 32 + 16 * b2n second + i % 4 * 4 + k)))))
  | f =>
    let rec' := i / 32 * (if f = 0 then 80 else 48)
    let e := momentByte q x (rec' + (if second then 32 else 0) + i % 32)
    let s := momentByte q x (rec' + (if f = 0 then 64 + b2n second else 32))
    round32 ((decodeElem (if second then 0x09 else 0x08) false e).scaled s)

/-- The new parameter and moments of one element. -/
structure OptRes where
  p : Val
  m : Val
  v : Val
  causes : List Nat
  deriving DecidableEq, Repr

/-- The update rules of R270, operation by operation in the order shown. -/
def optElem (q : QEntry) (x : Reed) (i : Nat) : OptRes :=
  let w := q.raw
  let nc := q.numctl
  let ftz := ncFtzIn nc
  let h := hyper q x
  let lr := h 0
  let b1 := h 4
  let b2 := h 8
  let a1 := (fSub .one b1).v
  let a2 := (fSub .one b2).v
  let p := vxVal (optParam w) ftz ((vloc q 1 false).read x (optSize w) i)
  let g0 := val32 ftz ((vloc q 2 false).read x 4 i)
  let gm := fMul g0 (h 28)
  let clip := h 32
  let g := if clip.isZero then gm.v else fMin (fMax gm.v clip.negate) clip
  let m0 := moment q x false i
  let ag := fMul a1 g
  let used := consumedIf [p, g0]
  let finish := fun (d : Val) (cs : List Nat) (m v : FR) =>
    let wd := fFma (h 16) p d
    let np := fFma lr.negate wd.v p
    (⟨np.v, m.v, v.v, gm.causes ++ ag.causes ++ cs ++ wd.causes ++ np.causes ++ used⟩ : OptRes)
  if optForm w = 1 then
    let c := fFma b1 m0 ag.v
    let ag2 := fMul a2 g
    let m := fFma b2 m0 ag2.v
    finish (fSign c.v) (c.causes ++ ag2.causes ++ m.causes) m ⟨.zero, []⟩
  else
    let v0 := moment q x true i
    let gg := fMul g g
    let ag2 := fMul a2 gg.v
    let m := fFma b1 m0 ag.v
    let v := fFma b2 v0 ag2.v
    let n := fMul m.v (h 20)
    let vb := fMul v.v (h 24)
    let sq := fSqrt vb.v
    let dn := fAdd sq.v (h 12)
    let d := fDiv n.v dn.v
    finish d.v (gg.causes ++ ag2.causes ++ m.causes ++ v.causes ++ n.causes ++ vb.causes ++ sq.causes ++ dn.causes ++
      d.causes) m v

/-- Every element's result. -/
def optAll (q : QEntry) (x : Reed) : List OptRes := (List.range q.vl.toNat).map (optElem q x)

/-- The stored parameter (Table 10-3, R268). An FP32 store converts nothing, so no flush applies (R212, R218). -/
def optStore (sh : Sheaf) (r : Nat) (q : QEntry) (i : Nat) (v : Val) : Enc :=
  if optParam q.raw = 1 then encodeFp bf16 q.numctl (.stochastic (drawU sh r q 0 i)) (flushIn q.numctl v)
  else ⟨bits32 v, false, false⟩

/-- A moment block of up to 32 values, stored with stochastic rounding (R219, R268, R271). -/
def momentBlock (sh : Sheaf) (r : Nat) (q : QEntry) (second : Bool) (lo : Nat) (vs : List Val) : BlockEnc :=
  encodeBlock (if second then 0x09 else 0x08) q.numctl
    ((List.range vs.length).map (fun k => .stochastic (drawU sh r q 0 ((if second then 16384 else 8192) + lo + k))))
    (vs.map (flushIn q.numctl))

/-- Writes of a whole moment record `b` (Table 10-5), with its clamps and events. -/
def recordWrites (sh : Sheaf) (r : Nat) (q : QEntry) (rs : List OptRes) (b : Nat) : List VWrite × Nat × List TrapEv :=
  let f := optForm q.raw
  let l3 := vloc q 3 false
  let grp := (rs.drop (32 * b)).take 32
  let base := b * (if f = 0 then 80 else 48)
  let em := momentBlock sh r q false (32 * b) (grp.map (·.m))
  let ev := momentBlock sh r q true (32 * b) (grp.map (·.v))
  let put := fun (off : Nat) (bs : List Nat) => bs.zipIdx.map (fun e => (⟨l3, 1, base + off + e.2, e.1⟩ : VWrite))
  let pad := fun (es : List Enc) => es.map (·.bits) ++ List.replicate (32 - es.length) 0
  let conv := fun (e : BlockEnc) => (e.elems.zipIdx.filter (fun x => x.1.conv)).map
    (fun x => (⟨0, 32 * b + x.2, 0, 0, 3⟩ : TrapEv))
  let cl := fun (e : BlockEnc) => (e.elems.map (fun x => b2n x.clamp)).sum
  if f = 0 then
    (put 0 (pad em.elems) ++ put 32 (pad ev.elems) ++ put 64 [em.scale, ev.scale] ++ put 66 (List.replicate 14 0),
     cl em + cl ev, conv em ++ conv ev)
  else (put 0 (pad em.elems) ++ put 32 [em.scale] ++ put 33 (List.replicate 15 0), cl em, conv em)

/-- Moment bytes of steps that are written while the trap cuts their block: what they hold is a free value of the instruction's own
data, since the scale of a block cut between its steps is not stated (R277, log entry 40). -/
def cutWrites (sh : Sheaf) (r : Nat) (q : QEntry) (rs : List OptRes) (b steps : Nat) : List VWrite :=
  let f := optForm q.raw
  let l3 := vloc q 3 false
  let base := b * (if f = 0 then 80 else 48)
  let data := q.numctl.toNat :: steps :: (((rs.drop (32 * b)).take 32).zipIdx (32 * b)).flatMap (fun e =>
    [bits32 e.1.m, bits32 e.1.v, drawU sh r q 0 (8192 + e.2), drawU sh r q 0 (16384 + e.2)])
  let fr := fun (k : Nat) => (Config.cutByte data k).toNat
  let offs := (List.range (8 * steps)) ++ (if f = 0 then (List.range (8 * steps)).map (· + 32) ++ [64, 65] else [32])
  if steps = 0 then [] else offs.map (fun k => ⟨l3, 1, base + k, fr k⟩)

/-- FORM 2 moments of one element, stored as the FP32 values they are (R268, R272). -/
def form2Writes (q : QEntry) (i : Nat) (z : OptRes) : List VWrite :=
  let l3 := vloc q 3 false
  let put := fun (off : Nat) (v : Val) =>
    (leBytes 4 (bits32 v)).zipIdx.map (fun b => (⟨l3, 1, i / 4 * 32 + off + i % 4 * 4 + b.2, b.1.toNat⟩ : VWrite))
  put 0 z.m ++ put 16 z.v

/-- The reed and the clamps after the first `n` steps of an OPT: parameters and moments of every written step (R200). -/
def optApply (sh : Sheaf) (r : Nat) (q : QEntry) (x : Reed) (n : Nat) : Reed × Nat :=
  let rs := optAll q x
  let cnt := min (8 * n) q.vl.toNat
  let all := decide (ceilDiv q.vl.toNat 8 ≤ n)
  let ps := (rs.take cnt).zipIdx.map (fun e => (e.2, optStore sh r q e.2 e.1.p))
  let pw := ps.map (fun e => (⟨vloc q 1 false, optSize q.raw, e.1, e.2.bits⟩ : VWrite))
  let pc := (ps.map (fun e => b2n e.2.clamp)).sum
  let mw : List VWrite × Nat :=
    if optForm q.raw = 2 then
      ((rs.take cnt).zipIdx.flatMap (fun e => form2Writes q e.2 e.1), 0)
    else
      let whole := if all then ceilDiv q.vl.toNat 32 else n / 4
      let l := (List.range whole).map (recordWrites sh r q rs)
      (l.flatMap (·.1) ++ (if all then [] else cutWrites sh r q rs whole (n % 4)), (l.map (·.2.1)).sum)
  ((pw ++ mw.1).foldl (fun x w => w.loc.write x w.e w.i w.v) x, pc + mw.2)

/-- NaN scales of moment blocks, charged to the block's first element; NaN moments of FORM 2, each an operand element of its
own (R220, R221). -/
def optScaleEvents (q : QEntry) (x : Reed) : List TrapEv :=
  let f := optForm q.raw
  if f = 2 then (List.range q.vl.toNat).flatMap (fun i =>
      elemEvs i 0 (consumedIf [moment q x false i, moment q x true i]))
  else (List.range (ceilDiv q.vl.toNat 32)).flatMap (fun b =>
    let at' := fun (off : Nat) => momentByte q x (b * (if f = 0 then 80 else 48) + off)
    ((if f = 0 then [at' 64, at' 65] else [at' 32]).filter (fun s => s = 0x80)).map (fun _ => ⟨0, 32 * b, 0, 0, 5⟩))

/-- Trap events of an OPT. -/
def optEvents (sh : Sheaf) (r : Nat) (q : QEntry) (x : Reed) : List TrapEv :=
  let rs := optAll q x
  rs.zipIdx.flatMap (fun e => elemEvs e.2 0 e.1.causes) ++ optScaleEvents q x ++
  (if optForm q.raw = 2 then [] else
    (List.range (ceilDiv q.vl.toNat 32)).flatMap (fun b => (recordWrites sh r q rs b).2.2))

/-! ### VCLD, VCST -/

/-- VCLD: scratchpad bytes into consecutive cache entries. -/
def vcldApply (q : QEntry) (x : Reed) : Reed :=
  let o := operandOf (insF q.raw 1) q.regs
  { x with cache := KMap.write x.cache (16 * (insMod q.raw % 32)) (o.read x.sp) }

/-- VCST: cache entries to the scratchpad. -/
def vcstApply (q : QEntry) (x : Reed) : Reed :=
  let o := operandOf (insF q.raw 1) q.regs
  { x with sp := o.write x.sp (KMap.bytes x.cache (16 * (insMod q.raw % 32)) (o.rows * o.rowBytes)) }

/-! ### A VX instruction as a whole -/

/-- The units of an instruction that consists of units. -/
def vxUnits (sh : Sheaf) (r : Nat) (q : QEntry) (x : Reed) : List VUnit :=
  match insOpc q.raw with
  | 0x60 => vewUnits sh r q x
  | 0x61 => redUnits sh r q x
  | 0x62 => scanUnits sh r q x
  | 0x63 => scanUnits sh r q x
  | 0x64 => wideUnits sh r q x
  | 0x65 => rngUnits sh r q x
  | _ => []

/-- The whole effect of a VX instruction, or its first `n` units; the cache copies do not trap. -/
def vxApply (sh : Sheaf) (r : Nat) (q : QEntry) (x : Reed) (n : Nat) : Reed × Nat :=
  match insOpc q.raw with
  | 0x66 => optApply sh r q x n
  | 0x67 => (vcldApply q x, 0)
  | 0x68 => (vcstApply q x, 0)
  | _ => applyUnits (vxUnits sh r q x) x n

/-- Trap events of a VX instruction. -/
def vxEvents (sh : Sheaf) (r : Nat) (q : QEntry) (x : Reed) : List TrapEv :=
  match insOpc q.raw with
  | 0x66 => optEvents sh r q x
  | 0x67 => []
  | 0x68 => []
  | _ => (vxUnits sh r q x).flatMap (·.evs)

/-- The unit a trap event falls in: a group of VRED and VWIDE, else a step of eight elements (R200). -/
def vxUnitOf (q : QEntry) (ev : TrapEv) : Nat :=
  if insOpc q.raw = 0x61 ∨ insOpc q.raw = 0x64 then ev.m else ev.m / 8

end Sys2Proof.Machine
end

