-- ==== Sys2Proof/Machine/LdSt.lean ====
section
/-!
DEFINITION. LD, ST and LDPAGE (R147, R148, R233 to R241): issue checks, start checks, and what each does when it completes,
whole or up to the element at which it stops.
-/

namespace Sys2Proof.Machine

/-! ### Fields (Tables 9-3, 9-4) -/

def lsSrc (w : BitVec 256) : Nat := bitsOf (insMod w) 7 0
def lsDst (w : BitVec 256) : Nat := bitsOf (insMod w) 15 8
def lsMem (w : BitVec 256) : Bool := bitOf (insMod w) 16
def lsView (w : BitVec 256) : Bool := bitOf (insMod w) 17
def lsBlockDim (w : BitVec 256) : Nat := bitsOf (insMod w) 18 18
def lsFill (w : BitVec 256) : Nat := bitsOf (insMod w) 23 20
/-- Whether the instruction is an ST. -/
def lsSt (w : BitVec 256) : Bool := insOpc w = 0xA0
/-- The scratchpad side's format. -/
def lsSpFmt (w : BitVec 256) : Nat := if lsSt w then lsSrc w else lsDst w
/-- The loft or memory side's format. -/
def lsFarFmt (w : BitVec 256) : Nat := if lsSt w then lsDst w else lsSrc w

/-- The value of a register named by a field, 0 naming none. -/
def namedReg (regs : Vector W32 16) (n : Nat) : Nat := if n = 0 then 0 else (regs.toList[n]?).elim 0 BitVec.toNat

/-- The view's base (R234). -/
def lsBase (w : BitVec 256) (regs : Vector W32 16) : Nat :=
  (bitsOf (insF w 2) 40 0 + namedReg regs (bitsOf (insF w 2) 47 44) + namedReg regs (bitsOf (insF w 2) 51 48) * 2 ^ 32) % 2 ^ 41

/-- The scale string's address (R234). -/
def lsScaleAddr (w : BitVec 256) (regs : Vector W32 16) : Nat :=
  (bitsOf (insAux w) 13 0 + namedReg regs (bitsOf (insAux w) 17 14)) % 2 ^ 32

/-- F1's capacity in elements (R235, R236). -/
def lsCapacity (w : BitVec 256) (regs : Vector W32 16) : Nat := (operandOf (insF w 1) regs).capacity (elemSize (lsSpFmt w))

/-- Blocks of the scratchpad side (R237). -/
def blockCount (v : View) (dim : Nat) : Nat :=
  if dim = 0 then v.d1.count * v.d2.count * v.d3.count * ceilDiv v.d0.count 32
  else v.d2.count * v.d3.count * ceilDiv v.d1.count 32 * v.d0.count

/-- The scale index of output element `i` (R237). -/
def blockOf (v : View) (dim i : Nat) : Nat :=
  let i0 := i % v.d0.count
  let r := i / v.d0.count
  if dim = 0 then r * ceilDiv v.d0.count 32 + i0 / 32
  else r / v.d1.count * ceilDiv v.d1.count 32 * v.d0.count + r % v.d1.count / 32 * v.d0.count + i0

/-- The view known at issue: contiguous when VIEW = 0. -/
def lsFlat (w : BitVec 256) (regs : Vector W32 16) : View := flatView (lsCapacity w regs) (elemSize (lsFarFmt w))

/-- The scale string's extent as known at issue: exact under VIEW = 0, else up to the end of the scratchpad (R234). -/
def lsScaleExt (w : BitVec 256) (regs : Vector W32 16) : List (Nat × Nat) :=
  if !isBlockFmt (lsSpFmt w) then []
  else
    let a := lsScaleAddr w regs
    if lsView w then [(a, spBytes)] else [(a, a + blockCount (lsFlat w regs) (lsBlockDim w))]

/-- The issue checks of LD and ST (R128, Table 9-5). -/
def lsCheck : IssueCheck := fun _ _ w x => do
  let m := insMod w
  let f2 := insF w 2
  let o ← checkOperand (insF w 1) x.regs 1 (!lsSt w)
  let v ← optOperand (lsView w) (insF w 3) x.regs 3 false
  let blk := isBlockFmt (lsSpFmt w)
  noFlaw [
    (bitOf m 19 || (lsSt w && lsFill w ≠ 0) || bitsOf (insAux w) 31 18 ≠ 0 || bitsOf f2 43 41 ≠ 0 ||
      bitsOf f2 63 52 ≠ 0 || (!lsView w && insF w 3 ≠ 0), (.reservedField, 0)),
    ((elemKind (lsSrc w)).isNone || (elemKind (lsDst w)).isNone || (!blk && (insAux w ≠ 0 || lsBlockDim w ≠ 0)),
      (.fieldRange, 0)),
    (v.any (fun r => r.rows * r.rowBytes ≠ 64 || (1 < r.rows && r.stride ≠ r.rowBytes)), (.fieldRange, 3)),
    (!lsSt w && (v.any (fun r => extOverlap o.extent r.extent) ||
      (!lsView w && (lsScaleExt w x.regs).any (fun e => extOverlap o.extent e))), (.fieldRange, 3)),
    (blk && lsScaleAddr w x.regs % 16 ≠ 0, (.align, 0)),
    (blk && (spBytes ≤ lsScaleAddr w x.regs || (lsScaleExt w x.regs).any (fun e => spBytes < e.2)), (.bound, 0)) ]
  let ve := v.toList.map Operand.extent
  let se := lsScaleExt w x.regs
  if lsSt w then pure (o.extent :: (se ++ ve), []) else pure (ve, o.extent :: se)

/-- Whether a conversion is exact or is governed by LM19_TRUNC, so that it never rounds stochastically (R212). -/
def plainConv (a b : Nat) (ld : Bool) : Bool :=
  widens a b || (ld && decide (a = 0) && decide (b = 1)) ||
  (match elemKind a, elemKind b with
   | some (.int lo hi _), some (.int lo' hi' _) => !isBlockFmt a && !isBlockFmt b && decide (lo' ≤ lo) && decide (hi ≤ hi')
   | some (.int _ _ n), some (.float f) => !isBlockFmt a && !isBlockFmt b && decide (n ≤ f.fw + 1)
   | _, _ => false)

/-- The format a fill register is read in: INT32 for an integer DST_FMT, else FP32 (R236). -/
def fillFmt (dst : Nat) : Nat := if [6, 7, 12].contains dst then 0x0C else 0x00

/-- Rounding passes of an LD or ST (R215). -/
def lsPasses (w : BitVec 256) (_ : Reed) (nc : W32) : Nat :=
  let plain := plainConv (lsSrc w) (lsDst w) (!lsSt w) &&
    (lsSt w || lsFill w = 0 || plainConv (fillFmt (lsDst w)) (lsDst w) true)
  if ncStoConv nc && !plain then 1 else 0

/-- Precision of a format in bits. -/
def precision (code : Nat) : Nat :=
  match elemKind code with
  | some (.float f) => f.fw + 1
  | some (.int _ _ n) => n
  | none => 0

/-- Whether an LD narrows, so that the weathervane captures its source (R258). -/
def narrows (src dst : Nat) : Bool :=
  decide (src ≠ dst) && (decide (elemSize dst < elemSize src) || decide (precision dst < precision src))

/-- The capture an LD leaves at issue, its stride 0 where F1 is one row; its size follows when the LD starts and its elements when
it has read them. -/
def lsCapture (r : Nat) (q : QEntry) : Capture :=
  let o := operandOf (insF q.raw 1) q.regs
  { reed := r, seqNo := q.seqNo, lo := o.extent.1, hi := o.extent.2, fmt := lsSrc q.raw, rowBytes := o.rowBytes,
    stride := if o.rows ≤ 1 then 0 else o.stride, dstSize := elemSize (lsDst q.raw), elems := [], bytes := 0 }

/-- LD's issue, with the weathervane's capture (R258). -/
def issueLd (s : State) (r : Nat) : State :=
  let t := engineIssue 0x80 .ld lsCheck lsPasses s r
  let q1 := (t.reed r).qld
  if (s.reed r).qld.length < q1.length then
    match q1.getLast? with
    | some q =>
      if narrows (lsSrc q.raw) (lsDst q.raw) then
        t.modSheaf (r / 4096) (fun sh => { sh with wv := sh.wv.capture (lsCapture r q) })
      else t
    | none => t
  else t

/-- LD: its checks and its place in LD's queue (R233, R239). -/
def execLd (r : ReedIx) (s : State) : Out := .next (issueLd s r)

def issueSt (s : State) (r : Nat) : State := engineIssue 0xA0 .st lsCheck lsPasses s r
/-- ST: its checks and its place in ST's queue (R233, R239). -/
def execSt (r : ReedIx) (s : State) : Out := .next (issueSt s r)

/-! ### LDPAGE (R147) -/

def pageFirst (w : BitVec 256) : Nat := bitsOf (insMod w) 5 0
def pageCount (w : BitVec 256) : Nat := bitsOf (insMod w) 12 8 + 1

/-- The checks of LDPAGE (R147). DESIGN CHOICE (log entry 78): reserved parts, FIELD_RANGE, ALIGN, BOUND; the spec gives no order. -/
def pageCheck : IssueCheck := fun s r w _ => do
  let m := insMod w
  noFlaw [(bitsOf m 7 6 ≠ 0 || bitsOf m 23 13 ≠ 0, (.reservedField, 0)), (insF w 1 ≠ 0, (.reservedField, 1)),
          (insF w 2 ≠ 0, (.reservedField, 2)), (insF w 3 ≠ 0, (.reservedField, 3)),
          (64 < pageFirst w + pageCount w, (.fieldRange, 0)), (insAux w % 32 ≠ 0, (.align, 0)),
          (loftSpace (s.sheaf (r / 4096)) < insAux w + 32 * pageCount w, (.bound, 0))]
  pure ([], [])

def issueLdpage (s : State) (r : Nat) : State := engineIssue 0x81 .ld pageCheck (fun _ _ _ => 0) s r
/-- LDPAGE: its checks and its place in LD's queue (R147). -/
def execLdpage (r : ReedIx) (s : State) : Out := .next (issueLdpage s r)

/-- A 32-byte instruction from its bytes. -/
def insOf (bs : List Byte) : BitVec 256 := BitVec.ofNat 256 (ofLe bs)

/-- The instructions land in their entries and become valid (R147). -/
def pageApply (sh : Sheaf) (q : QEntry) (x : Reed) : Reed :=
  let put := fun (m : KMap (BitVec 256)) k =>
    KMap.ins m (pageFirst q.raw + k) (insOf (KMap.bytes sh.loft (insAux q.raw + 32 * k) 32))
  { x with ibuf := (List.range (pageCount q.raw)).foldl put x.ibuf }

/-! ### Start checks (R239) -/

/-- The view of a started, or starting, LD or ST: from the record bytes it read, or contiguous. -/
def lsViewOf (q : QEntry) : Option View := if lsView q.raw then viewOf q.view else some (lsFlat q.raw q.regs)

/-- The exact scale-string extent once the view is known (R234). -/
def lsExactScale (q : QEntry) (v : View) : List (Nat × Nat) :=
  if !isBlockFmt (lsSpFmt q.raw) then []
  else
    let a := lsScaleAddr q.raw q.regs
    [(a, a + blockCount v (lsBlockDim q.raw))]

/-- Checks 6 to 11 of Table 9-5. -/
def lsStartChecks (s : State) (r : Nat) (q : QEntry) : Option Flaw :=
  let w := q.raw
  let sh := s.sheaf (r / 4096)
  let far := lsFarFmt w
  let base := lsBase w q.regs
  let f1 := (operandOf (insF w 1) q.regs).extent
  match lsViewOf q with
  | none => some (.fieldRange, 3)
  | some v =>
    let se := if lsView w then lsExactScale q v else []
    let fp := v.footprint far base
    firstFlaw [
      (isBlockFmt far && v.packed.isNone, (.fieldRange, 3)),
      (se.any (fun e => spBytes < e.2), (.bound, 0)),
      (!lsSt w && se.any (fun e => extOverlap f1 e), (.fieldRange, 3)),
      (!v.aligned far base, (.align, 2)),
      (lsCapacity w q.regs < v.count, (.fieldRange, 1)),
      (lsSt w && isBlockFmt far && !v.wholeBlocks, (.fieldRange, 3)),
      (match fp with
       | none => false
       | some e => decide (e.1 < 0) ||
          (if lsMem w then !memAllowed s (s.allotOf (r / 4096)) e.1.toNat e.2.toNat
           else decide ((loftSpace sh : Int) < e.2)), (.bound, 2)) ]

/-- The memory footprint of an executing LD or ST, for R225 and R106. -/
def lsFootprint (q : QEntry) : Option (Nat × Nat) :=
  match lsViewOf q with
  | none => none
  | some v => (v.footprint (lsFarFmt q.raw) (lsBase q.raw q.regs)).map (fun e => (e.1.toNat, e.2.toNat))

/-! ### The far side -/

/-- A byte of the loft or memory. -/
def farByte (s : State) (r : Nat) (mem : Bool) (a : Nat) : Byte :=
  if mem then KMap.get 0 s.mem.bytes a else KMap.get 0 (s.sheaf (r / 4096)).loft a

/-- Bits of an element on the far side. -/
def farElem (s : State) (r : Nat) (mem : Bool) (a e : Nat) : Nat :=
  ofLe ((List.range e).map (fun k => farByte s r mem (a + k)))

/-- Memory sectors an element touches, its scale byte included. -/
def elemSectors (v : View) (far base i : Nat) : List Nat :=
  match v.addr far base i with
  | none => []
  | some a => sectorsOf a.toNat (elemSize far) ++ (if isBlockFmt far then sectorsOf (v.scaleAddr base i).toNat 1 else [])

/-- Every memory sector an LD or ST touches. -/
def lsSectors (q : QEntry) : List Nat :=
  match lsViewOf q with
  | none => []
  | some v => ((List.range v.count).flatMap (elemSectors v (lsFarFmt q.raw) (lsBase q.raw q.regs))).dedup

/-- The first output element drawn from a poisoned sector; N where none is (Table 14-8). -/
def lsStop (s : State) (q : QEntry) (v : View) : Nat :=
  if !lsMem q.raw || lsSt q.raw then v.count
  else ((List.range v.count).find? (fun i =>
    (elemSectors v (lsFarFmt q.raw) (lsBase q.raw q.regs) i).any (sectorBad s))).getD v.count

/-! ### Converting (R212, R236) -/

/-- What an element contributes: its value, its source format, and what it reads. -/
structure SrcElem where
  v : Val
  fmt : Nat
  /-- the element, or its block's scale, is NaN as read -/
  nan : Bool
  /-- scale byte's place, for a NaN block -/
  block : Option Int
  raw : W64
  deriving DecidableEq, Repr

/-- Output element `i` of an LD as read, padding taking the fill (R230, R236). -/
def ldElem (s : State) (r : Nat) (q : QEntry) (v : View) (i : Nat) : SrcElem :=
  let w := q.raw
  let src := lsSrc w
  let base := lsBase w q.regs
  let ftz := ncFtzIn q.numctl
  match v.addr src base i with
  | none =>
    let ff := fillFmt (lsDst w)
    let raw := namedReg q.regs (lsFill w)
    let x := decodeElem ff ftz raw
    { v := x, fmt := ff, nan := x.isNan, block := none, raw := BitVec.ofNat 64 (raw + (if ff = 0 then 2 ^ 40 else 2 ^ 41)) }
  | some a =>
    let raw := farElem s r (lsMem w) a.toNat (elemSize src)
    let x := decodeElem src ftz raw
    if isBlockFmt src then
      let sa := v.scaleAddr base i
      let sb := farElem s r (lsMem w) sa.toNat 1
      { v := x.scaled sb, fmt := src, nan := x.isNan || decide (sb = 0x80), block := if sb = 0x80 then some sa else none,
        raw := BitVec.ofNat 64 (raw + sb * 2 ^ 32) }
    else { v := x, fmt := src, nan := x.isNan, block := none, raw := BitVec.ofNat 64 raw }

/-- Output element `i` of an ST as read from the scratchpad (R236, R237). -/
def stElem (q : QEntry) (x : Reed) (v : View) (i : Nat) : SrcElem :=
  let w := q.raw
  let src := lsSrc w
  let o := operandOf (insF w 1) q.regs
  let raw := spElem x.sp (elemAddr o (elemSize src) i) (elemSize src)
  let y := decodeElem src (ncFtzIn q.numctl) raw
  if isBlockFmt src then
    let b := blockOf v (lsBlockDim w) i
    let sb := spElem x.sp (lsScaleAddr w q.regs + b) 1
    { v := y.scaled sb, fmt := src, nan := y.isNan || decide (sb = 0x80), block := if sb = 0x80 then some (b : Int) else none,
      raw := BitVec.ofNat 64 (raw + sb * 2 ^ 32) }
  else { v := y, fmt := src, nan := y.isNan, block := none, raw := BitVec.ofNat 64 raw }

/-- The rounding of a conversion: LM19_TRUNC for FP32 to LM19 in LD, else RND_CONV (Table 8-6). -/
def lsRnd (ld : Bool) (src dst : Nat) (nc : W32) (u : Nat) : Rnd :=
  if ld && decide (src = 0) && decide (dst = 1) then (if ncLm19Trunc nc then .zero else .nearest) else ncConv nc u

/-- Convert one element to a format that is not block-scaled; an exact widening uses no `NUMCTL` field (R212). -/
def lsConvert (ld : Bool) (dst : Nat) (nc : W32) (u : Nat) (e : SrcElem) : Enc :=
  encodeElem dst (if widens e.fmt dst then nc &&& 0xFFFFFFBF else nc) (lsRnd ld e.fmt dst nc u) e.v

/-- CONSUMED events of source elements: one for a NaN element, one for a NaN block at the first element drawn from it. -/
def srcEvents (es : List (Nat × SrcElem)) : List TrapEv :=
  (es.filter (fun e => e.2.nan && (match e.2.block with
    | none => true
    | some b => (es.find? (fun x => decide (x.2.block = some b))).map (·.1) = some e.1))).map (fun e => ⟨0, e.1, 0, 0, 5⟩)

/-- A block of a block-scaled destination: the indices of its elements and where its scale lies. -/
structure DstBlock where
  place : Int
  idx : List Nat
  enc : BlockEnc
  deriving DecidableEq, Repr

/-- Group output elements by the block they belong to, in order of first occurrence. -/
def groupBlocks (es : List (Nat × List Int)) : List (List Int × List Nat) :=
  ((es.map (·.2)).dedup).map (fun k => (k, (es.filter (fun e => decide (e.2 = k))).map (·.1)))

/-- Convert blocks of a destination (R219); `place` says where the scale of an element's block lies. -/
def convertBlocks (dst : Nat) (nc : W32) (draw : Nat → Nat) (place : Nat → Int) (blocks : List (List Nat))
    (es : List (Nat × SrcElem)) : List DstBlock :=
  blocks.map (fun b =>
    let vs := b.filterMap (fun i => (es.find? (fun e => e.1 = i)).map (·.2.v))
    { place := place (b.head?.getD 0), idx := b, enc := encodeBlock dst nc (b.map (fun i => ncConv nc (draw i))) vs })

/-- The elements of each block that are written when the first `n` elements stand: a trap leaves every block unwritten that is not
whole (R241); where an LD ends at a poisoned sector, the elements before it are written, their block's scale chosen over those
present (Table 14-8; DEDUCED, log entry 81). -/
def keptBlocks (keys : List (Nat × List Int)) (n : Nat) (trap : Bool) : List (List Nat) :=
  ((groupBlocks keys).map (·.2)).filterMap (fun b =>
    let got := b.filter (fun i => decide (i < n))
    if got = [] || (trap && decide (got.length < b.length)) then none else some got)

/-- Events of a block: in a NaN block one for each infinity and one for each NaN operand, all charged to the block's first
element; otherwise each element its own (R219, R220, R241). -/
def DstBlock.events (b : DstBlock) (es : List (Nat × SrcElem)) : List TrapEv :=
  let first := b.idx.head?.getD 0
  if b.enc.scale = 0x80 then
    (es.filter (fun e => b.idx.contains e.1 && e.2.v.infSign.isSome)).map (fun _ => ⟨0, first, 0, 0, 3⟩) ++
    ((srcEvents es).filter (fun t => b.idx.contains t.m)).map (fun t => { t with m := first })
  else (b.idx.zip b.enc.elems).filterMap (fun p => if p.2.conv then some ⟨0, p.1, 0, 0, 3⟩ else none)

/-- Whether elements and scales are copied unchanged: equal block-scaled formats and every output block exactly one source
block, with no padding (R237). Blocks that run along different dimensions on the two sides agree only when each side's blocks
hold one element. -/
def blockCopy (w : BitVec 256) (v : View) : Bool :=
  let count := fun (k : Nat) => (v.dims[k]?).map (·.count)
  decide (lsSrc w = lsDst w) && isBlockFmt (lsSrc w) && v.full &&
  (match v.packed with
   | none => false
   | some p =>
     match v.dims[p]? with
     | none => false
     | some d => decide (d.start % 32 = 0) &&
        (if p = lsBlockDim w then decide (d.count % 32 = 0) || decide (d.start + d.count = d.extent)
         else decide (d.count = 1) && decide (d.start + 1 = d.extent) && decide (count (lsBlockDim w) = some 1)))

/-! ### LD (R236, R241) -/

/-- Elements an LD reads before element `n`. -/
def ldElems (s : State) (r : Nat) (q : QEntry) (v : View) (n : Nat) : List (Nat × SrcElem) :=
  (List.range n).map (fun i => (i, ldElem s r q v i))

/-- The destination blocks of an LD among its first `n` elements, those of a trap being whole. -/
def ldBlocks (s : State) (r : Nat) (q : QEntry) (v : View) (n : Nat) (trap : Bool) (es : List (Nat × SrcElem)) : List DstBlock :=
  let key := fun (i : Nat) => (blockOf v (lsBlockDim q.raw) i : Int)
  convertBlocks (lsDst q.raw) q.numctl (drawU (s.sheaf (r / 4096)) r q 0) key
    (keptBlocks ((List.range v.count).map (fun i => (i, [key i]))) n trap) es

/-- Write one element of F1. -/
def putSp (q : QEntry) (e : Nat) (sp : KMap Byte) (i v : Nat) : KMap Byte :=
  KMap.write sp (elemAddr (operandOf (insF q.raw 1) q.regs) e i) (leBytes e v)

/-- The scratchpad and the clamps after an LD has delivered its first `n` elements, up to a trap or a poisoned sector (R236, R237,
R241, R386). -/
def ldApply (s : State) (r : Nat) (q : QEntry) (x : Reed) (v : View) (n : Nat) (trap : Bool) : Reed × Nat :=
  let w := q.raw
  let dst := lsDst w
  let es := ldElems s r q v n
  if blockCopy w v then
    let done := (ldBlocks s r q v n trap es).flatMap (·.idx)
    let cp := es.filter (fun e => done.contains e.1)
    ({ x with sp := cp.foldl (fun sp e =>
        KMap.put 0 (putSp q 1 sp e.1 (e.2.raw.toNat % 256)) (lsScaleAddr w q.regs + blockOf v (lsBlockDim w) e.1)
          (BitVec.ofNat 8 (e.2.raw.toNat / 2 ^ 32))) x.sp }, 0)
  else if isBlockFmt dst then
    let bs := ldBlocks s r q v n trap es
    ({ x with sp := bs.foldl (fun sp b =>
        KMap.put 0 ((b.idx.zip b.enc.elems).foldl (fun sp p => putSp q 1 sp p.1 p.2.bits) sp)
          (lsScaleAddr w q.regs + b.place.toNat) (BitVec.ofNat 8 b.enc.scale)) x.sp },
     ((bs.flatMap (fun b => b.enc.elems)).map (fun e => b2n e.clamp)).sum)
  else
    let cs := es.map (fun e => (e.1, lsConvert true dst q.numctl (drawU (s.sheaf (r / 4096)) r q 0 e.1) e.2))
    ({ x with sp := cs.foldl (fun sp e => putSp q (elemSize dst) sp e.1 e.2.bits) x.sp }, (cs.map (fun e => b2n e.2.clamp)).sum)

/-- Trap events among the first `n` elements of an LD; a copy of whole blocks reads no values (R203, R237). -/
def ldEvents (s : State) (r : Nat) (q : QEntry) (v : View) (n : Nat) : List TrapEv :=
  let w := q.raw
  let es := ldElems s r q v n
  if blockCopy w v then []
  else if isBlockFmt (lsDst w) then
    let bs := ldBlocks s r q v n false es
    bs.flatMap (fun b => b.events es)
  else srcEvents es ++ es.filterMap (fun e =>
    if (lsConvert true (lsDst w) q.numctl (drawU (s.sheaf (r / 4096)) r q 0 e.1) e.2).conv then some ⟨0, e.1, 0, 0, 3⟩ else none)

/-- Padding elements read among the first `n` (R232). -/
def padCount (v : View) (n : Nat) : Nat := ((List.range n).filter (fun i => !v.valid i)).length

/-! ### ST (R236, R238, R241) -/

/-- The elements of an ST that are written: those whose destination is valid, among the first `n`. -/
def stElems (q : QEntry) (x : Reed) (v : View) (n : Nat) : List (Nat × SrcElem) :=
  ((List.range n).filter v.valid).map (fun i => (i, stElem q x v i))

/-- The block of output element `i`: its coordinates, that of the packed dimension counted in blocks (R229). Two blocks whose bytes
coincide are still two. -/
def View.blockKey (v : View) (i : Nat) : List Int :=
  (v.coords i).zipIdx.map (fun e => if v.packed = some e.2 then e.1 / 32 else e.1)

/-- The destination blocks of an ST wholly among its first `n` elements (R241). -/
def stBlocks (sh : Sheaf) (r : Nat) (q : QEntry) (v : View) (n : Nat) (es : List (Nat × SrcElem)) : List DstBlock :=
  convertBlocks (lsDst q.raw) q.numctl (drawU sh r q 0) (v.scaleAddr (lsBase q.raw q.regs))
    (keptBlocks (((List.range v.count).filter v.valid).map (fun i => (i, v.blockKey i))) n true) es

/-- Bytes at or beyond EXTENT in the final block of the packed dimension, written 0x00 (R238). -/
def tailBytes (v : View) (base i : Nat) : List Nat :=
  match v.packed with
  | none => []
  | some d =>
    let cs := v.coords i
    match v.dims[d]?, cs[d]? with
    | some dm, some c =>
      if c = (dm.extent : Int) - 1 then
        ((List.range 32).map (fun k => c + 1 + k)).filterMap (fun c' =>
          if c' / 32 = c / 32 then some (base + v.offset (some d) packedPos (cs.set d c')).toNat else none)
      else []
    | _, _ => []

/-- A byte that an ST or a TENSOR_MOVE writes: whether it belongs to an element, or is a block's scale or the fill of its
tail, and whether its source was poisoned. -/
structure FarByte where
  addr : Nat
  val : Byte
  elem : Bool
  bad : Bool
  deriving DecidableEq, Repr

/-- The bytes of an element at an address. -/
def elemBytes (a size b : Nat) (bad : Bool) : List FarByte := (leBytes size b).zipIdx a |>.map (fun e => ⟨e.2, e.1, true, bad⟩)

/-- The bytes of a block, by element: the scale and the tail follow the block's last element. -/
def DstBlock.bytes (b : DstBlock) (v : View) (base : Nat) (at' : Nat → Nat) (elems : List (Nat × Nat)) (scale : Nat) :
    List (Nat × List FarByte) :=
  elems.map (fun e => (e.1, elemBytes (at' e.1) 1 e.2 false ++
    (if b.idx.getLast? = some e.1 then
      ⟨b.place.toNat, BitVec.ofNat 8 scale, false, false⟩ ::
        b.idx.flatMap (fun i => (tailBytes v base i).map (fun a => ⟨a, 0, false, false⟩))
     else [])))

/-- The bytes that an ST writes for its first `n` elements, in the order of its output elements (R231), and the clamps it
counts. -/
def stWrites (sh : Sheaf) (r : Nat) (q : QEntry) (x : Reed) (v : View) (n : Nat) : List FarByte × Nat :=
  let w := q.raw
  let dst := lsDst w
  let base := lsBase w q.regs
  let es := stElems q x v n
  let at' := fun (i : Nat) => ((v.addr dst base i).getD 0).toNat
  let inOrder := fun (ws : List (Nat × List FarByte)) =>
    es.flatMap (fun e => ((ws.find? (fun w => w.1 = e.1)).map (·.2)).getD [])
  if isBlockFmt dst then
    let bs := stBlocks sh r q v n es
    if blockCopy w v then
      let raw := fun (i : Nat) => ((es.find? (fun e => e.1 = i)).map (·.2.raw.toNat)).getD 0
      (inOrder (bs.flatMap (fun b =>
        b.bytes v base at' (b.idx.map (fun i => (i, raw i % 256))) (raw (b.idx.head?.getD 0) / 2 ^ 32))), 0)
    else
      (inOrder (bs.flatMap (fun b =>
        b.bytes v base at' (b.idx.zip (b.enc.elems.map (·.bits))) b.enc.scale)),
       ((bs.flatMap (fun b => b.enc.elems)).map (fun e => b2n e.clamp)).sum)
  else
    let cs := es.map (fun e => (e.1, lsConvert false dst q.numctl (drawU sh r q 0 e.1) e.2))
    (cs.flatMap (fun e => elemBytes (at' e.1) (elemSize dst) e.2.bits false), (cs.map (fun e => b2n e.2.clamp)).sum)

/-- Trap events among the first `n` elements of an ST. -/
def stEvents (sh : Sheaf) (r : Nat) (q : QEntry) (x : Reed) (v : View) (n : Nat) : List TrapEv :=
  let w := q.raw
  let es := stElems q x v n
  if blockCopy w v then []
  else if isBlockFmt (lsDst w) then (stBlocks sh r q v n es).flatMap (fun b => b.events es)
  else srcEvents es ++ es.filterMap (fun e =>
    if (lsConvert false (lsDst w) q.numctl (drawU sh r q 0 e.1) e.2).conv then some ⟨0, e.1, 0, 0, 3⟩ else none)

/-- Consecutive element bytes in one 64-byte segment are one run (R243). -/
def segmentRuns : List FarByte → List (List FarByte)
  | [] => []
  | w :: t => match segmentRuns t with
    | [] => [[w]]
    | g :: r => match g with
      | [] => [w] :: r
      | h :: _ => if h.addr / 64 = w.addr / 64 then (w :: g) :: r else [w] :: g :: r

/-- Put a scale or tail byte, which R243 does not count, into the last run of its segment; a run of its own where there is
none. -/
def joinRun (w : FarByte) : List (List FarByte) → List (List FarByte)
  | [] => [[w]]
  | g :: t =>
    let here := g.any (fun x => decide (x.addr / 64 = w.addr / 64))
    if here && !(t.any (fun h => h.any (fun x => decide (x.addr / 64 = w.addr / 64)))) then (g ++ [w]) :: t
    else g :: joinRun w t

/-- The accesses to memory that write a list of bytes (R243, R378). Each carries the bytes as they stand at the end, so that
the order of the list decides between writes to one byte (R231). -/
def memAccesses (ws : List FarByte) : List (List (Nat × Byte)) :=
  let last := ws.foldl (fun (m : KMap Byte) w => KMap.ins m w.addr w.val) []
  let runs := (ws.filter (fun w => !w.elem)).foldl (fun gs w => joinRun w gs) (segmentRuns (ws.filter (·.elem)))
  runs.map (fun g => g.map (fun w => (w.addr, (KMap.look last w.addr).getD w.val)))

/-- Write an ST's bytes to the loft, where its captured slot tells the truss what to record, or to memory (R231, R282, R378). -/
def farWrite (s : State) (r : Nat) (slot : BitVec 4) (mem : Bool) (ws : List FarByte) (errs : List MemErr) : State :=
  if mem then
    ((memAccesses ws).foldl (fun (a : State × List MemErr) g =>
      (memWrite a.1 1 (reedPath r) g a.2, errsLeft a.1 a.2 (g.map (fun w => w.1 / 32)))) (s, errs)).1
  else s.loftStore (r / 4096) (r % 4096) (some slot) (ws.map (fun w => (w.addr, w.val)))

end Sys2Proof.Machine
end

