-- ==== Sys2Proof/Machine/Xc.lean ====
section
/-!
DEFINITION. Neighbour exchange (R149 to R152): XPUT and XGET, moved in pieces of 16 bytes as room and bytes allow.
-/

namespace Sys2Proof.Machine

/-- The bytes in a reed's receive buffer of a direction: 0 north, 1 east, 2 south, 3 west. -/
def Reed.rx (x : Reed) (d : Nat) : List Byte :=
  match d with | 0 => x.rxN | 1 => x.rxE | 2 => x.rxS | _ => x.rxW

def Reed.setRx (x : Reed) (d : Nat) (b : List Byte) : Reed :=
  match d with | 0 => { x with rxN := b } | 1 => { x with rxE := b } | 2 => { x with rxS := b } | _ => { x with rxW := b }

/-- Capacity of a receive buffer (R150). -/
def rxBytes : Nat := 256

/-- Directions of an XPUT. -/
def xputDirs (w : BitVec 256) : List Nat := (List.range 4).filter (fun d => bitOf (insMod w) d)
/-- Direction of an XGET. -/
def xgetDir (w : BitVec 256) : Nat := insMod w % 4

def xcReserved (w : BitVec 256) (hi : Nat) : List (Bool × Flaw) :=
  [(bitsOf (insMod w) 23 hi ≠ 0 || insAux w ≠ 0, (.reservedField, 0)), (insF w 2 ≠ 0, (.reservedField, 2)),
   (insF w 3 ≠ 0, (.reservedField, 3))]

/-- The checks of XPUT. DESIGN CHOICE: the descriptor's checks (R128) come before the reserved bits and the empty mask, for which R149
gives no order (log entry 78). -/
def xputCheck : IssueCheck := fun _ _ w x => do
  let o ← checkOperand (insF w 1) x.regs 1 false
  noFlaw (xcReserved w 4 ++ [(decide (xputDirs w = []), (.fieldRange, 0))])
  pure ([o.extent], [])

/-- The checks of XGET, in the order of XPUT's. -/
def xgetCheck : IssueCheck := fun _ _ w x => do
  let o ← checkOperand (insF w 1) x.regs 1 true
  noFlaw (xcReserved w 2)
  pure ([], [o.extent])

def issueXput (s : State) (r : Nat) : State := engineIssue 0xC0 .xput xputCheck (fun _ _ _ => 0) s r
def issueXget (s : State) (r : Nat) : State := engineIssue 0xC1 .xget xgetCheck (fun _ _ _ => 0) s r
/-- XPUT: its checks and its place in XC's order of XPUTs (R149). -/
def execXput (r : ReedIx) (s : State) : Out := .next (issueXput s r)
/-- XGET: its checks and its place in XC's order of XGETs (R149). -/
def execXget (r : ReedIx) (s : State) : Out := .next (issueXget s r)

/-- The operand of an XC instruction, and its bytes. -/
def xcOperand (q : QEntry) : Operand := operandOf (insF q.raw 1) q.regs
def xcTotal (q : QEntry) : Nat := (xcOperand q).rows * (xcOperand q).rowBytes

/-- Whether every named direction can take a piece: it is closed, or the neighbour's buffer has room (R150, R151). -/
def xputRoom (s : State) (r : Nat) (q : QEntry) : Bool :=
  (xputDirs q.raw).all (fun d => !dirOpen s r d || (match neighbour r d with
    | some n => decide (((s.reed n).rx ((d + 2) % 4)).length + 16 ≤ rxBytes)
    | none => true))

/-- Send the next 16 bytes to every named direction; bytes for a closed one are discarded and marked (R151). -/
def xputPiece (s : State) (r : Nat) (q : QEntry) : State :=
  let o := xcOperand q
  let bs := KMap.bytes (s.reed r).sp (o.addr q.progress) 16
  let s := (xputDirs q.raw).foldl (fun s d =>
    if dirOpen s r d then
      match neighbour r d with
      | some n => s.modReed n (fun y => y.setRx ((d + 2) % 4) (y.rx ((d + 2) % 4) ++ bs))
      | none => s
    else s.modReed r (fun x => { x with edgePut := x.edgePut ||| BitVec.ofNat 4 (2 ^ d) })) s
  s.modReed r (fun x => { x with qxp := match x.qxp with | h :: t => { h with progress := h.progress + 16 } :: t | [] => [] })

/-- Send pieces while there is room. -/
def xputRun : Nat → State → Nat → State
  | 0, s, _ => s
  | n + 1, s, r =>
    match (s.reed r).qxp with
    | q :: _ => if q.started && decide (q.progress < xcTotal q) && xputRoom s r q then xputRun n (xputPiece s r q) r else s
    | [] => s

/-- Take the next 16 bytes: from the buffer, or zeros from a closed direction (R150, R151). -/
def xgetPiece (s : State) (r : Nat) (q : QEntry) : State :=
  let o := xcOperand q
  let d := xgetDir q.raw
  let x := s.reed r
  let shut := !dirOpen s r d
  let bs := if shut then List.replicate 16 0 else (x.rx d).take 16
  let y := { x with sp := KMap.write x.sp (o.addr q.progress) bs,
                    qxg := match x.qxg with | h :: t => { h with progress := h.progress + 16 } :: t | [] => [] }
  s.setReed r (if shut then { y with edgeGet := y.edgeGet ||| BitVec.ofNat 4 (2 ^ d) } else y.setRx d ((x.rx d).drop 16))

/-- Take pieces while bytes are present. -/
def xgetRun : Nat → State → Nat → State
  | 0, s, _ => s
  | n + 1, s, r =>
    match (s.reed r).qxg with
    | q :: _ =>
      if q.started && decide (q.progress < xcTotal q) &&
          (!dirOpen s r (xgetDir q.raw) || decide (16 ≤ ((s.reed r).rx (xgetDir q.raw)).length))
      then xgetRun n (xgetPiece s r q) r else s
    | [] => s

/-- Pieces of the longest possible operand. -/
def maxPieces : Nat := 768 * 255

/-- XC_BUFFER_ROOM: a neighbour's buffer gained room and a waiting XPUT continues (R150). -/
def execXcBufferRoom (r : ReedIx) (s : State) : Out :=
  .next (if clockRuns s (r / 4096) then xputRun maxPieces s r else s)

/-- XC_BYTES_ARRIVE: bytes reached a buffer and a waiting XGET continues (R150). -/
def execXcBytesArrive (r : ReedIx) (s : State) : Out :=
  .next (if clockRuns s (r / 4096) then xgetRun maxPieces s r else s)

/-- When boundaries close, the bytes in the receive buffers on them are discarded (R152). -/
def closeBuffers (s : State) : State :=
  s.sheaves.foldl (fun s e => e.2.reeds.foldl (fun s p =>
    let r := 4096 * e.1 + p.1
    (List.range 4).foldl (fun s d =>
      if ((s.reed r).rx d).isEmpty || dirOpen s r d then s else s.modReed r (fun x => x.setRx d [])) s) s) s

end Sys2Proof.Machine
end

