-- ==== Sys2Proof/Machine/Engines.lean ====
section
/-!
DEFINITION. The engines at work (R133, R134, R140, R220 to R223): an instruction starts, completes, traps, or is abandoned.
-/

namespace Sys2Proof.Machine

/-- Add to the sheaf's clamp counter, which saturates (R217). -/
def Sheaf.addClamps (x : Sheaf) (n : Nat) : Sheaf := { x with clamp := min (x.clamp + n) (2 ^ 64 - 1) }
/-- Add to FILLED and DROPPED (R232). -/
def Sheaf.addPads (x : Sheaf) (f d : Nat) : Sheaf :=
  { x with filled := min (x.filled + f) (2 ^ 64 - 1), dropped := min (x.dropped + d) (2 ^ 64 - 1) }

/-- Apply a function to the head of a queue. -/
def Reed.modHead (x : Reed) (e : Engine) (f : QEntry → QEntry) : Reed :=
  x.setQueue e (match x.queue e with | h :: t => f h :: t | [] => [])

/-- Free the head of a queue. -/
def Reed.popHead (x : Reed) (e : Engine) : Reed := x.setQueue e (x.queue e).tail

/-! ### Start -/

/-- The extents that order the start of an instruction: as issued, or exact once the view is read (R234). -/
def startExtents (q : QEntry) : List (Nat × Nat) × List (Nat × Nat) :=
  if (insOpc q.raw = 0x80 ∨ insOpc q.raw = 0xA0) ∧ lsView q.raw ∧ isBlockFmt (lsSpFmt q.raw) then
    match lsViewOf q with
    | none => (q.srcs, q.dsts)
    | some v =>
      let f1 := (operandOf (insF q.raw 1) q.regs).extent
      let rec' := (operandOf (insF q.raw 3) q.regs).extent
      let se := lsExactScale q v
      if lsSt q.raw then (f1 :: rec' :: se, []) else ([rec'], f1 :: se)
  else (q.srcs, q.dsts)

/-- The entry with its view record read from the scratchpad (R234, R239). -/
def readView (x : Reed) (q : QEntry) : QEntry :=
  if (insOpc q.raw = 0x80 ∨ insOpc q.raw = 0xA0) ∧ lsView q.raw then
    { q with view := (operandOf (insF q.raw 3) q.regs).read x.sp } else q

/-- Whether an older incomplete instruction holds back the head of a queue (R134), the record's writers first (R234). -/
def headWaits (x : Reed) (q : QEntry) : Bool :=
  let older := x.allQueued.filter (fun o => decide (o.seqNo < q.seqNo))
  let rec' := if (insOpc q.raw = 0x80 ∨ insOpc q.raw = 0xA0) ∧ lsView q.raw then
      [(operandOf (insF q.raw 3) q.regs).extent] else []
  if waitsFor older rec' [] then true
  else
    let e := startExtents (readView x q)
    waitsFor older e.1 e.2 ||
    (decide (insOpc q.raw = 0x42 ∨ insOpc q.raw = 0x43) && x.rowsPending (accFirst q.raw) (accCount q.raw))

/-- A flaw found at the start (R239; the weathervane reserve grown over an LDPAGE's source, R106; the hyperparameter record's
reserved bytes, R269). -/
def startFlaw (s : State) (r : Nat) (x : Reed) (q : QEntry) : Option Flaw :=
  match insOpc q.raw with
  | 0x80 => lsStartChecks s r q
  | 0xA0 => lsStartChecks s r q
  | 0x81 => if loftSpace (s.sheaf (r / 4096)) < insAux q.raw + 32 * pageCount q.raw then some (.bound, 0) else none
  | 0x66 => if q.vl ≠ 0 && !recordOk q x then some (.reservedField, 0) else none
  | _ => none

/-- Free values an instruction may draw: none when its draws are keyed and it is no OPT (R215, R193). -/
def freeDraws (q : QEntry) : Nat :=
  if insOpc q.raw = 0x66 then 32768
  else if q.rngKeyed then 0
  else if insOpc q.raw = 0x40 ∨ insOpc q.raw = 0x41 then 32768 * ((mmaF q.raw).k / (mmaF q.raw).ks)
  else 32768

/-- Bytes of source elements that an LD's view reads, padding included, without block scales (R258, R260). -/
def ldSourceBytes (q : QEntry) : Nat := (lsViewOf q).elim 0 (·.count) * elemSize (lsSrc q.raw)

/-- Whether a queue's head waits for memory: an LD or ST whose elements lie on a page being retired, or behind traffic that is held (R384,
R389, R439). -/
def memWaits (s : State) (r : Nat) (q : QEntry) : Bool :=
  decide (insOpc q.raw = 0x80 ∨ insOpc q.raw = 0xA0) && lsMem q.raw && sheafHeld s (r / 4096) (lsSectors q)

/-- Whether the data of a running LD, or the acknowledgement of an ST, waits behind a die that holds traffic (R439, R440). -/
def dataHeld (s : State) (r : Nat) (q : QEntry) : Bool :=
  decide (insOpc q.raw = 0x80 ∨ insOpc q.raw = 0xA0) && lsMem q.raw &&
  (dieHolds s (4 + r / 4096 / 16) || (lsSectors q).any (fun n => dieHolds s (memChan (32 * n) / 128)))

/-- ENGINE_INSTRUCTION_START: the head of a queue starts once R134 allows it and its start checks pass; a failed check faults
the reed (R133, R134, R239). XC moves its first pieces. -/
def execEngineInstructionStart (r : ReedIx) (e : Engine) (errs : List MemErr) (s : State) : Out :=
  .next (
    let x := s.reed r
    match x.queue e with
    | [] => s
    | q :: _ =>
      if q.started || !clockRuns s (r / 4096) || headWaits x q || (decide (e = .ld) && memWaits s r (readView x q)) then s
      else
        let q := readView x q
        match startFlaw s r x q with
        | some f => streamFault s r f q.index.toNat
        | none =>
          let ext := startExtents q
          let q := { q with started := true, srcs := ext.1, dsts := ext.2, freeBase := s.free,
                            errs := errs }
          let s := { s with free := s.free + freeDraws q }
          let s := s.modReed r (fun x => x.modHead e (fun _ => q))
          match e with
          | .xput => xputRun maxPieces s r
          | .xget => xgetRun maxPieces s r
          | .ld =>
            if insOpc q.raw ≠ 0x80 then s
            else
              let s := s.modSheaf (r / 4096) (fun sh => { sh with wv := sh.wv.sized r q.seqNo (ldSourceBytes q) })
              if lsMem q.raw then touchSectors s 1 (reedPath r) (lsSectors q) errs else s
          | _ => s)

/-! ### What a running instruction does -/

/-- Elements before which a running LD stops for a poisoned sector; beyond any element otherwise. -/
def stopOf (s : State) (q : QEntry) : Nat :=
  match lsViewOf q with
  | some v => lsStop s q v
  | none => 0

/-- Every trap event of a running instruction (Table 8-9). -/
def engineEvents (s : State) (r : Nat) (q : QEntry) : List TrapEv :=
  let x := s.reed r
  let sh := s.sheaf (r / 4096)
  match insOpc q.raw with
  | 0x40 => mmaEvents sh r q x
  | 0x41 => mmaEvents sh r q x
  | 0x43 => accstEvents sh r q x
  | 0x80 => match lsViewOf q with
    | some v => ldEvents s r q v (lsStop s q v)
    | none => []
  | 0xA0 => match lsViewOf q with
    | some v => stEvents sh r q x v v.count
    | none => []
  | 0x42 => []
  | 0x81 => []
  | 0xC0 => []
  | 0xC1 => []
  | _ => vxEvents sh r q x

/-- The events that are traps (R220). -/
def engineTraps (s : State) (r : Nat) (q : QEntry) : List TrapEv := enabledEvs q (engineEvents s r q)

/-- Replace a reed and count clamps in its sheaf. -/
def putReed (s : State) (r : Nat) (y : Reed × Nat) : State :=
  (s.setReed r y.1).modSheaf (r / 4096) (fun sh => sh.addClamps y.2)

/-- The effect of an instruction on its destinations: all of it, or what R174, R200 and R241 say is written before the trap
event `halt`. -/
def engineEffect (s : State) (r : Nat) (q : QEntry) (halt : Option TrapEv) : State :=
  let x := s.reed r
  let sh := s.sheaf (r / 4096)
  let cut := fun (all : Nat) (f : TrapEv → Nat) => match halt with | some ev => f ev | none => all
  match insOpc q.raw with
  | 0x40 => putReed s r (mmaApply sh r q x (cut (mmaRun q).steps (mmaStepOf q)))
  | 0x41 => putReed s r (mmaApply sh r q x (cut (mmaRun q).steps (mmaStepOf q)))
  | 0x42 => s.setReed r (acczApply q x)
  | 0x43 => putReed s r (accstApply sh r q x (cut (accCount q.raw) (fun ev => ev.m - accFirst q.raw)))
  | 0x80 => match lsViewOf q with
    | some v =>
      let n := cut (lsStop s q v) (·.m)
      (putReed s r (ldApply s r q x v n halt.isSome)).modSheaf (r / 4096) (fun sh => sh.addPads (padCount v n) 0)
    | none => s
  | 0x81 => s.setReed r (pageApply sh q x)
  | 0xA0 => match lsViewOf q with
    | some v =>
      let n := cut v.count (·.m)
      let ws := stWrites sh r q x v n
      (farWrite s r q.slot (lsMem q.raw) ws.1 q.errs).modSheaf (r / 4096)
        (fun sh => (sh.addPads 0 (padCount v n)).addClamps ws.2)
    | none => s
  | 0xC0 => s
  | 0xC1 => s
  | _ => putReed s r (vxApply sh r q x (cut (q.vl.toNat + 1) (vxUnitOf q)))

/-- The weathervane takes what a completed instruction gives it: the elements of a captured LD, the tapped sums of a sampled
MMA (R258, R261). -/
def wvComplete (s : State) (r : Nat) (q : QEntry) : State :=
  let sh := s.sheaf (r / 4096)
  let x := s.reed r
  match insOpc q.raw with
  | 0x80 =>
    let wants := fun (c : Capture) => decide (c.reed = r ∧ c.seqNo = q.seqNo)
    if (sh.wv.captures ++ sh.wv.samples.flatMap (·.caps)).any wants then
      match lsViewOf q with
      | some v =>
        let es := (ldElems s r q v v.count).map (·.2.raw)
        let fill := fun (c : Capture) => if wants c then { c with elems := es } else c
        s.setSheaf (r / 4096) { sh with wv := { sh.wv with
          captures := sh.wv.captures.map fill, samples := sh.wv.samples.map (fun y => { y with caps := y.caps.map fill }) } }
      | none => s
    else s
  | op =>
    if op = 0x40 ∨ op = 0x41 then
      s.setSheaf (r / 4096) { sh with wv := { sh.wv with samples := sh.wv.samples.map (fun y =>
        if y.reed = r ∧ y.seqNo = q.seqNo ∧ y.pairs = none then
          { y with pairs := some (samplePairs y q x), landed := (mmaF q.raw).dest }
        else y) } }
    else s

/-! ### Complete -/

/-- Whether a running instruction has done all its work: XC has moved every byte. -/
def workDone (q : QEntry) : Bool :=
  if insOpc q.raw = 0xC0 ∨ insOpc q.raw = 0xC1 then decide (xcTotal q ≤ q.progress) else true

/-- ENGINE_INSTRUCTION_COMPLETE: the running instruction of an engine ends with its effect in place and frees its entry; an ST
has written and waits for its acknowledgement; an LD that met a poisoned sector faults the reed (R120, R140, R240, R386).
An instruction with a trap still to be taken does not complete. -/
def execEngineInstructionComplete (r : ReedIx) (e : Engine) (s : State) : Out :=
  .next (
    match (s.reed r).queue e with
    | [] => s
    | q :: _ =>
      if !q.started || !workDone q || !clockRuns s (r / 4096) || dataHeld s r q || (!q.trapsDone && !(engineTraps s r q).isEmpty) then s
      else match e with
      | .st =>
        if q.progress = 0 && !memWaits s r q then
          (engineEffect s r q none).modReed r (fun x => x.modHead e (fun h => { h with progress := 1 }))
        else s
      | _ =>
        let stop := decide (e = .ld) && decide (insOpc q.raw = 0x80) &&
          (match lsViewOf q with | some v => decide (stopOf s q < v.count) | none => false)
        let s := wvComplete s r q
        let s := (engineEffect s r q none).modReed r (fun x => x.popHead e)
        if stop then (enterFaulted s r 3).flushWatches else s)

/-- ST_ACKNOWLEDGED: the loft or memory acknowledges the last write, which completes the ST (R120, R240). -/
def execStAcknowledged (r : ReedIx) (s : State) : Out :=
  .next (
    match (s.reed r).qst with
    | [] => s
    | q :: _ =>
      if !q.started || !clockRuns s (r / 4096) || dataHeld s r q || (decide (q.progress = 0) && memWaits s r q) ||
         (!q.trapsDone && !(engineTraps s r q).isEmpty) then s
      else
        let s := if q.progress = 0 then engineEffect s r q none else s
        s.modReed r (fun x => x.popHead .st))

/-! ### Trap (R223) -/

/-- The trap record of an event (Table 8-10). -/
def trapRecord (r : Nat) (q : QEntry) (ev : TrapEv) : TrapRec :=
  let lc := fun (k : Nat) => ((q.iters[k]?).getD 0).toNat
  { r0 := BitVec.ofNat 64 ((reedPath r).toNat + q.slot.toNat * 2 ^ 24 + q.index.toNat * 2 ^ 32 + insOpc q.raw * 2 ^ 40 +
      ev.cause * 2 ^ 48 + 2 ^ 52),
    r1 := BitVec.ofNat 64 (lc 0 + lc 1 * 2 ^ 32), r2 := BitVec.ofNat 64 (lc 2 + lc 3 * 2 ^ 32),
    r3 := BitVec.ofNat 64 (ev.m % 65536 + ev.n * 2 ^ 16 + ev.k * 2 ^ 32) }

/-- The 32 bytes of a trap record. -/
def TrapRec.bytes (t : TrapRec) : List Byte :=
  leBytes 8 t.r0.toNat ++ leBytes 8 t.r1.toNat ++ leBytes 8 t.r2.toNat ++ leBytes 8 t.r3.toNat

/-- Step 1 of R223: an empty record is filled, with one NUMERIC_TRAP event. -/
def noteTrap (s : State) (r : Nat) (q : QEntry) (ev : TrapEv) : State :=
  let x := s.reed r
  if x.trapRec.r0.getLsbD 52 then s
  else
    let t := trapRecord r q ev
    let s := s.setReed r { x with trapRec := t }
    s.event { opcode := 0x0B02, group := 1, status := .numericTrap, path := reedPath r, allot := s.allotOf (r / 4096),
              slot := q.slot, ustate := (s.sheaf (r / 4096)).stOf (r % 4096), detail := t.bytes }

/-- `TRAPCTL`.COUNT grows, saturating (Table 5-5). -/
def Reed.countTraps (x : Reed) (n : Nat) : Reed :=
  { x with trapCount := BitVec.ofNat 16 (min (x.trapCount.toNat + n) 0xFFFF) }

/-- The sample of an instruction that faults is discarded (R259). -/
def dropSample (s : State) (r : Nat) (q : QEntry) : State :=
  s.modSheaf (r / 4096) (fun sh => { sh with wv := sh.wv.dropSamples (fun y => decide (y.reed = r ∧ y.seqNo = q.seqNo)) })

/-- NUMERIC_TRAP: the traps of the running instruction. With ACTION = 0 the first is recorded, the instruction stops there and
the reed halts; with ACTION = 1 each counts and the instruction goes on (R174, R200, R223, R241). -/
def execNumericTrap (r : ReedIx) (e : Engine) (s : State) : Out :=
  .next (
    match (s.reed r).queue e with
    | [] => s
    | q :: _ =>
      if !q.started || q.trapsDone || !clockRuns s (r / 4096) then s
      else
        let evs := engineTraps s r q
        match firstEv evs with
        | none => s
        | some ev =>
          let s := noteTrap s r q ev
          if q.trapAction then
            s.modReed r (fun x => (x.countTraps evs.length).modHead e (fun h => { h with trapsDone := true }))
          else
            let s := engineEffect s r q (some ev)
            let s := s.modReed r (fun x => (x.countTraps 1).popHead e)
            (enterFaulted (dropSample s r q) r 1).flushWatches)

/-! ### The checker (R263 to R265) -/

/-- |narrow − w| / |w| in FP32; with w = 0, 0 or +∞ (R263). -/
def relOf (narrow w : Val) : Val :=
  if w.isZero then (if narrow.isZero then .zero else .inf false)
  else (fDiv (fSub narrow w).v.abs w.abs).v

/-- The histogram bin of a relative error (Table 10-2). -/
def binOf (rel : Val) : Nat :=
  let below := fun (k : Int) => rel.lt (.fin false 1 k)
  if below (-12) then 0 else if below (-10) then 1 else if below (-8) then 2 else if below (-6) then 3
  else if below (-4) then 4 else if below (-2) then 5 else if below 0 then 6 else 7

/-- Compare one element. -/
def WvStats.element (st : WvStats) (tol : W32) (path : BitVec 24) (info : Byte) (p : W32 × W32) : WvStats :=
  let n := val32 false p.1.toNat
  let w := val32 false p.2.toNat
  if n.isNan || w.isNan || n.infSign.isSome || w.infSign.isSome then { st with excluded := sat32 (st.excluded + 1) }
  else
    let rel := relOf n w
    let b := binOf rel
    let top := (val32 false st.maxRel.toNat).lt rel
    { st with
      hist := st.hist.set b (sat32 ((st.hist[b]?).getD 0 + 1)),
      overTol := if (val32 false tol.toNat).lt rel then sat32 (st.overTol + 1) else st.overTol,
      maxRel := if top then BitVec.ofNat 32 (bits32 rel) else st.maxRel,
      maxPath := if top then path else st.maxPath, maxInfo := if top then info else st.maxInfo }

/-- The 64 bytes of the statistics record (Table 10-1). -/
def WvStats.bytes (x : WvStats) : List Byte :=
  leBytes 4 x.sampled ++ leBytes 4 x.wideBoth ++ leBytes 4 x.skipped ++ leBytes 4 x.excluded ++ leBytes 4 x.overTol ++
  leBytes 4 x.maxRel.toNat ++ leBytes 3 x.maxPath.toNat ++ [x.maxInfo] ++ leBytes 2 x.suppressed ++ leBytes 2 0 ++
  x.hist.flatMap (leBytes 4)

/-- WV_SAMPLE_COMPARE: the checker completes the first sample whose instruction has run (R262 to R265). -/
def execWvSampleCompare (g : SheafIx) (s : State) : Out :=
  .next (
    let sh := s.sheaf g
    match sh.wv.samples.find? Sample.ready with
    | none => s
    | some y =>
      if !clockRuns s g then s else
      let ps := y.pairs.getD []
      let info : Byte := BitVec.ofNat 8 (y.index.toNat + 64 * b2n y.wideA + 128 * b2n y.wideB)
      let st0 := sh.wv.stats
      let st := ps.foldl (fun st p => st.element sh.wv.tolerance (reedPath y.reed) info p) st0
      let st := { st with sampled := sat32 (st.sampled + 1),
                          wideBoth := if y.wideA && y.wideB then sat32 (st.wideBoth + 1) else st.wideBoth }
      let above := (ps.filter (fun p =>
        let n := val32 false p.1.toNat
        let w := val32 false p.2.toNat
        !(n.isNan || w.isNan || n.infSign.isSome || w.infSign.isSome) &&
        (val32 false sh.wv.tolerance.toNat).lt (relOf n w))).length
      let hit := sh.wv.threshold ≠ 0 && decide (sh.wv.threshold.toNat ≤ above)
      let st := if hit && sh.wv.eventWindow then { st with suppressed := min (st.suppressed + 1) 0xFFFF } else st
      let write := hit && !sh.wv.eventWindow
      let s := s.setSheaf g { sh with wv := { sh.wv with
        samples := sh.wv.samples.erase y, stats := st, eventWindow := sh.wv.eventWindow || write } }
      if write then
        s.event { opcode := 0x0B03, group := 1, status := .ok, path := reedPath y.reed, allot := s.allotOf g, slot := y.slot,
                  ustate := sh.stOf (y.reed % 4096), detail := st.bytes }
      else s)

/-! ### Abandoning (R81) -/

/-- Bytes that hold either their old or their new value, chosen by free bits from `base` on. -/
def mixBytes {α : Type} [DecidableEq α] (d : α) (base : Nat) (old new : KMap α) : KMap α :=
  let ks := ((old.map (·.1)) ++ (new.map (·.1))).dedup.filter (fun k => KMap.get d old k ≠ KMap.get d new k)
  (ks.zipIdx base).foldl (fun m e =>
    if (Config.freeWord e.2).getLsbD 0 then KMap.put d m e.1 (KMap.get d new e.1) else m) old

/-- A unit reset abandons a running instruction: each byte of its destination holds its old contents or the value it would
have written, and as many of its saturated results count as clamps as a free value says (R81, R217, log entry 28); an MMA into the bank has entered some of its row steps, whose sums land (R81, R164). -/
def abandonOne (s : State) (r : Nat) (q : QEntry) : State :=
  if !q.started then s
  else if (insOpc q.raw = 0x40 ∨ insOpc q.raw = 0x41) ∧ !(mmaF q.raw).dest then
    let n := (Config.freeWord s.free).toNat % ((mmaRun q).steps + 1)
    let s := { s with free := s.free + 1 }
    s.setReed r (mmaApply (s.sheaf (r / 4096)) r q (s.reed r) n).1
  else
    let t := engineEffect s r q none
    let x := s.reed r
    let y := t.reed r
    let b := s.free
    let span := 65536
    let s' := s.setReed r { x with
      sp := mixBytes 0 b x.sp y.sp, bank := mixBytes 0 (b + span) x.bank y.bank,
      cache := mixBytes 0 (b + 2 * span) x.cache y.cache, ibuf := y.ibuf }
    let s' := s'.modSheaf (r / 4096) (fun sh =>
      { sh with loft := mixBytes 0 (b + 3 * span) (s.sheaf (r / 4096)).loft (t.sheaf (r / 4096)).loft }.addClamps
        ((Config.freeWord (b + 69 * span)).toNat % ((t.sheaf (r / 4096)).clamp - (s.sheaf (r / 4096)).clamp + 1)))
    let bs := mixBytes 0 (b + 70 * span) s.mem.bytes t.mem.bytes
    { s' with mem := { s'.mem with bytes := bs }, free := s.free + 2 ^ 43 }

/-- Abandon every running instruction of a reed. -/
def abandonAll (s : State) (r : Nat) : State := (s.reed r).allQueued.foldl (fun s q => abandonOne s r q) s

end Sys2Proof.Machine
end

