-- ==== Sys2Proof/Machine/Power.lean ====
section
/-!
DEFINITION. Clock setpoints, ceilings and stretches, the power governor, temperatures (chapter 16) and the commands of
the power class (R109, R110). Temperatures are in 1/16 °C, clocks in MHz.
-/

namespace Sys2Proof.Machine

/-! ### Clocks of a sheaf (R430, R431) -/

/-- The lowest of the setpoint in force, thermal ceiling and power ceiling; not below 400 MHz. -/
def SClock.unstretched (c : SClock) (powerCeiling : Nat) : Nat := max 400 (min c.inForce (min c.ceiling powerCeiling))

/-- The effective clock of an awake sheaf (R430). -/
def SClock.effective (c : SClock) (powerCeiling : Nat) (tripped : Bool) : Nat :=
  if c.limited || tripped then 0
  else match c.stretch with
    | some half => max 200 (min half (c.unstretched powerCeiling))
    | none => c.unstretched powerCeiling

/-- Whether any stretch is in force. -/
def SClock.stretched (c : SClock) : Bool := c.thermalStretch || c.droopStretch || c.currentStretch

/-- The first stretch to engage halves the clock at which it engages; a further one halves nothing more (R430). -/
def SClock.engage (c : SClock) (powerCeiling : Nat) : SClock :=
  match c.stretch with
  | some _ => c
  | none => { c with stretch := some (max 200 (c.unstretched powerCeiling / 2)) }

/-- The stored setpoint comes into force; a thermal ceiling that no thermal action holds down follows it (R110, R437). -/
def SClock.apply (c : SClock) : SClock :=
  let free := !c.limited && !c.thermalStretch && (decide (c.inForce ≤ c.ceiling) || decide (c.setpoint ≤ c.ceiling))
  { c with inForce := c.setpoint, ceiling := if free then c.setpoint else c.ceiling }

/-- The halving ends with the last stretch, and a setpoint stored meanwhile applies (R430, R441). -/
def SClock.release (c : SClock) : SClock := if c.stretched then c else SClock.apply { c with stretch := none }

/-- The thermal action of Table 16-11 in force: limit, else stretch, else throttle. -/
def SClock.thermalAction (c : SClock) : Nat :=
  if c.limited then 3 else if c.thermalStretch then 1 else if c.ceiling < c.inForce then 2 else 0

/-- The action THERMAL_READ reports (R438). -/
def SClock.reported (c : SClock) (powerCeiling : Nat) (tripped : Bool) : Nat :=
  if c.limited || tripped then 3 else if c.stretched then 1 else if min c.ceiling powerCeiling < c.inForce then 2 else 0

/-- Mark a change of effective clock other than a stretch as under way (R431). -/
def SClock.settle (new old : SClock) (pc : Nat) : SClock :=
  if new.unstretched pc = old.unstretched pc then new else { new with ramping := true }

/-! ### Events -/

/-- The thermal action of an awake sheaf: under a module trip every sheaf takes action 3 (R440). -/
def sheafAction (s : State) (g : Nat) : Nat := if s.pow.tripped then 3 else (s.sheaf g).clock.thermalAction

/-- The THERMAL event of a sheaf, when its thermal action differs from the last reported and none was written within
1 ms (R438). -/
def thermalReport (s : State) (g : Nat) : State :=
  let sh := s.sheaf g
  let c := sh.clock
  let a := sheafAction s g
  if a = c.eventAction || c.eventWindow then s
  else
    let s := s.setSheaf g { sh with clock := { c with eventAction := a, eventWindow := true } }
    s.event { opcode := 0x0B0B, group := 6, status := if a = 3 then .thermalLimit else .ok,
              path := sheafPath g, allot := s.allotOf g, slot := 0xF, ustate := (sh.topAt 5).getD .off,
              detail := leBytes 2 (ofInt 16 c.temp) ++ [BitVec.ofNat 8 a] }

/-- The sheaves that are awake. -/
def awakeSheaves (s : State) : List Nat := (s.sheaves.filter (fun e => decide (e.2.power = .awake))).map (·.1)

/-- The THERMAL events of every awake sheaf whose action has changed. -/
def thermalReports (s : State) : State := (awakeSheaves s).foldl thermalReport s

/-- Whether the power ceiling holds any awake sheaf below its setpoint (R432, R435). -/
def powerThrottled (s : State) : Bool :=
  s.sheaves.any (fun e => decide (e.2.power = .awake) && decide (s.pow.ceiling < e.2.clock.setpoint))

/-- The POWER event, when the throttled state differs from the last reported and none was written within 1 ms (R435). -/
def powerReport (s : State) : State :=
  let t := powerThrottled s
  if t = s.pow.eventLimited || s.pow.eventWindow then s
  else
    let s := { s with pow := { s.pow with eventLimited := t, eventWindow := true } }
    s.moduleEvent 0x0B0C 6 (if t then .powerLimit else .ok) (leBytes 2 s.pow.inputW ++ leBytes 2 s.pow.cap)

/-! ### Governors -/

/-- Apply a function to the clock of every awake sheaf. -/
def State.mapClocks (s : State) (f : SClock → SClock) : State :=
  (awakeSheaves s).foldl (fun s g => s.modSheaf g (fun sh => { sh with clock := f sh.clock })) s

/-- The limit on the 1 ms average of the input: the cap, or 300 A times VIN12 (R432). -/
def powerLimitW (p : Power) : Nat := min p.capNow (300 * p.vin12mV / 1000)

/-- The power ceiling after a sample: down 25 MHz every ten samples above the limit, up 25 MHz after every hundred below
97 % of it (R432). -/
def Power.govern (p : Power) : Power :=
  let lim := powerLimitW p
  if lim < p.averageW then
    { p with ceiling := if p.overCount = 0 then max 400 (p.ceiling - 25) else p.ceiling,
             overCount := (p.overCount + 1) % 10, underCount := 0 }
  else if p.averageW * 100 < lim * 97 then
    if p.underCount = 100 then { p with ceiling := min 900 (p.ceiling + 25), overCount := 0, underCount := 1 }
    else { p with overCount := 0, underCount := p.underCount + 1 }
  else { p with overCount := 0, underCount := 0 }

/-- The cap that POWER_CAP has set acts, unless a change of some sheaf's clock is under way (R441). -/
def capActs (s : State) : State :=
  if s.sheaves.any (fun e => decide (e.2.power = .awake) && e.2.clock.ramping) then s else { s with pow := { s.pow with capNow := s.pow.cap } }

/-- POWER_SAMPLE: a 10 µs measurement of the 12 V input (R432, R433, R435). -/
def execPowerSample (inputW averageW currentA vin12mV : Nat) (s : State) : Out :=
  .next (
    if !s.boot.released then s else
    let s := capActs s
    let p : Power := { s.pow with inputW := inputW, averageW := averageW, vin12mV := vin12mV, energy := s.pow.energy + inputW }
    let old := p.ceiling
    let p := p.govern
    let start := !p.currentStretch && decide (310 < currentA)
    let stop := p.currentStretch && decide (currentA < 290)
    let s : State := { s with pow := { p with currentStretch := (p.currentStretch || start) && !stop } }
    let s :=
      if start then s.mapClocks (fun c => { c.engage old with currentStretch := true })
      else if stop then thermalReports (s.mapClocks (fun c => (SClock.release { c with currentStretch := false }).settle c old))
      else s
    let s := if p.ceiling = old then s
      else s.mapClocks (fun c => if c.unstretched old = c.unstretched p.ceiling then c else { c with ramping := true })
    powerReport s)

/-- DROOP: the supply of a sheaf droops by more than 5 % (R436). -/
def execDroop (sh : SheafIx) (s : State) : Out :=
  .next (
    let x := s.sheaf sh
    if x.power ≠ .awake then s
    else s.setSheaf sh { x with clock := { x.clock.engage s.pow.ceiling with droopStretch := true } })

/-- DROOP_RELEASE: 10 µs after the supply has recovered (R436). -/
def execDroopRelease (sh : SheafIx) (s : State) : Out :=
  .next (
    let x := s.sheaf sh
    if x.power ≠ .awake || !x.clock.droopStretch then s
    else thermalReport (s.setSheaf sh { x with clock :=
      (SClock.release { x.clock with droopStretch := false }).settle x.clock s.pow.ceiling }) sh)

/-- Table 16-11 after one sample of temperature `t` (R437); `r` is the rise since the sample ten earlier, or the oldest
since the wake. -/
def SClock.thermal (c : SClock) (t : Int) (pc : Nat) : SClock :=
  let r := t - (c.samples.head?).getD t
  let c := { c with temp := t, samples := (c.samples ++ [t]).drop (c.samples.length + 1 - 10) }
  let proj := t + 5 * r
  let hot := decide (1616 ≤ t) || decide (1680 ≤ proj)
  if 1680 ≤ t then { c with limited := true }
  else if c.limited then
    if 1648 ≤ t then c
    else { (SClock.engage { c with limited := false } pc) with thermalStretch := true, coolCount := 0 }
  else if c.thermalStretch then
    let ceil := max 400 (c.ceiling - 25)
    let cool := if hot then 0 else c.coolCount + 1
    let c := { c with ceiling := ceil, coolCount := cool, raiseCount := 0 }
    if ceil ≤ c.stretch.getD 0 || (decide (ceil = 400) && decide (10 ≤ cool)) then
      SClock.release { c with thermalStretch := false } else c
  else if hot then { c.engage pc with thermalStretch := true, coolCount := 0, raiseCount := 0 }
  else if c.ceiling < c.inForce then
    if 1600 ≤ t then { c with ceiling := max 400 (c.ceiling - 25), raiseCount := 0 }
    else if decide (t ≤ 1472) && decide (proj < 1680) then
      if c.raiseCount = 100 then { c with ceiling := min c.inForce (c.ceiling + 25), raiseCount := 1 }
      else { c with raiseCount := c.raiseCount + 1 }
    else { c with raiseCount := 0 }
  else { c with raiseCount := 0 }

/-- The module trip of R440 after sensor `k` reads `t`: at 115 °C everything holds and OVERTEMP_N is driven low; it ends
once every sensor reads below 100 °C. Either changes the action of every awake sheaf (R438). -/
def State.tripCheck (s : State) (k : Nat) (t : Int) : State :=
  let hot := if 1600 ≤ t then (if s.pow.hot.contains k then s.pow.hot else k :: s.pow.hot)
             else s.pow.hot.filter (fun x => decide (x ≠ k))
  let s := { s with pow := { s.pow with hot := hot } }
  if 1840 ≤ t && !s.pow.tripped then
    let s := { s with pow := { s.pow with tripped := true, overtemp := true } }
    let s := (s.journalAdd 0x0010 .thermalLimit (leBytes 2 k ++ leBytes 2 (ofInt 16 t))).1
    thermalReports (s.moduleEvent 0x0B0B 6 .thermalLimit (leBytes 2 (ofInt 16 t) ++ [3]))
  else if s.pow.tripped && decide (hot = []) then
    thermalReports { s with pow := { s.pow with tripped := false, overtemp := false } }
  else s

/-- THERMAL_SAMPLE: the 10 µs reading of a sheaf's hottest sensor (R437, R438, R440); on a sheaf that is not awake it bears on the trip
alone. -/
def execThermalSample (sh : SheafIx) (temp : Int) (s : State) : Out :=
  .next (
    let x := s.sheaf sh
    if x.power ≠ .awake then s.tripCheck sh temp
    else
      let c := (x.clock.thermal temp s.pow.ceiling).settle x.clock s.pow.ceiling
      let s := s.setSheaf sh { x with clock := c }
      (thermalReport s sh).tripCheck sh temp)

/-- DIE_THERMAL_SAMPLE: the sensor of a feed die (0-3) or of a compute-die network (4-19): half rate at 100 °C, held from
105 °C until below 103 °C (R439), and the trip (R440). -/
def execDieThermalSample (die : Fin 20) (temp : Int) (s : State) : Out :=
  .next (
    let bit : BitVec 20 := BitVec.ofNat 20 (2 ^ die.val)
    let was := s.pow.held.getLsbD die.val
    let now := decide (1680 ≤ temp) || (was && decide (1648 ≤ temp))
    let s := { s with pow := { s.pow with
      paced := if 1600 ≤ temp then s.pow.paced ||| bit else s.pow.paced &&& ~~~bit,
      held := if now then s.pow.held ||| bit else s.pow.held &&& ~~~bit } }
    let s := if now && !was then
        s.event { opcode := 0x0B0B, group := 6, status := .thermalLimit,
                  path := if die.val < 4 then 0 else diePath (die.val - 4), allot := 0, slot := 0xF,
                  ustate := s.moduleTop, detail := leBytes 2 (ofInt 16 temp) ++ [3] }
      else s
    s.tripCheck (256 + die.val) temp)

/-- CLOCK_CHANGE_DONE: a change of effective clock other than a stretch completes (R431). -/
def execClockChangeDone (sh : SheafIx) (s : State) : Out :=
  .next (capActs (s.modSheaf sh (fun x => { x with clock := { x.clock with ramping := false } })))

/-- RATE_LIMIT_WINDOW_END: 1 ms after a rate-limited event, its window ends. A change of the sheaf's temperature state or of the
module's power that was withheld meanwhile is reported now (R265, R435, R438, R463). -/
def execRateLimitWindowEnd (w : RateWindow) (s : State) : Out :=
  .next (
    match w with
    | .thermal g => thermalReport (s.modSheaf g (fun x => { x with clock := { x.clock with eventWindow := false } })) g
    | .weathervane g => s.modSheaf g (fun x => { x with wv := { x.wv with eventWindow := false } })
    | .power => powerReport { s with pow := { s.pow with eventWindow := false } }
    | .signature => { s with boot := { s.boot with sigFailWindow := false } })

/-! ### Network domains (R24, R31, R428) -/

/-- The dies that each course which is up is joined to: an eave's two (R24), or those linked to a copper course's feed die. -/
def upCourseDies (s : State) : List (List Nat) :=
  ((List.range 8).filter (fun e => (s.eave e).dataUp)).map (fun e => [2 * e, 2 * e + 1]) ++
  ((List.range 5).filter (fun c => (s.tx c).up)).map (fun c => linkedDies (courseFeed c))

/-- Whether a P link, feed link or eave link of a die carries a course that is up: the course is joined to the die, or traffic between
two courses crosses it (R31). -/
def carriesCourse (s : State) (d : Nat) : Bool :=
  let l := upCourseDies s
  l.any (fun a => a.contains d) || l.any (fun a => l.any (fun b => decide (a ≠ b) && (crossDies a b).contains d))

/-- The sheaves between which and the module lodge a packet is under way: of the commands that wait or are in progress, and those that
hold back a UNIT_FAULTED event (R31, R116). -/
def packetSheaves (s : State) : List Nat :=
  s.lodge.ops.flatMap (fun o => o.todo ++ o.acting.map MemberRes.sheaf) ++ s.lodge.waiting.flatMap (fun w => cmdSheaves w.cmd) ++
  (s.sheaves.filter (fun e => e.2.faultWin.isSome)).map (·.1)

/-- Whether a packet is under way between the module lodge and port 1: in its window, in its holding store, or kept at its lodge for that
store (R61, R66). -/
def port1Busy (s : State) : Bool :=
  !s.port1.win.isEmpty || !s.port1.hold.isEmpty || s.lodge.ops.any (fun o => decide (o.wait = .store .port1))

/-- Whether a command or reply of a peer is under way between the module lodge and a course (R75). -/
def peerBusy (s : State) : Bool :=
  let mine := fun (q : QFrame) => decide (q.frame.ftype.toNat < 2) &&
    (decide (q.frame.dest = s.fabric.address) || decide (q.frame.srcAddr = s.fabric.address))
  s.fabric.waiting.any mine || s.fabric.queue.any (fun e => e.2.any mine) || s.fabric.reorder.any (fun e => e.2.any mine) ||
  s.lodge.waiting.any (fun w => match cmdOf w.cmd with
    | some (h, _) => (match h.src with | .peer .. => true | _ => false)
    | none => false)

/-- The dies that command packets, replies and events under way must cross (R31): to sheaves, to port 1, to the courses that are up, and from
the lodges that hold back a MEMBER_SILENT event. -/
def packetDies (s : State) : List Nat :=
  ((packetSheaves s).map (· / 16)).dedup.flatMap (feedRoute lodgeFeed) ++
  (if port1Busy s then portDies .port1 else []) ++
  (if peerBusy s then ((List.range 5).filter (fun c => (s.tx c).up)).flatMap courseDies ++
     ([5, 6, 7].filter (fun c => (eavesOf c).any (fun e => (s.eave e).dataUp))).flatMap courseDies else []) ++
  s.lodge.silentWin.flatMap (fun e => if e.1 = 0 then [] else feedRoute lodgeFeed (if e.1 < 17 then e.1 - 1 else (e.1 - 17) / 16))

/-- Whether a command packet, reply or event must cross a die (R31). -/
def packetCrosses (s : State) (d : Nat) : Bool := (packetDies s).contains d

/-- Whether a compute die's network domain must stay awake: a sheaf of the die is not OFF, a link of it carries a course that is
up, or a packet must cross it (R31). -/
def networkNeeded (s : State) (d : Nat) : Bool :=
  (List.range 16).any (fun i => decide ((s.sheaf (16 * d + i)).power ≠ .off)) || carriesCourse s d || packetCrosses s d

/-- Whether the network domains of both dies of an eave are down (R24). -/
def eaveCut (s : State) (e : Nat) : Bool := (s.pow.net.toList[2 * e]?).getD .off ≠ .awake && (s.pow.net.toList[2 * e + 1]?).getD .off ≠ .awake

/-- Both eave links of an eave are down: its data lanes take no frames and its control goes through the sideband (R24, R352). -/
def linksLost (s : State) (e : Nat) : State := (s.modEave e (fun x => { x with linksDown := true })).judgeSideband

/-- NETWORK_DOMAIN_SLEEP: none of the conditions of R31 has held for 1 ms (R428). -/
def execNetworkDomainSleep (d : DieIx) (s : State) : Out :=
  .next (
    if s.pow.net[d] = .awake ∧ networkNeeded s d = false then
      let s := { s with pow := { s.pow with net := s.pow.net.set d .sleeping } }
      if eaveCut s (d.val / 2) then linksLost s (d.val / 2) else s
    else s)

/-- NETWORK_DOMAIN_WAKE: a packet, an eave link or a waking sheaf needs the domain (R24, R31, R428); step 0x04 powers it first (R413). -/
def execNetworkDomainWake (d : DieIx) (s : State) : Out := .next (if s.boot.step = 4 then s else wakeNet s d)

/-! ### Commands -/

/-- DVFS_SET on one sheaf (R110, R441): the setpoint is stored, and applies at once or when the stretch in force ends. -/
def SClock.setSetpoint (c : SClock) (mhz : Nat) : SClock :=
  if c.stretched then { c with setpoint := mhz } else SClock.apply { c with setpoint := mhz }

/-- The status of a DVFS_SET: the ceiling that holds the clock below the setpoint, once the setpoint applies (R438). -/
def SClock.dvfsStatus (c : SClock) (pc : Nat) (tripped : Bool) : Status :=
  let ceil := c.apply.ceiling
  if c.limited || tripped then .thermalLimit
  else if min ceil pc < c.setpoint then (if ceil ≤ pc then .thermalLimit else .powerLimit)
  else .ok

def dvfsDef (mhz : W16) : UnitDef :=
  { level3 := true,
    form := fun _ _ => if mhz.toNat < 400 ∨ 900 < mhz.toNat ∨ mhz.toNat % 25 ≠ 0 then some .badParam else none,
    resource := noRes,
    act := fun s g _ =>
      let x := s.sheaf g
      let c := x.clock.setSetpoint mhz.toNat
      if x.power = .awake then
        let c := c.settle x.clock s.pow.ceiling
        let s := powerReport (thermalReport (s.setSheaf g { x with clock := c }) g)
        ⟨s, c.dvfsStatus s.pow.ceiling s.pow.tripped, leBytes 2 (c.effective s.pow.ceiling s.pow.tripped)⟩
      else ⟨s.setSheaf g { x with clock := c }, .ok, leBytes 2 0⟩,
    payload := fun o => (o.pieces.head?.map (·.2)).getD (leBytes 2 0),
    wait := noWait }

/-- DVFS_SET stores a clock setpoint in every selected sheaf (R110). -/
def execDvfsSet (h : Hdr) (mhz : W16) (s : State) : Out :=
  .next (submit (.dvfsSet h mhz) (runUnit (.dvfsSet h mhz) (dvfsDef mhz)) s)

/-- More than 16 sheaves in a command that returns one record per sheaf (R96). -/
def sixteenSheaves : State → Sel → Option Status :=
  fun _ x => if 16 < x.sheaves.length then some .badParam else none

def thermalReadDef : UnitDef :=
  { level3 := true, form := sixteenSheaves, resource := noRes,
    act := fun s g _ =>
      let c := (s.sheaf g).clock
      ⟨s, .ok, leBytes 2 (ofInt 16 c.temp) ++ leBytes 2 (c.effective s.pow.ceiling s.pow.tripped) ++
        leBytes 1 (c.reported s.pow.ceiling s.pow.tripped) ++ leBytes 3 0⟩,
    payload := joinPieces, wait := noWait }

/-- THERMAL_READ: temperature, clock and action of each selected sheaf (R438). -/
def execThermalRead (h : Hdr) (s : State) : Out :=
  .next (submit (.thermalRead h) (runUnit (.thermalRead h) thermalReadDef) s)

def powerCapNow (h : Hdr) (watts : W16) : Nat → State → State :=
  runModule (.powerCap h watts) (fun _ _ => if watts.toNat < 300 ∨ 3600 < watts.toNat then some .badParam else none)
    noObjects (fun s id _ =>
      let old := s.pow.cap
      finishModule (capActs { s with pow := { s.pow with cap := watts.toNat } }) id (.powerCap h watts) .ok (leBytes 2 old))

/-- POWER_CAP sets the cap of R432. -/
def execPowerCap (h : Hdr) (watts : W16) (s : State) : Out := .next (submit (.powerCap h watts) (powerCapNow h watts) s)

def powerReadNow (h : Hdr) : Nat → State → State :=
  runModule (.powerRead h) noForm noObjects (fun s id _ =>
    let awake := (s.sheaves.filter (fun e => decide (e.2.power = .awake))).length
    finishModule s id (.powerRead h) .ok
      (leBytes 2 s.pow.inputW ++ leBytes 2 s.pow.cap ++ leBytes 2 awake ++ leBytes 2 0 ++ leBytes 8 (s.pow.energy / 100)))

/-- POWER_READ: input, cap, awake sheaves, energy since power-up (Table 4-12). -/
def execPowerRead (h : Hdr) (s : State) : Out := .next (submit (.powerRead h) (powerReadNow h) s)

end Sys2Proof.Machine
end

