-- ==== Sys2Proof/Machine/Units.lean ====
section
/-!
DEFINITION. The unit class (R93 to R96): waking, sleeping, resetting, loading, starting, stopping and inspecting reeds, with
the transitions that reeds and sheaves make by themselves (R77 to R82, R424, R427).
-/

namespace Sys2Proof.Machine

/-- A unit command with no check beyond admission, no payload and no wait. -/
def plainUnit (level3 : Bool) (act : State → Nat → List Nat → ActRes) : UnitDef :=
  { level3 := level3, form := noCheck, resource := noRes, act := act, payload := fun _ => [], wait := noWait }

/-- Act on each listed reed of a sheaf; the status is `OK`. -/
def eachReed (f : State → Nat → State) (s : State) (g : Nat) (ls : List Nat) : ActRes :=
  ⟨ls.foldl (fun s l => f s (4096 * g + l)) s, .ok, []⟩

/-! ### WAKE (R93, R424, R427, R434) -/

/-- Sheaves of a selection that are OFF and can wake. -/
def toWake (s : State) (x : Sel) : List Nat :=
  x.sheaves.filter (fun g => decide ((s.sheaf g).power = .off) && !(s.sheaf g).withheld)

/-- Whether the power limit refuses a WAKE of `n` sheaves (R434). -/
def wakeRefused (s : State) (n : Nat) : Bool :=
  decide (0 < n) && decide (s.pow.ceiling = 400) && decide (s.pow.cap < s.pow.averageW + 3 * n)

/-- The PLL of a die. -/
def State.pllOf (s : State) (d : Nat) : Pll := (s.pow.pll.toList[d]?).getD .off

/-- A sheaf is admitted to WAKE: it waits for the die's PLL, which it starts, and then for its place in the powering
phase (R424, R427). -/
def wakeSheaf (s : State) (g : Nat) : State :=
  if (s.sheaf g).power ≠ .off then s
  else
    let d := g / 16
    let s := s.modSheaf g (fun x => ({ x with power := if s.pllOf d = .locked then .waitSlot else .waitPll } : Sheaf).tell 4 [])
    { s with pow := { s.pow with
        pll := if s.pllOf d = .off then s.pow.pll.setIfInBounds d .starting else s.pow.pll,
        admitQueue := s.pow.admitQueue ++ [g] } }

def wakeDef : UnitDef :=
  { level3 := true, form := noCheck,
    resource := fun s x => if wakeRefused s (toWake s x).length then some (.powerLimit, toWake s x) else none,
    act := fun s g _ => ⟨wakeSheaf s g, .ok, []⟩,
    payload := fun _ => [],
    wait := fun s o => match cmdOf o.cmd with
      | some (h, _) =>
        let l := (selOf h.path h.mask).sheaves.filter (fun g => decide ((s.sheaf g).power ≠ .awake) && !(s.sheaf g).withheld)
        if l = [] then none else some (.sheavesAwake l)
      | none => none }

/-- WAKE takes the selected OFF sheaves to WAKING; the reply follows the last into IDLE (R77, R93). -/
def execWake (h : Hdr) (s : State) : Out := .next (submit (.wake h) (runUnit (.wake h) wakeDef) s)

/-- A recorded remap or retirement takes effect (R55). A spare that failed while it stood in keeps IN_USE and REPLACED beside the
retirement of its reed (DESIGN CHOICE, log entry 66: R53 does not say that they clear). -/
def L1Repair.apply (x : L1Repair) (p : PendingRepair) : L1Repair :=
  match p.what with
  | .remap i => { x with replaced := some i, mapSeq := if p.runtime then some p.seq else .none }
  | .retire i => { x with retired := some i, spareBad := x.spareBad || p.spare }
  | .retireL1 => { x with l1Retired := true, spareBad := x.spareBad || p.spare }

/-- Every pending repair of an L1 sheaf takes effect. -/
def L1Repair.settle (x : L1Repair) : L1Repair := { x.pending.foldl L1Repair.apply x with pending := [] }

/-- The repair records of a sheaf with every pending repair in force. -/
def settleRepairs (m : KMap L1Repair) : KMap L1Repair :=
  (m.map (fun e => (e.1, e.2.settle))).filter (fun e => decide (e.2 ≠ L1Repair.none))

/-- The census of the three levels in a sheaf's own domain starts anew; the die's and the module's keep what they last heard (R44,
R50). -/
def Sheaf.ownCensus (x : Sheaf) (c : Census) : Vector Census 5 :=
  Vector.ofFn (fun (i : Fin 5) => if i.val < 3 then c else x.census[i])

/-- A sheaf as it enters IDLE: everything it owns at its reset value; its repair records in force and its setpoint kept
(R53, R55, R76, R110, R224), and its reeds' lane generators seeded (R193). The thermal ceiling starts at the setpoint (log entry 12). -/
def Sheaf.woken (x : Sheaf) (stretched : Bool) (ceiling seed : Nat) : Sheaf :=
  let c := SClock.resetAt x.clock.setpoint
  { Sheaf.reset with power := .awake, census := x.ownCensus Census.idle, repair := settleRepairs x.repair, faultWin := x.faultWin, laneSeed := seed,
                     clock := if stretched then { c.engage ceiling with currentStretch := true } else c }

/-- The lodges above the sheaves that a WAKE waited for hear with its reply that they are awake (R44). -/
def State.tellAwake (s : State) (o : Op) : State :=
  match o.wait with
  | .sheavesAwake l => l.foldl (fun s g => s.censusSel 5 g []) s
  | _ => s

/-- Replies of WAKE commands whose last sheaf has reached IDLE. -/
def wakeReplies (s : State) : State :=
  let done := s.lodge.ops.filter (fun o => match o.wait with
    | .sheavesAwake l => l.all (fun g => decide ((s.sheaf g).power = .awake))
    | _ => false)
  done.foldl (fun s o => finishUnit (s.tellAwake o) wakeDef o)
    { s with lodge := { s.lodge with ops := s.lodge.ops.filter (fun o => !done.contains o) } }

/-- WAKE_COMPLETE: the domain is stable and its clock runs; the sheaf enters IDLE (R77). -/
def execWakeComplete (g : SheafIx) (s : State) : Out :=
  .next (
    let x := s.sheaf g
    if x.power = .powering ∨ x.power = .rising then
      let s := s.setSheaf g (x.woken s.pow.currentStretch s.pow.ceiling s.free)
      wakeReplies { s with free := s.free + 32768, pow := { s.pow with inPhase := s.pow.inPhase.filter (· ≠ g.val) } }
    else s)

/-- PLL_LOCK: a die's array PLL locks within 20 µs of its start (R424). -/
def execPllLock (d : DieIx) (s : State) : Out :=
  .next (
    if s.pow.pll[d] = .starting then
      let s := { s with pow := { s.pow with pll := s.pow.pll.set d .locked } }
      (List.range 16).foldl (fun s i => s.modSheaf (16 * d + i) (fun x =>
        if x.power = .waitPll then { x with power := .waitSlot } else x)) s
    else s)

/-- PLL_STOP: 10 µs after the die's last sheaf reached OFF (R424). -/
def execPllStop (d : DieIx) (s : State) : Out :=
  .next (
    if s.pow.pll[d] = .locked ∧ (List.range 16).all (fun i => decide ((s.sheaf (16 * d + i)).power = .off)) = true then
      { s with pow := { s.pow with pll := s.pow.pll.set d .off } }
    else s)

/-- Sheaves in the powering phase at once: of the module, and of one die (R427). -/
def phaseLimit (s : State) : Nat := if s.pow.halfInrush then 16 else 32
def phaseDieLimit (s : State) : Nat := if s.pow.halfInrush then 2 else 4

/-- Sheaves of a die in the powering phase. -/
def inPhaseOf (s : State) (d : Nat) : List Nat := s.pow.inPhase.filter (fun g => decide (g / 16 = d))

/-- A sheaf's first 20 µs are over: its place frees (R427). -/
def leavePhase (s : State) (g : Nat) : State :=
  let s := s.modSheaf g (fun x => if x.power = .powering then { x with power := .rising } else x)
  { s with pow := { s.pow with inPhase := s.pow.inPhase.filter (· ≠ g) } }

/-- Whether a sheaf admitted earlier is to have the place first (R427). -/
def earlierWaits (s : State) (g : Nat) : Bool :=
  (s.pow.admitQueue.takeWhile (· ≠ g)).any (fun e =>
    decide ((s.sheaf e).power = .waitSlot) &&
    (decide (e / 16 = g / 16) || decide ((inPhaseOf s (e / 16)).length < phaseDieLimit s)))

/-- POWERING_SLOT_GRANT: a place in the inrush limit is free, the sheaf longest in its phase having left where the limit was
reached, and the next sheaf in order begins its powering phase (R427). -/
def execPoweringSlotGrant (g : SheafIx) (s : State) : Out :=
  .next (
    if (s.sheaf g).power ≠ .waitSlot || earlierWaits s g then s
    else
      let d := g / 16
      let s := if (inPhaseOf s d).length < phaseDieLimit s then s
        else match inPhaseOf s d with | e :: _ => leavePhase s e | [] => s
      let s := if s.pow.inPhase.length < phaseLimit s then s
        else match s.pow.inPhase with | e :: _ => leavePhase s e | [] => s
      let s := s.modSheaf g (fun x => { x with power := .powering })
      { s with pow := { s.pow with inPhase := s.pow.inPhase ++ [g.val], admitQueue := s.pow.admitQueue.filter (· ≠ g.val) } })

/-! ### SLEEP -/

/-- A sheaf's domain powers off and its reeds are OFF: its contents, definitions and records are lost; the L4 lodge keeps the repair record and the clock
setpoint (R50, R76, R110, R266, R306). -/
def Sheaf.slept (x : Sheaf) : Sheaf :=
  { Sheaf.reset with power := .sleeping, withheld := x.withheld, census := x.ownCensus Census.off, repair := x.repair, faultWin := x.faultWin,
                     clock := SClock.resetAt x.clock.setpoint }

def sleepSheaf (s : State) (g : Nat) : State := s.modSheaf g Sheaf.slept

def sleepDef : UnitDef :=
  { plainUnit true (fun s g _ => ⟨closeBuffers (sleepSheaf s g), .ok, []⟩) with
    wait := fun _ o => if o.acted then some .action else none }

/-- The domains of a SLEEP's sheaves are off (R426). -/
def domainsOff (s : State) : Instr → State
  | .sleep h => (selOf h.path h.mask).sheaves.foldl
      (fun s g => s.modSheaf g (fun x => if x.power = .sleeping then { x with power := .off } else x)) s
  | _ => s

/-- SLEEP takes the selected sheaves to OFF (R77); their domains are off, and the reply follows, with COMMAND_ACTION_COMPLETE; where every one of them is OFF, the reply is written at once (R113). -/
def execSleep (h : Hdr) (s : State) : Out := .next (submit (.sleep h) (runUnit (.sleep h) sleepDef) s)

/-! ### RESET (R81, R82, R55) -/

/-- A reed after a unit reset: registers, buffers and queues at their reset values; scratchpad, accumulator bank, operand cache
and the sums in the pipeline kept (R81, R150, R152). -/
def Reed.unitReset (x : Reed) : Reed :=
  { Reed.reset with sp := x.sp, bank := x.bank, cache := x.cache, sums := x.sums, seqNo := x.seqNo }

/-- A pending repair of one L1 sheaf at a unit reset of the listed reeds: those of a selected reed take effect, and a
retirement of the whole L1 sheaf at the reset of any of its reeds (R55). -/
def repairAtReset (sh : Sheaf) (ls : List Nat) (k : Nat) : Sheaf :=
  let x := sh.l1 k
  let due := fun (p : PendingRepair) => match p.what with
    | .remap i => ls.contains (16 * k + i)
    | .retire i => ls.contains (16 * k + i)
    | .retireL1 => true
  let y := { (x.pending.filter due).foldl L1Repair.apply x with pending := x.pending.filter (fun p => !due p) }
  let back := x.pending.filterMap (fun p => match p.what with
    | .remap i => if ls.contains (16 * k + i) then some (16 * k + i) else none
    | _ => none)
  back.foldl (fun sh l => sh.setReed l Reed.reset) { sh with repair := KMap.put L1Repair.none sh.repair k y }

/-- A unit reset of the listed reeds of a sheaf. DESIGN CHOICE (log entry 33): a RESET whose selection holds of an L1 sheaf only reeds
already retired does not make its pending whole retirement take effect, since R55 does not say that they count. -/
def resetSheaf (s : State) (g : Nat) (ls : List Nat) : State :=
  if ls = [] then s
  else
    let s := ls.foldl (fun s l => abandonAll s (4096 * g + l)) s
    let s := s.modSheaf g (fun sh =>
      let sh := ls.foldl (fun sh l =>
        let r := 4096 * g + l
        let sh := (sh.endArming r).setReed l (sh.reed l).unitReset
        { sh with wv := sh.wv.dropSamples (fun y => decide (y.reed = r) && y.pairs.isNone) }) sh
      let sh := { sh with colls := sh.colls.map (fun c => ls.foldl Coll.withdraw c), silent := false }
      ((ls.map (· / 16)).dedup).foldl (fun sh k => repairAtReset sh ls k) sh)
    closeBuffers s

def resetDef : UnitDef := plainUnit false (fun s g ls => ⟨resetSheaf s g ls, .ok, []⟩)

/-- RESET: the unit reset of R81. -/
def execReset (h : Hdr) (s : State) : Out := .next (submit (.reset h) (runUnit (.reset h) resetDef) s)

/-! ### QUERY -/

def queryDef : UnitDef := plainUnit false (fun s _ _ => ⟨s, .ok, []⟩)

/-- QUERY returns the combined summary record (R93, R48). -/
def execQuery (h : Hdr) (s : State) : Out := .next (submit (.query h) (runUnit (.query h) queryDef) s)

/-! ### PROG_LOAD (R94) -/

/-- Whether a command may name a range of memory: owner any; admin with no allotment any; else the grants of the named
allotment (R98, R86). -/
def memScope (s : State) (h : Hdr) (lo hi : Nat) : Bool :=
  if h.priv.toNat = 2 || (decide (h.priv.toNat = 1) && decide (h.allot = 0)) then true
  else match s.allot? h.allot.toNat with
    | some a => insideRanges a.grants lo hi
    | none => false

/-- The image a sheaf loads: each entry, and none where a poisoned sector holds part of it (R386). -/
def imageOf (s : State) (g source n a : Nat) (inline : List Byte) : List (Option (BitVec 256)) :=
  (List.range n).map (fun i =>
    if source = 0 then some (insOf ((inline.drop (32 * i)).take 32))
    else if source = 1 then some (insOf (KMap.bytes (s.sheaf g).loft (a + 32 * i) 32))
    else if sectorBad s ((a + 32 * i) / 32) then none
    else some (insOf (s.memBytes (a + 32 * i) 32)))

/-- The sum of the image's 32-bit words (R94). -/
def imageSum (l : List (Option (BitVec 256))) : Nat :=
  ((l.map (fun e => ((List.range 8).map (fun k => (e.getD 0).toNat / 2 ^ (32 * k) % 2 ^ 32)).sum)).sum) % 2 ^ 32

/-- The instruction buffer an image makes: entries beyond it are invalid. -/
def ibufOf (l : List (Option (BitVec 256))) : KMap (BitVec 256) :=
  (l.zipIdx.filterMap (fun e => e.1.map (fun w => (e.2, w))))

/-- A reed after a load: registers of Table 5-1 at their reset values but for s0, `XCSTAT` and `CYCLES`; the receive buffers
emptied; scratchpad, bank and cache kept (R94, R117). -/
def Reed.load (x : Reed) (buf : KMap (BitVec 256)) (entry : Nat) : Reed :=
  { x.unitReset with
      st := .loaded, regs := (Vector.replicate 16 0).setIfInBounds 0 ((x.regs.toList[0]?).getD 0),
      index := entry, entry := entry, edgePut := x.edgePut, edgeGet := x.edgeGet, cycles := x.cycles, ibuf := buf }

def progLoadAct (h : Hdr) (source n entry a : Nat) (inline : List Byte) (errs : List MemErr)
    (s : State) (g : Nat) (ls : List Nat) : ActRes :=
  let s := if source = 2 && ls ≠ [] then touchSectors s 2 (reedPath (4096 * g + (ls.head?).getD 0)) (sectorsOf a (32 * n)) errs else s
  let img := imageOf s g source n a inline
  let bad := img.any Option.isNone
  let sum := if bad then s.fresh else (BitVec.ofNat 64 (imageSum img), s)
  let s := sum.2
  let s := s.modSheaf g (fun sh => ls.foldl (fun sh l => sh.setReed l ((sh.reed l).load (ibufOf img) entry)) sh)
  let live := ((selOf h.path h.mask).locals).any (fun l => !(s.sheaf g).retired l)
  ⟨s, if bad then .okDegraded else .ok, if live then leBytes 4 (sum.1.toNat % 2 ^ 32) else []⟩

def progLoadDef (h : Hdr) (source : Byte) (count entry : W16) (address : W64) (img : List Byte)
    (errs : List MemErr) : UnitDef :=
  let n := count.toNat
  let a := address.toNat
  { level3 := false,
    form := fun s x =>
      if 2 < source.toNat ∨ n < 1 ∨ 64 < n ∨ n ≤ entry.toNat ∨ (source = 0 ∧ a ≠ 0) then some .badParam
      else if source = 1 && x.sheaves.any (fun g => decide (loftSpace (s.sheaf g) < a + 32 * n)) then some .badParam
      else if source = 1 ∧ 2 ^ 22 < a + 32 * n then some .badParam
      else if source = 2 ∧ memEnd < a + 32 * n then some .badParam
      else if a % 32 ≠ 0 then some .alignFault else none,
    resource := fun s _ => if source = 2 && !memScope s h a (a + 32 * n) then some (.wrongAllotment, []) else none,
    act := progLoadAct h source.toNat n entry.toNat a img errs,
    payload := fun o => leBytes 2 n ++ leBytes 2 entry.toNat ++ (o.pieces.head?.map (·.2)).getD (leBytes 4 0),
    wait := fun _ o => if o.acted then some .action else none }

/-- Whether a PROG_LOAD from memory waits for its bytes (R389, R439). -/
def loadHeld (s : State) (source : Byte) (count : W16) (address : W64) : Bool :=
  decide (source = 2) && memHeld s (sectorsOf address.toNat (32 * count.toNat))

/-- PROG_LOAD writes an image into the instruction buffer of every selected reed (R94). -/
def execProgLoad (h : Hdr) (source : Byte) (count entry : W16) (address : W64) (image : List Byte) (s : State) : Out :=
  .next (submitOr (fun s => loadHeld s source count address) (.progLoad h source count entry address image)
    (progLoadDef h source count entry address image []) s)

/-! ### START, PAUSE, RESUME, DRAIN (R77 to R80, R95, R141, R142) -/

/-- The scalar registers at START: s0 the unit path, s1 on the parameters, the rest zero (R56, R95). -/
def startRegs (r : Nat) (args : List W32) : Vector W32 16 :=
  Vector.ofFn (fun (i : Fin 16) => if i.val = 0 then BitVec.ofNat 32 (reedPath r).toNat else (args[i.val - 1]?).getD 0)

/-- A reed at START. -/
def Reed.start (x : Reed) (r : Nat) (args : List W32) (slot : BitVec 4) : Reed :=
  { x with st := .running, regs := startRegs r args, slot := slot, cycles := 0, fullq := 0, portStalls := 0,
           ord := 0, ended := false, hold := .none, counting := true }

def startDef (h : Hdr) (args : List W32) : UnitDef :=
  { plainUnit false (eachReed (fun s r => s.modReed r (fun x => x.start r args h.slot))) with
    form := fun _ _ => if 8 < args.length then some .badParam else none }

/-- START takes the selected reeds from LOADED to RUNNING (R95). -/
def execStart (h : Hdr) (args : List W32) (s : State) : Out :=
  .next (submit (.start h args) (runUnit (.start h args) (startDef h args)) s)

/-- A program has ended: END has issued and every queue is empty (R141). -/
def Reed.hasEnded (x : Reed) : Bool := x.ended && x.queuesEmpty

/-- A reed passes to LOADED at its entry point (R79, R141). -/
def toLoaded (s : State) (r : Nat) : State :=
  (s.modReed r (fun x => { x.atEntry with st := .loaded })).modSheaf (r / 4096) (fun sh => sh.endArming r)

/-- Stop the stream; a program that has ended with empty queues passes to LOADED instead (R78, R82, R142). -/
def stopReed (u : UState) (s : State) (r : Nat) : State :=
  if (s.reed r).hasEnded then toLoaded s r else s.modReed r (fun x => { x with st := u, hold := .none })

def pauseDef : UnitDef := plainUnit false (eachReed (stopReed .paused))

/-- PAUSE stops the stream of each selected reed (R78). -/
def execPause (h : Hdr) (s : State) : Out := .next (submit (.pause h) (runUnit (.pause h) pauseDef) s)

def resumeDef : UnitDef := plainUnit false (eachReed (fun s r => s.modReed r (fun x => { x with st := .running })))

/-- RESUME lets the stream of each selected reed go on (R77, R142). -/
def execResume (h : Hdr) (s : State) : Out := .next (submit (.resume h) (runUnit (.resume h) resumeDef) s)

/-- A drain ends the reed's arming, since it leaves RUNNING and PAUSED (R79, R259). A PAUSED reed enters DRAINING even where its
program has ended (Table 3-14); the passage to LOADED in its place is a RUNNING reed's (R82). -/
def drainReed (s : State) (r : Nat) : State :=
  (if (s.reed r).st = .running then stopReed .draining s r
   else s.modReed r (fun x => { x with st := .draining, hold := .none })).modSheaf (r / 4096) (fun sh => sh.endArming r)

def drainDef : UnitDef := plainUnit false (eachReed drainReed)

/-- DRAIN stops the stream of each selected reed and completes its outstanding work (R79). -/
def execDrain (h : Hdr) (s : State) : Out := .next (submit (.drain h) (runUnit (.drain h) drainDef) s)

/-- PROGRAM_END: END has issued and every `QDEPTH` count is 0 (R141). -/
def execProgramEnd (r : ReedIx) (s : State) : Out :=
  .next (
    if (s.sheaf (r / 4096)).stOf (r % 4096) = .running ∧ (s.reed r).hasEnded = true then (toLoaded s r).flushWatches else s)

/-- DRAIN_COMPLETE: a DRAINING reed's queues are empty and its stores acknowledged; its contributions were acknowledged as
they were recorded (R79, R282). -/
def execDrainComplete (r : ReedIx) (s : State) : Out :=
  .next (
    if (s.sheaf (r / 4096)).stOf (r % 4096) = .draining ∧ (s.reed r).queuesEmpty = true then (toLoaded s r).flushWatches else s)

/-- DRAIN_LIMIT: a reed still DRAINING 100 ms after the drain arrived (R79, Table 4-17). -/
def execDrainLimit (r : ReedIx) (s : State) : Out :=
  .next (
    if (s.sheaf (r / 4096)).stOf (r % 4096) = .draining then (enterFaulted s r 5).flushWatches else s)

/-! ### Registers and scratchpad (R96, R117, R118) -/

def uregReadDef (n : W16) : UnitDef :=
  { level3 := false,
    form := fun _ x => if !regExists n.toNat || decide (4096 < x.size false) then some .badParam else none,
    resource := noRes,
    act := fun s g ls => ⟨s, .ok, ls.flatMap (fun l => leBytes 8 ((reedReg s (4096 * g + l) n.toNat).getD 0))⟩,
    payload := fun o => leBytes 4 ((joinPieces o).length / 8) ++ leBytes 4 0 ++ joinPieces o,
    wait := noWait, slice := 8 }

/-- UREG_READ returns one register of each non-retired selected reed (R96, R117). -/
def execUregRead (h : Hdr) (regnum : W16) (s : State) : Out :=
  .next (submit (.uregRead h regnum) (runUnit (.uregRead h regnum) (uregReadDef regnum)) s)

def uregWriteDef (n : W16) (v : W64) : UnitDef :=
  { plainUnit false (eachReed (fun s r => s.modReed r (fun x => x.writeReg n.toNat v.toNat))) with
    form := fun _ _ => if !regWritable n.toNat || decide (v.toNat / 2 ^ 32 ≠ 0) then some .badParam else none }

/-- UREG_WRITE writes one register of each selected reed (R96, R117, R118). -/
def execUregWrite (h : Hdr) (regnum : W16) (value : W64) (s : State) : Out :=
  .next (submit (.uregWrite h regnum value) (runUnit (.uregWrite h regnum value) (uregWriteDef regnum value)) s)

/-- The range and alignment checks of scratchpad commands (R96). -/
def spForm (off n : Nat) : Option Status :=
  if n < 16 ∨ spBytes < off + n then some .badParam
  else if off % 16 ≠ 0 ∨ n % 16 ≠ 0 then some .alignFault else none

def spReadDef (off n : Nat) : UnitDef :=
  { level3 := false,
    form := fun _ x => if 1 < x.size false then some .badParam else spForm off n,
    resource := noRes,
    act := fun s g ls => ⟨s, .ok, ls.flatMap (fun l => KMap.bytes (s.reed (4096 * g + l)).sp off n)⟩,
    payload := joinPieces, wait := noWait, slice := n }

/-- SP_READ returns scratchpad bytes of one reed (R96). -/
def execSpRead (h : Hdr) (offset bytes : W16) (s : State) : Out :=
  .next (submit (.spRead h offset bytes) (runUnit (.spRead h offset bytes) (spReadDef offset.toNat bytes.toNat)) s)

def spWriteDef (off : Nat) (data : List Byte) : UnitDef :=
  { plainUnit false (eachReed (fun s r => s.modReed r (fun x => { x with sp := KMap.write x.sp off data }))) with
    form := fun _ _ => spForm off data.length }

/-- SP_WRITE writes the same bytes into the scratchpad of each selected reed (R96). -/
def execSpWrite (h : Hdr) (offset : W16) (data : List Byte) (s : State) : Out :=
  .next (submit (.spWrite h offset data) (runUnit (.spWrite h offset data) (spWriteDef offset.toNat data)) s)

/-! ### SPARE_STATUS (R53) -/

/-- A spare-status entry (Table 2-11); RUNTIME while the remap in force is journalled and not fused. -/
def L1Repair.entry (x : L1Repair) (withheld : Bool) (unfused : List Nat) : Nat :=
  let runtime := match x.mapSeq with | some n => x.replaced.isSome && unfused.contains n | .none => false
  (x.replaced.getD 0) + 2 ^ 4 * b2n x.replaced.isSome + 2 ^ 5 * b2n x.spareBad + 2 ^ 6 * b2n x.retired.isSome +
  2 ^ 7 * b2n runtime + 2 ^ 8 * (x.retired.getD 0) + 2 ^ 12 * b2n x.l1Retired + 2 ^ 13 * b2n withheld

/-- The 512 bytes of a sheaf's entries. -/
def spareBytes (s : State) (g : Nat) : List Byte :=
  let x := s.sheaf g
  (List.range 256).flatMap (fun k => leBytes 2 ((x.l1 k).entry x.withheld s.boot.unfused))

def spareStatusDef : UnitDef :=
  { plainUnit true (fun s g _ => ⟨s, .ok, spareBytes s g⟩) with form := sixteenSheaves, payload := joinPieces }

/-- SPARE_STATUS returns the repair state of each selected sheaf (R53, R96). -/
def execSpareStatus (h : Hdr) (s : State) : Out := .next (submit (.spareStatus h) (runUnit (.spareStatus h) spareStatusDef) s)

/-! ### Hardware faults (R55) -/

/-- What a fault of reed `i` of an L1 sheaf calls for: a remap to a good free spare, else a retirement; where the spare holds the reed's
place, it is the spare that failed (R54, R55). -/
def repairFor (x : L1Repair) (i : Nat) : L1Repair × Repair :=
  let taken := x.replaced.isSome || x.pending.any (fun p => match p.what with | .remap _ => true | _ => false)
  let other := x.l1Retired || x.retired.isSome || x.pending.any (fun p => match p.what with | .remap _ => false | _ => true)
  if decide (x.replaced = some i) then ({ x with spareBad := true }, if other then .retireL1 else .retire i)
  else if !taken && !x.spareBad then (x, .remap i)
  else (x, if other then .retireL1 else .retire i)

/-- Whether a repair of reed `i` itself, or of its whole L1 sheaf, is already recorded, so that a further fault of the reed, which is
FAULTED, calls for nothing (R55). -/
def L1Repair.awaits (x : L1Repair) (i : Nat) : Bool :=
  x.pending.any (fun p => decide (p.what = .remap i) || decide (p.what = .retire i) || decide (p.what = .retireL1))

/-- The physical position of the reed that stands at place `i` of an L1 sheaf: 16 is the spare's (log entry 16). -/
def L1Repair.position (x : L1Repair) (i : Nat) : Nat := if x.replaced = some i then 16 else i

/-- Record a failed reed in the journal: path, the physical position that failed, and the cause, 0 BIST and 1 a fault at run time (log
entry 16). The repair follows from these and the records before it (`L1Repair.fail`). A repair of run time counts as not yet fused
(R55, R459). The answer holds the record's SEQ. -/
def recordRepair (s : State) (r position : Nat) (runtime : Bool) : State × Nat :=
  let j := s.journalAdd 0x0004 .ok (leBytes 3 (reedPath r).toNat ++ leBytes 1 position ++ leBytes 1 (b2n runtime))
  (if runtime then { j.1 with boot := { j.1.boot with unfused := j.1.boot.unfused ++ [j.2.seq] } } else j.1, j.2.seq)

/-- A failed reed is repaired at once, as BIST and a rebuild of the maps do it (R54, R415): position 16 is the spare's, which calls for
nothing more where it holds no reed's place. -/
def L1Repair.fail (x : L1Repair) (i position seq : Nat) (runtime : Bool) : L1Repair :=
  if position = 16 && x.replaced.isNone then { x with spareBad := true }
  else
    let f := repairFor x i
    f.1.apply ⟨f.2, seq, decide (position = 16), runtime⟩

/-- HARDWARE_FAULT: a reed found faulty at run time enters FAULTED, and its L3 lodge records a remap, or a retirement, that takes
effect later (R55). A retirement of the whole L1 sheaf puts every reed of it in FAULTED. -/
def execHardwareFault (r : ReedIx) (s : State) : Out :=
  .next (
    let g := r / 4096
    let sh := s.sheaf g
    if sh.power ≠ .awake || sh.retired (r % 4096) then s
    else
      let k := r % 4096 / 16
      let x := sh.l1 k
      if x.awaits (r % 16) then s
      else
        let f := repairFor x (r % 16)
        let j := recordRepair s r (x.position (r % 16)) true
        let s := j.1.modSheaf g (fun sh => { sh with
          repair := KMap.put L1Repair.none sh.repair k { f.1 with pending := f.1.pending ++ [⟨f.2, j.2, decide (x.replaced = some (r.val % 16)), true⟩] } })
        let hit : List Nat := if f.2 = .retireL1 then (List.range 16).map (fun i => r.val / 16 * 16 + i) else [r.val]
        (hit.foldl (fun s q =>
          if (s.reed q).st = .faulted || (s.sheaf g).retired (q % 4096) then s else enterFaulted s q 3) s).flushWatches)

/-- UNIT_FAULTED_COALESCE: the 10 µs window of a sheaf's UNIT_FAULTED event closes, and the event is written (R116). -/
def execUnitFaultedCoalesce (g : SheafIx) (s : State) : Out :=
  .next (
    match (s.sheaf g).faultWin with
    | none => s
    | some w =>
      let r := w.path.toNat % 2 ^ 20
      let x := s.reed r
      (s.modSheaf g (fun sh => { sh with faultWin := none })).event
        { opcode := 0x0B04, group := 2, status := faultStatus w.cause, path := w.path, allot := s.allotOf g, slot := x.slot,
          ustate := (s.sheaf g).stOf (r % 4096), detail := leBytes 1 w.cause ++ leBytes 3 0 ++ leBytes 4 w.count })

end Sys2Proof.Machine
end

