-- ==== Sys2Proof/Machine/NumCmd.lean ====
section
/-!
DEFINITION. The numerics class (R105, R106, R195, R213, R217, R263 to R266, R276).
-/

namespace Sys2Proof.Machine

/-! ### NUM_CTL and RNG_KEY -/

/-- A value `NUMCTL` takes: no reserved bit, no reserved rounding code (R213, Table 8-7). -/
def numctlOk (v : W32) : Bool :=
  decide (v.toNat < 2 ^ 11) && !v.getLsbD 7 && decide (v.toNat % 4 ≠ 3) && decide (v.toNat / 4 % 4 = 0 ∨ v.toNat / 4 % 4 = 2)

def numCtlDef (v : W32) : UnitDef :=
  { plainUnit true (fun s g _ =>
      ⟨s.modSheaf g (fun sh => { sh with numctl := v }), .ok, leBytes 4 (s.sheaf g).numctl.toNat⟩) with
    form := fun _ _ => if numctlOk v then none else some .badParam,
    payload := fun o => (o.pieces.head?.map (·.2)).getD (leBytes 4 0) }

/-- NUM_CTL writes `NUMCTL` of each selected sheaf and returns the previous value of the lowest (R106, R213). -/
def execNumCtl (h : Hdr) (value : W32) (s : State) : Out :=
  .next (submit (.numCtl h value) (runUnit (.numCtl h value) (numCtlDef value)) s)

def rngKeyDef (h : Hdr) (key step : W64) : UnitDef :=
  plainUnit true (fun s g _ =>
    ⟨s.modSheaf g (fun sh => { sh with keys := KMap.ins sh.keys h.slot.toNat (key, step) }), .ok, []⟩)

/-- RNG_KEY sets the key and step of the header's slot on each selected sheaf (R195). -/
def execRngKey (h : Hdr) (key step : W64) (s : State) : Out :=
  .next (submit (.rngKey h key step) (runUnit (.rngKey h key step) (rngKeyDef h key step)) s)

/-! ### The weathervane (R106, R263, R264, R266) -/

/-- The loft footprint of an LDPAGE (R147). -/
def pageFoot (q : QEntry) : Nat × Nat := (insAux q.raw, insAux q.raw + 32 * pageCount q.raw)

/-- The loft footprints of a reed's LD, ST and LDPAGE that have started and not completed (R106). -/
def loftInUse (x : Reed) : List (Nat × Nat) :=
  (x.qld ++ x.qst).filterMap (fun q =>
    if !q.started then none
    else if insOpc q.raw = 0x81 then some (pageFoot q)
    else if lsMem q.raw then none else lsFootprint q)

/-- Whether any byte from `lo` up to `hi` of a sheaf's loft is held (R106). -/
def loftHeld (sh : Sheaf) (lo hi : Nat) : Bool :=
  sh.colls.any (fun c => (planRegions c.plan).any (fun e => extOverlap e (lo, hi))) ||
  sh.reeds.any (fun e => (loftInUse e.2).any (fun f => extOverlap f (lo, hi)))

/-- Sheaves whose reserve cannot grow to RESERVE bytes. -/
def reserveBad (s : State) (x : Sel) (reserve : Nat) : List Nat :=
  x.sheaves.filter (fun g =>
    let sh := s.sheaf g
    decide (sh.wv.reserve < reserve) && loftHeld sh (2 ^ 22 - reserve) (2 ^ 22 - sh.wv.reserve))

/-- A positive finite FP32 value (R263). -/
def positiveFinite (t : W32) : Bool := decide (0 < t.toNat) && decide (t.toNat < 0x7F800000)

/-- The settings of a WV_CONFIG, with the counter at zero (R257) and every sample, arming and capture discarded (R266). -/
def Weathervane.configure (w : Weathervane) (log2 : Nat) (enable : Bool) (tol thr : W32) (reserve : Nat) : Weathervane :=
  { w.discard with enable := enable, log2 := log2, tolerance := tol, threshold := thr, reserve := reserve, counter := 0,
                   soiled := min w.soiled reserve }

/-- What captures left in the bytes from `lo` to `hi` of a loft: each holds what it held or a byte of a capture, which of the two
and which byte being free values (R106). -/
def soilLoft (base lo hi : Nat) (loft : KMap Byte) : KMap Byte :=
  ((List.range (hi - lo)).map (fun k => (lo + k, Config.freeWord (base + k)))).foldl (fun m e =>
    if e.2.getLsbD 8 then KMap.put 0 m e.1 (e.2.setWidth 8) else m) loft

/-- A sheaf takes a WV_CONFIG. The bytes that leave the reserve show what captures wrote over them (R106, R266). -/
def configureSheaf (s : State) (g log2 : Nat) (enable : Bool) (tol thr : W32) (reserve : Nat) : State :=
  let w := (s.sheaf g).wv
  { (s.modSheaf g (fun sh => { sh with wv := w.configure log2 enable tol thr reserve,
                                       loft := soilLoft s.free (2 ^ 22 - w.soiled) (2 ^ 22 - reserve) sh.loft })) with
    free := s.free + (w.soiled - reserve) }

def wvConfigDef (log2 enable : Byte) (tol thr reserve : W32) : UnitDef :=
  { plainUnit true (fun s g _ =>
      ⟨configureSheaf s g log2.toNat (enable = 1) tol thr reserve.toNat, .ok, []⟩) with
    form := fun _ _ =>
      if 20 < log2.toNat ∨ 1 < enable.toNat ∨ positiveFinite tol = false ∨ 2 ^ 22 < reserve.toNat then some .badParam
      else if reserve.toNat % 4096 ≠ 0 then some .alignFault else none,
    resource := fun s x => if reserveBad s x reserve.toNat = [] then none else some (.badParam, reserveBad s x reserve.toNat) }

/-- WV_CONFIG sets the weathervane of each selected sheaf (R106, R266). -/
def execWvConfig (h : Hdr) (sampleLog2 enable : Byte) (tolerance threshold reserve : W32) (s : State) : Out :=
  .next (submit (.wvConfig h sampleLog2 enable tolerance threshold reserve)
    (runUnit (.wvConfig h sampleLog2 enable tolerance threshold reserve)
      (wvConfigDef sampleLog2 enable tolerance threshold reserve)) s)

/-- A CLEAR field holds 0 or 1; at most 16 sheaves are selected (R96). -/
def clearForm (clear : Byte) (s : State) (x : Sel) : Option Status :=
  if 1 < clear.toNat then some .badParam else sixteenSheaves s x

def wvStatsDef (clear : Byte) : UnitDef :=
  { plainUnit true (fun s g _ =>
      ⟨if clear = 1 then s.modSheaf g (fun sh => { sh with wv := { sh.wv with stats := WvStats.reset } }) else s, .ok,
       (s.sheaf g).wv.stats.bytes⟩) with
    form := clearForm clear, payload := joinPieces }

/-- WV_STATS returns the statistics record of each selected sheaf, and clears it when CLEAR is 1 (R264). -/
def execWvStats (h : Hdr) (clear : Byte) (s : State) : Out :=
  .next (submit (.wvStats h clear) (runUnit (.wvStats h clear) (wvStatsDef clear)) s)

/-! ### CLAMP_READ and DETERMINISM -/

def clampReadDef (clear : Byte) : UnitDef :=
  { plainUnit true (fun s g _ =>
      ⟨if clear = 1 then s.modSheaf g (fun sh => { sh with clamp := 0 }) else s, .ok, leBytes 8 (s.sheaf g).clamp⟩) with
    form := clearForm clear, payload := joinPieces }

/-- CLAMP_READ returns the clamp count of each selected sheaf, and clears it when CLEAR is 1 (R217). -/
def execClampRead (h : Hdr) (clear : Byte) (s : State) : Out :=
  .next (submit (.clampRead h clear) (runUnit (.clampRead h clear) (clampReadDef clear)) s)

def determinismNow (h : Hdr) (on : Byte) : Nat → State → State :=
  runModule (.determinism h on) (fun _ h => if 1 < on.toNat ∨ h.allot = 0 then some .badParam else none) noObjects (fun s id _ =>
    let c := Instr.determinism h on
    match s.allot? h.allot.toNat with
    | none => finishModule s id c .badParam []
    | some a =>
      if (setBits a.sheaves).any (fun g => (s.sheaf g).busyCensus) then finishModule s id c .badState []
      else finishModule { s with allots := KMap.ins s.allots h.allot.toNat { a with det := decide (on = 1) } } id c .ok
        (leBytes 1 (b2n a.det)))

/-- DETERMINISM sets the determinism mode of the header's allotment and returns the previous one (R106, R276). -/
def execDeterminism (h : Hdr) (on : Byte) (s : State) : Out :=
  .next (submit (.determinism h on) (determinismNow h on) s)

end Sys2Proof.Machine
end

