-- ==== Sys2Proof/Machine/CollCmd.lean ====
section
/-!
DEFINITION. The collective class (R103, R104) and the rows of the trusses: rounds, votes and decisions (R300 to R305), status
(R309), and a bucket's timers and frames.
-/

namespace Sys2Proof.Machine

/-! ### Opening a round -/

/-- The courses a handle spans, from any sheaf that holds it. -/
def State.collAny (s : State) (a h : W16) : Option Coll := (s.collSheaves a h).head?.bind (fun g => s.coll g a h)

/-- The group as the next round will have it. -/
def nextGroup (s : State) (a h : W16) (m : ModColl) : List W32 :=
  match s.allot? a.toNat, s.collAny a h with
  | some x, some c => groupOf s x.members c.plan.courses m.backups
  | _, _ => m.group

/-- Whether a course declared down still leaves some rank or backup without a route, so that later failures carry `LINK_DOWN` too (R297). -/
def stillDown (s : State) (m : ModColl) : Bool :=
  m.linkDown && (m.group ++ m.bk.map (·.2)).any (fun q => decide (q ≠ s.fabric.address) && (s.route m.allot q).isNone)

/-- The module truss's part in opening a round: group, backups and determinism mode are read anew (R280, R293, R306). -/
def openModule (s : State) (a h : W16) : State :=
  match s.modColl a h with
  | none => s
  | some m =>
    let grp := nextGroup s a h m
    let det := (s.allot? a.toNat).any (·.det)
    let s := s.modModColl a h (fun m => { m with group := grp, bk := m.backups, det := det, voted := false,
                                                 vote := (true, .ok), isUndecided := false, votes := [], occ := [] })
    s.modModColl a h (fun m => { m with linkDown := stillDown s m })

/-- The number under which a module votes and acknowledges: its rank, or P plus the rank that it backs (R293, R300). -/
def ModColl.voter (m : ModColl) (own : W32) : Nat :=
  match m.role own with
  | .rank r => r
  | .backup r => m.p + r
  | .outside => 2 * m.p

/-- The number and address of every rank and backup but this module. -/
def ModColl.voters (m : ModColl) (own : W32) : List (Nat × W32) :=
  (m.group.zipIdx.map (fun e => (e.2, e.1)) ++ m.bk.map (fun e => (m.p + e.1, e.2))).filter (fun e => decide (e.2 ≠ own))

/-- The decider decides: the decision goes to every other rank and backup (R300). -/
def sendDecision (s : State) (a h : W16) (m : ModColl) (c : Coll) (commit : Bool) (st : Status) : State :=
  let o : Outcome := { seq := c.openSeq, run := c.run, commit := commit, status := st, acks := [], applied := decide (m.p ≤ 1),
                       live := true }
  let s := s.modModColl a h (fun m => { m with outcomes := m.outcomes ++ [o] })
  (m.voters s.fabric.address).foldl (fun s e => s.send (.decision e.2 a h c.openSeq c.run 0 commit st)) s

/-- The decider sends its decisions once more to every module that has not acknowledged them (R300). -/
def repeatDecision (s : State) (m : ModColl) : State :=
  m.outcomes.foldl (fun s o => ((m.voters s.fabric.address).filter (fun e => !o.acks.contains e.1)).foldl
    (fun s e => s.send (.decision e.2 m.allot m.handle o.seq o.run 0 o.commit o.status)) s) s

/-- Every decision that some module has not acknowledged is sent again. DESIGN CHOICE (log entry 76): the spec says that the decider
repeats it and not how often. -/
def repeatDecisions (s : State) : State := s.modColls.foldl repeatDecision s

/-- The worst status of the votes recorded (R46). -/
def worstVote (m : ModColl) : Status := m.votes.foldl (fun st e => Status.worse st e.2.2) .ok

/-- Whether the decider has decided the open round and run. -/
def ModColl.hasOutcome (m : ModColl) (c : Coll) : Bool :=
  m.outcomes.any (fun o => o.live && decide (o.seq = c.openSeq) && decide (o.run = c.run))

/-- What the votes recorded decide: FAIL at the first FAIL, COMMIT when all P ranks voted OK (R300). -/
def verdictOf (m : ModColl) (c : Coll) : Option Bool :=
  if m.hasOutcome c || c.isFailed then none
  else if m.votes.any (fun e => !e.2.1) then some false
  else if (List.range m.p).all (fun r => (KMap.look m.votes r).any (·.1)) then some true
  else none

/-- Votes that came before the decider had started their round or run count once it has (R300). -/
def countEarly (s : State) (a h : W16) : State :=
  match s.collAny a h with
  | some c =>
    let now := fun (v : W32 × Byte × Nat × Bool × Status) => decide (v.1 = c.openSeq) && decide (v.2.1 = c.run)
    let s := s.modModColl a h (fun m => { m with
      votes := (m.early.filter now).foldl (fun l v => KMap.ins l v.2.2.1 v.2.2.2) m.votes,
      early := m.early.filter (fun v => !now v) })
    match s.modColl a h with
    | none => s
    | some m => match verdictOf m c with
      | some commit => if m.p ≤ 1 then s else sendDecision s a h m c commit (worstVote m)
      | none => s
  | none => s

/-- A sheaf opens a round at cycle position 1 with RUN 0; ACCUMN takes its new value (R279, R283). A bucket frozen ahead under
ACCUMN 1 is accumulated when ACCUMN has grown. -/
def openSheaf (s : State) (g : Nat) (a h : W16) (seq : W32) : State :=
  let s := s.modHandle g a h (fun c => { c with openSeq := seq, run := 0, isFailed := false, accumn := c.accumnNext, buckets := [] })
  match s.coll g a h with
  | none => s
  | some c =>
    if c.accumn = 1 then s
    else (List.range c.plan.buckets.toNat).foldl (fun s b =>
      if c.usedOf b = c.base + 1 then
        accumulate (s.modHandle g a h (fun c => { c with used := KMap.put 0 c.used b c.base })) g
          { c with used := KMap.put 0 c.used b c.base } b true
      else s) s

/-- Frames kept for the round are taken, and ready contributions start. -/
def resumeSheaf (s : State) (g : Nat) (a h : W16) : State := pump (replayAhead s g a h) g a h

/-- Open round `seq` of a handle on every participating sheaf. -/
def openRound (s : State) (a h : W16) (seq : W32) : State :=
  let gs := s.collSheaves a h
  let s := openModule s a h
  let s := gs.foldl (fun s g => openSheaf s g a h seq) s
  countEarly (gs.foldl (fun s g => resumeSheaf s g a h) s) a h

/-- Run the open round again with RUN + 1 (R302). -/
def rerunRound (s : State) (a h : W16) : State :=
  let gs := s.collSheaves a h
  let s := s.modModColl a h (fun m => { m with
    linkDown := stillDown s m, voted := false, vote := (true, .ok), isUndecided := false, votes := [] })
  let s := gs.foldl (fun s g => s.modHandle g a h (fun c => { c with run := c.run + 1, isFailed := false, buckets := [] })) s
  countEarly (gs.foldl (fun s g => resumeSheaf s g a h) s) a h

/-! ### Replies that wait for a decision (R303, R304) -/

/-- A command that waits for the decision of a round. -/
def Op.awaits (o : Op) (a h : W16) (seq : W32) : Bool := decide (o.wait = .decision a h seq)

/-- Give a waiting command a status for every unit that acted, and the value its reply carries. -/
def Op.decided (o : Op) (st : Status) (path : BitVec 24) (value : W32) : Op :=
  { o with entries := o.entries.foldl (fun a e => addEntry (if e.1 = .ok then st else e.1) e.2 a) [],
           note := if st = .ok then o.note else (lowNote (o.note.map BitVec.toNat) (some path.toNat)).map (BitVec.ofNat 24),
           pieces := [(0, leBytes 4 value.toNat)] }

/-- The payload of COLL_COMMIT and COLL_ABORT: the value of the lowest sheaf. -/
def firstPiece (o : Op) : List Byte := (o.pieces.head?.map (·.2)).getD (leBytes 4 0)

/-- A definition under which COLL_COMMIT and COLL_ABORT finish. -/
def collReplyDef : UnitDef := { plainUnit true (fun s _ _ => ⟨s, .ok, []⟩) with payload := firstPiece }

/-- Write the replies of the listed commands. -/
def finishWaiting (s : State) (due : Op → Bool) (st : Status) (value : W32) : State :=
  let l := s.lodge.ops.filter due
  l.foldl (fun s o =>
    let low := match cmdOf o.cmd with
      | some (h, _) => ((selOf h.path h.mask).sheaves.head?).getD 0
      | none => 0
    finishUnit s collReplyDef (o.decided st (sheafPath low) value))
    { s with lodge := { s.lodge with ops := s.lodge.ops.filter (fun o => !due o) } }

def isCommit (o : Op) : Bool := match o.cmd with | .collCommit .. => true | _ => false
def isAbort (o : Op) : Bool := match o.cmd with | .collAbort .. => true | _ => false

/-! ### Abort (R304) -/

/-- Zero the ACC region of a handle. -/
def clearAcc (s : State) (g : Nat) (c : Coll) : State :=
  if c.plan.acc = 0xFFFFFFFF then s
  else trussStore s g c.plan.acc.toNat (List.replicate (2048 * c.plan.buckets.toNat) 0)

/-- Free every frozen bucket and drop the handle's frames on a sheaf. -/
def Coll.aborted (c : Coll) : Coll :=
  { c with src := c.src.filter (fun e => !e.2.frozen), buckets := [], ahead := [], waiting := [], lateHeld := [], owed := [], checks := [],
           past := c.past.filter (fun k => decide (k.seq.toNat ≤ c.committed.toNat)),
           used := (List.range c.plan.buckets.toNat).foldl (fun m b => KMap.put 0 m b c.base) [] }

/-- Every sheaf of the module frees the handle's frozen buckets, clears ACC and drops its frames (R304). -/
def abortSheaves (s : State) (a h : W16) : State :=
  (s.collSheaves a h).foldl (fun s g => match s.coll g a h with
    | some c => clearAcc (s.modHandle g a h Coll.aborted) g c
    | none => s) s

/-- The module's open round ends; the next is COMMITTED + 1 at cycle position 1 with RUN 0. Decisions that some module has not acknowledged
are repeated as before (R300). -/
def abortRound (s : State) (a h : W16) : State :=
  let s := abortSheaves s a h
  let s := s.modModColl a h (fun m => { m with outcomes := m.outcomes.map (fun o => { o with live := false }), early := [] })
  match s.collAny a h with
  | some c => openRound s a h (c.committed + 1)
  | none => s

/-- COLL_ABORT commands that waited for the decision end with it. -/
def finishAborts (s : State) (a h : W16) (seq : W32) : State :=
  let due := fun (o : Op) => isAbort o && o.awaits a h seq
  if s.lodge.ops.any due then
    let s := abortRound s a h
    finishWaiting s due .ok ((s.collAny a h).elim 0 (·.committed))
  else s

/-! ### Decisions (R300 to R302) -/

/-- The commit block (Table 11-4). -/
def commitBlock (committed : W32) (st : Status) (run : Byte) (decided : W32) : List Byte :=
  leBytes 4 committed.toNat ++ leBytes 2 st.code ++ [run, 0] ++ leBytes 4 decided.toNat ++ leBytes 4 0

/-- Contributions still owed when a round commits without them (R298); a backup's copy is freed without being sent. -/
def Coll.nowOwed (c : Coll) (isRank : Bool) : List Owed :=
  (List.range c.plan.buckets.toNat).filterMap (fun b =>
    let x := c.bucket b
    if c.isReady b then none
    else some { bucket := b, seq := c.openSeq, run := c.run, exponent := x.exponent.getD 0, nonfinite := x.nonfinite, n := c.accumn,
                send := isRank })

/-- Checksums of substituted copies that are kept for the check of a late primary (R296). -/
def Coll.nowChecks (c : Coll) : List LateCheck :=
  c.buckets.flatMap (fun e => e.2.substituted.filterMap (fun r =>
    if e.2.compared.contains r then none
    else match e.2.input r true with
      | some i =>
        let k : LateCheck := { bucket := e.1, seq := c.openSeq, run := c.run, since := KMap.get 0 e.2.subAt r, tlost := e.2.tlost,
                               rank := r, cs1 := i.cs1, cs2 := i.cs2 }
        if i.words.isSome then some k else none
      | none => none))

/-- A COMMIT takes effect on a sheaf: the round's sources and ACC buckets are freed (R302). -/
def Coll.committedNow (c : Coll) (det isRank : Bool) (st : Status) : Coll :=
  let freed := if c.accumn = 1 then (List.range c.plan.buckets.toNat).foldl (fun (c : Coll) b =>
      if c.isReady b then c.setSource (c.openKey b) SrcBucket.empty else c) c else c
  { freed with committed := c.openSeq, decided := c.openSeq, lastStatus := st, lastRun := c.run,
               owed := c.owed ++ c.nowOwed isRank, past := c.past ++ c.takenKeys,
               checks := if det then c.checks ++ c.nowChecks else c.checks,
               lateHeld := c.lateHeld ++ c.buckets.flatMap (·.2.held),
               base := c.base + c.accumn, buckets := [] }

/-- A FAIL takes effect on a sheaf: DECIDED and STATUS are written, COMMITTED stays, and the round waits for its next run. -/
def Coll.failedNow (c : Coll) (st : Status) : Coll :=
  { c with decided := c.openSeq, lastStatus := st, lastRun := c.run, isFailed := true, past := c.past ++ c.takenKeys }

/-- Write the commit block as it stands. -/
def writeBlock (s : State) (g : Nat) (a h : W16) : State :=
  match s.coll g a h with
  | some c => trussStore s g c.plan.commit.toNat (commitBlock c.committed c.lastStatus c.lastRun c.decided)
  | none => s

/-- No rank and no bucket concerned. -/
def Occ.plain : Occ := { bucket := 0, rank := 0xFFFF, count := 1, lateness := 0 }

/-- The first bucket of the open round that failed on this module, by its index; 0 where none did (Table 11-7). -/
def firstFailed (s : State) (a h : W16) : Nat :=
  (((s.collSheaves a h).flatMap (fun g => (s.coll g a h).elim [] (fun c =>
    (c.buckets.filter (fun e => e.2.failed.isSome)).map (fun e => s.bucketIndex c g e.1)))).head?).getD 0

/-- A decision is applied on this module (R302 to R305). -/
def applyDecision (s : State) (a h : W16) (commit : Bool) (st : Status) : State :=
  match s.modColl a h, s.collAny a h with
  | some m, some c0 =>
    let seq := c0.openSeq
    let run := c0.run
    let gs := s.collSheaves a h
    let isRank := match m.role s.fabric.address with | .rank _ => true | _ => false
    let first := firstFailed s a h
    let s := gs.foldl (fun s g =>
      writeBlock (s.modHandle g a h (fun c => if commit then c.committedNow m.det isRank st else c.failedNow st)) g a h) s
    let s := if m.isUndecided then collEvent s a h 6 st seq run Occ.plain else s
    let s := if commit then flushOcc s a h seq run else collEvent s a h 1 st seq run { Occ.plain with bucket := first }
    let s := s.modModColl a h (fun m => { m with isUndecided := false, known := m.known ++ [(seq, run, commit, st)] })
    let s := if commit then openRound s a h (seq + 1) else s
    let s := finishWaiting s (fun o => isCommit o && o.awaits a h seq) st ((s.collAny a h).elim 0 (·.committed))
    finishAborts s a h seq
  | _, _ => s

/-- The decider decides, and applies the decision to itself at once when P is 1 (R300). -/
def makeDecision (s : State) (a h : W16) (m : ModColl) (c : Coll) (commit : Bool) (st : Status) : State :=
  let s := sendDecision s a h m c commit st
  if m.p ≤ 1 then applyDecision s a h commit st else s

/-- A vote counts at the decider (R300). -/
def recordVote (s : State) (a h : W16) (rank : Nat) (ok : Bool) (st : Status) : State :=
  let s := s.modModColl a h (fun m => { m with votes := KMap.ins m.votes rank (ok, st) })
  match s.modColl a h, s.collAny a h with
  | some m, some c => match verdictOf m c with
    | some commit => makeDecision s a h m c commit (worstVote m)
    | none => s
  | _, _ => s

/-- This module votes; a backup votes under P + its rank (R293, R300). The events of the round are written (R310). -/
def castVote (s : State) (a h : W16) (ok : Bool) (st : Status) : State :=
  match s.modColl a h, s.collAny a h with
  | some m, some c =>
    match (m.role s.fabric.address).actsFor with
    | none => s
    | some _ =>
      let s := s.modModColl a h (fun m => { m with voted := true, vote := (ok, st) })
      let s := flushOcc s a h c.openSeq c.run
      let k := m.voter s.fabric.address
      if k = 0 then recordVote s a h 0 ok st
      else s.send (.vote ((m.group[0]?).getD 0) a h c.openSeq c.run k ok st)
  | _, _ => s

/-! ### COLL_DEFINE (R278 to R281) -/

/-- The ranges of Table 11-1 on a plan; `n` is P. -/
def planForm (p : Plan) (n : Nat) : Bool :=
  let fmt := fun (f : Byte) => decide (f = 0) || decide (f = 2)
  decide (p.op.toNat ≤ 3) && fmt p.fmt && fmt p.outFmt && (decide (p.op ≠ 3) || decide (p.outFmt = p.fmt)) &&
  decide (p.shape.toNat ≤ 1) && (if p.shape = 0 then decide (2 ≤ p.radix.toNat) && decide (p.radix.toNat ≤ 32) else decide (p.radix = 0)) &&
  decide (p.courses.toNat < 8) && (if p.op = 2 ∨ p.op = 3 then decide (p.root.toNat < n) else decide (p.root = 0)) &&
  decide (1 ≤ p.buckets.toNat) && decide (p.buckets.toNat ≤ 4096) && decide (1 ≤ p.window.toNat) && decide (p.window.toNat ≤ 256)

/-- Ranges that are pairwise disjoint. -/
def disjointAll : List (Nat × Nat) → Bool
  | [] => true
  | x :: t => t.all (fun y => !extOverlap x y) && disjointAll t

/-- The first check of R279 on one sheaf. -/
def planFits (s : State) (g : Nat) (a h : W16) (p : Plan) : Bool :=
  let sh := s.sheaf g
  let rs := planRegions p
  rs.all (fun r => decide (r.1 % 16 = 0) && decide (r.2 ≤ loftSpace sh)) && disjointAll rs &&
  (s.coll g a h).isNone && decide (sh.colls.length < 8)

/-- The FPL of a module as this one knows it. -/
def fplOf (s : State) (a : W32) : Option Nat :=
  if a = s.fabric.address then some (fplInUse s).toNat else (s.entry a).map (·.fpl.toNat)

/-- Fabric protocol levels within one level of each other (R457). -/
def fplClose (l : List Nat) : Bool := l.all (fun x => l.all (fun y => decide (x ≤ y + 1)))

/-- The group a handle would have (R280). -/
def groupFor (s : State) (a h : W16) (courses : Byte) : List W32 :=
  let bk := match s.modColl a h with | some m => m.backups | none => []
  match s.allot? a.toNat with
  | some x => groupOf s x.members courses bk
  | none => []

/-- Whether every other member of a list is reached by a route in force (R279, R332). -/
def allRouted (s : State) (a : W16) (l : List W32) : Bool :=
  l.all (fun q => decide (q = s.fabric.address) || (s.route a q).isSome)

def defineResource (a h : W16) (p : Plan) (s : State) (x : Sel) : Option (Status × List Nat) :=
  let live := x.sheaves.filter (fun g => !(s.sheaf g).withheld)
  let bad := live.filter (fun g => !planFits s g a h p)
  let grp := groupFor s a h p.courses
  let bk := match s.modColl a h with | some m => m.backups.map (·.2) | none => []
  if (s.allot? a.toNat).isNone then some (.badParam, live)
  else if bad ≠ [] then some (.badParam, bad)
  else if !allRouted s a (grp ++ bk) then some (.noRoute, live)
  else if !fplClose (grp.filterMap (fplOf s)) then some (.fplMismatch, live)
  else none

/-- A handle as COLL_DEFINE leaves it (R279): round 1 is open at position 1 with RUN 0. -/
def newColl (a h : W16) (slot : BitVec 4) (p : Plan) (ovfWide : Bool) : Coll :=
  { allot := a, handle := h, slot := slot, plan := p, accumn := 1, accumnNext := 1, tlate := 100000, tlost := 1000000,
    ovfWide := ovfWide, committed := 0, decided := 0, lastStatus := .ok, lastRun := 0, openSeq := 1, run := 0, isFailed := false,
    base := 0, used := [], src := [], buckets := [], owed := [], checks := [], ahead := [], waiting := [], lateHeld := [], past := [], commitSeq := 0,
    retries := 0, substitutions := 0, breaches := 0, duplicates := 0, reroutes := 0, race := 0, nonfinites := 0, mismatch := 0 }

/-- The module truss's record of a handle when its first sheaf defines it. -/
def newModColl (s : State) (a h : W16) (p : Plan) : ModColl :=
  { allot := a, handle := h, sheaves := [], backups := [], group := groupFor s a h p.courses, bk := [], det := (s.allot? a.toNat).any (·.det),
    linkDown := false, voted := false, vote := (true, .ok), isUndecided := false, votes := [], early := [], known := [], outcomes := [],
    occ := [], eventsDone := [] }

def defineAct (a h : W16) (slot : BitVec 4) (p : Plan) (s : State) (g : Nat) : State :=
  let s := if s.collSheaves a h = [] then
      let l := s.modColls.filter (fun m => !(decide (m.allot = a) && decide (m.handle = h)))
      let s := { s with modColls := l }
      { s with modColls := l ++ [newModColl s a h p] }
    else s
  let s := s.modModColl a h (fun m => { m with sheaves := insSorted g m.sheaves })
  let s := s.modSheaf g (fun sh => { sh with colls := sh.colls ++ [newColl a h slot p (sh.numctl.getLsbD 10)] })
  trussStore s g p.commit.toNat (List.replicate 16 0)

def collDefineDef (h : Hdr) (handle planWords : W16) (plan : Plan) : UnitDef :=
  { plainUnit true (fun s g _ => ⟨defineAct h.allot handle h.slot plan s g, .ok, []⟩) with
    form := fun s _ =>
      if handle.toNat < 1 ∨ 0xFFF < handle.toNat ∨ planWords ≠ 8 ∨ h.allot = 0 ∨
         planForm plan (groupFor s h.allot handle plan.courses).length = false then some .badParam else none,
    resource := defineResource h.allot handle plan }

/-- COLL_DEFINE defines a collective handle on the selected sheaves (R278, R279). -/
def execCollDefine (h : Hdr) (handle planWords : W16) (plan : Plan) (s : State) : Out :=
  .next (submit (.collDefine h handle planWords plan)
    (runUnit (.collDefine h handle planWords plan) (collDefineDef h handle planWords plan)) s)

/-! ### COLL_BACKUP (R293) -/

/-- Whether round 1, which COLL_DEFINE opened, is open and nothing of it has reached the handle on this module: a backup named then serves that
round already, as in Tables 11-10 and 11-11; any later round opened before the command keeps its backups (DEDUCED, log entry 48). -/
def firstUntouched (s : State) (a h : W16) : Bool :=
  (s.collSheaves a h).all (fun g => (s.coll g a h).all (fun c =>
    decide (c.openSeq = 1) && decide (c.run = 0) && c.buckets.isEmpty && c.ahead.isEmpty && c.waiting.isEmpty))

/-- Backups named before anything of round 1 has happened serve it; a module that becomes a backup, or ceases to be one, takes its place in the
group, which else is kept, as is the mode (R293, R306). -/
def adoptBackups (s : State) (a h : W16) : State :=
  match s.modColl a h with
  | none => s
  | some m =>
    let own := s.fabric.address
    let turns := decide (m.bk.any (fun e => decide (e.2 = own)) ≠ m.backups.any (fun e => decide (e.2 = own)))
    let grp := if turns then nextGroup s a h m else m.group
    s.modModColl a h (fun m => { m with bk := m.backups, group := grp })

def backupBody (a h : W16) (rank : Nat) (addr : W32) (c : Instr) (s : State) (id : Nat) : State :=
  match s.modColl a h, s.collAny a h, s.allot? a.toNat with
  | some m, some k, some x =>
    let others := m.backups.filter (fun e => decide (e.1 ≠ rank))
    let off := decide (addr = 0xFFFFFFFF)
    let named := if off then others else KMap.ins others rank addr
    let grp := groupOf s x.members k.plan.courses (if addr = s.fabric.address then named else m.backups)
    if decide (grp.length ≤ rank) || (!off && (grp.contains addr || others.any (fun e => decide (e.2 = addr)))) then
      finishModule s id c .badParam []
    else if !off && grp.any (fun q => decide (q ≠ addr) && (candidates s (fun b => x.members.contains b) addr q).isEmpty) then
      finishModule s id c .noRoute []
    else
      let s := s.modModColl a h (fun m => { m with backups := named })
      finishModule (if firstUntouched s a h then adoptBackups s a h else s) id c .ok []
  | _, _, _ => finishModule s id c .badParam []

def collBackupNow (h : Hdr) (handle rank : W16) (addr : W32) : Nat → State → State :=
  runModule (.collBackup h handle rank addr)
    (fun _ h => if h.allot = 0 ∨ (addr ≠ 0xFFFFFFFF ∧ addrReserved addr = true) then some .badParam else none)
    (fun s h => decide (addr ≠ 0xFFFFFFFF) && !((s.allot? h.allot.toNat).any (fun x => x.members.contains addr)))
    (fun s id h' => backupBody h'.allot handle rank.toNat addr (.collBackup h handle rank addr) s id)

/-- COLL_BACKUP names, replaces or removes the backup of a rank (R293). -/
def execCollBackup (h : Hdr) (handle rank : W16) (addr : W32) (s : State) : Out :=
  .next (submit (.collBackup h handle rank addr) (collBackupNow h handle rank addr) s)

/-! ### COLL_TUNE (R104, R283) -/

/-- Sheaves of a selection on which a test on the handle fails; a sheaf without the handle fails it. -/
def collBad (s : State) (x : Sel) (a h : W16) (good : Coll → Bool) : List Nat :=
  x.sheaves.filter (fun g => !(s.sheaf g).withheld && !((s.coll g a h).any good))

/-- Refuse with `BAD_PARAM` where a test on the handle fails. -/
def collRes (a h : W16) (good : Coll → Bool) (s : State) (x : Sel) : Option (Status × List Nat) :=
  if collBad s x a h good = [] then none else some (.badParam, collBad s x a h good)

/-- Whether no bucket of the open cycle has been consumed. -/
def Coll.cycleFresh (c : Coll) : Bool := (List.range c.plan.buckets.toNat).all (fun b => decide (c.usedOf b ≤ c.base))

def Coll.tune (c : Coll) (n : Nat) (tlate tlost : W32) : Coll :=
  { c with accumnNext := n, accumn := if c.cycleFresh then n else c.accumn, tlate := tlate, tlost := tlost }

def collTuneDef (h : Hdr) (handle accumn : W16) (tlate tlost : W32) : UnitDef :=
  { plainUnit true (fun s g _ => ⟨s.modHandle g h.allot handle (fun c => c.tune accumn.toNat tlate tlost), .ok, []⟩) with
    form := fun _ _ => if accumn.toNat < 1 ∨ 256 < accumn.toNat ∨ tlost.toNat ≤ tlate.toNat then some .badParam else none,
    resource := collRes h.allot handle (fun c => decide (accumn = 1) || decide (c.plan.acc ≠ 0xFFFFFFFF)) }

/-- COLL_TUNE sets ACCUMN, TLATE and TLOST (R104, R283). -/
def execCollTune (h : Hdr) (handle accumn : W16) (tlate tlost : W32) (s : State) : Out :=
  .next (submit (.collTune h handle accumn tlate tlost)
    (runUnit (.collTune h handle accumn tlate tlost) (collTuneDef h handle accumn tlate tlost)) s)

/-! ### COLL_COMMIT, COLL_ABORT, COLL_STATUS -/

def commitAct (a h : W16) (seq : W32) (s : State) (g : Nat) : ActRes :=
  let s := s.modHandle g a h (fun c => { c with commitSeq := if c.commitSeq.toNat < seq.toNat then seq else c.commitSeq })
  match s.coll g a h with
  | none => ⟨s, .ok, []⟩
  | some c =>
    let again := c.isFailed && decide (c.openSeq.toNat ≤ seq.toNat)
    ⟨if again then rerunRound s a h else s, .ok, leBytes 4 c.committed.toNat⟩

def collCommitDef (h : Hdr) (handle : W16) (seq : W32) : UnitDef :=
  { plainUnit true (fun s g _ => commitAct h.allot handle seq s g) with
    resource := collRes h.allot handle (fun c => decide (c.slot = h.slot)),
    payload := firstPiece,
    wait := fun s _ => match s.collAny h.allot handle with
      | some c => if seq.toNat ≤ c.committed.toNat then none else some (.decision h.allot handle seq)
      | none => none }

/-- COLL_COMMIT is finished at admission and replies when its round is decided (R302, R303). -/
def execCollCommit (h : Hdr) (handle : W16) (seq : W32) (s : State) : Out :=
  .next (submit (.collCommit h handle seq) (runUnit (.collCommit h handle seq) (collCommitDef h handle seq)) s)

/-- Whether the module has voted and has no decision yet. -/
def awaitsDecision (s : State) (a h : W16) : Bool :=
  (s.modColl a h).any (·.voted) && !((s.collAny a h).any (·.isFailed))

/-- The lowest selected sheaf that holds the handle carries out the abort for the module. -/
def abortAct (h : Hdr) (handle : W16) (s : State) (g : Nat) : ActRes :=
  let a := h.allot
  let first := (selOf h.path h.mask).sheaves.find? (fun g => (s.coll g a handle).isSome)
  let piece := leBytes 4 ((s.coll g a handle).elim 0 (·.committed)).toNat
  if first ≠ some g ∨ awaitsDecision s a handle = true then ⟨s, .ok, piece⟩
  else
    let failed := (s.collAny a handle).any (·.isFailed)
    let s := if failed then s else castVote s a handle false .contributionLost
    ⟨abortRound s a handle, .ok, piece⟩

def collAbortDef (h : Hdr) (handle : W16) : UnitDef :=
  { plainUnit true (fun s g _ => abortAct h handle s g) with
    resource := collRes h.allot handle (fun c => decide (c.slot = h.slot)),
    payload := firstPiece,
    wait := fun s _ => match s.collAny h.allot handle with
      | some c => if awaitsDecision s h.allot handle then some (.decision h.allot handle c.openSeq) else none
      | none => none }

/-- COLL_ABORT ends the module's open round (R304). -/
def execCollAbort (h : Hdr) (handle : W16) (s : State) : Out :=
  .next (submit (.collAbort h handle) (runUnit (.collAbort h handle) (collAbortDef h handle)) s)

/-- PHASE of the status record (Table 11-6). -/
def collPhase (m : ModColl) (c : Coll) : Nat :=
  if c.openSeq = 0 then 0 else if m.isUndecided then 5 else if c.isFailed then 4 else if m.voted then 3
  else if c.buckets.isEmpty then 1 else 2

/-- The cycle position of the handle: that of its slowest bucket. -/
def Coll.position (c : Coll) : Nat :=
  min c.accumn (((List.range c.plan.buckets.toNat).map (fun b => c.usedOf b - c.base)).foldl min c.accumn + 1)

/-- The status record (Table 11-6). -/
def collRecord (s : State) (m : ModColl) (c : Coll) : List Byte :=
  let rank := match m.role s.fabric.address with | .rank r => r | _ => 0xFFFF
  let ready := ((List.range c.plan.buckets.toNat).filter c.isReady).length
  let done := (c.buckets.filter (fun e => e.2.resultDone)).length
  leBytes 2 c.handle.toNat ++ leBytes 1 c.slot.toNat ++ leBytes 1 (collPhase m c) ++ leBytes 4 c.committed.toNat ++
  leBytes 4 c.openSeq.toNat ++ leBytes 2 rank ++ leBytes 2 m.p ++ leBytes 2 (s.collParts c.allot c.handle).length ++ [c.run] ++
  leBytes 1 c.position ++ leBytes 4 ready ++ leBytes 4 done ++ leBytes 4 c.retries ++ leBytes 4 c.substitutions ++
  leBytes 4 c.breaches ++ leBytes 4 c.duplicates ++ leBytes 4 c.reroutes ++ leBytes 4 c.race ++ leBytes 4 c.nonfinites ++
  leBytes 4 c.mismatch ++ leBytes 2 c.lastStatus.code ++ leBytes 2 0

def collStatusDef (h : Hdr) (handle : W16) : UnitDef :=
  { plainUnit true (fun s g _ => ⟨s, .ok, match s.modColl h.allot handle, s.coll g h.allot handle with
      | some m, some c => collRecord s m c
      | _, _ => []⟩) with
    form := sixteenSheaves,
    resource := collRes h.allot handle (fun _ => true),
    payload := joinPieces }

/-- COLL_STATUS returns the status record of each selected sheaf (R309). -/
def execCollStatus (h : Hdr) (handle : W16) (s : State) : Out :=
  .next (submit (.collStatus h handle) (runUnit (.collStatus h handle) (collStatusDef h handle)) s)

/-- A dissolve aborts an allotment's collectives without the wait and deletes them (R102, R304). -/
def dissolveColls (s : State) (a : W16) : State :=
  let mine := (s.modColls.filter (fun m => decide (m.allot = a))).map (·.handle)
  let s := mine.foldl (fun s h => abortSheaves (if awaitsDecision s a h || (s.collAny a h).any (·.isFailed) then s
    else castVote s a h false .contributionLost) a h) s
  let due := fun (o : Op) => match o.wait with | .decision b _ _ => decide (b = a) | _ => false
  let s := finishWaiting s due .contributionLost 0
  { s with modColls := s.modColls.filter (fun m => decide (m.allot ≠ a)),
           sheaves := s.sheaves.map (fun e => (e.1, { e.2 with colls := e.2.colls.filter (fun c => decide (c.allot ≠ a)) })) }

/-! ### Rows of a truss -/

/-- BUCKET_READY's late branch: the bucket of a decided round is sent as a late copy, or checked at its own node, where a substitution may
have covered the rank; its words are taken from `vs`, or, in a BROADCAST, are `raw` (R286, R298). -/
def lateCopy (s : State) (g : Nat) (m : ModColl) (c : Coll) (o : Owed) (vs : List Val) (raw : List W64) : State :=
  let s := s.modHandle g c.allot c.handle (fun c => { c with owed := c.owed.erase o })
  match placeOf s m c g o.bucket with
  | none => s
  | some p =>
    let f0 := if c.plan.op = 3 then p.frame s c 3 0 false false 1 raw
      else p.frame s c 0 o.exponent o.nonfinite false 1 (vs.map (xrWord o.exponent))
    let f : BFrame := { f0 with seq := o.seq, run := o.run }
    if !o.send then s
    else if p.adds then
      match c.lateCheck o.bucket o.seq o.run p.rank with
      | some k => checkLate s p c k f.cs1 f.cs2
      | none => s
    else (s.modHandle g c.allot c.handle (fun c => { c with lateHeld := c.lateHeld ++ [(p.up, f)] })).send (.bucket p.up f)

/-- The position, in the cycle of the round it is owed to, of a bucket's next local round: the local rounds still to come before the open
round's first are those of the rounds owed, each with the ACCUMN it had (R283, R298). -/
def Coll.latePosition (c : Coll) (b : Nat) (o : Owed) : Nat :=
  let later := ((c.owed.filter (fun x => decide (x.bucket = b) && decide (x ≠ o))).map (·.n)).sum
  o.n + 1 + later - (c.base - c.usedOf b)

/-- A local round that belongs to a decided round (R298). -/
def lateRound (s : State) (g : Nat) (m : ModColl) (c : Coll) (b : Nat) : State :=
  match c.owed.find? (fun o => decide (o.bucket = b)) with
  | none => s.modHandle g c.allot c.handle (fun c => c.freeSource b)
  | some o =>
    if o.n = 1 then
      let off := c.srcOff (2 * b + c.usedOf b % 2)
      lateCopy (s.modHandle g c.allot c.handle (fun c => c.freeSource b)) g m c o (c.nextVals (s.sheaf g) b)
        (loftWords (s.sheaf g) c.plan.fmt off)
    else
      let pos := c.latePosition b o
      let s := accumulate s g c b (decide (pos = 1))
      if pos = o.n then
        let raw := accWords s g c b
        lateCopy raw.2 g m c o (loftVals (s.sheaf g) 0 (c.accOff b) 512) raw.1
      else s

/-- BUCKET_READY: every segment of a bucket's next local round has been recorded; the bucket freezes and becomes a contribution,
is accumulated, or is sent as a late copy (R282 to R284, R298). A truss that stands makes nothing ready (R441). -/
def execBucketReady (sh : SheafIx) (allot handle : W16) (b : Nat) (s : State) : Out :=
  .next (
    let g := sh.val
    match s.modColl allot handle, s.coll g allot handle with
    | some m, some c =>
      let u := c.usedOf b
      let k := 2 * b + u % 2
      let x := c.source k
      if c.plan.buckets.toNat ≤ b ∨ x.frozen = true ∨ x.segs.length * 16 ≠ c.srcBytes ∨ s.recordsFor c = false ∨ trussRuns s g = false
      then s
      else if u < c.base then lateRound s g m c b
      else if c.accumn = 1 then
        pump (s.modHandle g allot handle (fun c =>
          { (c.setSource k { x with frozen := true }) with used := KMap.put 0 c.used b (u + 1) })) g allot handle
      else if c.accumn ≤ u - c.base then s
      else pump (accumulate s g c b (decide (u = c.base))) g allot handle
    | _, _ => s)

/-- EXPONENT_FRAME: an exponent frame reaches a node (R286). -/
def execExponentFrame (sh : SheafIx) (f : CFrame) (s : State) : Out := .next (takeFrame s sh (.exponent f))

/-- BUCKET_EXPONENT: E and the flag reach a contributor, node or backup (R286, R287). -/
def execBucketExponent (sh : SheafIx) (f : CFrame) (s : State) : Out := .next (takeFrame s sh (.exponentDown f))

/-- BUCKET_FRAME: a contribution or partial sum reaches a node, which verifies, acknowledges and adds it (R292). -/
def execBucketFrame (sh : SheafIx) (f : BFrame) (s : State) : Out := .next (takeFrame s sh (.bucket f))

/-- RESULT_FRAME: a result reaches this module, is written to DST and passed on (R284, R288, R292). -/
def execResultFrame (sh : SheafIx) (f : BFrame) (s : State) : Out := .next (takeFrame s sh (.result f))

/-- BUCKET_FAIL_FRAME: another truss has failed a bucket (R297). -/
def execBucketFailFrame (sh : SheafIx) (f : CFrame) (s : State) : Out := .next (takeFrame s sh (.fail f))

/-- A held frame of a round and run for a module. -/
def heldFor (d : W32) (k : CFrame) (e : W32 × BFrame) : Bool :=
  decide (e.1 = d) && decide (e.2.seq = k.seq) && decide (e.2.run = k.run) && decide (e.2.bucket = k.bucket)

/-- A held frame is acknowledged: it is kept for the sum check while its round is open (R292). -/
def Coll.release (c : Coll) (b : Nat) (due : W32 × BFrame → Bool) : Coll :=
  let x := c.bucket b
  { (c.setBucket b { x with held := x.held.filter (fun e => !due e), acked := x.acked ++ x.held.filter due }) with
    lateHeld := c.lateHeld.filter (fun e => !due e) }

/-- A frame is asked for again: it is held once more, as `e`. -/
def Coll.resend (c : Coll) (b : Nat) (due : W32 × BFrame → Bool) (e : W32 × BFrame) : Coll :=
  let x := c.bucket b
  let put := fun (l : List (W32 × BFrame)) => l.map (fun y => if due y then e else y)
  { (c.setBucket b { x with held := if x.acked.any due then x.held ++ [e] else put x.held, acked := x.acked.filter (fun y => !due y) }) with
    lateHeld := put c.lateHeld }

/-- BUCKET_NACK: the sender resends the frame with ATTEMPT + 1, also one acknowledged before its node's sum check failed; after ATTEMPT 2 the
bucket fails (R292). -/
def execBucketNack (sh : SheafIx) (f : CFrame) (s : State) : Out :=
  .next (
    match bucketNow s sh f.allot f.handle (f.bucket % max 1 ((s.coll sh f.allot f.handle).elim 1 (·.plan.buckets.toNat))) with
    | none => s
    | some (m, p, c) =>
      let d := senderAddr m f.sender f.backup
      if !frameFits s c f.planId f.bucket then noteMismatch s sh f.allot f.handle
      else match ((c.bucket p.b).held ++ (c.bucket p.b).acked ++ c.lateHeld).find? (heldFor d f) with
      | none => s
      | some e =>
        if 2 ≤ e.2.attempt then
          if c.age f.seq f.run = .current then pump (failBucket s m p c .checksumMismatch) p.g c.allot c.handle else s
        else
          let e' := (d, { e.2 with attempt := e.2.attempt + 1 })
          (s.modHandle sh c.allot c.handle (fun c => c.resend p.b (heldFor d f) e')).send
            (.bucket d e'.2))

/-- BUCKET_ACK: the acknowledged frame is no longer held, and is sent again only on a NACK (R292). -/
def execBucketAck (sh : SheafIx) (f : CFrame) (s : State) : Out :=
  .next (
    match bucketNow s sh f.allot f.handle (f.bucket % max 1 ((s.coll sh f.allot f.handle).elim 1 (·.plan.buckets.toNat))) with
    | none => s
    | some (m, p, c) =>
      let d := senderAddr m f.sender f.backup
      if !frameFits s c f.planId f.bucket then noteMismatch s sh f.allot f.handle
      else s.modHandle sh c.allot c.handle (fun c => c.release p.b (heldFor d f)))

/-- TLATE_EXPIRY: TLATE after a bucket's first arrival, a primary of which no frame has arrived is late: its backup's copy is
substituted, or, while there is none, whichever copy arrives first will be used (R295). While the truss stands, its timers run on and the
substitution waits (R437, R441). -/
def execTlateExpiry (sh : SheafIx) (allot handle : W16) (bucket rank : Nat) (s : State) : Out :=
  .next (
    match bucketNow s sh allot handle bucket with
    | none => s
    | some (_, p, c) =>
      let x := c.bucket bucket
      if c.plan.buckets.toNat ≤ bucket ∨ c.isFailed = true ∨ x.arrived = false ∨ x.tlate = 0 ∨ p.direct.contains rank = false ∨
         (x.input rank false).isSome = true ∨ x.substituted.contains rank = true ∨ (rank = p.rank ∧ c.isReady bucket = true) then s
      else if (x.input rank true).isSome && trussRuns s sh then
        advanceBucket (substitute s p c rank) sh allot handle bucket
      else s.modBucket sh allot handle bucket (fun x => { x with lateRanks := x.lateRanks.erase rank ++ [rank] }))

/-- TLOST_EXPIRY: an input still unresolved, or an exponent or result still awaited, fails the bucket, with `LINK_DOWN` where a course
on a route of the group has been declared down in the round (R297, R299). On a bucket the open round has not touched, the checksums kept for a late primary are dropped (R296). -/
def execTlostExpiry (sh : SheafIx) (allot handle : W16) (bucket : Nat) (s : State) : Out :=
  .next (
    match bucketNow s sh allot handle bucket with
    | none => s
    | some (m, p, c) =>
      let x := c.bucket bucket
      if c.plan.buckets.toNat ≤ bucket then s
      else if x.contributed || x.arrived then
        if c.isFailed then s
        else pump (failBucket s m p c (if m.linkDown then .linkDown else .contributionLost)) sh allot handle
      else s.modHandle sh allot handle (fun c => { c with checks := c.checks.filter (fun k => decide (k.bucket ≠ bucket)) }))

/-! ### Rows of the module truss -/

/-- Whether a bucket of the open round is settled: its result written, or failed. -/
def Bucket.settled (x : Bucket) : Bool := x.resultDone || x.failed.isSome

/-- Whether the module truss may vote (R300). -/
def mayVote (s : State) (a h : W16) (m : ModColl) : Bool :=
  !m.voted && !m.sheaves.isEmpty && m.sheaves.all (fun g => (s.coll g a h).any (fun c =>
    !c.isFailed && decide (c.openSeq.toNat ≤ c.commitSeq.toNat) && (List.range c.plan.buckets.toNat).all (fun b => (c.bucket b).settled)))

/-- The statuses of the open round's buckets on this module. -/
def bucketStatuses (s : State) (a h : W16) : List Status :=
  (s.collSheaves a h).flatMap (fun g => (s.coll g a h).elim [] (fun c => c.buckets.map (fun e =>
    match e.2.failed with | some st => st | none => if e.2.sub then .backupSubstituted else .ok)))

/-- VOTE: the round's buckets are done and commits are admitted on every participating sheaf (R300). -/
def execVote (allot handle : W16) (s : State) : Out :=
  .next (
    match s.modColl allot handle with
    | none => s
    | some m =>
      if !mayVote s allot handle m then s
      else
        let st := (bucketStatuses s allot handle).foldl Status.worse .ok
        castVote s allot handle (decide (st.rank < 2)) st)

/-- A control frame of the module truss carries another PLAN_ID: it is discarded and counted in MISMATCH (R281). DESIGN CHOICE (log entry 82):
on the lowest participating sheaf; the counter is a sheaf's and the frame is for none. -/
def planMismatch (s : State) (a h : W16) : State :=
  match (s.collSheaves a h).head? with
  | some g => noteMismatch s g a h
  | none => s

/-- VOTE_RECEIVED: a vote for the open round and run reaches the decider; one for a round or run that it has not yet started is kept (R281,
R300). -/
def execVoteReceived (allot handle : W16) (seq : W32) (run : Byte) (rank : Nat) (ok : Bool) (status : W16) (planId : W32) (s : State) : Out :=
  .next (
    match s.modColl allot handle, s.collAny allot handle with
    | some m, some c =>
      let st := Status.ofCode status.toNat
      if c.plan.planId ≠ planId then planMismatch s allot handle
      else if m.role s.fabric.address ≠ .rank 0 ∨ rank = 0 then s
      else match c.age seq run with
        | .current => recordVote s allot handle rank ok st
        | .ahead => s.modModColl allot handle (fun m => { m with early := m.early ++ [(seq, run, rank, ok, st)] })
        | .old => s
    | _, _ => s)

/-- DECISION: a decision reaches a rank or backup, which applies it once and acknowledges it (R281, R300 to R302, R305). -/
def execDecision (allot handle : W16) (seq : W32) (run : Byte) (rank : Nat) (commit : Bool) (status : W16) (planId : W32) (s : State) : Out :=
  .next (
    match s.modColl allot handle, s.collAny allot handle with
    | some m, some c =>
      let role := m.role s.fabric.address
      let own := m.voter s.fabric.address
      let ack := fun (s : State) => s.send (.decisionAck ((m.group[0]?).getD 0) allot handle seq run own)
      if c.plan.planId ≠ planId then planMismatch s allot handle
      else if role = .rank 0 ∨ role = .outside ∨ (m.voters s.fabric.address).all (fun e => decide (e.1 ≠ rank)) = true then s
      else if c.openSeq = seq ∧ c.run = run ∧ c.isFailed = false then
        ack (applyDecision s allot handle commit (Status.ofCode status.toNat))
      else if seq.toNat < c.openSeq.toNat ∨ (c.openSeq = seq ∧ run.toNat ≤ c.run.toNat) then ack s
      else s
    | _, _ => s)

/-- Record an acknowledgement of a decision, which the decider then has applied. -/
def Outcome.ackedBy (o : Outcome) (rank : Nat) : Outcome := { o with acks := o.acks ++ [rank], applied := true }

/-- DECISION_ACKNOWLEDGED: another module holds the decision; the decider applies it to itself and stops repeating it to that
module (R281, R300). -/
def execDecisionAcknowledged (allot handle : W16) (seq : W32) (run : Byte) (rank : Nat) (planId : W32) (s : State) : Out :=
  .next (
    match s.modColl allot handle, s.collAny allot handle with
    | some m, some c =>
      if c.plan.planId ≠ planId then planMismatch s allot handle
      else if (m.voters s.fabric.address).all (fun e => decide (e.1 ≠ rank)) then s
      else match m.outcomes.find? (fun o => decide (o.seq = seq) && decide (o.run = run) && !o.acks.contains rank) with
      | none => s
      | some o =>
        let s := s.modModColl allot handle (fun m => { m with outcomes := m.outcomes.map (fun x => if x = o then x.ackedBy rank else x) })
        if o.applied || !o.live then s else applyDecision s allot handle o.commit o.status
    | _, _ => s)

/-- Tree neighbours for bucket 0: the parent and the children. -/
def treeNeighbours (s : State) (m : ModColl) (c : Coll) : List W32 :=
  match (m.role s.fabric.address).actsFor with
  | none => []
  | some r =>
    let v := nodeOf c.plan m.p 0 r
    let addr := fun w => (m.group[rankAt c.plan m.p 0 w]?).getD 0
    (if v = 0 then [] else [addr (parentNode c.plan v)]) ++ (childNodes c.plan m.p v).map addr

/-- UNDECIDED: TLOST after its vote the module has no decision. It asks the decider and its tree neighbours; at the first expiry
its COLL_COMMIT replies `LINK_DOWN` and an event is written (R305). -/
def execUndecided (allot handle : W16) (s : State) : Out :=
  .next (
    match s.modColl allot handle, s.collAny allot handle with
    | some m, some c =>
      if m.voted = false ∨ c.isFailed = true ∨ m.hasOutcome c = true then s
      else
        let own := s.fabric.address
        let dests := (((m.group[0]?).getD 0) :: treeNeighbours s m c).dedup.filter (fun d => decide (d ≠ own))
        let s := dests.foldl (fun s d => s.send (.decisionAsk d allot handle c.openSeq c.run (m.voter own))) s
        if m.isUndecided then finishAborts s allot handle c.openSeq
        else
          let s := s.modModColl allot handle (fun m => { m with isUndecided := true })
          let s := collEvent s allot handle 5 .linkDown c.openSeq c.run Occ.plain
          let s := finishWaiting s (fun o => isCommit o && o.awaits allot handle c.openSeq) .linkDown c.committed
          finishAborts s allot handle c.openSeq
    | _, _ => s)

/-- The decision of a round and run, if this module holds it, as the decider or from another: the newest, where an abort has let RUN start
again. -/
def ModColl.decisionOf (m : ModColl) (seq : W32) (run : Byte) : Option (Bool × Status) :=
  let l := m.known.map (fun k => (k.1, k.2.1, k.2.2)) ++ m.outcomes.map (fun o => (o.seq, o.run, o.commit, o.status))
  ((l.filter (fun k => decide (k.1 = seq) && decide (k.2.1 = run))).getLast?).map (·.2.2)

/-- DECISION_REQUEST: an undecided module asks; a module that holds the decision of that round and run answers, however long ago it was (R281,
R305). -/
def execDecisionRequest (allot handle : W16) (seq : W32) (run : Byte) (rank : Nat) (addr planId : W32) (s : State) : Out :=
  .next (
    match s.modColl allot handle, s.collAny allot handle with
    | some m, some c =>
      if c.plan.planId ≠ planId then planMismatch s allot handle
      else if (m.voters s.fabric.address).all (fun e => decide (e.1 ≠ rank)) then s
      else match m.decisionOf seq run with
        | some d => s.send (.decision addr allot handle seq run (m.voter s.fabric.address) d.1 d.2)
        | none => s
    | _, _ => s)

end Sys2Proof.Machine
end

