-- ==== Sys2Proof/Machine/Links.lean ====
section
/-!
DEFINITION. What arrives on a channel: retransmission, order, transit and reassembly (R324 to R327, R330); what a channel's failure and
return do (R326, R335, R299); and the colour maps of the eaves (R321, R323, R340).
-/

namespace Sys2Proof.Machine

/-- A LINK event (Table 4-17): `new` is 0 down, 1 up, 2 degraded. -/
def linkEvent (s : State) (kind index lane new : Nat) : State :=
  s.moduleEvent 0x0B07 4 (if new = 0 then .linkDown else .ok)
    [BitVec.ofNat 8 kind, BitVec.ofNat 8 index, BitVec.ofNat 8 lane, BitVec.ofNat 8 new]

/-- Set or clear one bit of a set of lanes. -/
def setLane {n : Nat} (w : BitVec n) (k : Nat) (b : Bool) : BitVec n :=
  if b then w ||| BitVec.ofNat n (2 ^ k) else w &&& ~~~ (BitVec.ofNat n (2 ^ k))

/-! ### Frames that wait for a route (R331, R335) -/

/-- A reply of 16 bytes to a peer command packet from its bytes alone (R335, R48). -/
def bareReply (s : State) (st : Status) (bytes : List Byte) : OutPkt :=
  { event := false, cmdId := 0, opcode := BitVec.ofNat 16 (leAt bytes 1 2), status := st, ustate := s.moduleTop,
    tag := BitVec.ofNat 32 (leAt bytes 12 4), path := BitVec.ofNat 24 (leAt bytes 5 3),
    slot := BitVec.ofNat 4 (leAt bytes 10 2 % 16), payload := [], irq := false }

/-- Send a held frame again over this module's own route to its DEST; where none allows it, it waits, or, a peer command packet held on a
failed channel, is answered `LINK_DOWN` (R335). `old` is the bundle it was held on, which keeps its order. Fabric control goes on over that bundle; it takes
no other way, because it went by two eaves (R351). The answer is made from the packet's first segment; a later one, whose first has gone
on, waits (DESIGN CHOICE, log entry 72). -/
def redirect (s : State) (failed : Bool) (old : Option (Nat × W32)) (q : QFrame) : State :=
  if q.frame.ftype = 4 then (match old with
    | some b => queueFrame s b.1 b.2 { q with via := none }
    | none => s)
  else match sendOn s old q with
    | some t => t
    | none =>
      if failed ∧ q.frame.ftype = 0 ∧ q.frame.seg = 0 then
        (creditBack s q.frame q.buffer).send (.peerReply q.frame.srcAddr q.frame.allot (bareReply s .linkDown q.frame.payload))
      else waitFrame s q

/-- Frames that waited are sent where a route now exists. -/
def flushWaiting (s : State) : State :=
  s.fabric.waiting.foldl (fun s q => redirect s false none q) { s with fabric := { s.fabric with waiting := [] } }

/-- Take the frames that wait for any lane of a bundle out of its queue. -/
def takeQueue (s : State) (course : Nat) (peer : W32) : List QFrame × State :=
  let l := KMap.get [] s.fabric.queue (bundleOf course peer)
  (l.filter (fun q => q.via.isNone),
   { s with fabric := { s.fabric with queue := KMap.put [] s.fabric.queue (bundleOf course peer) (l.filter (fun q => q.via.isSome)) } })

/-- Frames that wait for a bundle that is down go another way. -/
def flushQueues (s : State) : State :=
  s.fabric.queue.foldl (fun s e =>
    let course := e.1 / 2 ^ 32
    let peer := BitVec.ofNat 32 (e.1 % 2 ^ 32)
    if hopUp s course s.fabric.address peer then s
    else
      let r := takeQueue s course peer
      r.1.foldl (fun s q => redirect s false none q) r.2) s

/-! ### Receiving link frames -/

/-- Whether a frame belongs here: its allotment is held and its source is a member (R330). -/
def frameKnown (s : State) (f : LinkFrame) : Bool := (s.allot? f.allot.toNat).any (fun x => x.members.contains f.srcAddr)

/-- Put the segments of a message together in order (R325); a message has 1 to 16 (Table 12-7). -/
def reassemble (s : State) (f : LinkFrame) : State :=
  let k := (f.srcAddr.toNat * 256 + f.ftype.toNat) * 2 ^ 32 + f.msg.toNat
  let e := KMap.get (0, []) s.fabric.reassembly k
  if f.seg.toNat ≠ e.1 ∨ 16 < f.segs.toNat ∨ f.segs.toNat ≤ f.seg.toNat then s
  else
    let bs := e.2 ++ f.payload
    if f.seg.toNat + 1 < f.segs.toNat then
      { s with fabric := { s.fabric with reassembly := KMap.ins s.fabric.reassembly k (f.seg.toNat + 1, bs) } }
    else
      ({ s with fabric := { s.fabric with reassembly := KMap.del s.fabric.reassembly k } }).record (.deliver { f with payload := bs })

/-- Send a frame that crosses this module on its next hop, in the virtual lane of its new HOP; where that hop is down, over this module's
own route (R325, R335). A frame whose ROUTE names no further hop goes no further. -/
def forward (s : State) (q : QFrame) : State :=
  let f := q.frame
  let h := f.hop.toNat + 1
  let c := routeAt f.route h
  if 7 < h ∨ 7 < c then creditBack s f q.buffer
  else
    let peer := if c < 5 then copperAddr s.fabric.address c else withCoord c s.fabric.address (coordOn c f.dest)
    let q := { q with frame := { f with hop := BitVec.ofNat 8 h, cvl := cvlOf (frameClass f) h } }
    if hopUp s c s.fabric.address peer then queueFrame s c peer q else redirect s false none q

/-- A frame accepted in order: kept for this module, passed on, or discarded (R325, R330). A frame that stays here leaves its buffer. -/
def routeFrame (s : State) (q : QFrame) : State :=
  let f := q.frame
  if f.ftype = 4 then (creditBack s f q.buffer).record (.deliver f)
  else if f.dest = s.fabric.address then
    let s := creditBack s f q.buffer
    if f.ftype = 0 || (frameKnown s f && fplNear (fplInUse s) f.fpl) then reassemble s f else s
  else if frameKnown s f then forward s q else creditBack s f q.buffer

/-- Accept the next frame of a bundle and class (R327). -/
def takeNext (s : State) (k : Nat) (q : QFrame) : State :=
  routeFrame { s with fabric := { s.fabric with bseqRx := KMap.put 0 s.fabric.bseqRx k (q.frame.bseq + 1) } } q

/-- Accept kept frames whose turn has come. -/
def drainBundle : Nat → State → Nat → State
  | 0, s, _ => s
  | n + 1, s, k =>
    let l := KMap.get [] s.fabric.reorder k
    match l.find? (fun q => decide (q.frame.bseq = KMap.get 0 s.fabric.bseqRx k)) with
    | none => s
    | some q =>
      drainBundle n (takeNext { s with fabric := { s.fabric with reorder := KMap.put [] s.fabric.reorder k (l.erase q) } } k q) k

/-- The receiver restores order per class by BSEQ; a frame already accepted on another lane is dropped (R327). -/
def acceptFrame (s : State) (ch : Nat) (f : LinkFrame) : State :=
  let q : QFrame := { frame := f, keep := false, via := none, buffer := some (ch, f.cvl) }
  let k := bundleKey (chanCourse ch) (nearEnd s ch) (frameClass f)
  let due := KMap.get 0 s.fabric.bseqRx k
  let kept := KMap.get [] s.fabric.reorder k
  if f.bseq = due then drainBundle kept.length (takeNext s k q) k
  else if (f.bseq - due).toNat < 0x8000 ∧ kept.all (fun r => decide (r.frame.bseq ≠ f.bseq)) then
    { s with fabric := { s.fabric with reorder := KMap.put [] s.fabric.reorder k (kept ++ [q]) } }
  else creditBack s f q.buffer

/-- Frames up to LACK are acknowledged (R326). -/
def ackFrames (lack : W16) (l : List LinkFrame) : List LinkFrame :=
  if l.any (fun f => decide (f.lseq = lack)) then (l.dropWhile (fun f => decide (f.lseq ≠ lack))).drop 1 else l

/-- Send every unacknowledged frame of a channel again (R326). -/
def resendAll (s : State) (ch : Nat) : State :=
  let l := (s.tx ch).unacked
  let rev := reverseOf s ch
  let s := l.foldl (fun s f => s.record (.link ch rev { f with lack := (s.rx rev).next - 1 })) s
  if ch < 5 then s else s.modEave (laneAt ch).1 (fun x => { x with resent := (x.resent + l.length) % 2 ^ 32 })

/-- The frames a channel holds unacknowledged, to be sent again elsewhere. -/
def heldFrames (s : State) (ch : Nat) : List QFrame :=
  (s.tx ch).unacked.map (fun f => { frame := f, keep := true, via := none, buffer := none })

/-- Frames that were to take one channel may take any of their bundle. -/
def unvia (s : State) (ch : Nat) : State :=
  { s with fabric := { s.fabric with queue := s.fabric.queue.map (fun e =>
      (e.1, e.2.map (fun q => if q.via = some ch then { q with via := none } else q))) } }

/-- A channel's sending end goes: a copper course altogether, a data lane with its match, a control lane as declared down. -/
def dropTx (s : State) (ch : Nat) : State :=
  let s := unvia (s.modTx ch (fun _ => TxChan.reset)) ch
  if ch < 5 then s.modRx ch (fun _ => RxChan.reset)
  else
    let e := (laneAt ch).1
    let k := (laneAt ch).2
    if k < 32 then
      { s.modEave e (fun x => { x with matched := setLane x.matched k false }) with
        fabric := { s.fabric with peers := KMap.del s.fabric.peers ch } }
    else s.modEave e (fun x => { x with ctlDown := setLane x.ctlDown (k - 32) true })

/-- Forget the order of a bundle towards a peer, or from a peer. -/
def forgetTx (s : State) (course : Nat) (peer : W32) : State :=
  { s with fabric := { s.fabric with
    bseqTx := s.fabric.bseqTx.filter (fun e => decide (e.1 / 4 ≠ bundleOf course peer)),
    orphans := s.fabric.orphans.filter (fun o => !(decide (o.2 = peer) && decide (chanCourse o.1 = course))) } }

def forgetRx (s : State) (course : Nat) (peer : W32) : State :=
  { s with fabric := { s.fabric with
    bseqRx := s.fabric.bseqRx.filter (fun e => decide (e.1 / 4 ≠ bundleOf course peer)),
    reorder := s.fabric.reorder.filter (fun e => decide (e.1 / 4 ≠ bundleOf course peer)) } }

/-- PARK: the peer has taken its receive ring from a lane of this module; the lane loses its match without being declared down, and its
frames go to the bundle's other lanes, or another way, or wait (R340). -/
def parkLane (s : State) (ch : Nat) : State :=
  match farEnd s ch with
  | none => s
  | some p =>
    let course := chanCourse ch
    let held := heldFrames s ch
    let s := dropTx s ch
    if hopUp s course s.fabric.address p then held.foldl (fun s q => redirect s false (some (course, p)) q) s
    else
      let r := takeQueue (forgetTx s course p) course p
      (held ++ r.1).foldl (fun s q => redirect s false none q) r.2

/-- Whether a channel of this module is one of which a frame that arrives on `ch` may speak: it leads to the module heard there. -/
def speaksOf (s : State) (ch rev : Nat) : Bool :=
  s.txUp rev && decide (chanCourse rev = chanCourse ch) && decide (farEnd s rev = some (nearEnd s ch))

/-- What a frame's header says of this module's channel `rev`: frames acknowledged, credit returned, a NACK, or PARK (R324, R326, R340). -/
def hearBack (s : State) (rev : Nat) (f : LinkFrame) : State :=
  let s := s.modTx rev (fun c => { c with
    unacked := ackFrames f.lack c.unacked,
    spent := KMap.put 0 c.spent f.creditCvl.toNat (KMap.get 0 c.spent f.creditCvl.toNat - f.credit.toNat) })
  let s := if f.nack then resendAll s rev else s
  let s := if f.park ∧ 5 ≤ rev ∧ rev < 261 then parkLane s rev else s
  serveChan s rev

/-- A link frame arrives on a channel that is up (R324, R326). A payload longer than a frame may carry is discarded (log entry 72). -/
def receiveFrame (s : State) (ch rev : Nat) (f : LinkFrame) : State :=
  if !s.rxUp ch then s
  else if !f.crcOk then answerLink s ch true false 0 0
  else if 4200 < f.payload.length then s
  else
    let s := if speaksOf s ch rev then hearBack s rev f else s
    if f.creditOnly then s
    else
      let due := (s.rx ch).next
      if f.lseq = due then
        acceptFrame (answerLink (s.modRx ch (fun c => { c with next := c.next + 1 })) ch false false 0 0) ch f
      else answerLink s ch (decide ((f.lseq - due).toNat < 0x8000)) false 0 0

/-! ### Channel changes (R326, R335) -/

/-- Whether a route uses a hop: a bundle from one end to the other, a copper course either way. -/
def usesHop (own : W32) (course : Nat) (a b : W32) (r : Route) : Bool :=
  (routeHops own r).any (fun h => decide (h.1 = course) && (decide (h.2 = (a, b)) || (decide (course < 5) && decide (h.2 = (b, a)))))

/-- Routes that cross a failed hop switch to their alternate at once (R335). -/
def switchRoutes (s : State) (course : Nat) (a b : W32) : State :=
  let bad := fun (r : Option Route) => r.any (usesHop s.fabric.address course a b)
  { s with allots := s.allots.map (fun e => (e.1, { e.2 with routes := e.2.routes.map (fun x =>
      let alt := if bad x.2.alt then none else x.2.alt
      (x.1, if bad x.2.main then { main := alt, alt := none } else { x.2 with alt := alt })) })) }

/-- Whether any course reaches a module, as this module knows. -/
def reachable (s : State) (a : W32) : Bool :=
  [0, 1, 2, 3, 4].any (fun c => hopUp s c (copperAddr a c) a) ||
  [5, 6, 7].any (fun c => (s.fabric.address :: (s.fabric.table.map (fun e => BitVec.ofNat 32 e.1))).any (fun b =>
    decide (a ≠ b) && sameGroup c a b && hopUp s c b a))

/-- A module that no course reaches any more is lost; one that a course reaches again is READY (Table 12-11). -/
def reviewEntry (s : State) (a : W32) : State :=
  match s.entry a with
  | none => s
  | some e =>
    let e' := if (e.state = 1 ∨ e.state = 2) ∧ reachable s a = false then { e with state := 4 }
      else if e.state = 4 ∧ reachable s a then { e with state := 2 } else e
    { s with fabric := { s.fabric with table := KMap.ins s.fabric.table a.toNat e' } }

/-- The COPPER bit of a module's entry follows what is told of the course (R346). -/
def noteCopper (s : State) (course : Nat) (up : Bool) (a : W32) : State :=
  match s.entry a with
  | none => s
  | some e => { s with fabric := { s.fabric with table := KMap.ins s.fabric.table a.toNat { e with copper := setLane e.copper course up } } }

/-- News of a channel is taken in: the hop is remembered, the table reviewed, and routes over a failed hop switched (R335, R346). -/
def hopChanged (s : State) (n : News) : State :=
  let key := (n.course, n.endA, n.endB)
  let others := s.fabric.downs.filter (fun d => decide (d ≠ key))
  let s := { s with fabric := { s.fabric with downs := if n.hop then others else others ++ [key] } }
  let s := if n.course < 5 then noteCopper (noteCopper s n.course n.hop n.endA) n.course n.hop n.endB else s
  let s := reviewEntry (reviewEntry s n.endA) n.endB
  if n.hop then s else switchRoutes s n.course n.endA n.endB

/-- News of a channel of this module, told by fabric control (R335). -/
def tellNews (s : State) (ch : Nat) (peer : W32) (up : Bool) : State :=
  let own := s.fabric.address
  let n : News := { course := chanCourse ch, endA := own, endB := peer, chan := ch, up := up, hop := hopUp s (chanCourse ch) own peer }
  let m := takeMsg (hopChanged s n) 4
  sendNews { m.2 with fabric := { m.2.fabric with seen := m.2.fabric.seen ++ [(own, 4, m.1, 0)] } } own m.1 0 n

/-- Whether a handle's group holds a module whose route crossed a hop. -/
def ModColl.crossed (m : ModColl) (own : W32) (course : Nat) (a b : W32) (routes : KMap Allot) (d : W32) : Bool :=
  (((KMap.look routes m.allot.toNat).bind (fun x => KMap.look x.routes d.toNat)).bind (·.main)).any (usesHop own course a b)

/-- The trusses resend the frames that they hold unacknowledged and that were routed over a failed hop, where a route remains; a bucket
without one waits and fails under R297 (R299). `routes` are the allotments as they were. -/
def rerouteColls (s : State) (course : Nat) (a b : W32) (routes : KMap Allot) : State :=
  let own := s.fabric.address
  let crossed := fun (m : ModColl) (d : W32) => m.crossed own course a b routes d
  let note : ModColl → ModColl := fun m => { m with linkDown := m.linkDown || (m.group ++ m.bk.map (·.2)).any (crossed m) }
  let s : State := { s with modColls := s.modColls.map note }
  s.sheaves.foldl (fun s e => e.2.colls.foldl (fun s c =>
    match s.modColl c.allot c.handle with
    | none => s
    | some m =>
      let l := (c.buckets.flatMap (fun b => b.2.held) ++ c.lateHeld).filter (fun h => crossed m h.1 && (s.route c.allot h.1).isSome)
      if l = [] then s
      else
        let s := s.modHandle e.1 c.allot c.handle (fun x => { x with reroutes := min (x.reroutes + l.length) 0xFFFFFFFF })
        let s := s.noteOcc c.allot c.handle (4 + 16 * course) ((l.head?.map (·.2.bucket)).getD 0) 0xFFFF l.length 0
        l.foldl (fun s h => s.send (.bucket h.1 h.2)) s) s) s

/-- A bundle or copper course of this module is gone: its order is forgotten, the news told, and every frame it held or that waited for it
goes another way (R326, R335, R299). -/
def bundleGone (s : State) (ch : Nat) (peer : W32) (held : List QFrame) : State :=
  let course := chanCourse ch
  let routes := s.allots
  let r := takeQueue (forgetTx s course peer) course peer
  let s := tellNews r.2 ch peer false
  let s := held.foldl (fun s q => redirect s true none q) s
  let s := r.1.foldl (fun s q => redirect s false none q) s
  rerouteColls s course s.fabric.address peer routes

/-- A channel of this module is declared down; the event is the caller's. Its frames go on the bundle's other lanes, or another way when it
was the last (R326, R335). -/
def channelLost (s : State) (ch : Nat) : State :=
  if !s.txUp ch then s
  else
    let peer := farEnd s ch
    let held := heldFrames s ch
    let s := dropTx s ch
    let s := if ch < 5 then s else s.modEave (laneAt ch).1 (fun x => { x with downs := (x.downs + 1) % 2 ^ 32 })
    match peer with
    | none => s
    | some p =>
      if decide (261 ≤ ch) || hopUp s (chanCourse ch) s.fabric.address p then
        held.foldl (fun s q => redirect s true (some (chanCourse ch, p)) q) (tellNews s ch p false)
      else bundleGone s ch p held

/-- The LINK event of a channel declared down (R326). -/
def downEvent (s : State) (ch : Nat) : State :=
  if ch < 5 then linkEvent s 0 ch 0 0 else linkEvent s 2 (laneAt ch).1 (laneAt ch).2 0

/-- A channel is declared down, with its LINK event; so is a bundle that retuning left without a lane, under the lane that was its last
(R323). -/
def declareDown (s : State) (ch : Nat) : State :=
  match KMap.look s.fabric.orphans ch with
  | some p =>
    let s := forgetTx (downEvent s ch) (chanCourse ch) p
    if hopUp s (chanCourse ch) s.fabric.address p then s else bundleGone s ch p []
  | none => if s.txUp ch then channelLost (downEvent s ch) ch else s

/-- Every data lane of an eave is declared down (R352, R368). -/
def eaveLanesDown (s : State) (e : Nat) : State := (List.range 32).foldl (fun s k => declareDown s (laneChan e k)) s

/-- A channel of this module has come up: the news is told and waiting frames are sent (R335). -/
def hopCameUp (s : State) (ch : Nat) (peer : W32) : State :=
  flushWaiting (serveBundle (tellNews s ch peer true) (chanCourse ch) peer)

/-- Recompute every route of the module; frames that wait for a bundle that is down, or for a route, go the new way (R332, R335). -/
def recomputeRoutes (s : State) : State :=
  flushWaiting (flushQueues { s with allots := s.allots.map (fun e => (e.1, { e.2 with routes := allotRoutes s e.2.members })) })

/-! ### Colour maps (R321 to R323) -/

/-- The lane that has a slot under a map. -/
def laneOfSlot (tx : Bool) (e : Nat) (m : Option ColourMap) (t : Nat) : Option Nat :=
  if t = 255 then none else (List.range 32).find? (fun k => decide (slotOf tx e k m = t))

/-- The lane of the old map whose transmit (or receive) slot a lane keeps under the new one. A lane is its slot: a slot that the maps
number differently carries its channel to the new number (R323, R340; log entry 72). -/
def keptFrom (tx : Bool) (e : Nat) (old new : Option ColourMap) (k : Nat) : Option Nat := laneOfSlot tx e old (slotOf tx e k new)

/-- The lanes of an eave whose transmit slot a new map does not have. -/
def lanesGone (e : Nat) (old new : Option ColourMap) : List Nat :=
  (List.range 32).filter (fun k => decide (laneOfSlot true e new (slotOf true e k old) = none))

/-- The channels of an eave as a new map numbers them. -/
def renumber (s : State) (e : Nat) (old new : Option ColourMap) : State :=
  let f := s.fabric
  let tx := fun (k : Nat) => (keptFrom true e old new k).map (laneChan e)
  let ks := List.range 32
  { s with
    fabric := { f with
    tx := ks.foldl (fun m k => KMap.put TxChan.reset m (laneChan e k) ((tx k).elim TxChan.reset s.tx)) f.tx,
    rx := ks.foldl (fun m k => KMap.put RxChan.reset m (laneChan e k)
      (((keptFrom false e old new k).map (laneChan e)).elim RxChan.reset s.rx)) f.rx,
    peers := ks.foldl (fun m k => match (tx k).bind (KMap.look f.peers) with
      | some p => KMap.ins m (laneChan e k) p
      | none => KMap.del m (laneChan e k)) f.peers } }

/-- The spare of a lane that is now off is switched off, and free again (R370). -/
def Eave.dropArms (x : Eave) (off : Nat → Bool) : Eave :=
  { x with level := (x.arms.filter (fun a => off a.lane)).foldl (fun l a => listSet l (32 + a.spare) (-128)) x.level,
           arms := x.arms.filter (fun a => !off a.lane) }

/-- An eave's lanes under a new map: which are lit, matched and quiesced, and the levels of their lasers. Outside its range no ring holds a
slot (R355). -/
def Eave.remap (x : Eave) (e : Nat) (new : Option ColourMap) (allot : W16) : Eave :=
  let off := fun (k : Nat) => decide (slotOf true e k new = 255)
  let y := x.dropArms off
  let lit := fun (k : Nat) => !off k && x.isLit k
  let mask := fun (f : Nat → Bool) => BitVec.ofNat 32 (((List.range 32).map (fun k => if f k then 2 ^ k else 0)).sum)
  let kept := fun (k : Nat) => keptFrom true e x.map new k
  { y with map := new, mapAllot := allot, pendingMap := none,
           matched := mask (fun k => (kept k).any (fun j => x.matched.getLsbD j)),
           fadeWait := y.fadeWait.filter (fun k => !off k),
           laneUp := mask (fun k => lit k && !x.outOfRange && (decide (kept k ≠ some k) || x.laneUp.getLsbD k)),
           quiesced := mask (fun k => !off k && (x.quiesced.getLsbD k || (x.outOfRange && lit k))),
           level := (List.range 32).foldl (fun l k =>
             let i := (x.bind[k]?).getD 255
             let was := (l[i]?).getD (-128)
             listSet l i (if !lit k then -128 else if was = -128 then 0 else was)) y.level }

/-- Put a map in force on an eave. Lanes that keep their slot carry frames throughout; those retuned send a token and are matched again,
and their frames go to the bundle's other lanes or wait. A bundle left without a lane is remembered (R323, R340). -/
def applyMap (s : State) (e : Nat) (new : Option ColourMap) (allot : W16) : State :=
  let old := (s.eave e).map
  let gone := (lanesGone e old new).filterMap (fun k =>
    if (s.tx (laneChan e k)).up then (farEnd s (laneChan e k)).map (fun p => (laneChan e k, p, heldFrames s (laneChan e k))) else none)
  let s := (renumber s e old new).modEave e (fun x => x.remap e new allot)
  let s := gone.foldl (fun s g =>
    if hopUp s (courseOf e) s.fabric.address g.2.1 then s
    else { s with fabric := { s.fabric with orphans := KMap.ins s.fabric.orphans g.1 g.2.1 } }) s
  let s := (List.range 32).foldl (fun s k =>
    if (s.eave e).laneUp.getLsbD k && (keptFrom true e old new k).isNone then s.record (.laneToken e k) else s) s
  gone.foldl (fun s g => g.2.2.foldl (fun s q => redirect s false (some (courseOf e, g.2.1)) q) s) s

/-- Give an eave a map: at once, or after the laser swap that runs on it (R102, R370). -/
def putMap (s : State) (e : Nat) (new : Option ColourMap) (allot : W16) : State :=
  if (s.eave e).arms.any (·.moving) then s.modEave e (fun x => { x with pendingMap := some new, mapAllot := allot })
  else applyMap s e new allot

/-- Return the eaves that an allotment's drawn map holds to the default map (R336). -/
def undraw (s : State) (a : W16) : State :=
  (List.range 8).foldl (fun s e => if (s.eave e).mapAllot = a ∧ a ≠ 0 then putMap s e none 0 else s) s

end Sys2Proof.Machine
end

