-- ==== Sys2Proof/Machine/MemCmd.lean ====
section
/-!
DEFINITION. The memory class (R97, R98, R391, R392), BAR2 (R400, R401), and what the memory does by itself: scrubbing, retirement,
event windows, drift, temperature and self-refresh (R384 to R390, R426).
-/

namespace Sys2Proof.Machine

def gib : Nat := 2 ^ 30

/-- Whether a command may not name an allotment: it exists and is another host's, or another than the header's (R74, R86). -/
def foreignAllot (s : State) (h : Hdr) (a : Nat) : Bool :=
  if h.priv.toNat = 2 then false
  else match s.allot? a with
    | none => false
    | some x => (decide (h.allot.toNat ≠ 0) && decide (a ≠ h.allot.toNat)) ||
        (match h.src with | .port p => decide (x.owner ≠ p) | _ => false)

/-! ### Grants (R98, R225) -/

def memGrantNow (h : Hdr) (allot : W16) (base size : W64) : Nat → State → State :=
  runModule (.memGrant h allot base size)
    (fun s _ =>
      if size = 0 ∨ memEnd < base.toNat + size.toNat ∨ (s.allot? allot.toNat) = none then some .badParam
      else if base.toNat % gib ≠ 0 ∨ size.toNat % gib ≠ 0 then some .alignFault else none)
    (fun s h => foreignAllot s h allot.toNat)
    (fun s id _ =>
      let c := Instr.memGrant h allot base size
      let rng := (base.toNat, base.toNat + size.toNat)
      match s.allot? allot.toNat with
      | none => finishModule s id c .badParam []
      | some a =>
        if s.granted.any (extOverlap rng) then finishModule s id c .badParam []
        else finishModule { s with allots := KMap.ins s.allots allot.toNat { a with grants := a.grants ++ [rng] } } id c .ok [])

/-- MEM_GRANT gives an allotment a range of memory (R98). -/
def execMemGrant (h : Hdr) (allot : W16) (base size : W64) (s : State) : Out :=
  .next (submit (.memGrant h allot base size) (memGrantNow h allot base size) s)

/-- The grant an allotment holds at a base. -/
def grantAt (s : State) (a base : Nat) : Option (Nat × Nat) :=
  (s.allot? a).bind (fun x => x.grants.find? (fun g => decide (g.1 = base)))

def memRevokeNow (h : Hdr) (allot : W16) (base : W64) : Nat → State → State :=
  runModule (.memRevoke h allot base) noForm (fun s h => foreignAllot s h allot.toNat)
    (fun s id _ =>
      let c := Instr.memRevoke h allot base
      match grantAt s allot.toNat base.toNat, s.allot? allot.toNat with
      | some g, some a =>
        let a' := { a with revoking := a.revoking ++ [g] }
        let s := { s with allots := KMap.ins s.allots allot.toNat a' }
        holdModule s id c .ok (leBytes 8 (g.2 - g.1))
      | _, _ => finishModule s id c .badParam [])

/-- MEM_REVOKE waits for the transfers in progress on a grant, then revokes it and replies; an LD or ST that starts meanwhile finds it
revoked already (R98, R225). -/
def execMemRevoke (h : Hdr) (allot : W16) (base : W64) (s : State) : Out :=
  .next (submit (.memRevoke h allot base) (memRevokeNow h allot base) s)

/-- Whether a started LD or ST of an allotment's reeds still reaches a range of memory (R225). -/
def rangeInUse (s : State) (a : Nat) (g : Nat × Nat) : Bool :=
  s.sheaves.any (fun e => decide (s.allotOf e.1 = a) && e.2.reeds.any (fun x =>
    (x.2.qld ++ x.2.qst).any (fun q => q.started && decide (insOpc q.raw = 0x80 ∨ insOpc q.raw = 0xA0) && lsMem q.raw &&
      (lsFootprint q).any (extOverlap g))))

/-- The revocation of a grant ends: it is withdrawn (R98). -/
def revokeDone (s : State) (allot base : Nat) : State :=
  match s.allot? allot with
  | some a => { s with allots := KMap.ins s.allots allot { a with
      grants := a.grants.filter (fun g => decide (g.1 ≠ base)), revoking := a.revoking.filter (fun g => decide (g.1 ≠ base)) } }
  | none => s

/-! ### HOST_DMA and MEM_FILL (R98, R391, R397) -/

/-- The range checks of a transfer (R98). -/
def transferForm (dev n : Nat) (addrs : List Nat) : Option Status :=
  if n < 64 ∨ 64 * gib < n ∨ memEnd < dev + n then some .badParam
  else if dev % 64 ≠ 0 ∨ n % 64 ≠ 0 ∨ addrs.any (fun a => decide (a % 64 ≠ 0)) = true then some .alignFault else none

def hostDmaNow (h : Hdr) (dir : Byte) (host dev n : W64) : Nat → State → State :=
  runModule (.hostDma h dir host dev n)
    (fun _ h => if 1 < dir.toNat ∨ portOf h = none then some .badParam else transferForm dev.toNat n.toNat [host.toNat])
    (fun s h => !memScope s h dev.toNat (dev.toNat + n.toNat))
    (fun s id _ => holdModule s id (.hostDma h dir host dev n) .ok [])

/-- HOST_DMA moves data between host memory and module memory over the port on which it arrived (R391). The bytes move when
COMMAND_ACTION_COMPLETE, or HOST_DMA_READ_ERROR, gives the transfer's end. -/
def execHostDma (h : Hdr) (dir : Byte) (hostAddr devAddr bytes : W64) (s : State) : Out :=
  .next (submit (.hostDma h dir hostAddr devAddr bytes) (hostDmaNow h dir hostAddr devAddr bytes) s)

/-- Bytes of a range that land: those outside pages that failed in place (R390). -/
def landed (s : State) (lo n : Nat) : Nat :=
  32 * ((sectorsOf lo n).filter (fun k => !sectorFailed s k)).length

/-- Bytes of a host transfer land in module memory, whole sectors (R378, R390). -/
def dmaIn (s : State) (o : Op) (dev : Nat) (data : List Byte) (errs : List MemErr) (st : Status) : State :=
  let s := wholeChecks s dev data.length errs
  let k := landed s dev data.length
  let short := decide (k < data.length)
  finishModule ((wholeLands s dev data).dropOp o.id) o.id o.cmd (if short then Status.worse st .okDegraded else st) (leBytes 8 k)

/-- Module memory goes to host memory; poisoned bytes are delivered as 0x00 (R386). -/
def dmaOut (s : State) (o : Op) (p : PortIx) (host dev n : Nat) (errs : List MemErr) : State :=
  let s := touchSectors s 4 0 (sectorsOf dev n) errs
  let d := s.memDeliver dev n
  let s := s.modPort p (fun x => { x with hostMem := KMap.write x.hostMem host d.1 })
  finishModule (s.dropOp o.id) o.id o.cmd (if d.2 then .okDegraded else .ok) (leBytes 8 n)

/-- A HOST_DMA ends, with the host's bytes for DIR 0; it does not while a page of its range is being retired or its traffic is held (R394,
R439). -/
def dmaDone (s : State) (o : Op) (dir : Byte) (p : PortIx) (host dev n : Nat) (data : List Byte)
    (errs : List MemErr) : State :=
  if memHeld s (sectorsOf dev n) then s
  else if dir = 0 then (if data.length = n then dmaIn s o dev data errs .ok else s) else dmaOut s o p host dev n errs

/-- What AER notes of an error completion of a host read (Table 15-1): a completion timeout or not, a free bit, since the row does not say
which it was (log entry 80). -/
def noteTimeout (s : State) (p : PortIx) : State :=
  s.fresh.2.modPort p (fun x => { x with aer := x.aer ||| ((s.fresh.1.setWidth 32) &&& 0x4000) })

/-- HOST_DMA_READ_ERROR: an error completion of a host read stops the transfer; what has been written stays, and the command
replies `LINK_DOWN` with the bytes moved (R397). -/
def execHostDmaReadError (op : Nat) (data : List Byte) (errs : List MemErr) (s : State) : Out :=
  .next (
    match s.lodge.ops.find? (fun o => decide (o.id = op) && decide (o.wait = .action)) with
    | some o => match o.cmd with
      | .hostDma _ dir _ dev n =>
        if dir = 0 ∧ data.length < n.toNat ∧ data.length % 32 = 0 ∧ memHeld s (sectorsOf dev.toNat data.length) = false then
          dmaIn (match (cmdOf o.cmd).bind (fun e => portOf e.1) with | some p => noteTimeout s p | none => s) o dev.toNat data errs .linkDown
        else s
      | _ => s
    | none => s)

/-- The bytes of a fill: the pattern, little-endian, over and again. -/
def fillBytes (pattern : W64) (n : Nat) : List Byte := (List.replicate (n / 8) (leBytes 8 pattern.toNat)).flatten

def memFillNow (h : Hdr) (dev n pattern : W64) : Nat → State → State :=
  runModule (.memFill h dev n pattern) (fun _ _ => transferForm dev.toNat n.toNat [])
    (fun s h => !memScope s h dev.toNat (dev.toNat + n.toNat))
    (fun s id _ => holdModule s id (.memFill h dev n pattern) .ok [])

/-- A MEM_FILL ends, but not while a page of its range is being retired or its traffic is held: its range holds the pattern, and the reply follows the last byte (R391). -/
def fillDone (s : State) (o : Op) (dev n : Nat) (pattern : W64) (errs : List MemErr) : State :=
  if memHeld s (sectorsOf dev n) then s
  else
    let s := wholeChecks s dev n errs
    let k := landed s dev n
    finishModule ((wholeLands s dev (fillBytes pattern n)).dropOp o.id) o.id o.cmd (if k < n then .okDegraded else .ok) (leBytes 8 k)

/-- MEM_FILL writes a pattern over a range of memory; the range is written when COMMAND_ACTION_COMPLETE gives its end (R98, R391). -/
def execMemFill (h : Hdr) (devAddr bytes pattern : W64) (s : State) : Out :=
  .next (submit (.memFill h devAddr bytes pattern) (memFillNow h devAddr bytes pattern) s)

/-! ### APERTURE and BAR2 (R392, R400) -/

def apertureNow (h : Hdr) (base : W64) : Nat → State → State :=
  runModule (.aperture h base)
    (fun _ h => if memEnd < base.toNat + 64 * gib ∨ portOf h = none then some .badParam
      else if base.toNat % gib ≠ 0 then some .alignFault else none)
    (fun s h => !memScope s h base.toNat (base.toNat + 64 * gib))
    (fun s id _ =>
      let s := match portOf h with
        | some p => s.modPort p (fun x => { x with bar2Base := base, bar2Allot := if h.priv = 0 then h.allot else 0 })
        | none => s
      finishModule s id (.aperture h base) .ok [])

/-- APERTURE sets the base of the port's BAR2; in job class it binds the aperture to the allotment (R392, R400). -/
def execAperture (h : Hdr) (base : W64) (s : State) : Out := .next (submit (.aperture h base) (apertureNow h base) s)

/-- Whether BAR2 takes an access at all: the port is reached, the module released, the access no longer than the max payload size the host
programmed, and inside the BAR (R400). -/
def bar2Takes (s : State) (p : PortIx) (offset n : Nat) : Bool :=
  (s.port p).reached && s.boot.released && decide (0 < n) && decide (n ≤ (s.port p).maxPayload) && decide (offset + n ≤ 64 * gib)

/-- Whether the bytes of an access leave the grants of the aperture's allotment (R400). -/
def bar2Denied (s : State) (p : PortIx) (lo n : Nat) : Bool :=
  let a := (s.port p).bar2Allot.toNat
  decide (a ≠ 0) && (match s.allot? a with
    | some x => !insideRanges x.grants lo (lo + n)
    | none => true)

/-- Count a denied access (R400, R401). -/
def Port.deny (x : Port) : Port := { x with denied := min (x.denied + 1) 0xFFFF }

/-- A BAR2 access is carried out: a write of the bytes enabled lands (R378), a read gives the host its data, bytes of poisoned sectors 0xFF with
EP set (R400). -/
def bar2Do (s : State) (w : HeldAccess) : State :=
  match w.data with
  | some l => memWrite s 5 0 ((l.zipIdx w.lo).filterMap (fun e => e.1.map (fun b => (e.2, b)))) w.errs
  | none =>
    let s := touchSectors s 5 0 (sectorsOf w.lo w.n) w.errs
    let bad := (sectorsOf w.lo w.n).any (sectorBad s)
    let d := ((s.memBytes w.lo w.n).zipIdx w.lo).map (fun e => if sectorBad s (e.2 / 32) then 0xFF else e.1)
    s.modPort w.port (fun x => { x with bar2Out := some { data := d, ep := bad, ur := false }, bar2Poisoned := x.bar2Poisoned || bad })

/-- Whether a BAR2 access waits: its page, channel or feed die holds it, or an earlier access of its port waits (R389, R394, R439). -/
def bar2Waits (s : State) (w : HeldAccess) : Bool :=
  s.mem.waiting.any (fun v => decide (v.port = w.port)) || memHeld s (sectorsOf w.lo w.n)

/-- A BAR2 access reaches memory. -/
def bar2Access (s : State) (w : HeldAccess) : State :=
  if bar2Waits s w then { s with mem := { s.mem with waiting := s.mem.waiting ++ [w] } } else bar2Do s w

/-- Accesses that waited go on, each port's in order, as far as nothing holds them. -/
def flushBar2 (s : State) : State :=
  s.mem.waiting.foldl bar2Access { s with mem := { s.mem with waiting := [] } }

/-- BAR2_WRITE: a host write with its byte enables lands in memory, or is denied (R378, R400). -/
def execBar2Write (p : PortIx) (offset : Nat) (data : List (Option Byte)) (errs : List MemErr) (s : State) : Out :=
  .next (
    if !bar2Takes s p offset data.length then s
    else
      let lo := (s.port p).bar2Base.toNat + offset
      if bar2Denied s p lo data.length then s.modPort p Port.deny
      else bar2Access s { port := p, lo := lo, n := data.length, data := some data, errs := errs })

/-- BAR2_READ: a host read returns memory data; bytes of poisoned sectors read 0xFF with EP set; a denied read completes as an
Unsupported Request (R400). -/
def execBar2Read (p : PortIx) (offset length : Nat) (errs : List MemErr) (s : State) : Out :=
  .next (
    if !bar2Takes s p offset length then s
    else
      let lo := (s.port p).bar2Base.toNat + offset
      if bar2Denied s p lo length then
        s.modPort p (fun x => { x.deny with aer := x.aer ||| 0x100000, bar2Out := some { data := [], ep := false, ur := true } })
      else bar2Access s { port := p, lo := lo, n := length, data := none, errs := errs })

/-! ### ECC_READ and ROW_RETIRE (R387 to R390) -/

/-- Pages retired and in force, on every channel. -/
def rowsRetired (s : State) : Nat := (s.mem.chans.map (fun e => e.2.sparesUsed)).sum
/-- The fewest spare pages left in any channel. -/
def fewestSpares (s : State) : Nat := s.mem.chans.foldl (fun a e => min a e.2.sparesLeft) sparePages
/-- Scrub passes completed on every channel. -/
def scrubPasses (s : State) : Nat :=
  if s.mem.chans.length < 512 then 0 else (s.mem.chans.map (fun e => e.2.pass)).foldl min (2 ^ 64)

def eccReadNow (h : Hdr) (clear : Byte) : Nat → State → State :=
  runModule (.eccRead h clear) (fun _ _ => if 1 < clear.toNat then some .badParam else none) noObjects (fun s id _ =>
    let p := leBytes 8 s.mem.corrected ++ leBytes 8 s.mem.uncorrected ++ leBytes 4 (rowsRetired s) ++
      leBytes 4 (fewestSpares s) ++ leBytes 8 (scrubPasses s)
    let s := if clear = 1 then { s with mem := { s.mem with corrected := 0, uncorrected := 0 } } else s
    finishModule s id (.eccRead h clear) .ok p)

/-- ECC_READ returns the error and retirement counts; CLEAR clears the first two (R387). -/
def execEccRead (h : Hdr) (clear : Byte) (s : State) : Out := .next (submit (.eccRead h clear) (eccReadNow h clear) s)

def rowRetireNow (h : Hdr) (address : W64) : Nat → State → State :=
  runModule (.rowRetire h address) (fun _ _ => if memEnd ≤ address.toNat then some .badParam else none) noObjects
    (fun s id _ =>
      let c := Instr.rowRetire h address
      let ch := memChan address.toNat
      let p := memPage address.toNat
      let s := retirePage s ch p 6 0
      if (s.chan ch).failedPages.contains p then finishModule s id c .okDegraded (leBytes 8 (rowBase ch p))
      else holdModule s id c .ok (leBytes 8 (rowBase ch p)))

/-- ROW_RETIRE retires the page that holds an address (R388 to R390). -/
def execRowRetire (h : Hdr) (address : W64) (s : State) : Out :=
  .next (submit (.rowRetire h address) (rowRetireNow h address) s)

/-! ### The memory by itself -/

/-- The scrub pass of a channel after a page has been read: with the last page it ends, and the counts of corrected errors restart (R385,
R388). -/
def MemChan.scrubOf (c : MemChan) (page : Nat) : MemChan :=
  if c.scrubbed.length + 1 = pagesPerChan then { c with scrubbed := [], pass := c.pass + 1, correctedInPass := [] }
  else { c with scrubbed := c.scrubbed ++ [page] }

/-- SCRUB_READ: the scrubber reads and checks a page that the pass in progress has not read yet. A sector already poisoned counts in
UNCORRECTED and gives no new event (R385, R386; log entry 83). -/
def execScrubRead (ch : ChanIx) (page : Nat) (errs : List MemErr) (s : State) : Out :=
  .next (
    if pagesPerChan ≤ page || (s.chan ch).scrubbed.contains page || memHeld s (halfSectors ch page 0) then s
    else
      let secs := halfSectors ch page 0 ++ halfSectors ch page 1
      let met := errsMet s errs secs
      let s := (s.wakeChans secs).fillCaches secs
      let bad := (secs.filter (sectorBad s)).length
      let s := { s with mem := { s.mem with uncorrected := s.mem.uncorrected + bad } }
      let s := met.foldl (fun s e => applyErr s 0 0 [] e) s
      s.modChan ch (fun c => c.scrubOf page))

/-- The errors that a retirement's copy of a page found, of SOURCE 6: a sector is corrected if it can be, and otherwise carried as
poisoned (R387, R389). -/
def copyErrors (s : State) (ch p : Nat) (errs : List MemErr) : State :=
  let secs := halfSectors ch p 0 ++ halfSectors ch p 1
  let met := errsMet s errs secs
  met.foldl (fun s e => applyErr s 6 0 [] e) ((s.wakeChans secs).fillCaches secs)

/-- ROW_RETIREMENT_DONE: the oldest retirement of a channel ends; its copy's own errors count, the page is remapped to the lowest
free spare, the remap is journalled, and ROW_RETIRED is written (R389). -/
def execRowRetirementDone (ch : ChanIx) (errs : List MemErr) (s : State) : Out :=
  .next (
    match (s.chan ch).retiring with
    | [] => s
    | p :: t =>
      let s := copyErrors s ch p errs
      let q := pagesPerChan + (s.chan ch).sparesUsed
      let s := s.modChan ch (fun c => { c with retiring := t, remap := KMap.ins c.remap p q, sparesUsed := c.sparesUsed + 1,
                                               correctedInPass := KMap.del c.correctedInPass p,
                                               cache := c.cache.filter (fun b => decide (b / 2 ≠ (KMap.look c.remap p).getD p)) })
      let s := s.moduleEvent 0x0B0A 5 .ok (leBytes 8 (rowBase ch p) ++ leBytes 4 (s.chan ch).sparesLeft)
      let j := s.journalAdd 0x0007 .ok (leBytes 2 ch ++ leBytes 4 p ++ leBytes 4 q)
      flushBar2 { j.1 with boot := { j.1.boot with unfused := j.1.boot.unfused ++ [j.2.seq] } })

/-- ECC_WINDOW_CLOSE: 1 s after the first occurrence, a page's coalesced event is written; of two windows, that which opened first
(R387). -/
def execEccWindowClose (ch : ChanIx) (page : Nat) (s : State) : Out :=
  .next (
    let c := s.chan ch
    let close := fun (k : Nat) (w : EccWindow) =>
      eccEvent (s.modChan ch (fun c => { c with windows := KMap.del c.windows k })) w.kind w.addr ch page w.source w.sectors
        w.count w.path
    match KMap.look c.windows (windowKey page 0), KMap.look c.windows (windowKey page 3) with
    | some w, some v => if w.order < v.order then close (windowKey page 0) w else close (windowKey page 3) v
    | some w, none => close (windowKey page 0) w
    | none, some w => close (windowKey page 3) w
    | none, none => s)

/-- A training record (Table 14-6): what the PHY measured is free. -/
def trainingRecord (s : State) (ch rate : Nat) : List Byte × State :=
  let f := s.freshBytes 45
  let b := leBytes 2 ch ++ leBytes 1 rate ++ f.1 ++ leBytes 4 s.epoch.toNat ++ leBytes 8 0
  (b ++ leBytes 4 (Config.crc32c b).toNat, f.2)

/-- Journal a TRAINING record (R383, R384, Table 17-7). -/
def journalTraining (s : State) (ch rate rung : Nat) (retrain : Bool) : State :=
  let r := trainingRecord s ch rate
  (r.2.journalAdd 0x0009 .ok (r.1 ++ leBytes 1 rung ++ leBytes 1 (b2n retrain))).1

/-- DRIFT_CHECK: a drift beyond the record's tolerance starts a retraining (R384). -/
def execDriftCheck (ch : ChanIx) (beyond : Bool) (s : State) : Out :=
  .next (if beyond then s.modChan ch (fun c => { c with retraining := true }) else s)

/-- CHANNEL_RETRAIN_DONE: the channel has retrained at its current rate, and a journal entry is written (R384). -/
def execChannelRetrainDone (ch : ChanIx) (s : State) : Out :=
  .next (
    if (s.chan ch).retraining then
      flushBar2 (journalTraining (s.modChan ch (fun c => { c with retraining := false })) ch (s.chan ch).rate 0 true)
    else s)

/-- DEVICE_TEMPERATURE_READ: above 85 °C a device's refresh rate doubles (R384); the sensor takes part in the trip (R440). -/
def execDeviceTemperatureRead (dev : Fin 16) (temp : Int) (s : State) : Out :=
  .next (
    let bit : BitVec 16 := BitVec.ofNat 16 (2 ^ dev.val)
    State.tripCheck { s with mem := { s.mem with refreshDouble :=
        if 1360 < temp then s.mem.refreshDouble ||| bit else s.mem.refreshDouble &&& ~~~bit } } (284 + dev.val) temp)

/-- SELF_REFRESH_ENTRY: a channel with no access for 1 ms (R426). -/
def execSelfRefreshEntry (ch : ChanIx) (s : State) : Out :=
  .next (s.modChan ch (fun c => if c.retraining then c else { c with selfRefresh := true }))

end Sys2Proof.Machine
end

