-- ==== Sys2Proof/Machine/Alloc.lean ====
section
/-!
DEFINITION. The fabric class (R101, R102): allotments (R329, R330, R336), drawing (R338 to R341), colour maps (R322, R323), the
fabric table (R342, R346) and route queries (R334).
-/

namespace Sys2Proof.Machine

/-! ### The fabric table (R342, R346) -/

/-- The expected modules, ascending (R342). -/
def expectedModules (s : State) : List W32 :=
  let own := s.fabric.address
  if s.boot.gradeB then (List.range 4).map (fun i => mkAddr (4 * (adC own / 4) + i) (adX own) (adY own))
  else
    let e := Config.extent s.boot.sectionInUse
    if e.1 = 0 ∨ e.2.1 = 0 ∨ e.2.2 = 0 then [own]
    else (List.range (min e.2.2 16)).flatMap (fun y => (List.range (min e.2.1 16)).flatMap (fun x =>
      (List.range (min e.1 32)).map (fun c => mkAddr c x y)))

/-- This module's own entry as it stands: READY once discovery has ended, unless its address is in conflict (R344). -/
def ownEntry (s : State) : TableEntry :=
  let own := s.fabric.address
  { addr := own,
    state := if s.fabric.conflicts.any (fun e => decide (e.addr = own)) then 3 else if 7 ≤ s.fabric.phase then 2 else 1,
    fpl := fplInUse s,
    eavesUp := BitVec.ofNat 8 (((List.range 8).map (fun e => if (s.eave e).dataUp then 2 ^ e else 0)).sum),
    copper := BitVec.ofNat 8 (((List.range 5).map (fun i => if (s.tx i).up then 2 ^ i else 0)).sum + 32 * b2n s.boot.gradeB),
    fabricId := Config.fabricId }

/-- An entry of a module as the table reports it; an expected module never seen is absent (R346). -/
def tableEntry (s : State) (a : W32) : TableEntry :=
  if a = s.fabric.address then ownEntry s
  else (s.entry a).getD { addr := a, state := 0, fpl := 0, eavesUp := 0, copper := 0, fabricId := 0 }

/-- The addresses with an entry, ascending: expected modules and every other module seen. -/
def tableAddrs (s : State) : List W32 :=
  (s.fabric.address :: (s.fabric.table.map (fun e => BitVec.ofNat 32 e.1))).foldl (fun l a => insAddr a l) (expectedModules s)

/-- Every entry of the table, ascending; both modules under one address have theirs (R344, R346). -/
def tableEntries (s : State) : List TableEntry :=
  (tableAddrs s).flatMap (fun a => tableEntry s a :: s.fabric.conflicts.filter (fun e => decide (e.addr = a)))

def fabricTablePayload (s : State) (first : Nat) : List Byte :=
  let l := tableEntries s
  let t := (l.drop first).take 3840
  leBytes 4 l.length ++ leBytes 4 t.length ++ t.flatMap entryBytes

def fabricTableNow (h : Hdr) (first : W32) : Nat → State → State :=
  runModule (.fabricTable h first) noForm noObjects
    (fun s id _ => finishModule s id (.fabricTable h first) .ok (fabricTablePayload s first.toNat))

/-- FABRIC_TABLE (R346). -/
def execFabricTable (h : Hdr) (first : W32) (s : State) : Out :=
  .next (submit (.fabricTable h first) (fabricTableNow h first) s)

/-- The route record of Table 12-9. -/
def routeRecord (addr : W32) (r : RouteRec) : List Byte :=
  let m := r.main.getD []
  let codes := m.map (·.1)
  leBytes 4 addr.toNat ++ leBytes 1 m.length ++ leBytes 1 (b2n (codes.contains 5) + 2 * b2n r.alt.isSome) ++ leBytes 2 0 ++
    leBytes 4 (routeWord codes).toNat ++ leBytes 4 0 ++
    (((m.map (fun (x : Nat × W32) => x.2.toNat)) ++ List.replicate 8 0).take 8).flatMap (leBytes 4)

/-- The route a query is about: the allotment's, or, for admin without one, that with every module of the fabric as a member (R334). -/
def queriedRoute (s : State) (h : Hdr) (addr : W32) : RouteRec :=
  if addr = s.fabric.address then { main := some [], alt := none }
  else if h.priv.toNat ≠ 0 ∧ h.allot = 0 then routesTo s (usable s) addr
  else ((s.allot? h.allot.toNat).bind (fun x => KMap.look x.routes addr.toNat)).getD { main := none, alt := none }

def routeQueryNow (h : Hdr) (addr : W32) : Nat → State → State :=
  runModule (.routeQuery h addr) (fun _ _ => if addrReserved addr then some .badParam else none) noObjects
    (fun s id h' =>
      let r := queriedRoute s h' addr
      if r.main.isSome then finishModule s id (.routeQuery h addr) .ok (routeRecord addr r)
      else finishModule s id (.routeQuery h addr) .noRoute [])

/-- ROUTE_QUERY (R334). -/
def execRouteQuery (h : Hdr) (addr : W32) (s : State) : Out :=
  .next (submit (.routeQuery h addr) (routeQueryNow h addr) s)

/-! ### Creating, resizing and dissolving (R102, R329, R336) -/

/-- Whether a list rises strictly. -/
def strictlyRising : List W32 → Bool
  | [] => true
  | [_] => true
  | a :: b :: t => decide (a.toNat < b.toNat) && strictlyRising (b :: t)

/-- The form checks that both commands share: ALLOT, MODULES, the addresses and their order (R312, R329). -/
def allotForm (allot : W16) (members : List W32) : Bool :=
  decide (1 ≤ allot.toNat) && decide (allot.toNat ≤ 0xFFFE) && decide (1 ≤ members.length) && decide (members.length ≤ 8192) &&
  members.all (fun a => !addrReserved a) && strictlyRising members

/-- The checks of R329 on a member list, in their order. A list that joins a grade B module with one beyond its board has no route
(R3, R333). -/
def memberCheck (s : State) (members : List W32) : Option Status :=
  if !members.all (fun a => decide ((tableEntry s a).state = 2)) then some .noRoute
  else if offBoard s members then some .noRoute
  else if !allReached (allotRoutes s members) then some .noRoute
  else if !fplClose (members.map (fun a => (tableEntry s a).fpl.toNat)) then some .fplMismatch
  else none

/-- The lowest FPL among the members. -/
def lowestFpl (s : State) (members : List W32) : Nat :=
  members.foldl (fun n a => min n (tableEntry s a).fpl.toNat) 255

/-- Whether any of the listed sheaves has a reed in RUNNING, PAUSED or DRAINING. -/
def sheavesBusy (s : State) (w : BitVec 256) : Bool := (setBits w).any (fun g => (s.sheaf g).busyCensus)

/-- Whether another allotment's drawn map holds this module (R339). -/
def drawnByOther (s : State) (a : Nat) : Bool :=
  s.eaves.toList.any (fun x => decide (x.mapAllot ≠ 0) && decide (x.mapAllot.toNat ≠ a))

/-- The port a command's allotment belongs to; the sideband sends none of these commands. -/
def ownerOf (h : Hdr) : PortIx := match h.src with | .port p => p | _ => .port0

def allotCreateNow (h : Hdr) (allot : W16) (w : BitVec 256) (members : List W32) : Nat → State → State :=
  let c := Instr.allotCreate h allot w members
  runModule c
    (fun s _ => if allotForm allot members && members.contains s.fabric.address then none else some .badParam)
    (fun s h => foreignAllot s h allot.toNat)
    (fun s id h' =>
      if (s.allot? allot.toNat).isSome || (setBits w).any (fun g => decide (s.allotOf g ≠ 0)) || drawnByOther s allot.toNat then
        finishModule s id c .badParam []
      else if sheavesBusy s w then finishModule s id c .badState []
      else match memberCheck s members with
        | some st => finishModule s id c st []
        | none =>
          let x : Allot :=
            { owner := ownerOf h', members := members, sheaves := w, fpl := BitVec.ofNat 8 (lowestFpl s members), det := false,
              grants := [], revoking := [], tensors := [], routes := allotRoutes s members, shape := none }
          let s := closeBuffers { s with allots := KMap.ins s.allots allot.toNat x }
          finishModule s id c .ok (leBytes 2 allot.toNat ++ [x.fpl]))

/-- ALLOT_CREATE (R102, R329, R330). -/
def execAllotCreate (h : Hdr) (allot : W16) (sheafSet : BitVec 256) (members : List W32) (s : State) : Out :=
  .next (submit (.allotCreate h allot sheafSet members) (allotCreateNow h allot sheafSet members) s)

/-- The effects of a dissolve on this module (R102, R336): collectives aborted, handles and grants released, drawn eaves returned
to the default map, sheaves left unallotted. -/
def dissolve (s : State) (a : W16) : State :=
  let s := undraw (dissolveColls s a) a
  closeBuffers { s with allots := KMap.del s.allots a.toNat }

/-- Whether a return of an eave to the default map waits for a laser swap to end (R102, R336). -/
def undrawWaits (s : State) : Bool := s.eaves.toList.any (fun x => decide (x.pendingMap = some none))

/-- Reply to a dissolution, or keep its reply until COMMAND_ACTION_COMPLETE, where a return to the default map still waits (R89, R102). -/
def dissolved (s : State) (id : Nat) (c : Instr) (u : UState) (payload : List Byte) : State :=
  if undrawWaits s then
    let o : Op := { Op.stored id c .port0 (mkReply id c .ok u payload) with wait := .action }
    { s with lodge := { s.lodge with ops := s.lodge.ops ++ [o] } }
  else s.reply id c .ok u payload

def allotDissolveNow (h : Hdr) (allot : W16) : Nat → State → State :=
  let c := Instr.allotDissolve h allot
  runModule c (fun s _ => if (s.allot? allot.toNat).isNone then some .badParam else none) (fun s h => foreignAllot s h allot.toNat)
    (fun s id _ =>
      match s.allot? allot.toNat with
      | none => finishModule s id c .badParam []
      | some x =>
        if sheavesBusy s x.sheaves then finishModule s id c .badState []
        else
          let u := s.topAmong (setBits x.sheaves)
          dissolved (dissolve s allot) id c u [])

/-- ALLOT_DISSOLVE (R102, R336). -/
def execAllotDissolve (h : Hdr) (allot : W16) (s : State) : Out :=
  .next (submit (.allotDissolve h allot) (allotDissolveNow h allot) s)

/-- Sheaves that leave an allotment leave its collective handles too (log entry 46). -/
def dropHandles (s : State) (a : W16) (w : BitVec 256) : State :=
  { s with sheaves := s.sheaves.map (fun e =>
      (e.1, if w.getLsbD e.1 then { e.2 with colls := e.2.colls.filter (fun c => decide (c.allot ≠ a)) } else e.2)) }

/-- The reply of ALLOT_RESIZE: the FPL at byte 2. -/
def resizeReply (fpl : Byte) : List Byte := leBytes 2 0 ++ [fpl]

/-- Whether a round, a move or a program of an allotment is open on this module (R457). -/
def allotOpen (s : State) (a : W16) (x : Allot) : Bool :=
  sheavesBusy s x.sheaves || s.modColls.any (fun m => decide (m.allot = a)) ||
  s.lodge.ops.any (fun o => match o.cmd with | .tensorMove h _ => decide (h.allot = a) | _ => false)

/-- The FPL of an allotment after a resize: the lowest of its members, and unchanged while a round, move or program is open (R457). -/
def resizeFpl (s : State) (a : W16) (x : Allot) (members : List W32) : Byte :=
  if allotOpen s a x then x.fpl else BitVec.ofNat 8 (lowestFpl s members)

def resizeAdd (s : State) (id : Nat) (c : Instr) (a : W16) (x : Allot) (w : BitVec 256) (list : List W32) : State :=
  if list.any (fun m => x.members.contains m) || (setBits w).any (fun g => decide (s.allotOf g ≠ 0)) || drawnByOther s a.toNat then
    finishModule s id c .badParam []
  else if sheavesBusy s w then finishModule s id c .badState []
  else
    let members := list.foldl (fun l m => insAddr m l) x.members
    match memberCheck s members with
    | some st => finishModule s id c st []
    | none =>
      let y := { x with members := members, sheaves := x.sheaves ||| w, fpl := resizeFpl s a x members,
                        routes := allotRoutes s members }
      finishModule (closeBuffers { s with allots := KMap.ins s.allots a.toNat y }) id c .ok (resizeReply y.fpl)

def resizeRemove (s : State) (id : Nat) (c : Instr) (a : W16) (x : Allot) (w : BitVec 256) (list : List W32) : State :=
  if list.any (fun m => !x.members.contains m) || decide (w &&& ~~~x.sheaves ≠ 0) then finishModule s id c .badParam []
  else if list.contains s.fabric.address then
    if w ≠ x.sheaves then finishModule s id c .badParam []
    else if sheavesBusy s w then finishModule s id c .badState []
    else
      let u := s.topAmong (setBits x.sheaves)
      dissolved (dissolve s a) id c u (resizeReply x.fpl)
  else if sheavesBusy s w then finishModule s id c .badState []
  else
    let members := x.members.filter (fun m => !list.contains m)
    match memberCheck s members with
    | some st => finishModule s id c st []
    | none =>
      let y := { x with members := members, sheaves := x.sheaves &&& ~~~w, fpl := resizeFpl s a x members,
                        routes := allotRoutes s members }
      let s := dropHandles { s with allots := KMap.ins s.allots a.toNat y } a w
      finishModule (closeBuffers s) id c .ok (resizeReply y.fpl)

def allotResizeNow (h : Hdr) (allot : W16) (op : Byte) (w : BitVec 256) (members : List W32) : Nat → State → State :=
  let c := Instr.allotResize h allot op w members
  runModule c
    (fun s _ => if allotForm allot members && decide (op.toNat ≤ 1) && (s.allot? allot.toNat).isSome then none else some .badParam)
    (fun s h => foreignAllot s h allot.toNat)
    (fun s id _ =>
      match s.allot? allot.toNat with
      | none => finishModule s id c .badParam []
      | some x => if op = 0 then resizeAdd s id c allot x w members else resizeRemove s id c allot x w members)

/-- ALLOT_RESIZE (R102, R336). -/
def execAllotResize (h : Hdr) (allot : W16) (op : Byte) (sheafSet : BitVec 256) (members : List W32) (s : State) : Out :=
  .next (submit (.allotResize h allot op sheafSet members) (allotResizeNow h allot op sheafSet members) s)

/-! ### Drawing (R338 to R341) -/

/-- The product of a list. -/
def product : List Nat → Nat
  | [] => 1
  | x :: t => x * product t

/-- Whether SHAPE, NDIM and the extents it uses go with `n` members (R338). -/
def shapeFits (shape ndim : Nat) (used : List Nat) (n : Nat) : Bool :=
  (if shape = 1 then used.all (fun x => decide (2 ≤ x)) && decide (product used = n)
   else decide (ndim = 1) && decide (used = [n]) && (decide (shape ≠ 3) || (List.range 14).any (fun i => decide (n = 2 ^ i))))

/-- Neighbours of a rank in a torus, dimension 0 fastest. -/
def torusNeighbours (r : Nat) : Nat → List Nat → List Nat
  | _, [] => []
  | unit, e :: t =>
    let d := r / unit % e
    [r - d * unit + ((d + 1) % e) * unit, r - d * unit + ((d + e - 1) % e) * unit] ++ torusNeighbours r (unit * e) t

/-- The ranks a rank neighbours in a shape, itself excluded (R338). -/
def shapeNeighbours (shape : Nat) (ext : List Nat) (n r : Nat) : List Nat :=
  let l :=
    if shape = 0 then [(r + 1) % n, (r + n - 1) % n]
    else if shape = 1 then torusNeighbours r 1 ext
    else if shape = 2 then List.range n
    else ((List.range 14).map (fun i => Nat.xor r (2 ^ i))).filter (fun x => decide (x < n))
  (l.filter (fun x => decide (x ≠ r))).dedup

/-- What R340 computes from: the course, the members and the shape. -/
structure Draw where
  course : Nat
  members : List W32
  shape : Nat
  ext : List Nat
  deriving DecidableEq, Repr

/-- G(x): members in x's group on the course, x excluded. -/
def Draw.group (d : Draw) (x : W32) : List W32 := d.members.filter (fun y => decide (y ≠ x) && sameGroup d.course x y)

/-- S(x): x's shape neighbours in its group; if none, the group. -/
def Draw.near (d : Draw) (x : W32) : List W32 :=
  let g := d.group x
  let r := ((d.members.findIdx? (fun y => decide (y = x))).getD 0)
  let l := (shapeNeighbours d.shape d.ext d.members.length r).filterMap (fun i => d.members[i]?)
  let t := g.filter (fun y => l.contains y)
  if t = [] then g else t

/-- Whether an eave is up at a module, by the fabric table. -/
def eaveUpAt (s : State) (e : Nat) (x : W32) : Bool := (tableEntry s x).eavesUp.getLsbD e

/-- The keep eave of a pair: the first eave of the course up at both. -/
def keepEave (s : State) (d : Draw) (x y : W32) : Option Nat :=
  (eavesOf d.course).find? (fun e => eaveUpAt s e x && eaveUpAt s e y)

/-- share(x, e) of R340. -/
def share (s : State) (d : Draw) (x : W32) (e : Nat) : Nat :=
  (32 - ((d.group x).filter (fun y => decide (keepEave s d x y = some e))).length) / (d.near x).length

/-- The offset from one module to another on a course. -/
def offsetTo (c : Nat) (x y : W32) : Nat := (coordOn c y + radixOf c - coordOn c x) % radixOf c

/-- The slots on which x transmits to y on an eave when the shape makes them neighbours: keep slot and drawn slots (R340). -/
def drawnSlots (s : State) (d : Draw) (e : Nat) (x y : W32) : List Nat :=
  let o := offsetTo d.course x y
  let keep := decide (keepEave s d x y = some e)
  let kept := if keep then [o] else []
  if (d.near x).contains y && (d.near y).contains x && eaveUpAt s e x && eaveUpAt s e y then
    let free := (List.range 40).filter (fun t => decide (t ≠ 0) && decide (t % radixOf d.course = o) && !(keep && decide (t = o)))
    kept ++ free.take (min (share s d x e) (share s d y e))
  else kept

/-- Lanes from slots: ascending from lane 0, every other lane off. -/
def lanesOf (slots : List Nat) : List Byte :=
  ((((List.range 40).filter (fun t => slots.contains t)).map (BitVec.ofNat 8)) ++ List.replicate 32 255).take 32

/-- The map R340 draws on an eave of this module. -/
def drawnMap (s : State) (d : Draw) (e : Nat) (mapId : W32) : ColourMap :=
  let p := s.fabric.address
  let g := d.group p
  { format := 1, radix := BitVec.ofNat 8 (radixOf d.course), mapId := mapId,
    tx := lanesOf (g.flatMap (fun q => drawnSlots s d e p q)), rx := lanesOf (g.flatMap (fun q => drawnSlots s d e q p)) }

/-- Draw a map on an eave. Peers outside the allotment whose lanes lose their receive ring here are told that the loss is intended;
a bundle of which nothing is heard any more begins anew (R340). -/
def drawEave (s : State) (e : Nat) (new : ColourMap) (a : W16) (members : List W32) : State :=
  let old := (s.eave e).map
  let lost := ((List.range 32).filter (fun k => (s.rx (laneChan e k)).up && decide (laneOfSlot false e (some new) (slotOf false e k old) = none) &&
    !members.contains (nearEnd s (laneChan e k)))).map (laneChan e)
  let peers := lost.map (nearEnd s)
  let s := putMap (lost.foldl (fun s ch => answerLink s ch false true 0 0) s) e (some new) a
  peers.foldl (fun s p => if heardLanes s (courseOf e) p = [] then forgetRx s (courseOf e) p else s) s

/-- The eaves a draw redraws: those up on the courses on which the allotment has lanes here. -/
def drawEaves (s : State) (d : Draw) : List Nat :=
  if d.group s.fabric.address = [] then [] else (eavesOf d.course).filter (fun e => (s.eave e).dataUp)

/-- Draw again the eaves of a course that an allotment's drawn map holds: the keep eave of each pair becomes the first that is up
(R340, R368). -/
def redraw (s : State) (course : Nat) : State :=
  (eavesOf course).foldl (fun s e =>
    let x := s.eave e
    match x.map, s.allot? x.mapAllot.toNat with
    | some m, some al => match al.shape with
      | some sh =>
        let new := drawnMap s ⟨course, al.members, sh.1, sh.2⟩ e m.mapId
        if x.dataUp && decide (x.mapAllot ≠ 0) && decide (new ≠ m) then drawEave s e new x.mapAllot al.members else s
      | none => s
    | _, _ => s) s

def topoDrawNow (h : Hdr) (shape ndim : Byte) (ext : List W16) : Nat → State → State :=
  let c := Instr.topoDraw h shape ndim ext
  runModule c
    (fun s _ =>
      if 3 < shape.toNat ∨ ndim = 0 ∨ 4 < ndim.toNat ∨ (ext.drop ndim.toNat).any (fun x => decide (x ≠ 0)) = true then some .badParam
      else if s.boot.gradeB then some .engineFused else none)
    noObjects
    (fun s id h' =>
      match s.allot? h'.allot.toNat with
      | none => finishModule s id c .badParam []
      | some x =>
        let used := (ext.map BitVec.toNat).take ndim.toNat
        if !shapeFits shape.toNat ndim.toNat used x.members.length || decide (1 < s.allots.length) then
          finishModule s id c .badParam []
        else if !allReached x.routes then finishModule s id c .noRoute []
        else
          let d := fun (k : Nat) => (⟨k, x.members, shape.toNat, used⟩ : Draw)
          let jobs := [5, 6, 7].flatMap (fun k => (drawEaves s (d k)).map (fun e => (k, e)))
          let f := s.fresh
          let maps := jobs.map (fun j => (j.2, drawnMap s (d j.1) j.2 (f.1.setWidth 32)))
          let t := { f.2 with allots := KMap.ins f.2.allots h'.allot.toNat { x with shape := some (shape.toNat, used) } }
          let t := maps.foldl (fun s m => drawEave s m.1 m.2 h'.allot x.members) t
          holdModule t id c .ok (leBytes 4 jobs.length))

/-- TOPO_DRAW draws the allotment's lanes here; the reply, with the time taken, follows as COMMAND_ACTION_COMPLETE (R341). -/
def execTopoDraw (h : Hdr) (shape ndim : Byte) (extents : List W16) (s : State) : Out :=
  .next (submit (.topoDraw h shape ndim extents) (topoDrawNow h shape ndim extents) s)

/-! ### Colour maps (R322, R323) -/

/-- The slots of one side of a map: each below 40 or off, none at offset 0, no two equal. -/
def slotsGood (radix : Nat) (l : List Byte) : Bool :=
  let on := (l.map BitVec.toNat).filter (fun t => decide (t ≠ 255))
  on.all (fun t => decide (t < 40) && decide (t % radix ≠ 0)) && decide on.Nodup

/-- The cases of R322. On an eave for which discovery has found no radix, a map carries the radix that its course has (Table 13-5).
DESIGN CHOICE (log entry 70): the spec does not say which it carries then. -/
def mapGood (e : Nat) (x : Eave) (m : ColourMap) : Bool :=
  let n := if x.radix = 0 then radixOf (courseOf e) else x.radix
  decide (m.format = 1) && decide (m.radix.toNat = n) && slotsGood n m.tx && slotsGood n m.rx

def colourMapSetNow (h : Hdr) (eave : Byte) (map : ColourMap) : Nat → State → State :=
  let c := Instr.colourMapSet h eave map
  runModule c
    (fun s _ =>
      if 7 < eave.toNat ∨ mapGood eave.toNat (s.eave eave.toNat) map = false then some .badParam
      else if s.boot.gradeB then some .engineFused
      else none)
    noObjects
    (fun s id _ =>
      let e := eave.toNat
      if !(s.eave e).dataUp then finishModule s id c .linkDown []
      else if (s.eave e).arms.any (·.moving) then holdFor (.mapApplied e) (putMap s e (some map) 0) id c .ok []
      else finishModule (putMap s e (some map) 0) id c .ok [])

/-- COLOUR_MAP_SET (R102, R322, R323); during a swap its reply follows the swap, after which the map is applied (R102, R370). -/
def execColourMapSet (h : Hdr) (eave : Byte) (map : ColourMap) (s : State) : Out :=
  .next (submit (.colourMapSet h eave map) (colourMapSetNow h eave map) s)

end Sys2Proof.Machine
end

