-- ==== Sys2Proof/Machine/Fabric.lean ====
section
/-!
DEFINITION. The rows of the fabric: news and routes (R335), copper courses (R315 to R317), lane tokens (R320), and discovery to
fabric-ready (R342 to R345).
-/

namespace Sys2Proof.Machine

/-! ### News and routes -/

/-- RETRANSMIT_TIMEOUT: 10 µs without progress (R326). -/
def execRetransmitTimeout (ch : Nat) (s : State) : Out := .next (if s.txUp ch then resendAll s ch else s)

/-- Whether news of a channel is told to this module: it is in the group of one of the ends, or its copper neighbour (R335). -/
def toldOf (s : State) (n : News) : Bool :=
  [n.endA, n.endB].any (fun a => [5, 6, 7].any (fun c => sameGroup c a s.fabric.address) ||
    [0, 1, 2, 3, 4].any (fun c => decide (copperAddr a c = s.fabric.address)))

/-- FABRIC_CONTROL_FRAME: news of a channel that came on a course. A repeat is discarded; a module that the news is meant for relays it
once to its own groups and neighbours, and any other passes it on along that course (R335, R351). A control lane that the other end declared
down numbers its frames from 0 when it returns (R326, R356). -/
def execFabricControlFrame (src msg : W32) (seg : W16) (via : Nat) (news : News) (s : State) : Out :=
  .next (
    if !s.boot.released || s.fabric.seen.contains (src, 4, msg, seg) then s
    else
      let routes := s.allots
      let s := hopChanged { s with fabric := { s.fabric with seen := s.fabric.seen ++ [(src, 4, msg, seg)] } } news
      let s := if !news.hop && decide (news.endB = s.fabric.address) then forgetRx s news.course news.endA else s
      let s := if !news.up && decide (news.endB = s.fabric.address) && decide (261 ≤ news.chan) then s.modRx news.chan (fun _ => RxChan.reset) else s
      let s := relayNews s (if toldOf s news then List.range 8 else [via]) src msg seg news
      if news.hop then s else rerouteColls s news.course news.endA news.endB routes)

/-- ROUTE_RECOMPUTE (R332, R335). -/
def execRouteRecompute (s : State) : Out := .next (recomputeRoutes s)

/-! ### Copper courses -/

def State.copper (s : State) (i : Nat) : Copper := (s.fabric.copper.toList[i]?).getD Copper.reset
def State.modCopper (s : State) (i : Nat) (f : Copper → Copper) : State :=
  { s with fabric := { s.fabric with copper := s.fabric.copper.setIfInBounds i (f (s.copper i)) } }

/-- A set of copper lanes from a list. -/
def laneSet (l : List Nat) : BitVec 9 := BitVec.ofNat 9 ((l.map (fun i => 2 ^ i)).sum)

/-- A journal record of a remap that REPAIR_COMMIT can fuse (R317, R459). -/
def remapRecord (s : State) (type : Nat) (body : List Byte) : State :=
  let r := s.journalAdd type .ok body
  { r.1 with boot := { r.1.boot with unfused := r.1.boot.unfused ++ [r.2.seq] } }

/-- COPPER_LANE_SWAP: a serving lane exceeds the error ratio; the spare replaces it and held frames are resent; with no spare left the
course runs degraded, or is down below four good lanes (R317). -/
def execCopperLaneSwap (c : CopperIx) (lane : Nat) (s : State) : Out :=
  .next (
    let x := s.copper c
    if !x.trained || !x.serving.getLsbD lane then s
    else
      let bad := x.bad ||| laneSet [lane]
      let rest := x.serving &&& ~~~laneSet [lane]
      match (List.range 9).find? (fun i => !rest.getLsbD i && !bad.getLsbD i) with
      | some spare =>
        let s := s.modCopper c (fun x => { x with serving := rest ||| laneSet [spare], bad := bad })
        resendAll (remapRecord s 0x0006 [BitVec.ofNat 8 c.val, BitVec.ofNat 8 lane, BitVec.ofNat 8 spare]) c.val
      | none =>
        let s := s.modCopper c (fun x => { x with serving := rest, bad := bad })
        if (setBits rest).length < 4 then declareDown s c.val else linkEvent s 0 c.val 0 2)

/-- Put an entry into the fabric table. -/
def putEntry (s : State) (x : TableEntry) : State :=
  { s with fabric := { s.fabric with table := KMap.ins s.fabric.table x.addr.toNat x } }

/-- A second module under an address: its entry stands beside the other's, in STATE 3 (R344). -/
def addConflict (s : State) (e : TableEntry) : State :=
  if s.fabric.conflicts.any (fun x => decide (x.addr = e.addr) && decide (x.fabricId = e.fabricId)) then s
  else { s with fabric := { s.fabric with conflicts := s.fabric.conflicts ++ [{ e with state := 3 }] } }

/-- A module's entry as a token or a table reports it: known entries keep READY, and two FABRIC_IDs under one address are a
conflict (R343, R344). -/
def learn (s : State) (e : TableEntry) (reported : Byte) : State :=
  if e.addr = s.fabric.address then (if e.fabricId = Config.fabricId then s else addConflict s e)
  else match s.entry e.addr with
    | none => putEntry s { e with state := reported }
    | some o =>
      if o.state ≠ 0 ∧ o.fabricId ≠ e.fabricId then addConflict (putEntry s { o with state := 3 }) e
      else putEntry s { e with state := if o.state = 3 then 3 else if o.state = 2 then 2 else reported }

/-- The MISWIRE record (R315, R344). -/
def miswireRecord (s : State) (course : Nat) (peer : W32) : State :=
  (s.journalAdd 0x000A .linkDown ([BitVec.ofNat 8 course] ++ leBytes 4 peer.toNat)).1

/-! ### Tables (R343, R346) -/

/-- The modules of this one's rack, or of its racks on X, in the table. -/
def rackTable (s : State) : List TableEntry :=
  (tableEntries s).filter (fun e => decide (e.state ≠ 0) && decide (adX e.addr = adX s.fabric.address) && decide (adY e.addr = adY s.fabric.address))
def rowTable (s : State) : List TableEntry :=
  (tableEntries s).filter (fun e => decide (e.state ≠ 0) && decide (adY e.addr = adY s.fabric.address))

/-- This module's tables go out: the rack lead's rack table over copper and L, the rack table over X and the row table over Y (R343); a module
of grade B tells its board. -/
def publishTables (s : State) : State :=
  if s.boot.gradeB then sendToken s 3 [0, 1, 2, 3, 4] (rackTable s)
  else
    let s := if s.fabric.lead = Config.fabricId then sendToken s 3 [0, 1, 2, 3, 4, 5] (rackTable s) else s
    sendToken (sendToken s 3 [6] (rackTable s)) 4 [7] (rowTable s)

/-- What is new in the table since `old` goes out again, so that modules released later join (R345; log entry 85). -/
def republish (old s : State) : State := if s.fabric.table = old.fabric.table ∨ s.fabric.phase < 6 then s else publishTables s

/-- Whether every expected module is in the table. -/
def allFound (s : State) : Bool := (expectedModules s).all (fun a => decide (a = s.fabric.address) || (s.entry a).any (fun e => decide (e.state ≠ 0)))

/-- This module has ended discovery: its entry, now READY, goes to its rack, and its tables go out once more (R343, R345; log entry 85: the
spec does not say how READY is told). -/
def tellReady (s : State) : State :=
  let s : State := { s with fabric := { s.fabric with phase := 7 } }
  publishTables (sendToken s 3 (if s.boot.gradeB then [0, 1, 2, 3, 4] else [0, 1, 2, 3, 4, 5]) [ownEntry s])

/-- Phase 6 ends when every expected module is in the table (R343). -/
def tablesDone (s : State) : State := if s.fabric.phase = 6 ∧ allFound s then tellReady s else s

/-- COURSE_TRAINED: a copper course of a powered domain trains and its ends exchange identity tokens; a miswired course is held down
(R315, R316, R343, R426). It runs on up to eight good lanes, is reported degraded on fewer, and is down on fewer than four
(R317). -/
def execCourseTrained (c : CopperIx) (peer : TableEntry) (s : State) : Out :=
  .next (
    if !s.boot.released || decide (s.courseDom c.val ≠ .powering ∧ s.courseDom c.val ≠ .awake) || (s.tx c.val).up then s
    else
      let old := s
      let own := s.fabric.address
      if peer.addr ≠ copperAddr own c.val ∨ peer.addr = own then
        miswireRecord (linkEvent (s.modCopper c (fun x => { x with trained := false, miswired := true, peer := some peer })) 0 c.val 0 0)
          c.val peer.addr
      else
        let good := ((List.range 9).filter (fun i => !(s.copper c).bad.getLsbD i)).take 8
        if good.length < 4 then s
        else
          let s := s.modCopper c (fun x => { x with trained := true, miswired := false, peer := some peer, serving := laneSet good })
          let s := { s with pow := { s.pow with copper := s.pow.copper.setIfInBounds c.val .awake } }
          let s := (s.modTx c.val (fun _ => { TxChan.reset with up := true })).modRx c.val (fun _ => { RxChan.reset with up := true })
          let s := sendToken (learn s peer 1) 0 [c.val] [ownEntry s]
          let s := if good.length < 8 then linkEvent s 0 c.val 0 2 else s
          if s.fabric.phase ≤ 2 then { s with fabric := { s.fabric with phase := 2 } } else republish old (hopCameUp s c.val peer.addr))

/-! ### Lanes -/

/-- A lane of this module is matched: its channel comes up. The news is told where it is the first of its bundle (R320, R335). -/
def laneMatches (s : State) (e k : Nat) (peer : W32) : State :=
  let ch := laneChan e k
  let course := courseOf e
  let was := hopUp s course s.fabric.address peer
  let s := (s.modEave e (fun x => { x with matched := setLane x.matched k true })).modTx ch (fun _ => { TxChan.reset with up := true })
  let s := { s with fabric := { s.fabric with
    peers := KMap.ins s.fabric.peers ch peer,
    orphans := s.fabric.orphans.filter (fun o => !(decide (o.2 = peer) && decide (chanCourse o.1 = course))) } }
  if was then serveBundle s course peer
  else if s.fabric.phase < 7 then flushWaiting (serveBundle s course peer) else hopCameUp s ch peer

/-- LANE_TOKEN: the token of a lane that is lit and locked finds, or does not find, the peer's receive ring, or a peer's token is heard on a
receive ring of this module (R320). Each side matches by itself. -/
def execLaneToken (e : EaveIx) (lane : LaneIx) (peer : W32) (peerHasRing incoming : Bool) (s : State) : Out :=
  .next (
    let x := s.eave e
    let ch := laneChan e lane
    if !x.dataUp || decide (peer = s.fabric.address) then s
    else if incoming then
      if slotOf false e lane x.map ≠ 255 ∧ peer = nearEnd s ch then s.modRx ch (fun _ => { RxChan.reset with up := true }) else s
    else if !x.laneUp.getLsbD lane || (s.tx ch).up || !peerHasRing || decide (peer ≠ txPeer s e (slotOf true e lane x.map)) then s
    else laneMatches s e lane peer)

/-! ### Discovery (Table 12-10) -/

/-- The phase after the rack lead is found: discovery ends on grade B; a later run goes on to the tables (R342, R345). -/
def afterLead (s : State) : Nat :=
  if s.boot.gradeB then 7 else if s.eaves.toList.any (fun x => decide (x.radix ≠ 0)) then 6 else 4

/-- Phase 6 begins: the tables go out (R343). -/
def openTables (s : State) : State := tablesDone (publishTables { s with fabric := { s.fabric with phase := 6 } })

/-- RACK_LEAD_ROUND: one round of flooding the lowest FABRIC_ID over copper; `lead` is the lowest that reached this module (R343). -/
def execRackLeadRound (lead : W64) (s : State) : Out :=
  .next (
    if !s.boot.released then s
    else
      let f := s.fabric
      let lower := decide (lead.toNat < f.lead.toNat)
      if 3 < f.phase ∧ !lower then s
      else
        let n := if f.phase = 3 then f.leadRounds + 1 else 1
        let done := (!lower && decide (3 ≤ n)) || decide (31 ≤ n)
        let low := if lower then lead else f.lead
        let next := if done then afterLead s else 3
        let s := sendToken { s with fabric := { f with lead := low, leadRounds := n, phase := next } }
          1 [0, 1, 2, 3, 4] [{ ownEntry s with fabricId := low }]
        if next = 6 then openTables s else if next = 7 then tellReady s else s)

/-- Phase 5 ends when every module found in phase 4 has answered (R343). -/
def groupsDone (s : State) : State :=
  let found := s.eaves.toList.flatMap (fun x => (x.offsets.filter (fun o => decide (o.1 ≠ 0))).map (·.2))
  if s.fabric.phase = 5 ∧ found.all (fun a => decide (a = s.fabric.address) || s.fabric.answered.contains a) = true then openTables s else s

/-- What a sweep found on an eave: its radix, and the address that answered at each offset (R343, R368). -/
def Eave.found (x : Eave) (e : Nat) (answers : List (Nat × W32)) : Eave :=
  { x with radix := radixOf (courseOf e),
           offsets := ((answers.filter (fun a => decide (a.1 / 64 = e))).map (fun a => (a.1 % 64, a.2))).foldl
             (fun m a => KMap.ins m a.1 a.2) [] }

/-- DISCOVERY_SWEEP_DONE: the sweep of phase 4 ends; each eave that is up has found its radix and what answered at each offset, and
group tokens go to every module found (R343). -/
def execDiscoverySweepDone (answers : List (Nat × W32)) (s : State) : Out :=
  .next (
    if s.fabric.phase ≠ 4 then s
    else
      let s := (List.range 8).foldl (fun s e => if (s.eave e).isUp then s.modEave e (fun x => x.found e answers) else s) s
      groupsDone (sendToken { s with fabric := { s.fabric with phase := 5, answered := [] } } 2 [5, 6, 7] [ownEntry s]))

/-- The receiving ends of an eave's data lanes go. -/
def dropRx (s : State) (e : Nat) : State := (List.range 32).foldl (fun s k => s.modRx (laneChan e k) (fun _ => RxChan.reset)) s

/-- An eave that is miswired carries nothing on its data lanes (R344). -/
def miswireEave (s : State) (e : Nat) (peer : W32) : State :=
  if (s.eave e).miswired then s
  else
    let s := (List.range 32).foldl (fun s k => channelLost s (laneChan e k)) (dropRx s e)
    let s := s.modEave e (fun x => { x with miswired := true, matched := 0 })
    redraw (miswireRecord (linkEvent s 1 e 0 0) (courseOf e) peer) (courseOf e)

/-- Whether a module found at an offset of an eave stands where it must (R344). -/
def wiredRight (s : State) (e offset : Nat) (peer : W32) : Bool :=
  let c := courseOf e
  sameGroup c s.fabric.address peer && decide (coordOn c peer = (coordOn c s.fabric.address + offset) % radixOf c)

/-- GROUP_TOKEN: a module found at an offset of an eave answers on the control lanes; CA hears port p + 1 and CB port p - 8. The token is
forwarded once on the course, and a repeat of it is discarded (R343, R344, R351). -/
def execGroupToken (e : EaveIx) (offset : Nat) (peer : TableEntry) (msg : W32) (s : State) : Out :=
  .next (
    if !s.boot.released || s.boot.gradeB || s.fabric.seen.contains (peer.addr, 4, msg, 0) then s
    else if wiredRight s e offset peer.addr then
      let n := radixOf (courseOf e)
      let t := learn (s.modEave e (fun x => { x with caRx := x.caRx || decide (offset = 1), cbRx := x.cbRx || decide (offset = n - 8) }))
        peer (if peer.state = 2 then 2 else 1)
      let t := republish s (relayToken t 2 [courseOf e] peer.addr msg [peer])
      if t.fabric.answered.contains peer.addr then t
      else groupsDone { t with fabric := { t.fabric with answered := t.fabric.answered ++ [peer.addr] } }
    else miswireEave s e peer.addr)

/-- The courses on which a table goes on: within the rack over copper and L, else along the course on which it came (R343, R351). -/
def tableCourses (via : Nat) : List Nat := if via ≤ 5 then [0, 1, 2, 3, 4, 5] else [via]

/-- TABLE_EXCHANGE: a rack or row table arrives: a repeat is discarded; else it is forwarded once, what it tells goes out with this module's
own tables, and discovery ends once every expected module is in the table (R343, R351). -/
def execTableExchange (entries : List TableEntry) (row : Bool) (via : Nat) (src msg : W32) (s : State) : Out :=
  .next (
    if !s.boot.released || s.fabric.seen.contains (src, 4, msg, 0) then s
    else
      let t := entries.foldl (fun s e => if e.state = 0 then s else learn s e e.state) s
      tablesDone (republish s (relayToken t (if row then 4 else 3) (tableCourses via) src msg entries)))

/-- Whether the table holds every expected module as READY (R345). -/
def allReady (s : State) : Bool := (expectedModules s).all (fun a => decide ((tableEntry s a).state = 2))

/-- Whether a present eave was commissioned degraded, failed or skipped (R32, R367). -/
def eaveShort (s : State) : Bool :=
  !s.boot.gradeB && s.eaves.toList.any (fun x => decide (x.st = .off) || decide (x.st = .failed) || decide (x.st = .degraded))

/-- Fabric-ready: the step is reached and the BOOT event written, once (R345, Table 16-1). -/
def reachReady (s : State) (complete : Bool) : State :=
  let s := { s with fabric := { s.fabric with ready := true }, boot := { s.boot with step := 9 } }
  s.moduleEvent 0x0B0E 7 (if complete && !eaveShort s then .ok else .okDegraded) (leBytes 4 (bootstepReg s) ++ leBytes 4 (diemap s))

/-- FABRIC_READY (R345). -/
def execFabricReady (s : State) : Out :=
  .next (if s.boot.released && !s.fabric.ready && allReady s then reachReady s true else s)

/-- FABRIC_READY_TIMEOUT: 60 s after release with an incomplete table (R345). -/
def execFabricReadyTimeout (s : State) : Out :=
  .next (if s.boot.released && !s.fabric.ready && !allReady s then reachReady s false else s)

end Sys2Proof.Machine
end

