-- ==== Sys2Proof/Machine/Optics.lean ====
section
/-!
DEFINITION. The optical eaves (chapter 13): commissioning, spares and swaps, locks, the fade watcher, the commands of the optics class
(R107, R108), DOMAIN_SET (R109, R110, R337), and the rows of channels that a draining domain waits for (R324, R326).
-/

namespace Sys2Proof.Machine

/-! ### Lanes, lasers and spares -/

/-- The laser that serves a lane; 255 is none. -/
def Eave.laser (x : Eave) (k : Nat) : Nat := (x.bind[k]?).getD 255

/-- The lane a laser serves. -/
def Eave.laneOf (x : Eave) (l : Nat) : Option Nat := (List.range 32).find? (fun k => decide (x.laser k = l))

/-- Whether a spare is free and good (R363). -/
def Eave.spareFree (x : Eave) (i : Nat) : Bool :=
  !x.badSpare.getLsbD i && !x.bind.contains (32 + i) && !x.offLaser.contains (32 + i) && !x.arms.any (fun a => decide (a.spare = i))

/-- The spare that is granted next: the lowest-numbered free good one. -/
def Eave.nextSpare (x : Eave) : Option Nat := (List.range 4).find? x.spareFree

/-- The arm of a lane. -/
def Eave.armOf (x : Eave) (k : Nat) : Option Arm := x.arms.find? (fun a => decide (a.lane = k))

/-- Change the arm of a lane. -/
def Eave.modArm (x : Eave) (k : Nat) (f : Arm → Arm) : Eave :=
  { x with arms := x.arms.map (fun a => if a.lane = k then f a else a) }

def Eave.setLevel (x : Eave) (l : Nat) (v : Int) : Eave := { x with level := listSet x.level l v }

/-- Release a lane's arm: its spare is switched off and free again. -/
def Eave.disarm (x : Eave) (k : Nat) : Eave :=
  match x.armOf k with
  | some a => { (x.setLevel (32 + a.spare) (-128)) with arms := x.arms.filter (fun b => decide (b.lane ≠ k)), recover := KMap.del x.recover k }
  | none => x

/-- A lane no longer waits for a spare. -/
def Eave.unwait (x : Eave) (k : Nat) : Eave := { x with fadeWait := x.fadeWait.filter (fun j => decide (j ≠ k)) }

/-- Withhold credit on a lane, or give it again. -/
def Eave.quiesce (x : Eave) (k : Nat) (b : Bool) : Eave := { x with quiesced := setLane x.quiesced k b }

/-- Whether a lane is on in the map in force. -/
def Eave.laneOn (x : Eave) (e k : Nat) : Bool := decide (slotOf true e k x.map ≠ 255)

/-- The reply of the LASER_SWAP in progress on a lane. -/
def swapReply (s : State) (e k : Nat) (st : Status) : State :=
  let mine := fun (o : Op) => match o.cmd with
    | .laserSwap _ ev l _ => decide (ev.toNat = e) && decide (l.toNat = k) && decide (o.wait = .action)
    | _ => false
  match s.lodge.ops.find? mine with
  | some o => finishModule { s with lodge := { s.lodge with ops := s.lodge.ops.filter (fun o => !mine o) } } o.id o.cmd st []
  | none => s

/-- A map that waited for the swaps of an eave to end is applied, and its COLOUR_MAP_SET replied to (R102, R370). -/
def applyPending (s : State) (e : Nat) : State :=
  let x := s.eave e
  match x.pendingMap with
  | some m => if x.arms.any (·.moving) then s else finishHeld (applyMap s e m x.mapAllot) (.mapApplied e)
  | none => s

/-- The journal record of a binding change (R364). -/
def bindRecord (s : State) (e k old new reason : Nat) : State :=
  (s.journalAdd 0x0008 .ok [BitVec.ofNat 8 e, BitVec.ofNat 8 k, BitVec.ofNat 8 old, BitVec.ofNat 8 new, BitVec.ofNat 8 reason]).1

/-- What an eave's being up or down changes elsewhere: the way of its control frames (R352, R365), and the keep eave of the drawn pairs
of its course (R340, R368). -/
def eaveChanged (s : State) (e : Nat) : State := redraw s.judgeSideband (courseOf e)

/-- A lane that must move finds no free good spare: it is retired. A LASER_SWAP that moved it returns `LINK_DOWN` (R362; log entry 50). -/
def retireLane (s : State) (e k reason : Nat) : State :=
  let l := (s.eave e).laser k
  let s := s.modEave e (fun x =>
    let y := (((x.disarm k).unwait k).quiesce k true).setLevel l (-128)
    { y with laneUp := setLane y.laneUp k false, bind := listSet y.bind k 255,
             offLaser := if l = 255 then y.offLaser else y.offLaser ++ [l] })
  let s := if l = 255 then s else bindRecord s e k l 255 reason
  let s := channelLost (linkEvent s 2 e k 0) (laneChan e k)
  eaveChanged (applyPending (swapReply s e k .linkDown) e) e

/-- Arm the next free good spare for a lane. Where there is none, a lane that must move is retired, and one below -1.0 dB keeps its place
among those that wait (R360 to R363). -/
def armLane (s : State) (e k : Nat) (moving : Bool) (reason : Nat) : State :=
  match (s.eave e).nextSpare with
  | some i => s.modEave e (fun x => { x.unwait k with arms := x.arms ++ [⟨k, i, false, moving, reason⟩], recover := KMap.del x.recover k })
  | none =>
    if moving then retireLane s e k reason
    else s.modEave e (fun x => { x with fadeWait := if x.fadeWait.contains k then x.fadeWait else x.fadeWait ++ [k] })

/-! ### Commissioning (R366, R367) -/

/-- The lasers of lanes 0 to 31 (step 4): lane k takes laser k when it is good, otherwise the lowest spare that is good and left. -/
def bindLanes (good : BitVec 36) : List Nat → List Nat → List Nat
  | [], _ => []
  | k :: t, spares =>
    if good.getLsbD k then k :: bindLanes good t spares
    else match spares with
      | [] => 255 :: bindLanes good t []
      | i :: r => i :: bindLanes good t r

def bindingOf (good : BitVec 36) : List Nat :=
  bindLanes good (List.range 32) ([32, 33, 34, 35].filter (fun i => good.getLsbD i))

/-- The result of Table 13-10: 0 up, 1 degraded, 2 failed. -/
def commResult (o : CommOutcome) : Nat :=
  let bound := ((bindingOf o.laserGood).filter (fun l => decide (l ≠ 255))).length
  if !o.selfTestOk || (!o.caOk && !o.cbOk) || decide (bound < 16) || !o.ringsLocked then 2
  else match o.margin with
    | none => 2
    | some m => if m < 0 then 2 else if !o.caOk || !o.cbOk || decide (bound < 32) || decide (m < 15) then 1 else 0

/-- The lanes of an eave that would be up: bound, on in the map, and the eave up. -/
def Eave.litLanes (x : Eave) (e : Nat) : BitVec 32 :=
  BitVec.ofNat 32 (((List.range 32).map (fun k => if x.isLit k && x.laneOn e k then 2 ^ k else 0)).sum)

/-- Light what a commissioned eave serves: bound lasers of lanes that are on, and CA and CB; lit lasers stand at REF. The lanes of an eave
out of its range stay quiesced (R355). -/
def Eave.light (x : Eave) (e : Nat) : Eave :=
  let lit := fun (l : Nat) => if l = 36 then x.ca else if l = 37 then x.cb
    else (List.range 32).any (fun k => decide (x.laser k = l) && x.isLit k && x.laneOn e k)
  { x with level := (List.range 38).map (fun l => if lit l then (0 : Int) else -128),
           laneUp := if x.outOfRange then 0 else x.litLanes e,
           quiesced := if x.outOfRange then x.litLanes e else 0 }

/-- Send the lane tokens of every lane that is lit (R320, R367). -/
def sendTokens (s : State) (e : Nat) : State :=
  (List.range 32).foldl (fun s k => if (s.eave e).laneUp.getLsbD k then s.record (.laneToken e k) else s) s

/-- The calibration record of an eave in the image in use (Table 13-9). -/
def calibrationOf (s : State) (e : Nat) : List Byte := Config.calibration s.boot.sectionInUse e

/-- Whether an eave's calibration record is there and is the photonic die's own (R366). -/
def calibrated (s : State) (e : Nat) : Bool :=
  let r := calibrationOf s e
  decide (r.length = 4096) && decide (leAt r 0 2 = 1) && decide (leAt r 2 1 = e) && decide (leAt r 4 4 = (Config.photonicSerial e).toNat)

/-- The outcome of a commissioning with its first step's check of the calibration record (R366, Table 13-10). -/
def outcomeOf (s : State) (e : Nat) (o : CommOutcome) : CommOutcome := { o with selfTestOk := o.selfTestOk && calibrated s e }

/-- The binding of a lane by the journal: its newest LASER_BIND record, or, without one, laser k for lane k (log entry 49). -/
def journalBind (s : State) (e k : Nat) : Nat :=
  match s.boot.journal.reverse.find? (fun r => decide (r.type = 0x0008) && decide (leAt r.body 0 1 = e) && decide (leAt r.body 1 1 = k)) with
  | some r => leAt r.body 3 1
  | none => k

/-- Journal the lanes of an eave whose binding is not the one that the journal holds (R364). -/
def bindRecords (s : State) (e reason : Nat) : State :=
  (List.range 32).foldl (fun s k =>
    if journalBind s e k = (s.eave e).laser k then s else bindRecord s e k (journalBind s e k) ((s.eave e).laser k) reason) s

/-- The outcome of a commissioning takes effect: the eave applies its map, its lanes send tokens, and where discovery has passed its sweep
already it goes on for this eave (R367, R368). REASON is 2 where a command commissions, 0 at boot (log entry 49). -/
def commissioned (s : State) (e reason : Nat) (out : CommOutcome) : State :=
  let o := outcomeOf s e out
  let r := commResult o
  let found := decide (5 ≤ s.fabric.phase) && decide (r ≠ 2)
  let s := s.modEave e (fun x =>
    let y := { x with
      st := if r = 0 then .up else if r = 1 then .degraded else .failed,
      ca := o.selfTestOk && o.caOk, cb := o.selfTestOk && o.cbOk, ctlLost := 0, ctlDown := 0,
      bind := if o.selfTestOk then bindingOf o.laserGood else List.replicate 32 255,
      badSpare := BitVec.ofNat 4 (((List.range 4).map (fun i => if o.laserGood.getLsbD (32 + i) then 0 else 2 ^ i)).sum),
      radix := if found then radixOf (courseOf e) else x.radix,
      offLaser := [], arms := [], recover := [], fadeWait := [], averages := [], matched := 0, commEpoch := s.epoch }
    y.light e)
  let s := bindRecords s e reason
  let s := if r = 2 then s else
    { s with boot := { s.boot with failures := s.boot.failures.filter (fun f => !(decide (f.step = 7) && decide (f.item = e))) } }
  let s := eaveChanged (applyPending (sendTokens s e) e) e
  if found then sendToken s 2 [courseOf e] [ownEntry s] else s

/-- Take an eave's data lanes down before a commissioning or a sweep: credit is withheld on every one, the frames they hold go another way,
and the control lanes stay up; armed spares are released, and the keep eave of a drawn pair becomes the next that is up (R368). -/
def takeLanesDown (s : State) (e : Nat) (st : EaveSt) : State :=
  let s := dropRx (eaveLanesDown (s.modEave e (fun x => { x with pendingDown := some st })) e) e
  let s := s.modEave e (fun x => { (x.dropArms (fun _ => true)) with
    st := st, prior := x.st, laneUp := 0, matched := 0, quiesced := 0, recover := [], fadeWait := [], pendingDown := none })
  recomputeRoutes (eaveChanged s e)

/-- Whether every frame on an eave's data lanes is acknowledged. -/
def lanesDrained (s : State) (e : Nat) : Bool := (List.range 32).all (fun k => (s.tx (laneChan e k)).unacked.isEmpty)

/-- Withhold credit on an eave's data lanes; they go down once their frames are acknowledged, or when the 1 ms for that is over, which the
end of the command's action shows (R368; log entry 49). -/
def withholdLanes (s : State) (e : Nat) (st : EaveSt) : State :=
  let t := s.modEave e (fun x => { x with pendingDown := some st })
  if lanesDrained t e then takeLanesDown t e st else t

/-- An eave whose lanes wait to go down takes them down now. -/
def finishDown (s : State) (e : Nat) : State :=
  match (s.eave e).pendingDown with
  | some st => takeLanesDown s e st
  | none => s

/-! ### EAVE_STATUS (R369) -/

def EaveSt.code : EaveSt → Nat
  | .off => 0 | .commissioning => 1 | .up => 2 | .degraded => 3 | .failed => 4 | .sweeping => 5

/-- The lanes from which credit is withheld: those quiesced, and every lane that is on while the eave has no link to a die, is out of its
range, or drains its lanes (R24, R355, R368). -/
def Eave.withheldLanes (x : Eave) (e : Nat) : BitVec 32 :=
  if x.linksDown || x.outOfRange || x.pendingDown.isSome then x.quiesced ||| x.litLanes e else x.quiesced

/-- The eave status record (Table 13-11); `tdrv` is the driver die's temperature, which nothing in the model measures. -/
def eaveRecord (s : State) (e : Nat) (tdrv : Nat) : List Byte :=
  let x := s.eave e
  leBytes 1 e ++ leBytes 1 x.st.code ++ leBytes 1 (courseOf e) ++ leBytes 1 (planeOf e) ++ leBytes 1 x.radix ++
  leBytes 1 (b2n (s.ctlOn e 0) + 2 * b2n (s.ctlOn e 1) + 4 * b2n x.caRx + 8 * b2n x.cbRx + 16 * b2n x.sideband) ++
  leBytes 1 (((List.range 4).map (fun i => if x.spareFree i then 2 ^ i else 0)).sum) ++ leBytes 1 (duplicateOf e) ++
  leBytes 4 (match x.map with | some m => m.mapId.toNat | none => 0) ++ leBytes 2 (ofInt 16 x.tempPhot) ++ leBytes 2 tdrv ++
  leBytes 4 x.laneUp.toNat ++ leBytes 4 x.matched.toNat ++ leBytes 4 (x.withheldLanes e).toNat ++
  leBytes 4 (((List.range 32).map (fun k => if x.arms.any (fun a => decide (a.lane = k) && a.locked) then 2 ^ k else 0)).sum) ++
  (List.range 32).flatMap (fun k => leBytes 1 (x.laser k)) ++
  (List.range 38).flatMap (fun l => leBytes 1 (ofInt 8 ((x.level[l]?).getD (-128)))) ++ leBytes 2 0 ++
  leBytes 2 x.swaps ++ leBytes 2 x.fails ++ leBytes 4 x.relocks ++ leBytes 4 x.resent ++ leBytes 4 x.downs ++
  leBytes 4 x.commEpoch.toNat ++ leBytes 4 0

/-- The form checks of a command on one eave (R107, R114). -/
def eaveForm (s : State) (eave : Byte) (fits : Bool) : Option Status :=
  if 7 < eave.toNat || !fits then some .badParam else if s.boot.gradeB then some .engineFused else none

def eaveStatusNow (h : Hdr) (eave : Byte) : Nat → State → State :=
  runModule (.eaveStatus h eave) (fun s _ => eaveForm s eave true) noObjects (fun s id _ =>
    let f := s.fresh
    finishModule f.2 id (.eaveStatus h eave) .ok (eaveRecord s eave.toNat (f.1.toNat % 65536)))

/-- EAVE_STATUS (R108, R369). -/
def execEaveStatus (h : Hdr) (eave : Byte) (s : State) : Out := .next (submit (.eaveStatus h eave) (eaveStatusNow h eave) s)

/-! ### EAVE_COMMISSION, EAVE_SWEEP (R368) -/

def eaveCommissionNow (h : Hdr) (eave : Byte) : Nat → State → State :=
  let c := Instr.eaveCommission h eave
  runModule c (fun s _ => eaveForm s eave true) noObjects (fun s id _ =>
    if (s.eave eave.toNat).st = .off then finishModule s id c .linkDown []
    else holdModule (withholdLanes s eave.toNat .commissioning) id c .ok [])

/-- EAVE_COMMISSION starts a commissioning; its outcome comes as COMMAND_ACTION_COMPLETE (R108, R367, R368). -/
def execEaveCommission (h : Hdr) (eave : Byte) (s : State) : Out :=
  .next (submit (.eaveCommission h eave) (eaveCommissionNow h eave) s)

def eaveSweepNow (h : Hdr) (mask : Byte) : Nat → State → State :=
  let c := Instr.eaveSweep h mask
  runModule c (fun s _ => if s.boot.gradeB then some .engineFused else none) noObjects (fun s id _ =>
    let es := (List.range 8).filter (fun e => mask.getLsbD e && (decide ((s.eave e).st = .up) || decide ((s.eave e).st = .degraded)))
    holdModule (es.foldl (fun s e => withholdLanes s e .sweeping) s) id c .ok (leBytes 1 es.length))

/-- EAVE_SWEEP starts a sweep of the named eaves that are up; its answers come as COMMAND_ACTION_COMPLETE (R368). -/
def execEaveSweep (h : Hdr) (mask : Byte) (s : State) : Out := .next (submit (.eaveSweep h mask) (eaveSweepNow h mask) s)

/-- The sweep of one eave ends: what answered is recorded, R344 is applied, and the eave is up again under its map (R368). -/
def swept (s : State) (e : Nat) (answers : List (Nat × W32)) : State :=
  let s := s.modEave e (fun x => (({ x with st := x.prior, miswired := false } : Eave).found e answers).light e)
  match (s.eave e).offsets.find? (fun a => decide (a.1 ≠ 0) && !wiredRight s e a.1 a.2) with
  | some a => miswireEave s e a.2
  | none => eaveChanged (applyPending (sendTokens s e) e) e

/-! ### MONITOR_READ (R358) -/

/-- Effective bits times 10 for an integration time (Table 13-6). -/
def effectiveBits (us : Nat) : Nat :=
  if us < 10 then 74 else if us < 100 then 90 else if us < 1000 then 106 else if us < 10000 then 119 else 125

def monitorReadNow (h : Hdr) (eave laser : Byte) (integ : W32) : Nat → State → State :=
  let c := Instr.monitorRead h eave laser integ
  runModule c
    (fun s _ => eaveForm s eave (decide (laser.toNat ≤ 37) && decide (1 ≤ integ.toNat) && decide (integ.toNat ≤ 10000)))
    noObjects (fun s id _ => holdModule s id c .ok [])

/-- MONITOR_READ integrates a laser's monitor; its reading comes as COMMAND_ACTION_COMPLETE (R358). -/
def execMonitorRead (h : Hdr) (eave laser : Byte) (integUs : W32) (s : State) : Out :=
  .next (submit (.monitorRead h eave laser integUs) (monitorReadNow h eave laser integUs) s)

/-- The payload of MONITOR_READ: an unlit laser reads 0. -/
def monitorPayload (s : State) (eave laser : Byte) (integ : W32) (value : W16) : List Byte :=
  let lit := decide (((s.eave eave.toNat).level[laser.toNat]?).getD (-128) ≠ -128)
  leBytes 2 (if lit then value.toNat else 0) ++ leBytes 1 (effectiveBits integ.toNat)

/-! ### LASER_SWAP (R364) and the steps of a swap (Table 13-8) -/

def laserSwapNow (h : Hdr) (eave lane spare : Byte) : Nat → State → State :=
  let c := Instr.laserSwap h eave lane spare
  runModule c (fun s _ => eaveForm s eave (decide (lane.toNat ≤ 31) && decide (spare.toNat ≤ 3))) noObjects (fun s id _ =>
    let e := eave.toNat
    let k := lane.toNat
    let i := spare.toNat
    let x := s.eave e
    if !x.isUp then finishModule s id c .linkDown []
    else if (x.armOf k).isSome then finishModule s id c .badState []
    else if !x.spareFree i then finishModule s id c .badParam []
    else if x.laneOn e k then
      holdModule (s.modEave e (fun x => { x with arms := x.arms ++ [⟨k, i, false, true, 2⟩] })) id c .ok []
    else
      let old := x.laser k
      let s := s.modEave e (fun x => { x with bind := listSet x.bind k (32 + i),
                                              offLaser := if old = 255 then x.offLaser else x.offLaser ++ [old] })
      finishModule (bindRecord s e k old (32 + i) 2) id c .ok [])

/-- LASER_SWAP moves a lane to a named spare; its reply follows SWAP_COMPLETE (R108, R364). -/
def execLaserSwap (h : Hdr) (eave lane spare : Byte) (s : State) : Out :=
  .next (submit (.laserSwap h eave lane spare) (laserSwapNow h eave lane spare) s)

/-- SPARE_LOCKED: the armed spare is on the lane's slot; a lane that is to move is quiesced (R360, R361). -/
def execSpareLocked (e : EaveIx) (spare : Fin 4) (s : State) : Out :=
  .next (
    match (s.eave e).arms.find? (fun a => decide (a.spare = spare.val) && !a.locked) with
    | none => s
    | some a => s.modEave e (fun x =>
        let y := (x.modArm a.lane (fun b => { b with locked := true })).setLevel (32 + spare.val) 0
        if a.moving then y.quiesce a.lane true else y))

/-- A spare that did not lock, or faded while armed, is bad; the next free good spare is armed in its place (R363). A lane that must
move and finds none is retired, one that only fades waits first, since it crossed first; the lane of a LASER_SWAP keeps its laser, and the command returns `LINK_DOWN` (log entry 50). -/
def spareFails (s : State) (e : Nat) (a : Arm) : State :=
  let s := s.modEave e (fun x =>
    { (x.disarm a.lane) with badSpare := x.badSpare ||| BitVec.ofNat 4 (2 ^ a.spare) })
  if a.reason = 2 ∧ (s.eave e).nextSpare = none then
    applyPending (swapReply (s.modEave e (fun x => x.quiesce a.lane (!x.laneUp.getLsbD a.lane))) e a.lane .linkDown) e
  else
    let s := armLane s e a.lane a.moving a.reason
    if (s.eave e).fadeWait.contains a.lane then s.modEave e (fun x => { x with fadeWait := a.lane :: (x.unwait a.lane).fadeWait }) else s

/-- SPARE_LOCK_TIMEOUT: the spare has not locked within 1.2 ms (R363). -/
def execSpareLockTimeout (e : EaveIx) (spare : Fin 4) (s : State) : Out :=
  .next (
    match (s.eave e).arms.find? (fun a => decide (a.spare = spare.val) && !a.locked) with
    | none => s
    | some a => spareFails s e a)

/-- SWAP_COMPLETE: the lane carries frames on the new laser; held frames are resent, the LASER event and the journal record are
written, and a LASER_SWAP of the lane is replied to (R360, R361, R364). While the lane has lost its lock the swap waits (R370). -/
def execSwapComplete (e : EaveIx) (lane : LaneIx) (s : State) : Out :=
  .next (
    let x := s.eave e
    match x.armOf lane with
    | none => s
    | some a =>
      let old := x.laser lane
      let unlocked := x.outOfRange || (decide (old ≠ 255) && x.laneOn e lane && !x.laneUp.getLsbD lane)
      if !a.moving || !a.locked || unlocked then s
      else
        let new := 32 + a.spare
        let s := s.modEave e (fun x =>
          let y := ((x.unwait lane).setLevel old (-128)).quiesce lane false
          { y with bind := listSet y.bind lane new, laneUp := setLane y.laneUp lane true,
                   offLaser := if old = 255 then y.offLaser else y.offLaser ++ [old],
                   averages := KMap.del y.averages old, recover := KMap.del y.recover lane,
                   arms := y.arms.filter (fun b => decide (b.lane ≠ lane.val)),
                   swaps := if a.reason = 3 then y.swaps else (y.swaps + 1) % 65536 })
        let s := bindRecord s e lane old new a.reason
        let ch := laneChan e lane
        let s := if (s.tx ch).up then serveChan (resendAll s ch) ch else s.record (.laneToken e lane)
        let s := s.moduleEvent 0x0B08 4 .ok
          [BitVec.ofNat 8 e.val, BitVec.ofNat 8 lane.val, BitVec.ofNat 8 old, BitVec.ofNat 8 new, BitVec.ofNat 8 a.reason]
        eaveChanged (applyPending (swapReply s e lane .ok) e) e)

/-! ### The fade watcher (R359 to R363)

An average `a` of a laser stands at the level 10 log10(a / REF), with REF of its calibration record. Each comparison of a level is
taken between whole numbers, where it is exact: for n tenths of a decibel, `10 ^ n * a ^ 100 < r ^ 100` says that a / r lies below
-n / 10 dB. -/

/-- Whether `a` lies more than `n` tenths of a decibel below `r`. -/
def belowBy (n a r : Nat) : Bool := decide (10 ^ n * a ^ 100 < r ^ 100)

/-- The level of an average in the 0.1 dB of LEVEL, to the nearest; a lit laser reads at least -12.7 dB (log entry 77). -/
def levelOf (a r : Nat) : Int :=
  match (List.range 255).find? (fun i => if i < 127 then decide (r ^ 200 * 10 ^ (2 * (127 - i) - 1) ≤ a ^ 200)
      else decide (r ^ 200 ≤ a ^ 200 * 10 ^ (2 * (i - 127) + 1))) with
  | some i => 127 - i
  | none => -127

/-- Whether the fit over the last five averages, newest first, falls by more than 0.05 dB per 100 µs (R359, R361): the sum of
(i - 2) times the level of the i-th lies below -0.5 dB. -/
def fastFade : List Nat → Bool
  | [e, d, c, b, a] => decide (0 < c) && belowBy 5 (d * e ^ 2) (b * a ^ 2)
  | _ => false

/-- The failure of a laser: its last averages drop by 0.5 dB or more, or the fit is faster than 0.5 dB/ms (R361). -/
def laserFailed (l : List Nat) : Bool :=
  fastFade l || (match l with | v :: p :: _ => decide (0 < p) && decide (10 ^ 5 * v ^ 100 ≤ p ^ 100) | _ => false)

/-- Whether the last two averages lie beyond a threshold of `n` tenths of a decibel below REF (R359). -/
def crossed (n r : Nat) : List Nat → Bool
  | v :: p :: _ => belowBy n v r && belowBy n p r
  | _ => false

/-- REF of a laser (Table 13-9). -/
def laserRef (s : State) (e l : Nat) : Nat := leAt (calibrationOf s e) (16 + 96 * l) 2

/-- A lane's laser fades or fails (R360, R361, R363); `l` are its last averages, newest first. A failure of the laser also overtakes a
move that waits for its spare. -/
def fadeLane (s : State) (e k : Nat) (l : List Nat) : State :=
  let x := s.eave e
  let r := laserRef s e (x.laser k)
  let arm := x.armOf k
  let move := fun (reason : Option Nat) (s : State) =>
    s.modEave e (fun x => x.modArm k (fun a => { a with moving := true, reason := reason.getD a.reason }))
  if arm.any (fun a => a.moving && decide (a.reason = 3)) then s
  else if laserFailed l then
    let s := s.modEave e (fun x => { (x.quiesce k true) with fails := (x.fails + 1) % 65536 })
    if arm.isSome then move (some 3) s else armLane s e k true 3
  else if arm.any (·.moving) then s
  else if crossed 20 r l then
    let s := s.modEave e (fun x => x.quiesce k true)
    if arm.isSome then move none s else armLane s e k true 1
  else if arm.isNone then (if crossed 10 r l then armLane s e k false 1 else s.modEave e (fun x => x.unwait k))
  else if r ^ 100 < 10 ^ 5 * (l.headD 0) ^ 100 then
    let n := KMap.get 0 x.recover k + 1
    if 100 ≤ n then s.modEave e (fun x => x.disarm k) else s.modEave e (fun x => { x with recover := KMap.ins x.recover k n })
  else s.modEave e (fun x => { x with recover := KMap.del x.recover k })

/-- Take in one laser's average. -/
def Eave.average (x : Eave) (l : Nat) (v r : Nat) : Eave :=
  if (x.level[l]?).getD (-128) = -128 then x
  else { (x.setLevel l (levelOf v r)) with averages := KMap.ins x.averages l ((v :: KMap.get [] x.averages l).take 5) }

/-- FADE_AVERAGE: the 100 µs averages of an eave's lit lasers. Armed spares that fade go first. Then come the lanes that already wait
for a spare, in the order in which they crossed, and the others in ascending order, so the lower lane has the spare where two cross
together (R359 to R363). -/
def execFadeAverage (e : EaveIx) (averages : List (LaserIx × W16)) (s : State) : Out :=
  .next (
    let s := averages.foldl (fun s a => s.modEave e (fun x => x.average a.1 a.2.toNat (laserRef s e a.1))) s
    let fresh := fun (l : Nat) => averages.any (fun a => decide (a.1.val = l))
    let spent := (s.eave e).arms.filter (fun a => fresh (32 + a.spare) &&
      crossed 10 (laserRef s e (32 + a.spare)) (KMap.get [] (s.eave e).averages (32 + a.spare)))
    let s := spent.foldl (fun s a => if (s.eave e).arms.contains a then spareFails s e a else s) s
    let waits := (s.eave e).fadeWait
    (waits ++ (List.range 32).filter (fun k => !waits.contains k)).foldl (fun s k =>
      let x := s.eave e
      let l := x.laser k
      if !x.isUp || decide ((x.level[l]?).getD (-128) = -128) then s
      else if fresh l then fadeLane s e k (KMap.get [] x.averages l)
      else if x.fadeWait.contains k then armLane s e k false 1 else s) s)

/-! ### Locks (R355, R356) -/

/-- What follows where a change has made an eave's data lanes up or down (R32). -/
def dataChanged (old : State) (e : Nat) (s : State) : State := if (s.eave e).dataUp = (old.eave e).dataUp then s else eaveChanged s e

/-- LOCK_LOST: a lane is quiesced at once; its unacknowledged frames stay held. Of a control lane the frames meanwhile go on the duplicate
eave (R351, R356). -/
def execLockLost (e : EaveIx) (lane : Fin 34) (s : State) : Out :=
  .next (
    if 32 ≤ lane.val then
      if s.ctlUp e (lane - 32) then s.modEave e (fun x => { x with ctlLost := setLane x.ctlLost (lane - 32) true }) else s
    else if (s.eave e).laneUp.getLsbD lane then
      dataChanged s e (s.modEave e (fun x => { (x.quiesce lane true) with laneUp := setLane x.laneUp lane false }))
    else s)

/-- Whether a lane has lost its lock and could regain it. -/
def Eave.lockable (x : Eave) (e k : Nat) : Bool := x.isLit k && x.laneOn e k && !x.laneUp.getLsbD k && !x.outOfRange

/-- A lane is locked again. A lane that is about to move stays quiesced (R370). -/
def Eave.relocked (x : Eave) (k : Nat) : Eave :=
  let still := x.arms.any (fun a => decide (a.lane = k) && a.moving)
  { x with laneUp := setLane x.laneUp k true, quiesced := setLane x.quiesced k still, relocks := (x.relocks + 1) % 2 ^ 32 }

/-- A control lane is locked again. -/
def Eave.ctlRelocked (x : Eave) (c : Nat) : Eave :=
  { x with ctlLost := setLane x.ctlLost c false, ctlDown := setLane x.ctlDown c false, relocks := (x.relocks + 1) % 2 ^ 32 }

/-- RELOCK: a quiesced lane is locked again within 200 µs and resends from LACK + 1 (R356). -/
def execRelock (e : EaveIx) (lane : Fin 34) (s : State) : Out :=
  .next (
    if 32 ≤ lane.val then
      if s.ctlOn e (lane - 32) && (s.eave e).ctlLost.getLsbD (lane - 32) then
        resendAll (s.modEave e (fun x => x.ctlRelocked (lane - 32))) (chanOf e lane)
      else s
    else if (s.eave e).lockable e lane then
      let s := dataChanged s e (s.modEave e (fun x => x.relocked lane))
      if (s.tx (laneChan e lane)).up then serveChan (resendAll s (laneChan e lane)) (laneChan e lane) else s
    else s)

/-- RELOCK_RETRY: a lane that is down tries every 10 ms; on success it sends its token again, with a LINK event (R356). -/
def execRelockRetry (e : EaveIx) (lane : Fin 34) (ok : Bool) (s : State) : Out :=
  .next (
    if 32 ≤ lane.val then
      if ok && (s.eave e).ctlDown.getLsbD (lane - 32) then
        linkEvent ((s.modEave e (fun x => x.ctlRelocked (lane - 32))).record (.laneToken e lane)) 2 e lane 1
      else s
    else if ok && (s.eave e).lockable e lane && !(s.tx (laneChan e lane)).up then
      linkEvent (dataChanged s e ((s.modEave e (fun x => x.relocked lane)).record (.laneToken e lane))) 2 e lane 1
    else s)

/-- PHOTONIC_TEMPERATURE_RANGE: outside 35 to 85 °C the heaters cannot hold the rings: every data lane is quiesced and unlocked, and a
THERMAL event written, once each time the die leaves the range (R355); the sensor takes part in the trip (R440). -/
def execPhotonicTemperatureRange (e : EaveIx) (temp : Int) (s : State) : Out :=
  .next (
    let x := s.eave e
    let out := decide (temp < 560) || decide (1360 < temp)
    let s := s.modEave e (fun x => { x with tempPhot := temp, outOfRange := out })
    let s :=
      if out && s.eavePowered e && !x.outOfRange then
        let s := s.modEave e (fun x => { x with quiesced := x.quiesced ||| x.litLanes e, laneUp := 0 })
        eaveChanged (s.moduleEvent 0x0B0B 6 .thermalLimit (leBytes 2 (ofInt 16 temp) ++ [3])) e
      else if out then s else eaveChanged s e
    s.tripCheck (276 + e.val) temp)

/-- The state that a fixed laser's failure leaves an eave in: degraded, now or after the sweep that runs (R365). -/
def Eave.degrade (x : Eave) : Eave :=
  { x with st := if x.st = .up then .degraded else x.st, prior := if x.st = .sweeping ∧ x.prior = .up then .degraded else x.prior }

/-- FIXED_LASER_FAIL: CA or CB fails; when both have failed, control leaves through the sideband (R365). -/
def execFixedLaserFail (e : EaveIx) (cb : Bool) (s : State) : Out :=
  .next (
    let x := s.eave e
    if (if cb then x.cb else x.ca) = false then s
    else
      let s := s.modEave e (fun x =>
        (if cb then { (x.setLevel 37 (-128)) with cb := false } else { (x.setLevel 36 (-128)) with ca := false } : Eave).degrade)
      let s := s.judgeSideband
      if (s.eave e).ca || (s.eave e).cb then s else linkEvent s 1 e 0 2)

/-- EAVE_LINKS_DOWN: the network domains of both dies of an eave are down, and with them both its links: its data lanes are quiesced and
its control goes through the sideband (R24, R352). -/
def execEaveLinksDown (e : EaveIx) (s : State) : Out :=
  .next (if s.eavePowered e && eaveCut s e then eaveChanged (linksLost s e) e else s)

/-! ### DOMAIN_SET (R109, R110, R337) -/

/-- The channels of a domain: a copper course, or the lanes of an eave. -/
def domainChans (d : Nat) : List Nat := if d < 8 then (List.range 34).map (chanOf d) else [d - 8]

/-- An eave whose domain is off: armed spares are released, nothing is lit (R370). -/
def Eave.off (x : Eave) : Eave :=
  { x with st := .off, ca := false, cb := false, caRx := false, cbRx := false, ctlLost := 0, ctlDown := 0, laneUp := 0, matched := 0,
           quiesced := 0, level := List.replicate 38 (-128), arms := [], recover := [], fadeWait := [], averages := [], draining := false,
           pendingDown := none }

/-- Set the power state of a copper course's domain (R426). -/
def State.setCourse (s : State) (c : Nat) (d : Dom) : State := { s with pow := { s.pow with copper := s.pow.copper.setIfInBounds c d } }

/-- The state with a domain taken as down, before anything else changes (R337). -/
def domainDown (s : State) (d : Nat) : State :=
  let s := (domainChans d).foldl dropTx s
  if d < 8 then ((dropRx s d).modEave d Eave.off).judgeSideband
  else (s.modCopper (d - 8) (fun x => { x with trained := false })).setCourse (d - 8) .off

/-- Whether every member pair of every allotment has a route. -/
def allPairsRouted (s : State) : Bool :=
  s.allots.all (fun e => e.2.members.all (fun p => e.2.members.all (fun q =>
    decide (p = q) || !(candidates s (fun b => e.2.members.contains b) p q).isEmpty)))

/-- A drained domain powers off: the peers that it alone reached are told of, and drawn pairs and routes go another way (R337). -/
def powerOff (s : State) (d : Nat) : State :=
  let ends := (domainChans d).filterMap (fun ch => if s.txUp ch then (farEnd s ch).map (fun p => (ch, p)) else none)
  let s := domainDown s d
  let s := ends.foldl (fun s c =>
    if decide (261 ≤ c.1) || hopUp s (chanCourse c.1) s.fabric.address c.2 || s.fabric.downs.contains (chanCourse c.1, s.fabric.address, c.2)
    then s else bundleGone s c.1 c.2 []) s
  recomputeRoutes (if d < 8 then redraw s (courseOf d) else s)

/-- Whether a domain waits for its channels to drain. -/
def isDraining (s : State) (d : Nat) : Bool := if d < 8 then (s.eave d).draining else decide (s.courseDom (d - 8) = .sleeping)

/-- Whether a domain's channels hold no frame any more. -/
def drained (s : State) (d : Nat) : Bool := (domainChans d).all (fun ch => (s.tx ch).unacked.isEmpty)

/-- Eaves whose data lanes have drained take them down (R368); domains that have drained power off, and their DOMAIN_SET is replied to. -/
def finishDrains (s : State) : State :=
  let s := (List.range 8).foldl (fun s e => if lanesDrained s e then finishDown s e else s) s
  (List.range 13).foldl (fun s d => if isDraining s d && drained s d then finishHeld (powerOff s d) (.drain d) else s) s

/-- Begin to turn a domain off: routes switch, and its channels take no more frames (R337). -/
def startDrain (s : State) (d : Nat) : State :=
  recomputeRoutes (if d < 8 then s.modEave d (fun x => { x with draining := true }) else s.setCourse (d - 8) .sleeping)

/-- Whether a domain is on. -/
def domainIsOn (s : State) (d : Nat) : Bool :=
  if d < 8 then s.eavePowered d && !(s.eave d).draining
  else decide (s.courseDom (d - 8) ≠ .off) && decide (s.courseDom (d - 8) ≠ .sleeping)

def domainSetNow (h : Hdr) (domain on : Byte) : Nat → State → State :=
  let c := Instr.domainSet h domain on
  let d := domain.toNat
  runModule c
    (fun s _ =>
      if 12 < d ∨ 1 < on.toNat then some .badParam
      else if s.boot.gradeB && (decide (d ≤ 7) || decide (10 ≤ d)) then some .engineFused else none)
    noObjects
    (fun s id _ =>
      if domainIsOn s d = decide (on = 1) then finishModule s id c .ok []
      else if on = 0 then
        if allPairsRouted (domainDown s d) then finishDrains (holdFor (.drain d) (startDrain s d) id c .ok []) else finishModule s id c .noRoute []
      else if d < 8 then holdModule (s.modEave d (fun x => { x with st := .commissioning, draining := false })) id c .ok []
      else holdModule (s.setCourse (d - 8) .powering) id c .ok [])

/-- DOMAIN_SET (R110, R337): an eave turned on is commissioned before the reply, and a course turned on trains (R426); a domain
turned off is replied to once its channels have drained and it is off. -/
def execDomainSet (h : Hdr) (domain on : Byte) (s : State) : Out :=
  .next (submit (.domainSet h domain on) (domainSetNow h domain on) s)

/-! ### Rows of channels -/

/-- LINK_FRAME_RECEIVE (R324, R326, R327). -/
def execLinkFrameReceive (ch rev : Nat) (f : LinkFrame) (s : State) : Out := .next (finishDrains (receiveFrame s ch rev f))

/-- CHANNEL_DOWN: 2 ms without progress (R323, R326, R335). -/
def execChannelDown (ch : Nat) (s : State) : Out := .next (finishDrains (dataChanged s (laneAt ch).1 (declareDown s ch)))

end Sys2Proof.Machine
end

