-- ==== Sys2Proof/Machine/Security.lean ====
section
/-!
DEFINITION. The security and maintenance commands (R111, R112, chapter 17).
-/

namespace Sys2Proof.Machine

/-- The anti-rollback counter (Table 17-2). -/
def rollbackCounter (s : State) : Nat := 64 - s.boot.rollbackLeft

/-- The measurement chain over the six measurements (R449). -/
def measChain (meas : List (BitVec 256)) : BitVec 256 :=
  meas.foldl (fun h m => Config.sm3 (hashBytes h ++ hashBytes m)) 0

/-- The attestation report without its signature: bytes 16 to 343 of the reply (Table 17-4). -/
def attestBody (s : State) (nonce : List Byte) : List Byte :=
  leBytes 2 1 ++ leBytes 1 (b2n s.boot.gradeB) ++ leBytes 1 s.boot.inUse ++ leBytes 4 (fwVersionInUse s).toNat ++
  [fplInUse s, svnInUse s] ++ leBytes 1 (rollbackCounter s) ++ [0] ++ leBytes 4 s.epoch.toNat ++ leBytes 8 s.ticks.toNat ++
  leBytes 8 (fusebudgetReg s) ++ leBytes 8 Config.fabricId.toNat ++ nonce ++ s.boot.meas.flatMap hashBytes ++
  hashBytes (measChain s.boot.meas) ++ hashBytes Config.keyHash

def attestNow (h : Hdr) (nonce : List Byte) : Nat → State → State :=
  runModule (.attest h nonce) noForm noObjects (fun s id _ =>
    let b := attestBody s nonce
    finishModule s id (.attest h nonce) .ok (b ++ leBytes 64 (Config.sm2Sign b).toNat))

/-- ATTEST returns the signed report (R450). -/
def execAttest (h : Hdr) (nonce : List Byte) (s : State) : Out := .next (submit (.attest h nonce) (attestNow h nonce) s)

def certReadNow (h : Hdr) : Nat → State → State :=
  runModule (.certRead h) noForm noObjects (fun s id _ => finishModule s id (.certRead h) .ok ((Config.certificate s.boot.sectionInUse).take 4096))

/-- CERT_READ returns the identity certificate (R445). -/
def execCertRead (h : Hdr) (s : State) : Out := .next (submit (.certRead h) (certReadNow h) s)

/-! ### Images -/

/-- Bytes of a slot image (R451): 56 MiB. -/
def slotSize : Nat := 58720256

/-- Where the two copies of the journal begin in the primary flash device, behind slots A and B (Table 17-5). -/
def journalBase (second : Bool) : Nat := if second then 0x7800000 else 0x7000000

/-- Bytes of a copy's boot-step area, and of each of its halves (R462). -/
def journalArea : Nat := 65536
def journalHalfBytes : Nat := 4161536

/-- The byte at an offset of a journal copy, where a record has been written (R462). -/
def JCopy.byteAt (c : JCopy) (off : Nat) : Option Byte :=
  if off < journalArea then (KMap.look c.area (off / 128 + 1)).bind (fun r => r.bytes[off % 128]?)
  else
    let o := off - journalArea
    if o / journalHalfBytes = b2n c.second then (c.recs[o % journalHalfBytes / 128]?).bind (fun r => r.bytes[o % 128]?) else none

/-- The byte at an offset of the primary flash device, where a command or the journal has written it (Table 17-5). -/
def Boot.flashByte (b : Boot) (off : Nat) : Option Byte :=
  if off < slotSize then KMap.look b.slotA.bytes off
  else if off < 2 * slotSize then KMap.look b.slotB.bytes (off - slotSize)
  else if off < journalBase true then b.copyA.byteAt (off - journalBase false)
  else b.copyB.byteAt (off - journalBase true)

/-- The staging slot: the slot that did not last reach release (R453); between an activation and its restart, the slot just left (Table
17-8). -/
def stagingSlot (b : Boot) : Nat := if b.trial = some 0 then 1 - b.chosen else 1 - b.lastReleased

/-- Write bytes that are not yet written. -/
def programBytes (m : KMap Byte) (off : Nat) : List Byte → KMap Byte
  | [] => m
  | b :: t => programBytes (KMap.ins m off b) (off + 1) t

/-- The staging slot a FW_STAGE writes into: erased first at OFFSET 0 (R453). -/
def stageSlot (b : Boot) (off : Nat) : Slot := if off = 0 then Slot.blank else b.slot (stagingSlot b)

/-- Whether any byte of a range of a slot has been written since the last erase. -/
def slotWritten (x : Slot) (off n : Nat) : Bool :=
  !x.erased || x.bytes.any (fun e => decide (off ≤ e.1) && decide (e.1 < off + n))

def fwStageNow (h : Hdr) (off : W32) (data : List Byte) : Nat → State → State :=
  runModule (.fwStage h off data)
    (fun s _ =>
      if data.length < 16 ∨ 32768 < data.length ∨ slotSize < off.toNat + data.length then some .badParam
      else if slotWritten (stageSlot s.boot off.toNat) off.toNat data.length then some .badParam
      else if off.toNat % 16 ≠ 0 ∨ data.length % 16 ≠ 0 then some .alignFault else none)
    noObjects
    (fun s id _ =>
      let x := stageSlot s.boot off.toNat
      let s := { s with boot := s.boot.setSlot (stagingSlot s.boot) { x with bytes := programBytes x.bytes off.toNat data } }
      holdModule s id (.fwStage h off data) .ok [])

/-- FW_STAGE writes a piece of an image into the staging slot; OFFSET 0 erases it first; the reply follows the programming, as
COMMAND_ACTION_COMPLETE (R453). -/
def execFwStage (h : Hdr) (offset : W32) (data : List Byte) (s : State) : Out :=
  .next (submit (.fwStage h offset data) (fwStageNow h offset data) s)

/-- Whether any reed of the module is RUNNING, PAUSED or DRAINING (R112). -/
def State.anyBusy (s : State) : Bool := s.sheaves.any (fun e => e.2.busyCensus)

/-- The running image's module section is copied into a slot (R454, step 1). -/
def copySection (s : State) (slot : Nat) : State :=
  { s with boot := s.boot.setSlot slot { s.boot.slot slot with moduleSection := some s.boot.sectionInUse } }

/-- Whether a section stands: its bytes have the SM3 hash that its header carries, and its signature verifies under the key with a hash
(R452). -/
def sectionGood (key : BitVec 256) (header body signature : List Byte) : Bool :=
  decide (Config.headerHash header = Config.sm3 body) && Config.sm2Accepts key (header ++ body) signature

/-- Whether the three sections of an image stand: the release section under Marbeant's release key, the module section, bound to KEY_HASH,
under the manufacturing key, and the site section under the owner key in KEY_SLOT (R452). -/
def sectionsGood (s : State) (i : Nat) : Bool :=
  let m := slotBytes s.boot i
  let good := fun (key : BitVec 256) (k : Nat) =>
    sectionGood key (Config.sectionHeader i k m) (Config.sectionBody i k m) (Config.sectionSignature i k m)
  good Config.releaseKeyHash 0 && good s.ownerHash 2 &&
  (match (s.boot.slot i).moduleSection with
   | none => false
   | some k => sectionGood Config.makerKeyHash (Config.moduleHeader k) (Config.moduleBody k) (Config.moduleSignature k) &&
       decide (Config.boundKey k = Config.keyHash))

/-- Whether a slot's image passes its hashes and signatures: an erased slot, and one that a loss of power left partly written, does not
(R452, R464). -/
def slotVerifies (s : State) (slot : Nat) : Bool :=
  let x := s.boot.slot slot
  !x.cut && (!x.erased || !x.bytes.isEmpty) && sectionsGood s slot

/-- A step's slot in the boot-step area of both copies no longer tells of a failure (R421). -/
def Boot.clearArea (b : Boot) (n : Nat) : Boot :=
  { b with copyA := { b.copyA with area := b.copyA.area.filter (fun e => decide (e.1 ≠ n)) },
           copyB := { b.copyB with area := b.copyB.area.filter (fun e => decide (e.1 ≠ n)) } }

/-- FW_ACTIVATE once the staged slot has passed its checks (R454, steps 3 to 5): reserve increments, record the slot on
trial, reply; the restart follows as COMMAND_ACTION_COMPLETE. A failure of the IMAGE step is cleared (R421). -/
def activate (s : State) (id : Nat) (c : Instr) (slot need : Nat) : State :=
  let m := slotBytes s.boot slot
  let s := { s with boot := { s.boot.clearArea 2 with
      rollbackPending := need, chosen := slot, trial := some 0,
      failures := s.boot.failures.filter (fun f => f.step ≠ 2) } }
  let s := s.journalSecurity 0x000C .ok
    (leBytes 1 slot ++ leBytes 4 (Config.fwVersion slot m).toNat ++ [Config.svn slot m, Config.fpl slot m] ++ leBytes 1 need)
  let s := finishModule s id c .ok [BitVec.ofNat 8 slot, Config.fpl slot m]
  { s with lodge := { s.lodge with ops := s.lodge.ops ++ [{ Op.stored id c .port0 (mkReply id c .ok .off []) with
      wait := .action, prepared := none }] } }

def fwActivateNow (h : Hdr) (adv : Byte) : Nat → State → State :=
  runModule (.fwActivate h adv) (fun _ _ => if 1 < adv.toNat then some .badParam else none) noObjects (fun s id _ =>
    let c := Instr.fwActivate h adv
    let slot := stagingSlot s.boot
    let m := slotBytes s.boot slot
    let v := (Config.svn slot m).toNat
    let need := if adv = 1 then v - rollbackCounter s else 0
    if s.anyBusy then finishModule s id c .badState []
    else
      let s := copySection s slot
      if !slotVerifies s slot then finishModule s id c .signatureInvalid []
      else if v < rollbackCounter s then finishModule s id c .rollbackRefused []
      else if s.boot.rollbackLeft < need then finishModule s id c .fuseBudgetExhausted []
      else activate s id c slot need)

/-- FW_ACTIVATE verifies the staged image and puts its slot on trial (R112, R454). -/
def execFwActivate (h : Hdr) (advance : Byte) (s : State) : Out :=
  .next (submit (.fwActivate h advance) (fwActivateNow h advance) s)

/-! ### Fuse operations (R442 to R444) -/

/-- Begin a fuse operation: a FUSE_OP record before the burn, and the new fuse row, which consumes the budget (R444). The
change applies with the row's completion bit, when COMMAND_ACTION_COMPLETE ends the burn; a burn cut short by loss of
power has consumed budget and has no effect. `setting` numbers Table 17-1 from 0; the record's body holds setting,
phase and budget left. -/
def fuseBegin (s : State) (id : Nat) (c : Instr) (setting left : Nat) (spend : Boot → Boot) (payload : List Byte) : State :=
  let s := (s.journalAdd 0x000B .ok (leBytes 1 setting ++ [0] ++ leBytes 1 (left + 1))).1
  holdModule { s with boot := spend s.boot } id c .ok payload

/-- A fuse operation ends: the change applies, the second FUSE_OP record is written, then the reply, and after it the
SECURITY event (R444, R463). -/
def fuseEnd (s : State) (o : Op) (setting left : Nat) (apply : Boot → Boot) : State :=
  let r := ({ s with boot := apply s.boot } : State).journalAdd 0x000B .ok (leBytes 1 setting ++ [1] ++ leBytes 1 left)
  let s := r.1.dropOp o.id
  let s := match cmdOf o.cmd, o.prepared with
    | some (h, _), some k => s.sendReply h o.cmd { k with ustate := s.topAmong (stateScope s o.cmd h) }
    | _, _ => s
  s.moduleEvent 0x0B0F 7 .ok r.2.bytes

/-- An exhausted budget (R112). -/
def exhausted (s : State) (id : Nat) (c : Instr) : State := finishModule s id c .fuseBudgetExhausted []

def repairCommitNow (h : Hdr) : Nat → State → State :=
  runModule (.repairCommit h) noForm noObjects (fun s id _ =>
    let c := Instr.repairCommit h
    let l := s.boot.unfused.take 2048
    if s.boot.repairLeft = 0 then exhausted s id c
    else if l = [] then finishModule s id c .ok (leBytes 4 0)
    else
      let left := s.boot.repairLeft - 1
      fuseBegin s id c 5 left (fun b => { b with repairLeft := left }) (leBytes 4 l.length))

/-- The burn of a repair-map generation ends: the first `n` remaps that were not fused are in it, and RUNTIME reads 0 of its reeds (R53,
R459). -/
def repairCommitEnd (s : State) (o : Op) (n : Nat) : State :=
  let l := s.boot.unfused.take n
  let recs := s.boot.journal.filter (fun r => l.contains r.seq)
  let left := s.boot.repairLeft
  let s := fuseEnd s o 5 left (fun b => { b with unfused := b.unfused.drop n, fusedMap := b.fusedMap ++ recs })
  s.journalSecurity 0x000E .ok
    (leBytes 1 (16 - left) ++ leBytes 4 l.length ++ leBytes 4 ((lowest l).getD 0))

/-- REPAIR_COMMIT fuses the journalled remaps into one new repair-map generation (R459). -/
def execRepairCommit (h : Hdr) (s : State) : Out := .next (submit (.repairCommit h) (repairCommitNow h) s)

def keyRotateNow (h : Hdr) (hash : List Byte) : Nat → State → State :=
  runModule (.keyRotate h hash)
    (fun s _ => if ofLe hash = 0 ∨ BitVec.ofNat 256 (ofLe hash) = s.ownerHash then some .badParam else none) noObjects
    (fun s id _ =>
      let c := Instr.keyRotate h hash
      if s.boot.keyLeft = 0 then exhausted s id c
      else
        let left := s.boot.keyLeft - 1
        fuseBegin s id c 1 left (fun b => { b with keyLeft := left }) (leBytes 1 left))

/-- KEY_ROTATE writes the new owner key hash into the next slot and makes it current (R447). -/
def execKeyRotate (h : Hdr) (hash : List Byte) (s : State) : Out := .next (submit (.keyRotate h hash) (keyRotateNow h hash) s)

def primarySetNow (h : Hdr) (port : Byte) : Nat → State → State :=
  runModule (.primarySet h port) (fun _ _ => if 1 < port.toNat then some .badParam else none) noObjects (fun s id _ =>
    let c := Instr.primarySet h port
    if s.boot.primaryLeft = 0 then exhausted s id c
    else if s.boot.primaryFused = decide (port = 1) then finishModule s id c .ok (leBytes 1 s.boot.primaryLeft)
    else
      let left := s.boot.primaryLeft - 1
      fuseBegin s id c 3 left (fun b => { b with primaryLeft := left }) (leBytes 1 left))

/-- PRIMARY_SET changes the fused primary port, from the next boot on (R402, R444). -/
def execPrimarySet (h : Hdr) (port : Byte) (s : State) : Out := .next (submit (.primarySet h port) (primarySetNow h port) s)

def debugLockNow (h : Hdr) : Nat → State → State :=
  runModule (.debugLock h) noForm noObjects (fun s id _ =>
    let c := Instr.debugLock h
    if s.boot.debugLeft = 0 then exhausted s id c
    else fuseBegin s id c 0 0 (fun b => { b with debugLeft := 0 }) [])

/-- What the test access port can reach (R448). -/
inductive TapTarget | boundaryScan | scanChains | sram | lodgeControllers | fuseSense
  deriving DecidableEq, Repr

/-- Whether the test access port reaches a target: everything before the debug lock, boundary scan only after it (R448, R469). A lock whose
burn was cut short has consumed its budget and does not apply (R444). -/
def Boot.tapReaches (b : Boot) (t : TapTarget) : Bool := !b.debugLocked || decide (t = .boundaryScan)

/-- The burn of a fuse operation ends (R442). -/
def fuseDone (s : State) (o : Op) : State :=
  match o.cmd with
  | .debugLock _ => fuseEnd s o 0 0 (fun b => { b with debugLocked := true })
  | .keyRotate _ hash => fuseEnd s o 1 s.boot.keyLeft (fun b =>
      { b with
        keySlot := b.keySlot + 1,
        keyHashes := (List.range b.keySlot).map (fun i => (b.keyHashes[i]?).getD 0) ++ [BitVec.ofNat 256 (ofLe hash)] })
  | .primarySet _ port => fuseEnd s o 3 s.boot.primaryLeft (fun b => { b with primaryFused := decide (port = 1) })
  | .repairCommit _ => repairCommitEnd s o (match o.prepared with | some k => leAt k.payload 0 4 | none => 0)
  | _ => s

/-- DEBUG_LOCK confines the test access port to boundary scan for good, once its burn is complete (R448). -/
def execDebugLock (h : Hdr) (s : State) : Out := .next (submit (.debugLock h) (debugLockNow h) s)

/-- The JOURNAL_READ reply: the newest SEQ, a count and at most 480 records from FIRST on (R462). -/
def journalPayload (s : State) (first : Nat) : List Byte :=
  let l := (s.boot.journal.filter (fun r => decide (first ≤ r.seq))).take 480
  leBytes 4 s.boot.journalSeq ++ leBytes 4 l.length ++ l.flatMap JRec.bytes

def journalReadNow (h : Hdr) (first : W32) : Nat → State → State :=
  runModule (.journalRead h first) noForm noObjects (fun s id _ =>
    finishModule s id (.journalRead h first) .ok (journalPayload s first.toNat))

/-- JOURNAL_READ (R462). -/
def execJournalRead (h : Hdr) (first : W32) (s : State) : Out :=
  .next (submit (.journalRead h first) (journalReadNow h first) s)

end Sys2Proof.Machine
end

