-- ==== Sys2Proof/Machine/TensorCmd.lean ====
section
/-!
DEFINITION. The tensor class (R99, R100): loft commands, TENSOR_MOVE (R246 to R251), and tensor handles (R252 to R256).
-/

namespace Sys2Proof.Machine

/-! ### Loft commands (R100) -/

/-- The range and alignment checks of a loft command on the selected sheaves (R100). -/
def loftForm (s : State) (x : Sel) (off n : Nat) : Option Status :=
  if n < 16 ∨ 65280 < n ∨ 2 ^ 22 < off + n then some .badParam
  else if x.sheaves.any (fun g => decide (loftSpace (s.sheaf g) < off + n)) then some .badParam
  else if off % 16 ≠ 0 ∨ n % 16 ≠ 0 then some .alignFault else none

def loftWriteDef (off : Nat) (data : List Byte) : UnitDef :=
  { plainUnit true (fun s g _ => ⟨s.loftStore g 4096 none ((data.zipIdx off).map (fun e => (e.2, e.1))), .ok, []⟩) with
    form := fun s x => loftForm s x off data.length }

/-- LOFT_WRITE writes the same bytes to the loft of each selected sheaf (R100, R282). -/
def execLoftWrite (h : Hdr) (offset : W32) (data : List Byte) (s : State) : Out :=
  .next (submit (.loftWrite h offset data) (runUnit (.loftWrite h offset data) (loftWriteDef offset.toNat data)) s)

def loftReadDef (off n : Nat) : UnitDef :=
  { plainUnit true (fun s g _ => ⟨s, .ok, KMap.bytes (s.sheaf g).loft off n⟩) with
    form := fun s x => if 1 < x.size true then some .badParam else loftForm s x off n, payload := joinPieces }

/-- LOFT_READ returns loft bytes of one sheaf (R100). -/
def execLoftRead (h : Hdr) (offset : W32) (bytes : W32) (s : State) : Out :=
  .next (submit (.loftRead h offset bytes) (runUnit (.loftRead h offset bytes) (loftReadDef offset.toNat bytes.toNat)) s)

/-! ### TENSOR_MOVE -/

/-- The form checks of one descriptor (R87, R246): its reserved fields and ranges. -/
def descForm (d : MoveDesc) : Bool :=
  decide (d.flags.toNat < 16) && decide (d.kind.toNat ≤ 4) &&
  (if d.kind = 4 then
    decide (d.fmt = 0) && decide (d.flags.toNat % 8 = 0) && decide (d.handle = 0) && decide (d.srcAddr = 0) &&
    decide (d.srcView = 0) && decide (d.dstView = 0) && decide (d.fill = 0)
  else
    let src := d.flags.getLsbD 0
    let dst := d.flags.getLsbD 1
    (elemKind d.fmt.toNat).isSome && decide (d.fill.toNat < 2 ^ (8 * elemSize d.fmt.toNat)) &&
    (if src || dst then decide (0 < d.handle.toNat) && decide (d.handle.toNat < 0x1000) else decide (d.handle = 0)) &&
    (!src || decide (d.srcAddr = 0)) && (!dst || decide (d.dstAddr = 0)))

/-- The plans of every descriptor on a sheaf, or the failing check that comes first (R249). -/
def planAll (s : State) (h : Hdr) (g : Nat) : List MoveDesc → Except (Nat × Status) (List MovePlan)
  | [] => .ok []
  | d :: t =>
    match planMove s (s.allot? h.allot.toNat) (memScope s h) g d, planAll s h g t with
    | .error e, .error e' => .error (if e'.1 < e.1 then e' else e)
    | .error e, .ok _ => .error e
    | .ok _, .error e' => .error e'
    | .ok p, .ok ps => .ok (p :: ps)

/-- The resource checks of a TENSOR_MOVE over the selected sheaves (R87, R100, R249): the earliest check that fails, and the
sheaves that fail it. -/
def moveResource (h : Hdr) (ds : List MoveDesc) (s : State) (x : Sel) : Option (Status × List Nat) :=
  let bad := x.sheaves.filterMap (fun g => match planAll s h g ds with
    | .error e => if (s.sheaf g).withheld then none else some (g, e)
    | .ok _ => none)
  match bad with
  | [] => none
  | b :: t =>
    let w := t.foldl (fun (a : Nat × Status) e => if e.2.1 < a.1 then e.2 else a) b.2
    some (w.2, (bad.filter (fun e => decide (e.2.1 = w.1))).map (·.1))

/-- Bytes of a range of a side as a TENSOR_MOVE reads them, and whether any was poisoned (R386). -/
def sideBytes (s : State) (g : Nat) (m : MoveSide) (a n : Nat) : List Byte × Bool :=
  if m.mem then (s.memBytes a n, (sectorsOf a n).any (sectorBad s)) else (KMap.bytes (s.sheaf g).loft a n, false)

/-- The bytes a move writes, element after element, each with whether its source was poisoned; a block's scale follows the
first of its elements that is written (R247, R248). -/
def moveWrites (s : State) (g fmt : Nat) (halo : Bool) (fill : Nat) (a b : MoveSide) : List FarByte :=
  let e := elemSize fmt
  (List.range a.view.count).flatMap (fun i =>
    match b.writeAt fmt halo i with
    | none => []
    | some d =>
      let src := match a.readAt fmt i with
        | some x => sideBytes s g a x.toNat e
        | none => (leBytes e fill, false)
      let elem := (src.1.zipIdx d.toNat).map (fun x => (⟨x.2, x.1, true, src.2⟩ : FarByte))
      if isBlockFmt fmt && (List.range (i % 32)).all (fun k => (b.writeAt fmt halo (i - 1 - k)).isNone) then
        let sc := sideBytes s g a (a.view.scaleAddr a.base i).toNat 1
        elem ++ sc.1.map (fun x => ⟨(b.view.scaleAddr b.base i).toNat, x, false, sc.2⟩)
      else elem)

/-- The sectors of memory that the source side of a move reads. -/
def moveReads (fmt : Nat) (a : MoveSide) : List Nat :=
  if a.mem then
    ((List.range a.view.count).flatMap (fun i => match a.readAt fmt i with
      | some x => sectorsOf x.toNat (elemSize fmt) ++
          (if isBlockFmt fmt then sectorsOf (a.view.scaleAddr a.base i).toNat 1 else [])
      | none => [])).dedup
  else []

/-- The sectors of memory that a plan reaches. -/
def moveSectors (p : MovePlan) : List Nat :=
  match p with
  | .counters .. => []
  | .move fmt halo _ a b => moveReads fmt a ++
      (if b.mem then (List.range a.view.count).flatMap (fun i => match b.writeAt fmt halo i with
        | some x => sectorsOf x.toNat (elemSize fmt) ++
            (if isBlockFmt fmt then sectorsOf (b.view.scaleAddr b.base i).toNat 1 else [])
        | none => []) else [])

/-- What running a descriptor yields: the state, the bytes moved, and whether the result is degraded. -/
structure MoveRes where
  state : State
  moved : Nat
  degraded : Bool

/-- Accesses to memory in turn, each meeting the errors that none before it has found, with the bytes that land (R377, R390). -/
def landAccesses (a : State × Nat) (ws : List (Nat × Byte)) : State × Nat :=
  let s := writeChecks a.1 3 0 ws a.1.mem.latent
  let l := errsLeft a.1 a.1.mem.latent (ws.map (fun w => w.1 / 32))
  let s := { s with mem := { s.mem with latent := l } }
  (writeLands s ws, a.2 + (landing s ws).length)

/-- One descriptor acts (R247, R248, R386, R390). -/
def runMove (s : State) (g : Nat) (p : MovePlan) : MoveRes :=
  match p with
  | .counters off clear =>
    let sh := s.sheaf g
    let s := s.loftStore g 4096 none (((leBytes 8 sh.filled ++ leBytes 8 sh.dropped).zipIdx off).map (fun e => (e.2, e.1)))
    ⟨if clear then s.modSheaf g (fun sh => { sh with filled := 0, dropped := 0 }) else s, 16, false⟩
  | .move fmt halo fill a b =>
    let n := a.view.count
    let left := errsLeft s s.mem.latent (moveReads fmt a)
    let s := touchSectors s 3 0 (moveReads fmt a) s.mem.latent
    let s := { s with mem := { s.mem with latent := left } }
    let ws := moveWrites s g fmt halo fill a b
    let filled := ((List.range n).filter (fun i => (a.readAt fmt i).isNone)).length
    let dropped := ((List.range n).filter (fun i => (b.writeAt fmt halo i).isNone)).length
    let bad := ws.any (·.bad)
    let s := s.modSheaf g (fun sh => sh.addPads filled dropped)
    if b.mem then
      let r := (memAccesses ws).foldl landAccesses (s, 0)
      let s := ((ws.filter (·.bad)).filter (fun w => !sectorFailed r.1 (w.addr / 32))).foldl (fun s w => s.poisonSector (w.addr / 32)) r.1
      ⟨s, r.2, bad || decide (r.2 < ws.length)⟩
    else ⟨s.loftStore g 4096 none (ws.map (fun w => (w.addr, if w.bad then 0 else w.val))), ws.length, bad⟩

/-- A sheaf runs its descriptors in order; checks that fail at its own lodge stop it before the first acts (R249). -/
def moveAct (h : Hdr) (ds : List MoveDesc) (errs : List MemErr) (s : State) (g : Nat) : ActRes :=
  match planAll s h g ds with
  | .error e => ⟨s, e.2, leBytes 8 0⟩
  | .ok ps =>
    let r := ps.foldl (fun (r : MoveRes) p =>
      let t := runMove r.state g p
      ⟨t.state, r.moved + t.moved, r.degraded || t.degraded⟩) ⟨{ s with mem := { s.mem with latent := errs } }, 0, false⟩
    ⟨{ r.state with mem := { r.state.mem with latent := [] } }, if r.degraded then .okDegraded else .ok, leBytes 8 r.moved⟩

def tensorMoveDef (h : Hdr) (ds : List MoveDesc) (errs : List MemErr) : UnitDef :=
  { level3 := true,
    form := fun s x => if ds.length < 1 ∨ 7 < ds.length ∨ ds.any (fun d => !descForm d) = true then some .badParam
      else sixteenSheaves s x,
    resource := moveResource h ds, act := fun s g _ => moveAct h ds errs s g, payload := joinPieces, wait := fun _ _ => some .action }

/-- Whether a sheaf's part of a TENSOR_MOVE waits for memory (R389, R394, R439). -/
def moveHeld (s : State) (h : Hdr) (ds : List MoveDesc) (g : Nat) : Bool :=
  match planAll s h g ds with
  | .ok ps => sheafHeld s g (ps.flatMap moveSectors)
  | .error _ => false

/-- TENSOR_MOVE moves elements between lofts and memory on each selected sheaf (R246 to R250). -/
def execTensorMove (h : Hdr) (descs : List MoveDesc) (s : State) : Out :=
  .next (submitOr (fun s => (selOf h.path h.mask).sheaves.any (moveHeld s h descs)) (.tensorMove h descs)
    (tensorMoveDef h descs []) s)

/-! ### TENSOR_DEFINE and TENSOR_RELEASE (R252 to R256) -/

/-- The range checks of Table 9-8 on record `d` of index `i`, a stride that is no multiple of 16 among them (log entry 71). -/
def dimForm (i : Nat) (d : DimRec) : Bool :=
  decide (1 ≤ d.size.toNat) && decide (d.size.toNat < 2 ^ 31) && decide (d.split.toNat ≤ 4) &&
  decide (1 ≤ d.parts.toNat) && decide (d.parts.toNat ≤ 8192) && (decide (d.split ≠ 0) || decide (d.parts = 1)) &&
  (decide (d.halo = 0) || (decide (1 ≤ d.split.toNat) && decide (d.split.toNat ≤ 3))) &&
  (if i = 0 then decide (d.place.toNat < memEnd) else decide (d.place.toNat % 16 = 0))

/-- The footprint of a handle in this module's memory, half-open. -/
def tensorFoot (s : State) (a : Allot) (fmt : Nat) (dims : List DimRec) : Nat × Nat :=
  let lo := (dims.head?.map (·.place.toNat)).getD 0
  (lo, lo + heldBytes fmt (layout s a 0 dims))

/-- A stride below the local byte span of the dimension inside it (R255). -/
def tightStride (fmt : Nat) (ls : List LDim) : Bool :=
  (ls.tail.zip (spans fmt ls)).any (fun e => decide (e.1.stride < e.2))

/-- The conflicts of R255. -/
def shardConflict (s : State) (a : Allot) (fmt : Nat) (dims : List DimRec) : Bool :=
  let splits := (dims.map (·.split.toNat)).filter (fun k => decide (k ≠ 0))
  dims.any (fun d => decide (d.split ≠ 0) && decide ((partOf s a d.split.toNat 0).2 ≠ d.parts.toNat)) ||
  dims.any (fun d => decide (d.size.toNat ≤ (d.parts.toNat - 1) * partLen d)) ||
  dims.any (fun d => decide (partLen d < d.halo.toNat)) ||
  decide (splits.dedup.length ≠ splits.length) ||
  tightStride fmt (layout s a 0 dims) ||
  a.tensors.any (fun t => extOverlap (tensorFoot s a fmt dims) (tensorFoot s a t.2.format.toNat t.2.dims))

def tensorDefineNow (h : Hdr) (handle : W16) (format : Byte) (dims : List DimRec) : Nat → State → State :=
  runModule (.tensorDefine h handle format dims)
    (fun _ _ =>
      if handle.toNat < 1 ∨ 0xFFF < handle.toNat ∨ dims.length < 1 ∨ 8 < dims.length ∨ (elemKind format.toNat).isNone = true ∨
         (dims.zipIdx.any (fun e => !dimForm e.2 e.1)) = true then some .badParam else none)
    noObjects
    (fun s id _ =>
      let c := Instr.tensorDefine h handle format dims
      match s.allot? h.allot.toNat with
      | none => finishModule s id c .badParam []
      | some a =>
        if (KMap.look a.tensors handle.toNat).isSome then finishModule s id c .badParam []
        else
          let f := tensorFoot s a format.toNat dims
          if !insideRanges a.grants f.1 f.2 then finishModule s id c .wrongAllotment []
          else if shardConflict s a format.toNat dims then finishModule s id c .shardConflict []
          else
            let a' := { a with tensors := KMap.ins a.tensors handle.toNat { format := format, dims := dims } }
            finishModule { s with allots := KMap.ins s.allots h.allot.toNat a' } id c .ok
              (leBytes 8 (heldBytes format.toNat (layout s a 0 dims))))

/-- TENSOR_DEFINE describes a distributed tensor to this module and returns the bytes it holds (R252 to R256). -/
def execTensorDefine (h : Hdr) (handle : W16) (format : Byte) (dims : List DimRec) (s : State) : Out :=
  .next (submit (.tensorDefine h handle format dims) (tensorDefineNow h handle format dims) s)

def tensorReleaseNow (h : Hdr) (handle : W16) : Nat → State → State :=
  runModule (.tensorRelease h handle) noForm noObjects (fun s id _ =>
    let c := Instr.tensorRelease h handle
    match s.allot? h.allot.toNat with
    | none => finishModule s id c .badParam []
    | some a =>
      if (KMap.look a.tensors handle.toNat).isNone then finishModule s id c .badParam []
      else finishModule { s with allots := KMap.ins s.allots h.allot.toNat { a with tensors := KMap.del a.tensors handle.toNat } }
        id c .ok [])

/-- TENSOR_RELEASE forgets a tensor handle (R100). -/
def execTensorRelease (h : Hdr) (handle : W16) (s : State) : Out :=
  .next (submit (.tensorRelease h handle) (tensorReleaseNow h handle) s)

end Sys2Proof.Machine
end

