-- ==== Sys2Proof/Machine/Lodge.lean ====
section
/-!
DEFINITION. The lodges step by step: commands that waited are admitted (R42, R43, R88), reach their members (R45), are answered or
not (R49), and the census follows the units (R44). A command that arrives as a packet goes this way; a command that is given whole
is carried out at once by the same definitions.
-/

namespace Sys2Proof.Machine

/-- What is particular to each unit command. -/
def unitDefOf : Instr → Option UnitDef
  | .wake _ => some wakeDef
  | .sleep _ => some sleepDef
  | .reset _ => some resetDef
  | .query _ => some queryDef
  | .progLoad h source count entry address image => some (progLoadDef h source count entry address image [])
  | .start h args => some (startDef h args)
  | .pause _ => some pauseDef
  | .resume _ => some resumeDef
  | .drain _ => some drainDef
  | .uregRead _ n => some (uregReadDef n)
  | .uregWrite _ n v => some (uregWriteDef n v)
  | .spRead _ off n => some (spReadDef off.toNat n.toNat)
  | .spWrite _ off data => some (spWriteDef off.toNat data)
  | .spareStatus _ => some spareStatusDef
  | .loftWrite _ off data => some (loftWriteDef off.toNat data)
  | .loftRead _ off n => some (loftReadDef off.toNat n.toNat)
  | .tensorMove h ds => some (tensorMoveDef h ds [])
  | .collDefine h handle words plan => some (collDefineDef h handle words plan)
  | .collTune h handle n tlate tlost => some (collTuneDef h handle n tlate tlost)
  | .collCommit h handle seq => some (collCommitDef h handle seq)
  | .collAbort h handle => some (collAbortDef h handle)
  | .collStatus h handle => some (collStatusDef h handle)
  | .numCtl _ v => some (numCtlDef v)
  | .wvConfig _ log2 enable tol thr reserve => some (wvConfigDef log2 enable tol thr reserve)
  | .wvStats _ clear => some (wvStatsDef clear)
  | .rngKey h key step => some (rngKeyDef h key step)
  | .clampRead _ clear => some (clampReadDef clear)
  | .dvfsSet _ mhz => some (dvfsDef mhz)
  | .thermalRead _ => some thermalReadDef
  | _ => none

/-- Carry out a module command with the number under which it was received; rows that are no module command do nothing. -/
def moduleNow : Instr → Nat → State → State
  | .nop h data => nopNow h data
  | .devInfo h => devInfoNow h
  | .regRead h n => regReadNow h n
  | .regWrite h n v => regWriteNow h n v
  | .portGrant h g => portGrantNow h g
  | .takeover h a => takeoverNow h a
  | .memGrant h a b n => memGrantNow h a b n
  | .memRevoke h a b => memRevokeNow h a b
  | .hostDma h dir host dev n => hostDmaNow h dir host dev n
  | .aperture h b => apertureNow h b
  | .memFill h d n p => memFillNow h d n p
  | .eccRead h c => eccReadNow h c
  | .rowRetire h a => rowRetireNow h a
  | .tensorDefine h n f dims => tensorDefineNow h n f dims
  | .tensorRelease h n => tensorReleaseNow h n
  | .allotCreate h a w l => allotCreateNow h a w l
  | .allotDissolve h a => allotDissolveNow h a
  | .allotResize h a op w l => allotResizeNow h a op w l
  | .topoDraw h shape ndim ext => topoDrawNow h shape ndim ext
  | .colourMapSet h e m => colourMapSetNow h e m
  | .fabricTable h first => fabricTableNow h first
  | .routeQuery h a => routeQueryNow h a
  | .collBackup h n r a => collBackupNow h n r a
  | .determinism h on => determinismNow h on
  | .eaveStatus h e => eaveStatusNow h e
  | .eaveCommission h e => eaveCommissionNow h e
  | .laserSwap h e l i => laserSwapNow h e l i
  | .monitorRead h e l us => monitorReadNow h e l us
  | .eaveSweep h m => eaveSweepNow h m
  | .domainSet h d on => domainSetNow h d on
  | .powerCap h w => powerCapNow h w
  | .powerRead h => powerReadNow h
  | .attest h n => attestNow h n
  | .certRead h => certReadNow h
  | .fwStage h off data => fwStageNow h off data
  | .fwActivate h a => fwActivateNow h a
  | .repairCommit h => repairCommitNow h
  | .keyRotate h k => keyRotateNow h k
  | .primarySet h p => primarySetNow h p
  | .debugLock h => debugLockNow h
  | .journalRead h first => journalReadNow h first
  | _ => fun _ s => s

/-- Carry out any command at once. -/
def commandNow (c : Instr) : Nat → State → State :=
  match unitDefOf c with
  | some d => runUnit c d
  | none => moduleNow c

/-- A command is received by the module lodge as a packet: it waits to be admitted, under FENCE behind what its window has open (R43,
R58). -/
def receiveCmd (s : State) (c : Instr) : State :=
  match cmdOf c with
  | none => s
  | some (h, _) =>
    let id := s.lodge.nextId
    { s with lodge := { s.lodge with nextId := id + 1, waiting := s.lodge.waiting ++ [⟨id, c, fenceOf s h, .admitted⟩] } }

/-- Admission (R42, R87): a module command is carried out; a unit command that passes is on its way to its members, and calls the sleeping
dies that it must cross (R428). -/
def admitNow (s : State) (id : Nat) (c : Instr) : State :=
  match unitDefOf c, cmdOf c with
  | some d, some (h, i) =>
    match admitOn s c h i d with
    | some r => refuseUnit s id c h d r
    | none =>
      let o := Op.begin id c h d.level3
      let s := s.callDies (o.todo.flatMap (fun g => feedRoute lodgeFeed (g / 16)))
      { s with lodge := { s.lodge with ops := s.lodge.ops ++ [o] } }
  | _, _ => moduleNow c id s

/-- LODGE_ADMIT: a waiting command is admitted once nothing received earlier that names what it names is unfinished (R42, R43, R88). -/
def execLodgeAdmit (cmd : Nat) (s : State) : Out :=
  .next (
    match s.lodge.waiting.find? (fun w => decide (w.id = cmd) && w.fencedBy.isEmpty && decide (w.verdict = .admitted)) with
    | none => s
    | some w =>
      if mustWait s (s.lodge.waiting.takeWhile (fun v => decide (v.id ≠ cmd))) w.cmd then s
      else admitNow { s with lodge := { s.lodge with waiting := s.lodge.waiting.filter (fun v => decide (v.id ≠ cmd)) } } cmd w.cmd)

/-- A command on its way to its members. -/
def State.memberOp (s : State) (op : Nat) : Option Op :=
  s.lodge.ops.find? (fun o => decide (o.id = op) && decide (o.wait = .members))

/-- Put a changed command back in its place. -/
def State.putOp (s : State) (o : Op) : State :=
  { s with lodge := { s.lodge with ops := s.lodge.ops.map (fun v => if v.id = o.id ∧ v.wait = .members then o else v) } }

/-- What is particular to a command whose accesses to memory find errors as they act (R386 to R388). -/
def arrivalDef (c : Instr) (errs : List MemErr) : Option UnitDef :=
  match c with
  | .progLoad h source count entry address image => some (progLoadDef h source count entry address image errs)
  | .tensorMove h ds => some (tensorMoveDef h ds errs)
  | _ => unitDefOf c

/-- Whether what a command does on one sheaf waits for memory (R389, R394, R439). -/
def arrivalHeld (s : State) (c : Instr) (g : Nat) : Bool :=
  match c with
  | .progLoad _ source count _ address _ => loadHeld s source count address
  | .tensorMove h ds => moveHeld s h ds g
  | _ => false

/-- COMMAND_ARRIVAL: the command reaches the lodge and the units of one sheaf, which act on it or skip it (R45); one that
reaches memory waits there with the other accesses (R389), and one behind a die that holds traffic waits too (R439). -/
def execCommandArrival (op : Nat) (sh : SheafIx) (errs : List MemErr) (s : State) : Out :=
  .next (
    match s.memberOp op with
    | none => s
    | some o =>
      match arrivalDef o.cmd errs, cmdOf o.cmd with
      | some d, some (h, _) =>
        if o.todo.contains sh.val && !arrivalHeld s o.cmd sh && !lodgeHolds s sh then
          let t := arriveAt (wakeRoute s (sh.val / 16)) o.cmd h d o.deaf sh
          (t.1.putOp { o with todo := o.todo.filter (fun g => decide (g ≠ sh.val)), acting := o.acting ++ [t.2] }).flushWatches
        else s
      | _, _ => s)

/-- Once every member has answered or is counted silent, the command's reply is formed (R49, R89). -/
def settleMembers (s : State) (d : UnitDef) (o : Op) : State :=
  if o.todo = [] ∧ o.acting = [] then (concludeUnit (s.dropOp o.id) d o).flushWatches else (s.putOp o).flushWatches

/-- The selected sheaves of a die that a command has reached or is on its way to. -/
def Op.ofDie (o : Op) (d : Nat) : List Nat :=
  (o.todo ++ o.acting.map MemberRes.sheaf).filter (fun g => decide (g / 16 = d))

/-- The sheaf whose path a member's path is or lies in. -/
def memberSheaf (p : BitVec 24) : Nat := 16 * pathDigit p 1 + pathDigit p 2

/-- An L3 lodge's reply reaches the lodge of its die (R46); what it says of its units reaches the census there (log entry 35). -/
def sheafReply (s : State) (o : Op) (h : Hdr) (g : Nat) : State :=
  (s.censusSel 4 g (selOf h.path h.mask).locals).putOp
    { o with acting := o.acting.map (fun m => if m.sheaf = g then { m with replied := true } else m) }

/-- The reply of a die's lodge, all of whose members have answered it, reaches the module lodge and is combined (R46). -/
def dieReply (s : State) (o : Op) (h : Hdr) (d : UnitDef) (k : Nat) : State :=
  let mine := o.acting.filter (fun m => decide (m.sheaf / 16 = k))
  settleMembers (mine.foldl (fun s m => s.censusSel 5 m.sheaf (selOf h.path h.mask).locals) s) d
    (mine.foldl (fun a m => a.absorb d.level3 m) { o with acting := o.acting.filter (fun m => decide (m.sheaf / 16 ≠ k)) })

/-- MEMBER_REPLY: one member's reply reaches its lodge and is combined: an L3 lodge's that of its die, a die's that of the module, which
replies once every die has (R46, R49). It waits while a die on its way holds traffic (R439). -/
def execMemberReply (op : Nat) (member : BitVec 24) (s : State) : Out :=
  .next (
    match s.memberOp op with
    | none => s
    | some o =>
      match unitDefOf o.cmd, cmdOf o.cmd with
      | some d, some (h, _) =>
        let g := memberSheaf member
        if lodgeHolds s g then s
        else if pathDepth member = 2 && o.acting.any (fun m => decide (m.sheaf = g) && !m.replied) then sheafReply s o h g
        else if pathDepth member = 1 && !(o.ofDie (pathDigit member 1)).isEmpty &&
            (o.ofDie (pathDigit member 1)).all (fun g => o.acting.any (fun m => decide (m.sheaf = g) && m.replied)) then
          dieReply s o h d (pathDigit member 1)
        else s
      | _, _ => s)

/-- The lodge that waits for a member (Table 2-8), by number: the module lodge 0, the die lodges from 1, the L3 lodges from 17. -/
def waitingLodge (p : BitVec 24) : Nat :=
  if pathDepth p = 1 then 0 else if pathDepth p = 2 then pathDigit p 1 + 1 else memberSheaf p + 17

/-- Silent units join the coalescing window of the waiting lodge's MEMBER_SILENT event (R116). -/
def noteSilent (s : State) (o : Op) (k : Nat) (path : BitVec 24) (n : Nat) : State :=
  if n = 0 then s else
  let w := match KMap.look s.lodge.silentWin k with
    | some w => { w with count := w.count + n, path := if path.toNat < w.path.toNat then path else w.path }
    | none => { path := path, cause := 4, count := n,
                opcode := match cmdOf o.cmd with | some (_, i) => BitVec.ofNat 16 i.code | none => 0,
                tag := match cmdOf o.cmd with | some (h, _) => h.tag | none => 0 }
  { s with lodge := { s.lodge with silentWin := KMap.ins s.lodge.silentWin k w } }

/-- Units of a sheaf that is awake are marked FAULTED for silence (R49). -/
def markSilent (s : State) (g : Nat) (ls : List Nat) : State :=
  if (s.sheaf g).power ≠ .awake then s
  else ls.foldl (fun s l => if (s.reed (4096 * g + l)).st = .faulted then s else enterFaulted s (4096 * g + l) 4) s

/-- The non-retired units of a sheaf that lie below a silent L3 or L4 lodge and that the command selected. -/
def silentUnits (s : State) (h : Hdr) (level3 : Bool) (g : Nat) : List Nat :=
  (if level3 then List.range 4096 else (selOf h.path h.mask).locals).filter (fun l => !(s.sheaf g).retired l)

/-- What of a sheaf below a silent lodge is counted: its selected units, or the sheaf itself (R49). -/
def silentCount (s : State) (h : Hdr) (level3 : Bool) (g : Nat) : List Nat :=
  if level3 then (if (s.sheaf g).withheld then [] else [0]) else silentUnits s h false g

/-- One sheaf below a silent lodge: its units are marked, and counted, whatever they may have answered (R49). -/
def silenceSheaf (h : Hdr) (d : UnitDef) (a : State × Op) (g : Nat) : State × Op :=
  let live := silentUnits a.1 h d.level3 g
  let s := (markSilent a.1 g live).modSheaf g (fun x => if x.power = .awake then { x with silent := true } else x)
  (s.censusSel 5 g live,
    { a.2 with todo := a.2.todo.filter (fun x => decide (x ≠ g)), acting := a.2.acting.filter (fun m => decide (m.sheaf ≠ g)) }.absorb
      d.level3 ⟨g, [], [], [], silentCount a.1 h d.level3 g, goneUnits (a.1.sheaf g) h d.level3, .ok, [], 0, true⟩)

/-- Take the units below a silent L2 lodge out of what their sheaf answered: they count SILENT instead (R49). -/
def MemberRes.without (m : MemberRes) (k : Nat) : MemberRes :=
  let keep := fun (l : Nat) => decide (l / 256 ≠ k)
  let lost := (m.go ++ m.same ++ m.late).filter (fun l => !keep l)
  { m with go := m.go.filter keep, same := m.same.filter keep, late := m.late.filter keep, silent := m.silent ++ lost,
           piece := if m.slice = 0 then m.piece
             else (m.go.zipIdx.filter (fun e => keep e.1)).flatMap (fun e => (m.piece.drop (m.slice * e.2)).take m.slice) }

/-- An L2 lodge is silent: the units below it are marked, and its sheaf's reply counts them SILENT (R49). -/
def silenceL2 (s : State) (o : Op) (h : Hdr) (member : BitVec 24) : State :=
  let g := memberSheaf member
  let k := pathDigit member 3
  let live := (silentUnits s h false g).filter (fun l => decide (l / 256 = k))
  let s := (markSilent s g live).censusSel 5 g live
  (noteSilent s o (waitingLodge member) (BitVec.ofNat 24 ((lowest (live.map (unitPath false g))).getD 0)) live.length).putOp
    { o with deaf := o.deaf ++ [16 * g + k], acting := o.acting.map (fun m => if m.sheaf = g then m.without k else m) }

/-- MEMBER_SILENT: a member has not acknowledged by its limit (Table 2-8): it is marked FAULTED, every selected unit below it counts as
SILENT, and what it may still answer is discarded (R49). A sheaf that is not awake is answered for by its die's lodge (R50). -/
def execMemberSilent (op : Nat) (member : BitVec 24) (s : State) : Out :=
  .next (
    match s.memberOp op with
    | none => s
    | some o =>
      match unitDefOf o.cmd, cmdOf o.cmd with
      | some d, some (h, _) =>
        let g := memberSheaf member
        let waits := o.todo.contains g || o.acting.any (fun m => decide (m.sheaf = g) && !m.replied)
        if pathInvalid member then s
        else if pathDepth member = 3 then
          if d.level3 || !waits || decide ((s.sheaf g).power ≠ .awake) || o.deaf.contains (16 * g + pathDigit member 3) then s
          else (silenceL2 s o h member).flushWatches
        else
          let gs := if pathDepth member = 1 then o.ofDie (pathDigit member 1)
            else if pathDepth member = 2 && waits && decide ((s.sheaf g).power = .awake) then [g] else []
          if gs = [] then s
          else
            let r := gs.foldl (silenceSheaf h d) (s, o)
            let first := lowest (gs.flatMap (fun g => (silentCount s h d.level3 g).map (unitPath d.level3 g)))
            settleMembers (noteSilent r.1 o (waitingLodge member) (BitVec.ofNat 24 (first.getD 0)) (r.2.silent - o.silent)) d r.2
      | _, _ => s)

/-- MEMBER_SILENT_COALESCE: the 10 µs window of a lodge's MEMBER_SILENT event closes, and the event is written (R116, Table 4-17). -/
def execMemberSilentCoalesce (lodge : Nat) (s : State) : Out :=
  .next (
    match KMap.look s.lodge.silentWin lodge with
    | none => s
    | some w =>
      ({ s with lodge := { s.lodge with silentWin := KMap.del s.lodge.silentWin lodge } }).event
        { opcode := 0x0B05, group := 2, status := .badState, path := w.path, allot := s.allotOf (w.path.toNat % 2 ^ 20 / 4096),
          slot := 0xF, ustate := .faulted,
          detail := leBytes 4 w.count ++ leBytes 2 w.opcode.toNat ++ leBytes 2 0 ++ leBytes 4 w.tag.toNat })

/-- A lodge level hears from the level below: of one reed, or of every reed either level lists (R44). The die's lodge, level 4, powers
the sheaf and knows its domain's state. -/
def Sheaf.report (x : Sheaf) (k : Nat) (reed : Option Nat) : Sheaf :=
  let src := if k = 5 then x.heardAt 4 else { x.heardAt (k - 1) with dom := x.domState }
  let ls := match reed with | some l => [l] | none => src.reeds.map (·.1) ++ (x.heardAt k).reeds.map (·.1)
  { x with census := x.census.setIfInBounds (k - 1) ((x.heardAt k).hear src ls) }

/-- CENSUS_UPDATE: state changes of a sheaf's reeds reach the census of one lodge level (R44). -/
def execCensusUpdate (sh : SheafIx) (level : Nat) (reed : Option Nat) (s : State) : Out :=
  .next (if 1 ≤ level ∧ level ≤ 5 then s.modSheaf sh (fun x => x.report level reed) else s)

end Sys2Proof.Machine
end

