-- ==== Sys2Proof/Machine/Boot.lean ====
section
/-!
DEFINITION. Rails, reset and the boot sequence (R412 to R421, R449, R455, R456, R466, R469), and the keep tick (R425). A boot
row acts when its step is the one in progress; otherwise it has no occasion and changes nothing.
-/

namespace Sys2Proof.Machine

/-! ### Losing and gaining power -/

/-- A port of a module that has just powered up: what the host's memory holds is not the module's. -/
def Port.powered (x : Port) (primary : Bool) : Port := { Port.reset primary with perst := x.perst, hostMem := x.hostMem, msiSent := x.msiSent }

/-- A FW_STAGE in progress when power goes leaves its slot partly written (Table 17-8). -/
def cutStage (s : State) : Boot :=
  if s.lodge.ops.any (fun o => match o.cmd with | .fwStage .. => true | _ => false) then
    s.boot.setSlot (stagingSlot s.boot) { s.boot.slot (stagingSlot s.boot) with cut := true }
  else s.boot

/-- Every switched domain loses power: everything outside the always-on domain is at its reset value (R412, R466). The
always-on domain keeps the fabric address, the flash, the fuses and the journal. PWRGD stays high until the main rail is lost, and a trip
lasts until the sensors that hold it read below 100 °C (R440, R469). -/
def State.dropMain (s : State) : State :=
  { s with
    tcweight := State.reset.tcweight,
    port0 := s.port0.powered (!s.boot.primaryFused), port1 := s.port1.powered s.boot.primaryFused, sidebandBusy := false,
    lodge := { s.lodge with waiting := [], ops := [], watches := [], silentWin := [] },
    sheaves := [], allots := [], modColls := [], mem := Memory.reset,
    fabric := { Fabric.reset with address := s.fabric.address, sent := s.fabric.sent },
    eaves := Vector.replicate 8 Eave.reset,
    pow := { Power.reset with standby := s.pow.standby, main := s.pow.main, resetLow := s.pow.resetLow, stbyOk := s.pow.stbyOk,
                              vin12mV := s.pow.vin12mV, pwrGood := s.pow.pwrGood && s.pow.main,
                              overtemp := s.pow.overtemp, tripped := s.pow.tripped, hot := s.pow.hot },
    boot := { cutStage s with released := false } }

/-- Count a power-up of a slot on trial: its fourth without a release reads the other slot instead, and the reserved
increments are released unburned (R455). -/
def Boot.countTrial (b : Boot) : Boot :=
  match b.trial with
  | none => b
  | some n =>
    if n < 3 then { b with trial := some (n + 1) }
    else { b with trial := none, chosen := 1 - b.chosen, rollbackPending := 0, fallbackDue := true, fallback := true }

/-- A record takes a step's slot in the boot-step area of a copy (R418). -/
def JCopy.note (c : JCopy) (n : Nat) (r : JRec) : JCopy := { c with area := KMap.ins c.area n r }

/-- A step's record in the boot-step area: that of copy A, or of copy B where copy A has none. -/
def Boot.areaRec (b : Boot) (n : Nat) : Option JRec :=
  match KMap.look b.copyA.area n with
  | some r => some r
  | none => KMap.look b.copyB.area n

/-- A record of a boot step: steps 0x01 and 0x02 keep theirs in the boot-step area of both copies, with EPOCH 0 (R418). -/
def noteStep (s : State) (type n : Nat) (st : Status) (body : List Byte) : State :=
  if n ≤ 2 then
    let r : JRec := { seq := 0, epoch := 0, ticks := s.ticks, type := type, status := st, body := body }
    { s with boot := { s.boot with copyA := s.boot.copyA.note n r, copyB := s.boot.copyB.note n r } }
  else (s.journalAdd type st body).1

/-- Steps 0x01 and 0x02 read their own slots, to learn of a failure on the previous power-up (R418). -/
def readArea (s : State) (n : Nat) : State :=
  if n = 0 ∨ 2 < n then s
  else
    let f : StepFail := { step := n, watchdog := false, item := 0 }
    let bad := match s.boot.areaRec n with | some r => r.tells f | none => false
    { s with boot := { s.boot with failures := s.boot.failures.filter (fun x => decide (x.step ≠ n)) ++ if bad then [f] else [] } }

/-- The domains that step 0x04 powers: feed dies, host ports and network domains (R413, R426). -/
def State.mainDomains (s : State) (d : Dom) : State :=
  { s with pow := { s.pow with feed := Vector.replicate 4 d, net := Vector.replicate 16 d, ports := Vector.replicate 2 d } }

/-- A step begins: steps 0x01 and 0x02 read their slots, and its start record is written, with the step code and DETAIL (R418). At step
0x04 the domains power up, once the main rail is good. -/
def enterStep (s : State) (n : Nat) : State :=
  let s := readArea { s with boot := { s.boot with step := n } } n
  let s := if n = 4 && s.pow.main then s.mainDomains .powering else s
  if n = 0 ∨ 7 < n then s else noteStep s 0x0001 n .ok (leBytes 1 n ++ leBytes 1 s.boot.detail)

/-- The end record of a step: step code, DETAIL and result (0 done, 1 failed, 2 interrupted), and the parts that failed. -/
def endRecord (s : State) (n detail result : Nat) (items : List Nat) : State :=
  noteStep s 0x0002 n (if result = 0 then .ok else .okDegraded)
    (leBytes 1 n ++ leBytes 1 detail ++ leBytes 1 result ++ leBytes 64 (itemSet items))

/-- A power-up begins at a step (R412): `PWRTIME` restarts and `PWREPOCH` reads 0 until the JOURNAL step. -/
def State.powerUp (s : State) (step detail restarts : Nat) : State :=
  let s := s.dropMain
  let b := s.boot.countTrial
  enterStep { s with
    ticks := 0, epoch := 0, lodge := { s.lodge with ownerTag := 0 },
    boot := { b with ended := false, halted := false, degraded := false, detail := detail, altered := 0, restarts := restarts,
                     meas := List.replicate 6 0, priorSeq := b.journalSeq, sigFailWindow := false } } step

/-! ### Failed and altered steps (R418 to R421, Table 16-4) -/

def setDetail (s : State) (d : Nat) : State := { s with boot := { s.boot with detail := d } }

/-- A step ends degraded (Table 16-2, DEGRADED). -/
def degradeBoot (s : State) (d : Nat) : State := { s with boot := { s.boot with degraded := true, detail := d } }

/-- A step runs altered or is skipped: ALTERED bit n - 1 and DEGRADED (Table 16-2). -/
def alterStep (s : State) (n d : Nat) : State :=
  { s with boot := { s.boot with altered := s.boot.altered ||| BitVec.ofNat 7 (2 ^ (n - 1)), degraded := true, detail := d } }

/-- Whether the previous power-up recorded a failure of a step. -/
def Boot.failed (b : Boot) (n : Nat) : Bool := b.failures.any (fun f => decide (f.step = n))

/-- Record a failure. -/
def addFail (s : State) (n : Nat) (watchdog : Bool) (item : Nat) : State :=
  let f : StepFail := { step := n, watchdog := watchdog, item := item }
  { s with boot := { s.boot with failures := if s.boot.failures.contains f then s.boot.failures else s.boot.failures ++ [f] } }

/-- A step that succeeds clears its failure (R420). -/
def clearFail (s : State) (n : Nat) : State :=
  { s with boot := { s.boot with failures := s.boot.failures.filter (fun f => decide (f.step ≠ n)) } }

/-- The boot halts at a step (Table 16-3). -/
def haltBoot (s : State) (n d : Nat) (items : List Nat) : State :=
  let s := endRecord (setDetail s d) n d 1 items
  { s with boot := { s.boot with halted := true } }

/-- A watchdog expiry, already recorded as a failure, restarts the module; after three restarts it halts (R421). -/
def restartBoot (s : State) (n : Nat) (items : List Nat) : State :=
  let s := endRecord s n 0x0E 1 items
  if 3 ≤ s.boot.restarts then { s with boot := { s.boot with halted := true, detail := 0x0F } }
  else s.powerUp 0 0x0E (s.boot.restarts + 1)

/-- A step ends with a failure result of Table 16-4, of the parts listed, and the boot goes on. -/
def failStep (s : State) (n : Nat) (items : List Nat) : State := enterStep (endRecord s n s.boot.detail 1 items) (n + 1)

/-- A step ends and the next begins. -/
def endStep (s : State) (n : Nat) : State := enterStep (endRecord s n s.boot.detail 0 []) (n + 1)

/-- Whether a boot step is in progress: standby is good, reset is released, and the boot has neither halted nor been ended. -/
def atStep (s : State) (n : Nat) : Bool :=
  s.pow.standby && !s.pow.resetLow && !s.boot.halted && !s.boot.ended && decide (s.boot.step = n)

/-- The reset input or the loss of the main rail cuts the step in progress short: it is recorded as interrupted (R418). -/
def interruptStep (s : State) : State :=
  let n := s.boot.step
  if 1 ≤ n ∧ n ≤ 7 ∧ atStep s n = true then endRecord s n s.boot.detail 2 [] else s

/-! ### Rails and RESET_N (R412, R466, R469) -/

/-- STANDBY_RAIL_UP: VSTBY33 becomes good and a power-up begins, unless RESET_N is low. -/
def execStandbyRailUp (s : State) : Out :=
  .next (
    if s.pow.standby then s
    else
      let s := { s with pow := { s.pow with standby := true } }
      if s.pow.resetLow then { s with boot := { s.boot with restarts := 0 } } else s.powerUp 0 0 0)

/-- The module without the always-on domain running: sideband silent, STBY_OK low, nothing booted. -/
def State.darken (s : State) : State :=
  let s := s.dropMain
  { s with sideband := none, epoch := 0, pow := { s.pow with stbyOk := false },
           boot := { s.boot with step := 0, ended := false, halted := false, degraded := false, detail := 0, altered := 0 } }

/-- The slot that the journal names: the newest FW_ACTIVATE record's, or the one chosen in its place when that was abandoned; slot A with
no record (R455). -/
def chosenBy (l : List JRec) : Nat :=
  match l.reverse.find? (fun r => decide (r.type = 0x000C) || decide (r.type = 0x000D)) with
  | some r => if r.type = 0x000C then leAt r.body 0 1 else leAt r.body 1 1
  | none => 0

/-- What a record that the journal no longer gives leaves undone: a step's failure, an activation, an abandonment, a remap (R418, R455,
R459). -/
def Boot.forget (b : Boot) (r : JRec) : Boot :=
  { b with
    failures := b.failures.filter (fun f => decide (f.step ≤ 2) || !r.tells f),
    unfused := b.unfused.filter (fun n => decide (n ≠ r.seq)),
    chosen := if r.type = 0x000C then chosenBy b.journal else b.chosen,
    trial := if r.type = 0x000C then none else b.trial,
    rollbackPending := if r.type = 0x000C then 0 else b.rollbackPending,
    fallbackDue := b.fallbackDue || decide (r.type = 0x000D) }

/-- The journal as it is read now: the records it no longer gives are as if they had not been written. -/
def Boot.readAs (b : Boot) (l : List JRec) : Boot :=
  (b.journal.filter (fun r => !(l.map (·.seq)).contains r.seq)).foldl Boot.forget { b with journal := l }

/-- A record in a copy fails its CRC. -/
def JCopy.tear (c : JCopy) (n : Nat) : JCopy := { c with torn := n :: c.torn }

/-- Standby is lost as the newest record is written (R441, R460): during steps 0x01 and 0x02 that is the record in the step's slot, and
after them the journal's last. -/
def Boot.cutRecord (b : Boot) : Tear → Boot
  | .none => b
  | .copyA =>
    if b.step = 0 then b
    else if b.step ≤ 2 then { b with copyA := { b.copyA with area := b.copyA.area.filter (fun e => decide (e.1 ≠ b.step)) } }
    else
      let a := b.copyA.tear b.journalSeq
      let c := { b.copyB with recs := b.copyB.recs.filter (fun r => decide (r.seq ≠ b.journalSeq)) }
      Boot.readAs { b with copyA := a, copyB := c } (mergeCopies a.valid c.valid)
  | .copyB =>
    if b.step = 0 then b
    else if b.step ≤ 2 then { b with copyB := { b.copyB with area := b.copyB.area.filter (fun e => decide (e.1 ≠ b.step)) } }
    else { b with copyB := b.copyB.tear b.journalSeq }

/-- STANDBY_RAIL_LOSS: every switched domain is off; the always-on domain stops, and cuts short a journal record being written (R441,
R466). -/
def execStandbyRailLoss (tear : Tear) (s : State) : Out :=
  .next (
    if !s.pow.standby then s
    else
      let b := if s.pow.resetLow then s.boot else s.boot.cutRecord tear
      ({ s with pow := { s.pow with standby := false }, boot := b } : State).darken)

/-- MAIN_RAIL_GOOD: VIN12 and VAUX18 are both good. Step 0x04 can proceed; a module whose epoch the loss ended begins a new
power-up at step 0x01 (R412, R466). -/
def execMainRailGood (s : State) : Out :=
  .next (
    if s.pow.main then s
    else
      let s := { s with pow := { s.pow with main := true } }
      if s.boot.ended && s.pow.standby && !s.pow.resetLow then s.powerUp 1 0 s.boot.restarts
      else if atStep s 4 then s.mainDomains .powering else s)

/-- MAIN_RAIL_LOSS: VIN12 or VAUX18 is lost, which ends the powered epoch: the step in progress is interrupted, every switched domain
loses power, and the module waits at step 0x04 (R412, R418). A halted boot stays halted (R421), and step 0x00, the reset of the always-on
domain, runs on (log entry 21). -/
def execMainRailLoss (s : State) : Out :=
  .next (
    if !s.pow.main then s
    else
      let s := interruptStep { s with pow := { s.pow with main := false } }
      if !s.pow.standby || s.pow.resetLow || decide (s.boot.step = 0) then s
      else if s.boot.halted then s.dropMain
      else
        let s := s.dropMain
        { s with boot := { s.boot with step := 4, ended := true } })

/-- RESET_N_ASSERT: RESET_N has been low for 1 µs (R469). -/
def execResetNAssert (s : State) : Out :=
  .next (
    if s.pow.resetLow then s
    else
      let s := interruptStep s
      ({ s with pow := { s.pow with resetLow := true } } : State).darken)

/-- RESET_N_RELEASE: with standby good, a power-up begins (R412, R469). -/
def execResetNRelease (s : State) : Out :=
  .next (
    if !s.pow.resetLow then s
    else
      let s := { s with pow := { s.pow with resetLow := false } }
      if s.pow.standby then s.powerUp 0 0 s.boot.restarts else s)

/-! ### Steps 0x00 to 0x04 -/

/-- POWER_ON (step 0x00): the straps are sampled as the fabric address and STBY_OK is released (R312, R413, R469). -/
def execPowerOn (straps : BitVec 13) (s : State) : Out :=
  .next (
    if !atStep s 0 then s
    else
      let s := { s with fabric := { s.fabric with address := straps.setWidth 32 }, pow := { s.pow with stbyOk := true } }
      enterStep s 1)

/-- The numbers that make up the fuse state: every budget, value and fused repair-map generation (Table 17-3). -/
def fuseNumbers (s : State) : List Nat :=
  let b := s.boot
  [b2n b.gradeB, b.debugLeft, b2n b.debugLocked, b.keyLeft, b.keySlot, b.primaryLeft, b2n b.primaryFused, b.rollbackLeft, b.repairLeft,
    Config.releaseKeyHash.toNat, Config.ownerHash0.toNat] ++ b.keyHashes.map (·.toNat) ++ b.fusedMap.map (fun r => ofLe r.bytes)

def setMeas (s : State) (l : List (Nat × BitVec 256)) : State :=
  { s with boot := { s.boot with meas := l.foldl (fun m e => listSet m e.1 e.2) s.boot.meas } }

/-- FUSE (step 0x01): a failed read halts the boot, and the next power-up reads at the relaxed margin (Table 16-4). -/
def execFuse (ok : Bool) (s : State) : Out :=
  .next (
    if !atStep s 1 then s
    else
      let s := if s.boot.failed 1 then alterStep s 1 0x01 else s
      if !ok then haltBoot (addFail s 1 false 0) 1 s.boot.detail []
      else
        let s := setMeas (clearFail s 1) [(0, Config.measure 0 (fuseNumbers s))]
        endStep s 1)

/-- Whether the chosen slot's image passes, once the device has been read: its three sections stand, and its SVN is not below the
anti-rollback counter (R452). -/
def slotPasses (s : State) (read : Bool) : Bool :=
  read && slotVerifies s s.boot.chosen &&
  decide (rollbackCounter s ≤ (Config.svn s.boot.chosen (slotBytes s.boot s.boot.chosen)).toNat)

/-- Whether the golden image passes, once the device has been read: it is exempt from the counter (R452). -/
def goldenPasses (s : State) (read : Bool) : Bool := read && slotVerifies s 2

/-- The image in use is fixed, and the image loader, which is no part of it, and its release, module and site sections are measured (R449,
Table 17-3). -/
def useImage (s : State) (i : Nat) : State :=
  let s := { s with boot := { s.boot with inUse := i } }
  let m := slotBytes s.boot i
  setMeas s [(1, Config.measure 1 []), (2, Config.sm3 (Config.sectionBody i 0 m)),
    (3, Config.sm3 (Config.moduleBody s.boot.sectionInUse)), (4, Config.sm3 (Config.sectionBody i 2 m))]

/-- IMAGE (step 0x02): the chosen slot, else the golden image; after a failure the golden device is read first; when both fail
the boot halts (R414, R452, Table 16-4). An operand says whether a device's read gave what it holds. -/
def execImage (primaryRead goldenRead : Bool) (s : State) : Out :=
  .next (
    if !atStep s 2 then s
    else
      let primary := slotPasses s primaryRead
      let golden := goldenPasses s goldenRead
      if s.boot.failed 2 then
        let s := alterStep s 2 0x02
        if golden then endStep (useImage (clearFail s 2) 2) 2
        else if primary then endStep (useImage (clearFail s 2) s.boot.chosen) 2
        else haltBoot s 2 0x03 []
      else if primary then endStep (useImage s s.boot.chosen) 2
      else
        let s := addFail s 2 false 0
        if golden then failStep (useImage (alterStep s 2 0x02) 2) 2 [] else haltBoot s 2 0x03 [])

/-- The newest epoch that a journal holds. -/
def newestEpoch (l : List JRec) : Nat := l.foldl (fun a r => max a r.epoch.toNat) 0

/-- A reed at place `i` of an L1 sheaf, or its spare, failed: the repair map takes the repair (R53, R54). -/
def failReed (s : State) (reed position seq : Nat) (runtime : Bool) : State :=
  s.modSheaf (reed / 4096) (fun sh =>
    let k := reed % 4096 / 16
    { sh with repair := KMap.put L1Repair.none sh.repair k ((sh.l1 k).fail (reed % 16) position seq runtime) })

/-- Apply one reed repair record to a repair map (R53). -/
def replayReed (s : State) (r : JRec) : State :=
  failReed s (leAt r.body 0 3 % 2 ^ 20) (leAt r.body 3 1) r.seq (decide (leAt r.body 4 1 = 1))

/-- Put one remap record in force: a reed, a copper lane or a memory page (R415). -/
def replay (s : State) (r : JRec) : State :=
  if r.type = 0x0004 then replayReed s r
  else if r.type = 0x0006 then
    s.modCopper (leAt r.body 0 1) (fun x => { x with bad := x.bad ||| laneSet [leAt r.body 1 1] })
  else if r.type = 0x0007 then
    let q := leAt r.body 6 4
    s.modChan (leAt r.body 0 2) (fun c =>
      { c with remap := KMap.ins c.remap (leAt r.body 2 4) q, sparesUsed := max c.sparesUsed (q + 1 - pagesPerChan) })
  else s

/-- The remaps in force in the order in which they were recorded: those of the fused repair map and the journal's others (R415, R459). -/
def remapHistory (b : Boot) : List JRec :=
  (b.fusedMap ++ b.journal.filter (fun r => !(b.fusedMap.map (·.seq)).contains r.seq)).foldr insSeq []

/-- Rebuild the remap tables from the fused repair map and the journal (R415, R459). -/
def rebuildMaps (s : State) : State := (remapHistory s.boot).foldl replay s

/-- A fresh copy of the journal: its boot-step area stands. -/
def JCopy.fresh (c : JCopy) : JCopy := { JCopy.blank with area := c.area }

/-- The final record that the journal held as the power-up began fails its CRC in both copies, or is discarded as though it did (Table
16-4). -/
def Boot.dropFinal (b : Boot) : Boot := { b with copyA := b.copyA.tear b.priorSeq, copyB := b.copyB.tear b.priorSeq }

/-- Whether that record is torn, and no copy gives it. -/
def Boot.finalTorn (b : Boot) : Bool :=
  b.copyA.torn.contains b.priorSeq && !(b.copyB.valid.any (fun r => decide (r.seq = b.priorSeq)))

/-- Read the journal (R415, R460, Table 16-4): copy A first, or copy B first after a watchdog expiry, which also discards the final record;
with no readable copy a fresh journal starts, with no slot on trial and slot A chosen. -/
def readJournal (s : State) (again readableA readableB : Bool) : State :=
  let b := if again then s.boot.dropFinal else s.boot
  let l := if readableA then b.copyA.valid else []
  let m := if readableB then b.copyB.valid else []
  let c := b.readAs (if again then mergeCopies m l else mergeCopies l m)
  { s with boot := if readableA || readableB then c
      else { c with copyA := b.copyA.fresh, copyB := b.copyB.fresh, trial := none, chosen := 0, rollbackPending := 0,
                    failures := c.failures.filter (fun f => decide (f.step ≤ 2)) } }

/-- Copy a record of the boot-step area into the journal proper under the new `PWREPOCH` (R418). -/
def copyStep (s : State) (n : Nat) : State :=
  match s.boot.areaRec n with
  | some r => (s.journalAdd r.type r.status r.body).1
  | none => s

/-- The FW_FALLBACK record of an abandoned slot, written once (R455). -/
def noteFallback (s : State) : State :=
  if !s.boot.fallbackDue then s
  else ({ s with boot := { s.boot with fallbackDue := false } } : State).journalAdd 0x000D .ok
    (leBytes 1 (1 - s.boot.chosen) ++ leBytes 1 s.boot.chosen) |>.1

/-- JOURNAL (step 0x03): the journal is read, the epoch advances, the records of steps 0x01 and 0x02 are copied, and the remap
tables are rebuilt and measured (R415, R418, R449). The operands say which copies can be read, and, where neither can, the largest epoch
found in any record that can. -/
def execJournal (readableA readableB : Bool) (largestEpoch : W32) (s : State) : Out :=
  .next (
    if !atStep s 3 then s
    else
      let again := s.boot.failed 3
      let readable := readableA || readableB
      let torn := s.boot.finalTorn
      let s := readJournal s again readableA readableB
      let last := if readable then newestEpoch s.boot.journal else largestEpoch.toNat
      let s := if again || torn then alterStep s 3 0x04 else s
      let s := if readable then s else alterStep s 3 0x05
      let s := { s with epoch := BitVec.ofNat 32 (last + 1) }
      let s := copyStep (copyStep s 1) 2
      let s := (s.journalAdd 0x0003 .ok (leBytes 4 s.epoch.toNat)).1
      let s := noteFallback s
      let s := rebuildMaps s
      let remaps := (s.boot.fusedMap ++ s.boot.journal).filter (fun r => decide (4 ≤ r.type) && decide (r.type ≤ 7))
      let s := setMeas (clearFail s 3) [(5, Config.measure 5 (remaps.map (fun r => ofLe r.body)))]
      endStep s 3)

/-- POWER (step 0x04): with the main rail good, the feed dies, host ports and network domains are powered; a regulation failure
halts the boot, and the next power-up stages the inrush at half rate (R413, R427, Table 16-4). -/
def execPower (ok : Bool) (s : State) : Out :=
  .next (
    if !atStep s 4 || !s.pow.main then s
    else
      let s := if s.boot.failed 4 then
          alterStep { s with pow := { s.pow with halfInrush := true } } 4 0x06 else s
      if !ok then haltBoot (addFail s 4 false 0) 4 0x07 []
      else
        let s := s.mainDomains .awake
        endStep (clearFail { s with pow := { s.pow with pwrGood := true } } 4) 4)

/-! ### BIST, MEMORY, EAVES (steps 0x05 to 0x07) -/

/-- A reed fails BIST: replaced by a good free spare, else retired; one already repaired changes nothing (R54). -/
def bistReed (s : State) (r : Nat) : State :=
  let g := r / 4096
  let k := r % 4096 / 16
  let x := (s.sheaf g).l1 k
  if x.l1Retired || decide (x.retired = some (r % 16)) || decide (x.replaced = some (r % 16)) then s
  else
    let j := recordRepair s r (r % 16) false
    failReed j.1 r (r % 16) j.2 false

/-- The repair of an L1 sheaf by its number. -/
def spareOf (s : State) (q : Nat) : L1Repair := (s.sheaf (q / 256)).l1 (q % 256)

/-- The spare of an L1 sheaf fails BIST, which is recorded under its position; a reed whose place it held is retired (R54). -/
def bistSpare (s : State) (q : Nat) : State :=
  let x := spareOf s q
  if x.spareBad then s
  else
    let r := 16 * q + x.replaced.getD 0
    let j := recordRepair s r 16 false
    failReed j.1 r 16 j.2 false

/-- A loft row is replaced (Table 17-7). -/
def bistLoftRow (s : State) (e : Nat × Nat × Nat) : State :=
  remapRecord s 0x0005 (leBytes 3 (sheafPath e.1).toNat ++ leBytes 4 e.2.1 ++ leBytes 4 e.2.2)

/-- The repairs and withholdings that BIST finds on the dies it ran on (R54, R419). -/
def bistRepairs (s : State) (o : BistOutcome) (ran : Nat → Bool) : State :=
  let bad := (o.badSpares.filter (fun q => decide (q < 65536) && ran (q / 4096))).dedup
  let reeds := (o.failed.filter (fun r => decide (r < 1048576) && ran (r / 65536))).dedup
  let rows := o.loftRows.filter (fun e => decide (e.1 < 256) && ran (e.1 / 16))
  let held := (o.withheld.filter (fun g => decide (g < 256) && ran (g / 16))).dedup
  let lost := bad.any (fun q => (spareOf s q).replaced.isSome && !(spareOf s q).spareBad)
  let s := rows.foldl bistLoftRow (reeds.foldl bistReed (bad.foldl bistSpare s))
  let s := held.foldl (fun s g => s.modSheaf g (fun sh => { sh with withheld := true })) s
  if reeds.isEmpty && held.isEmpty && !lost then s else degradeBoot s 0x08

/-- BIST (step 0x05): repairs, withheld sheaves, a failed network domain, and dies whose watchdog expired; a die that did so on the
previous power-up is skipped (R54, R419, Table 16-4). -/
def execBist (o : BistOutcome) (s : State) : Out :=
  .next (
    if !atStep s 5 then s
    else
      let skipped := (s.boot.failures.filter (fun f => decide (f.step = 5))).map (·.item)
      let ran := fun (d : Nat) => !skipped.contains d
      let late := (o.watchdog.filter (fun d => decide (d < 16) && ran d)).dedup
      let s := if skipped.isEmpty then s else alterStep s 5 0x09
      if !late.isEmpty then restartBoot (late.foldl (fun s d => addFail s 5 true d) s) 5 late
      else if o.netFailed.any (fun d => decide (d < 16) && ran d) then haltBoot s 5 0x07 (o.netFailed.filter (fun d => decide (d < 16) && ran d))
      else endStep (clearFail (bistRepairs s o ran) 5) 5)

/-- A channel's training record in use (R382): the journal's newest, written after a full training, or else the image's. -/
def trainingRecordOf (s : State) (ch : Nat) : List Byte :=
  match s.boot.journal.reverse.find? (fun r => decide (r.type = 0x0009) && decide (leAt r.body 0 2 = ch)) with
  | some r => r.body.take 64
  | none => Config.trainingRecord s.boot.sectionInUse ch

/-- The RATE of a channel's training record; a code above 2 names no rate and is taken as 0 (Table 14-6; log entry 27). -/
def recordRate (s : State) (ch : Nat) : Nat :=
  let r := leAt (trainingRecordOf s ch) 2 1
  if r ≤ 2 then r else 0

/-- A channel at the end of its climb: at rung 0 its record applies; a later rung writes a new record; at 4 it has failed rung 3 (R383). -/
def trainChannel (s : State) (ch rung : Nat) : State :=
  if rung = 0 then
    if recordRate s ch = 0 then s else s.modChan ch (fun c => { c with rate := recordRate s ch })
  else if rung = 4 then s
  else journalTraining (s.modChan ch (fun c => { c with rate := rung - 1 })) ch (rung - 1) rung false

/-- The rung at which a channel's climb starts: rung 2 where it had not ended when MEMORY's watchdog expired on the previous power-up (Table
16-4), else rung 0. -/
def startRung (s : State) (ch : Nat) : Nat :=
  if s.boot.failures.any (fun f => decide (f.step = 6) && f.watchdog && decide (f.item = ch)) then 2 else 0

/-- Whether a channel's climb comes to a rung: from rung 0 it starts at its record's RATE, and tries the faster rungs first only when
`PWREPOCH` is a multiple of 16 (R383). -/
def rungOpen (s : State) (e : Nat × Nat) : Bool :=
  if startRung s e.1 = 2 then decide (2 ≤ e.2)
  else decide (e.2 = 0) || decide (recordRate s e.1 < e.2) || decide (s.epoch.toNat % 16 = 0)

/-- The rung at which a channel passed, 4 for one that failed rung 3: the first that the operand lists of those its climb comes to, or the
one at which it starts. -/
def rungOf (s : State) (rungs : List (Nat × Nat)) (ch : Nat) : Nat :=
  ((rungs.find? (fun e => decide (e.1 = ch) && decide (e.2 ≤ 4) && rungOpen s e)).map (·.2)).getD (startRung s ch)

/-- MEMORY (step 0x06): every channel trains, each with its own outcome; a channel that fails rung 3 halts the boot, and otherwise memory is
filled with zero (R379, R383). An unlisted channel passed at the rung at which it starts. -/
def execMemory (rungs : List (Nat × Nat)) (s : State) : Out :=
  .next (
    if !atStep s 6 then s
    else
      let rung := rungOf s rungs
      let failed := (List.range 512).filter (fun ch => decide (rung ch = 4))
      let s := if s.boot.failures.any (fun f => decide (f.step = 6) && f.watchdog) then alterStep s 6 s.boot.detail else s
      let s := (List.range 512).foldl (fun s ch => trainChannel s ch (rung ch)) s
      let s := if (List.range 512).any (fun ch => decide (rung ch ≠ 0)) then setDetail s 0x0A else s
      if failed.isEmpty then endStep (clearFail { s with mem := { s.mem with bytes := [], poison := [] } } 6) 6
      else haltBoot (failed.foldl (fun s ch => addFail s 6 false ch) s) 6 0x0B failed)

/-- One eave at the EAVES step: skipped after its failure on the previous power-up; an eave without an outcome ran into its
watchdog (R367, Table 16-4). -/
def bootEave (outcomes : List CommOutcome) (skipped : List Nat) (s : State) (e : Nat) : State :=
  if skipped.contains e then alterStep (s.modEave e (fun x => { x with st := .failed })) 7 0x0D
  else match outcomes[e]? with
    | none => degradeBoot (addFail (s.modEave e (fun x => { x with st := .failed })) 7 true e) 0x0C
    | some out =>
      let o := outcomeOf s e out
      let s := commissioned s e 0 out
      if commResult o = 2 then degradeBoot (addFail s 7 false e) 0x0C
      else if commResult o = 1 then degradeBoot s 0x0C else s

/-- The EAVES step with the outcomes that came in time; it is a failed step where an eave that was not skipped has failed (Table 16-4). -/
def runEaves (s : State) (outcomes : List CommOutcome) : State :=
  let skipped := (s.boot.failures.filter (fun f => decide (f.step = 7))).map (·.item)
  let t := if s.boot.gradeB then s else (List.range 8).foldl (bootEave outcomes skipped) s
  let lost := ((t.boot.failures.filter (fun f => decide (f.step = 7))).map (·.item)).filter (fun e => !skipped.contains e)
  if lost.isEmpty then endStep t 7 else failStep t 7 lost

/-- EAVES (step 0x07): all present eaves are commissioned (R367). -/
def execEaves (outcomes : List CommOutcome) (s : State) : Out :=
  .next (if atStep s 7 then runEaves s outcomes else s)

/-! ### Release and the step watchdog -/

/-- The increments reserved for a slot on trial are burned at its first release, and the slot leaves trial (R455, R456). -/
def burnRollback (s : State) : State :=
  if s.boot.trial.isNone || decide (s.boot.inUse ≠ s.boot.chosen) then s
  else
    let n := s.boot.rollbackPending
    let left := s.boot.rollbackLeft - n
    let s := { s with boot := { s.boot with trial := none } }
    if n = 0 then s
    else
      let s := (s.journalAdd 0x000B .ok (leBytes 1 4 ++ [0] ++ leBytes 1 s.boot.rollbackLeft)).1
      let s := { s with boot := { s.boot with rollbackLeft := left, rollbackPending := 0 } }
      s.journalSecurity 0x000B .ok (leBytes 1 4 ++ [1] ++ leBytes 1 left)

/-- The SECURITY event of an abandoned slot (R455, R463). -/
def tellFallback (s : State) : State :=
  if !s.boot.fallback then s
  else
    let s := { s with boot := { s.boot with fallback := false } }
    match s.boot.journal.reverse.find? (fun r => decide (r.type = 0x000D)) with
    | some r => s.moduleEvent 0x0B0F 7 .ok r.bytes
    | none => s

/-- RELEASED (step 0x08): packet windows open with every sheaf OFF and memory zero; discovery begins with the copper courses
(R343, R416, R453, R456). -/
def execReleased (s : State) : Out :=
  .next (
    if !atStep s 8 || s.boot.released then s
    else
      let s := burnRollback s
      let s := { s with
        boot := { s.boot with released := true, lastReleased := if s.boot.inUse ≤ 1 then s.boot.inUse else s.boot.lastReleased },
        fabric := { s.fabric with phase := 2, lead := Config.fabricId },
        pow := { s.pow with copper := Vector.ofFn (fun (c : Fin 5) => if s.boot.gradeB && decide (2 ≤ c.val) then .off else .powering) },
        eaves := s.eaves.map (fun x => { x with swaps := 0, fails := 0 }) }
      tellFallback s)

/-- The parts whose watchdog has expired: at BIST the dies that ran and have not ended, at MEMORY the channels. -/
def lateParts (s : State) (late : List Nat) : List Nat :=
  if s.boot.step = 5 then
    (late.filter (fun d => decide (d < 16) && !s.boot.failures.any (fun f => decide (f.step = 5) && decide (f.item = d)))).dedup
  else if s.boot.step = 6 then (late.filter (fun ch => decide (ch < 512))).dedup else []

/-- STEP_WATCHDOG: the step in progress has run past twice its bound; the operand lists the parts of it that have not ended. FUSE halts;
EAVES goes on without the eaves that have not ended; every other step restarts the module. A step that waits for the main rail has no
bound yet (R413, R421, Table 16-4). -/
def execStepWatchdog (late : List Nat) (s : State) : Out :=
  .next (
    let n := s.boot.step
    if n = 0 || decide (7 < n) || !atStep s n || (decide (n = 4) && !s.pow.main) then s
    else if n = 1 then haltBoot (addFail s 1 true 0) 1 s.boot.detail []
    else if n = 7 then runEaves s []
    else if n = 5 || n = 6 then
      let l := lateParts s late
      restartBoot (l.foldl (fun s i => addFail s n true i) s) n l
    else restartBoot (addFail s n true 0) n [])

/-! ### The keep tick (R425) -/

/-- Whether an engine of a reed executes an instruction, and so may wait for a scratchpad port (R133, R135). -/
def Reed.executing (x : Reed) : Bool := x.allQueued.any (fun q => q.started)

/-- The cycle counters of a reed over one keep tick: from its START until the program has ended `CYCLES` counts array cycles, and
`STALLS` what held the stream and what an executing engine waited for a port, which it does in PAUSED and FAULTED too (R78,
R140); how many array cycles pass is free (log entry 5). -/
def Reed.tick (x : Reed) (base : Nat) : Reed :=
  if !x.counting then x
  else
    let c := (Config.cyclesInTick base).toNat
    let held := (decide (x.hold = .fullQueue) || decide (x.hold = .fetch)) && (decide (x.st = .running) || decide (x.st = .draining))
    { x with cycles := x.cycles + BitVec.ofNat 64 c,
             fullq := if held then BitVec.ofNat 32 (min (x.fullq.toNat + c) (2 ^ 32 - 1)) else x.fullq,
             portStalls := if x.executing then
               BitVec.ofNat 32 (min (x.portStalls.toNat + (Config.cyclesInTick (base + 1)).toNat) (2 ^ 32 - 1)) else x.portStalls }

/-- Number free values along a list of reeds. -/
def tickReeds : KMap Reed → Nat → KMap Reed × Nat
  | [], n => ([], n)
  | (l, x) :: t, n => let r := tickReeds t (n + 2); ((l, x.tick n) :: r.1, r.2)

/-- One keep tick of every awake sheaf: its timer counts whatever its clock (R424), its reeds' counters and lane generators while the array
clock runs (R193). -/
def tickSheaves (tripped : Bool) (periods : Nat) : KMap Sheaf → Nat → KMap Sheaf × Nat
  | [], n => ([], n)
  | (g, x) :: t, n =>
    if x.power ≠ .awake then let r := tickSheaves tripped periods t n; ((g, x) :: r.1, r.2)
    else
      let runs := !x.clock.limited && !tripped
      let q := if runs then tickReeds x.reeds (n + 1) else (x.reeds, n + 1)
      let r := tickSheaves tripped periods t q.2
      ((g, { x with reeds := q.1, timer := x.timer + periods,
                    laneCycles := x.laneCycles + if runs then (Config.cyclesInTick n).toNat else 0 }) :: r.1, r.2)

/-- One keep tick: `PWRTIME` counts while standby is good and RESET_N is released (R422, R425, R469). -/
def keepTick (s : State) : State :=
  if !s.pow.standby || s.pow.resetLow then s
  else
    let periods := (Config.periodsInTick s.free).toNat
    let r := tickSheaves s.pow.tripped periods s.sheaves (s.free + 1)
    let timers := Vector.ofFn (fun (d : Fin 16) => s.pow.netTimer[d] + if s.pow.net[d] = .awake then periods else 0)
    let t := { s with ticks := s.ticks + 1, sheaves := r.1, free := r.2, pow := { s.pow with netTimer := timers } }
    flushBar2 (resumeTrusses (repeatDecisions t))

end Sys2Proof.Machine
end

