-- ==== Sys2Proof/Machine/Stream.lean ====
section
/-!
DEFINITION. The stream instructions NOP to END (R129 to R131, R137, R143 to R146) and the steps of the stream that are not
an issue. Each instruction has its checks, in order, and its effect.
-/

namespace Sys2Proof.Machine

/-- The reserved parts of a stream instruction: its bytes 1 to 7, then the operand fields from the first it does not use on,
each named as the operand at fault (R130, Table 5-7). DESIGN CHOICE (log entry 78): where several are set the first in this order is taken,
and all of them come before FIELD_RANGE and BAD_REG; the spec gives no order. -/
def reservedFlaws (w : BitVec 256) (bytes : Bool) (unused : Nat) : List (Bool × Flaw) :=
  [(bytes, (.reservedField, 0)), (decide (unused ≤ 1 ∧ insF w 1 ≠ 0), (.reservedField, 1)),
   (decide (unused ≤ 2 ∧ insF w 2 ≠ 0), (.reservedField, 2)), (decide (unused ≤ 3 ∧ insF w 3 ≠ 0), (.reservedField, 3))]

/-- Reserved bytes of an instruction that uses bytes 1 to 3 with these masks of reserved bits, bytes 4 to 7 as said, and
no operand field (Table 5-13). -/
def streamReserved (w : BitVec 256) (m1 m2 m3 : Nat) (immUsed : Bool) : Bool :=
  Nat.land (insByte w 1) m1 ≠ 0 || Nat.land (insByte w 2) m2 ≠ 0 || Nat.land (insByte w 3) m3 ≠ 0 ||
  (!immUsed && insAux w ≠ 0)

/-- sD, sA, sB (R130). -/
def insSD (w : BitVec 256) : Nat := insByte w 1 % 16
def insSA (w : BitVec 256) : Nat := insByte w 1 / 16
def insSB (w : BitVec 256) : Nat := insByte w 2 % 16

/-! ### NOP, SETI, ALU -/

def nopFlaw (w : BitVec 256) (_ : Reed) : Option Flaw :=
  firstFlaw (reservedFlaws w (streamReserved w 255 255 255 false) 1)

def issueNop (s : State) (r : Nat) : State := issue s r 0x00 (scalar r nopFlaw (fun _ _ x => x))

/-- NOP (Table 5-12). -/
def execNopInstruction (r : ReedIx) (s : State) : Out := .next (issueNop s r)

def setiFlaw (w : BitVec 256) (_ : Reed) : Option Flaw :=
  firstFlaw (reservedFlaws w (streamReserved w 0xF0 255 255 true) 1)

def issueSeti (s : State) (r : Nat) : State :=
  issue s r 0x01 (scalar r setiFlaw (fun _ w x => x.setS (insSD w) (insAux w)))

/-- SETI: sD takes IMM32. -/
def execSeti (r : ReedIx) (s : State) : Out := .next (issueSeti s r)

/-- The scalar functions of Table 5-14 on 32-bit values (R131). -/
def aluFn (fn : Nat) (a b : BitVec 32) : BitVec 32 :=
  match fn with
  | 0 => a + b
  | 1 => a - b
  | 2 => a * b
  | 3 => a &&& b
  | 4 => a ||| b
  | 5 => a ^^^ b
  | 6 => a <<< (b.toNat % 32)
  | 7 => a >>> (b.toNat % 32)
  | 8 => a.sshiftRight (b.toNat % 32)
  | 9 => if a.toInt ≤ b.toInt then a else b
  | 10 => if a.toInt ≤ b.toInt then b else a
  | 11 => if a.toNat ≤ b.toNat then a else b
  | _ => if a.toNat ≤ b.toNat then b else a

/-- IMM of an ALU instruction. -/
def aluImm (w : BitVec 256) : Bool := bitOf (insByte w 2) 4

def aluFlaw (w : BitVec 256) (_ : Reed) : Option Flaw :=
  firstFlaw (reservedFlaws w (streamReserved w 0 0xE0 0 (aluImm w)) 1 ++ [
    (decide (12 < insByte w 3), (.fieldRange, 0))])

/-- The value an ALU instruction writes to sD. -/
def aluResult (w : BitVec 256) (x : Reed) : BitVec 32 :=
  aluFn (insByte w 3) (BitVec.ofNat 32 (x.s (insSA w)))
    (BitVec.ofNat 32 (if aluImm w then insAux w else x.s (insSB w)))

def issueAlu (s : State) (r : Nat) : State :=
  issue s r 0x02 (scalar r aluFlaw (fun _ w x => x.setS (insSD w) (aluResult w x).toNat))

/-- ALU: sD takes sA FN (sB or IMM32) (R131). -/
def execAlu (r : ReedIx) (s : State) : Out := .next (issueAlu s r)

/-! ### SLD, SST (R130, R134) -/

/-- The checks of SLD and SST, and their operand. DESIGN CHOICE: reserved bits come before the descriptor's checks (R128), and ROWS 1 and
ROW_BYTES 16 after them; R130 gives no order (log entry 78). -/
def wordOperand (w : BitVec 256) (x : Reed) (m1 : Nat) (dest : Bool) : Except Flaw Operand :=
  match firstFlaw (reservedFlaws w (streamReserved w m1 0xFC 255 false) 2) with
  | some f => .error f
  | none => match checkOperand (insF w 1) x.regs 1 dest with
    | .error f => .error f
    | .ok o => if o.rows ≠ 1 || o.rowBytes ≠ 16 then .error (.fieldRange, 1) else .ok o

/-- Issue SLD or SST: wait for older instructions by R134, then act on the word. -/
def wordIssue (r m1 : Nat) (dest : Bool) (eff : Operand → BitVec 256 → Reed → Reed) : State → Reed → BitVec 256 → State :=
  fun s x w =>
    match wordOperand w x m1 dest with
    | .error f => streamFault s r f x.index
    | .ok o =>
      if waitsFor x.allQueued (if dest then [] else [o.extent]) (if dest then [o.extent] else []) then
        s.setReed r { x with hold := .depend }
      else s.setReed r (eff o w x).advance

def issueSld (s : State) (r : Nat) : State :=
  issue s r 0x03 (wordIssue r 0xF0 false (fun o w x =>
    x.setS (insSD w) (ofLe (KMap.bytes x.sp (o.base + 4 * (insByte w 2 % 4)) 4))))

/-- SLD: sD takes one 32-bit word of the scratchpad. -/
def execSld (r : ReedIx) (s : State) : Out := .next (issueSld s r)

def issueSst (s : State) (r : Nat) : State :=
  issue s r 0x04 (wordIssue r 0x0F true (fun o w x =>
    { x with sp := KMap.write x.sp (o.base + 4 * (insByte w 2 % 4)) (leBytes 4 (x.s (insSA w))) }))

/-- SST: one 32-bit word of the scratchpad takes sA. -/
def execSst (r : ReedIx) (s : State) : Out := .next (issueSst s r)

/-! ### MOVR, MOVW -/

def movrFlaw (w : BitVec 256) (_ : Reed) : Option Flaw :=
  firstFlaw (reservedFlaws w (streamReserved w 0xF0 0xFE 0 false) 1 ++ [
    (!regExists (insByte w 3), (.badReg, 0))])

/-- Issue MOVR. DESIGN CHOICE: `POS`.INDEX read by a MOVR is that of the MOVR itself; R118 does not say whether it is the next (log
entry 78). -/
def issueMovr (s : State) (r : Nat) : State :=
  issue s r 0x05 (scalar r movrFlaw (fun s w x =>
    let v := (reedReg s r (insByte w 3)).getD 0
    x.setS (insSD w) (if bitOf (insByte w 2) 0 then v / 2 ^ 32 else v % 2 ^ 32)))

/-- MOVR: sD takes a half of a reed register. -/
def execMovr (r : ReedIx) (s : State) : Out := .next (issueMovr s r)

def movwFlaw (w : BitVec 256) (_ : Reed) : Option Flaw :=
  firstFlaw (reservedFlaws w (streamReserved w 0x0F 255 0 false) 1 ++ [
    (!([0x21, 0x23, 0x28].contains (insByte w 3)), (.badReg, 0))])

def issueMovw (s : State) (r : Nat) : State :=
  issue s r 0x06 (scalar r movwFlaw (fun _ w x => x.writeReg (insByte w 3) (x.s (insSA w))))

/-- MOVW: `VL`, `TRAPCTL` or `RNGCTL` takes sA. -/
def execMovw (r : ReedIx) (s : State) : Out := .next (issueMovw s r)

/-! ### LOOP, BR, WAITQ, END -/

/-- The checks of LOOP (R143). DESIGN CHOICE (log entry 78): reserved bits, then LOOP_END, then LOOP_DEPTH; the spec gives no order. -/
def loopFlaw (w : BitVec 256) (x : Reed) : Option Flaw :=
  let e := insByte w 3
  firstFlaw (reservedFlaws w (streamReserved w 0x0F 255 0xC0 false) 1 ++ [
    (decide (e ≤ x.index), (.loopEnd, 0)),
    (x.loops.head?.any (fun l => decide (l.stop < e)), (.loopEnd, 0)),
    (decide (4 ≤ x.loops.length), (.loopDepth, 0))])

/-- Enter a loop, or skip its body when the count is 0 (R143, R144). -/
def enterLoop (w : BitVec 256) (x : Reed) : Reed :=
  let e := insByte w 3
  let n := x.s (insSA w)
  if n = 0 then { x with index := e + 1, hold := .none }
  else { x with index := x.index + 1, hold := .none,
                loops := { start := x.index, stop := e, iter := 0, count := BitVec.ofNat 32 n } :: x.loops }

def issueLoop (s : State) (r : Nat) : State :=
  issue s r 0x08 (fun s x w => match loopFlaw w x with
    | some f => streamFault s r f x.index
    | none => s.setReed r (enterLoop w x))

/-- LOOP: enter a hardware loop (R143, R144). -/
def execLoop (r : ReedIx) (s : State) : Out := .next (issueLoop s r)

/-- The conditions of Table 5-14. -/
def brTaken (cond : Nat) (a b : BitVec 32) : Bool :=
  match cond with
  | 0 => true
  | 1 => decide (a = 0)
  | 2 => decide (a ≠ 0)
  | 3 => decide (a.toInt < b.toInt)
  | 4 => decide (b.toInt ≤ a.toInt)
  | 5 => decide (a.toNat < b.toNat)
  | _ => decide (b.toNat ≤ a.toNat)

def brFlaw (w : BitVec 256) (_ : Reed) : Option Flaw :=
  firstFlaw (reservedFlaws w (streamReserved w 0x0F 0x10 0xC0 false) 1 ++ [
    (decide (insByte w 2 / 32 = 7), (.fieldRange, 0))])

def issueBr (s : State) (r : Nat) : State :=
  issue s r 0x09 (fun s x w => match brFlaw w x with
    | some f => streamFault s r f x.index
    | none =>
      if brTaken (insByte w 2 / 32) (BitVec.ofNat 32 (x.s (insSA w))) (BitVec.ofNat 32 (x.s (insSB w))) then
        s.setReed r { x.branchTo (insByte w 3) with hold := .none }
      else s.setReed r x.advance)

/-- BR: conditional branch; a taken one ends the loops that do not contain its target (R146). -/
def execBr (r : ReedIx) (s : State) : Out := .next (issueBr s r)

def waitqFlaw (w : BitVec 256) (_ : Reed) : Option Flaw :=
  firstFlaw (reservedFlaws w (streamReserved w 255 0xF0 0xE0 false) 1 ++ [
    (decide (7 < insByte w 2 % 16), (.fieldRange, 0))])

/-- Whether every masked engine's count is at most the depth (R137). -/
def queuesAtMost (x : Reed) (mask depth : Nat) : Bool :=
  (List.range 5).all (fun k => !bitOf mask k || decide (x.depth k ≤ depth))

def issueWaitq (s : State) (r : Nat) : State :=
  issue s r 0x0A (fun s x w => match waitqFlaw w x with
    | some f => streamFault s r f x.index
    | none =>
      if queuesAtMost x (insByte w 3) (insByte w 2) then s.setReed r x.advance
      else s.setReed r { x with hold := .waitq (BitVec.ofNat 5 (insByte w 3)) (insByte w 2) })

/-- WAITQ: wait until queues fall to a depth (R137). -/
def execWaitq (r : ReedIx) (s : State) : Out := .next (issueWaitq s r)

/-- WAITQ_RELEASE: the masked queues have fallen to the depth (R137). -/
def execWaitqRelease (r : ReedIx) (s : State) : Out :=
  .next (
    let x := s.reed r
    match x.hold with
    | .waitq mask depth =>
      if x.st = .running && clockRuns s (r / 4096) && queuesAtMost x mask.toNat depth then s.setReed r x.advance else s
    | _ => s)

/-- Issue END. DEDUCED (log entry 78): until the passage to LOADED, `POS`.INDEX stays at END's entry, and END at the last entry of a loop does not
end its iteration, since END ends the program and nothing is issued after it. -/
def issueEnd (s : State) (r : Nat) : State :=
  issue s r 0x1F (fun s x w => match nopFlaw w x with
    | some f => streamFault s r f x.index
    | none => s.setReed r { x with ended := true, hold := .none })

/-- END: end of program; the reed passes to LOADED once its queues are empty (R141). -/
def execEndInstruction (r : ReedIx) (s : State) : Out := .next (issueEnd s r)

/-- POS_INDEX_WRITE: a write of `POS`.INDEX acts as a taken branch (R118, R146). -/
def execPosIndexWrite (r : ReedIx) (index : BitVec 6) (s : State) : Out :=
  .next (
    let u := (s.sheaf (r / 4096)).stOf (r % 4096)
    if u = .idle ∨ u = .loaded ∨ u = .paused ∨ u = .faulted then s.modReed r (fun x => x.branchTo index.toNat) else s)

/-- TRAPCTL_CLEAR: `TRAPCTL`.CLEAR clears COUNT and the trap record (R121, R223). -/
def execTrapctlClear (r : ReedIx) (s : State) : Out :=
  .next (if (s.sheaf (r / 4096)).power = .awake then s.modReed r Reed.clearTraps else s)

end Sys2Proof.Machine
end

