-- ==== Sys2Proof/Machine/Action.lean ====
section
/-!
DEFINITION. COMMAND_ACTION_COMPLETE (R89): a command whose action takes time completes it, and its reply is formed. HELD_ISSUE_RETRY
(R136): an issue that was held proceeds.
-/

namespace Sys2Proof.Machine

/-! ### COMMAND_ACTION_COMPLETE -/

/-- Send the reply that was prepared when the action began, with the units' state as it is now (R47, R89). -/
def sendPrepared (s : State) (o : Op) : State :=
  let s := s.dropOp o.id
  match cmdOf o.cmd, o.prepared with
  | some (h, _), some k => s.sendReply h o.cmd { k with ustate := s.topAmong (stateScope s o.cmd h) }
  | _, _ => s

/-- Send the prepared reply as it stands. -/
def sendKept (s : State) (o : Op) : State :=
  match cmdOf o.cmd, o.prepared with
  | some (h, _), some k => (s.dropOp o.id).sendReply h o.cmd k
  | _, _ => s.dropOp o.id

/-- Send the prepared reply with more bytes after its payload. -/
def sendLonger (s : State) (o : Op) (more : List Byte) : State :=
  sendPrepared s { o with prepared := o.prepared.map (fun k => { k with payload := k.payload ++ more }) }

/-- A commissioning ends: EAVE_COMMISSION replies with its result, `LINK_DOWN` for a failed eave (R108, R367). -/
def commissionDone (s : State) (o : Op) (e : Nat) (out : CommOutcome) : State :=
  let r := commResult (outcomeOf s e out)
  finishModule ((commissioned (finishDown s e) e 2 out).dropOp o.id) o.id o.cmd (if r = 2 then .linkDown else .ok) (leBytes 1 r)

/-- A sweep ends on every eave it ran on (R368). -/
def sweepDone (s : State) (o : Op) (mask : Byte) (answers : List (Nat × W32)) : State :=
  let s := ((List.range 8).filter (fun e => mask.getLsbD e)).foldl finishDown s
  let es := (List.range 8).filter (fun e => mask.getLsbD e && decide ((s.eave e).st = .sweeping))
  sendPrepared (es.foldl (fun s e => swept s e answers) s) o

/-- A revocation ends once no transfer of the allotment reaches the range, and no page of it is being retired (R98, R225, R394). -/
def revocationDone (s : State) (o : Op) (allot base : Nat) : State :=
  match (s.allot? allot).bind (fun a => a.revoking.find? (fun g => decide (g.1 = base))) with
  | some g => if rangeInUse s allot g || retiringIn s g.1 g.2 then s else sendPrepared (revokeDone s allot base) o
  | none => sendPrepared s o

/-- A module command that was in progress ends. Data of the wrong kind is not the end of its action, and nor is any while a map of it waits
for a laser swap (R102). -/
def moduleDone (s : State) (o : Op) (data : ActionData) : State :=
  match o.cmd, data with
  | .hostDma h dir host dev n, d =>
    match portOf h, d with
    | some p, .bytes l errs => if dir = 0 then dmaDone s o dir p host.toNat dev.toNat n.toNat l errs else s
    | some p, .plain => if dir = 0 then s else dmaDone s o dir p host.toNat dev.toNat n.toNat [] []
    | some p, .found errs => if dir = 0 then s else dmaDone s o dir p host.toNat dev.toNat n.toNat [] errs
    | _, _ => s
  | .memFill _ dev n pattern, .found errs => fillDone s o dev.toNat n.toNat pattern errs
  | .memFill _ dev n pattern, .plain => fillDone s o dev.toNat n.toNat pattern []
  | .memFill .., _ => s
  | .fwActivate .., _ => (s.dropOp o.id).powerUp 0 0 s.boot.restarts
  | .memRevoke _ allot base, _ => revocationDone s o allot.toNat base.toNat
  | .rowRetire _ a, _ =>
    if (s.chan (memChan a.toNat)).retiring.contains (memPage a.toNat) then s else sendPrepared s o
  | .eaveCommission _ e, .commission out => commissionDone s o e.toNat out
  | .domainSet _ d _, .commission out => sendPrepared (if d.toNat < 8 then commissioned s d.toNat 2 out else s) o
  | .domainSet _ d _, _ => if d.toNat < 8 then s else sendPrepared s o
  | .allotDissolve .., _ => if undrawWaits s then s else sendKept s o
  | .allotResize .., _ => if undrawWaits s then s else sendKept s o
  | .eaveSweep _ mask, .sweep answers => sweepDone s o mask answers
  | .monitorRead _ e l us, .reading v => finishModule (s.dropOp o.id) o.id o.cmd .ok (monitorPayload s e l us v)
  | .topoDraw h .., .elapsed us =>
    if s.eaves.toList.any (fun x => decide (x.mapAllot = h.allot) && x.pendingMap.isSome) then s else sendLonger s o (leBytes 4 us.toNat)
  | .keyRotate .., _ => fuseDone s o
  | .primarySet .., _ => fuseDone s o
  | .debugLock _, _ => fuseDone s o
  | .repairCommit _, _ => fuseDone s o
  | .eaveCommission .., _ => s
  | .eaveSweep .., _ => s
  | .monitorRead .., _ => s
  | .topoDraw .., _ => s
  | .laserSwap .., _ => s
  | _, _ => sendPrepared s o

/-- COMMAND_ACTION_COMPLETE (R89). A LASER_SWAP is replied to by SWAP_COMPLETE instead. -/
def execCommandActionComplete (op : Nat) (data : ActionData) (s : State) : Out :=
  .next (
    match s.lodge.ops.find? (fun o => decide (o.id = op) && decide (o.wait = .action)) with
    | none => s
    | some o =>
      match unitDefOf o.cmd with
      | some d => (finishUnit (domainsOff (s.dropOp o.id) o.cmd) d o).flushWatches
      | none => moduleDone s o data)

/-! ### HELD_ISSUE_RETRY -/

/-- Issue the next instruction of a reed, whatever it is: the row of its OPC acts. -/
def issueNext (s : State) (r : Nat) : State :=
  let x := s.reed r
  match (KMap.look x.ibuf x.index).map insOpc with
  | some 0x00 => issueNop s r
  | some 0x01 => issueSeti s r
  | some 0x02 => issueAlu s r
  | some 0x03 => issueSld s r
  | some 0x04 => issueSst s r
  | some 0x05 => issueMovr s r
  | some 0x06 => issueMovw s r
  | some 0x08 => issueLoop s r
  | some 0x09 => issueBr s r
  | some 0x0A => issueWaitq s r
  | some 0x1F => issueEnd s r
  | some 0x40 => issueMma s r
  | some 0x41 => issueMmaf s r
  | some 0x42 => issueAccz s r
  | some 0x43 => issueAccst s r
  | some 0x60 => issueVew s r
  | some 0x61 => issueVred s r
  | some 0x62 => issueVscan s r
  | some 0x63 => issueVsscan s r
  | some 0x64 => issueVwide s r
  | some 0x65 => issueVrng s r
  | some 0x66 => issueOpt s r
  | some 0x67 => issueVcld s r
  | some 0x68 => issueVcst s r
  | some 0x80 => issueLd s r
  | some 0x81 => issueLdpage s r
  | some 0xA0 => issueSt s r
  | some 0xC0 => issueXput s r
  | some 0xC1 => issueXget s r
  | _ => issue s r 0x00 (fun s _ _ => s)

/-- HELD_ISSUE_RETRY: an instruction held at issue proceeds once what held it is gone: a full queue, an older instruction it
depends on, or an entry that an LDPAGE was to write (R134, R136, R148). A WAITQ proceeds by its own row. -/
def execHeldIssueRetry (r : ReedIx) (s : State) : Out :=
  .next (
    match (s.reed r).hold with
    | .fullQueue => issueNext s r
    | .depend => issueNext s r
    | .fetch => issueNext s r
    | _ => s)

end Sys2Proof.Machine
end

