-- ==== Sys2Proof/Machine/Packet.lean ====
section
/-!
DEFINITION. Command packets as bytes: the header (R57, R58), the parameters of every opcode (Tables 4-2 to 4-13), the header checks
(R65), the signature trailer (R446), and how packets are taken from a window (R62, R64), from a peer (R75, R330, R457) and from the
sideband (R410, R411).
-/

namespace Sys2Proof.Machine

/-! ### The header -/

/-- The fields of a packet header as they stand (Tables 3-1, 3-2). -/
structure RawHdr where
  version : Nat
  priv : Nat
  opcode : Nat
  words : Nat
  path : BitVec 24
  allot : W16
  flags : Nat
  tag : W32
  deriving DecidableEq, Repr

def rawHdr (b : List Byte) : RawHdr :=
  { version := leAt b 0 1 % 16, priv := leAt b 0 1 / 16, opcode := leAt b 1 2, words := leAt b 3 2,
    path := BitVec.ofNat 24 (leAt b 5 3), allot := BitVec.ofNat 16 (leAt b 8 2), flags := leAt b 10 2,
    tag := BitVec.ofNat 32 (leAt b 12 4) }

/-- Words that a member-mask word and a signature trailer add (R84). -/
def RawHdr.extra (h : RawHdr) : Nat := b2n (bitOf h.flags 4) + 8 * b2n (bitOf h.flags 7)

/-- The header as a command carries it. -/
def RawHdr.hdr (h : RawHdr) (src : Src) (b : List Byte) : Hdr :=
  { src := src, priv := BitVec.ofNat 4 h.priv, path := h.path, allot := h.allot, slot := BitVec.ofNat 4 h.flags,
    mask := if bitOf h.flags 4 then some (BitVec.ofNat 64 (leAt b 16 8)) else none,
    quiet := bitOf h.flags 5, fence := bitOf h.flags 6, irq := bitOf h.flags 8, tag := h.tag }

/-- The parameter bytes. -/
def RawHdr.params (h : RawHdr) (b : List Byte) : List Byte :=
  let off := 16 + 8 * b2n (bitOf h.flags 4)
  (b.drop off).take (8 * h.words - off - 64 * b2n (bitOf h.flags 7))

/-! ### Parameters -/

/-- A command read from parameter bytes: LENGTH that its count field asks for, mask word and trailer apart (R85), and whether every
reserved byte is zero (R8). -/
structure Parsed where
  cmd : Instr
  words : Nat
  clean : Bool

/-- Whether bytes from `lo` to below `hi` are zero. -/
def zeroIn (p : List Byte) (lo hi : Nat) : Bool := ((p.drop lo).take (hi - lo)).all (fun b => decide (b = 0))

/-- Whether bytes from `lo` to the end of its word are zero (R85). -/
def zeroFrom (p : List Byte) (lo : Nat) : Bool := zeroIn p lo (8 * ceilDiv lo 8)

def pB (p : List Byte) (k : Nat) : Byte := BitVec.ofNat 8 (leAt p k 1)
def pH (p : List Byte) (k : Nat) : W16 := BitVec.ofNat 16 (leAt p k 2)
def pW (p : List Byte) (k : Nat) : W32 := BitVec.ofNat 32 (leAt p k 4)
def pD (p : List Byte) (k : Nat) : W64 := BitVec.ofNat 64 (leAt p k 8)

/-- `n` u32 values from an offset. -/
def pList (p : List Byte) (k n : Nat) : List W32 := (List.range n).map (fun i => pW p (k + 4 * i))

/-- `n` bytes from an offset. -/
def pBytes (p : List Byte) (k n : Nat) : List Byte := (p.drop k).take n

/-- A command with one byte of parameters, the rest of the word reserved. -/
def oneByte (p : List Byte) (f : Byte → Instr) : Parsed := ⟨f (pB p 0), 3, zeroIn p 1 8⟩

/-- A TENSOR_MOVE descriptor (Table 9-7). -/
def pDesc (p : List Byte) : MoveDesc :=
  { kind := pB p 0, fmt := pB p 1, flags := pB p 2, handle := pH p 4, srcAddr := pD p 8, dstAddr := pD p 16,
    srcView := pW p 24, dstView := pW p 28, fill := pW p 32 }

def descClean (p : List Byte) : Bool := decide (leAt p 2 1 < 16) && zeroIn p 3 4 && zeroIn p 6 8 && zeroIn p 36 64

/-- A dimension record (Table 9-8). -/
def pDim (p : List Byte) : DimRec :=
  { size := pW p 0, split := pB p 4, parts := pH p 6, place := BitVec.ofNat 48 (leAt p 8 6), halo := pH p 14 }

/-- A collective plan (Table 11-1). -/
def pPlan (p : List Byte) : Plan :=
  { op := pB p 0, fmt := pB p 1, outFmt := pB p 2, shape := pB p 3, radix := pB p 4, courses := pB p 5, root := pH p 6,
    buckets := pW p 8, src0 := pW p 12, src1 := pW p 16, dst0 := pW p 20, dst1 := pW p 24, acc := pW p 28, work := pW p 32,
    window := pH p 36, commit := pW p 40, planId := pW p 44 }

/-- A colour map (Table 12-5). -/
def pMap (p : List Byte) : ColourMap :=
  { format := pB p 0, radix := pB p 1, mapId := pW p 4, tx := pBytes p 8 32, rx := pBytes p 40 32 }

/-- Device, unit and memory classes (Tables 4-2, 4-5, 4-6). -/
def parseLow (h : Hdr) (p : List Byte) : Nat → Option Parsed
  | 0x0100 => some ⟨.nop h p, 2 + p.length / 8, true⟩
  | 0x0101 => some ⟨.devInfo h, 2, true⟩
  | 0x0102 => some ⟨.regRead h (pH p 0), 3, zeroIn p 2 8⟩
  | 0x0103 => some ⟨.regWrite h (pH p 0) (pD p 8), 4, zeroIn p 2 8⟩
  | 0x0104 => some (oneByte p (.portGrant h))
  | 0x0105 => some ⟨.takeover h (pH p 0), 3, zeroIn p 2 8⟩
  | 0x0201 => some ⟨.wake h, 2, true⟩
  | 0x0202 => some ⟨.sleep h, 2, true⟩
  | 0x0203 => some ⟨.reset h, 2, true⟩
  | 0x0204 => some ⟨.query h, 2, true⟩
  | 0x0205 =>
    let n := leAt p 2 2
    let inl := decide (pB p 0 = 0)
    some ⟨.progLoad h (pB p 0) (pH p 2) (pH p 4) (pD p 8) (if inl then pBytes p 16 (32 * n) else []),
      if inl then 4 + 4 * n else 4, zeroIn p 1 2 && zeroIn p 6 8⟩
  | 0x0206 =>
    let n := leAt p 0 1
    some ⟨.start h (pList p 8 n), 3 + ceilDiv n 2, zeroIn p 1 8 && zeroFrom p (8 + 4 * n)⟩
  | 0x0207 => some ⟨.pause h, 2, true⟩
  | 0x0208 => some ⟨.resume h, 2, true⟩
  | 0x0209 => some ⟨.drain h, 2, true⟩
  | 0x020A => some ⟨.uregRead h (pH p 0), 3, zeroIn p 2 8⟩
  | 0x020B => some ⟨.uregWrite h (pH p 0) (pD p 8), 4, zeroIn p 2 8⟩
  | 0x020C => some ⟨.spRead h (pH p 0) (pH p 2), 3, zeroIn p 4 8⟩
  | 0x020D =>
    let n := leAt p 2 2
    some ⟨.spWrite h (pH p 0) (pBytes p 8 n), 3 + ceilDiv n 8, zeroIn p 4 8 && zeroFrom p (8 + n)⟩
  | 0x020E => some ⟨.spareStatus h, 2, true⟩
  | 0x0301 => some ⟨.memGrant h (pH p 0) (pD p 8) (pD p 16), 5, zeroIn p 2 8⟩
  | 0x0302 => some ⟨.memRevoke h (pH p 0) (pD p 8), 4, zeroIn p 2 8⟩
  | 0x0303 => some ⟨.hostDma h (pB p 0) (pD p 8) (pD p 16) (pD p 24), 6, zeroIn p 1 8⟩
  | 0x0304 => some ⟨.aperture h (pD p 0), 3, true⟩
  | 0x0305 => some ⟨.memFill h (pD p 0) (pD p 8) (pD p 16), 5, true⟩
  | 0x0306 => some (oneByte p (.eccRead h))
  | 0x0307 => some ⟨.rowRetire h (pD p 0), 3, true⟩
  | _ => none

/-- Tensor, fabric and collective classes (Tables 4-7 to 4-9). -/
def parseMid (h : Hdr) (p : List Byte) : Nat → Option Parsed
  | 0x0401 =>
    let n := leAt p 4 4
    some ⟨.loftWrite h (pW p 0) (pBytes p 8 n), 3 + ceilDiv n 8, zeroFrom p (8 + n)⟩
  | 0x0402 => some ⟨.loftRead h (pW p 0) (pW p 4), 3, true⟩
  | 0x0403 =>
    let n := leAt p 0 1
    let ds := (List.range n).map (fun i => pBytes p (8 + 64 * i) 64)
    some ⟨.tensorMove h (ds.map pDesc), 3 + 8 * n, zeroIn p 1 8 && ds.all descClean⟩
  | 0x0404 =>
    let n := leAt p 2 1
    let ds := (List.range n).map (fun i => pBytes p (8 + 16 * i) 16)
    some ⟨.tensorDefine h (pH p 0) (pB p 3) (ds.map pDim), 3 + 2 * n, zeroIn p 4 8 && ds.all (fun d => zeroIn d 5 6)⟩
  | 0x0405 => some ⟨.tensorRelease h (pH p 0), 3, zeroIn p 2 8⟩
  | 0x0501 =>
    let n := leAt p 2 2
    some ⟨.allotCreate h (pH p 0) (BitVec.ofNat 256 (leAt p 8 32)) (pList p 40 n), 7 + ceilDiv n 2,
      zeroIn p 4 8 && zeroFrom p (40 + 4 * n)⟩
  | 0x0502 => some ⟨.allotDissolve h (pH p 0), 3, zeroIn p 2 8⟩
  | 0x0503 =>
    let n := leAt p 2 2
    some ⟨.allotResize h (pH p 0) (pB p 4) (BitVec.ofNat 256 (leAt p 8 32)) (pList p 40 n), 7 + ceilDiv n 2,
      zeroIn p 5 8 && zeroFrom p (40 + 4 * n)⟩
  | 0x0504 => some ⟨.topoDraw h (pB p 0) (pB p 1) ((List.range 4).map (fun i => pH p (8 + 2 * i))), 4, zeroIn p 2 8⟩
  | 0x0505 => some ⟨.colourMapSet h (pB p 0) (pMap (p.drop 8)), 19, zeroIn p 1 8 && zeroIn p 10 12 && zeroIn p 80 136⟩
  | 0x0506 => some ⟨.fabricTable h (pW p 0), 3, zeroIn p 4 8⟩
  | 0x0507 => some ⟨.routeQuery h (pW p 0), 3, zeroIn p 4 8⟩
  | 0x0601 =>
    let n := leAt p 2 2
    some ⟨.collDefine h (pH p 0) (pH p 2) (pPlan (p.drop 8)), 3 + n,
      zeroIn p 4 8 && zeroIn p 46 48 && zeroIn p 56 72 && decide (leAt p 13 1 < 8)⟩
  | 0x0602 => some ⟨.collBackup h (pH p 0) (pH p 2) (pW p 8), 4, zeroIn p 4 8 && zeroIn p 12 16⟩
  | 0x0603 => some ⟨.collTune h (pH p 0) (pH p 2) (pW p 4) (pW p 8), 4, zeroIn p 12 16⟩
  | 0x0604 => some ⟨.collCommit h (pH p 0) (pW p 4), 3, zeroIn p 2 4⟩
  | 0x0605 => some ⟨.collAbort h (pH p 0), 3, zeroIn p 2 8⟩
  | 0x0606 => some ⟨.collStatus h (pH p 0), 3, zeroIn p 2 8⟩
  | _ => none

/-- Numerics, optics, power and security classes (Tables 4-10 to 4-13). -/
def parseHigh (h : Hdr) (p : List Byte) : Nat → Option Parsed
  | 0x0701 => some ⟨.numCtl h (pW p 0), 3, zeroIn p 4 8⟩
  | 0x0702 => some ⟨.wvConfig h (pB p 0) (pB p 1) (pW p 4) (pW p 8) (pW p 12), 4, zeroIn p 2 4⟩
  | 0x0703 => some (oneByte p (.wvStats h))
  | 0x0704 => some ⟨.rngKey h (pD p 0) (pD p 8), 4, true⟩
  | 0x0705 => some (oneByte p (.determinism h))
  | 0x0706 => some (oneByte p (.clampRead h))
  | 0x0801 => some (oneByte p (.eaveStatus h))
  | 0x0802 => some (oneByte p (.eaveCommission h))
  | 0x0803 => some ⟨.laserSwap h (pB p 0) (pB p 1) (pB p 2), 3, zeroIn p 3 8⟩
  | 0x0804 => some ⟨.monitorRead h (pB p 0) (pB p 1) (pW p 4), 3, zeroIn p 2 4⟩
  | 0x0805 => some (oneByte p (.eaveSweep h))
  | 0x0901 => some ⟨.domainSet h (pB p 0) (pB p 1), 3, zeroIn p 2 8⟩
  | 0x0902 => some ⟨.dvfsSet h (pH p 0), 3, zeroIn p 2 8⟩
  | 0x0903 => some ⟨.powerCap h (pH p 0), 3, zeroIn p 2 8⟩
  | 0x0904 => some ⟨.thermalRead h, 2, true⟩
  | 0x0905 => some ⟨.powerRead h, 2, true⟩
  | 0x0A01 => some ⟨.attest h (pBytes p 0 32), 6, true⟩
  | 0x0A02 => some ⟨.certRead h, 2, true⟩
  | 0x0A03 =>
    let n := leAt p 4 4
    some ⟨.fwStage h (pW p 0) (pBytes p 8 n), 3 + ceilDiv n 8, zeroFrom p (8 + n)⟩
  | 0x0A04 => some (oneByte p (.fwActivate h))
  | 0x0A05 => some ⟨.repairCommit h, 2, true⟩
  | 0x0A06 => some ⟨.keyRotate h (pBytes p 0 32), 6, true⟩
  | 0x0A07 => some (oneByte p (.primarySet h))
  | 0x0A08 => some ⟨.debugLock h, 2, true⟩
  | 0x0A09 => some ⟨.journalRead h (pW p 0), 3, zeroIn p 4 8⟩
  | _ => none

/-- The command an opcode and its parameters spell; none for an opcode that is not listed (R83). -/
def parseCmd (h : Hdr) (p : List Byte) (code : Nat) : Option Parsed :=
  if code < 0x0400 then parseLow h p code else if code < 0x0700 then parseMid h p code else parseHigh h p code

/-- The bounds on LENGTH of an opcode whose Words column is a formula: the formula's least and greatest value over the range that the
opcode's row gives its count (R65, R84, R85; DEDUCED, log entry 67). -/
def lengthBounds : Nat → Option (Nat × Nat)
  | 0x0100 => some (2, 8192)
  | 0x0205 => some (4, 4 + 4 * 64)
  | 0x0206 => some (3, 3 + 4)
  | 0x020D => some (3 + 2, 3 + spBytes / 8)
  | 0x0401 => some (3 + 2, 3 + 8160)
  | 0x0403 => some (3 + 8, 3 + 8 * 7)
  | 0x0404 => some (3 + 2, 3 + 2 * 8)
  | 0x0501 => some (7 + 1, 7 + 4096)
  | 0x0503 => some (7 + 1, 7 + 4096)
  | 0x0601 => some (3 + 1, 3 + 64)
  | 0x0A03 => some (3 + 2, 3 + 4096)
  | _ => none

/-- Whether LENGTH lies within the opcode's bounds (R65): those of its formula, else the one length its row gives. -/
def lengthFits (code words : Nat) (p : Parsed) : Bool :=
  match lengthBounds code with
  | some (lo, hi) => decide (lo ≤ words) && decide (words ≤ hi)
  | none => decide (words = p.words)

/-! ### Header checks (R65) -/

/-- What the header checks make of a packet: refused with a status, refused by the first form check (R8, R85), or a command. -/
inductive Checked
  | refused (st : Status)
  | flawed (c : Instr) (st : Status)
  | good (c : Instr)
  deriving DecidableEq, Repr

/-- Whether the signature trailer of an owner-class packet verifies under the key in force (R446). -/
def signatureGood (s : State) (b : List Byte) : Bool :=
  Config.sm2Accepts s.ownerHash (hashBytes Config.keyHash ++ leBytes 4 s.epoch.toNat ++ b.take (b.length - 64)) (b.drop (b.length - 64))

/-- What the opcode and parameters of a packet spell. -/
def parsed (src : Src) (b : List Byte) : Option Parsed := parseCmd ((rawHdr b).hdr src b) ((rawHdr b).params b) (rawHdr b).opcode

/-- Whether SLOT is not valid for the opcode (Table 3-7). -/
def slotFlaw (src : Src) (b : List Byte) : Bool :=
  let r := rawHdr b
  match (parsed src b).bind (fun x => cmdOf x.cmd) with
  | some (_, i) => if i.slotReq then decide (3 < r.flags % 16) else decide (r.flags % 16 ≠ 15)
  | none => decide (3 < r.flags % 16 ∧ r.flags % 16 ≠ 15)

/-- The header checks in their order (Table 3-7), the signature apart, on a packet of LENGTH words. -/
def checkHeader (src : Src) (b : List Byte) : Checked :=
  let r := rawHdr b
  let h := r.hdr src b
  let p := parsed src b
  if r.version ≠ 1 then .refused .badParam
  else if decide (2 < r.priv) || decide (512 ≤ r.flags) || slotFlaw src b then .refused .badParam
  else match p with
    | none => .refused .badOpcode
    | some x =>
      let words := r.words - r.extra
      if r.words < r.extra + 2 ∨ lengthFits r.opcode words x = false then .refused .badLength
      else if bitOf r.flags 7 ≠ decide (r.priv = 2) then .refused .badParam
      else if !x.clean || reservedBits h then .flawed x.cmd .badParam
      else if words ≠ x.words then .flawed x.cmd .badLength
      else .good x.cmd

/-- A SIGNATURE_FAIL record and its SECURITY event, at most one per 1 ms (R461, R463). -/
def signatureFail (s : State) (src : Src) (r : RawHdr) (stale : Bool) : State :=
  let port := match src with | .port p => portNum p | _ => 2
  let j := s.journalAdd 0x000F .signatureInvalid (leBytes 2 r.opcode ++ leBytes 4 r.tag.toNat ++ leBytes 1 port ++ leBytes 1 (b2n stale))
  if j.1.boot.sigFailWindow then j.1
  else ({ j.1 with boot := { j.1.boot with sigFailWindow := true } }).moduleEvent 0x0B0F 7 .signatureInvalid j.2.bytes

/-- Whether a packet passes the checks that come before its opcode's: it is of the class its header names (R65, Table 3-7). -/
def classGood (src : Src) (b : List Byte) : Bool :=
  let r := rawHdr b
  decide (r.version = 1) && decide (r.priv ≤ 2) && decide (r.flags < 512) && !slotFlaw src b

/-- The TAG of an owner-class packet that has been taken counts from now on (R446). -/
def tagTaken (s : State) (tag : W32) : State :=
  if tag.toNat ≤ s.lodge.ownerTag.toNat then s else { s with lodge := { s.lodge with ownerTag := tag } }

/-- Every header check, with what an owner-class packet leaves behind: its TAG counts from now on, whatever a later check finds (R446; log
entry 14). -/
def checkPacket (s : State) (src : Src) (b : List Byte) : Checked × State :=
  let r := rawHdr b
  match checkHeader src b with
  | .refused st => (.refused st, if decide (r.priv = 2) && classGood src b then tagTaken s r.tag else s)
  | k =>
    if r.priv ≠ 2 then (k, s)
    else
      let stale := decide (r.tag.toNat ≤ s.lodge.ownerTag.toNat)
      let ok := signatureGood s b
      let s' := tagTaken s r.tag
      if ok && !stale then (k, s') else (.refused .signatureInvalid, signatureFail s' src r (ok && stale))

/-- The reply of 16 bytes to a packet that the header checks, or a framing fault, refused (R48, R64). -/
def headerReplyAs (s : State) (id : Nat) (src : Src) (b : List Byte) (st : Status) : State :=
  let r := rawHdr b
  s.sendReply (r.hdr src b) (.nop (r.hdr src b) []) { bareReply s st b with cmdId := id, irq := bitOf r.flags 8 }

/-- Take the next command number. -/
def State.nextCmd (s : State) : State := { s with lodge := { s.lodge with nextId := s.lodge.nextId + 1 } }

def headerReply (s : State) (src : Src) (b : List Byte) (st : Status) : State := headerReplyAs s.nextCmd s.lodge.nextId src b st

/-- The reply to a command refused ahead of admission, its unit record by `r` (R48, R87). -/
def refuseAs (s : State) (id : Nat) (c : Instr) (st : Status) (r : Hdr → CmdInfo → Refuse) : State :=
  match unitDefOf c, cmdOf c with
  | some d, some (h, i) => refuseUnit s id c h d (r h i)
  | _, _ => finishModule s id c st []

/-- The reply to a packet that the first form check refused (R8, R48, R85, R87). -/
def formReplyAs (s : State) (id : Nat) (c : Instr) (st : Status) : State := refuseAs s id c st (fun _ _ => Refuse.form st)

/-- The reply to a peer's command whose FPL is two or more away (R457). -/
def fplReply (s : State) (c : Instr) : State :=
  refuseAs s.nextCmd s.lodge.nextId c .fplMismatch (fun h i => Refuse.lane h i .fplMismatch)

/-- `formReplyAs` with the next command number. -/
def formReply (s : State) (c : Instr) (st : Status) : State := formReplyAs s.nextCmd s.lodge.nextId c st

/-- A packet that failed a check: answered at once, or, under FENCE, once every earlier packet of its window has been replied to (R58,
R65). -/
def answerCheck (s : State) (c : Instr) (v : Verdict) (answer : State → Nat → State) : State :=
  let fence := match cmdOf c with | some (h, _) => fenceOf s h | none => []
  if fence = [] then answer s.nextCmd s.lodge.nextId
  else { s.nextCmd with lodge := { s.nextCmd.lodge with waiting := s.lodge.waiting ++ [⟨s.lodge.nextId, c, fence, v⟩] } }

/-- A packet after its header checks: answered, or received as a command. -/
def arrived (s : State) (src : Src) (b : List Byte) (received : State → Instr → State) : State :=
  let k := checkPacket s src b
  match k.1 with
  | .refused st => answerCheck k.2 (.nop ((rawHdr b).hdr src b) []) (.header st (b.take 16)) (fun s id => headerReplyAs s id src b st)
  | .flawed c st => answerCheck k.2 c (.form st) (fun s id => formReplyAs s id c st)
  | .good c => received k.2 c

/-- The source of a command. -/
def srcOf (c : Instr) : Option Src := (cmdOf c).map (·.1.src)

/-- A held packet's turn has come: it is received behind those received meanwhile, or gets the answer of the check it failed (R43,
R58). -/
def releaseFence (s : State) (w : Waiting) : State :=
  let rest := s.lodge.waiting.filter (fun v => v.id ≠ w.id)
  let s' := { s with lodge := { s.lodge with waiting := rest } }
  match w.verdict with
  | .admitted => { s with lodge := { s.lodge with waiting := rest ++ [{ w with fencedBy := [] }] } }
  | .form st => formReplyAs s' w.id w.cmd st
  | .header st b => match srcOf w.cmd with | some src => headerReplyAs s' w.id src b st | none => s'

/-- FENCE_RELEASE: a packet held under FENCE goes on once every earlier packet of its window has been replied to (R58, R43). -/
def execFenceRelease (p : PortIx) (s : State) : Out :=
  .next (
    let busy := s.openCmds p
    match s.lodge.waiting.find? (fun w => w.fencedBy ≠ [] && !(w.fencedBy.any (fun i => busy.contains i)) &&
        decide (srcOf w.cmd = some (Src.port p))) with
    | none => s
    | some w => releaseFence s w)

/-! ### From a window (R61, R62, R64) -/

/-- The 8 bytes of a window word. -/
def Port.wordBytes (x : Port) (w : Nat) : List Byte :=
  leBytes 4 (KMap.get 0 x.win (2 * w)).toNat ++ leBytes 4 (KMap.get 0 x.win (2 * w + 1)).toNat

/-- Words of the window from the take pointer on, wrapping. -/
def Port.packetWords (x : Port) (n : Nat) : List Nat := (List.range n).map (fun i => (x.takePtr / 8 + i) % 32768)

/-- The bytes of `n` words from the take pointer on. -/
def Port.packetBytes (x : Port) (n : Nat) : List Byte := (x.packetWords n).flatMap x.wordBytes

/-- Commands in the module lodge's input queue for a port: received, not yet admitted, and addressed to the module, since any other
has gone on to the lodge it is addressed to; one held under FENCE stands aside (R42, R58, R62, R88). -/
def inputQueue (s : State) (p : PortIx) : List Waiting :=
  s.lodge.waiting.filter (fun w => w.fencedBy.isEmpty &&
    (match cmdOf w.cmd with | some (h, _) => decide (h.src = .port p) && decide (pathDepth h.path = 0) | none => false))

/-- Whether the device takes a packet of the port now (R62, R66): not while a die between the port and the module lodge holds traffic
(R439). -/
def mayTake (s : State) (p : PortIx) : Bool :=
  let x := s.port p
  s.boot.released && x.enable && !x.halted && !x.repliesHeld && (x.packetWords 2).all x.wordPresent &&
  decide ((inputQueue s p).length < 64) && !dieHolds s (portFeed p) && !routeHolds s (portDies p)

/-- The packet's presence bits clear and the take pointer advances (R62, R63). -/
def Port.taking (x : Port) (n : Nat) : Port :=
  { x with win := x.win.filter (fun e => decide (n ≤ (e.1 / 2 + 32768 - x.takePtr / 8) % 32768)),
           takePtr := (x.takePtr + 8 * n) % windowBytes, taken := x.taken + BitVec.ofNat 32 (8 * n) }

/-- PACKET_TAKEN: the packet at the take pointer is taken and its header checked; a LENGTH that cannot be halts the window, and the
header's words are dropped (R62, R64, R65). The fault is found when the packet could be taken (DESIGN CHOICE, log entry 68: R64 does
not say when). -/
def execPacketTaken (p : PortIx) (s : State) : Out :=
  .next (
    if !mayTake s p then s
    else
      let x := s.port p
      let head := x.packetBytes 2
      let n := (rawHdr head).words
      if n < 2 ∨ 8192 < n then
        headerReply (s.setPort p { x with win := (x.taking 2).win, halted := true, cause := 1, dropped := 0 }) (.port p) head .badLength
      else if !(x.packetWords n).all x.wordPresent then s
      else arrived (s.setPort p (x.taking n)) (.port p) (x.packetBytes n) receiveCmd)

/-! ### From a peer and from the sideband -/

/-- A packet that comes whole: LENGTH must be what arrived. -/
def wholePacket (s : State) (src : Src) (b : List Byte) (received : State → Instr → State) : State :=
  if b.length < 16 then s
  else if b.length ≠ 8 * (rawHdr b).words then headerReply s src b .badLength
  else arrived s src b received

/-- PEER_COMMAND: a peer's packet is checked, refused when its FPL is two or more away, and received (R75, R330, R457). -/
def execPeerCommand (addr : W32) (fpl : Byte) (bytes : List Byte) (s : State) : Out :=
  .next (
    if !s.boot.released then s
    else wholePacket s (.peer addr fpl) bytes (fun s c =>
      if fplNear (fplInUse s) fpl then receiveCmd s c
      else fplReply s c))

/-- SIDEBAND_PACKET: a packet arrives over the sideband and is served; one that arrives before the previous reply is discarded (R410,
R411). -/
def execSidebandPacket (bytes : List Byte) (s : State) : Out :=
  .next (
    if !s.pow.standby || s.pow.resetLow || s.sidebandBusy || decide (4096 < bytes.length) || decide (bytes.length < 16) then s
    else wholePacket { s with sidebandBusy := true, sideband := none } .sideband bytes (fun s c => submit c (commandNow c) s))

end Sys2Proof.Machine
end

