-- ==== Sys2Proof/Machine/Dispatch.lean ====
section
/-!
DEFINITION. The dispatcher: one arm per row of spec/opcode_table.json, each one call of its meaning.
-/

namespace Sys2Proof.Machine

def exec (i : Instr) (s : State) : Host.Outcome State Fault Refusal :=
  match i with
  | .nop h data => Sys2Proof.Machine.execNop h data s
  | .devInfo h => Sys2Proof.Machine.execDevInfo h s
  | .regRead h regnum => Sys2Proof.Machine.execRegRead h regnum s
  | .regWrite h regnum value => Sys2Proof.Machine.execRegWrite h regnum value s
  | .portGrant h grant => Sys2Proof.Machine.execPortGrant h grant s
  | .takeover h allot => Sys2Proof.Machine.execTakeover h allot s
  | .wake h => Sys2Proof.Machine.execWake h s
  | .sleep h => Sys2Proof.Machine.execSleep h s
  | .reset h => Sys2Proof.Machine.execReset h s
  | .query h => Sys2Proof.Machine.execQuery h s
  | .progLoad h source count entry address image => Sys2Proof.Machine.execProgLoad h source count entry address image s
  | .start h args => Sys2Proof.Machine.execStart h args s
  | .pause h => Sys2Proof.Machine.execPause h s
  | .resume h => Sys2Proof.Machine.execResume h s
  | .drain h => Sys2Proof.Machine.execDrain h s
  | .uregRead h regnum => Sys2Proof.Machine.execUregRead h regnum s
  | .uregWrite h regnum value => Sys2Proof.Machine.execUregWrite h regnum value s
  | .posIndexWrite r index => Sys2Proof.Machine.execPosIndexWrite r index s
  | .trapctlClear r => Sys2Proof.Machine.execTrapctlClear r s
  | .spRead h offset bytes => Sys2Proof.Machine.execSpRead h offset bytes s
  | .spWrite h offset data => Sys2Proof.Machine.execSpWrite h offset data s
  | .spareStatus h => Sys2Proof.Machine.execSpareStatus h s
  | .memGrant h allot base size => Sys2Proof.Machine.execMemGrant h allot base size s
  | .memRevoke h allot base => Sys2Proof.Machine.execMemRevoke h allot base s
  | .hostDma h dir hostAddr devAddr bytes => Sys2Proof.Machine.execHostDma h dir hostAddr devAddr bytes s
  | .hostDmaReadError op data errs => Sys2Proof.Machine.execHostDmaReadError op data errs s
  | .aperture h base => Sys2Proof.Machine.execAperture h base s
  | .memFill h devAddr bytes pattern => Sys2Proof.Machine.execMemFill h devAddr bytes pattern s
  | .eccRead h clear => Sys2Proof.Machine.execEccRead h clear s
  | .rowRetire h address => Sys2Proof.Machine.execRowRetire h address s
  | .loftWrite h offset data => Sys2Proof.Machine.execLoftWrite h offset data s
  | .loftRead h offset bytes => Sys2Proof.Machine.execLoftRead h offset bytes s
  | .tensorMove h descs => Sys2Proof.Machine.execTensorMove h descs s
  | .tensorDefine h handle format dims => Sys2Proof.Machine.execTensorDefine h handle format dims s
  | .tensorRelease h handle => Sys2Proof.Machine.execTensorRelease h handle s
  | .allotCreate h allot sheafSet members => Sys2Proof.Machine.execAllotCreate h allot sheafSet members s
  | .allotDissolve h allot => Sys2Proof.Machine.execAllotDissolve h allot s
  | .allotResize h allot op sheafSet members => Sys2Proof.Machine.execAllotResize h allot op sheafSet members s
  | .topoDraw h shape ndim extents => Sys2Proof.Machine.execTopoDraw h shape ndim extents s
  | .colourMapSet h eave map => Sys2Proof.Machine.execColourMapSet h eave map s
  | .fabricTable h first => Sys2Proof.Machine.execFabricTable h first s
  | .routeQuery h addr => Sys2Proof.Machine.execRouteQuery h addr s
  | .collDefine h handle planWords plan => Sys2Proof.Machine.execCollDefine h handle planWords plan s
  | .collBackup h handle rank addr => Sys2Proof.Machine.execCollBackup h handle rank addr s
  | .collTune h handle accumn tlate tlost => Sys2Proof.Machine.execCollTune h handle accumn tlate tlost s
  | .collCommit h handle seq => Sys2Proof.Machine.execCollCommit h handle seq s
  | .collAbort h handle => Sys2Proof.Machine.execCollAbort h handle s
  | .collStatus h handle => Sys2Proof.Machine.execCollStatus h handle s
  | .numCtl h value => Sys2Proof.Machine.execNumCtl h value s
  | .wvConfig h sampleLog2 enable tolerance threshold reserve => Sys2Proof.Machine.execWvConfig h sampleLog2 enable tolerance threshold reserve s
  | .wvStats h clear => Sys2Proof.Machine.execWvStats h clear s
  | .rngKey h key step => Sys2Proof.Machine.execRngKey h key step s
  | .determinism h on => Sys2Proof.Machine.execDeterminism h on s
  | .clampRead h clear => Sys2Proof.Machine.execClampRead h clear s
  | .eaveStatus h eave => Sys2Proof.Machine.execEaveStatus h eave s
  | .eaveCommission h eave => Sys2Proof.Machine.execEaveCommission h eave s
  | .laserSwap h eave lane spare => Sys2Proof.Machine.execLaserSwap h eave lane spare s
  | .monitorRead h eave laser integUs => Sys2Proof.Machine.execMonitorRead h eave laser integUs s
  | .eaveSweep h mask => Sys2Proof.Machine.execEaveSweep h mask s
  | .domainSet h domain on => Sys2Proof.Machine.execDomainSet h domain on s
  | .dvfsSet h mhz => Sys2Proof.Machine.execDvfsSet h mhz s
  | .powerCap h watts => Sys2Proof.Machine.execPowerCap h watts s
  | .thermalRead h => Sys2Proof.Machine.execThermalRead h s
  | .powerRead h => Sys2Proof.Machine.execPowerRead h s
  | .attest h nonce => Sys2Proof.Machine.execAttest h nonce s
  | .certRead h => Sys2Proof.Machine.execCertRead h s
  | .fwStage h offset data => Sys2Proof.Machine.execFwStage h offset data s
  | .fwActivate h advance => Sys2Proof.Machine.execFwActivate h advance s
  | .repairCommit h => Sys2Proof.Machine.execRepairCommit h s
  | .keyRotate h hash => Sys2Proof.Machine.execKeyRotate h hash s
  | .primarySet h port => Sys2Proof.Machine.execPrimarySet h port s
  | .debugLock h => Sys2Proof.Machine.execDebugLock h s
  | .journalRead h first => Sys2Proof.Machine.execJournalRead h first s
  | .nopInstruction r => Sys2Proof.Machine.execNopInstruction r s
  | .seti r => Sys2Proof.Machine.execSeti r s
  | .alu r => Sys2Proof.Machine.execAlu r s
  | .sld r => Sys2Proof.Machine.execSld r s
  | .sst r => Sys2Proof.Machine.execSst r s
  | .movr r => Sys2Proof.Machine.execMovr r s
  | .movw r => Sys2Proof.Machine.execMovw r s
  | .loop r => Sys2Proof.Machine.execLoop r s
  | .br r => Sys2Proof.Machine.execBr r s
  | .waitq r => Sys2Proof.Machine.execWaitq r s
  | .waitqRelease r => Sys2Proof.Machine.execWaitqRelease r s
  | .endInstruction r => Sys2Proof.Machine.execEndInstruction r s
  | .programEnd r => Sys2Proof.Machine.execProgramEnd r s
  | .heldIssueRetry r => Sys2Proof.Machine.execHeldIssueRetry r s
  | .mma r => Sys2Proof.Machine.execMma r s
  | .mmaf r => Sys2Proof.Machine.execMmaf r s
  | .accz r => Sys2Proof.Machine.execAccz r s
  | .accst r => Sys2Proof.Machine.execAccst r s
  | .sumsLand r => Sys2Proof.Machine.execSumsLand r s
  | .vew r => Sys2Proof.Machine.execVew r s
  | .vred r => Sys2Proof.Machine.execVred r s
  | .vscan r => Sys2Proof.Machine.execVscan r s
  | .vsscan r => Sys2Proof.Machine.execVsscan r s
  | .vwide r => Sys2Proof.Machine.execVwide r s
  | .vrng r => Sys2Proof.Machine.execVrng r s
  | .opt r => Sys2Proof.Machine.execOpt r s
  | .vcld r => Sys2Proof.Machine.execVcld r s
  | .vcst r => Sys2Proof.Machine.execVcst r s
  | .ld r => Sys2Proof.Machine.execLd r s
  | .ldpage r => Sys2Proof.Machine.execLdpage r s
  | .st r => Sys2Proof.Machine.execSt r s
  | .stAcknowledged r => Sys2Proof.Machine.execStAcknowledged r s
  | .xput r => Sys2Proof.Machine.execXput r s
  | .xget r => Sys2Proof.Machine.execXget r s
  | .xcBufferRoom r => Sys2Proof.Machine.execXcBufferRoom r s
  | .xcBytesArrive r => Sys2Proof.Machine.execXcBytesArrive r s
  | .engineInstructionStart r e errs => Sys2Proof.Machine.execEngineInstructionStart r e errs s
  | .engineInstructionComplete r e => Sys2Proof.Machine.execEngineInstructionComplete r e s
  | .numericTrap r e => Sys2Proof.Machine.execNumericTrap r e s
  | .wvSampleCompare sh => Sys2Proof.Machine.execWvSampleCompare sh s
  | .hardwareFault r => Sys2Proof.Machine.execHardwareFault r s
  | .unitFaultedCoalesce sh => Sys2Proof.Machine.execUnitFaultedCoalesce sh s
  | .drainComplete r => Sys2Proof.Machine.execDrainComplete r s
  | .drainLimit r => Sys2Proof.Machine.execDrainLimit r s
  | .wakeComplete sh => Sys2Proof.Machine.execWakeComplete sh s
  | .poweringSlotGrant sh => Sys2Proof.Machine.execPoweringSlotGrant sh s
  | .pllLock d => Sys2Proof.Machine.execPllLock d s
  | .pllStop d => Sys2Proof.Machine.execPllStop d s
  | .lodgeAdmit cmd => Sys2Proof.Machine.execLodgeAdmit cmd s
  | .commandArrival op sh errs => Sys2Proof.Machine.execCommandArrival op sh errs s
  | .memberReply op member => Sys2Proof.Machine.execMemberReply op member s
  | .memberSilent op member => Sys2Proof.Machine.execMemberSilent op member s
  | .censusUpdate sh level reed => Sys2Proof.Machine.execCensusUpdate sh level reed s
  | .windowWrite p offset data => Sys2Proof.Machine.execWindowWrite p offset data s
  | .packetTaken p => Sys2Proof.Machine.execPacketTaken p s
  | .fenceRelease p => Sys2Proof.Machine.execFenceRelease p s
  | .resync p => Sys2Proof.Machine.execResync p s
  | .replyWrite p => Sys2Proof.Machine.execReplyWrite p s
  | .replyheadWrite p value => Sys2Proof.Machine.execReplyheadWrite p value s
  | .replyRingEnable p value => Sys2Proof.Machine.execReplyRingEnable p value s
  | .replyRingDisable p value => Sys2Proof.Machine.execReplyRingDisable p value s
  | .coalesceTimerExpiry p => Sys2Proof.Machine.execCoalesceTimerExpiry p s
  | .eventsLost p => Sys2Proof.Machine.execEventsLost p s
  | .registerWrite p offset size value => Sys2Proof.Machine.execRegisterWrite p offset size value s
  | .bar2statClear p => Sys2Proof.Machine.execBar2statClear p s
  | .bar2Write p offset data errs => Sys2Proof.Machine.execBar2Write p offset data errs s
  | .bar2Read p offset length errs => Sys2Proof.Machine.execBar2Read p offset length errs s
  | .portLinkDown p => Sys2Proof.Machine.execPortLinkDown p s
  | .portLinkUp p speed width => Sys2Proof.Machine.execPortLinkUp p speed width s
  | .portReset p => Sys2Proof.Machine.execPortReset p s
  | .perstAssert p low => Sys2Proof.Machine.execPerstAssert p low s
  | .graceExpiry p => Sys2Proof.Machine.execGraceExpiry p s
  | .sidebandPacket bytes => Sys2Proof.Machine.execSidebandPacket bytes s
  | .scrubRead ch page errs => Sys2Proof.Machine.execScrubRead ch page errs s
  | .rowRetirementDone ch errs => Sys2Proof.Machine.execRowRetirementDone ch errs s
  | .eccWindowClose ch page => Sys2Proof.Machine.execEccWindowClose ch page s
  | .driftCheck ch beyond => Sys2Proof.Machine.execDriftCheck ch beyond s
  | .channelRetrainDone ch => Sys2Proof.Machine.execChannelRetrainDone ch s
  | .deviceTemperatureRead dev temp => Sys2Proof.Machine.execDeviceTemperatureRead dev temp s
  | .selfRefreshEntry ch => Sys2Proof.Machine.execSelfRefreshEntry ch s
  | .bucketReady sh allot handle b => Sys2Proof.Machine.execBucketReady sh allot handle b s
  | .exponentFrame sh f => Sys2Proof.Machine.execExponentFrame sh f s
  | .bucketExponent sh f => Sys2Proof.Machine.execBucketExponent sh f s
  | .bucketFrame sh f => Sys2Proof.Machine.execBucketFrame sh f s
  | .bucketNack sh f => Sys2Proof.Machine.execBucketNack sh f s
  | .bucketAck sh f => Sys2Proof.Machine.execBucketAck sh f s
  | .resultFrame sh f => Sys2Proof.Machine.execResultFrame sh f s
  | .tlateExpiry sh allot handle bucket rank => Sys2Proof.Machine.execTlateExpiry sh allot handle bucket rank s
  | .tlostExpiry sh allot handle bucket => Sys2Proof.Machine.execTlostExpiry sh allot handle bucket s
  | .bucketFailFrame sh f => Sys2Proof.Machine.execBucketFailFrame sh f s
  | .vote allot handle => Sys2Proof.Machine.execVote allot handle s
  | .voteReceived allot handle seq run rank ok status planId => Sys2Proof.Machine.execVoteReceived allot handle seq run rank ok status planId s
  | .decision allot handle seq run rank commit status planId => Sys2Proof.Machine.execDecision allot handle seq run rank commit status planId s
  | .undecided allot handle => Sys2Proof.Machine.execUndecided allot handle s
  | .linkFrameReceive ch rev f => Sys2Proof.Machine.execLinkFrameReceive ch rev f s
  | .peerCommand addr fpl bytes => Sys2Proof.Machine.execPeerCommand addr fpl bytes s
  | .retransmitTimeout ch => Sys2Proof.Machine.execRetransmitTimeout ch s
  | .channelDown ch => Sys2Proof.Machine.execChannelDown ch s
  | .fabricControlFrame src msg seg via news => Sys2Proof.Machine.execFabricControlFrame src msg seg via news s
  | .routeRecompute => Sys2Proof.Machine.execRouteRecompute s
  | .copperLaneSwap c lane => Sys2Proof.Machine.execCopperLaneSwap c lane s
  | .courseTrained c peer => Sys2Proof.Machine.execCourseTrained c peer s
  | .laneToken e lane peer peerHasRing incoming => Sys2Proof.Machine.execLaneToken e lane peer peerHasRing incoming s
  | .rackLeadRound lead => Sys2Proof.Machine.execRackLeadRound lead s
  | .groupToken e offset peer msg => Sys2Proof.Machine.execGroupToken e offset peer msg s
  | .tableExchange entries row via src msg => Sys2Proof.Machine.execTableExchange entries row via src msg s
  | .fabricReady => Sys2Proof.Machine.execFabricReady s
  | .fabricReadyTimeout => Sys2Proof.Machine.execFabricReadyTimeout s
  | .lockLost e lane => Sys2Proof.Machine.execLockLost e lane s
  | .relock e lane => Sys2Proof.Machine.execRelock e lane s
  | .relockRetry e lane ok => Sys2Proof.Machine.execRelockRetry e lane ok s
  | .fadeAverage e averages => Sys2Proof.Machine.execFadeAverage e averages s
  | .spareLocked e spare => Sys2Proof.Machine.execSpareLocked e spare s
  | .spareLockTimeout e spare => Sys2Proof.Machine.execSpareLockTimeout e spare s
  | .swapComplete e lane => Sys2Proof.Machine.execSwapComplete e lane s
  | .fixedLaserFail e cb => Sys2Proof.Machine.execFixedLaserFail e cb s
  | .photonicTemperatureRange e temp => Sys2Proof.Machine.execPhotonicTemperatureRange e temp s
  | .eaveLinksDown e => Sys2Proof.Machine.execEaveLinksDown e s
  | .standbyRailUp => Sys2Proof.Machine.execStandbyRailUp s
  | .standbyRailLoss tear => Sys2Proof.Machine.execStandbyRailLoss tear s
  | .mainRailGood => Sys2Proof.Machine.execMainRailGood s
  | .mainRailLoss => Sys2Proof.Machine.execMainRailLoss s
  | .resetNAssert => Sys2Proof.Machine.execResetNAssert s
  | .resetNRelease => Sys2Proof.Machine.execResetNRelease s
  | .powerOn straps => Sys2Proof.Machine.execPowerOn straps s
  | .fuse ok => Sys2Proof.Machine.execFuse ok s
  | .image primaryRead goldenRead => Sys2Proof.Machine.execImage primaryRead goldenRead s
  | .journal readableA readableB largestEpoch => Sys2Proof.Machine.execJournal readableA readableB largestEpoch s
  | .power ok => Sys2Proof.Machine.execPower ok s
  | .bist o => Sys2Proof.Machine.execBist o s
  | .memory rungs => Sys2Proof.Machine.execMemory rungs s
  | .eaves outcomes => Sys2Proof.Machine.execEaves outcomes s
  | .released => Sys2Proof.Machine.execReleased s
  | .stepWatchdog late => Sys2Proof.Machine.execStepWatchdog late s
  | .powerSample inputW averageW currentA vin12mV => Sys2Proof.Machine.execPowerSample inputW averageW currentA vin12mV s
  | .droop sh => Sys2Proof.Machine.execDroop sh s
  | .droopRelease sh => Sys2Proof.Machine.execDroopRelease sh s
  | .thermalSample sh temp => Sys2Proof.Machine.execThermalSample sh temp s
  | .dieThermalSample die temp => Sys2Proof.Machine.execDieThermalSample die temp s
  | .clockChangeDone sh => Sys2Proof.Machine.execClockChangeDone sh s
  | .networkDomainSleep d => Sys2Proof.Machine.execNetworkDomainSleep d s
  | .networkDomainWake d => Sys2Proof.Machine.execNetworkDomainWake d s
  | .commandActionComplete op data => Sys2Proof.Machine.execCommandActionComplete op data s
  | .decisionAcknowledged allot handle seq run rank planId => Sys2Proof.Machine.execDecisionAcknowledged allot handle seq run rank planId s
  | .decisionRequest allot handle seq run rank addr planId => Sys2Proof.Machine.execDecisionRequest allot handle seq run rank addr planId s
  | .discoverySweepDone answers => Sys2Proof.Machine.execDiscoverySweepDone answers s
  | .rateLimitWindowEnd w => Sys2Proof.Machine.execRateLimitWindowEnd w s
  | .memberSilentCoalesce lodge => Sys2Proof.Machine.execMemberSilentCoalesce lodge s

end Sys2Proof.Machine
end

