-- ==== Sys2Proof/Safety.lean ====
section
/-!
DEFINITION. What counts as a safe state, in the terms claims use: the invariant that every step keeps; and when a command
is carried out, said once for host commands and once for the instructions of a reed's stream.
-/

namespace Sys2Proof.Machine

/-- The canonical form of module memory: addresses strictly rising, no byte equal to what an unlisted address reads as. -/
def Memory.wf (bytes : KMap Byte) : Bool := KMap.wf 0 bytes

/-- TCWEIGHT holds three four-bit weights; every other bit reads as Table 1-9 fixes it (R33). -/
def weightsOk (t : W32) : Bool := decide (t &&& 0xFFF0F0F0 = 0x00100000)

/-- A fabric address has the thirteen bits of the straps (R312). -/
def addressOk (a : W32) : Bool := decide (a.toNat < 8192)

/-- The invariant of the block. -/
def Inv (s : State) : Prop :=
  weightsOk s.tcweight = true ∧ addressOk s.fabric.address = true ∧ Memory.wf s.mem.bytes = true

/-! ### When a host command is carried out -/

/-- The state in which a command that has been taken is carried out: its number is given out. -/
def State.taken (s : State) : State := { s with lodge := { s.lodge with nextId := s.lodge.nextId + 1 } }

/-- A command is carried out as soon as it arrives: its lane takes commands (R411, R416), no FENCE holds it (R58), and nothing
earlier that is unfinished names what it names (R43, R88). -/
def unhindered (s : State) (c : Instr) (h : Hdr) : Bool :=
  laneOpen s h && (fenceOf s h).isEmpty && !mustWait s.taken s.lodge.waiting c

/-- A module command is carried out up to its own checks: unhindered, its header and length well formed, no path and no
mask, and its class allowed (R57, R74, R86, R87). -/
def moduleReady (s : State) (c : Instr) : Bool :=
  match cmdOf c with
  | some (h, i) =>
    unhindered s c h && (sideCheck s.taken c h).isNone && !headerBad h i && c.wf && decide (h.path = 0) && h.mask.isNone &&
    (privCheck s.taken h (classNeeded h i) (isTakeover c)).isNone
  | none => false

/-- A unit command is carried out: unhindered, admitted (R42, R87), and its resource checks passed. -/
def unitReady (s : State) (c : Instr) : Bool :=
  match cmdOf c, unitDefOf c with
  | some (h, i), some d =>
    unhindered s c h && decide (h.src ≠ .sideband) && (admitUnit s.taken c h i d).isNone &&
    (d.resource s.taken (selOf h.path h.mask)).isNone
  | _, _ => false

/-- The state after a unit command that is carried out: in path order each selected sheaf takes it, its units in a legal
state act as `act` says, and the reply, formed by R46 to R48, carries `payload` or waits as `wait` says. -/
def unitOutcome (s : State) (c : Instr) (level3 : Bool) (act : State → Nat → List Nat → ActRes)
    (payload : Op → List Byte) (wait : State → Op → Option OpWait) (slice : Nat := 0) : State :=
  match cmdOf c with
  | some (h, _) =>
    (runUnitAll s.taken c h
      { level3 := level3, form := noCheck, resource := noRes, act := act, payload := payload, wait := wait, slice := slice }
      s.lodge.nextId).flushWatches
  | none => s

/-- A reed command acts on reed `q`: it is selected, not retired, and in a state that the command changes (R40, R45, R113). -/
def actsOn (s : State) (c : Instr) (q : Nat) : Bool :=
  match cmdOf c with
  | some (h, _) =>
    let u := (s.sheaf (q / 4096)).stOf (q % 4096)
    (selOf h.path h.mask).sheaves.contains (q / 4096) && (selOf h.path h.mask).locals.contains (q % 4096) &&
    !(s.sheaf (q / 4096)).retired (q % 4096) && decide (markOf c u ≠ .no) && decide (markOf c u ≠ .same)
  | none => false

/-- The power state apart from the network domains and their timers. -/
def Power.rest (p : Power) : Power := { p with net := Vector.replicate 16 .off, netTimer := Vector.replicate 16 0 }

/-- Network domains changed only in that sleeping ones have been called, and power up (R31, R428). -/
def calledOnly (v w : Vector Dom 16) : Prop :=
  ∀ d : Nat, w.toList[d]? = v.toList[d]? ∨ (v.toList[d]? = some .sleeping ∧ w.toList[d]? = some .powering)

/-- Between two states nothing changed but numbers given out, replies and events written, free values drawn, and the sleeping network
domains that replies and events must cross, which have been called. -/
def onlyReplied (s t : State) : Prop :=
  t.sheaves = s.sheaves ∧ t.mem = s.mem ∧ t.allots = s.allots ∧ t.modColls = s.modColls ∧ t.eaves = s.eaves ∧
  ((t.pow.netTimer = s.pow.netTimer ∧ t.pow.rest = s.pow.rest) ∧ calledOnly s.pow.net t.pow.net) ∧ t.boot = s.boot ∧ t.tcweight = s.tcweight ∧ t.lodge.waiting = s.lodge.waiting ∧ t.fabric.table = s.fabric.table ∧
  t.fabric.address = s.fabric.address

/-- The state after a module command that ends at once: `t` is what it changes; the reply has a status and a payload. -/
def moduleOutcome (s t : State) (c : Instr) (st : Status) (payload : List Byte) : State :=
  finishModule t s.lodge.nextId c st payload

/-- The state after a module command whose action takes time: it stays in progress until COMMAND_ACTION_COMPLETE (R89). -/
def moduleHeld (s t : State) (c : Instr) (st : Status) (payload : List Byte) : State :=
  holdModule t s.lodge.nextId c st payload

/-! ### When a truss takes a frame -/

/-- The handle, the place and the plan by which sheaf `g` judges a frame of its handle: its truss works (R441), the frame's FPL is near this
module's (R457), the frame is of the plan, and its bucket is one of this sheaf's (R281). -/
def frameAt (s : State) (g : Nat) (k : CollFrame) : Option (ModColl × Place × Coll) :=
  match s.modColl k.handle.1 k.handle.2, s.coll g k.handle.1 k.handle.2 with
  | some m, some c =>
    if k.fpl.all (fplNear (fplInUse s)) && trussRuns s g && frameFits s c k.plan k.index && decide (k.index / c.plan.buckets.toNat = s.collPlace k.handle.1 k.handle.2 g) then
      (placeOf s m c g (k.index % c.plan.buckets.toNat)).map (fun p => (m, p, c))
    else none
  | _, _ => none

/-- The command by which a frame reaches a truss. -/
def frameRow (g : SheafIx) : CollFrame → Instr
  | .exponent f => .exponentFrame g f
  | .exponentDown f => .bucketExponent g f
  | .bucket f => .bucketFrame g f
  | .result f => .resultFrame g f
  | .fail f => .bucketFailFrame g f

/-! ### When a reed issues an instruction -/

/-- The stream of a reed issues the instruction `w` next: the reed is RUNNING and not retired, its clock runs, its program has
not ended, its index is in the buffer, no queued LDPAGE writes the entry, and the entry holds `w` (R129, R141, R148). -/
def issues (s : State) (r : ReedIx) (w : BitVec 256) : Bool :=
  let x := s.reed r
  decide (x.st = .running) && !x.ended && clockRuns s (r / 4096) && !(s.sheaf (r / 4096)).retired (r % 4096) &&
  decide (x.index < 64) && !pageWill x x.index && decide (KMap.look x.ibuf x.index = some w)

/-- The state after reed `r` has issued a scalar instruction that leaves its registers and memories as `y` has them: the stream
advances past it. -/
def scalarOutcome (s : State) (r : ReedIx) (y : Reed) : State := s.setReed r y.advance

end Sys2Proof.Machine
end

