-- ==== Sys2Proof/Certificates/Slice0/Obligations.lean ====
section
/-!
DEFINITION. The statements for the provers, by family: the streams of the reeds, the host commands, the events, and the rules
about the whole block.
-/

open Sys2Proof Sys2Proof.Machine

/-! ### The streams of the reeds -/

/-- R129 to R131, Tables 5-12 to 5-14: what each scalar instruction without a flaw leaves in its reed. SETI writes the immediate,
ALU sA FN (sB or IMM32), SLD a word of the scratchpad, SST writes one, MOVR reads a half of a register, MOVW writes `VL`, `TRAPCTL` or
`RNGCTL`; the stream advances, and nothing else of the machine changes. -/
def Obligations.ScalarInstructionsComplete : Prop :=
  ∀ (s : State) (r : ReedIx) (w : BitVec 256), issues s r w = true →
    (insOpc w = 0x00 → nopFlaw w (s.reed r) = none → exec (.nopInstruction r) s = .next (scalarOutcome s r (s.reed r))) ∧
    (insOpc w = 0x01 → setiFlaw w (s.reed r) = none →
      exec (.seti r) s = .next (scalarOutcome s r ((s.reed r).setS (insByte w 1 % 16) (insAux w)))) ∧
    (insOpc w = 0x02 → aluFlaw w (s.reed r) = none →
      exec (.alu r) s = .next (scalarOutcome s r ((s.reed r).setS (insByte w 1 % 16)
        (aluFn (insByte w 3) (BitVec.ofNat 32 ((s.reed r).s (insByte w 1 / 16)))
          (BitVec.ofNat 32 (if bitOf (insByte w 2) 4 then insAux w else (s.reed r).s (insByte w 2 % 16)))).toNat))) ∧
    (insOpc w = 0x03 → ∀ o, wordOperand w (s.reed r) 0xF0 false = .ok o → waitsFor (s.reed r).allQueued [o.extent] [] = false →
      exec (.sld r) s = .next (scalarOutcome s r ((s.reed r).setS (insByte w 1 % 16)
        (ofLe (KMap.bytes (s.reed r).sp (o.base + 4 * (insByte w 2 % 4)) 4))))) ∧
    (insOpc w = 0x04 → ∀ o, wordOperand w (s.reed r) 0x0F true = .ok o → waitsFor (s.reed r).allQueued [] [o.extent] = false →
      exec (.sst r) s = .next (scalarOutcome s r { s.reed r with
        sp := KMap.write (s.reed r).sp (o.base + 4 * (insByte w 2 % 4)) (leBytes 4 ((s.reed r).s (insByte w 1 / 16))) })) ∧
    (insOpc w = 0x05 → movrFlaw w (s.reed r) = none → ∀ v, reedReg s r (insByte w 3) = some v →
      exec (.movr r) s = .next (scalarOutcome s r ((s.reed r).setS (insByte w 1 % 16)
        (if bitOf (insByte w 2) 0 then v / 2 ^ 32 else v % 2 ^ 32)))) ∧
    (insOpc w = 0x06 → movwFlaw w (s.reed r) = none →
      exec (.movw r) s = .next (scalarOutcome s r ((s.reed r).writeReg (insByte w 3) ((s.reed r).s (insByte w 1 / 16)))))

/-- R137, R141, R143, R144, R146: where the control instructions of a stream lead. LOOP with a count of 0 skips its body, else a loop
becomes active; a taken BR goes to its target and ends the loops that do not contain it; WAITQ goes on once its queues are at
most at the depth, else holds; END ends the program. Nothing else changes. -/
def Obligations.ControlInstructionsComplete : Prop :=
  ∀ (s : State) (r : ReedIx) (w : BitVec 256), issues s r w = true →
    (insOpc w = 0x08 → loopFlaw w (s.reed r) = none → (s.reed r).s (insByte w 1 / 16) = 0 →
      exec (.loop r) s = .next (s.setReed r { s.reed r with index := insByte w 3 + 1, hold := .none })) ∧
    (insOpc w = 0x08 → loopFlaw w (s.reed r) = none → (s.reed r).s (insByte w 1 / 16) ≠ 0 →
      exec (.loop r) s = .next (s.setReed r { s.reed r with
        index := (s.reed r).index + 1, hold := .none,
        loops := { start := (s.reed r).index, stop := insByte w 3, iter := 0,
                   count := BitVec.ofNat 32 ((s.reed r).s (insByte w 1 / 16)) } :: (s.reed r).loops })) ∧
    (insOpc w = 0x09 → brFlaw w (s.reed r) = none →
      brTaken (insByte w 2 / 32) (BitVec.ofNat 32 ((s.reed r).s (insByte w 1 / 16)))
        (BitVec.ofNat 32 ((s.reed r).s (insByte w 2 % 16))) = true →
      exec (.br r) s = .next (s.setReed r { (s.reed r).branchTo (insByte w 3) with hold := .none })) ∧
    (insOpc w = 0x09 → brFlaw w (s.reed r) = none →
      brTaken (insByte w 2 / 32) (BitVec.ofNat 32 ((s.reed r).s (insByte w 1 / 16)))
        (BitVec.ofNat 32 ((s.reed r).s (insByte w 2 % 16))) = false →
      exec (.br r) s = .next (scalarOutcome s r (s.reed r))) ∧
    (insOpc w = 0x0A → waitqFlaw w (s.reed r) = none → queuesAtMost (s.reed r) (insByte w 3) (insByte w 2) = true →
      exec (.waitq r) s = .next (scalarOutcome s r (s.reed r))) ∧
    (insOpc w = 0x0A → waitqFlaw w (s.reed r) = none → queuesAtMost (s.reed r) (insByte w 3) (insByte w 2) = false →
      exec (.waitq r) s = .next (s.setReed r { s.reed r with hold := .waitq (BitVec.ofNat 5 (insByte w 3)) (insByte w 2) })) ∧
    (insOpc w = 0x1F → nopFlaw w (s.reed r) = none →
      exec (.endInstruction r) s = .next (s.setReed r { s.reed r with ended := true, hold := .none }))

/-- R118, R121, R137, R141, R146, R223: the steps of a stream that are not an issue. A WAITQ goes on when its queues have fallen to its
depth; a program ends and its reed passes to LOADED at its entry point; a write of `POS`.INDEX branches; `TRAPCTL`.CLEAR clears the trap
count and the trap record. -/
def Obligations.StreamEventsComplete : Prop :=
  ∀ (s : State) (r : ReedIx),
    (∀ m d, (s.reed r).hold = .waitq m d → (s.reed r).st = .running → clockRuns s (r / 4096) = true →
      queuesAtMost (s.reed r) m.toNat d = true → exec (.waitqRelease r) s = .next (scalarOutcome s r (s.reed r))) ∧
    ((s.sheaf (r / 4096)).stOf (r % 4096) = .running → (s.reed r).ended = true → (s.reed r).queuesEmpty = true →
      exec (.programEnd r) s =
        .next (((s.modReed r (fun x => { x with
          index := x.entry, loops := [], ended := false, hold := .none, counting := false, st := .loaded })).modSheaf
          (r / 4096) (fun sh => sh.endArming r)).flushWatches)) ∧
    (∀ i : BitVec 6, (s.sheaf (r / 4096)).stOf (r % 4096) ∈ [UState.idle, .loaded, .paused, .faulted] →
      exec (.posIndexWrite r i) s = .next (s.modReed r (fun x => x.branchTo i.toNat))) ∧
    ((s.sheaf (r / 4096)).power = .awake →
      exec (.trapctlClear r) s = .next (s.modReed r (fun x => { x with
        trapCount := 0, trapRec := { r0 := 0, r1 := 0, r2 := 0, r3 := 0 } })))

/-- R134, R136, R148: an issue that was held by a full queue, by an older instruction or by a page to come proceeds exactly as the
row of the instruction's OPC does. -/
def Obligations.HeldIssueProceeds : Prop :=
  ∀ (s : State) (r : ReedIx) (w : BitVec 256), issues s r w = true →
    (s.reed r).hold = .fullQueue ∨ (s.reed r).hold = .depend ∨ (s.reed r).hold = .fetch →
    ∀ p ∈ [(0x00, Instr.nopInstruction r), (0x01, .seti r), (0x02, .alu r), (0x03, .sld r), (0x04, .sst r), (0x05, .movr r),
        (0x06, .movw r), (0x08, .loop r), (0x09, .br r), (0x0A, .waitq r), (0x1F, .endInstruction r), (0x40, .mma r), (0x41, .mmaf r),
        (0x42, .accz r), (0x43, .accst r), (0x60, .vew r), (0x61, .vred r), (0x62, .vscan r), (0x63, .vsscan r), (0x64, .vwide r),
        (0x65, .vrng r), (0x66, .opt r), (0x67, .vcld r), (0x68, .vcst r), (0x80, .ld r), (0x81, .ldpage r), (0xA0, .st r),
        (0xC0, .xput r), (0xC1, .xget r)],
      insOpc w = p.1 → ∃ t, exec p.2 s = .next t ∧ exec (.heldIssueRetry r) s = .next t

/-- R132, R136, R149, R161, R162, R181, R185 to R198, R233, R147: an engine instruction that passes its checks enters the queue of its
engine with what it captured, while fewer than 8 entries are in use; its rounding passes advance the draw ordinal. An MMA or an LD is
seen by the weathervane besides (the next statement). -/
def Obligations.EngineInstructionsQueue : Prop :=
  ∀ (s : State) (r : ReedIx) (w : BitVec 256) (ext : List (Nat × Nat) × List (Nat × Nat)), issues s r w = true →
    ∀ p ∈ ([(0x42, .accz r, .mx, acczCheck, fun _ _ _ => 0),
        (0x43, .accst r, .mx, accstCheck, fun _ _ nc => if ncStoConv nc then 1 else 0),
        (0x60, .vew r, .vx, fun s r w x => vxCheck (vewSpec s r w x) w x, onePass vewConverts),
        (0x61, .vred r, .vx, fun s r w x => vxCheck (redSpec s r w x) w x, onePass redConverts),
        (0x62, .vscan r, .vx, fun s r w x => vxCheck (redSpec s r w x) w x, onePass redConverts),
        (0x63, .vsscan r, .vx, fun s r w x => vxCheck (redSpec s r w x) w x, onePass redConverts),
        (0x64, .vwide r, .vx, fun s r w x => vxCheck (wideSpec s r w x) w x, onePass (fun w => narrowType (wideTd w))),
        (0x65, .vrng r, .vx, fun s r w x => vxCheck (rngSpec s r w x) w x, onePass rngConverts),
        (0x66, .opt r, .vx, fun s r w x => vxCheck (optSpec s r w x) w x, optPasses),
        (0x67, .vcld r, .vx, fun s r w x => vxCheck (cacheSpec s r w x) w x, fun _ _ _ => 0),
        (0x68, .vcst r, .vx, fun s r w x => vxCheck (cacheSpec s r w x) w x, fun _ _ _ => 0),
        (0x81, .ldpage r, .ld, pageCheck, fun _ _ _ => 0), (0xA0, .st r, .st, lsCheck, lsPasses),
        (0xC0, .xput r, .xput, xputCheck, fun _ _ _ => 0), (0xC1, .xget r, .xget, xgetCheck, fun _ _ _ => 0)] :
        List (Nat × Instr × Engine × IssueCheck × (BitVec 256 → Reed → W32 → Nat))),
      insOpc w = p.1 → p.2.2.2.1 s r w (s.reed r) = .ok ext →
      ((s.reed r).depth (engineNum p.2.2.1) < 8 →
        exec p.2.1 s = .next (s.setReed r (({ s.reed r with
            ord := (s.reed r).ord + BitVec.ofNat 24 (p.2.2.2.2 w (s.reed r) (s.sheaf (r / 4096)).numctl),
            seqNo := (s.reed r).seqNo + 1 } : Reed).setQueue p.2.2.1
          ((s.reed r).queue p.2.2.1 ++ [engineEntry s r (s.reed r) w ext])).advance)) ∧
      (8 ≤ (s.reed r).depth (engineNum p.2.2.1) → exec p.2.1 s = .next (s.setReed r { s.reed r with hold := .fullQueue }))

/-- R160, R161, R170, R257, R258: MMA and MMAF enter MX's queue and LD enters LD's; the weathervane of the sheaf sees an MMA, and an
LD that narrows is offered to its captures. -/
def Obligations.SampledInstructionsQueue : Prop :=
  ∀ (s : State) (r : ReedIx) (w : BitVec 256) (ext : List (Nat × Nat) × List (Nat × Nat)), issues s r w = true →
    (∀ p ∈ [(0x40, Instr.mma r), (0x41, .mmaf r)], insOpc w = p.1 → mmaCheck s r w (s.reed r) = .ok ext → (s.reed r).depth 0 < 8 →
      exec p.2 s = .next ((s.setReed r (({ s.reed r with
          ord := (s.reed r).ord + BitVec.ofNat 24 (mmaPasses w (s.reed r) (s.sheaf (r / 4096)).numctl), seqNo := (s.reed r).seqNo + 1,
          qmx := (s.reed r).qmx ++ [engineEntry s r (s.reed r) w ext] } : Reed)).advance).modSheaf (r / 4096) (fun sh =>
        { sh with wv := sh.wv.onMma r (engineEntry s r (s.reed r) w ext) ((ext.1[0]?).getD (0, 0)) ((ext.1[1]?).getD (0, 0)) }))) ∧
    (insOpc w = 0x80 → lsCheck s r w (s.reed r) = .ok ext → (s.reed r).depth 2 < 8 →
      exec (.ld r) s =
        (let t := s.setReed r (({ s.reed r with
          ord := (s.reed r).ord + BitVec.ofNat 24 (lsPasses w (s.reed r) (s.sheaf (r / 4096)).numctl), seqNo := (s.reed r).seqNo + 1,
          qld := (s.reed r).qld ++ [engineEntry s r (s.reed r) w ext] } : Reed)).advance
        .next (if narrows (lsSrc w) (lsDst w) then
            t.modSheaf (r / 4096) (fun sh => { sh with wv := sh.wv.capture (lsCapture r (engineEntry s r (s.reed r) w ext)) })
          else t)))

/-- R123, R128, R129, R140: an instruction with a flaw and an undefined OPC fault the reed, and what a fault of the stream leaves: FAULTINFO
keeps the first cause with its index and operand, the reed is FAULTED, its queues keep only what is executing, and its registers and
scratchpad are as they were. -/
def Obligations.StreamFaults : Prop :=
  ∀ (s : State) (r : ReedIx),
    (∀ w, issues s r w = true →
      (∀ p ∈ [(0x00, Instr.nopInstruction r, nopFlaw), (0x01, .seti r, setiFlaw), (0x02, .alu r, aluFlaw), (0x05, .movr r, movrFlaw),
          (0x06, .movw r, movwFlaw), (0x08, .loop r, loopFlaw), (0x09, .br r, brFlaw), (0x0A, .waitq r, waitqFlaw),
          (0x1F, .endInstruction r, nopFlaw)],
        ∀ f, insOpc w = p.1 → p.2.2 w (s.reed r) = some f → exec p.2.1 s = .next (streamFault s r f (s.reed r).index)) ∧
      (¬ opcodes.contains (insOpc w) → exec (.nopInstruction r) s = .next (streamFault s r (.illegalOpcode, 0) (s.reed r).index))) ∧
    (∀ f i y, y = (streamFault s r f i).reed r →
      y.st = .faulted ∧ y.qmx = (s.reed r).qmx.filter (·.started) ∧ y.regs = (s.reed r).regs ∧ y.sp = (s.reed r).sp ∧
      y.faultInfo = if (s.reed r).faultInfo.toNat % 256 = 0 then BitVec.ofNat 32 (f.1.code + 2 ^ 8 * (i % 64) + 2 ^ 16 * f.2)
        else (s.reed r).faultInfo)

/-- R133, R134, R150, R152, R164, R174, R223, R239, R240, R241: the engines' own steps. The head of a queue starts once nothing older holds
it back; a running instruction ends with its effect in place and leaves the queue; an ST waits for its acknowledgement; XC moves
the pieces that have room or have arrived; sums land; a trap halts the reed or is counted. An LD and an ST wait while a page or a
die on their way is held (R389, R439). -/
def Obligations.EngineStepsComplete : Prop :=
  ∀ (s : State) (r : ReedIx) (e : Engine) (q : QEntry) (t : List QEntry) (errs : List MemErr),
    (s.reed r).queue e = q :: t → clockRuns s (r / 4096) = true →
    (e = .mx ∨ e = .vx ∨ e = .st → q.started = false → headWaits (s.reed r) q = false →
      startFlaw s r (s.reed r) (readView (s.reed r) q) = none →
      exec (.engineInstructionStart r e errs) s =
        .next (({ s with free := s.free + freeDraws (readView (s.reed r) q) } : State).modReed r (fun x => x.modHead e (fun _ =>
          { readView (s.reed r) q with started := true, srcs := (startExtents (readView (s.reed r) q)).1,
                                       dsts := (startExtents (readView (s.reed r) q)).2, freeBase := s.free, errs := errs })))) ∧
    (e = .ld ∨ e = .xput ∨ e = .xget → q.started = false → headWaits (s.reed r) q = false →
      (e = .ld → memWaits s r (readView (s.reed r) q) = false) → startFlaw s r (s.reed r) (readView (s.reed r) q) = none → ∀ v u,
      v = { readView (s.reed r) q with started := true, srcs := (startExtents (readView (s.reed r) q)).1,
                                       dsts := (startExtents (readView (s.reed r) q)).2, freeBase := s.free, errs := errs } →
      u = ({ s with free := s.free + freeDraws v } : State).modReed r (fun x => x.modHead e (fun _ => v)) →
      exec (.engineInstructionStart r e errs) s = .next (if e = .xput then xputRun maxPieces u r
        else if e = .xget then xgetRun maxPieces u r
        else if insOpc v.raw ≠ 0x80 then u
        else
          let u := u.modSheaf (r / 4096) (fun sh => { sh with wv := sh.wv.sized r v.seqNo (ldSourceBytes v) })
          if lsMem v.raw then touchSectors u 1 (reedPath r) (lsSectors v) errs else u)) ∧
    (∀ f, q.started = false → headWaits (s.reed r) q = false → (e = .ld → memWaits s r (readView (s.reed r) q) = false) →
      startFlaw s r (s.reed r) (readView (s.reed r) q) = some f →
      exec (.engineInstructionStart r e errs) s = .next (streamFault s r f (readView (s.reed r) q).index.toNat)) ∧
    (e = .mx ∨ e = .vx ∨ e = .xput ∨ e = .xget → q.started = true → workDone q = true → dataHeld s r q = false →
      engineTraps s r q = [] →
      exec (.engineInstructionComplete r e) s =
        .next ((engineEffect (wvComplete s r q) r q none).modReed r (fun x => x.popHead e))) ∧
    (e = .ld → q.started = true → workDone q = true → dataHeld s r q = false → engineTraps s r q = [] → ∀ stop t,
      stop = (decide (insOpc q.raw = 0x80) &&
        (match lsViewOf q with | some v => decide (stopOf s q < v.count) | none => false)) →
      t = (engineEffect (wvComplete s r q) r q none).modReed r (fun x => x.popHead e) →
      exec (.engineInstructionComplete r e) s = .next (if stop then (enterFaulted t r 3).flushWatches else t)) ∧
    (e = .st → q.started = true → workDone q = true → dataHeld s r q = false → memWaits s r q = false → engineTraps s r q = [] →
      q.progress = 0 →
      exec (.engineInstructionComplete r e) s =
        .next ((engineEffect s r q none).modReed r (fun x => x.modHead e (fun h => { h with progress := 1 })))) ∧
    (e = .st → q.started = true → dataHeld s r q = false → (q.progress = 0 → memWaits s r q = false) → engineTraps s r q = [] →
      exec (.stAcknowledged r) s =
        .next ((if q.progress = 0 then engineEffect s r q none else s).modReed r (fun x => x.popHead .st))) ∧
    (q.started = true → q.trapsDone = false → ∀ ev, firstEv (engineTraps s r q) = some ev →
      (q.trapAction = true → exec (.numericTrap r e) s = .next ((noteTrap s r q ev).modReed r (fun x =>
        (x.countTraps (engineTraps s r q).length).modHead e (fun h => { h with trapsDone := true })))) ∧
      (q.trapAction = false → exec (.numericTrap r e) s =
        .next ((enterFaulted (dropSample ((engineEffect (noteTrap s r q ev) r q (some ev)).modReed r (fun x =>
          (x.countTraps 1).popHead e)) r q) r 1).flushWatches))) ∧
    exec (.xcBufferRoom r) s = .next (xputRun maxPieces s r) ∧ exec (.xcBytesArrive r) s = .next (xgetRun maxPieces s r) ∧
    exec (.sumsLand r) s = .next ((s.modReed r (fun x => { x with
      bank := x.sums.foldl (fun m e => KMap.put 0 m e.1 e.2) x.bank, sums := [] })).modSheaf (r / 4096) (fun sh =>
        { sh with wv := sh.wv.land r }))

/-- R262 to R265: the checker compares the elements of the first sample whose instruction has run; each counts in the statistics, and when the elements
whose relative difference is above the tolerance reach a threshold that is set, an event is written, at most one in each 1 ms. -/
def Obligations.SampleCompareCompletes : Prop :=
  ∀ (s : State) (g : SheafIx) y ps, (s.sheaf g).wv.samples.find? (fun y => y.pairs.isSome && y.landed) = some y →
    y.pairs = some ps → clockRuns s g = true → ∀ w a b hit t,
    w = (s.sheaf g).wv →
    a = ps.foldl (fun st p => st.element w.tolerance (reedPath y.reed)
      (BitVec.ofNat 8 (y.index.toNat + 64 * b2n y.wideA + 128 * b2n y.wideB)) p) w.stats →
    b = { a with sampled := sat32 (a.sampled + 1), wideBoth := if y.wideA && y.wideB then sat32 (a.wideBoth + 1) else a.wideBoth } →
    hit = (w.threshold ≠ 0 && decide (w.threshold.toNat ≤ (ps.filter (fun p =>
      !((val32 false p.1.toNat).isNan || (val32 false p.2.toNat).isNan || (val32 false p.1.toNat).infSign.isSome ||
        (val32 false p.2.toNat).infSign.isSome) &&
      (val32 false w.tolerance.toNat).lt (relOf (val32 false p.1.toNat) (val32 false p.2.toNat)))).length)) →
    (hit = false → exec (.wvSampleCompare g) s = .next (s.modSheaf g (fun x => { x with wv := { x.wv with
      samples := x.wv.samples.erase y, stats := b } }))) ∧
    (hit = true → w.eventWindow = true → exec (.wvSampleCompare g) s = .next (s.modSheaf g (fun x => { x with wv := { x.wv with
      samples := x.wv.samples.erase y, stats := { b with suppressed := min (b.suppressed + 1) 0xFFFF } } }))) ∧
    (hit = true → w.eventWindow = false →
      t = s.modSheaf g (fun x => { x with wv := { x.wv with samples := x.wv.samples.erase y, stats := b, eventWindow := true } }) →
      exec (.wvSampleCompare g) s = .next (t.event
        { opcode := 0x0B03, group := 1, status := .ok, path := reedPath y.reed,
          allot := t.allotOf g, slot := y.slot, ustate := (s.sheaf g).stOf (y.reed % 4096), detail := b.bytes }))

/-! ### Commands of the device class -/

/-- R90, R91, R92, R33, R73, R407: what each command of the device class does when it is carried out. NOP returns its bytes; DEV_INFO
returns the device record of Table 4-3; REG_READ returns the register's number and value; REG_WRITE changes the three
weights of `TCWEIGHT` and returns it as it then reads; PORT_GRANT from the primary port sets the other port's admin ceiling; TAKEOVER
from a port whose partner is down beyond its grace period moves allotments to it. -/
def Obligations.DeviceCommandsComplete : Prop :=
  (∀ s h d, moduleReady s (.nop h d) = true → exec (.nop h d) s = .next (moduleOutcome s s.taken (.nop h d) .ok d)) ∧
  (∀ s h, moduleReady s (.devInfo h) = true →
    exec (.devInfo h) s = .next (moduleOutcome s s.taken (.devInfo h) .ok
      (leBytes 2 0x7200 ++ leBytes 1 (if s.boot.gradeB then 1 else 0) ++ [Config.stepping] ++
        leBytes 4 (Config.fwVersion s.boot.inUse (slotBytes s.boot s.boot.inUse)).toNat ++ leBytes 1 s.boot.inUse ++
        [Config.fpl s.boot.inUse (slotBytes s.boot s.boot.inUse), Config.svn s.boot.inUse (slotBytes s.boot s.boot.inUse)] ++
        leBytes 5 0 ++ leBytes 8 Config.fabricId.toNat ++ leBytes 8 s.epoch.toNat ++ hashBytes Config.keyHash))) ∧
  (∀ s h n, moduleReady s (.regRead h n) = true →
    ∀ p ∈ [(1, diemap s), (2, s.tcweight.toNat), (3, bootstepReg s), (4, s.ticks.toNat), (5, s.epoch.toNat), (6, fusebudgetReg s)],
      n.toNat = p.1 → exec (.regRead h n) s =
        .next (moduleOutcome s s.taken (.regRead h n) .ok (leBytes 2 p.1 ++ leBytes 6 0 ++ leBytes 8 p.2))) ∧
  (∀ s h n v, moduleReady s (.regWrite h n v) = true → n.toNat = 2 → v.toNat < 2 ^ 32 → ∀ w : W32,
    w = BitVec.ofNat 32 (v.toNat % 16 + v.toNat / 2 ^ 8 % 16 * 2 ^ 8 + v.toNat / 2 ^ 16 % 16 * 2 ^ 16 + 2 ^ 20) →
    exec (.regWrite h n v) s = .next (moduleOutcome s { s.taken with tcweight := w } (.regWrite h n v) .ok
      (leBytes 2 2 ++ leBytes 6 0 ++ leBytes 8 w.toNat))) ∧
  (∀ s h g, moduleReady s (.portGrant h g) = true → g.toNat ≤ 1 → h.src = .port (otherPort (secondaryPort s)) →
    exec (.portGrant h g) s = .next (moduleOutcome s
      (s.taken.modPort (secondaryPort s) (fun x => { x with admin := decide (g = 1) })) (.portGrant h g) .ok [g])) ∧
  (∀ s h a p, moduleReady s (.takeover h a) = true → h.src = .port p → (s.port p).linkUp = true → (s.port (otherPort p)).linkUp = false →
    (s.port (otherPort p)).graceElapsed = true → ∀ l : List Nat,
    (a.toNat = 0xFFFF ∧ l = s.allotsOf (otherPort p) ∧ l ≠ []) ∨ (a.toNat ≠ 0xFFFF ∧ a ≠ 0 ∧ a.toNat ∈ s.allotsOf (otherPort p) ∧ l = [a.toNat]) →
    exec (.takeover h a) s = .next (l.foldl (fun t x => t.hostLink p (otherPort p) 3 x)
      (moduleOutcome s (l.foldl (takeAllot p) s.taken) (.takeover h a) .ok (leBytes 2 l.length))))

/-! ### Commands of the unit class -/

/-- R77 to R82, R93 to R96, R53: what each command of the unit class does on the units it selects, when it is carried out. WAKE puts an OFF
sheaf in line for power and waits until the sheaves are awake; SLEEP empties a sheaf, keeps its repair record and setpoint, and waits until its domain is off; RESET
resets the reeds; QUERY changes nothing; PROG_LOAD, unless its page or die is held, writes the image and returns its sum; START sets the scalar
registers and the counters and lets the reed run; PAUSE, DRAIN stop streams; RESUME lets them go on; UREG_READ, SP_READ and
SPARE_STATUS return what they name; UREG_WRITE, SP_WRITE write it. -/
def Obligations.UnitCommandsComplete : Prop :=
  ∀ s h,
  (unitReady s (.wake h) = true → exec (.wake h) s = .next (unitOutcome s (.wake h) true
    (fun s g _ => ⟨if (s.sheaf g).power ≠ .off then s
      else
        let t := s.modSheaf g (fun x => ({ x with power := if s.pllOf (g / 16) = .locked then .waitSlot else .waitPll } : Sheaf).tell 4 [])
        { t with pow := { t.pow with
            pll := if s.pllOf (g / 16) = .off then t.pow.pll.setIfInBounds (g / 16) .starting else t.pow.pll,
            admitQueue := t.pow.admitQueue ++ [g] } }, .ok, []⟩)
    (fun _ => [])
    (fun s o => match cmdOf o.cmd with
      | some (h, _) =>
        let l := (selOf h.path h.mask).sheaves.filter (fun g => decide ((s.sheaf g).power ≠ .awake) && !(s.sheaf g).withheld)
        if l = [] then none else some (.sheavesAwake l)
      | none => none))) ∧
  (unitReady s (.sleep h) = true → exec (.sleep h) s = .next (unitOutcome s (.sleep h) true
    (fun s g _ =>
      ⟨closeBuffers (s.modSheaf g (fun x => { Sheaf.reset with
        power := .sleeping, withheld := x.withheld, census := x.ownCensus Census.off, repair := x.repair, faultWin := x.faultWin,
        clock := SClock.resetAt x.clock.setpoint })), .ok, []⟩)
    (fun _ => []) (fun _ o => if o.acted then some .action else none))) ∧
  (unitReady s (.reset h) = true → exec (.reset h) s = .next (unitOutcome s (.reset h) false
    (fun s g ls => ⟨resetSheaf s g ls, .ok, []⟩) (fun _ => []) (fun _ _ => none))) ∧
  (unitReady s (.query h) = true → exec (.query h) s = .next (unitOutcome s (.query h) false
    (fun s _ _ => ⟨s, .ok, []⟩) (fun _ => []) (fun _ _ => none))) ∧
  (∀ source count entry address image, unitReady s (.progLoad h source count entry address image) = true →
    loadHeld s source count address = false →
    exec (.progLoad h source count entry address image) s = .next (unitOutcome s (.progLoad h source count entry address image) false
      (progLoadAct h source.toNat count.toNat entry.toNat address.toNat image [])
      (fun o => leBytes 2 count.toNat ++ leBytes 2 entry.toNat ++ (o.pieces.head?.map (·.2)).getD (leBytes 4 0))
      (fun _ o => if o.acted then some .action else none))) ∧
  (∀ args, unitReady s (.start h args) = true → exec (.start h args) s = .next (unitOutcome s (.start h args) false
    (fun s g ls => ⟨ls.foldl (fun s l => s.modReed (4096 * g + l) (fun x => { x with
        st := .running, slot := h.slot, cycles := 0, fullq := 0, portStalls := 0, ord := 0, ended := false, hold := .none,
        counting := true, regs := Vector.ofFn (fun (i : Fin 16) =>
          if i.val = 0 then BitVec.ofNat 32 (reedPath (4096 * g + l)).toNat else (args[i.val - 1]?).getD 0) })) s, .ok, []⟩)
    (fun _ => []) (fun _ _ => none))) ∧
  (unitReady s (.pause h) = true → exec (.pause h) s = .next (unitOutcome s (.pause h) false
    (fun s g ls => ⟨ls.foldl (fun s l => stopReed .paused s (4096 * g + l)) s, .ok, []⟩) (fun _ => []) (fun _ _ => none))) ∧
  (unitReady s (.resume h) = true → exec (.resume h) s = .next (unitOutcome s (.resume h) false
    (fun s g ls => ⟨ls.foldl (fun s l => s.modReed (4096 * g + l) (fun x => { x with st := .running })) s, .ok, []⟩)
    (fun _ => []) (fun _ _ => none))) ∧
  (unitReady s (.drain h) = true → exec (.drain h) s = .next (unitOutcome s (.drain h) false
    (fun s g ls => ⟨ls.foldl (fun s l => (if (s.reed (4096 * g + l)).st = .running then stopReed .draining s (4096 * g + l)
        else s.modReed (4096 * g + l) (fun x => { x with st := .draining, hold := .none })).modSheaf ((4096 * g + l) / 4096)
      (fun sh => sh.endArming (4096 * g + l))) s, .ok, []⟩) (fun _ => []) (fun _ _ => none))) ∧
  (∀ n, unitReady s (.uregRead h n) = true → exec (.uregRead h n) s = .next (unitOutcome s (.uregRead h n) false
    (fun s g ls => ⟨s, .ok, ls.flatMap (fun l => leBytes 8 ((reedReg s (4096 * g + l) n.toNat).getD 0))⟩)
    (fun o => leBytes 4 ((joinPieces o).length / 8) ++ leBytes 4 0 ++ joinPieces o) (fun _ _ => none) 8)) ∧
  (∀ n v, unitReady s (.uregWrite h n v) = true → exec (.uregWrite h n v) s = .next (unitOutcome s (.uregWrite h n v) false
    (fun s g ls => ⟨ls.foldl (fun s l => s.modReed (4096 * g + l) (fun x => x.writeReg n.toNat v.toNat)) s, .ok, []⟩)
    (fun _ => []) (fun _ _ => none))) ∧
  (∀ off n, unitReady s (.spRead h off n) = true → exec (.spRead h off n) s = .next (unitOutcome s (.spRead h off n) false
    (fun s g ls => ⟨s, .ok, ls.flatMap (fun l => KMap.bytes (s.reed (4096 * g + l)).sp off.toNat n.toNat)⟩)
    joinPieces (fun _ _ => none) n.toNat)) ∧
  (∀ off d, unitReady s (.spWrite h off d) = true → exec (.spWrite h off d) s = .next (unitOutcome s (.spWrite h off d) false
    (fun s g ls => ⟨ls.foldl (fun s l => s.modReed (4096 * g + l) (fun x => { x with sp := KMap.write x.sp off.toNat d })) s, .ok, []⟩)
    (fun _ => []) (fun _ _ => none))) ∧
  (unitReady s (.spareStatus h) = true → exec (.spareStatus h) s = .next (unitOutcome s (.spareStatus h) true
    (fun s g _ => ⟨s, .ok, (List.range 256).flatMap (fun k => leBytes 2 (((s.sheaf g).l1 k).entry (s.sheaf g).withheld s.boot.unfused))⟩)
    joinPieces (fun _ _ => none)))

/-- R77, R79, R55, R116, R424, R427: the transitions that sheaves and reeds make by themselves. A place in the inrush limit starts a sheaf's
powering phase; at its end the sheaf is awake with everything at its reset value, its repairs in force; a PLL locks or stops; a drained reed passes
to LOADED, one still DRAINING at its limit to FAULTED; a hardware fault records a repair and faults the reed; the coalescing window of
UNIT_FAULTED closes with one event. -/
def Obligations.UnitEventsComplete : Prop :=
  (∀ s (g : SheafIx), (s.sheaf g).power = .waitSlot → earlierWaits s g = false → ∀ a b : State,
    a = (if (inPhaseOf s (g / 16)).length < phaseDieLimit s then s else (inPhaseOf s (g / 16)).head?.elim s (leavePhase s)) →
    b = (if a.pow.inPhase.length < phaseLimit s then a else a.pow.inPhase.head?.elim a (leavePhase a)) →
    exec (.poweringSlotGrant g) s =
      (let t := b.modSheaf g (fun x => { x with power := .powering })
       .next { t with pow := { t.pow with
         inPhase := t.pow.inPhase ++ [g.val], admitQueue := t.pow.admitQueue.filter (· ≠ g.val) } })) ∧
  (∀ s (g : SheafIx), (s.sheaf g).power = .powering ∨ (s.sheaf g).power = .rising → ∀ c : SClock,
    c = SClock.resetAt (s.sheaf g).clock.setpoint →
    exec (.wakeComplete g) s =
      (let t := s.setSheaf g { Sheaf.reset with
        power := .awake, census := (s.sheaf g).ownCensus Census.idle, repair := settleRepairs (s.sheaf g).repair,
        faultWin := (s.sheaf g).faultWin, laneSeed := s.free,
        clock := if s.pow.currentStretch then { c.engage s.pow.ceiling with currentStretch := true } else c }
       .next (wakeReplies { t with free := t.free + 32768, pow := { t.pow with inPhase := s.pow.inPhase.filter (· ≠ g.val) } }))) ∧
  (∀ s (d : DieIx), s.pow.pll[d] = .starting → exec (.pllLock d) s =
    .next ((List.range 16).foldl (fun t i => t.modSheaf (16 * d + i) (fun x =>
      if x.power = .waitPll then { x with power := .waitSlot } else x)) { s with pow := { s.pow with pll := s.pow.pll.set d .locked } })) ∧
  (∀ s (d : DieIx), s.pow.pll[d] = .locked → (∀ i < 16, (s.sheaf (16 * d + i)).power = .off) →
    exec (.pllStop d) s = .next { s with pow := { s.pow with pll := s.pow.pll.set d .off } }) ∧
  (∀ s (r : ReedIx), (s.sheaf (r / 4096)).stOf (r % 4096) = .draining →
    ((s.reed r).queuesEmpty = true → exec (.drainComplete r) s = .next (toLoaded s r).flushWatches) ∧
    exec (.drainLimit r) s = .next (enterFaulted s r 5).flushWatches) ∧
  (∀ s (r : ReedIx) x p, (s.sheaf (r / 4096)).power = .awake → (s.sheaf (r / 4096)).retired (r % 4096) = false →
    repairFor ((s.sheaf (r / 4096)).l1 (r % 4096 / 16)) (r % 16) = (x, p) → p ≠ .retireL1 →
    ((s.sheaf (r / 4096)).l1 (r % 4096 / 16)).awaits (r % 16) = false → (s.reed r).st ≠ .faulted →
    ∀ j, j = recordRepair s r (if ((s.sheaf (r / 4096)).l1 (r % 4096 / 16)).replaced = some (r.val % 16) then 16 else r.val % 16) true →
    exec (.hardwareFault r) s =
      .next (enterFaulted (j.1.modSheaf (r / 4096) (fun sh => { sh with
        repair := KMap.put L1Repair.none sh.repair (r % 4096 / 16)
          { x with pending := x.pending ++ [⟨p, j.2, decide (((s.sheaf (r / 4096)).l1 (r % 4096 / 16)).replaced = some (r.val % 16)), true⟩] } }))
        r 3).flushWatches) ∧
  (∀ s (g : SheafIx) w, (s.sheaf g).faultWin = some w → exec (.unitFaultedCoalesce g) s =
    .next ((s.modSheaf g (fun sh => { sh with faultWin := none })).event
      { opcode := 0x0B04, group := 2, status := faultStatus w.cause, path := w.path, allot := s.allotOf g,
        slot := (s.reed (w.path.toNat % 2 ^ 20)).slot, ustate := (s.sheaf g).stOf (w.path.toNat % 2 ^ 20 % 4096),
        detail := leBytes 1 w.cause ++ leBytes 3 0 ++ leBytes 4 w.count }))

/-! ### Memory -/

/-- R98, R225, R387 to R392: what each command of the memory class does when it is carried out. MEM_GRANT adds a range to an allotment; MEM_REVOKE
marks it as being revoked, to be withdrawn at the end of its action, and replies with its size; HOST_DMA stays in progress until the transfer ends (CommandActionsEnd
says what moves); APERTURE sets the port's BAR2 base and, in job class, its binding; MEM_FILL stays in progress likewise; ECC_READ
returns the counts and clears two of them; ROW_RETIRE retires the page that holds the address. -/
def Obligations.MemoryCommandsComplete : Prop :=
  (∀ s h al base size a, moduleReady s (.memGrant h al base size) = true → s.allot? al.toNat = some a →
    foreignAllot s h al.toNat = false → size ≠ 0 → base.toNat + size.toNat ≤ memEnd → base.toNat % gib = 0 → size.toNat % gib = 0 →
    (∀ g ∈ s.granted, extOverlap (base.toNat, base.toNat + size.toNat) g = false) →
    exec (.memGrant h al base size) s = .next (moduleOutcome s { s.taken with
      allots := KMap.ins s.allots al.toNat { a with grants := a.grants ++ [(base.toNat, base.toNat + size.toNat)] } }
      (.memGrant h al base size) .ok [])) ∧
  (∀ s h al base a g, moduleReady s (.memRevoke h al base) = true → foreignAllot s h al.toNat = false →
    s.allot? al.toNat = some a → a.grants.find? (fun g => decide (g.1 = base.toNat)) = some g →
    exec (.memRevoke h al base) s = .next (moduleHeld s { s.taken with
      allots := KMap.ins s.allots al.toNat { a with revoking := a.revoking ++ [g] } }
      (.memRevoke h al base) .ok (leBytes 8 (g.2 - g.1)))) ∧
  (∀ s h dir host dev n, moduleReady s (.hostDma h dir host dev n) = true → dir.toNat ≤ 1 → portOf h ≠ none →
    64 ≤ n.toNat → n.toNat ≤ 64 * gib → dev.toNat + n.toNat ≤ memEnd → host.toNat % 64 = 0 → dev.toNat % 64 = 0 → n.toNat % 64 = 0 →
    memScope s h dev.toNat (dev.toNat + n.toNat) = true →
    exec (.hostDma h dir host dev n) s = .next (moduleHeld s s.taken (.hostDma h dir host dev n) .ok [])) ∧
  (∀ s h base p, moduleReady s (.aperture h base) = true → portOf h = some p → base.toNat + 64 * gib ≤ memEnd →
    base.toNat % gib = 0 → memScope s h base.toNat (base.toNat + 64 * gib) = true →
    exec (.aperture h base) s = .next (moduleOutcome s
      (s.taken.modPort p (fun x => { x with bar2Base := base, bar2Allot := if h.priv = 0 then h.allot else 0 }))
      (.aperture h base) .ok [])) ∧
  (∀ s h dev n pattern, moduleReady s (.memFill h dev n pattern) = true → 64 ≤ n.toNat → n.toNat ≤ 64 * gib →
    dev.toNat + n.toNat ≤ memEnd → dev.toNat % 64 = 0 → n.toNat % 64 = 0 → memScope s h dev.toNat (dev.toNat + n.toNat) = true →
    exec (.memFill h dev n pattern) s = .next (moduleHeld s s.taken (.memFill h dev n pattern) .ok [])) ∧
  (∀ s h clear, moduleReady s (.eccRead h clear) = true → clear.toNat ≤ 1 →
    exec (.eccRead h clear) s = .next (moduleOutcome s
      (if clear = 1 then { s.taken with mem := { s.mem with corrected := 0, uncorrected := 0 } } else s.taken) (.eccRead h clear) .ok
      (leBytes 8 s.mem.corrected ++ leBytes 8 s.mem.uncorrected ++ leBytes 4 (rowsRetired s) ++ leBytes 4 (fewestSpares s) ++
        leBytes 8 (scrubPasses s)))) ∧
  (∀ s h a t, moduleReady s (.rowRetire h a) = true → a.toNat < memEnd → t = retirePage s.taken (memChan a.toNat) (memPage a.toNat) 6 0 →
    exec (.rowRetire h a) s = .next (if memPage a.toNat ∈ (t.chan (memChan a.toNat)).failedPages then
        moduleOutcome s t (.rowRetire h a) .okDegraded (leBytes 8 (rowBase (memChan a.toNat) (memPage a.toNat)))
      else moduleHeld s t (.rowRetire h a) .ok (leBytes 8 (rowBase (memChan a.toNat) (memPage a.toNat)))))

/-- R397, R400, R401: a host's own accesses over BAR2 and the error of a DMA read. A write inside the aperture's allotment lands with its
byte enables; a read returns the bytes, poisoned ones as 0xFF; an access outside is counted as denied, and a read of it ends as an
Unsupported Request; an access whose page, channel or die is held waits in its port's order; a write of BAR2STAT clears what was read; a host
read error keeps what was written and ends the transfer with `LINK_DOWN`. -/
def Obligations.HostAccessComplete : Prop :=
  (∀ s p off (data : List (Option Byte)) errs, bar2Takes s p off data.length = true →
    exec (.bar2Write p off data errs) s = .next (
      if bar2Denied s p ((s.port p).bar2Base.toNat + off) data.length then
        s.modPort p (fun x => { x with denied := min (x.denied + 1) 0xFFFF })
      else if bar2Waits s ⟨p, (s.port p).bar2Base.toNat + off, data.length, some data, errs⟩ then
        { s with mem := { s.mem with
          waiting := s.mem.waiting ++ [⟨p, (s.port p).bar2Base.toNat + off, data.length, some data, errs⟩] } }
      else memWrite s 5 0
        ((data.zipIdx ((s.port p).bar2Base.toNat + off)).filterMap (fun e => e.1.map (fun b => (e.2, b)))) errs)) ∧
  (∀ s p off n errs, bar2Takes s p off n = true → ∀ lo t, lo = (s.port p).bar2Base.toNat + off →
    t = touchSectors s 5 0 (sectorsOf lo n) errs →
    exec (.bar2Read p off n errs) s = .next (
      if bar2Denied s p lo n then
        s.modPort p (fun x => { x with
          denied := min (x.denied + 1) 0xFFFF, aer := x.aer ||| 0x100000, bar2Out := some { data := [], ep := false, ur := true } })
      else if bar2Waits s ⟨p, lo, n, none, errs⟩ then
        { s with mem := { s.mem with waiting := s.mem.waiting ++ [⟨p, lo, n, none, errs⟩] } }
      else t.modPort p (fun x => { x with
        bar2Poisoned := x.bar2Poisoned || (sectorsOf lo n).any (sectorBad t),
        bar2Out := some {
          data := ((t.memBytes lo n).zipIdx lo).map (fun e => if sectorBad t (e.2 / 32) then 0xFF else e.1),
          ep := (sectorsOf lo n).any (sectorBad t), ur := false } }))) ∧
  (∀ s id o h dir host dev n (data : List Byte) errs, s.lodge.ops.find? (fun o => decide (o.id = id) && decide (o.wait = .action)) = some o →
    o.cmd = .hostDma h dir host dev n → dir = 0 → data.length < n.toNat → data.length % 32 = 0 →
    memHeld s (sectorsOf dev.toNat data.length) = false → ∀ p t, portOf h = some p →
    t = wholeChecks (s.fresh.2.modPort p (fun x => { x with aer := x.aer ||| ((s.fresh.1.setWidth 32) &&& 0x4000) })) dev.toNat
      data.length errs →
    exec (.hostDmaReadError id data errs) s = .next (finishModule ((wholeLands t dev.toNat data).dropOp o.id) o.id o.cmd
      (if landed t dev.toNat data.length < data.length then Status.worse .linkDown .okDegraded else .linkDown)
      (leBytes 8 (landed t dev.toNat data.length)))) ∧
  (∀ s p, (s.port p).reached = true → exec (.bar2statClear p) s = .next (s.modPort p (fun x => { x with denied := 0 })))

/-- R384 to R390, R426: what the memory does by itself. A scrub read of a page not yet read in the pass applies the errors it finds and counts the page; a finished
retirement remaps its page to the lowest free spare, is journalled and reported; of a page's event windows the one that opened first closes with one
event; drift retrains a channel, which then journals its record; temperature sets the refresh rate and takes part in the trip; an idle channel enters
self-refresh. The layouts of the REMAP_PAGE body and of the end of the TRAINING record are log entry 16 (DEDUCED). -/
def Obligations.MemoryEventsComplete : Prop :=
  (∀ s (ch : ChanIx) page errs, page < pagesPerChan → page ∉ (s.chan ch).scrubbed → memHeld s (halfSectors ch page 0) = false → ∀ secs u t,
    secs = halfSectors ch page 0 ++ halfSectors ch page 1 → u = (s.wakeChans secs).fillCaches secs →
    t = (errsMet s errs secs).foldl (fun t e => applyErr t 0 0 [] e)
      { u with mem := { u.mem with uncorrected := u.mem.uncorrected + (secs.filter (sectorBad u)).length } } →
    exec (.scrubRead ch page errs) s = .next (t.modChan ch (fun c =>
      if c.scrubbed.length + 1 = pagesPerChan then { c with scrubbed := [], pass := c.pass + 1, correctedInPass := [] }
      else { c with scrubbed := c.scrubbed ++ [page] }))) ∧
  (∀ s (ch : ChanIx) p l errs, (s.chan ch).retiring = p :: l → ∀ secs v q t u,
    secs = halfSectors ch p 0 ++ halfSectors ch p 1 →
    v = (errsMet s errs secs).foldl (fun t e => applyErr t 6 0 [] e) ((s.wakeChans secs).fillCaches secs) →
    q = pagesPerChan + (v.chan ch).sparesUsed →
    t = v.modChan ch (fun c => { c with
      retiring := l, remap := KMap.ins c.remap p q, sparesUsed := c.sparesUsed + 1, correctedInPass := KMap.del c.correctedInPass p,
      cache := c.cache.filter (fun b => decide (b / 2 ≠ (KMap.look c.remap p).getD p)) }) →
    u = (t.moduleEvent 0x0B0A 5 .ok (leBytes 8 (rowBase ch p) ++ leBytes 4 (t.chan ch).sparesLeft)).journalAdd 0x0007 .ok
      (leBytes 2 ch ++ leBytes 4 p ++ leBytes 4 q) →
    exec (.rowRetirementDone ch errs) s =
      .next (flushBar2 { u.1 with boot := { u.1.boot with unfused := u.1.boot.unfused ++ [u.2.seq] } })) ∧
  (∀ s (ch : ChanIx) page k w, (k = windowKey page 0 ∧ ∀ v, KMap.look (s.chan ch).windows (windowKey page 3) = some v → w.order < v.order) ∨
      (k = windowKey page 3 ∧ ∀ v, KMap.look (s.chan ch).windows (windowKey page 0) = some v → w.order ≤ v.order) →
    KMap.look (s.chan ch).windows k = some w →
    exec (.eccWindowClose ch page) s = .next (eccEvent (s.modChan ch (fun c => { c with windows := KMap.del c.windows k }))
      w.kind w.addr ch page w.source w.sectors w.count w.path)) ∧
  (∀ s (ch : ChanIx), exec (.driftCheck ch true) s = .next (s.modChan ch (fun c => { c with retraining := true })) ∧
    exec (.driftCheck ch false) s = .next s) ∧
  (∀ s (ch : ChanIx), (s.chan ch).retraining = true → ∀ t b u,
    t = s.modChan ch (fun c => { c with retraining := false }) → (b, u) = trainingRecord t ch (s.chan ch).rate →
    exec (.channelRetrainDone ch) s = .next (flushBar2 (u.journalAdd 0x0009 .ok (b ++ leBytes 1 0 ++ leBytes 1 1)).1)) ∧
  (∀ s dev temp, exec (.deviceTemperatureRead dev temp) s = .next (State.tripCheck { s with mem := { s.mem with
    refreshDouble := if 1360 < temp then s.mem.refreshDouble ||| BitVec.ofNat 16 (2 ^ dev.val)
      else s.mem.refreshDouble &&& ~~~(BitVec.ofNat 16 (2 ^ dev.val)) } } (284 + dev.val) temp)) ∧
  (∀ s (ch : ChanIx), (s.chan ch).retraining = false →
    exec (.selfRefreshEntry ch) s = .next (s.modChan ch (fun c => { c with selfRefresh := true })))

/-! ### Tensors -/

/-- R100, R246 to R256: what each command of the tensor class does when it is carried out. LOFT_WRITE and LOFT_READ reach the loft of each
selected sheaf; TENSOR_MOVE, unless a page or die on its way is held, runs its descriptors in order on each; TENSOR_DEFINE keeps a description and returns the bytes held; TENSOR_RELEASE
forgets it. -/
def Obligations.TensorCommandsComplete : Prop :=
  (∀ s h off d, unitReady s (.loftWrite h off d) = true → exec (.loftWrite h off d) s = .next (unitOutcome s (.loftWrite h off d) true
    (fun s g _ => ⟨s.loftStore g 4096 none ((d.zipIdx off.toNat).map (fun e => (e.2, e.1))), .ok, []⟩) (fun _ => []) (fun _ _ => none))) ∧
  (∀ s h off n, unitReady s (.loftRead h off n) = true → exec (.loftRead h off n) s = .next (unitOutcome s (.loftRead h off n) true
    (fun s g _ => ⟨s, .ok, KMap.bytes (s.sheaf g).loft off.toNat n.toNat⟩) joinPieces (fun _ _ => none))) ∧
  (∀ s h ds, unitReady s (.tensorMove h ds) = true → (∀ g ∈ (selOf h.path h.mask).sheaves, moveHeld s h ds g = false) → exec (.tensorMove h ds) s = .next (unitOutcome s (.tensorMove h ds) true
    (fun s g _ => match planAll s h g ds with
      | .error e => ⟨s, e.2, leBytes 8 0⟩
      | .ok ps =>
        let r := ps.foldl (fun (r : MoveRes) p =>
          let t := runMove r.state g p
          ⟨t.state, r.moved + t.moved, r.degraded || t.degraded⟩) ⟨{ s with mem := { s.mem with latent := [] } }, 0, false⟩
        ⟨{ r.state with mem := { r.state.mem with latent := [] } }, if r.degraded then .okDegraded else .ok, leBytes 8 r.moved⟩)
    joinPieces (fun _ _ => some .action))) ∧
  (∀ s h (n : W16) (fmt : Byte) dims a, moduleReady s (.tensorDefine h n fmt dims) = true → 1 ≤ n.toNat → n.toNat ≤ 0xFFF →
    1 ≤ dims.length → dims.length ≤ 8 → (elemKind fmt.toNat).isSome → (∀ e ∈ dims.zipIdx, dimForm e.2 e.1 = true) →
    s.allot? h.allot.toNat = some a → KMap.look a.tensors n.toNat = none →
    insideRanges a.grants (tensorFoot s a fmt.toNat dims).1 (tensorFoot s a fmt.toNat dims).2 = true →
    shardConflict s a fmt.toNat dims = false →
    exec (.tensorDefine h n fmt dims) s = .next (moduleOutcome s { s.taken with
      allots := KMap.ins s.allots h.allot.toNat { a with tensors := KMap.ins a.tensors n.toNat { format := fmt, dims := dims } } }
      (.tensorDefine h n fmt dims) .ok (leBytes 8 (heldBytes fmt.toNat (layout s a 0 dims))))) ∧
  (∀ s h (n : W16) a x, moduleReady s (.tensorRelease h n) = true → s.allot? h.allot.toNat = some a → KMap.look a.tensors n.toNat = some x →
    exec (.tensorRelease h n) s = .next (moduleOutcome s { s.taken with
      allots := KMap.ins s.allots h.allot.toNat { a with tensors := KMap.del a.tensors n.toNat } } (.tensorRelease h n) .ok []))

/-! ### Host ports -/

/-- R61 to R65: the packet window. A host write makes halves of words present; over a word already present, or misaligned, it halts the window; a
halted window counts what it drops; RESYNC clears it; a packet that is whole is taken, its words cleared, the take pointer and
`PWTAKEN` advanced, and its header checks decide whether a command is received or a reply is written; a header outside the framing
rules halts the window and is dropped, when the packet would be taken (log entry 68, DESIGN CHOICE: R64 does not say when the window sees it). A
packet held under FENCE goes on, or has its reply, once the earlier ones have theirs. -/
def Obligations.WindowEventsComplete : Prop :=
  (∀ s p off (data : List Byte), s.boot.released = true → (s.port p).reached = true →
    ((s.port p).halted = true → exec (.windowWrite p off data) s =
      .next (s.modPort p (fun x => { x with dropped := min (x.dropped + 1) 1023 }))) ∧
    ((s.port p).halted = false → off % 4 ≠ 0 ∨ data.length % 4 ≠ 0 → exec (.windowWrite p off data) s = .next (haltWindow s p 3)) ∧
    ((s.port p).halted = false → off % 4 = 0 → data.length % 4 = 0 → ∀ d, d = data.take (windowBytes - off) →
      ((∃ k, k < d.length / 4 ∧ (s.port p).wordPresent ((off / 4 + k) / 2) = true) →
        exec (.windowWrite p off data) s = .next (haltWindow s p 2)) ∧
      ((∀ k, k < d.length / 4 → (s.port p).wordPresent ((off / 4 + k) / 2) = false) →
        exec (.windowWrite p off data) s = .next (s.modPort p (fun x => { x with win := putHalves x.win (off / 4) d }))))) ∧
  (∀ s p, (s.port p).reached = true → exec (.resync p) s = .next (s.modPort p (fun x => { x with
    win := [], takePtr := 0, taken := 0, halted := false, cause := 0, dropped := 0 }))) ∧
  (∀ s p, mayTake s p = true → ∀ n b t k,
    n = (rawHdr ((s.port p).packetBytes 2)).words → b = (s.port p).packetBytes n →
    t = s.modPort p (fun x => { x with
      win := x.win.filter (fun e => decide (n ≤ (e.1 / 2 + 32768 - x.takePtr / 8) % 32768)),
      takePtr := (x.takePtr + 8 * n) % windowBytes, taken := x.taken + BitVec.ofNat 32 (8 * n) }) →
    k = checkPacket t (.port p) b →
    (n < 2 ∨ 8192 < n → exec (.packetTaken p) s = .next (headerReply (s.modPort p (fun x => { x with
      win := x.win.filter (fun e => decide (2 ≤ (e.1 / 2 + 32768 - x.takePtr / 8) % 32768)),
      halted := true, cause := 1, dropped := 0 })) (.port p) ((s.port p).packetBytes 2) .badLength)) ∧
    (2 ≤ n → n ≤ 8192 → (∀ w ∈ (s.port p).packetWords n, (s.port p).wordPresent w = true) →
      (∀ c, k.1 = .good c → exec (.packetTaken p) s = .next (receiveCmd k.2 c)) ∧
      (∀ st, k.1 = .refused st → exec (.packetTaken p) s = .next (answerCheck k.2 (.nop ((rawHdr b).hdr (.port p) b) [])
        (.header st (b.take 16)) (fun s id => headerReplyAs s id (.port p) b st))) ∧
      (∀ c st, k.1 = .flawed c st →
        exec (.packetTaken p) s = .next (answerCheck k.2 c (.form st) (fun s id => formReplyAs s id c st))))) ∧
  (∀ s p w, s.lodge.waiting.find? (fun w => w.fencedBy ≠ [] && !(w.fencedBy.any (fun i => (s.openCmds p).contains i)) &&
      decide (srcOf w.cmd = some (Src.port p))) = some w → ∀ rest, rest = s.lodge.waiting.filter (fun v => v.id ≠ w.id) →
    (w.verdict = .admitted → exec (.fenceRelease p) s = .next { s with lodge := { s.lodge with
      waiting := rest ++ [{ w with fencedBy := [] }] } }) ∧
    (∀ st, w.verdict = .form st → exec (.fenceRelease p) s =
      .next (formReplyAs { s with lodge := { s.lodge with waiting := rest } } w.id w.cmd st)) ∧
    (∀ st b, w.verdict = .header st b → exec (.fenceRelease p) s =
      .next (headerReplyAs { s with lodge := { s.lodge with waiting := rest } } w.id (.port p) b st)))

/-- R66 to R72: the reply ring. The reply at the head of the store is written at `REPLYTAIL` with the phase, the tail and the phase advance, a message is
sent when it is due, and replies kept back move into the store; a legal `REPLYHEAD` is taken, an illegal one sets HEAD_ERR; an
enable latches the configuration and restarts the ring, a wrong configuration sets CFG_ERR; a disable discards; a write of `REPLYCTL` holds what is
not yet signalled to its new count and time (log entry 69); the coalescing timer sends the message; EVENTS_LOST is written once there is room. -/
def Obligations.RingEventsComplete : Prop :=
  (∀ s p k rest, (s.port p).hold = k :: rest → (s.port p).enable = true → (s.port p).headFits = true → ∀ x n u y,
    x = s.port p → n = x.ringSize → u = min k.entries (n - 1) →
    y = { x with
      hold := rest, hostMem := ringWrite x.hostMem x.latchedBase.toNat n x.tail (k.ringBytes x.phase (n - 1)),
      tail := (x.tail + u) % n, phase := if n ≤ x.tail + u then !x.phase else x.phase, unsignalled := x.unsignalled + 1,
      timerArmed := x.timerArmed || decide (x.coalesceTime ≠ 0) } →
    exec (.replyWrite p) s = .next ((s.setPort p
      (if y.irqEn && (k.irq || decide (max 1 y.coalesceCount.toNat ≤ y.unsignalled)) then y.signal else y)).drainStore p).flushWatches) ∧
  (∀ s p (v : W32), (s.port p).reached = true → exec (.replyheadWrite p v) s = .next (s.modPort p (fun x =>
    if v.toNat % 65536 < x.ringSize &&
      decide ((v.toNat % 65536 + x.ringSize - x.head) % x.ringSize ≤ (x.tail + x.ringSize - x.head) % x.ringSize)
    then { x with head := v.toNat % 65536 } else { x with headErr := true }))) ∧
  (∀ s p (v : W32), (s.port p).reached = true → v.getLsbD 0 = true → (s.port p).enable = false → (s.port p).cfgOk = true → ∀ t,
    t = s.modPort p (fun x => { Port.recheck { x with
      irqEn := bitOf v.toNat 1, vector := BitVec.ofNat 6 (v.toNat / 4), coalesceCount := BitVec.ofNat 8 (v.toNat / 2 ^ 8),
      coalesceTime := BitVec.ofNat 12 (v.toNat / 2 ^ 16), headErr := x.headErr && !bitOf v.toNat 29,
      cfgErr := x.cfgErr && !bitOf v.toNat 30 } with
      enable := true, latchedBase := x.replyBase, latchedLog2 := x.replySize.toNat,
      head := 0, tail := 0, phase := true, evSeq := 1, evLost := 0, lostSince := 0, unsignalled := 0, timerArmed := false,
      upEvent := false }) →
    exec (.replyRingEnable p v) s = .next (if (s.port p).upEvent then t.hostLink p p 1 0 else t)) ∧
  (∀ s p (v : W32), (s.port p).reached = true → v.getLsbD 0 = true → (s.port p).enable = false → (s.port p).cfgOk = false →
    exec (.replyRingEnable p v) s = .next (s.modPort p (fun x => { Port.recheck { x with
      irqEn := bitOf v.toNat 1, vector := BitVec.ofNat 6 (v.toNat / 4), coalesceCount := BitVec.ofNat 8 (v.toNat / 2 ^ 8),
      coalesceTime := BitVec.ofNat 12 (v.toNat / 2 ^ 16), headErr := x.headErr && !bitOf v.toNat 29,
      cfgErr := x.cfgErr && !bitOf v.toNat 30 } with cfgErr := true }))) ∧
  (∀ s p (v : W32), (s.port p).reached = true → v.getLsbD 0 = false → (s.port p).enable = true →
    exec (.replyRingDisable p v) s = .next ((s.modPort p (fun x => Port.recheck { x with
      irqEn := bitOf v.toNat 1, vector := BitVec.ofNat 6 (v.toNat / 4), coalesceCount := BitVec.ofNat 8 (v.toNat / 2 ^ 8),
      coalesceTime := BitVec.ofNat 12 (v.toNat / 2 ^ 16), headErr := x.headErr && !bitOf v.toNat 29,
      cfgErr := x.cfgErr && !bitOf v.toNat 30 })).disableRing p)) ∧
  (∀ s p, (s.port p).timerArmed = true → 0 < (s.port p).unsignalled → (s.port p).irqEn = true →
    exec (.coalesceTimerExpiry p) s = .next (s.modPort p Port.signal)) ∧
  (∀ s p, (s.port p).enable = true → 0 < (s.port p).lostSince → (s.port p).held < 32768 → (s.port p).evGroups.getLsbD 7 = true →
    exec (.eventsLost p) s = .next ((s.modPort p (fun x => { x with lostSince := 0 })).eventTo p
      { opcode := 0x0B10, group := 7, status := .ok, path := 0, allot := 0, slot := 0xF, ustate := s.moduleTop,
        detail := leBytes 4 (s.port p).lostSince }))

/-- R395, R398, R404 to R406, R75, R410, R411, R457: the links, the register area and the other lanes. A register takes its writable fields; a port reset puts
the port at its reset values but for its link and, as PCI Express has it (log entry 80, PRESUMED), its AER bits; PERST_N low resets the port and holds it; a link loss tells the other port and starts the grace period; a link that trains tells it
too; a packet from a peer within one FPL, or one over the sideband, is received after the same header checks. -/
def Obligations.PortEventsComplete : Prop :=
  (∀ s p off (v : W64), (s.port p).reached = true → off % 4 = 0 → ∀ w, w = v.toNat % 2 ^ 32 →
    (off = 0x40010 → exec (.registerWrite p off 4 v) s = .next (s.modPort p (fun x => { x with
      replyBase := BitVec.ofNat 64 (x.replyBase.toNat / 2 ^ 32 * 2 ^ 32 + w % 2 ^ 32 / 4096 * 4096) }))) ∧
    (off = 0x40014 → exec (.registerWrite p off 4 v) s = .next (s.modPort p (fun x => { x with
      replyBase := BitVec.ofNat 64 (w % 2 ^ 32 * 2 ^ 32 + x.replyBase.toNat % 2 ^ 32) }))) ∧
    (off = 0x40018 → exec (.registerWrite p off 4 v) s = .next (s.modPort p (fun x => { x with replySize := BitVec.ofNat 5 w }))) ∧
    (off = 0x40028 → exec (.registerWrite p off 4 v) s = .next (s.modPort p (fun x => { x with evGroups := BitVec.ofNat 8 w }))) ∧
    (off ∈ [0x40000, 0x40004, 0x40020, 0x4002C, 0x40030] → exec (.registerWrite p off 4 v) s = .next s)) ∧
  (∀ s p off (v : W64), (s.port p).reached = true → off % 8 = 0 → off < 0x100000 → exec (.registerWrite p off 8 v) s =
    .next (writeReg (writeReg s p off (v.toNat % 2 ^ 32)) p (off + 4) (v.toNat / 2 ^ 32))) ∧
  (∀ s p, exec (.portReset p) s =
    (let t := stopDma p (s.disableRing p).lodge.ops (s.disableRing p)
     .next (t.modPort p (fun x => { Port.reset x.primary with
       perst := x.perst, aer := x.aer, linkUp := x.linkUp, speed := x.speed, width := x.width, graceRunning := x.graceRunning, graceElapsed := x.graceElapsed,
       hostMem := x.hostMem, msiSent := x.msiSent, upEvent := x.upEvent, bar2Out := x.bar2Out })))) ∧
  (∀ s p t, (s.port p).linkUp = true →
    t = (s.resetPort p).modPort p (fun x => { x with
      linkUp := false, speed := 0, width := 0, graceRunning := true, graceElapsed := false, upEvent := false }) →
    exec (.portLinkDown p) s = .next (t.hostLink (otherPort p) p 0 0)) ∧
  (∀ s p, exec (.perstAssert p true) s = .next (((s.resetPort p).linkLoss p).modPort p (fun x => { x with perst := true })) ∧
    exec (.perstAssert p false) s = .next (s.modPort p (fun x => { x with perst := false }))) ∧
  (∀ s p (sp w : BitVec 4), s.pow.pwrGood = true → (s.port p).perst = false → (s.port p).linkUp = false → sp.toNat ∈ [4, 5, 6] → w.toNat ∈ [1, 2, 4, 8] → ∀ t,
    t = (s.modPort p (fun x => { x with
      linkUp := true, speed := sp, width := w, graceRunning := false, graceElapsed := false, upEvent := true })).hostLink
        (otherPort p) p 1 0 →
    exec (.portLinkUp p sp w) s = .next (if (t.port p).enable then
      (t.modPort p (fun x => { x with upEvent := false })).hostLink p p 1 0 else t)) ∧
  (∀ s p, (s.port p).linkUp = false → (s.port p).graceRunning = true →
    exec (.graceExpiry p) s = .next ((s.modPort p (fun x => { x with graceRunning := false, graceElapsed := true })).hostLink
      (otherPort p) p 2 0)) ∧
  (∀ s addr fpl (b : List Byte) k, s.boot.released = true → 16 ≤ b.length → b.length = 8 * (rawHdr b).words →
    k = checkPacket s (.peer addr fpl) b →
    ∀ c, k.1 = .good c → exec (.peerCommand addr fpl b) s =
      .next (if fplNear (fplInUse k.2) fpl then receiveCmd k.2 c else fplReply k.2 c)) ∧
  (∀ s (b : List Byte) k c, s.pow.standby = true → s.pow.resetLow = false → s.sidebandBusy = false → 16 ≤ b.length → b.length ≤ 4096 →
    b.length = 8 * (rawHdr b).words → k = checkPacket { s with sidebandBusy := true, sideband := none } .sideband b → k.1 = .good c →
    exec (.sidebandPacket b) s = .next (submit c (commandNow c) k.2))

/-! ### Lodges -/

/-- R42 to R46, R49, R88, R116: the lodges step by step. A waiting command is admitted, and the sleeping dies it must cross are called; a sheaf that it
reaches acts; its die's lodge, and
then the module's, combines the reply, unless a die on the way is held; when none is left the command's own reply is formed; a member silent beyond its limit (a sheaf's
lodge, an L2 lodge below it, a die's lodge) is FAULTED and counted; the event window closes with one event; the census of each level
follows the one below it. -/
def Obligations.LodgeEventsComplete : Prop :=
  (∀ s id w d h i, s.lodge.waiting.find? (fun w => decide (w.id = id) && w.fencedBy.isEmpty && decide (w.verdict = .admitted)) = some w →
    mustWait s (s.lodge.waiting.takeWhile (fun v => decide (v.id ≠ id))) w.cmd = false → ∀ t,
    t = { s with lodge := { s.lodge with waiting := s.lodge.waiting.filter (fun v => decide (v.id ≠ id)) } } →
    (unitDefOf w.cmd = some d → cmdOf w.cmd = some (h, i) → h.src ≠ .sideband → admitUnit t w.cmd h i d = none →
      d.resource t (selOf h.path h.mask) = none →
      ∀ u, u = t.callDies ((Op.begin id w.cmd h d.level3).todo.flatMap (fun g => feedRoute lodgeFeed (g / 16))) →
      exec (.lodgeAdmit id) s = .next { u with lodge := { u.lodge with ops := u.lodge.ops ++ [Op.begin id w.cmd h d.level3] } }) ∧
    (unitDefOf w.cmd = none → exec (.lodgeAdmit id) s = .next (moduleNow w.cmd id t))) ∧
  (∀ s op (g : SheafIx) errs o d h i, s.lodge.ops.find? (fun o => decide (o.id = op) && decide (o.wait = .members)) = some o →
    arrivalDef o.cmd errs = some d → cmdOf o.cmd = some (h, i) → g.val ∈ o.todo → arrivalHeld s o.cmd g = false → lodgeHolds s g = false →
    ∀ a, a = arriveAt (wakeRoute s (g / 16)) o.cmd h d o.deaf g →
    exec (.commandArrival op g errs) s = .next (a.1.putOp { o with
      todo := o.todo.filter (fun x => decide (x ≠ g.val)), acting := o.acting ++ [a.2] }).flushWatches) ∧
  (∀ s op (m : BitVec 24) o d h i, s.lodge.ops.find? (fun o => decide (o.id = op) && decide (o.wait = .members)) = some o →
    unitDefOf o.cmd = some d → cmdOf o.cmd = some (h, i) → lodgeHolds s (memberSheaf m) = false →
    (pathDepth m = 2 → (∃ x ∈ o.acting, x.sheaf = memberSheaf m ∧ x.replied = false) →
      exec (.memberReply op m) s = .next ((s.censusSel 4 (memberSheaf m) (selOf h.path h.mask).locals).putOp
        { o with acting := o.acting.map (fun x => if x.sheaf = memberSheaf m then { x with replied := true } else x) })) ∧
    (pathDepth m = 1 → o.ofDie (pathDigit m 1) ≠ [] → (∀ g ∈ o.ofDie (pathDigit m 1), ∃ x ∈ o.acting, x.sheaf = g ∧ x.replied = true) →
      ∀ mine p, mine = o.acting.filter (fun x => decide (x.sheaf / 16 = pathDigit m 1)) →
      p = mine.foldl (fun a x => a.absorb d.level3 x)
        { o with acting := o.acting.filter (fun x => decide (x.sheaf / 16 ≠ pathDigit m 1)) } →
      exec (.memberReply op m) s =
        .next (settleMembers (mine.foldl (fun s x => s.censusSel 5 x.sheaf (selOf h.path h.mask).locals) s) d p))) ∧
  (∀ s op (m : BitVec 24) o d h i, s.lodge.ops.find? (fun o => decide (o.id = op) && decide (o.wait = .members)) = some o →
    unitDefOf o.cmd = some d → cmdOf o.cmd = some (h, i) → pathInvalid m = false →
    (pathDepth m = 2 → memberSheaf m ∈ o.todo → (s.sheaf (memberSheaf m)).power = .awake → ∀ live n u r,
      live = (if d.level3 then List.range 4096 else (selOf h.path h.mask).locals).filter (fun l => !(s.sheaf (memberSheaf m)).retired l) →
      n = (if d.level3 then (if (s.sheaf (memberSheaf m)).withheld then [] else [0]) else live) →
      u = ((live.foldl (fun t l => if (t.reed (4096 * memberSheaf m + l)).st = .faulted then t
          else enterFaulted t (4096 * memberSheaf m + l) 4) s).modSheaf (memberSheaf m) (fun x =>
        if x.power = .awake then { x with silent := true } else x)).censusSel 5 (memberSheaf m) live →
      r = (fun (a : Op) => Op.absorb { a with
          todo := a.todo.filter (fun x => decide (x ≠ memberSheaf m)),
          acting := a.acting.filter (fun x => decide (x.sheaf ≠ memberSheaf m)) } d.level3
            ⟨memberSheaf m, [], [], [], n, goneUnits (s.sheaf (memberSheaf m)) h d.level3, .ok, [], 0, true⟩) →
      exec (.memberSilent op m) s = .next (settleMembers (noteSilent u o (pathDigit m 1 + 1)
        (BitVec.ofNat 24 ((lowest (n.map (unitPath d.level3 (memberSheaf m)))).getD 0)) ((r o).silent - o.silent)) d (r o))) ∧
    (pathDepth m = 3 → d.level3 = false → memberSheaf m ∈ o.todo → (s.sheaf (memberSheaf m)).power = .awake →
      o.deaf.contains (16 * memberSheaf m + pathDigit m 3) = false →
      exec (.memberSilent op m) s = .next (silenceL2 s o h m).flushWatches) ∧
    (pathDepth m = 1 → o.ofDie (pathDigit m 1) ≠ [] → ∀ r, r = (o.ofDie (pathDigit m 1)).foldl (silenceSheaf h d) (s, o) →
      exec (.memberSilent op m) s = .next (settleMembers (noteSilent r.1 o 0
        (BitVec.ofNat 24 ((lowest ((o.ofDie (pathDigit m 1)).flatMap (fun g =>
          (silentCount s h d.level3 g).map (unitPath d.level3 g)))).getD 0)) (r.2.silent - o.silent)) d r.2))) ∧
  (∀ s k w, KMap.look s.lodge.silentWin k = some w → exec (.memberSilentCoalesce k) s =
    .next (({ s with lodge := { s.lodge with silentWin := KMap.del s.lodge.silentWin k } } : State).event
      { opcode := 0x0B05, group := 2, status := .badState, path := w.path, allot := s.allotOf (w.path.toNat % 2 ^ 20 / 4096),
        slot := 0xF, ustate := .faulted,
        detail := leBytes 4 w.count ++ leBytes 2 w.opcode.toNat ++ leBytes 2 0 ++ leBytes 4 w.tag.toNat })) ∧
  (∀ s (g : SheafIx) k reed, 1 ≤ k → k ≤ 5 → exec (.censusUpdate g k reed) s = .next (s.modSheaf g (fun x =>
    let src := if k = 5 then x.heardAt 4 else { x.heardAt (k - 1) with dom := x.domState }
    let ls := match reed with | some l => [l] | none => src.reeds.map (·.1) ++ (x.heardAt k).reeds.map (·.1)
    { x with census := x.census.setIfInBounds (k - 1) ((x.heardAt k).hear src ls) })))

/-- R89, R98, R108, R225, R368, R391: a command whose action takes time ends, and replies as it ends: a unit command with its summary record; HOST_DMA
once its bytes have moved, poisoned bytes reaching the host as 0x00; MEM_FILL once its pattern is in place; neither while a page or die of its range is
held; MEM_REVOKE, which then withdraws the grant, once nothing reaches it any more; EAVE_COMMISSION with its result; the others with the
reply that was prepared. -/
def Obligations.CommandActionsEnd : Prop :=
  ∀ s id o, s.lodge.ops.find? (fun o => decide (o.id = id) && decide (o.wait = .action)) = some o →
    (∀ d data, unitDefOf o.cmd = some d →
      exec (.commandActionComplete id data) s = .next (finishUnit (domainsOff (s.dropOp o.id) o.cmd) d o).flushWatches) ∧
    (∀ h dir host dev n (l : List Byte) errs, o.cmd = .hostDma h dir host dev n → dir = 0 → portOf h ≠ none → l.length = n.toNat →
      memHeld s (sectorsOf dev.toNat n.toNat) = false → ∀ t, t = wholeChecks s dev.toNat l.length errs →
      exec (.commandActionComplete id (.bytes l errs)) s = .next (finishModule ((wholeLands t dev.toNat l).dropOp o.id) o.id o.cmd
        (if landed t dev.toNat l.length < l.length then .okDegraded else .ok) (leBytes 8 (landed t dev.toNat l.length)))) ∧
    (∀ h dir host dev n p errs, o.cmd = .hostDma h dir host dev n → dir ≠ 0 → portOf h = some p →
      memHeld s (sectorsOf dev.toNat n.toNat) = false → ∀ t,
      t = touchSectors s 4 0 (sectorsOf dev.toNat n.toNat) errs →
      exec (.commandActionComplete id (.found errs)) s =
        .next (finishModule ((t.modPort p (fun x => { x with
            hostMem := KMap.write x.hostMem host.toNat (t.memDeliver dev.toNat n.toNat).1 })).dropOp o.id) o.id o.cmd
          (if (t.memDeliver dev.toNat n.toNat).2 then .okDegraded else .ok) (leBytes 8 n.toNat))) ∧
    (∀ h e out, o.cmd = .eaveCommission h e →
      exec (.commandActionComplete id (.commission out)) s = .next (finishModule ((commissioned (finishDown s e.toNat) e.toNat 2 out).dropOp o.id) o.id o.cmd
        (if commResult (outcomeOf s e.toNat out) = 2 then .linkDown else .ok) (leBytes 1 (commResult (outcomeOf s e.toNat out))))) ∧
    (∀ h dev n pattern errs, o.cmd = .memFill h dev n pattern → memHeld s (sectorsOf dev.toNat n.toNat) = false →
      ∀ t, t = wholeChecks s dev.toNat n.toNat errs →
      exec (.commandActionComplete id (.found errs)) s = .next (finishModule
        ((wholeLands t dev.toNat (List.replicate (n.toNat / 8) (leBytes 8 pattern.toNat)).flatten).dropOp o.id) o.id o.cmd
        (if landed t dev.toNat n.toNat < n.toNat then .okDegraded else .ok) (leBytes 8 (landed t dev.toNat n.toNat)))) ∧
    (∀ h k, o.cmd = .keyRotate h k → exec (.commandActionComplete id .plain) s = .next (fuseDone s o)) ∧
    (∀ h a, o.cmd = .rowRetire h a → memPage a.toNat ∉ (s.chan (memChan a.toNat)).retiring →
      exec (.commandActionComplete id .plain) s = .next (sendPrepared s o)) ∧
    (∀ h al base, o.cmd = .memRevoke h al base → ∀ a g, s.allot? al.toNat = some a →
      a.revoking.find? (fun g => decide (g.1 = base.toNat)) = some g → rangeInUse s al.toNat g = false →
      retiringIn s g.1 g.2 = false →
      exec (.commandActionComplete id .plain) s = .next (sendPrepared { s with allots := KMap.ins s.allots al.toNat { a with
        grants := a.grants.filter (fun g => decide (g.1 ≠ base.toNat)), revoking := a.revoking.filter (fun g => decide (g.1 ≠ base.toNat)) } } o))

/-! ### Fabric -/

/-- R101, R102, R329, R330, R334, R336, R346: the allotment commands and the queries of the fabric class. ALLOT_CREATE makes an allotment of free sheaves over
READY, reached members close in FPL, and takes the lowest FPL; ALLOT_RESIZE adds or removes members and sheaves; ALLOT_DISSOLVE ends its
collectives, maps, grants and handles, its reply waiting for a laser swap that holds a map back; FABRIC_TABLE lists the table from an index on; ROUTE_QUERY returns a route, or `NO_ROUTE`. -/
def Obligations.AllotmentCommandsComplete : Prop :=
  (∀ s h al w l, moduleReady s (.allotCreate h al w l) = true → allotForm al l = true → s.fabric.address ∈ l →
    s.allot? al.toNat = none → (∀ g ∈ setBits w, s.allotOf g = 0) → drawnByOther s al.toNat = false → sheavesBusy s w = false →
    memberCheck s l = none → ∀ x : Allot,
    x = { owner := ownerOf h, members := l, sheaves := w, fpl := BitVec.ofNat 8 (lowestFpl s l), det := false, grants := [],
          revoking := [], tensors := [], shape := none, routes := allotRoutes s l } →
    exec (.allotCreate h al w l) s = .next (moduleOutcome s (closeBuffers { s.taken with allots := KMap.ins s.allots al.toNat x })
      (.allotCreate h al w l) .ok (leBytes 2 al.toNat ++ [x.fpl]))) ∧
  (∀ s h al x, moduleReady s (.allotDissolve h al) = true → s.allot? al.toNat = some x → foreignAllot s h al.toNat = false →
    sheavesBusy s x.sheaves = false → ∀ t,
    t = undraw (dissolveColls s.taken al) al →
    exec (.allotDissolve h al) s = .next (dissolved (closeBuffers { t with allots := KMap.del t.allots al.toNat })
      s.lodge.nextId (.allotDissolve h al) (s.topAmong (setBits x.sheaves)) [])) ∧
  (∀ s h al w l x, moduleReady s (.allotResize h al 0 w l) = true → allotForm al l = true → s.allot? al.toNat = some x →
    foreignAllot s h al.toNat = false → (∀ m ∈ l, m ∉ x.members) → (∀ g ∈ setBits w, s.allotOf g = 0) →
    drawnByOther s al.toNat = false → sheavesBusy s w = false → ∀ members y,
    members = l.foldl (fun l m => insAddr m l) x.members → memberCheck s members = none →
    y = { x with members := members, sheaves := x.sheaves ||| w, fpl := resizeFpl s al x members,
                 routes := allotRoutes s members } →
    exec (.allotResize h al 0 w l) s = .next (moduleOutcome s (closeBuffers { s.taken with allots := KMap.ins s.allots al.toNat y })
      (.allotResize h al 0 w l) .ok (leBytes 2 0 ++ [y.fpl]))) ∧
  (∀ s h al w l x, moduleReady s (.allotResize h al 1 w l) = true → allotForm al l = true → s.allot? al.toNat = some x →
    foreignAllot s h al.toNat = false → (∀ m ∈ l, m ∈ x.members) → w &&& ~~~x.sheaves = 0 → s.fabric.address ∉ l →
    sheavesBusy s w = false → ∀ members y,
    members = x.members.filter (fun m => !l.contains m) → memberCheck s members = none →
    y = { x with members := members, sheaves := x.sheaves &&& ~~~w, fpl := resizeFpl s al x members,
                 routes := allotRoutes s members } →
    exec (.allotResize h al 1 w l) s =
      .next (moduleOutcome s (closeBuffers (dropHandles { s.taken with allots := KMap.ins s.allots al.toNat y } al w))
        (.allotResize h al 1 w l) .ok (leBytes 2 0 ++ [y.fpl]))) ∧
  (∀ s h first l, moduleReady s (.fabricTable h first) = true →
    l = (tableAddrs s).flatMap (fun a => tableEntry s a :: s.fabric.conflicts.filter (fun e => decide (e.addr = a))) →
    exec (.fabricTable h first) s = .next (moduleOutcome s s.taken (.fabricTable h first) .ok
      (leBytes 4 l.length ++ leBytes 4 ((l.drop first.toNat).take 3840).length ++
        ((l.drop first.toNat).take 3840).flatMap entryBytes))) ∧
  (∀ s h a, moduleReady s (.routeQuery h a) = true → addrReserved a = false → exec (.routeQuery h a) s =
    .next (if (queriedRoute s h a).main.isSome then moduleOutcome s s.taken (.routeQuery h a) .ok (routeRecord a (queriedRoute s h a))
      else moduleOutcome s s.taken (.routeQuery h a) .noRoute []))

/-- R102, R322, R323, R338 to R341: TOPO_DRAW puts the drawn map in force on every eave that is up of the courses on which the allotment has lanes here, telling
peers outside the allotment first, and replies when that is done (the MAP_ID that its maps share is a free value: log entry 45, DESIGN CHOICE); COLOUR_MAP_SET gives one eave whose lanes are up the map, at once or,
while a fade-driven swap moves an arm there, when that has ended. -/
def Obligations.MapCommandsComplete : Prop :=
  (∀ s h shape ndim ext x, moduleReady s (.topoDraw h shape ndim ext) = true → shape.toNat ≤ 3 → ndim ≠ 0 → ndim.toNat ≤ 4 →
    (∀ v ∈ ext.drop ndim.toNat, v = 0) → s.boot.gradeB = false → s.allot? h.allot.toNat = some x →
    shapeFits shape.toNat ndim.toNat ((ext.map BitVec.toNat).take ndim.toNat) x.members.length = true → s.allots.length ≤ 1 →
    allReached x.routes = true → ∀ (d : Nat → Draw) jobs maps f t,
    (∀ k, d k = ⟨k, x.members, shape.toNat, (ext.map BitVec.toNat).take ndim.toNat⟩) →
    jobs = [5, 6, 7].flatMap (fun k => (drawEaves s.taken (d k)).map (fun e => (k, e))) → f = s.taken.fresh →
    maps = jobs.map (fun j => (j.2, drawnMap s.taken (d j.1) j.2 (f.1.setWidth 32))) →
    t = { f.2 with allots := KMap.ins f.2.allots h.allot.toNat { x with
      shape := some (shape.toNat, (ext.map BitVec.toNat).take ndim.toNat) } } →
    exec (.topoDraw h shape ndim ext) s = .next (moduleHeld s (maps.foldl (fun s m => drawEave s m.1 m.2 h.allot x.members) t)
      (.topoDraw h shape ndim ext) .ok (leBytes 4 jobs.length))) ∧
  (∀ s h (e : Byte) m, moduleReady s (.colourMapSet h e m) = true → e.toNat ≤ 7 → s.boot.gradeB = false →
    mapGood e.toNat (s.eave e.toNat) m = true → (s.eave e.toNat).dataUp = true →
    ((∀ a ∈ (s.eave e.toNat).arms, a.moving = false) → exec (.colourMapSet h e m) s =
      .next (moduleOutcome s (applyMap s.taken e.toNat (some m) 0) (.colourMapSet h e m) .ok [])) ∧
    ((∃ a ∈ (s.eave e.toNat).arms, a.moving = true) → exec (.colourMapSet h e m) s =
      .next (holdFor (.mapApplied e.toNat) (s.taken.modEave e.toNat (fun x => { x with pendingMap := some (some m), mapAllot := 0 }))
        s.lodge.nextId (.colourMapSet h e m) .ok [])))

/-- R315 to R317, R320, R324 to R327, R332, R335, R351: what happens on channels. A frame with a good CRC in its turn is acknowledged and taken in order; one
with a bad CRC, or out of turn, is answered with a NACK; a timeout sends what is unacknowledged again; a channel declared down is reported
and its frames go another way; news of a channel is relayed once, to every course or on along the one it came by (log entry 72, DESIGN CHOICE); a
copper lane is swapped for the spare, with a record whose body is log entry 16's (DEDUCED); a course trains or is held down as miswired; a lane whose
token finds its ring is up. -/
def Obligations.ChannelEventsComplete : Prop :=
  (∀ s ch rev (f : LinkFrame), s.rxUp ch = true →
    (f.crcOk = false → exec (.linkFrameReceive ch rev f) s = .next (finishDrains (answerLink s ch true false 0 0))) ∧
    (f.crcOk = true → f.payload.length ≤ 4200 → ∀ t, t = (if speaksOf s ch rev then hearBack s rev f else s) →
      (f.creditOnly = true → exec (.linkFrameReceive ch rev f) s = .next (finishDrains t)) ∧
      (f.creditOnly = false → f.lseq = (t.rx ch).next → exec (.linkFrameReceive ch rev f) s =
        .next (finishDrains (acceptFrame (answerLink (t.modRx ch (fun c => { c with next := c.next + 1 })) ch false false 0 0) ch f))) ∧
      (f.creditOnly = false → f.lseq ≠ (t.rx ch).next → exec (.linkFrameReceive ch rev f) s =
        .next (finishDrains (answerLink t ch (decide ((f.lseq - (t.rx ch).next).toNat < 0x8000)) false 0 0))))) ∧
  (∀ s ch rev, s.txUp ch = true → rev = reverseOf s ch → exec (.retransmitTimeout ch) s =
    (let t := (s.tx ch).unacked.foldl (fun s f => s.record (.link ch rev { f with lack := (s.rx rev).next - 1 })) s
     .next (if ch < 5 then t else t.modEave (laneAt ch).1 (fun x => { x with
       resent := (x.resent + (s.tx ch).unacked.length) % 2 ^ 32 })))) ∧
  (∀ s ch, s.txUp ch = true → KMap.look s.fabric.orphans ch = none →
    exec (.channelDown ch) s = .next (finishDrains (dataChanged s (laneAt ch).1 (channelLost (downEvent s ch) ch)))) ∧
  (∀ s src msg seg via (n : News), s.boot.released = true → (src, 4, msg, seg) ∉ s.fabric.seen → ∀ t u v,
    t = hopChanged { s with fabric := { s.fabric with seen := s.fabric.seen ++ [(src, 4, msg, seg)] } } n →
    u = (if !n.hop && decide (n.endB = t.fabric.address) then forgetRx t n.course n.endA else t) → ∀ x,
    x = (if !n.up && decide (n.endB = u.fabric.address) && decide (261 ≤ n.chan) then u.modRx n.chan (fun _ => RxChan.reset) else u) →
    v = relayNews x (if toldOf x n then List.range 8 else [via]) src msg seg n →
    exec (.fabricControlFrame src msg seg via n) s = .next (if n.hop then v else rerouteColls v n.course n.endA n.endB s.allots)) ∧
  (∀ s, exec .routeRecompute s = .next (flushWaiting (flushQueues { s with
    allots := s.allots.map (fun e => (e.1, { e.2 with routes := allotRoutes s e.2.members })) }))) ∧
  (∀ s (c : CopperIx) lane, (s.copper c).trained = true → (s.copper c).serving.getLsbD lane = true → ∀ bad rest,
    bad = (s.copper c).bad ||| laneSet [lane] → rest = (s.copper c).serving &&& ~~~laneSet [lane] →
    (∀ spare, (List.range 9).find? (fun i => !rest.getLsbD i && !bad.getLsbD i) = some spare →
      exec (.copperLaneSwap c lane) s = .next (resendAll (remapRecord (s.modCopper c (fun x => { x with
        serving := rest ||| laneSet [spare], bad := bad })) 0x0006 [BitVec.ofNat 8 c.val, BitVec.ofNat 8 lane, BitVec.ofNat 8 spare]) c.val)) ∧
    ((List.range 9).find? (fun i => !rest.getLsbD i && !bad.getLsbD i) = none →
      exec (.copperLaneSwap c lane) s = .next (if (setBits rest).length < 4
        then declareDown (s.modCopper c (fun x => { x with serving := rest, bad := bad })) c.val
        else linkEvent (s.modCopper c (fun x => { x with serving := rest, bad := bad })) 0 c.val 0 2))) ∧
  (∀ s (c : CopperIx) (peer : TableEntry), s.boot.released = true → s.courseDom c.val = .powering ∨ s.courseDom c.val = .awake →
    (s.tx c.val).up = false →
    (peer.addr ≠ copperAddr s.fabric.address c.val ∨ peer.addr = s.fabric.address →
      exec (.courseTrained c peer) s = .next (miswireRecord (linkEvent (s.modCopper c (fun x => { x with
        trained := false, miswired := true, peer := some peer })) 0 c.val 0 0) c.val peer.addr)) ∧
    (peer.addr = copperAddr s.fabric.address c.val → peer.addr ≠ s.fabric.address → ∀ good : List Nat,
      good = ((List.range 9).filter (fun i => !(s.copper c).bad.getLsbD i)).take 8 → 4 ≤ good.length → ∀ t u v w,
      t = s.modCopper c (fun x => { x with trained := true, miswired := false, peer := some peer, serving := laneSet good }) →
      u = ((({ t with pow := { t.pow with copper := t.pow.copper.setIfInBounds c.val .awake } } : State).modTx c.val (fun _ =>
        { TxChan.reset with up := true })).modRx c.val (fun _ => { RxChan.reset with up := true })) →
      v = sendToken (learn u peer 1) 0 [c.val] [ownEntry u] →
      w = (if good.length < 8 then linkEvent v 0 c.val 0 2 else v) →
      exec (.courseTrained c peer) s = .next (if w.fabric.phase ≤ 2 then { w with fabric := { w.fabric with phase := 2 } }
        else republish s (hopCameUp w c.val peer.addr)))) ∧
  (∀ s (e : EaveIx) (k : LaneIx) peer, (s.eave e).dataUp = true → peer ≠ s.fabric.address →
    ((s.eave e).laneUp.getLsbD k = true → (s.tx (laneChan e k)).up = false → peer = txPeer s e (slotOf true e k (s.eave e).map) → ∀ t u,
      t = (s.modEave e (fun x => { x with matched := setLane x.matched k true })).modTx (laneChan e k) (fun _ =>
        { TxChan.reset with up := true }) →
      u = { t with fabric := { t.fabric with
        peers := KMap.ins t.fabric.peers (laneChan e k) peer,
        orphans := t.fabric.orphans.filter (fun o => !(decide (o.2 = peer) && decide (chanCourse o.1 = courseOf e))) } } →
      exec (.laneToken e k peer true false) s = .next (if hopUp s (courseOf e) s.fabric.address peer then serveBundle u (courseOf e) peer
        else if u.fabric.phase < 7 then flushWaiting (serveBundle u (courseOf e) peer) else hopCameUp u (laneChan e k) peer)) ∧
    (slotOf false e k (s.eave e).map ≠ 255 → peer = nearEnd s (laneChan e k) → ∀ b,
      exec (.laneToken e k peer b true) s = .next (s.modRx (laneChan e k) (fun _ => { RxChan.reset with up := true }))))

/-- R342 to R346: the discovery of the fabric. Rounds of flooding find the lowest FABRIC_ID; the sweep gives each eave that is up its radix and its
offsets' addresses; a token teaches a module's entry, or shows a miswired eave, and is forwarded once; tables are learned and passed on once, and what
they teach goes out with this module's own (log entry 85); once every expected
module is READY, or 60 s have passed, the fabric-ready step is reached and its BOOT event written. -/
def Obligations.DiscoveryEventsComplete : Prop :=
  (∀ s (lead : W64), s.boot.released = true → s.fabric.phase ≤ 3 ∨ lead.toNat < s.fabric.lead.toNat → ∀ n low next t,
    n = (if s.fabric.phase = 3 then s.fabric.leadRounds + 1 else 1) →
    low = (if lead.toNat < s.fabric.lead.toNat then lead else s.fabric.lead) →
    next = (if (s.fabric.lead.toNat ≤ lead.toNat ∧ 3 ≤ n) ∨ 31 ≤ n then afterLead s else 3) →
    t = sendToken { s with fabric := { s.fabric with lead := low, leadRounds := n, phase := next } }
      1 [0, 1, 2, 3, 4] [{ ownEntry s with fabricId := low }] →
    exec (.rackLeadRound lead) s = .next (if next = 6 then openTables t else if next = 7 then tellReady t else t)) ∧
  (∀ s answers, s.fabric.phase = 4 → ∀ t,
    t = (List.range 8).foldl (fun s e => if (s.eave e).isUp then s.modEave e (fun x => { x with
      radix := radixOf (courseOf e),
      offsets := ((answers.filter (fun a => decide (a.1 / 64 = e))).map (fun a => (a.1 % 64, a.2))).foldl
        (fun m a => KMap.ins m a.1 a.2) [] }) else s) s →
    exec (.discoverySweepDone answers) s =
      .next (groupsDone (sendToken { t with fabric := { t.fabric with phase := 5, answered := [] } } 2 [5, 6, 7] [ownEntry t]))) ∧
  (∀ s (e : EaveIx) off (peer : TableEntry) msg, s.boot.released = true → s.boot.gradeB = false → (peer.addr, 4, msg, 0) ∉ s.fabric.seen →
    (wiredRight s e off peer.addr = false → exec (.groupToken e off peer msg) s = .next (miswireEave s e peer.addr)) ∧
    (wiredRight s e off peer.addr = true → ∀ t u,
      t = learn (s.modEave e (fun x => { x with
        caRx := x.caRx || decide (off = 1), cbRx := x.cbRx || decide (off = radixOf (courseOf e) - 8) })) peer
          (if peer.state = 2 then 2 else 1) →
      u = republish s (relayToken t 2 [courseOf e] peer.addr msg [peer]) →
      exec (.groupToken e off peer msg) s = .next (if u.fabric.answered.contains peer.addr then u
        else groupsDone { u with fabric := { u.fabric with answered := u.fabric.answered ++ [peer.addr] } }))) ∧
  (∀ s es row via src msg, s.boot.released = true → (src, 4, msg, 0) ∉ s.fabric.seen → ∀ t u,
    t = es.foldl (fun s (e : TableEntry) => if e.state = 0 then s else learn s e e.state) s →
    u = republish s (relayToken t (if row then 4 else 3) (if via ≤ 5 then [0, 1, 2, 3, 4, 5] else [via]) src msg es) →
    exec (.tableExchange es row via src msg) s = .next (if u.fabric.phase = 6 ∧ allFound u = true then tellReady u else u)) ∧
  (∀ s, s.boot.released = true → s.fabric.ready = false → ∀ t,
    t = ({ s with fabric := { s.fabric with ready := true }, boot := { s.boot with step := 9 } } : State) →
    (allReady s = true → exec .fabricReady s = .next (t.moduleEvent 0x0B0E 7 (if eaveShort t then .okDegraded else .ok)
      (leBytes 4 (bootstepReg t) ++ leBytes 4 (diemap t)))) ∧
    (allReady s = false → exec .fabricReadyTimeout s = .next (t.moduleEvent 0x0B0E 7 .okDegraded
      (leBytes 4 (bootstepReg t) ++ leBytes 4 (diemap t)))))

/-! ### Collectives -/

/-- R103, R104, R278, R279, R293, R302 to R304, R309: what each command of the collective class does when it is carried out. COLL_DEFINE makes the
handle, round 1 open at position 1, and clears its commit block; COLL_BACKUP names or removes a rank's backup, which serves round 1 while nothing of it has happened and else from the
next round on (log entry 48, DEDUCED); COLL_TUNE sets ACCUMN
and the limits; COLL_COMMIT admits commits up to a round and waits for its decision; COLL_ABORT votes FAIL and ends the open round, or
waits for a decision already voted on; COLL_STATUS returns the record. -/
def Obligations.CollectiveCommandsComplete : Prop :=
  ∀ s h (n : W16),
  (∀ words p, unitReady s (.collDefine h n words p) = true →
    exec (.collDefine h n words p) s = .next (unitOutcome s (.collDefine h n words p) true
      (fun s g _ =>
        let l := s.modColls.filter (fun m => !(decide (m.allot = h.allot) && decide (m.handle = n)))
        let t := if s.collSheaves h.allot n = [] then { s with modColls := l ++ [newModColl { s with modColls := l } h.allot n p] } else s
        let u := (t.modModColl h.allot n (fun m => { m with sheaves := insSorted g m.sheaves })).modSheaf g (fun sh =>
          { sh with colls := sh.colls ++ [newColl h.allot n h.slot p (sh.numctl.getLsbD 10)] })
        ⟨trussStore u g p.commit.toNat (List.replicate 16 0), .ok, []⟩)
      (fun _ => []) (fun _ _ => none))) ∧
  (∀ (rank : W16) addr m k x grp others named, moduleReady s (.collBackup h n rank addr) = true → h.allot ≠ 0 →
    s.modColl h.allot n = some m → s.collAny h.allot n = some k → s.allot? h.allot.toNat = some x →
    addr = 0xFFFFFFFF ∨ (addrReserved addr = false ∧ addr ∈ x.members) →
    others = m.backups.filter (fun e => decide (e.1 ≠ rank.toNat)) →
    named = (if addr = 0xFFFFFFFF then others else KMap.ins others rank.toNat addr) →
    grp = groupOf s x.members k.plan.courses (if addr = s.fabric.address then named else m.backups) → rank.toNat < grp.length →
    addr = 0xFFFFFFFF ∨ (addr ∉ grp ∧ (∀ e ∈ others, e.2 ≠ addr) ∧
      ∀ q ∈ grp, q ≠ addr → candidates s (fun b => x.members.contains b) addr q ≠ []) → ∀ t,
    t = s.taken.modModColl h.allot n (fun m => { m with backups := named }) →
    exec (.collBackup h n rank addr) s = .next (moduleOutcome s (if firstUntouched t h.allot n then adoptBackups t h.allot n else t)
      (.collBackup h n rank addr) .ok [])) ∧
  (∀ (accumn : W16) tlate tlost, unitReady s (.collTune h n accumn tlate tlost) = true →
    exec (.collTune h n accumn tlate tlost) s = .next (unitOutcome s (.collTune h n accumn tlate tlost) true
      (fun s g _ => ⟨s.modHandle g h.allot n (fun c => { c with
        accumnNext := accumn.toNat, accumn := if c.cycleFresh then accumn.toNat else c.accumn, tlate := tlate, tlost := tlost }), .ok, []⟩)
      (fun _ => []) (fun _ _ => none))) ∧
  (∀ seq, unitReady s (.collCommit h n seq) = true → exec (.collCommit h n seq) s = .next (unitOutcome s (.collCommit h n seq) true
    (fun s g _ => commitAct h.allot n seq s g) (fun o => (o.pieces.head?.map (·.2)).getD (leBytes 4 0))
    (fun s _ => match s.collAny h.allot n with
      | some c => if seq.toNat ≤ c.committed.toNat then none else some (.decision h.allot n seq)
      | none => none))) ∧
  (unitReady s (.collAbort h n) = true → exec (.collAbort h n) s = .next (unitOutcome s (.collAbort h n) true
    (fun s g _ => abortAct h n s g) (fun o => (o.pieces.head?.map (·.2)).getD (leBytes 4 0))
    (fun s _ => match s.collAny h.allot n with
      | some c => if awaitsDecision s h.allot n then some (.decision h.allot n c.openSeq) else none
      | none => none))) ∧
  (unitReady s (.collStatus h n) = true → exec (.collStatus h n) s = .next (unitOutcome s (.collStatus h n) true
    (fun s g _ => ⟨s, .ok, match s.modColl h.allot n, s.coll g h.allot n with
      | some m, some c => collRecord s m c
      | _, _ => []⟩) joinPieces (fun _ _ => none)))

/-- R302 to R304: what a commit and an abort do on one sheaf. A commit admits every round up to SEQ and starts the failed open round
again with RUN + 1; an abort on the lowest sheaf that holds the handle votes FAIL with `CONTRIBUTION_LOST` unless the round has failed
already, clears ACC, frees every bucket and opens round COMMITTED + 1. -/
def Obligations.CommitAndAbortAct : Prop :=
  ∀ s g (a n : W16) c,
  (∀ seq t, s.coll g a n = some c →
    t = s.modHandle g a n (fun c => { c with commitSeq := if c.commitSeq.toNat < seq.toNat then seq else c.commitSeq }) → ∀ d,
    t.coll g a n = some d →
    commitAct a n seq s g = ⟨if d.isFailed && decide (d.openSeq.toNat ≤ seq.toNat) then rerunRound t a n else t, .ok,
      leBytes 4 d.committed.toNat⟩) ∧
  (∀ h : Hdr, h.allot = a → s.coll g a n = some c → (selOf h.path h.mask).sheaves.find? (fun g => (s.coll g a n).isSome) = some g →
    awaitsDecision s a n = false →
    abortAct h n s g = ⟨abortRound (if (s.collAny a n).any (·.isFailed) then s else castVote s a n false .contributionLost) a n, .ok,
      leBytes 4 c.committed.toNat⟩)

/-- R281 to R288, R292, R293, R295 to R298: the trusses. A bucket whose segments are all recorded freezes and becomes a contribution, is added
into ACC, or makes the copy that is owed; a frame that reaches a truss while it stands waits; one of another plan or index is counted; one of a round
ahead is kept until its round opens (log entry 48, DEDUCED); an input's exponent,
a bucket's exponent, an input, a result and a failure of the open round are taken, repeats counted, and a frame whose checksums
disagree is rejected; a NACK sends the frame again with ATTEMPT + 1 and fails the bucket after ATTEMPT 2; an acknowledgement releases
it; a late primary is replaced by its backup's copy; a lost one fails the bucket, and a check is given up. -/
def Obligations.TrussEventsComplete : Prop :=
  ∀ s (g : SheafIx),
  (∀ (a n : W16) b m c x, s.modColl a n = some m → s.coll g a n = some c → b < c.plan.buckets.toNat →
    x = c.source (2 * b + c.usedOf b % 2) → x.frozen = false → x.segs.length * 16 = c.srcBytes → s.recordsFor c = true →
    trussRuns s g = true →
    (c.accumn = 1 → c.base ≤ c.usedOf b → exec (.bucketReady g a n b) s = .next (pump (s.modHandle g a n (fun d =>
      { (d.setSource (2 * b + c.usedOf b % 2) { x with frozen := true }) with used := KMap.put 0 d.used b (c.usedOf b + 1) })) g a n)) ∧
    (c.accumn ≠ 1 → c.base ≤ c.usedOf b → c.usedOf b - c.base < c.accumn →
      exec (.bucketReady g a n b) s = .next (pump (accumulate s g c b (decide (c.usedOf b = c.base))) g a n)) ∧
    (c.usedOf b < c.base → c.owed.find? (fun o => decide (o.bucket = b)) = none →
      exec (.bucketReady g a n b) s = .next (s.modHandle g c.allot c.handle (fun c => c.freeSource b))) ∧
    (c.usedOf b < c.base → ∀ o, c.owed.find? (fun o => decide (o.bucket = b)) = some o →
      (o.n = 1 → exec (.bucketReady g a n b) s =
        .next (lateCopy (s.modHandle g c.allot c.handle (fun c => c.freeSource b)) g m c o (c.nextVals (s.sheaf g) b)
          (loftWords (s.sheaf g) c.plan.fmt (c.srcOff (2 * b + c.usedOf b % 2))))) ∧
      (o.n ≠ 1 → ∀ t, t = accumulate s g c b (decide (c.latePosition b o = 1)) →
        exec (.bucketReady g a n b) s = .next (if c.latePosition b o = o.n
          then lateCopy (accWords t g c b).2 g m c o (loftVals (t.sheaf g) 0 (c.accOff b) 512) (accWords t g c b).1 else t)))) ∧
  (∀ (k : CollFrame) m c, s.modColl k.handle.1 k.handle.2 = some m → s.coll g k.handle.1 k.handle.2 = some c →
    k.fpl.all (fplNear (fplInUse s)) = true →
    (trussRuns s g = false → exec (frameRow g k) s =
      .next (s.modHandle g k.handle.1 k.handle.2 (fun c => { c with waiting := c.waiting ++ [k] }))) ∧
    (trussRuns s g = true → frameFits s c k.plan k.index = false → exec (frameRow g k) s = .next (noteMismatch s g k.handle.1 k.handle.2)) ∧
    (∀ p, frameAt s g k = some (m, p, c) → c.age k.round.1 k.round.2 = .ahead → exec (frameRow g k) s =
      .next (s.modHandle g k.handle.1 k.handle.2 (fun c => { c with ahead := c.ahead ++ [k] })))) ∧
  (∀ f m p c, frameAt s g (.exponent f) = some (m, p, c) → c.age f.seq f.run = .current → p.expects m f.sender f.backup = true →
    ∀ t, t = touchBucket s p c →
    (((c.bucket p.b).input f.sender f.backup).isSome = true →
      exec (.exponentFrame g f) s = .next (noteDuplicate t p.g c.allot c.handle)) ∧
    ((c.bucket p.b).input f.sender f.backup = none → exec (.exponentFrame g f) s = .next (advanceBucket (settleLate
      (t.modBucket p.g c.allot c.handle p.b (fun x => x.putInput (CInput.ofExp f.sender f.backup f.x f.nonfinite)))
      p c f.sender f.backup) p.g c.allot c.handle p.b))) ∧
  (∀ f m p c, frameAt s g (.exponentDown f) = some (m, p, c) → c.age f.seq f.run = .current → p.source m = some f.sender →
    ((c.bucket p.b).exponent.isSome = true → exec (.bucketExponent g f) s = .next (noteDuplicate s g f.allot f.handle)) ∧
    ((c.bucket p.b).exponent = none → exec (.bucketExponent g f) s =
      .next (takeExponent s g f.allot f.handle p.b f.x f.nonfinite))) ∧
  (∀ f m p c, frameAt s g (.bucket f) = some (m, p, c) → c.age f.seq f.run = .current →
    f.kind.toNat < 2 ∨ (f.kind = 3 ∧ f.backup = true ∧ c.plan.op = 3) → p.expects m f.sender f.backup = true → ∀ t u,
    t = touchBucket s p c → u = answerFrame t m p c f true →
    (frameSound f = false → exec (.bucketFrame g f) s = .next (rejectFrame t m p c f)) ∧
    (frameSound f = true → ((c.bucket p.b).input f.sender f.backup).any (fun i => i.words.isSome) = true →
      exec (.bucketFrame g f) s = .next (noteDuplicate u p.g c.allot c.handle)) ∧
    (frameSound f = true → ((c.bucket p.b).input f.sender f.backup).any (fun i => i.words.isSome) = false → ∀ i : CInput,
      i = { rank := f.sender, backup := f.backup, x := ((c.bucket p.b).input f.sender f.backup).bind (·.x), nonfinite := f.nonfinite,
            words := some f.words, cs1 := f.cs1, cs2 := f.cs2, count := f.count, sub := f.substituted } →
      exec (.bucketFrame g f) s = .next (pump (advanceBucket (compareCopies (settleLate
        (u.modBucket p.g c.allot c.handle p.b (fun x => (x.putInput i).noteTaken f)) p c f.sender f.backup) m p c f.sender)
        p.g c.allot c.handle p.b) p.g c.allot c.handle))) ∧
  (∀ f m p c, frameAt s g (.result f) = some (m, p, c) → c.age f.seq f.run = .current → f.kind.toNat = 2 ∨ f.kind.toNat = 3 →
    p.source m = some f.sender → f.backup = false → p.node ≠ 0 ∨ p.backup = true → ∀ t u,
    t = touchBucket s p c → u = answerFrame t m p c f true →
    (frameSound f = false → exec (.resultFrame g f) s = .next (rejectFrame t m p c f)) ∧
    (frameSound f = true → (c.bucket p.b).resultDone = true →
      exec (.resultFrame g f) s = .next (noteDuplicate u p.g c.allot c.handle)) ∧
    (frameSound f = true → (c.bucket p.b).resultDone = false → (c.bucket p.b).failed = none →
      exec (.resultFrame g f) s = .next (pump (deliver (u.modBucket p.g c.allot c.handle p.b (fun x =>
        (if x.exponent.isNone && decide (f.kind = 2) then { x with exponent := some f.exp, nonfinite := f.nonfinite } else x).noteTaken f))
        p c f.kind f.exp f.nonfinite f.substituted f.count f.words) p.g c.allot c.handle))) ∧
  (∀ f m p c, frameAt s g (.fail f) = some (m, p, c) → c.age f.seq f.run = .current → (c.bucket p.b).failed = none →
    exec (.bucketFailFrame g f) s = .next (pump (s.modBucket g f.allot f.handle p.b (fun x =>
      { x with failed := some (Status.ofCode f.status.toNat) })) g f.allot f.handle)) ∧
  (∀ (f : CFrame) m p c e, bucketNow s g f.allot f.handle
      (f.bucket % max 1 ((s.coll g f.allot f.handle).elim 1 (·.plan.buckets.toNat))) = some (m, p, c) →
    (frameFits s c f.planId f.bucket = false → exec (.bucketNack g f) s = .next (noteMismatch s g f.allot f.handle) ∧
      exec (.bucketAck g f) s = .next (noteMismatch s g f.allot f.handle)) ∧
    (frameFits s c f.planId f.bucket = true → ∀ d, d = senderAddr m f.sender f.backup →
      ((c.bucket p.b).held ++ (c.bucket p.b).acked ++ c.lateHeld).find? (heldFor d f) = some e →
      (e.2.attempt < 2 → exec (.bucketNack g f) s = .next ((s.modHandle g c.allot c.handle (fun c =>
        c.resend p.b (heldFor d f) (d, { e.2 with attempt := e.2.attempt + 1 }))).send
          (.bucket d { e.2 with attempt := e.2.attempt + 1 }))) ∧
      (2 ≤ e.2.attempt → c.age f.seq f.run = .current →
        exec (.bucketNack g f) s = .next (pump (failBucket s m p c .checksumMismatch) p.g c.allot c.handle)) ∧
      exec (.bucketAck g f) s = .next (s.modHandle g c.allot c.handle (fun c => c.release p.b (heldFor d f))))) ∧
  (∀ (a n : W16) b m p c, bucketNow s g a n b = some (m, p, c) → b < c.plan.buckets.toNat →
    (∀ rank, c.isFailed = false → (c.bucket b).arrived = true → (c.bucket b).tlate ≠ 0 → rank ∈ p.direct →
      (c.bucket b).input rank false = none → rank ∉ (c.bucket b).substituted → rank ≠ p.rank ∨ c.isReady b = false →
      (((c.bucket b).input rank true).isSome = true → trussRuns s g = true →
        exec (.tlateExpiry g a n b rank) s = .next (advanceBucket (substitute s p c rank) g a n b)) ∧
      ((c.bucket b).input rank true = none ∨ trussRuns s g = false → exec (.tlateExpiry g a n b rank) s =
        .next (s.modBucket g a n b (fun x => { x with lateRanks := x.lateRanks.erase rank ++ [rank] })))) ∧
    (c.isFailed = false → (c.bucket b).contributed = true ∨ (c.bucket b).arrived = true →
      exec (.tlostExpiry g a n b) s =
        .next (pump (failBucket s m p c (if m.linkDown then .linkDown else .contributionLost)) g a n)) ∧
    ((c.bucket b).contributed = false → (c.bucket b).arrived = false → exec (.tlostExpiry g a n b) s =
      .next (s.modHandle g a n (fun c => { c with checks := c.checks.filter (fun k => decide (k.bucket ≠ b)) }))))

/-- R300 to R302, R305: votes and decisions. A module whose buckets are settled votes; the decider counts a vote; a decision of the open round and run
is applied once and acknowledged, one of an earlier round acknowledged only; the decider applies its decision at the first
acknowledgement; a module without a decision asks; one that holds it answers. A vote for a round or run not yet started is kept; a frame of another
plan is counted (on the lowest sheaf: log entry 82, DESIGN CHOICE). -/
def Obligations.DecisionEventsComplete : Prop :=
  ∀ s (a n : W16) m c, s.modColl a n = some m → s.collAny a n = some c → ∀ voters, voters = m.voters s.fabric.address →
  (mayVote s a n m = true → ∀ st, st = (bucketStatuses s a n).foldl Status.worse .ok →
    exec (.vote a n) s = .next (castVote s a n (decide (st.rank < 2)) st)) ∧
  (∀ seq run rank ok (status : W16), m.role s.fabric.address = .rank 0 → rank ≠ 0 →
    (c.age seq run = .current → exec (.voteReceived a n seq run rank ok status c.plan.planId) s =
      .next (recordVote s a n rank ok (Status.ofCode status.toNat))) ∧
    (c.age seq run = .ahead → exec (.voteReceived a n seq run rank ok status c.plan.planId) s =
      .next (s.modModColl a n (fun m => { m with early := m.early ++ [(seq, run, rank, ok, Status.ofCode status.toNat)] })))) ∧
  (∀ seq run rank ok (status : W16) addr planId, c.plan.planId ≠ planId →
    exec (.voteReceived a n seq run rank ok status planId) s = .next (planMismatch s a n) ∧
    exec (.decision a n seq run rank ok status planId) s = .next (planMismatch s a n) ∧
    exec (.decisionAcknowledged a n seq run rank planId) s = .next (planMismatch s a n) ∧
    exec (.decisionRequest a n seq run rank addr planId) s = .next (planMismatch s a n)) ∧
  (∀ seq run rank commit (status : W16), m.role s.fabric.address ≠ .rank 0 → m.role s.fabric.address ≠ .outside →
    (∃ e ∈ voters, e.1 = rank) →
    (seq = c.openSeq → run = c.run → c.isFailed = false → exec (.decision a n seq run rank commit status c.plan.planId) s =
      .next ((applyDecision s a n commit (Status.ofCode status.toNat)).send
        (.decisionAck ((m.group[0]?).getD 0) a n seq run (m.voter s.fabric.address)))) ∧
    (seq.toNat < c.openSeq.toNat ∨ (seq = c.openSeq ∧ run = c.run ∧ c.isFailed = true) ∨
        (seq = c.openSeq ∧ run.toNat < c.run.toNat) →
      exec (.decision a n seq run rank commit status c.plan.planId) s =
        .next (s.send (.decisionAck ((m.group[0]?).getD 0) a n seq run (m.voter s.fabric.address))))) ∧
  (∀ seq run rank o, m.outcomes.find? (fun o => decide (o.seq = seq) && decide (o.run = run) && !o.acks.contains rank) = some o →
    (∃ e ∈ voters, e.1 = rank) → ∀ t,
    t = s.modModColl a n (fun m => { m with
      outcomes := m.outcomes.map (fun x => if x = o then { x with acks := x.acks ++ [rank], applied := true } else x) }) →
    exec (.decisionAcknowledged a n seq run rank c.plan.planId) s =
      .next (if o.applied || !o.live then t else applyDecision t a n o.commit o.status)) ∧
  (m.voted = true → c.isFailed = false → m.hasOutcome c = false → ∀ t,
    t = ((((m.group[0]?).getD 0) :: treeNeighbours s m c).dedup.filter (fun d => decide (d ≠ s.fabric.address))).foldl
      (fun t d => t.send (.decisionAsk d a n c.openSeq c.run (m.voter s.fabric.address))) s →
    exec (.undecided a n) s = .next (if m.isUndecided then finishAborts t a n c.openSeq else
      finishAborts (finishWaiting (collEvent (t.modModColl a n (fun m => { m with isUndecided := true })) a n 5 .linkDown
          c.openSeq c.run Occ.plain)
        (fun o => isCommit o && o.awaits a n c.openSeq) .linkDown c.committed) a n c.openSeq)) ∧
  (∀ seq run rank addr d, (∃ e ∈ voters, e.1 = rank) → m.decisionOf seq run = some d →
    exec (.decisionRequest a n seq run rank addr c.plan.planId) s =
      .next (s.send (.decision addr a n seq run (m.voter s.fabric.address) d.1 d.2)))

/-! ### Numerics -/

/-- R105, R106, R195, R213, R217, R264, R266, R276: what each command of the numerics class does when it is carried out. NUM_CTL writes `NUMCTL` and returns the
value before; WV_CONFIG sets the weathervane, clears its
counter and discards its samples (where the reserve shrinks below what captures used, its bytes are free values, the model's choice, log 32); WV_STATS and CLAMP_READ return counts and clear them; RNG_KEY sets the slot's
key; DETERMINISM sets the allotment's mode and returns the one before. -/
def Obligations.NumericsCommandsComplete : Prop :=
  ∀ s h,
  (∀ v, unitReady s (.numCtl h v) = true → exec (.numCtl h v) s = .next (unitOutcome s (.numCtl h v) true
    (fun s g _ => ⟨s.modSheaf g (fun sh => { sh with numctl := v }), .ok, leBytes 4 (s.sheaf g).numctl.toNat⟩)
    (fun o => (o.pieces.head?.map (·.2)).getD (leBytes 4 0)) (fun _ _ => none))) ∧
  (∀ (l e : Byte) tol thr (r : W32), unitReady s (.wvConfig h l e tol thr r) = true →
    exec (.wvConfig h l e tol thr r) s = .next (unitOutcome s (.wvConfig h l e tol thr r) true
      (fun s g _ => ⟨configureSheaf s g l.toNat (decide (e = 1)) tol thr r.toNat, .ok, []⟩) (fun _ => []) (fun _ _ => none))) ∧
  (∀ g l on tol thr r, (s.sheaf g).wv.soiled ≤ r → configureSheaf s g l on tol thr r = s.modSheaf g (fun sh => { sh with
    wv := { sh.wv.discard with enable := on, log2 := l, tolerance := tol, threshold := thr, reserve := r, counter := 0 } })) ∧
  (∀ clear, unitReady s (.wvStats h clear) = true → exec (.wvStats h clear) s = .next (unitOutcome s (.wvStats h clear) true
    (fun s g _ => ⟨if clear = 1 then s.modSheaf g (fun sh => { sh with wv := { sh.wv with stats := WvStats.reset } }) else s, .ok,
      (s.sheaf g).wv.stats.bytes⟩) joinPieces (fun _ _ => none))) ∧
  (∀ key step, unitReady s (.rngKey h key step) = true → exec (.rngKey h key step) s = .next (unitOutcome s (.rngKey h key step) true
    (fun s g _ => ⟨s.modSheaf g (fun sh => { sh with keys := KMap.ins sh.keys h.slot.toNat (key, step) }), .ok, []⟩)
    (fun _ => []) (fun _ _ => none))) ∧
  (∀ clear, unitReady s (.clampRead h clear) = true → exec (.clampRead h clear) s = .next (unitOutcome s (.clampRead h clear) true
    (fun s g _ => ⟨if clear = 1 then s.modSheaf g (fun sh => { sh with clamp := 0 }) else s, .ok, leBytes 8 (s.sheaf g).clamp⟩)
    joinPieces (fun _ _ => none))) ∧
  (∀ (on : Byte) a, moduleReady s (.determinism h on) = true → on.toNat ≤ 1 → h.allot ≠ 0 → s.allot? h.allot.toNat = some a →
    (∀ g ∈ setBits a.sheaves, (s.sheaf g).busyCensus = false) →
    exec (.determinism h on) s = .next (moduleOutcome s { s.taken with
      allots := KMap.ins s.allots h.allot.toNat { a with det := decide (on = 1) } } (.determinism h on) .ok
      (leBytes 1 (if a.det then 1 else 0))))

/-! ### Optical eaves -/

/-- R107, R108, R358, R364, R367, R368, R369: what each command of the optics class does when it is carried out on a present eave. EAVE_STATUS returns
the record (TEMP_DRV in it is a free value, the model's choice, log 7); EAVE_COMMISSION and EAVE_SWEEP withhold credit on the data lanes of their eaves,
which go down once their frames are acknowledged (that the command waits for this at most until it ends is the model's reading, log 49);
LASER_SWAP arms the named spare for a lane that is on, or binds it for a lane that is off; MONITOR_READ integrates. -/
def Obligations.OpticsCommandsComplete : Prop :=
  ∀ s h (e : Byte), s.boot.gradeB = false → e.toNat ≤ 7 →
  (moduleReady s (.eaveStatus h e) = true → exec (.eaveStatus h e) s = .next (moduleOutcome s s.taken.fresh.2 (.eaveStatus h e) .ok
    (eaveRecord s e.toNat (s.taken.fresh.1.toNat % 65536)))) ∧
  (moduleReady s (.eaveCommission h e) = true → (s.eave e.toNat).st ≠ .off → exec (.eaveCommission h e) s =
    .next (moduleHeld s (withholdLanes s.taken e.toNat .commissioning) (.eaveCommission h e) .ok [])) ∧
  (∀ lane spare, moduleReady s (.laserSwap h e lane spare) = true → lane.toNat ≤ 31 → spare.toNat ≤ 3 → (s.eave e.toNat).isUp = true →
    (s.eave e.toNat).armOf lane.toNat = none → (s.eave e.toNat).spareFree spare.toNat = true →
    ((s.eave e.toNat).laneOn e.toNat lane.toNat = true → exec (.laserSwap h e lane spare) s =
      .next (moduleHeld s (s.taken.modEave e.toNat (fun x => { x with arms := x.arms ++ [⟨lane.toNat, spare.toNat, false, true, 2⟩] }))
        (.laserSwap h e lane spare) .ok [])) ∧
    ((s.eave e.toNat).laneOn e.toNat lane.toNat = false → ∀ old, old = (s.eave e.toNat).laser lane.toNat →
      exec (.laserSwap h e lane spare) s = .next (moduleOutcome s (bindRecord (s.taken.modEave e.toNat (fun x => { x with
        bind := listSet x.bind lane.toNat (32 + spare.toNat), offLaser := if old = 255 then x.offLaser else x.offLaser ++ [old] }))
        e.toNat lane.toNat old (32 + spare.toNat) 2) (.laserSwap h e lane spare) .ok []))) ∧
  (∀ laser us, moduleReady s (.monitorRead h e laser us) = true → laser.toNat ≤ 37 → 1 ≤ us.toNat → us.toNat ≤ 10000 →
    exec (.monitorRead h e laser us) s = .next (moduleHeld s s.taken (.monitorRead h e laser us) .ok [])) ∧
  (∀ mask es, moduleReady s (.eaveSweep h mask) = true →
    es = (List.range 8).filter (fun e => mask.getLsbD e && (decide ((s.eave e).st = .up) || decide ((s.eave e).st = .degraded))) →
    exec (.eaveSweep h mask) s = .next (moduleHeld s (es.foldl (fun t e => withholdLanes t e .sweeping) s.taken)
      (.eaveSweep h mask) .ok (leBytes 1 es.length)))

/-- R24, R352, R355, R356, R359 to R365: what happens on an eave. A lost lock quiesces its lane, of 32 data and two control lanes; a lane that
locks again resends, or sends its token; the averages of an eave's lasers decide which spares and lanes fade, fail or recover, first the lanes
that wait for a spare, in the order in which they crossed, then the lower lane first; an armed spare locks, or is bad; a swap moves the lane; a
fixed laser that fails degrades the eave; outside its temperature range every lane is quiesced, and the sensor takes part in the module trip
(R440); an eave cut off by both its links moves its control to the sideband. -/
def Obligations.EaveEventsComplete : Prop :=
  ∀ s (e : EaveIx),
  (∀ k : Fin 34, k.val < 32 → (s.eave e).laneUp.getLsbD k = true → exec (.lockLost e k) s = .next (dataChanged s e (s.modEave e (fun x => { x with
    quiesced := setLane x.quiesced k true, laneUp := setLane x.laneUp k false })))) ∧
  (∀ k : Fin 34, k.val < 32 → (s.eave e).lockable e k = true → ∀ t u,
    t = s.modEave e (fun x => { x with
      laneUp := setLane x.laneUp k true, relocks := (x.relocks + 1) % 2 ^ 32,
      quiesced := setLane x.quiesced k (x.arms.any (fun a => decide (a.lane = k.val) && a.moving)) }) →
    u = dataChanged s e t →
    exec (.relock e k) s = .next (if (u.tx (laneChan e k)).up then serveChan (resendAll u (laneChan e k)) (laneChan e k) else u) ∧
    ((s.tx (laneChan e k)).up = false → exec (.relockRetry e k true) s =
      .next (linkEvent (dataChanged s e (t.record (.laneToken e k))) 2 e k 1))) ∧
  (∀ (k : Fin 34) c t, 32 ≤ k.val → c = k.val - 32 →
    t = s.modEave e (fun x => { x with
      ctlLost := setLane x.ctlLost c false, ctlDown := setLane x.ctlDown c false, relocks := (x.relocks + 1) % 2 ^ 32 }) →
    (s.ctlUp e c = true → exec (.lockLost e k) s = .next (s.modEave e (fun x => { x with ctlLost := setLane x.ctlLost c true }))) ∧
    (s.ctlOn e c = true → (s.eave e).ctlLost.getLsbD c = true → exec (.relock e k) s = .next (resendAll t (chanOf e k))) ∧
    ((s.eave e).ctlDown.getLsbD c = true → exec (.relockRetry e k true) s = .next (linkEvent (t.record (.laneToken e k)) 2 e k 1))) ∧
  (∀ (l : List (LaserIx × W16)) t u (fresh : Nat → Bool) spent waits,
    t = l.foldl (fun s a => s.modEave e (fun x => x.average a.1 a.2.toNat (laserRef s e a.1))) s →
    (∀ i, fresh i = l.any (fun a => decide (a.1.val = i))) →
    spent = (t.eave e).arms.filter (fun a => fresh (32 + a.spare) &&
      crossed 10 (laserRef t e (32 + a.spare)) (KMap.get [] (t.eave e).averages (32 + a.spare))) →
    u = spent.foldl (fun s a => if (s.eave e).arms.contains a then spareFails s e a else s) t →
    waits = (u.eave e).fadeWait →
    exec (.fadeAverage e l) s = .next ((waits ++ (List.range 32).filter (fun k => !waits.contains k)).foldl (fun s k =>
      if (s.eave e).isUp && decide (((s.eave e).level[(s.eave e).laser k]?).getD (-128) ≠ -128) then
        if fresh ((s.eave e).laser k) then fadeLane s e k (KMap.get [] (s.eave e).averages ((s.eave e).laser k))
        else if (s.eave e).fadeWait.contains k then armLane s e k false 1 else s
      else s) u)) ∧
  (∀ (i : Fin 4) a, (s.eave e).arms.find? (fun a => decide (a.spare = i.val) && !a.locked) = some a →
    exec (.spareLocked e i) s = .next (s.modEave e (fun x =>
      if a.moving then ((x.modArm a.lane (fun b => { b with locked := true })).setLevel (32 + i.val) 0).quiesce a.lane true
      else (x.modArm a.lane (fun b => { b with locked := true })).setLevel (32 + i.val) 0)) ∧
    exec (.spareLockTimeout e i) s = .next (spareFails s e a)) ∧
  (∀ (k : LaneIx) a, (s.eave e).armOf k = some a → a.moving = true → a.locked = true →
    (s.eave e).outOfRange = false →
    (s.eave e).laser k = 255 ∨ (s.eave e).laneOn e k = false ∨ (s.eave e).laneUp.getLsbD k = true → ∀ old t u v w,
    old = (s.eave e).laser k →
    t = bindRecord (s.modEave e (fun x =>
      let y := ((x.unwait k).setLevel old (-128)).quiesce k false
      { y with bind := listSet y.bind k (32 + a.spare), laneUp := setLane y.laneUp k true,
               offLaser := if old = 255 then y.offLaser else y.offLaser ++ [old], averages := KMap.del y.averages old,
               recover := KMap.del y.recover k, arms := y.arms.filter (fun b => decide (b.lane ≠ k.val)),
               swaps := if a.reason = 3 then y.swaps else (y.swaps + 1) % 65536 })) e k old (32 + a.spare) a.reason →
    u = (if (t.tx (laneChan e k)).up then serveChan (resendAll t (laneChan e k)) (laneChan e k) else t.record (.laneToken e k)) →
    v = u.moduleEvent 0x0B08 4 .ok
      [BitVec.ofNat 8 e.val, BitVec.ofNat 8 k.val, BitVec.ofNat 8 old, BitVec.ofNat 8 (32 + a.spare), BitVec.ofNat 8 a.reason] →
    w = swapReply v e k .ok →
    exec (.swapComplete e k) s = .next (eaveChanged (applyPending w e) e)) ∧
  (∀ cb t, (if cb then (s.eave e).cb else (s.eave e).ca) = true →
    t = (s.modEave e (fun x =>
      let y := if cb then { (x.setLevel 37 (-128)) with cb := false } else { (x.setLevel 36 (-128)) with ca := false }
      { y with st := if y.st = .up then .degraded else y.st,
               prior := if y.st = .sweeping ∧ y.prior = .up then .degraded else y.prior })).judgeSideband →
    exec (.fixedLaserFail e cb) s = .next (if (t.eave e).ca || (t.eave e).cb then t else linkEvent t 1 e 0 2)) ∧
  (∀ temp t, t = s.modEave e (fun x => { x with tempPhot := temp, outOfRange := decide (temp < 560 ∨ 1360 < temp) }) →
    exec (.photonicTemperatureRange e temp) s = .next (
      State.tripCheck (if (temp < 560 ∨ 1360 < temp) ∧ s.eavePowered e = true ∧ (s.eave e).outOfRange = false then
        eaveChanged ((t.modEave e (fun x => { x with quiesced := x.quiesced ||| x.litLanes e, laneUp := 0 })).moduleEvent 0x0B0B 6
          .thermalLimit (leBytes 2 (ofInt 16 temp) ++ [3])) e
      else if temp < 560 ∨ 1360 < temp then t else eaveChanged t e) (276 + e.val) temp)) ∧
  (s.eavePowered e = true → (∀ d ∈ [2 * e.val, 2 * e.val + 1], s.pow.net.toList[d]? ≠ some .awake) →
    exec (.eaveLinksDown e) s = .next (eaveChanged ((s.modEave e (fun x => { x with linksDown := true })).judgeSideband) e))

/-! ### Power -/

/-- R109, R110, R337, R426, R432, R438, R441: what each command of the power class does when it is carried out. DOMAIN_SET turns a domain on or off where routes
remain (a course turned on is powering, and the reply waits for the end of the action: log entry 50, DEDUCED); DVFS_SET stores a setpoint and returns the clock, with the status of the ceiling that holds it below; POWER_CAP sets the cap and
returns the one before; THERMAL_READ and POWER_READ return what is measured. -/
def Obligations.PowerCommandsComplete : Prop :=
  ∀ s h,
  (∀ d on : Byte, moduleReady s (.domainSet h d on) = true → d.toNat ≤ 12 → on.toNat ≤ 1 →
    s.boot.gradeB = false ∨ (8 ≤ d.toNat ∧ d.toNat ≤ 9) →
    (domainIsOn s d.toNat = decide (on = 1) → exec (.domainSet h d on) s = .next (moduleOutcome s s.taken (.domainSet h d on) .ok [])) ∧
    (domainIsOn s d.toNat = true → on = 0 → exec (.domainSet h d on) s = .next (if allPairsRouted (domainDown s.taken d.toNat)
      then finishDrains (holdFor (.drain d.toNat) (startDrain s.taken d.toNat) s.lodge.nextId (.domainSet h d on) .ok [])
      else moduleOutcome s s.taken (.domainSet h d on) .noRoute [])) ∧
    (domainIsOn s d.toNat = false → on = 1 → d.toNat < 8 → exec (.domainSet h d on) s =
      .next (moduleHeld s (s.taken.modEave d.toNat (fun x => { x with st := .commissioning, draining := false })) (.domainSet h d on) .ok [])) ∧
    (domainIsOn s d.toNat = false → on = 1 → 8 ≤ d.toNat → exec (.domainSet h d on) s = .next (moduleHeld s { s.taken with
      pow := { s.pow with copper := s.pow.copper.setIfInBounds (d.toNat - 8) .powering } } (.domainSet h d on) .ok []))) ∧
  (∀ mhz, unitReady s (.dvfsSet h mhz) = true → exec (.dvfsSet h mhz) s = .next (unitOutcome s (.dvfsSet h mhz) true
    (fun s g _ =>
      let x := s.sheaf g
      let c := x.clock.setSetpoint mhz.toNat
      if x.power = .awake then
        let d := c.settle x.clock s.pow.ceiling
        let t := powerReport (thermalReport (s.setSheaf g { x with clock := d }) g)
        ⟨t, d.dvfsStatus t.pow.ceiling t.pow.tripped, leBytes 2 (d.effective t.pow.ceiling t.pow.tripped)⟩
      else ⟨s.setSheaf g { x with clock := c }, .ok, leBytes 2 0⟩)
    (fun o => (o.pieces.head?.map (·.2)).getD (leBytes 2 0)) (fun _ _ => none))) ∧
  (∀ w, moduleReady s (.powerCap h w) = true → 300 ≤ w.toNat → w.toNat ≤ 3600 →
    exec (.powerCap h w) s = .next (moduleOutcome s (capActs { s.taken with pow := { s.pow with cap := w.toNat } }) (.powerCap h w) .ok
      (leBytes 2 s.pow.cap))) ∧
  (unitReady s (.thermalRead h) = true → exec (.thermalRead h) s = .next (unitOutcome s (.thermalRead h) true
    (fun s g _ => ⟨s, .ok, leBytes 2 (ofInt 16 (s.sheaf g).clock.temp) ++
      leBytes 2 ((s.sheaf g).clock.effective s.pow.ceiling s.pow.tripped) ++
      leBytes 1 ((s.sheaf g).clock.reported s.pow.ceiling s.pow.tripped) ++ leBytes 3 0⟩) joinPieces (fun _ _ => none))) ∧
  (moduleReady s (.powerRead h) = true → exec (.powerRead h) s = .next (moduleOutcome s s.taken (.powerRead h) .ok
    (leBytes 2 s.pow.inputW ++ leBytes 2 s.pow.cap ++ leBytes 2 (s.sheaves.filter (fun e => decide (e.2.power = .awake))).length ++
      leBytes 2 0 ++ leBytes 8 (s.pow.energy / 100))))

/-- R31, R428, R431 to R433, R435 to R440, R463: what the power plane does by itself. An input sample moves the power ceiling and the current stretch; a
droop halves a clock until it is released; a sheaf's temperature sets its thermal action, a die's its pace; a clock change completes; a
rate-limit window ends and reports what was withheld; a network domain sleeps when nothing needs it and wakes when
something does, and an eave whose two dies' domains sleep is cut off until one wakes. A cap set while a sheaf's clock changes acts when the
change ends. -/
def Obligations.PowerEventsComplete : Prop :=
  (∀ s (inW avgW curA mv : Nat), s.boot.released = true → ∀ p q start stop r t u,
    r = capActs s → p = { r.pow with inputW := inW, averageW := avgW, vin12mV := mv, energy := r.pow.energy + inW } → q = p.govern →
    start = (!q.currentStretch && decide (310 < curA)) → stop = (q.currentStretch && decide (curA < 290)) →
    t = (if start then State.mapClocks { r with pow := { q with currentStretch := (q.currentStretch || start) && !stop } }
          (fun c => { c.engage s.pow.ceiling with currentStretch := true })
        else if stop then thermalReports (State.mapClocks { r with pow := { q with currentStretch := (q.currentStretch || start) && !stop } }
          (fun c => (SClock.release { c with currentStretch := false }).settle c s.pow.ceiling))
        else { r with pow := { q with currentStretch := (q.currentStretch || start) && !stop } }) →
    u = (if q.ceiling = s.pow.ceiling then t
        else t.mapClocks (fun c => if c.unstretched s.pow.ceiling = c.unstretched q.ceiling then c else { c with ramping := true })) →
    exec (.powerSample inW avgW curA mv) s = .next (powerReport u)) ∧
  (∀ s (g : SheafIx), (s.sheaf g).power = .awake →
    exec (.droop g) s = .next (s.modSheaf g (fun x => { x with clock := { x.clock.engage s.pow.ceiling with droopStretch := true } })) ∧
    ((s.sheaf g).clock.droopStretch = true → exec (.droopRelease g) s = .next (thermalReport (s.modSheaf g (fun x => { x with
      clock := (SClock.release { x.clock with droopStretch := false }).settle x.clock s.pow.ceiling })) g)) ∧
    (∀ temp, exec (.thermalSample g temp) s = .next ((thermalReport (s.modSheaf g (fun x => { x with
      clock := (x.clock.thermal temp s.pow.ceiling).settle x.clock s.pow.ceiling })) g).tripCheck g temp))) ∧
  (∀ s (d : Fin 20) temp b t, b = (decide (1680 ≤ temp) || (s.pow.held.getLsbD d.val && decide (1648 ≤ temp))) →
    t = ({ s with pow := { s.pow with
      paced := if 1600 ≤ temp then s.pow.paced ||| BitVec.ofNat 20 (2 ^ d.val) else s.pow.paced &&& ~~~(BitVec.ofNat 20 (2 ^ d.val)),
      held := if b then s.pow.held ||| BitVec.ofNat 20 (2 ^ d.val) else s.pow.held &&& ~~~(BitVec.ofNat 20 (2 ^ d.val)) } } : State) →
    exec (.dieThermalSample d temp) s = .next ((if b && !s.pow.held.getLsbD d.val then
      t.event { opcode := 0x0B0B, group := 6, status := .thermalLimit, path := if d.val < 4 then 0 else diePath (d.val - 4),
                allot := 0, slot := 0xF, ustate := t.moduleTop, detail := leBytes 2 (ofInt 16 temp) ++ [3] }
      else t).tripCheck (256 + d.val) temp)) ∧
  (∀ s (g : SheafIx), exec (.clockChangeDone g) s = .next (capActs (s.modSheaf g (fun x => { x with clock := { x.clock with ramping := false } })))) ∧
  (∀ s (g : SheafIx), exec (.rateLimitWindowEnd (.thermal g)) s = .next (thermalReport (s.modSheaf g (fun x => { x with
    clock := { x.clock with eventWindow := false } })) g)) ∧
  (∀ s (g : SheafIx), exec (.rateLimitWindowEnd (.weathervane g)) s = .next (s.modSheaf g (fun x => { x with
    wv := { x.wv with eventWindow := false } }))) ∧
  (∀ s, exec (.rateLimitWindowEnd .power) s = .next (powerReport { s with pow := { s.pow with eventWindow := false } })) ∧
  (∀ s, exec (.rateLimitWindowEnd .signature) s = .next { s with boot := { s.boot with sigFailWindow := false } }) ∧
  (∀ s (d : DieIx), (s.pow.net[d] = .awake → networkNeeded s d = false →
      ∀ t, t = ({ s with pow := { s.pow with net := s.pow.net.set d .sleeping } } : State) →
      exec (.networkDomainSleep d) s = .next (if (∀ e ∈ [d.val / 2 * 2, d.val / 2 * 2 + 1], t.pow.net.toList[e]? ≠ some .awake)
        then linksLost t (d.val / 2) else t)) ∧
    (s.pow.net[d] = .sleeping → s.boot.step ≠ 4 → ∀ t,
      t = ({ s with pow := { s.pow with net := s.pow.net.set d .awake, netTimer := s.pow.netTimer.set d 0 } } : State) →
      exec (.networkDomainWake d) s = .next (if (t.eave (d.val / 2)).linksDown
        then serveEave (t.modEave (d.val / 2) (fun x => { x with linksDown := false })).judgeSideband (d.val / 2) else t)))

/-! ### Security and maintenance -/

/-- R111, R112, R442 to R445, R447, R448, R450, R453, R454, R459, R462: what each command of the security class does when it is carried out. ATTEST returns
the signed report; CERT_READ the certificate; FW_STAGE writes a piece of an image; FW_ACTIVATE puts a verified slot on trial; the fuse
commands spend a row's budget and burn it; JOURNAL_READ returns records. The bytes of the FUSE_OP record are the model's reading (log 16). -/
def Obligations.SecurityCommandsComplete : Prop :=
  ∀ s h,
  (∀ n, moduleReady s (.attest h n) = true → exec (.attest h n) s = .next (moduleOutcome s s.taken (.attest h n) .ok
    (attestBody s n ++ leBytes 64 (Config.sm2Sign (attestBody s n)).toNat))) ∧
  (moduleReady s (.certRead h) = true →
    exec (.certRead h) s = .next (moduleOutcome s s.taken (.certRead h) .ok ((Config.certificate s.boot.sectionInUse).take 4096))) ∧
  (∀ (off : W32) (d : List Byte), moduleReady s (.fwStage h off d) = true → 16 ≤ d.length → d.length ≤ 32768 →
    off.toNat + d.length ≤ slotSize → off.toNat % 16 = 0 → d.length % 16 = 0 →
    slotWritten (stageSlot s.boot off.toNat) off.toNat d.length = false → ∀ x, x = stageSlot s.boot off.toNat →
    exec (.fwStage h off d) s = .next (moduleHeld s { s.taken with
      boot := s.boot.setSlot (stagingSlot s.boot) { x with bytes := programBytes x.bytes off.toNat d } } (.fwStage h off d) .ok [])) ∧
  (∀ (adv : Byte) slot m need, moduleReady s (.fwActivate h adv) = true → adv.toNat ≤ 1 → s.anyBusy = false →
    slot = stagingSlot s.boot → m = slotBytes s.boot slot →
    need = (if adv = 1 then (Config.svn slot m).toNat - rollbackCounter s else 0) →
    ∀ t, t = copySection s.taken slot → exec (.fwActivate h adv) s = .next (
      if slotVerifies t slot = false then moduleOutcome s t (.fwActivate h adv) .signatureInvalid []
      else if (Config.svn slot m).toNat < rollbackCounter s then moduleOutcome s t (.fwActivate h adv) .rollbackRefused []
      else if s.boot.rollbackLeft < need then moduleOutcome s t (.fwActivate h adv) .fuseBudgetExhausted []
      else activate t s.lodge.nextId (.fwActivate h adv) slot need)) ∧
  (moduleReady s (.repairCommit h) = true → s.boot.repairLeft ≠ 0 → s.boot.unfused.take 2048 ≠ [] → ∀ t left,
    left = s.boot.repairLeft - 1 → t = (s.taken.journalAdd 0x000B .ok (leBytes 1 5 ++ [0] ++ leBytes 1 (left + 1))).1 →
    exec (.repairCommit h) s = .next (moduleHeld s { t with boot := { t.boot with repairLeft := left } } (.repairCommit h) .ok
      (leBytes 4 (s.boot.unfused.take 2048).length))) ∧
  (∀ k, moduleReady s (.keyRotate h k) = true → ofLe k ≠ 0 → BitVec.ofNat 256 (ofLe k) ≠ s.ownerHash → s.boot.keyLeft ≠ 0 → ∀ t left,
    left = s.boot.keyLeft - 1 → t = (s.taken.journalAdd 0x000B .ok (leBytes 1 1 ++ [0] ++ leBytes 1 (left + 1))).1 →
    exec (.keyRotate h k) s = .next (moduleHeld s { t with boot := { t.boot with keyLeft := left } } (.keyRotate h k) .ok
      (leBytes 1 left))) ∧
  (∀ p : Byte, moduleReady s (.primarySet h p) = true → p.toNat ≤ 1 → s.boot.primaryLeft ≠ 0 → s.boot.primaryFused ≠ decide (p = 1) →
    ∀ t left, left = s.boot.primaryLeft - 1 → t = (s.taken.journalAdd 0x000B .ok (leBytes 1 3 ++ [0] ++ leBytes 1 (left + 1))).1 →
    exec (.primarySet h p) s = .next (moduleHeld s { t with boot := { t.boot with primaryLeft := left } } (.primarySet h p) .ok
      (leBytes 1 left))) ∧
  (moduleReady s (.debugLock h) = true → s.boot.debugLeft ≠ 0 → ∀ t,
    t = (s.taken.journalAdd 0x000B .ok (leBytes 1 0 ++ [0] ++ leBytes 1 1)).1 →
    exec (.debugLock h) s = .next (moduleHeld s { t with boot := { t.boot with debugLeft := 0 } } (.debugLock h) .ok [])) ∧
  (∀ first l, moduleReady s (.journalRead h first) = true →
    l = (s.boot.journal.filter (fun r => decide (first.toNat ≤ r.seq))).take 480 →
    exec (.journalRead h first) s = .next (moduleOutcome s s.taken (.journalRead h first) .ok
      (leBytes 4 s.boot.journalSeq ++ leBytes 4 l.length ++ l.flatMap JRec.bytes)))

/-! ### Rails, reset and the boot sequence -/

/-- R412, R418, R421, R466, R469: rails and RESET_N. Standby power, or the release of RESET_N under it, begins a power-up at step 0x00; its loss, or
RESET_N low, darkens the module, and the operand says in which copy of the journal that loss cuts the newest record; the loss of the main rail
drops every switched domain and ends the epoch, and its return begins a power-up at step 0x01. The loss is stated from step 0x01 on: that step
0x00 runs on is the model's choice (log 21). -/
def Obligations.RailEventsComplete : Prop :=
  ∀ s,
  (s.pow.standby = false → exec .standbyRailUp s = .next (if s.pow.resetLow
    then { s with pow := { s.pow with standby := true }, boot := { s.boot with restarts := 0 } }
    else ({ s with pow := { s.pow with standby := true } } : State).powerUp 0 0 0)) ∧
  (∀ tear, s.pow.standby = true → exec (.standbyRailLoss tear) s = .next ({ s with
    pow := { s.pow with standby := false }, boot := if s.pow.resetLow then s.boot else s.boot.cutRecord tear } : State).darken) ∧
  (s.pow.main = false → exec .mainRailGood s = .next (if s.boot.ended ∧ s.pow.standby ∧ s.pow.resetLow = false
    then ({ s with pow := { s.pow with main := true } } : State).powerUp 1 0 s.boot.restarts
    else if atStep s 4 then State.mainDomains { s with pow := { s.pow with main := true } } .powering
    else { s with pow := { s.pow with main := true } })) ∧
  (s.pow.main = true → ∀ t, t = interruptStep { s with pow := { s.pow with main := false } } →
    t.pow.standby = true → t.pow.resetLow = false → 1 ≤ t.boot.step → t.boot.halted = false →
    exec .mainRailLoss s = .next { t.dropMain with boot := { t.dropMain.boot with step := 4, ended := true } }) ∧
  (s.pow.resetLow = false → ∀ t, t = interruptStep s →
    exec .resetNAssert s = .next ({ t with pow := { t.pow with resetLow := true } } : State).darken) ∧
  (s.pow.resetLow = true → exec .resetNRelease s = .next (if s.pow.standby
    then ({ s with pow := { s.pow with resetLow := false } } : State).powerUp 0 0 s.boot.restarts
    else { s with pow := { s.pow with resetLow := false } }))

/-- R312, R379, R413 to R421, R449, R452, R455, R456, Tables 16-1 to 16-4: the boot steps, each when it is the one in progress, and what a
failure does; the step watchdog's operand lists the dies or channels that have not ended (log 21). Of what the fuse, release, module, site and
remap measurements are taken is the model's choice (log 26), and so are the bytes of the STEP and EPOCH records (log 16). -/
def Obligations.BootStepsComplete : Prop :=
  ∀ s,
  (∀ straps, atStep s 0 = true → exec (.powerOn straps) s = .next (enterStep { s with
    fabric := { s.fabric with address := straps.setWidth 32 }, pow := { s.pow with stbyOk := true } } 1)) ∧
  (atStep s 1 = true → s.boot.failed 1 = false →
    exec (.fuse true) s = .next (endStep (setMeas (clearFail s 1) [(0, Config.measure 0 (fuseNumbers (clearFail s 1)))]) 1) ∧
    exec (.fuse false) s = .next (haltBoot (addFail s 1 false 0) 1 s.boot.detail [])) ∧
  (∀ p g, atStep s 2 = true →
    (s.boot.failed 2 = false → exec (.image p g) s = .next (if slotPasses s p then endStep (useImage s s.boot.chosen) 2
      else if goldenPasses (addFail s 2 false 0) g then failStep (useImage (alterStep (addFail s 2 false 0) 2 0x02) 2) 2 []
      else haltBoot (addFail s 2 false 0) 2 0x03 [])) ∧
    (s.boot.failed 2 = true → ∀ t, t = alterStep s 2 0x02 →
      exec (.image p g) s = .next (if goldenPasses t g then endStep (useImage (clearFail t 2) 2) 2
        else if slotPasses t p then endStep (useImage (clearFail t 2) t.boot.chosen) 2 else haltBoot t 2 0x03 []))) ∧
  (∀ a b largest, atStep s 3 = true → s.boot.failed 3 = false → a = true ∨ b = true → ∀ r t k v,
    r = readJournal s false a b →
    t = (if s.boot.finalTorn then { alterStep r 3 0x04 with epoch := BitVec.ofNat 32 (newestEpoch r.boot.journal + 1) }
      else { r with epoch := BitVec.ofNat 32 (newestEpoch r.boot.journal + 1) }) →
    k = ((copyStep (copyStep t 1) 2).journalAdd 0x0003 .ok (leBytes 4 t.epoch.toNat)).1 →
    v = rebuildMaps (noteFallback k) →
    exec (.journal a b largest) s = .next (endStep (setMeas (clearFail v 3) [(5, Config.measure 5
      (((v.boot.fusedMap ++ v.boot.journal).filter (fun r => decide (4 ≤ r.type) && decide (r.type ≤ 7))).map (fun r => ofLe r.body)))]) 3)) ∧
  (atStep s 4 = true → s.pow.main = true → s.boot.failed 4 = false →
    exec (.power true) s = .next (endStep (clearFail { s with pow := { s.pow with
      feed := Vector.replicate 4 .awake, net := Vector.replicate 16 .awake, ports := Vector.replicate 2 .awake, pwrGood := true } } 4) 4) ∧
    exec (.power false) s = .next (haltBoot (addFail s 4 false 0) 4 0x07 [])) ∧
  (∀ o : BistOutcome, atStep s 5 = true → s.boot.failed 5 = false → o.watchdog = [] → o.netFailed = [] →
    exec (.bist o) s = .next (endStep (clearFail (bistRepairs s o (fun _ => true)) 5) 5)) ∧
  (∀ rungs, atStep s 6 = true → s.boot.failures = [] → ∀ rung, rung = rungOf s rungs → ∀ t u,
    t = (List.range 512).foldl (fun s ch => trainChannel s ch (rung ch)) s →
    u = (if (List.range 512).any (fun ch => decide (rung ch ≠ 0)) then setDetail t 0x0A else t) →
    exec (.memory rungs) s = .next (if (List.range 512).filter (fun ch => decide (rung ch = 4)) = []
      then endStep (clearFail { u with mem := { u.mem with bytes := [], poison := [] } } 6) 6
      else haltBoot (((List.range 512).filter (fun ch => decide (rung ch = 4))).foldl (fun s ch => addFail s 6 false ch) u) 6 0x0B
        ((List.range 512).filter (fun ch => decide (rung ch = 4))))) ∧
  (∀ os skip, atStep s 7 = true → skip = (s.boot.failures.filter (fun f => decide (f.step = 7))).map (·.item) → ∀ t lost,
    t = (if s.boot.gradeB then s else (List.range 8).foldl (bootEave os skip) s) →
    lost = ((t.boot.failures.filter (fun f => decide (f.step = 7))).map (·.item)).filter (fun e => !skip.contains e) →
    exec (.eaves os) s = .next (if lost = [] then endStep t 7 else failStep t 7 lost)) ∧
  (atStep s 8 = true → s.boot.released = false → ∀ t, t = burnRollback s →
    exec .released s = .next (tellFallback { t with
      boot := { t.boot with released := true, lastReleased := if t.boot.inUse ≤ 1 then t.boot.inUse else t.boot.lastReleased },
      fabric := { t.fabric with phase := 2, lead := Config.fabricId },
      pow := { t.pow with copper := Vector.ofFn (fun (c : Fin 5) => if t.boot.gradeB = true ∧ 2 ≤ c.val then .off else .powering) },
      eaves := t.eaves.map (fun x => { x with swaps := 0, fails := 0 }) })) ∧
  (∀ n late, n = s.boot.step → atStep s n = true →
    (n = 1 → exec (.stepWatchdog late) s = .next (haltBoot (addFail s 1 true 0) 1 s.boot.detail [])) ∧
    (n = 7 → exec (.stepWatchdog late) s = .next (runEaves s [])) ∧
    (n = 5 ∨ n = 6 → exec (.stepWatchdog late) s =
      .next (restartBoot ((lateParts s late).foldl (fun s i => addFail s n true i) s) n (lateParts s late))) ∧
    (n = 2 ∨ n = 3 ∨ (n = 4 ∧ s.pow.main = true) → exec (.stepWatchdog late) s = .next (restartBoot (addFail s n true 0) n [])))

/-! ### Rules of a stream, stated whole -/

/-- R131, Table 5-14, with `a` the first operand, `b` the second, and `sg` the two's complement reading: what ALU writes for each FN, modulo 2^32, and
when BR is taken for each COND; no operand value makes either fault. A reserved code of either is the fault FIELD_RANGE. -/
def Obligations.ScalarArithmetic : Prop :=
  ∀ (s : State) (r : ReedIx) (w : BitVec 256) (a b : Nat) (sg : Nat → Int), issues s r w = true →
    a = (s.reed r).s (insByte w 1 / 16) →
    (∀ v, sg v = if v < 2 ^ 31 then (v : Int) else (v : Int) - 2 ^ 32) →
    (insOpc w = 0x02 → aluFlaw w (s.reed r) = none →
      b = (if bitOf (insByte w 2) 4 then insAux w else (s.reed r).s (insByte w 2 % 16)) →
      ∀ p ∈ [(0, (a + b) % 2 ^ 32), (1, (a + 2 ^ 32 - b) % 2 ^ 32), (2, a * b % 2 ^ 32), (3, a &&& b), (4, a ||| b), (5, a ^^^ b),
          (6, a * 2 ^ (b % 32) % 2 ^ 32), (7, a / 2 ^ (b % 32)), (8, (sg a / 2 ^ (b % 32) % 2 ^ 32).toNat),
          (9, if sg a ≤ sg b then a else b), (10, if sg a ≤ sg b then b else a), (11, min a b), (12, max a b)],
        insByte w 3 = p.1 →
        ∃ t, exec (.alu r) s = .next t ∧ (t.reed r).s (insByte w 1 % 16) = p.2 ∧ (t.reed r).st = .running) ∧
    (insOpc w = 0x02 → 12 < insByte w 3 →
      firstFlaw (reservedFlaws w (streamReserved w 0 0xE0 0 (bitOf (insByte w 2) 4)) 1) = none →
      exec (.alu r) s = .next (streamFault s r (.fieldRange, 0) (s.reed r).index)) ∧
    (insOpc w = 0x09 → brFlaw w (s.reed r) = none → b = (s.reed r).s (insByte w 2 % 16) →
      ∀ p ∈ [(0, true), (1, decide (a = 0)), (2, decide (a ≠ 0)), (3, decide (sg a < sg b)), (4, decide (sg b ≤ sg a)),
          (5, decide (a < b)), (6, decide (b ≤ a))],
        insByte w 2 / 32 = p.1 →
        ∃ t, exec (.br r) s = .next t ∧ (t.reed r).st = .running ∧ (p.2 = true → (t.reed r).index = insByte w 3) ∧
          (p.2 = false → t.reed r = (s.reed r).advance)) ∧
    (insOpc w = 0x09 → insByte w 2 / 32 = 7 →
      firstFlaw (reservedFlaws w (streamReserved w 0x0F 0x10 0xC0 false) 1) = none →
      exec (.br r) s = .next (streamFault s r (.fieldRange, 0) (s.reed r).index))

/-- R144: LOOP latches the count when it executes. A count of 0 goes on after END with no loop more; another count makes a loop active with that
count. What an instruction of the body or UREG_WRITE then writes into a scalar register leaves every loop as it was: the loops, and the
entry that follows, are those of an instruction that writes nothing. -/
def Obligations.LoopCounts : Prop :=
  ∀ (s : State) (r : ReedIx) (w : BitVec 256), issues s r w = true →
    (insOpc w = 0x08 → loopFlaw w (s.reed r) = none → ∃ t, exec (.loop r) s = .next t ∧
      ((s.reed r).s (insByte w 1 / 16) = 0 →
        (t.reed r).index = insByte w 3 + 1 ∧ (t.reed r).loops = (s.reed r).loops) ∧
      ((s.reed r).s (insByte w 1 / 16) ≠ 0 → (t.reed r).index = (s.reed r).index + 1 ∧
        (t.reed r).loops = { start := (s.reed r).index, stop := insByte w 3, iter := 0,
                             count := BitVec.ofNat 32 ((s.reed r).s (insByte w 1 / 16)) } :: (s.reed r).loops)) ∧
    (∀ p ∈ [(0x01, Instr.seti r, setiFlaw), (0x02, .alu r, aluFlaw), (0x05, .movr r, movrFlaw)],
      insOpc w = p.1 → p.2.2 w (s.reed r) = none → ∃ t, exec p.2.1 s = .next t ∧
        (t.reed r).index = (s.reed r).advance.index ∧ (t.reed r).loops = (s.reed r).advance.loops) ∧
    (∀ o, insOpc w = 0x03 → wordOperand w (s.reed r) 0xF0 false = .ok o → waitsFor (s.reed r).allQueued [o.extent] [] = false →
      ∃ t, exec (.sld r) s = .next t ∧
        (t.reed r).index = (s.reed r).advance.index ∧ (t.reed r).loops = (s.reed r).advance.loops) ∧
    (∀ n v, n < 16 → ((s.reed r).writeReg n v).loops = (s.reed r).loops ∧ ((s.reed r).writeReg n v).index = (s.reed r).index)

/-- R145: an instruction that issues at the end of the innermost active loop, and is no taken branch, ends its iteration: the loop goes round
while ITER + 1 < COUNT, else it ends, and an enclosing loop that ends at the same entry ends its iteration with it. END issues
nothing after itself (R141), and a LOOP at that entry is a fault (R143). -/
def Obligations.LoopEnds : Prop :=
  (∀ (x : Reed) l rest, x.loops = l :: rest → x.index = l.stop →
    (l.iter.toNat + 1 < l.count.toNat →
      x.advance.index = l.start + 1 ∧ x.advance.loops = { l with iter := l.iter + 1 } :: rest) ∧
    (¬ l.iter.toNat + 1 < l.count.toNat → rest.head?.map (·.stop) ≠ some l.stop →
      x.advance.index = l.stop + 1 ∧ x.advance.loops = rest) ∧
    (¬ l.iter.toNat + 1 < l.count.toNat → rest.head?.map (·.stop) = some l.stop →
      x.advance = ({ x with loops := rest } : Reed).advance)) ∧
  (∀ (s : State) (r : ReedIx) (w : BitVec 256), issues s r w = true →
    ∀ p ∈ [(0x00, Instr.nopInstruction r), (0x01, .seti r), (0x02, .alu r), (0x03, .sld r), (0x04, .sst r), (0x05, .movr r), (0x06, .movw r),
        (0x09, .br r), (0x0A, .waitq r), (0x40, .mma r), (0x41, .mmaf r), (0x42, .accz r), (0x43, .accst r), (0x60, .vew r),
        (0x61, .vred r), (0x62, .vscan r), (0x63, .vsscan r), (0x64, .vwide r), (0x65, .vrng r), (0x66, .opt r), (0x67, .vcld r),
        (0x68, .vcst r), (0x80, .ld r), (0x81, .ldpage r), (0xA0, .st r), (0xC0, .xput r), (0xC1, .xget r)],
      insOpc w = p.1 →
      (insOpc w = 0x09 → brTaken (insByte w 2 / 32) (BitVec.ofNat 32 ((s.reed r).s (insByte w 1 / 16)))
        (BitVec.ofNat 32 ((s.reed r).s (insByte w 2 % 16))) = false) →
      ∃ t, exec p.2 s = .next t ∧ ((t.reed r).st = .running → (t.reed r).hold = .none →
        (t.reed r).index = (s.reed r).advance.index ∧ (t.reed r).loops = (s.reed r).advance.loops))

/-- R146: a taken branch to `j`, a write of `POS`.INDEX = `j` and a UREG_WRITE of it keep, unchanged and in their order, the active loops whose
body contains `j`, and no other. Where `j` is the entry of a loop's own LOOP instruction that loop ends, and LOOP, executed next, makes it
active afresh with the count its register then holds. -/
def Obligations.BranchesAndLoops : Prop :=
  ∀ (s : State) (r : ReedIx),
    (∀ w, issues s r w = true → insOpc w = 0x09 → brFlaw w (s.reed r) = none →
      brTaken (insByte w 2 / 32) (BitVec.ofNat 32 ((s.reed r).s (insByte w 1 / 16)))
        (BitVec.ofNat 32 ((s.reed r).s (insByte w 2 % 16))) = true →
      ∃ t, exec (.br r) s = .next t ∧ (t.reed r).index = insByte w 3 ∧ (t.reed r).loops.Sublist (s.reed r).loops ∧
        (∀ l, l ∈ (t.reed r).loops ↔ l ∈ (s.reed r).loops ∧ l.start + 1 ≤ insByte w 3 ∧ insByte w 3 ≤ l.stop) ∧
        (∀ l ∈ (s.reed r).loops, l.start = insByte w 3 → l ∉ (t.reed r).loops ∧
          ∀ v n, issues t r v = true → insOpc v = 0x08 → loopFlaw v (t.reed r) = none →
            n = (t.reed r).s (insByte v 1 / 16) → n ≠ 0 →
            ∃ u, exec (.loop r) t = .next u ∧ (u.reed r).loops =
              { start := l.start, stop := insByte v 3, iter := 0, count := BitVec.ofNat 32 n } :: (t.reed r).loops)) ∧
    (∀ j : BitVec 6, (s.sheaf (r / 4096)).stOf (r % 4096) ∈ [UState.idle, .loaded, .paused, .faulted] →
      ∃ t, exec (.posIndexWrite r j) s = .next t ∧ (t.reed r).index = j.toNat ∧ (t.reed r).loops.Sublist (s.reed r).loops ∧
        ∀ l, l ∈ (t.reed r).loops ↔ l ∈ (s.reed r).loops ∧ l.start + 1 ≤ j.toNat ∧ j.toNat ≤ l.stop) ∧
    (∀ j < 64, ((s.reed r).writeReg 0x20 j).index = j ∧ ((s.reed r).writeReg 0x20 j).loops.Sublist (s.reed r).loops ∧
      ∀ l, l ∈ ((s.reed r).writeReg 0x20 j).loops ↔ l ∈ (s.reed r).loops ∧ l.start + 1 ≤ j ∧ j ≤ l.stop)

/-- R141: once END has issued, the reed stays RUNNING while a queue holds something; with every queue empty it passes to LOADED, at its entry
point with no loop active, and keeps its scalar registers, `CYCLES` and `STALLS`. A START of it, without a load between,
begins at the entry point. After END no row of an instruction fetches anything. Fetching an entry that is not valid, which is what
PROG_LOAD leaves of every entry it does not write, is the fault FETCH_INVALID of that entry, and past entry 63 it is that of entry 63. -/
def Obligations.ProgramEnds : Prop :=
  ∀ (s : State) (r : ReedIx),
    (∀ w, issues s r w = true → insOpc w = 0x1F → nopFlaw w (s.reed r) = none →
      ∃ t, exec (.endInstruction r) s = .next t ∧ (t.reed r).ended = true ∧ (t.reed r).st = .running) ∧
    ((s.reed r).queuesEmpty = false → exec (.programEnd r) s = .next s) ∧
    ((s.sheaf (r / 4096)).stOf (r % 4096) = .running → (s.reed r).ended = true → (s.reed r).queuesEmpty = true →
      ∃ t, exec (.programEnd r) s = .next t ∧ (t.reed r).st = .loaded ∧ (t.reed r).index = (s.reed r).entry ∧
        (t.reed r).entry = (s.reed r).entry ∧ (t.reed r).loops = [] ∧ (t.reed r).regs = (s.reed r).regs ∧
        (t.reed r).cycles = (s.reed r).cycles ∧ (t.reed r).fullq = (s.reed r).fullq ∧
        (t.reed r).portStalls = (s.reed r).portStalls) ∧
    (∀ h args, unitReady s (.start h args) = true → actsOn s (.start h args) r = true → (s.reed r).index = (s.reed r).entry →
      (s.reed r).loops = [] →
      ∃ t, exec (.start h args) s = .next t ∧ (t.reed r).st = .running ∧ (t.reed r).index = (s.reed r).entry ∧ (t.reed r).loops = []) ∧
    (∀ c ∈ [Instr.nopInstruction r, .seti r, .alu r, .sld r, .sst r, .movr r, .movw r, .loop r, .br r, .waitq r, .endInstruction r, .mma r, .mmaf r,
        .accz r, .accst r, .vew r, .vred r, .vscan r, .vsscan r, .vwide r, .vrng r, .opt r, .vcld r, .vcst r, .ld r, .ldpage r, .st r,
        .xput r, .xget r],
      ((s.reed r).ended = true → exec c s = .next s) ∧
      ((s.reed r).st = .running → (s.reed r).ended = false → clockRuns s (r / 4096) = true →
        (s.sheaf (r / 4096)).retired (r % 4096) = false →
        (64 ≤ (s.reed r).index → exec c s = .next (streamFault s r (.fetchInvalid, 0) 63)) ∧
        ((s.reed r).index < 64 → pageWill (s.reed r) (s.reed r).index = false → KMap.look (s.reed r).ibuf (s.reed r).index = none →
          exec c s = .next (streamFault s r (.fetchInvalid, 0) (s.reed r).index)))) ∧
    (∀ (x : Reed) l entry n, l.length ≤ n → KMap.look (x.load (ibufOf l) entry).ibuf n = none)

/-- R119, Table 5-3: MOVR of LC`n` reads, in its low half, ITER and, in its high half, the latched count of the active loop at nesting
level `n`, outermost first, and zero while level `n` is not active; MOVW cannot write it. -/
def Obligations.LoopRegisters : Prop :=
  ∀ (s : State) (r : ReedIx) (w : BitVec 256) (n : Nat), issues s r w = true → n < 4 → insByte w 3 = 0x10 + n →
    (insOpc w = 0x05 → movrFlaw w (s.reed r) = none → ∃ t, exec (.movr r) s = .next t ∧
      (∀ l, (s.reed r).loops.reverse[n]? = some l →
        (t.reed r).s (insByte w 1 % 16) = if bitOf (insByte w 2) 0 then l.count.toNat else l.iter.toNat) ∧
      ((s.reed r).loops.length ≤ n → (t.reed r).s (insByte w 1 % 16) = 0)) ∧
    (insOpc w = 0x06 → firstFlaw (reservedFlaws w (streamReserved w 0x0F 255 0 false) 1) = none →
      exec (.movw r) s = .next (streamFault s r (.badReg, 0) (s.reed r).index))

/-- What an instruction of a stream leaves alone, on every path, issued, held or faulted (R129 to R140): every other reed, memory, every loft, the
allotments, the eaves, power, the boot and the fabric's tables; a fault's event may call sleeping network domains it crosses (R31, R428). -/
def Obligations.StreamFrame : Prop :=
  ∀ (s : State) (r : ReedIx),
    ∀ c ∈ [Instr.nopInstruction r, .seti r, .alu r, .sld r, .sst r, .movr r, .movw r, .loop r, .br r, .waitq r, .endInstruction r, .mma r, .mmaf r,
        .accz r, .accst r, .vew r, .vred r, .vscan r, .vsscan r, .vwide r, .vrng r, .opt r, .vcld r, .vcst r, .ld r, .ldpage r, .st r,
        .xput r, .xget r, .heldIssueRetry r, .waitqRelease r],
      ∃ t, exec c s = .next t ∧ (∀ q, q ≠ r.val → t.reed q = s.reed q) ∧ (∀ a, KMap.get 0 t.mem.bytes a = KMap.get 0 s.mem.bytes a) ∧
        (∀ g, (t.sheaf g).loft = (s.sheaf g).loft ∧ (t.sheaf g).power = (s.sheaf g).power ∧ (t.sheaf g).colls = (s.sheaf g).colls) ∧
        t.mem = s.mem ∧ t.allots = s.allots ∧ t.modColls = s.modColls ∧ t.eaves = s.eaves ∧ t.pow.rest = s.pow.rest ∧ calledOnly s.pow.net t.pow.net ∧ t.boot = s.boot ∧
        t.fabric.table = s.fabric.table ∧ t.fabric.address = s.fabric.address ∧ t.tcweight = s.tcweight

/-! ### Rules of the command path, stated whole -/

/-- R38: a command whose path has a DEPTH above 5, or a digit below its depth, is refused with `BAD_UNIT`, and one whose path has bit 20 set with
`BAD_PARAM`, where no earlier check fails: of a unit command first the header, the length and the command's own fields (R87), of a module
command, which asks for the path `S:` (R86), the same. The refusal has no side effect: a reply is written. -/
def Obligations.MalformedPathsRefused : Prop :=
  ∀ (s : State) c h i, cmdOf c = some (h, i) → unhindered s c h = true → h.src ≠ .sideband →
    (∀ d, unitDefOf c = some d → h.path.toNat / 2 ^ 20 % 2 = 1 → ∃ t, exec c s = .next t ∧
      t = refuseUnit s.taken s.lodge.nextId c h d (Refuse.form .badParam) ∧ onlyReplied s t) ∧
    (∀ d, unitDefOf c = some d → headerBad h i = false → c.wf = true → d.form s.taken Sel.none = none →
      5 < h.path.toNat / 2 ^ 21 ∨ h.path.toNat % 2 ^ 20 % 16 ^ (5 - h.path.toNat / 2 ^ 21) ≠ 0 → ∃ t, exec c s = .next t ∧
      t = refuseUnit s.taken s.lodge.nextId c h d (Refuse.form .badUnit) ∧ onlyReplied s t) ∧
    (unitDefOf c = none → h.path.toNat / 2 ^ 20 % 2 = 1 → ∃ t, exec c s = .next t ∧
      t = moduleOutcome s s.taken c .badParam [] ∧ onlyReplied s t) ∧
    (unitDefOf c = none → headerBad h i = false → c.wf = true →
      5 < h.path.toNat / 2 ^ 21 ∨ h.path.toNat % 2 ^ 20 % 16 ^ (5 - h.path.toNat / 2 ^ 21) ≠ 0 → ∃ t st, exec c s = .next t ∧
      t = moduleOutcome s s.taken c st [] ∧ onlyReplied s t ∧
      (st = .badUnit ∨ st = .badParam ∨ st = .alignFault ∨ st = .engineFused) ∧
      (c ∈ [.devInfo h, .powerRead h, .certRead h] → st = .badUnit))

/-- R69, Table 3-8: a write of `REPLYHEAD` from HEAD up to TAIL round the ring moves HEAD; any other is ignored and sets HEAD_ERR. A
`REPLYCTL` write that disables the ring discards what its holding store holds, replies and events, and the replies that wait at their
lodges for room in it; the commands taken stay, with every other command in progress. The port's link is up, its PERST_N high and its
function in D0, without which no access reaches it (R404, R469). -/
def Obligations.ReplyHeadAndDisable : Prop :=
  ∀ (s : State) (p : PortIx) (v : W32), (s.port p).reached = true →
    (v.toNat % 65536 < (s.port p).ringSize →
      (v.toNat % 65536 + (s.port p).ringSize - (s.port p).head) % (s.port p).ringSize ≤
        ((s.port p).tail + (s.port p).ringSize - (s.port p).head) % (s.port p).ringSize →
      exec (.replyheadWrite p v) s = .next (s.setPort p { s.port p with head := v.toNat % 65536 })) ∧
    ((s.port p).ringSize ≤ v.toNat % 65536 ∨
      ((s.port p).tail + (s.port p).ringSize - (s.port p).head) % (s.port p).ringSize <
        (v.toNat % 65536 + (s.port p).ringSize - (s.port p).head) % (s.port p).ringSize →
      exec (.replyheadWrite p v) s = .next (s.setPort p { s.port p with headErr := true })) ∧
    (v.getLsbD 0 = false → (s.port p).enable = true → ∃ t, exec (.replyRingDisable p v) s = .next t ∧
      (t.port p).enable = false ∧ (t.port p).hold = [] ∧ t.lodge.waiting = s.lodge.waiting ∧ t.pending = s.pending ∧
      t.lodge.ops = s.lodge.ops.filter (fun o => decide (o.wait ≠ .store p)) ∧
      t.sheaves = s.sheaves ∧ t.mem = s.mem ∧ t.allots = s.allots)

/-- R447: KEY_ROTATE of a hash of all zeros, or of the current one, returns `BAD_PARAM`; else, when its burn ends, the slot after the current
one holds the given hash and is the current one, and the slots before it are as they were. -/
def Obligations.KeyRotation : Prop :=
  ∀ (s : State) h k,
    (moduleReady s (.keyRotate h k) = true → ofLe k = 0 ∨ BitVec.ofNat 256 (ofLe k) = s.ownerHash →
      exec (.keyRotate h k) s = .next (moduleOutcome s s.taken (.keyRotate h k) .badParam [])) ∧
    (moduleReady s (.keyRotate h k) = true → ofLe k ≠ 0 → BitVec.ofNat 256 (ofLe k) ≠ s.ownerHash → 0 < s.boot.keyLeft →
      ∃ t, exec (.keyRotate h k) s = .next t ∧ ∃ o, t.lodge.ops = s.lodge.ops ++ [o] ∧ o.cmd = .keyRotate h k ∧ o.wait = .action) ∧
    (∀ op data o, s.lodge.ops.find? (fun o => decide (o.id = op) && decide (o.wait = .action)) = some o → o.cmd = .keyRotate h k →
      ∃ t, exec (.commandActionComplete op data) s = .next t ∧ t.boot.keySlot = s.boot.keySlot + 1 ∧
        t.boot.keyHashes[s.boot.keySlot]? = some (BitVec.ofNat 256 (ofLe k)) ∧ t.ownerHash = BitVec.ofNat 256 (ofLe k) ∧
        ∀ i < s.boot.keySlot, t.boot.keyHashes[i]?.getD 0 = s.boot.keyHashes[i]?.getD 0)

/-- R392: offset `o` of a port's BAR2 reaches memory address BASE + `o`, for a write and for a read; BASE is what an APERTURE arriving on that
port sets, which leaves the other port's, and is 0 after reset. An APERTURE that would reach beyond 1,888 GiB returns `BAD_PARAM`, and one of job
class that leaves its allotment's grants `WRONG_ALLOTMENT`. A BAR2 access that need not wait meets the memory's errors and poison as the accesses of every other
requester do, by the same operations. -/
def Obligations.ApertureReaches : Prop :=
  (State.reset.port .port0).bar2Base = 0 ∧ (State.reset.port .port1).bar2Base = 0 ∧
  (∀ (s : State) h b p, moduleReady s (.aperture h b) = true → h.src = .port p →
    (1888 * 2 ^ 30 < b.toNat + 64 * 2 ^ 30 →
      exec (.aperture h b) s = .next (moduleOutcome s s.taken (.aperture h b) .badParam [])) ∧
    (b.toNat % 2 ^ 30 = 0 → b.toNat + 64 * 2 ^ 30 ≤ 1888 * 2 ^ 30 →
      (h.priv = 0 → (∀ a, s.allot? h.allot.toNat = some a → insideRanges a.grants b.toNat (b.toNat + 64 * 2 ^ 30) = false) →
        exec (.aperture h b) s = .next (moduleOutcome s s.taken (.aperture h b) .wrongAllotment [])) ∧
      (memScope s h b.toNat (b.toNat + 64 * 2 ^ 30) = true →
        ∃ t, exec (.aperture h b) s = .next t ∧ (t.port p).bar2Base = b ∧
          (t.port (otherPort p)).bar2Base = (s.port (otherPort p)).bar2Base))) ∧
  (∀ (s : State) p o ds errs, bar2Takes s p o ds.length = true → bar2Denied s p ((s.port p).bar2Base.toNat + o) ds.length = false →
    bar2Waits s ⟨p, (s.port p).bar2Base.toNat + o, ds.length, some ds, errs⟩ = false →
    ∃ t, exec (.bar2Write p o ds errs) s = .next t ∧ (t.port p).bar2Base = (s.port p).bar2Base ∧
      t = memWrite s 5 0 ((ds.zipIdx ((s.port p).bar2Base.toNat + o)).filterMap (fun e => e.1.map (fun b => (e.2, b)))) errs ∧
      (∀ a, KMap.get 0 t.mem.bytes a ≠ KMap.get 0 s.mem.bytes a →
        (∃ k b, a = (s.port p).bar2Base.toNat + o + k ∧ ds[k]? = some (some b)) ∨ ∃ e ∈ errs, a / 32 = e.addr / 32) ∧
      (errs = [] → ∀ k b, ds[k]? = some (some b) → sectorFailed s (((s.port p).bar2Base.toNat + o + k) / 32) = false →
        KMap.get 0 t.mem.bytes ((s.port p).bar2Base.toNat + o + k) = b)) ∧
  (∀ (s : State) p o n, bar2Takes s p o n = true → bar2Denied s p ((s.port p).bar2Base.toNat + o) n = false →
    bar2Waits s ⟨p, (s.port p).bar2Base.toNat + o, n, none, []⟩ = false →
    (∀ errs, bar2Waits s ⟨p, (s.port p).bar2Base.toNat + o, n, none, errs⟩ = false → ∃ t, exec (.bar2Read p o n errs) s = .next t ∧
      t.mem = (touchSectors s 5 0 (sectorsOf ((s.port p).bar2Base.toNat + o) n) errs).mem) ∧ (
    (∀ a, o ≤ a → a < o + n → sectorBad s (((s.port p).bar2Base.toNat + a) / 32) = false) →
    ∃ t, exec (.bar2Read p o n []) s = .next t ∧ ∃ x, (t.port p).bar2Out = some x ∧ x.ur = false ∧ x.ep = false ∧ x.data.length = n ∧
      ∀ k < n, x.data[k]? = some (KMap.get 0 s.mem.bytes ((s.port p).bar2Base.toNat + o + k))))

/-- R312, Table 12-1: POWER_ON, the first step of a power-up, takes the fabric address from the straps, POS in bits [1:0], BOARD in [4:2], X in
[8:5], Y in [12:9] and zeros above; no other step of the block changes it, whatever state it is in. A ROUTE_QUERY, COLL_BACKUP, ALLOT_CREATE or
ALLOT_RESIZE that names an address with a reserved bit set returns `BAD_PARAM`, but for a COLL_BACKUP of 0xFFFF_FFFF, which removes the
backup of its rank. -/
def Obligations.AddressFixed : Prop :=
  (∀ (s : State) (straps : BitVec 13), atStep s 0 = true → ∃ t, exec (.powerOn straps) s = .next t ∧
    t.fabric.address.toNat % 4 = straps.toNat % 4 ∧ t.fabric.address.toNat / 4 % 8 = straps.toNat / 4 % 8 ∧
    adX t.fabric.address = straps.toNat / 32 % 16 ∧ adY t.fabric.address = straps.toNat / 512 ∧
    adC t.fabric.address = straps.toNat % 32 ∧ t.fabric.address.toNat / 2 ^ 13 = 0) ∧
  (∀ (s : State) (straps : BitVec 13), atStep s 0 = false → exec (.powerOn straps) s = .next s) ∧
  (∀ (s t : State) c, exec c s = .next t → (∀ straps, c ≠ .powerOn straps) → t.fabric.address = s.fabric.address) ∧
  (∀ s t : State, step s = .next t → t.fabric.address ≠ s.fabric.address →
    ∃ straps rest, s.pending = .powerOn straps :: rest ∧ atStep s 0 = true ∧ t.fabric.address = straps.setWidth 32) ∧
  (∀ (s : State) h (n rank : W16) op (w : BitVec 256) l (a : W32), 2 ^ 13 ≤ a.toNat → a ∈ l →
    ∀ c ∈ [Instr.routeQuery h a, .collBackup h n rank a, .allotCreate h n w l, .allotResize h n op w l], moduleReady s c = true →
      (c = .collBackup h n rank a → a ≠ 0xFFFFFFFF) → exec c s = .next (moduleOutcome s s.taken c .badParam [])) ∧
  (∀ (s : State) h (n rank : W16) m k x, moduleReady s (.collBackup h n rank 0xFFFFFFFF) = true → h.allot ≠ 0 →
    s.fabric.address ≠ 0xFFFFFFFF → s.modColl h.allot n = some m → s.collAny h.allot n = some k → s.allot? h.allot.toNat = some x →
    rank.toNat < (groupOf s x.members k.plan.courses m.backups).length →
    ∃ t, exec (.collBackup h n rank 0xFFFFFFFF) s = .next t ∧
      (t.modColl h.allot n).map (·.backups) = some (m.backups.filter (fun e => decide (e.1 ≠ rank.toNat))))

/-! ### Rules about the whole block -/

/-- The step of the block: the command at the front of the queue acts on the state with the rest of the queue. On an empty queue one keep
tick of powered time passes (log entry 5: the model's choice). -/
def Obligations.StepRunsFront : Prop :=
  (∀ (s : State) c rest, step { s with pending := c :: rest } = exec c { s with pending := rest }) ∧
  (∀ s : State, s.pending = [] → step s = .next (keepTick s))

/-- The invariant of the block (R33, R312, and the canonical form of memory): every step keeps it. -/
def Obligations.StepKeepsInvariant : Prop := ∀ s t : State, Inv s → step s = .next t → Inv t

/-- The invariant holds right after reset. -/
def Obligations.InvariantHoldsAtReset : Prop := Inv State.reset

/-- R33, R68, R76, R379, R392, R413, R416, Tables 1-9, 3-4 to 3-8, 5-1: what reset leaves, where the spec gives it. -/
def Obligations.ResetLeaves : Prop :=
  State.reset.tcweight = 0x00110808 ∧ State.reset.boot.released = false ∧ bootstepReg State.reset = 0 ∧
  (∀ g, (State.reset.sheaf g).power = .off) ∧ (∀ a, KMap.get 0 State.reset.mem.bytes a = 0) ∧ State.reset.allots = [] ∧
  (∀ p, ∀ e ∈ [(0x40000, 0), (0x40004, 0), (0x40008, 0), (0x40010, 0), (0x40014, 0), (0x40018, 6), (0x4001C, 0), (0x40020, 2 ^ 16),
    (0x40024, 0x100), (0x40028, 0xFF), (0x40034, 0)], readReg State.reset p e.1 = e.2) ∧
  (∀ r n, n < 16 → reedReg State.reset r n = some 0) ∧ (∀ r, reedReg State.reset r 0x21 = some 8)

/-- R411, R416: before release a command of a host port or of a peer has no effect at all; the window drops what is written to it and no
packet is taken from it. The sideband alone is served. -/
def Obligations.BeforeReleaseNothingArrives : Prop :=
  ∀ s : State, s.boot.released = false →
    (∀ c h i, cmdOf c = some (h, i) → h.src ≠ .sideband → exec c s = .next s) ∧
    (∀ p o d, exec (.windowWrite p o d) s = .next s) ∧ (∀ p, exec (.packetTaken p) s = .next s) ∧
    (∀ a f b, exec (.peerCommand a f b) s = .next s) ∧ (∀ p, readReg s p 0x40000 = 0)

/-- R42, R87: a unit command that fails a form check or admission is answered at once with its status and changes no unit, no
memory, no allotment, no collective handle and nothing of the module: only its number is given out and its reply written. -/
def Obligations.RefusedCommandsChangeNothing : Prop :=
  ∀ (s : State) c h i d r, cmdOf c = some (h, i) → unitDefOf c = some d → unhindered s c h = true → h.src ≠ .sideband →
    admitUnit s.taken c h i d = some r →
    ∃ t, exec c s = .next t ∧ t = refuseUnit s.taken s.lodge.nextId c h d r ∧ onlyReplied s t

/-- R37, R39, R40: the units a path and a member mask select. Reed `q`, with digits d1 to d5, is selected when each digit down to the
path's depth is the path's and its digit at the depth the mask filters at has its bit set. -/
def Obligations.SelectionFollowsPath : Prop :=
  ∀ (p : BitVec 24) (m : Option W64) (q : Nat), q < 2 ^ 20 → pathDepth p ≤ 5 →
    (∀ v, m = some v → pathDepth p < maskDepth p v ∧ maskDepth p v ≤ 5) →
    ((q / 4096 ∈ (selOf p m).sheaves ∧ q % 4096 ∈ (selOf p m).locals) ↔
      ∀ k, 1 ≤ k → k ≤ 5 →
        (k ≤ p.toNat / 2 ^ 21 → q / 16 ^ (5 - k) % 16 = p.toNat / 16 ^ (5 - k) % 16) ∧
        (∀ v, m = some v → k = (if v.toNat / 2 ^ 16 % 8 = 0 then p.toNat / 2 ^ 21 + 1 else v.toNat / 2 ^ 16 % 8) →
          v.toNat / 2 ^ (q / 16 ^ (5 - k) % 16) % 2 = 1))

/-- R45, R94, R95, R96, R113: a command for reeds that is carried out acts on exactly the selected, non-retired reeds whose state lets it act, and
on nothing else: START sets s0 to the path, s1 on to the parameters and clears `CYCLES` and `STALLS`; RESUME lets the stream go on;
UREG_WRITE writes one register and SP_WRITE the scratchpad; QUERY changes no reed. Every other reed, memory, the lofts and the
allotments are as they were; only sleeping network domains that its packets cross wake (R31, R428), and the eaves' links with them. -/
def Obligations.ReedCommandsAct : Prop :=
  ∀ (s : State) h c (f : Nat → Reed → Reed),
    (c = .query h ∧ f = fun _ x => x) ∨ (c = .resume h ∧ f = fun _ x => { x with st := .running }) ∨
    (∃ args, c = .start h args ∧ f = fun q x => { x with
      st := .running, slot := h.slot, cycles := 0, fullq := 0, portStalls := 0, ord := 0, ended := false, hold := .none,
      counting := true, regs := Vector.ofFn (fun (i : Fin 16) => if i.val = 0 then BitVec.ofNat 32 (reedPath q).toNat else (args[i.val - 1]?).getD 0) }) ∨
    (∃ n v, c = .uregWrite h n v ∧ f = fun _ x => x.writeReg n.toNat v.toNat) ∨
    (∃ o d, c = .spWrite h o d ∧ f = fun _ x => { x with sp := KMap.write x.sp o.toNat d }) →
    unitReady s c = true → ∃ t, exec c s = .next t ∧
      (∀ q, t.reed q = if actsOn s c q then f q (s.reed q) else s.reed q) ∧ t.mem = s.mem ∧ t.allots = s.allots ∧
      t.modColls = s.modColls ∧ t.pow.rest = s.pow.rest ∧ t.boot = s.boot ∧ t.fabric.address = s.fabric.address ∧
      ((∀ d : DieIx, s.pow.net[d] ≠ .sleeping ∧ s.pow.net[d] ≠ .powering) → t.eaves = s.eaves ∧ calledOnly s.pow.net t.pow.net) ∧
      ∀ g, (t.sheaf g).loft = (s.sheaf g).loft ∧ (t.sheaf g).power = (s.sheaf g).power

/-- R89, R98, R378, R391: MEM_FILL is in progress until its bytes are written. Its end, with no memory error met and no page of it held back for a
retirement, a die or a channel (R389, R439), has written its pattern over its
range, byte by byte, but for pages that failed in place, and no byte of memory outside the range and no unit has changed; before its end it
has changed none. -/
def Obligations.FillWritesItsRange : Prop :=
  (∀ (s : State) h (dev n pattern : W64), moduleReady s (.memFill h dev n pattern) = true → 64 ≤ n.toNat → n.toNat ≤ 64 * 2 ^ 30 →
    dev.toNat + n.toNat ≤ 1888 * 2 ^ 30 → dev.toNat % 64 = 0 → n.toNat % 64 = 0 → memScope s h dev.toNat (dev.toNat + n.toNat) = true →
    ∃ t o, exec (.memFill h dev n pattern) s = .next t ∧ t.sheaves = s.sheaves ∧ t.allots = s.allots ∧ t.boot = s.boot ∧ t.mem = s.mem ∧
      t.lodge.ops = s.lodge.ops ++ [o] ∧ o.cmd = .memFill h dev n pattern ∧ o.wait = .action) ∧
  (∀ (s : State) id o h (dev n pattern : W64), s.lodge.ops.find? (fun o => decide (o.id = id) && decide (o.wait = .action)) = some o →
    o.cmd = .memFill h dev n pattern → dev.toNat % 64 = 0 → n.toNat % 64 = 0 → memHeld s (sectorsOf dev.toNat n.toNat) = false →
    ∃ t, exec (.commandActionComplete id (.found [])) s = .next t ∧ t.sheaves = s.sheaves ∧ t.allots = s.allots ∧ t.boot = s.boot ∧
      (∀ a, a < dev.toNat ∨ dev.toNat + n.toNat ≤ a → KMap.get 0 t.mem.bytes a = KMap.get 0 s.mem.bytes a) ∧
      ∀ a, dev.toNat ≤ a → a < dev.toNat + n.toNat → sectorFailed s (a / 32) = false →
        KMap.get 0 t.mem.bytes a = BitVec.ofNat 8 (pattern.toNat / 256 ^ ((a - dev.toNat) % 8)))

/-- R57, R84, R85, Tables 3-1 and 4-2 to 4-13: the bytes of a packet spell its header and its command. The fields of a header, laid out as Table
3-1 lays them out, are read back; and so are the parameters of commands of every class, with the LENGTH they ask for and their
reserved bytes zero. -/
def Obligations.PacketsReadBack : Prop :=
  (∀ (priv opcode words flags : Nat) (path : BitVec 24) (allot : W16) (tag : W32) (rest : List Byte),
    priv < 16 → opcode < 2 ^ 16 → words < 2 ^ 16 → flags < 2 ^ 16 →
    rawHdr (leBytes 1 (1 + 16 * priv) ++ leBytes 2 opcode ++ leBytes 2 words ++ leBytes 3 path.toNat ++ leBytes 2 allot.toNat ++
      leBytes 2 flags ++ leBytes 4 tag.toNat ++ rest) =
      { version := 1, priv := priv, opcode := opcode, words := words, path := path, allot := allot, flags := flags, tag := tag }) ∧
  ∀ (h : Hdr) (a b : W16) (x y z : W32) (u v w : W64) (e f g : Byte) (k : Vector Byte 32),
    ∀ p ∈ [(0x0102, leBytes 2 a.toNat ++ leBytes 6 0, Instr.regRead h a, 3),
      (0x0103, leBytes 2 a.toNat ++ leBytes 6 0 ++ leBytes 8 u.toNat, .regWrite h a u, 4),
      (0x0105, leBytes 2 a.toNat ++ leBytes 6 0, .takeover h a, 3), (0x0201, [], .wake h, 2), (0x0203, [], .reset h, 2),
      (0x0206, leBytes 8 2 ++ leBytes 4 x.toNat ++ leBytes 4 y.toNat, .start h [x, y], 4),
      (0x020B, leBytes 2 a.toNat ++ leBytes 6 0 ++ leBytes 8 u.toNat, .uregWrite h a u, 4),
      (0x020C, leBytes 2 a.toNat ++ leBytes 2 b.toNat ++ leBytes 4 0, .spRead h a b, 3),
      (0x0301, leBytes 2 a.toNat ++ leBytes 6 0 ++ leBytes 8 u.toNat ++ leBytes 8 v.toNat, .memGrant h a u v, 5),
      (0x0303, [e] ++ leBytes 7 0 ++ leBytes 8 u.toNat ++ leBytes 8 v.toNat ++ leBytes 8 w.toNat, .hostDma h e u v w, 6),
      (0x0304, leBytes 8 u.toNat, .aperture h u, 3),
      (0x0305, leBytes 8 u.toNat ++ leBytes 8 v.toNat ++ leBytes 8 w.toNat, .memFill h u v w, 5),
      (0x0402, leBytes 4 x.toNat ++ leBytes 4 y.toNat, .loftRead h x y, 3),
      (0x0405, leBytes 2 a.toNat ++ leBytes 6 0, .tensorRelease h a, 3),
      (0x0507, leBytes 4 x.toNat ++ leBytes 4 0, .routeQuery h x, 3),
      (0x0602, leBytes 2 a.toNat ++ leBytes 2 b.toNat ++ leBytes 4 0 ++ leBytes 4 x.toNat ++ leBytes 4 0, .collBackup h a b x, 4),
      (0x0604, leBytes 2 a.toNat ++ leBytes 2 0 ++ leBytes 4 x.toNat, .collCommit h a x, 3),
      (0x0702, [e, f] ++ leBytes 2 0 ++ leBytes 4 x.toNat ++ leBytes 4 y.toNat ++ leBytes 4 z.toNat, .wvConfig h e f x y z, 4),
      (0x0704, leBytes 8 u.toNat ++ leBytes 8 v.toNat, .rngKey h u v, 4),
      (0x0803, [e, f, g] ++ leBytes 5 0, .laserSwap h e f g, 3), (0x0902, leBytes 2 a.toNat ++ leBytes 6 0, .dvfsSet h a, 3),
      (0x0A06, k.toList, .keyRotate h k.toList, 6), (0x0A09, leBytes 4 x.toNat ++ leBytes 4 0, .journalRead h x, 3)],
      parseCmd h p.2.1 p.1 = some { cmd := p.2.2.1, words := p.2.2.2, clean := true }

/-- R74, R86: a module command whose minimum class is admin or owner, sent in job class from a host port, changes nothing: an earlier form check
names its status, else it is `NO_PRIVILEGE`, as it is for ECC_READ with CLEAR 0, POWER_CAP of 400 W, JOURNAL_READ and REPAIR_COMMIT. -/
def Obligations.JobClassGetsNoPrivilege : Prop :=
  ∀ (s : State) c h i p, cmdOf c = some (h, i) → unitDefOf c = none → h.src = .port p → h.priv = 0 → 1 ≤ i.minClass →
    unhindered s c h = true → headerBad h i = false → c.wf = true → h.path = 0 → h.mask = none →
    ∃ t st, exec c s = .next t ∧ t = moduleOutcome s s.taken c st [] ∧ onlyReplied s t ∧
      (st = .noPrivilege ∨ st = .badParam ∨ st = .alignFault ∨ st = .engineFused) ∧
      (c ∈ [.eccRead h 0, .powerCap h 400, .repairCommit h] ∨ (∃ n, c = .journalRead h n) → st = .noPrivilege)
end

