-- ==== Sys2Proof/Laws/Store.lean ====
section
/-!
SUPPORT. Laws of the sorted stores: reading back a write, what a write leaves alone, and that every operation keeps the
canonical form.
-/

namespace Sys2Proof

variable {α : Type}

/-! ### Reading back -/

theorem KMap.look_ins_self (m : KMap α) (k : Nat) (v : α) : KMap.look (KMap.ins m k v) k = some v := by
  induction m with
  | nil => simp [KMap.ins, KMap.look]
  | cons e t ih =>
    obtain ⟨k', v'⟩ := e
    simp only [KMap.ins]
    split
    · simp [KMap.look]
    · split
      · simp [KMap.look]
      · simp [KMap.look, *]

theorem KMap.look_ins_ne (m : KMap α) (k j : Nat) (v : α) (h : j ≠ k) :
    KMap.look (KMap.ins m k v) j = KMap.look m j := by
  induction m with
  | nil => simp [KMap.ins, KMap.look, Ne.symm h]
  | cons e t ih =>
    obtain ⟨k', v'⟩ := e
    simp only [KMap.ins]
    split
    · simp [KMap.look, Ne.symm h]
    · split
      · next h' => subst h'; simp [KMap.look, Ne.symm h]
      · simp [KMap.look, ih]

theorem KMap.look_del_self (m : KMap α) (k : Nat) : KMap.look (KMap.del m k) k = none := by
  induction m with
  | nil => rfl
  | cons e t ih =>
    obtain ⟨k', v'⟩ := e
    simp only [KMap.del]
    split
    · exact ih
    · simp [KMap.look, *]

theorem KMap.look_del_ne (m : KMap α) (k j : Nat) (h : j ≠ k) : KMap.look (KMap.del m k) j = KMap.look m j := by
  induction m with
  | nil => rfl
  | cons e t ih =>
    obtain ⟨k', v'⟩ := e
    simp only [KMap.del]
    split
    · next h' => subst h'; simp [KMap.look, ih, Ne.symm h]
    · simp [KMap.look, ih]

/-- A store reads back at the key written. -/
@[simp] theorem KMap.get_put_self [DecidableEq α] (d : α) (m : KMap α) (k : Nat) (v : α) :
    KMap.get d (KMap.put d m k v) k = v := by
  unfold KMap.get KMap.put
  split
  · next h => simp [KMap.look_del_self, h]
  · simp [KMap.look_ins_self]

/-- A store leaves every other key alone. -/
theorem KMap.get_put_ne [DecidableEq α] (d : α) (m : KMap α) (k j : Nat) (v : α) (h : j ≠ k) :
    KMap.get d (KMap.put d m k v) j = KMap.get d m j := by
  unfold KMap.get KMap.put
  split
  · rw [KMap.look_del_ne m k j h]
  · rw [KMap.look_ins_ne m k j v h]

/-- A write of a byte string leaves every byte outside it alone. -/
theorem KMap.get_write_out (m : KMap Byte) (a : Nat) (bs : List Byte) (j : Nat) (h : j < a ∨ a + bs.length ≤ j) :
    KMap.get 0 (KMap.write m a bs) j = KMap.get 0 m j := by
  induction bs generalizing m a with
  | nil => rfl
  | cons b t ih =>
    simp only [List.length_cons] at h
    rw [KMap.write, ih _ _ (by omega), KMap.get_put_ne _ _ _ _ _ (by omega)]

/-- A write of a byte string reads back. -/
theorem KMap.get_write_in (m : KMap Byte) (a : Nat) (bs : List Byte) (i : Nat) (h : i < bs.length) :
    KMap.get 0 (KMap.write m a bs) (a + i) = bs[i] := by
  induction bs generalizing m a i with
  | nil => simp at h
  | cons b t ih =>
    cases i with
    | zero =>
      rw [KMap.write, KMap.get_write_out _ _ _ _ (by omega)]
      simp
    | succ i =>
      have := ih (KMap.put 0 m a b) (a + 1) i (by simpa using h)
      rw [KMap.write, show a + (i + 1) = a + 1 + i by omega, this]
      simp

/-! ### The canonical form -/

@[simp] theorem KMap.wf_nil [DecidableEq α] (d : α) : KMap.wf d ([] : KMap α) = true := rfl

/-- The canonical form of a store with a first entry, said once. -/
theorem KMap.wf_cons [DecidableEq α] (d : α) (k : Nat) (v : α) (t : KMap α) :
    KMap.wf d ((k, v) :: t) = true ↔ v ≠ d ∧ (∀ e ∈ t, k < e.1) ∧ KMap.wf d t = true := by
  induction t generalizing k v with
  | nil => simp [KMap.wf]
  | cons e t ih =>
    obtain ⟨k', v'⟩ := e
    simp only [KMap.wf, Bool.and_eq_true, decide_eq_true_eq]
    constructor
    · rintro ⟨⟨hk, hv⟩, ht⟩
      refine ⟨hv, ?_, ht⟩
      intro e he
      rcases List.mem_cons.1 he with h | h
      · subst h; exact hk
      · exact Nat.lt_trans hk (((ih k' v').1 ht).2.1 e h)
    · rintro ⟨hv, hk, ht⟩
      exact ⟨⟨hk (k', v') (by simp), hv⟩, ht⟩

theorem KMap.mem_ins (m : KMap α) (k : Nat) (v : α) (e : Nat × α) (h : e ∈ KMap.ins m k v) : e = (k, v) ∨ e ∈ m := by
  induction m with
  | nil => simpa [KMap.ins] using h
  | cons x t ih =>
    obtain ⟨k', v'⟩ := x
    simp only [KMap.ins] at h
    split at h
    · simpa using h
    · split at h
      · rcases List.mem_cons.1 h with h | h
        · exact .inl h
        · exact .inr (List.mem_cons_of_mem _ h)
      · rcases List.mem_cons.1 h with h | h
        · exact .inr (h ▸ List.mem_cons_self)
        · exact (ih h).imp id (List.mem_cons_of_mem _)

theorem KMap.mem_del (m : KMap α) (k : Nat) (e : Nat × α) (h : e ∈ KMap.del m k) : e ∈ m := by
  induction m with
  | nil => exact h
  | cons x t ih =>
    obtain ⟨k', v'⟩ := x
    simp only [KMap.del] at h
    split at h
    · exact List.mem_cons_of_mem _ (ih h)
    · rcases List.mem_cons.1 h with h | h
      · exact h ▸ List.mem_cons_self
      · exact List.mem_cons_of_mem _ (ih h)

theorem KMap.wf_ins [DecidableEq α] (d : α) (m : KMap α) (k : Nat) (v : α) (hv : v ≠ d) (h : KMap.wf d m = true) :
    KMap.wf d (KMap.ins m k v) = true := by
  induction m with
  | nil => simp [KMap.ins, KMap.wf, hv]
  | cons x t ih =>
    obtain ⟨k', v'⟩ := x
    have hc := (KMap.wf_cons d k' v' t).1 h
    simp only [KMap.ins]
    split
    · next hk =>
      refine (KMap.wf_cons ..).2 ⟨hv, ?_, h⟩
      intro e he
      rcases List.mem_cons.1 he with h' | h'
      · subst h'; exact hk
      · exact Nat.lt_trans hk (hc.2.1 e h')
    · split
      · next hk => subst hk; exact (KMap.wf_cons ..).2 ⟨hv, hc.2⟩
      · refine (KMap.wf_cons ..).2 ⟨hc.1, ?_, ih hc.2.2⟩
        intro e he
        rcases KMap.mem_ins t k v e he with h' | h'
        · subst h'; simp only; omega
        · exact hc.2.1 e h'

theorem KMap.wf_del [DecidableEq α] (d : α) (m : KMap α) (k : Nat) (h : KMap.wf d m = true) :
    KMap.wf d (KMap.del m k) = true := by
  induction m with
  | nil => rfl
  | cons x t ih =>
    obtain ⟨k', v'⟩ := x
    have hc := (KMap.wf_cons d k' v' t).1 h
    simp only [KMap.del]
    split
    · exact ih hc.2.2
    · exact (KMap.wf_cons ..).2 ⟨hc.1, fun e he => hc.2.1 e (KMap.mem_del t k e he), ih hc.2.2⟩

/-- A store operation keeps the canonical form. -/
@[simp] theorem KMap.wf_put [DecidableEq α] (d : α) (m : KMap α) (k : Nat) (v : α) (h : KMap.wf d m = true) :
    KMap.wf d (KMap.put d m k v) = true := by
  unfold KMap.put
  split
  · exact KMap.wf_del d m k h
  · next hv => exact KMap.wf_ins d m k v hv h

/-- A write of a byte string keeps the canonical form. -/
@[simp] theorem KMap.wf_write (m : KMap Byte) (a : Nat) (bs : List Byte) (h : KMap.wf 0 m = true) :
    KMap.wf 0 (KMap.write m a bs) = true := by
  induction bs generalizing m a with
  | nil => exact h
  | cons b t ih => exact ih _ _ (KMap.wf_put 0 m a b h)

/-- A write with enables keeps the canonical form. -/
@[simp] theorem KMap.wf_writeMasked (m : KMap Byte) (a : Nat) (bs : List (Option Byte)) (h : KMap.wf 0 m = true) :
    KMap.wf 0 (KMap.writeMasked m a bs) = true := by
  induction bs generalizing m a with
  | nil => exact h
  | cons b t ih =>
    cases b with
    | none => exact ih _ _ h
    | some b => exact ih _ _ (KMap.wf_put 0 m a b h)

/-- Stores made one after another keep the canonical form. -/
theorem KMap.wf_foldl [DecidableEq α] {β : Type} (d : α) (l : List β) (f : KMap α → β → KMap α) (m : KMap α)
    (h : KMap.wf d m = true) (hf : ∀ m b, KMap.wf d m = true → KMap.wf d (f m b) = true) :
    KMap.wf d (l.foldl f m) = true := by
  induction l generalizing m with
  | nil => exact h
  | cons b t ih => exact ih _ (hf m b h)

end Sys2Proof
end

