-- ==== Sys2Proof/Laws/Keep.lean ====
section
/-!
SUPPORT. The invariant under record updates and folds: the base of the Keep files, which say of every operation of the
model that it keeps the invariant.
-/

namespace Sys2Proof.Machine

variable {adr : W32 × Bool}

/-- Whether a fabric address is the one kept. -/
def addressIs (adr : W32 × Bool) (a : W32) : Bool := decide (a = adr.1)

/-- `weightsOk`, where it is asked. -/
def weightsAt (adr : W32 × Bool) (t : W32) : Bool := !adr.2 || weightsOk t

/-- `Memory.wf`, where it is asked. -/
def wfAt (adr : W32 × Bool) (bytes : KMap Byte) : Bool := !adr.2 || Memory.wf bytes

/-- What every step but POWER_ON keeps (R312): the fabric address is `adr.1`, and, where `adr.2` asks for it, the rest of the invariant
holds. -/
def InvAt (adr : W32 × Bool) (s : State) : Prop :=
  weightsAt adr s.tcweight = true ∧ addressIs adr s.fabric.address = true ∧ wfAt adr s.mem.bytes = true

theorem Inv.at {s : State} (h : Inv s) : InvAt (s.fabric.address, true) s :=
  ⟨by simpa [weightsAt] using h.1, by simp [addressIs], by simpa [wfAt] using h.2.2⟩

/-- The address alone, of any state. -/
theorem InvAt.here (s : State) : InvAt (s.fabric.address, false) s := ⟨rfl, by simp [addressIs], rfl⟩

theorem InvAt.address {s : State} (h : InvAt adr s) : s.fabric.address = adr.1 := by simpa [addressIs] using h.2.1

theorem InvAt.inv {t : State} {a : W32} (h : InvAt (a, true) t) (ha : addressOk a = true) : Inv t :=
  ⟨by simpa [weightsAt] using h.1, by rw [h.address]; exact ha, by simpa [wfAt] using h.2.2⟩

theorem weightsAt_of {t : W32} (h : weightsOk t = true) : weightsAt adr t = true := by simp [weightsAt, h]

theorem wfAt_map {a b : KMap Byte} (f : Memory.wf a = true → Memory.wf b = true) (h : wfAt adr a = true) : wfAt adr b = true := by
  cases hb : adr.2 <;> simp_all [wfAt]

@[simp] theorem wfAt_nil : wfAt adr [] = true := by simp [wfAt, Memory.wf, KMap.wf]

@[simp] theorem InvAt.tc {s : State} (h : InvAt adr s) : weightsAt adr s.tcweight = true := h.1
@[simp] theorem InvAt.addr {s : State} (h : InvAt adr s) : addressIs adr s.fabric.address = true := h.2.1
@[simp] theorem InvAt.mem {s : State} (h : InvAt adr s) : wfAt adr s.mem.bytes = true := h.2.2

theorem InvAt.of_eq {s t : State} (h : InvAt adr s) (h1 : t.tcweight = s.tcweight) (h2 : t.fabric.address = s.fabric.address)
    (h3 : t.mem.bytes = s.mem.bytes) : InvAt adr t := by unfold InvAt at *; rw [h1, h2, h3]; exact h

@[simp] theorem inv_mk {a1 a2 a3 a4 a5 a6 a7 a8 a9 a10 a11 a12 a13 a14 a15 a16 a17 a18 : _} :
  InvAt adr (State.mk a1 a2 a3 a4 a5 a6 a7 a8 a9 a10 a11 a12 a13 a14 a15 a16 a17 a18) ↔
    (weightsAt adr a5 = true ∧ addressIs adr a15.address = true ∧ wfAt adr a14.bytes = true) := Iff.rfl

@[simp] theorem inv_ite {c : Prop} [Decidable c] {a b : State} (ha : c → InvAt adr a) (hb : ¬ c → InvAt adr b) : InvAt adr
    (if c then a else b) := by
  split
  · exact ha ‹_›
  · exact hb ‹_›

@[simp] theorem inv_foldl {α : Type} (l : List α) (f : State → α → State) (s : State) (h : InvAt adr s)
    (hf : ∀ s a, InvAt adr s → InvAt adr (f s a)) : InvAt adr (l.foldl f s) := by
  induction l generalizing s with
  | nil => exact h
  | cons a t ih => exact ih _ (hf _ _ h)

@[simp] theorem inv_foldl1 {α β : Type} (l : List α) (f : State × β → α → State × β) (s : State × β) (h : InvAt adr s.1)
    (hf : ∀ s a, InvAt adr s.1 → InvAt adr (f s a).1) : InvAt adr (l.foldl f s).1 := by
  induction l generalizing s with
  | nil => exact h
  | cons a t ih => exact ih _ (hf _ _ h)

@[simp] theorem inv_foldl2 {α β : Type} (l : List α) (f : β × State → α → β × State) (s : β × State) (h : InvAt adr s.2)
    (hf : ∀ s a, InvAt adr s.2 → InvAt adr (f s a).2) : InvAt adr (l.foldl f s).2 := by
  induction l generalizing s with
  | nil => exact h
  | cons a t ih => exact ih _ (hf _ _ h)

/-- What a unit command does on a sheaf keeps the invariant. -/
def Keeps (adr : W32 × Bool) (d : UnitDef) : Prop := ∀ s g ls, InvAt adr s → InvAt adr (d.act s g ls).state

@[simp] theorem Keeps.state {d : UnitDef} (h : Keeps adr d) {s : State} {g : Nat} {ls : List Nat} (hs : InvAt adr s) :
    InvAt adr (d.act s g ls).state := h s g ls hs

theorem InvAt.fst_eq {β : Type} {p : State × β} {a : State} {b : β} (h : p = (a, b)) (hp : InvAt adr p.1) : InvAt adr a := by
  rw [h] at hp; exact hp

theorem InvAt.snd_eq {β : Type} {p : β × State} {a : β} {b : State} (h : p = (a, b)) (hp : InvAt adr p.2) : InvAt adr b := by
  rw [h] at hp; exact hp

end Sys2Proof.Machine
end

