-- ==== Sys2Proof/Laws/KeepOps.lean ====
section
/-!
SUPPORT. The operations of Machine/Ops.lean keep the invariant.
-/

namespace Sys2Proof.Machine

variable {adr : W32 × Bool}

set_option linter.unusedTactic false
set_option linter.unreachableTactic false

@[simp] theorem inv_State_setPort (s : State) (p : PortIx) (x : Port) (hG : InvAt adr s) : InvAt adr (State.setPort s p x) := by
  unfold State.setPort
  (repeat' split) <;> first | (with_reducible assumption) | simp +contextual (maxDischargeDepth := 40) [*]

@[simp] theorem inv_State_modPort (s : State) (p : PortIx) (f : Port → Port) (hG : InvAt adr s) : InvAt adr (State.modPort s p f)
    := by
  unfold State.modPort
  simp +contextual (maxDischargeDepth := 40) [*]

@[simp] theorem inv_State_setSheaf (s : State) (g : Nat) (x : Sheaf) (hG : InvAt adr s) : InvAt adr (State.setSheaf s g x) := by
  unfold State.setSheaf
  simp +contextual (maxDischargeDepth := 40) [*]

@[simp] theorem inv_State_modSheaf (s : State) (g : Nat) (f : Sheaf → Sheaf) (hG : InvAt adr s) : InvAt adr (State.modSheaf s g f)
    := by
  unfold State.modSheaf
  simp +contextual (maxDischargeDepth := 40) [*]

@[simp] theorem inv_State_setReed (s : State) (r : Nat) (x : Reed) (hG : InvAt adr s) : InvAt adr (State.setReed s r x) := by
  unfold State.setReed
  simp +contextual (maxDischargeDepth := 40) [*]

@[simp] theorem inv_State_modReed (s : State) (r : Nat) (f : Reed → Reed) (hG : InvAt adr s) : InvAt adr (State.modReed s r f) := by
  unfold State.modReed
  simp +contextual (maxDischargeDepth := 40) [*]

@[simp] theorem inv_State_fresh (s : State) (hG : InvAt adr s) : InvAt adr (State.fresh s).2 := by
  unfold State.fresh
  simp +contextual (maxDischargeDepth := 40) [*]

@[simp] theorem inv_State_callDies (s : State) (l : List Nat) (hG : InvAt adr s) : InvAt adr (State.callDies s l) := by
  unfold State.callDies
  simp +contextual (maxDischargeDepth := 40) [*]

@[simp] theorem inv_State_event (s : State) (e : Ev) (hG : InvAt adr s) : InvAt adr (State.event s e) := by
  unfold State.event
  simp +contextual (maxDischargeDepth := 40) [*]

@[simp] theorem inv_State_eventTo (s : State) (p : PortIx) (e : Ev) (hG : InvAt adr s) : InvAt adr (State.eventTo s p e) := by
  unfold State.eventTo
  simp +contextual (maxDischargeDepth := 40) [*]

@[simp] theorem inv_State_moduleEvent (s : State) (opcode group : Nat) (st : Status) (detail : List Byte) (hG : InvAt adr s) :
    InvAt adr (State.moduleEvent s opcode group st detail) := by
  unfold State.moduleEvent
  simp +contextual (maxDischargeDepth := 40) [*]

@[simp] theorem inv_State_journalAdd (s : State) (type : Nat) (st : Status) (body : List Byte) (hG : InvAt adr s) : InvAt adr
    (State.journalAdd s type st body).1 := by
  unfold State.journalAdd
  simp +contextual (maxDischargeDepth := 40) [*]

@[simp] theorem inv_State_journalSecurity (s : State) (type : Nat) (st : Status) (body : List Byte) (hG : InvAt adr s) : InvAt adr
    (State.journalSecurity s type st body) := by
  unfold State.journalSecurity
  simp +contextual (maxDischargeDepth := 40) [*]

@[simp] theorem inv_State_freshBytes (s : State) (n : Nat) (hG : InvAt adr s) : InvAt adr (State.freshBytes s n).2 := by
  unfold State.freshBytes
  simp +contextual (maxDischargeDepth := 40) [*]

end Sys2Proof.Machine
end

