-- ==== Sys2Proof/Laws/KeepTopo.lean ====
section
/-!
SUPPORT. The operations of Machine/Topo.lean keep the invariant.
-/

namespace Sys2Proof.Machine

variable {adr : W32 × Bool}

set_option linter.unusedTactic false
set_option linter.unreachableTactic false

@[simp] theorem inv_State_modTx (s : State) (ch : Nat) (f : TxChan → TxChan) (hG : InvAt adr s) : InvAt adr (State.modTx s ch f) :=
    by
  unfold State.modTx
  simp +contextual (maxDischargeDepth := 40) [*]

@[simp] theorem inv_State_modRx (s : State) (ch : Nat) (f : RxChan → RxChan) (hG : InvAt adr s) : InvAt adr (State.modRx s ch f) :=
    by
  unfold State.modRx
  simp +contextual (maxDischargeDepth := 40) [*]

@[simp] theorem inv_State_modEave (s : State) (e : Nat) (f : Eave → Eave) (hG : InvAt adr s) : InvAt adr (State.modEave s e f) := by
  unfold State.modEave
  simp +contextual (maxDischargeDepth := 40) [*]

@[simp] theorem inv_State_judgeSideband (s : State) (hG : InvAt adr s) : InvAt adr (State.judgeSideband s) := by
  unfold State.judgeSideband
  simp +contextual (maxDischargeDepth := 40) [*]

end Sys2Proof.Machine
end

