-- ==== Sys2Proof/Laws/KeepMem.lean ====
section
/-!
SUPPORT. The operations of Machine/Mem.lean keep the invariant.
-/

namespace Sys2Proof.Machine

variable {adr : W32 × Bool}

set_option linter.unusedTactic false
set_option linter.unreachableTactic false

@[simp] theorem inv_State_modChan (s : State) (ch : Nat) (f : MemChan → MemChan) (hG : InvAt adr s) : InvAt adr
    (State.modChan s ch f) := by
  unfold State.modChan
  simp +contextual (maxDischargeDepth := 40) [*]

@[simp] theorem inv_State_fillCaches (s : State) (secs : List Nat) (hG : InvAt adr s) : InvAt adr (State.fillCaches s secs) := by
  unfold State.fillCaches
  simp +contextual (maxDischargeDepth := 40) [*]

@[simp] theorem inv_State_poisonSector (s : State) (n : Nat) (hG : InvAt adr s) : InvAt adr (State.poisonSector s n) := by
  unfold State.poisonSector
  simp +contextual (maxDischargeDepth := 40) [*]

@[simp] theorem inv_State_cleanSector (s : State) (n : Nat) (hG : InvAt adr s) : InvAt adr (State.cleanSector s n) := by
  unfold State.cleanSector
  simp +contextual (maxDischargeDepth := 40) [*]

@[simp] theorem inv_eccEvent (s : State) (kind addr ch page source : Nat) (sectors : W64) (count : Nat) (path : BitVec 24)
    (hG : InvAt adr s) : InvAt adr (eccEvent s kind addr ch page source sectors count path) := by
  unfold eccEvent
  simp +contextual (maxDischargeDepth := 40) [*]

@[simp] theorem inv_eccCoalesce (s : State) (kind source : Nat) (path : BitVec 24) (n : Nat) (hG : InvAt adr s) : InvAt adr
    (eccCoalesce s kind source path n) := by
  unfold eccCoalesce
  simp +contextual (maxDischargeDepth := 40) [*]

@[simp] theorem inv_failPage (s : State) (ch p source : Nat) (path : BitVec 24) (hG : InvAt adr s) : InvAt adr
    (failPage s ch p source path) := by
  unfold failPage
  simp +contextual (maxDischargeDepth := 40) [*]

@[simp] theorem inv_retirePage (s : State) (ch p source : Nat) (path : BitVec 24) (hG : InvAt adr s) : InvAt adr
    (retirePage s ch p source path) := by
  unfold retirePage
  simp +contextual (maxDischargeDepth := 40) [*]

@[simp] theorem inv_correctedError (s : State) (source : Nat) (path : BitVec 24) (n : Nat) (hG : InvAt adr s) : InvAt adr
    (correctedError s source path n) := by
  unfold correctedError
  simp +contextual (maxDischargeDepth := 40) [*]

@[simp] theorem inv_uncorrectableError (s : State) (source : Nat) (path : BitVec 24) (n : Nat) (hG : InvAt adr s) : InvAt adr
    (uncorrectableError s source path n) := by
  unfold uncorrectableError
  simp +contextual (maxDischargeDepth := 40) [*]

@[simp] theorem inv_rowFailureError (s : State) (source : Nat) (path : BitVec 24) (n : Nat) (spared : List Nat) (hG : InvAt adr s)
    : InvAt adr (rowFailureError s source path n spared) := by
  unfold rowFailureError
  simp +contextual (maxDischargeDepth := 40) [*]

@[simp] theorem inv_State_storeBytes (s : State) (ws : List (Nat × Byte)) (hG : InvAt adr s) : InvAt adr (State.storeBytes s ws) :=
    by
  exact ⟨hG.tc, hG.addr, wfAt_map (fun h0 => KMap.wf_foldl 0 ws _ _ h0 (fun m b h => KMap.wf_put 0 m b.1 b.2 h)) hG.mem⟩

@[simp] theorem inv_State_misread (s : State) (n : Nat) (data : List Byte) (hG : InvAt adr s) : InvAt adr (State.misread s n data)
    := by
  unfold State.misread
  simp +contextual (maxDischargeDepth := 40) [*]

@[simp] theorem inv_applyErr (s : State) (source : Nat) (path : BitVec 24) (spared : List Nat) (e : MemErr) (hG : InvAt adr s) :
    InvAt adr (applyErr s source path spared e) := by
  unfold applyErr
  (repeat' split) <;> first | (with_reducible assumption) | simp +contextual (maxDischargeDepth := 40) [*]

@[simp] theorem inv_State_wakeChans (s : State) (secs : List Nat) (hG : InvAt adr s) : InvAt adr (State.wakeChans s secs) := by
  unfold State.wakeChans
  simp +contextual (maxDischargeDepth := 40) [*]

@[simp] theorem inv_touchSectors (s : State) (source : Nat) (path : BitVec 24) (secs : List Nat) (errs : List MemErr)
    (hG : InvAt adr s) : InvAt adr (touchSectors s source path secs errs) := by
  unfold touchSectors
  simp +contextual (maxDischargeDepth := 40) [*]

@[simp] theorem inv_writeChecks (s : State) (source : Nat) (path : BitVec 24) (ws : List (Nat × Byte)) (errs : List MemErr)
    (hG : InvAt adr s) : InvAt adr (writeChecks s source path ws errs) := by
  unfold writeChecks
  simp +contextual (maxDischargeDepth := 40) [*]

@[simp] theorem inv_writeLands (s : State) (ws : List (Nat × Byte)) (hG : InvAt adr s) : InvAt adr (writeLands s ws) := by
  unfold writeLands
  simp +contextual (maxDischargeDepth := 40) [*]

@[simp] theorem inv_memWrite (s : State) (source : Nat) (path : BitVec 24) (ws : List (Nat × Byte)) (errs : List MemErr)
    (hG : InvAt adr s) : InvAt adr (memWrite s source path ws errs) := by
  unfold memWrite
  simp +contextual (maxDischargeDepth := 40) [*]

@[simp] theorem inv_memWriteRange (s : State) (source : Nat) (path : BitVec 24) (lo : Nat) (bs : List Byte) (errs : List MemErr)
    (hG : InvAt adr s) : InvAt adr (memWriteRange s source path lo bs errs) := by
  unfold memWriteRange
  simp +contextual (maxDischargeDepth := 40) [*]

@[simp] theorem inv_wholeChecks (s : State) (lo n : Nat) (errs : List MemErr) (hG : InvAt adr s) : InvAt adr
    (wholeChecks s lo n errs) := by
  unfold wholeChecks
  simp +contextual (maxDischargeDepth := 40) [*]

@[simp] theorem inv_wholeLands (s : State) (lo : Nat) (bs : List Byte) (hG : InvAt adr s) : InvAt adr (wholeLands s lo bs) := by
  unfold wholeLands
  simp +contextual (maxDischargeDepth := 40) [*]

@[simp] theorem inv_memWriteWhole (s : State) (lo : Nat) (bs : List Byte) (errs : List MemErr) (hG : InvAt adr s) : InvAt adr
    (memWriteWhole s lo bs errs) := by
  unfold memWriteWhole
  simp +contextual (maxDischargeDepth := 40) [*]

end Sys2Proof.Machine
end

