-- ==== Sys2Proof/Laws/KeepLoft.lean ====
section
/-!
SUPPORT. The operations of Machine/Loft.lean keep the invariant.
-/

namespace Sys2Proof.Machine

variable {adr : W32 × Bool}

set_option linter.unusedTactic false
set_option linter.unreachableTactic false

@[simp] theorem inv_State_modModColl (s : State) (a h : W16) (f : ModColl → ModColl) (hG : InvAt adr s) : InvAt adr
    (State.modModColl s a h f) := by
  unfold State.modModColl
  simp +contextual (maxDischargeDepth := 40) [*]

@[simp] theorem inv_State_noteOcc (s : State) (a h : W16) (kind bucket rank n : Nat) (late : W32) (hG : InvAt adr s) : InvAt adr
    (State.noteOcc s a h kind bucket rank n late) := by
  unfold State.noteOcc
  simp +contextual (maxDischargeDepth := 40) [*]

@[simp] theorem inv_State_loftStore (s : State) (g who : Nat) (slot : Option (BitVec 4)) (ws : List (Nat × Byte))
    (hG : InvAt adr s) : InvAt adr (State.loftStore s g who slot ws) := by
  unfold State.loftStore
  simp +contextual (maxDischargeDepth := 40) [*]

end Sys2Proof.Machine
end

