-- ==== Sys2Proof/Laws/KeepChannel.lean ====
section
/-!
SUPPORT. The operations of Machine/Channel.lean keep the invariant.
-/

namespace Sys2Proof.Machine

variable {adr : W32 × Bool}

set_option linter.unusedTactic false
set_option linter.unreachableTactic false

@[simp] theorem inv_State_record (s : State) (m : OutMsg) (hG : InvAt adr s) : InvAt adr (State.record s m) := by
  unfold State.record
  simp +contextual (maxDischargeDepth := 40) [*]

@[simp] theorem inv_txFrame (s : State) (ch : Nat) (f : LinkFrame) (hG : InvAt adr s) : InvAt adr (txFrame s ch f) := by
  unfold txFrame
  simp +contextual (maxDischargeDepth := 40) [*]

@[simp] theorem inv_answerLink (s : State) (ch : Nat) (nack park : Bool) (credit : Nat) (cvl : Byte) (hG : InvAt adr s) : InvAt adr
    (answerLink s ch nack park credit cvl) := by
  unfold answerLink
  dsimp only
  generalize (if ch < 5 then some ch else _ : Option Nat) = out
  cases out with
  | none => exact hG
  | some o => exact inv_State_record _ _ hG

@[simp] theorem inv_creditBack (s : State) (f : LinkFrame) (w0 : Option (Nat × Byte)) (hG : InvAt adr s) : InvAt adr
    (creditBack s f w0) := by
  unfold creditBack
  (repeat' split) <;> first | (with_reducible assumption) | simp +contextual (maxDischargeDepth := 40) [*]

@[simp] theorem inv_spendRound (s : State) (course : Nat) (peer : W32) (cls : Nat) (hG : InvAt adr s) : InvAt adr
    (spendRound s course peer cls) := by
  unfold spendRound
  simp +contextual (maxDischargeDepth := 40) [*]

@[simp] theorem inv_launch (s : State) (course : Nat) (peer : W32) (q : QFrame) (ch : Nat) (hG : InvAt adr s) : InvAt adr
    (launch s course peer q ch) := by
  unfold launch
  simp +contextual (maxDischargeDepth := 40) [*]

@[simp] theorem inv_serve (w0 : Nat) (w1 : State) (w2 : Nat) (w3 : W32) (hG : InvAt adr w1) : InvAt adr (serve w0 w1 w2 w3) := by
  induction w0 generalizing w1 with
  | zero => exact hG
  | succ n ih =>
    unfold serve
    split
    · exact ih _ (inv_launch _ _ _ _ _ hG)
    · exact hG

@[simp] theorem inv_serveBundle (s : State) (course : Nat) (peer : W32) (hG : InvAt adr s) : InvAt adr (serveBundle s course peer)
    := by
  unfold serveBundle
  simp +contextual (maxDischargeDepth := 40) [*]

@[simp] theorem inv_serveChan (s : State) (ch : Nat) (hG : InvAt adr s) : InvAt adr (serveChan s ch) := by
  unfold serveChan
  (repeat' split) <;> first | (with_reducible assumption) | simp +contextual (maxDischargeDepth := 40) [*]

@[simp] theorem inv_queueFrame (s : State) (course : Nat) (peer : W32) (q : QFrame) (hG : InvAt adr s) : InvAt adr
    (queueFrame s course peer q) := by
  unfold queueFrame
  simp +contextual (maxDischargeDepth := 40) [*]

@[simp] theorem inv_serveEave (s : State) (e : Nat) (hG : InvAt adr s) : InvAt adr (serveEave s e) := by
  unfold serveEave
  simp +contextual (maxDischargeDepth := 40) [*]

@[simp] theorem inv_wakeNet (s : State) (d : Nat) (hG : InvAt adr s) : InvAt adr (wakeNet s d) := by
  unfold wakeNet
  simp +contextual (maxDischargeDepth := 40) [*]

@[simp] theorem inv_wakeRoute (s : State) (d : Nat) (hG : InvAt adr s) : InvAt adr (wakeRoute s d) := by
  unfold wakeRoute
  simp +contextual (maxDischargeDepth := 40) [*]

theorem inv_sendOn (s : State) (old : Option (Nat × W32)) (q : QFrame) (hG : InvAt adr s) : ∀ t, (sendOn s old q) = some t → InvAt
    adr t := by
  intro t ht
  unfold sendOn at ht
  dsimp only at ht
  split at ht
  · split at ht
    · cases ht
      exact inv_queueFrame _ _ _ _ hG
    · cases ht
  · cases ht

@[simp] theorem inv_waitFrame (s : State) (q : QFrame) (hG : InvAt adr s) : InvAt adr (waitFrame s q) := by
  unfold waitFrame
  simp +contextual (maxDischargeDepth := 40) [*]

@[simp] theorem inv_takeMsg (s : State) (ftype : Byte) (hG : InvAt adr s) : InvAt adr (takeMsg s ftype).2 := by
  unfold takeMsg
  simp +contextual (maxDischargeDepth := 40) [*]

theorem inv_sendOn_getD (s u : State) (old : Option (Nat × W32)) (q : QFrame) (hG : InvAt adr s) (hU : InvAt adr u) :
    InvAt adr ((sendOn s old q).getD u) := by
  cases h : sendOn s old q with
  | none => exact hU
  | some t => exact inv_sendOn _ _ _ hG _ h

@[simp] theorem inv_postMsg (s : State) (allot : W16) (dest : W32) (ftype : Byte) (cls : Nat) (bs : List Byte) (hG : InvAt adr s) :
    InvAt adr (postMsg s allot dest ftype cls bs) := by
  unfold postMsg
  split
  · exact hG
  · exact inv_foldl _ _ _ (inv_takeMsg _ _ hG) (fun s p hs => inv_sendOn_getD _ _ _ _ hs (inv_waitFrame _ _ hs))

@[simp] theorem inv_OutMsg_post (s : State) (w0 : OutMsg) (hG : InvAt adr s) : InvAt adr (OutMsg.post s w0) := by
  unfold OutMsg.post
  (repeat' split) <;> first | (with_reducible assumption) | simp +contextual (maxDischargeDepth := 40) [*]

@[simp] theorem inv_State_send (s : State) (m : OutMsg) (hG : InvAt adr s) : InvAt adr (State.send s m) := by
  unfold State.send
  simp +contextual (maxDischargeDepth := 40) [*]

@[simp] theorem inv_flood (s : State) (courses : List Nat) (src : W32) (msg : W32) (seg : W16) (bs : List Byte) (hG : InvAt adr s)
    : InvAt adr (flood s courses src msg seg bs) := by
  unfold flood
  refine inv_foldl _ _ _ hG (fun s c hs => inv_foldl _ _ _ hs (fun s ch hs => ?_))
  split
  · exact hs
  · exact inv_foldl _ _ _ hs (fun s b hs => inv_queueFrame _ _ _ _ hs)

@[simp] theorem inv_markSeen (s : State) (src msg : W32) (segs : Nat) (hG : InvAt adr s) : InvAt adr (markSeen s src msg segs) := by
  unfold markSeen
  simp +contextual (maxDischargeDepth := 40) [*]

@[simp] theorem inv_relayNews (s : State) (courses : List Nat) (src msg : W32) (seg : W16) (n : News) (hG : InvAt adr s) : InvAt
    adr (relayNews s courses src msg seg n) := by
  unfold relayNews
  simp +contextual (maxDischargeDepth := 40) [*]

@[simp] theorem inv_sendNews (s : State) (src msg : W32) (seg : W16) (n : News) (hG : InvAt adr s) : InvAt adr
    (sendNews s src msg seg n) := by
  unfold sendNews
  simp +contextual (maxDischargeDepth := 40) [*]

@[simp] theorem inv_noteToken (s : State) (kind : Nat) (courses : List Nat) (entries : List TableEntry) (hG : InvAt adr s) : InvAt
    adr (noteToken s kind courses entries) := by
  unfold noteToken
  simp +contextual (maxDischargeDepth := 40) [*]

@[simp] theorem inv_sendToken (s : State) (kind : Nat) (courses : List Nat) (entries : List TableEntry) (hG : InvAt adr s) : InvAt
    adr (sendToken s kind courses entries) := by
  unfold sendToken
  simp +contextual (maxDischargeDepth := 40) [*]

@[simp] theorem inv_relayToken (s : State) (kind : Nat) (courses : List Nat) (src msg : W32) (entries : List TableEntry)
    (hG : InvAt adr s) : InvAt adr (relayToken s kind courses src msg entries) := by
  unfold relayToken
  simp +contextual (maxDischargeDepth := 40) [*]

@[simp] theorem inv_State_sendReply (s : State) (h : Hdr) (cmd : Instr) (k : OutPkt) (hG : InvAt adr s) : InvAt adr
    (State.sendReply s h cmd k) := by
  unfold State.sendReply
  (repeat' split) <;> first | (with_reducible assumption) | simp +contextual (maxDischargeDepth := 40) [*]

end Sys2Proof.Machine
end

