-- ==== Sys2Proof/Laws/KeepCommands.lean ====
section
/-!
SUPPORT. The operations of Machine/Commands.lean keep the invariant.
-/

namespace Sys2Proof.Machine

variable {adr : W32 × Bool}

set_option linter.unusedTactic false
set_option linter.unreachableTactic false

@[simp] theorem inv_State_reply (s : State) (id : Nat) (c : Instr) (st : Status) (u : UState) (payload : List Byte)
    (hG : InvAt adr s) : InvAt adr (State.reply s id c st u payload) := by
  unfold State.reply
  (repeat' split) <;> first | (with_reducible assumption) | simp +contextual (maxDischargeDepth := 40) [*]

@[simp] theorem inv_refuseUnit (s : State) (id : Nat) (c : Instr) (h : Hdr) (d : UnitDef) (r : Refuse) (hG : InvAt adr s) : InvAt
    adr (refuseUnit s id c h d r) := by
  unfold refuseUnit
  simp +contextual (maxDischargeDepth := 40) [*]

@[simp] theorem inv_State_combinedState (s : State) (c : List Nat) (hG : InvAt adr s) : InvAt adr (State.combinedState s c).2 := by
  unfold State.combinedState
  (repeat' split) <;> first | (with_reducible assumption) | simp +contextual (maxDischargeDepth := 40) [*]

@[simp] theorem inv_finishUnit (s : State) (d : UnitDef) (o : Op) (hG : InvAt adr s) : InvAt adr (finishUnit s d o) := by
  unfold finishUnit
  simp +contextual (maxDischargeDepth := 40) [*]

@[simp] theorem inv_arriveAt (s : State) (c : Instr) (h : Hdr) (d : UnitDef) (deaf : List Nat) (g : Nat) (hd : Keeps adr d)
    (hG : InvAt adr s) : InvAt adr (arriveAt s c h d deaf g).1 := by
  unfold arriveAt
  dsimp only
  by_cases h1 : d.level3 = true
  · rw [if_pos h1]
    by_cases h2 : (s.sheaf g).withheld = true
    · rw [if_pos h2]; split <;> simp [*]
    · rw [if_neg h2]; split <;> simp [*]
  · rw [if_neg h1]; simp [*]

@[simp] theorem inv_State_censusSel (s : State) (n g : Nat) (locals : List Nat) (hG : InvAt adr s) : InvAt adr
    (State.censusSel s n g locals) := by
  unfold State.censusSel
  simp +contextual (maxDischargeDepth := 40) [*]

@[simp] theorem inv_concludeUnit (s : State) (d : UnitDef) (o : Op) (hG : InvAt adr s) : InvAt adr (concludeUnit s d o) := by
  unfold concludeUnit
  (repeat' split) <;> first | (with_reducible assumption) | simp +contextual (maxDischargeDepth := 40) [*]

@[simp] theorem inv_runUnitAll (s : State) (c : Instr) (h : Hdr) (d : UnitDef) (id : Nat) (hd : Keeps adr d) (hG : InvAt adr s) :
    InvAt adr (runUnitAll s c h d id) := by
  unfold runUnitAll
  simp +contextual (maxDischargeDepth := 40) [*]

@[simp] theorem inv_completionEvent (s : State) (w : Watch) (hG : InvAt adr s) : InvAt adr (completionEvent s w) := by
  unfold completionEvent
  (repeat' split) <;> first | (with_reducible assumption) | simp +contextual (maxDischargeDepth := 40) [*]

@[simp] theorem inv_State_flushWatches (s : State) (hG : InvAt adr s) : InvAt adr (State.flushWatches s) := by
  unfold State.flushWatches
  simp +contextual (maxDischargeDepth := 40) [*]

@[simp] theorem inv_runUnit (c : Instr) (d : UnitDef) (id : Nat) (s : State) (hd : Keeps adr d) (hG : InvAt adr s) : InvAt adr
    (runUnit c d id s) := by
  unfold runUnit
  (repeat' split) <;> first | (with_reducible assumption) | simp +contextual (maxDischargeDepth := 40) [*]

@[simp] theorem inv_finishModule (s : State) (id : Nat) (c : Instr) (st : Status) (payload : List Byte) (hG : InvAt adr s) : InvAt
    adr (finishModule s id c st payload) := by
  unfold finishModule
  (repeat' split) <;> first | (with_reducible assumption) | simp +contextual (maxDischargeDepth := 40) [*]

@[simp] theorem inv_runModule (c : Instr) (form : State → Hdr → Option Status) (foreign : State → Hdr → Bool)
    (body : State → Nat → Hdr → State) (id : Nat) (s : State) (hbody : ∀ v0 v1 v2, InvAt adr v0 → InvAt adr (body v0 v1 v2))
    (hG : InvAt adr s) : InvAt adr (runModule c form foreign body id s) := by
  unfold runModule
  (repeat' split) <;> first | (with_reducible assumption) | simp +contextual (maxDischargeDepth := 40) [*]

@[simp] theorem inv_holdFor (w : OpWait) (s : State) (id : Nat) (c : Instr) (st : Status) (payload : List Byte) (hG : InvAt adr s)
    : InvAt adr (holdFor w s id c st payload) := by
  unfold holdFor
  (repeat' split) <;> first | (with_reducible assumption) | simp +contextual (maxDischargeDepth := 40) [*]

@[simp] theorem inv_holdModule (w0 : State) (w1 : Nat) (w2 : Instr) (w3 : Status) (w4 : List Byte) (hG : InvAt adr w0) : InvAt adr
    (holdModule w0 w1 w2 w3 w4) := by
  unfold holdModule
  (repeat' split) <;> first | (with_reducible assumption) | simp +contextual (maxDischargeDepth := 40) [*]

@[simp] theorem inv_finishHeld (s : State) (w : OpWait) (hG : InvAt adr s) : InvAt adr (finishHeld s w) := by
  unfold finishHeld
  simp +contextual (maxDischargeDepth := 40) [*]

@[simp] theorem inv_State_dropOp (s : State) (id : Nat) (hG : InvAt adr s) : InvAt adr (State.dropOp s id) := by
  unfold State.dropOp
  simp +contextual (maxDischargeDepth := 40) [*]

@[simp] theorem inv_submit (c : Instr) (now : Nat → State → State) (s : State)
    (hnow : ∀ v0 v1, InvAt adr v1 → InvAt adr (now v0 v1)) (hG : InvAt adr s) : InvAt adr (submit c now s) := by
  unfold submit
  (repeat' split) <;> first | (with_reducible assumption) | simp +contextual (maxDischargeDepth := 40) [*]

@[simp] theorem inv_submitOr (held : State → Bool) (c : Instr) (d : UnitDef) (s : State) (hd : Keeps adr d) (hG : InvAt adr s) :
    InvAt adr (submitOr held c d s) := by
  unfold submitOr
  (repeat' split) <;> first | (with_reducible assumption) | simp +contextual (maxDischargeDepth := 40) [*]

end Sys2Proof.Machine
end

