-- ==== Sys2Proof/Laws/KeepReeds.lean ====
section
/-!
SUPPORT. The operations of Machine/Reeds.lean keep the invariant.
-/

namespace Sys2Proof.Machine

variable {adr : W32 × Bool}

set_option linter.unusedTactic false
set_option linter.unreachableTactic false

@[simp] theorem inv_enterFaulted (s : State) (r cause : Nat) (hG : InvAt adr s) : InvAt adr (enterFaulted s r cause) := by
  unfold enterFaulted
  simp +contextual (maxDischargeDepth := 40) [*]

@[simp] theorem inv_streamFault (s : State) (r : Nat) (f : Flaw) (index : Nat) (hG : InvAt adr s) : InvAt adr
    (streamFault s r f index) := by
  unfold streamFault
  simp +contextual (maxDischargeDepth := 40) [*]

@[simp] theorem inv_issue (s : State) (r : Nat) (opc : Nat) (body : State → Reed → BitVec 256 → State)
    (hbody : ∀ v0 v1 v2, InvAt adr v0 → InvAt adr (body v0 v1 v2)) (hG : InvAt adr s) : InvAt adr (issue s r opc body) := by
  unfold issue
  dsimp only
  generalize KMap.look (s.reed r).ibuf (s.reed r).index = o
  cases o <;> simp +contextual (maxDischargeDepth := 40) [*]

@[simp] theorem inv_scalar (r : Nat) (flaws : BitVec 256 → Reed → Option Flaw) (eff : State → BitVec 256 → Reed → Reed)
    (w0 : State) (w1 : Reed) (w2 : BitVec 256) (hG : InvAt adr w0) : InvAt adr (scalar r flaws eff w0 w1 w2) := by
  unfold scalar
  (repeat' split) <;> first | (with_reducible assumption) | simp +contextual (maxDischargeDepth := 40) [*]

@[simp] theorem inv_enqueue (s : State) (r : Nat) (x : Reed) (e : Engine) (q : QEntry) (hG : InvAt adr s) : InvAt adr
    (enqueue s r x e q) := by
  unfold enqueue
  simp +contextual (maxDischargeDepth := 40) [*]

end Sys2Proof.Machine
end

