-- ==== Sys2Proof/Laws/KeepMx.lean ====
section
/-!
SUPPORT. The operations of Machine/Mx.lean keep the invariant.
-/

namespace Sys2Proof.Machine

variable {adr : W32 × Bool}

set_option linter.unusedTactic false
set_option linter.unreachableTactic false

@[simp] theorem inv_engineIssue (opc : Nat) (e : Engine) (chk : IssueCheck) (passes : BitVec 256 → Reed → W32 → Nat) (s : State)
    (r : Nat) (hG : InvAt adr s) : InvAt adr (engineIssue opc e chk passes s r) := by
  unfold engineIssue
  repeat' (first | (with_reducible assumption) | (simp +contextual (maxDischargeDepth := 40) [*]; done) | intro _ | split | (apply inv_foldl) | (apply inv_issue))

@[simp] theorem inv_mmaIssue (opc : Nat) (s : State) (r : Nat) (hG : InvAt adr s) : InvAt adr (mmaIssue opc s r) := by
  unfold mmaIssue
  dsimp only
  split
  · split <;> simp [*]
  · simp [*]

@[simp] theorem inv_issueMma (s : State) (r : Nat) (hG : InvAt adr s) : InvAt adr (issueMma s r) := by
  unfold issueMma
  simp +contextual (maxDischargeDepth := 40) [*]

@[simp] theorem inv_issueMmaf (s : State) (r : Nat) (hG : InvAt adr s) : InvAt adr (issueMmaf s r) := by
  unfold issueMmaf
  simp +contextual (maxDischargeDepth := 40) [*]

theorem inv_execMma (r : ReedIx) (s : State) (hG : InvAt adr s) : ∀ t, (execMma r s) = .next t → InvAt adr t := by
  intro t ht
  simp only [execMma, Host.Outcome.next.injEq] at ht
  subst ht
  simp +contextual (maxDischargeDepth := 40) [*]

theorem inv_execMmaf (r : ReedIx) (s : State) (hG : InvAt adr s) : ∀ t, (execMmaf r s) = .next t → InvAt adr t := by
  intro t ht
  simp only [execMmaf, Host.Outcome.next.injEq] at ht
  subst ht
  simp +contextual (maxDischargeDepth := 40) [*]

@[simp] theorem inv_issueAccz (s : State) (r : Nat) (hG : InvAt adr s) : InvAt adr (issueAccz s r) := by
  unfold issueAccz
  simp +contextual (maxDischargeDepth := 40) [*]

@[simp] theorem inv_issueAccst (s : State) (r : Nat) (hG : InvAt adr s) : InvAt adr (issueAccst s r) := by
  unfold issueAccst
  simp +contextual (maxDischargeDepth := 40) [*]

theorem inv_execAccz (r : ReedIx) (s : State) (hG : InvAt adr s) : ∀ t, (execAccz r s) = .next t → InvAt adr t := by
  intro t ht
  simp only [execAccz, Host.Outcome.next.injEq] at ht
  subst ht
  simp +contextual (maxDischargeDepth := 40) [*]

theorem inv_execAccst (r : ReedIx) (s : State) (hG : InvAt adr s) : ∀ t, (execAccst r s) = .next t → InvAt adr t := by
  intro t ht
  simp only [execAccst, Host.Outcome.next.injEq] at ht
  subst ht
  simp +contextual (maxDischargeDepth := 40) [*]

@[simp] theorem inv_landSums (s : State) (r : Nat) (hG : InvAt adr s) : InvAt adr (landSums s r) := by
  unfold landSums
  simp +contextual (maxDischargeDepth := 40) [*]

theorem inv_execSumsLand (r : ReedIx) (s : State) (hG : InvAt adr s) : ∀ t, (execSumsLand r s) = .next t → InvAt adr t := by
  intro t ht
  simp only [execSumsLand, Host.Outcome.next.injEq] at ht
  subst ht
  simp +contextual (maxDischargeDepth := 40) [*]

end Sys2Proof.Machine
end

