-- ==== Sys2Proof/Laws/KeepVx.lean ====
section
/-!
SUPPORT. The operations of Machine/Vx.lean keep the invariant.
-/

namespace Sys2Proof.Machine

variable {adr : W32 × Bool}

set_option linter.unusedTactic false
set_option linter.unreachableTactic false

@[simp] theorem inv_vxIssue (opc : Nat) (spec : State → Nat → BitVec 256 → Reed → VSpec) (passes : BitVec 256 → Reed → W32 → Nat)
    (s : State) (r : Nat) (hG : InvAt adr s) : InvAt adr (vxIssue opc spec passes s r) := by
  unfold vxIssue
  simp +contextual (maxDischargeDepth := 40) [*]

@[simp] theorem inv_issueVew (s : State) (r : Nat) (hG : InvAt adr s) : InvAt adr (issueVew s r) := by
  unfold issueVew
  simp +contextual (maxDischargeDepth := 40) [*]

theorem inv_execVew (r : ReedIx) (s : State) (hG : InvAt adr s) : ∀ t, (execVew r s) = .next t → InvAt adr t := by
  intro t ht
  simp only [execVew, Host.Outcome.next.injEq] at ht
  subst ht
  simp +contextual (maxDischargeDepth := 40) [*]

@[simp] theorem inv_issueVred (s : State) (r : Nat) (hG : InvAt adr s) : InvAt adr (issueVred s r) := by
  unfold issueVred
  simp +contextual (maxDischargeDepth := 40) [*]

@[simp] theorem inv_issueVscan (s : State) (r : Nat) (hG : InvAt adr s) : InvAt adr (issueVscan s r) := by
  unfold issueVscan
  simp +contextual (maxDischargeDepth := 40) [*]

@[simp] theorem inv_issueVsscan (s : State) (r : Nat) (hG : InvAt adr s) : InvAt adr (issueVsscan s r) := by
  unfold issueVsscan
  simp +contextual (maxDischargeDepth := 40) [*]

theorem inv_execVred (r : ReedIx) (s : State) (hG : InvAt adr s) : ∀ t, (execVred r s) = .next t → InvAt adr t := by
  intro t ht
  simp only [execVred, Host.Outcome.next.injEq] at ht
  subst ht
  simp +contextual (maxDischargeDepth := 40) [*]

theorem inv_execVscan (r : ReedIx) (s : State) (hG : InvAt adr s) : ∀ t, (execVscan r s) = .next t → InvAt adr t := by
  intro t ht
  simp only [execVscan, Host.Outcome.next.injEq] at ht
  subst ht
  simp +contextual (maxDischargeDepth := 40) [*]

theorem inv_execVsscan (r : ReedIx) (s : State) (hG : InvAt adr s) : ∀ t, (execVsscan r s) = .next t → InvAt adr t := by
  intro t ht
  simp only [execVsscan, Host.Outcome.next.injEq] at ht
  subst ht
  simp +contextual (maxDischargeDepth := 40) [*]

@[simp] theorem inv_issueVwide (s : State) (r : Nat) (hG : InvAt adr s) : InvAt adr (issueVwide s r) := by
  unfold issueVwide
  simp +contextual (maxDischargeDepth := 40) [*]

theorem inv_execVwide (r : ReedIx) (s : State) (hG : InvAt adr s) : ∀ t, (execVwide r s) = .next t → InvAt adr t := by
  intro t ht
  simp only [execVwide, Host.Outcome.next.injEq] at ht
  subst ht
  simp +contextual (maxDischargeDepth := 40) [*]

@[simp] theorem inv_issueVrng (s : State) (r : Nat) (hG : InvAt adr s) : InvAt adr (issueVrng s r) := by
  unfold issueVrng
  simp +contextual (maxDischargeDepth := 40) [*]

theorem inv_execVrng (r : ReedIx) (s : State) (hG : InvAt adr s) : ∀ t, (execVrng r s) = .next t → InvAt adr t := by
  intro t ht
  simp only [execVrng, Host.Outcome.next.injEq] at ht
  subst ht
  simp +contextual (maxDischargeDepth := 40) [*]

@[simp] theorem inv_issueOpt (s : State) (r : Nat) (hG : InvAt adr s) : InvAt adr (issueOpt s r) := by
  unfold issueOpt
  simp +contextual (maxDischargeDepth := 40) [*]

theorem inv_execOpt (r : ReedIx) (s : State) (hG : InvAt adr s) : ∀ t, (execOpt r s) = .next t → InvAt adr t := by
  intro t ht
  simp only [execOpt, Host.Outcome.next.injEq] at ht
  subst ht
  simp +contextual (maxDischargeDepth := 40) [*]

@[simp] theorem inv_issueVcld (s : State) (r : Nat) (hG : InvAt adr s) : InvAt adr (issueVcld s r) := by
  unfold issueVcld
  simp +contextual (maxDischargeDepth := 40) [*]

@[simp] theorem inv_issueVcst (s : State) (r : Nat) (hG : InvAt adr s) : InvAt adr (issueVcst s r) := by
  unfold issueVcst
  simp +contextual (maxDischargeDepth := 40) [*]

theorem inv_execVcld (r : ReedIx) (s : State) (hG : InvAt adr s) : ∀ t, (execVcld r s) = .next t → InvAt adr t := by
  intro t ht
  simp only [execVcld, Host.Outcome.next.injEq] at ht
  subst ht
  simp +contextual (maxDischargeDepth := 40) [*]

theorem inv_execVcst (r : ReedIx) (s : State) (hG : InvAt adr s) : ∀ t, (execVcst r s) = .next t → InvAt adr t := by
  intro t ht
  simp only [execVcst, Host.Outcome.next.injEq] at ht
  subst ht
  simp +contextual (maxDischargeDepth := 40) [*]

end Sys2Proof.Machine
end

