-- ==== Sys2Proof/Laws/KeepLdSt.lean ====
section
/-!
SUPPORT. The operations of Machine/LdSt.lean keep the invariant.
-/

namespace Sys2Proof.Machine

variable {adr : W32 × Bool}

set_option linter.unusedTactic false
set_option linter.unreachableTactic false

@[simp] theorem inv_issueLd (s : State) (r : Nat) (hG : InvAt adr s) : InvAt adr (issueLd s r) := by
  unfold issueLd
  dsimp only
  split
  · split
    · split <;> simp [*]
    · simp [*]
  · simp [*]

theorem inv_execLd (r : ReedIx) (s : State) (hG : InvAt adr s) : ∀ t, (execLd r s) = .next t → InvAt adr t := by
  intro t ht
  simp only [execLd, Host.Outcome.next.injEq] at ht
  subst ht
  simp +contextual (maxDischargeDepth := 40) [*]

@[simp] theorem inv_issueSt (s : State) (r : Nat) (hG : InvAt adr s) : InvAt adr (issueSt s r) := by
  unfold issueSt
  simp +contextual (maxDischargeDepth := 40) [*]

theorem inv_execSt (r : ReedIx) (s : State) (hG : InvAt adr s) : ∀ t, (execSt r s) = .next t → InvAt adr t := by
  intro t ht
  simp only [execSt, Host.Outcome.next.injEq] at ht
  subst ht
  simp +contextual (maxDischargeDepth := 40) [*]

@[simp] theorem inv_issueLdpage (s : State) (r : Nat) (hG : InvAt adr s) : InvAt adr (issueLdpage s r) := by
  unfold issueLdpage
  simp +contextual (maxDischargeDepth := 40) [*]

theorem inv_execLdpage (r : ReedIx) (s : State) (hG : InvAt adr s) : ∀ t, (execLdpage r s) = .next t → InvAt adr t := by
  intro t ht
  simp only [execLdpage, Host.Outcome.next.injEq] at ht
  subst ht
  simp +contextual (maxDischargeDepth := 40) [*]

@[simp] theorem inv_farWrite (s : State) (r : Nat) (slot : BitVec 4) (mem : Bool) (ws : List FarByte) (errs : List MemErr)
    (hG : InvAt adr s) : InvAt adr (farWrite s r slot mem ws errs) := by
  unfold farWrite
  simp +contextual (maxDischargeDepth := 40) [*]

end Sys2Proof.Machine
end

