-- ==== Sys2Proof/Laws/KeepStream.lean ====
section
/-!
SUPPORT. The operations of Machine/Stream.lean keep the invariant.
-/

namespace Sys2Proof.Machine

variable {adr : W32 × Bool}

set_option linter.unusedTactic false
set_option linter.unreachableTactic false

@[simp] theorem inv_issueNop (s : State) (r : Nat) (hG : InvAt adr s) : InvAt adr (issueNop s r) := by
  unfold issueNop
  simp +contextual (maxDischargeDepth := 40) [*]

theorem inv_execNopInstruction (r : ReedIx) (s : State) (hG : InvAt adr s) : ∀ t, (execNopInstruction r s) = .next t → InvAt adr t
    := by
  intro t ht
  simp only [execNopInstruction, Host.Outcome.next.injEq] at ht
  subst ht
  simp +contextual (maxDischargeDepth := 40) [*]

@[simp] theorem inv_issueSeti (s : State) (r : Nat) (hG : InvAt adr s) : InvAt adr (issueSeti s r) := by
  unfold issueSeti
  simp +contextual (maxDischargeDepth := 40) [*]

theorem inv_execSeti (r : ReedIx) (s : State) (hG : InvAt adr s) : ∀ t, (execSeti r s) = .next t → InvAt adr t := by
  intro t ht
  simp only [execSeti, Host.Outcome.next.injEq] at ht
  subst ht
  simp +contextual (maxDischargeDepth := 40) [*]

@[simp] theorem inv_issueAlu (s : State) (r : Nat) (hG : InvAt adr s) : InvAt adr (issueAlu s r) := by
  unfold issueAlu
  simp +contextual (maxDischargeDepth := 40) [*]

theorem inv_execAlu (r : ReedIx) (s : State) (hG : InvAt adr s) : ∀ t, (execAlu r s) = .next t → InvAt adr t := by
  intro t ht
  simp only [execAlu, Host.Outcome.next.injEq] at ht
  subst ht
  simp +contextual (maxDischargeDepth := 40) [*]

@[simp] theorem inv_wordIssue (r m1 : Nat) (dest : Bool) (eff : Operand → BitVec 256 → Reed → Reed) (w0 : State) (w1 : Reed)
    (w2 : BitVec 256) (hG : InvAt adr w0) : InvAt adr (wordIssue r m1 dest eff w0 w1 w2) := by
  unfold wordIssue
  (repeat' split) <;> first | (with_reducible assumption) | simp +contextual (maxDischargeDepth := 40) [*]

@[simp] theorem inv_issueSld (s : State) (r : Nat) (hG : InvAt adr s) : InvAt adr (issueSld s r) := by
  unfold issueSld
  simp +contextual (maxDischargeDepth := 40) [*]

theorem inv_execSld (r : ReedIx) (s : State) (hG : InvAt adr s) : ∀ t, (execSld r s) = .next t → InvAt adr t := by
  intro t ht
  simp only [execSld, Host.Outcome.next.injEq] at ht
  subst ht
  simp +contextual (maxDischargeDepth := 40) [*]

@[simp] theorem inv_issueSst (s : State) (r : Nat) (hG : InvAt adr s) : InvAt adr (issueSst s r) := by
  unfold issueSst
  simp +contextual (maxDischargeDepth := 40) [*]

theorem inv_execSst (r : ReedIx) (s : State) (hG : InvAt adr s) : ∀ t, (execSst r s) = .next t → InvAt adr t := by
  intro t ht
  simp only [execSst, Host.Outcome.next.injEq] at ht
  subst ht
  simp +contextual (maxDischargeDepth := 40) [*]

@[simp] theorem inv_issueMovr (s : State) (r : Nat) (hG : InvAt adr s) : InvAt adr (issueMovr s r) := by
  unfold issueMovr
  simp +contextual (maxDischargeDepth := 40) [*]

theorem inv_execMovr (r : ReedIx) (s : State) (hG : InvAt adr s) : ∀ t, (execMovr r s) = .next t → InvAt adr t := by
  intro t ht
  simp only [execMovr, Host.Outcome.next.injEq] at ht
  subst ht
  simp +contextual (maxDischargeDepth := 40) [*]

@[simp] theorem inv_issueMovw (s : State) (r : Nat) (hG : InvAt adr s) : InvAt adr (issueMovw s r) := by
  unfold issueMovw
  simp +contextual (maxDischargeDepth := 40) [*]

theorem inv_execMovw (r : ReedIx) (s : State) (hG : InvAt adr s) : ∀ t, (execMovw r s) = .next t → InvAt adr t := by
  intro t ht
  simp only [execMovw, Host.Outcome.next.injEq] at ht
  subst ht
  simp +contextual (maxDischargeDepth := 40) [*]

@[simp] theorem inv_issueLoop (s : State) (r : Nat) (hG : InvAt adr s) : InvAt adr (issueLoop s r) := by
  unfold issueLoop
  repeat' (first | (with_reducible assumption) | (simp +contextual (maxDischargeDepth := 40) [*]; done) | intro _ | split | (apply inv_foldl) | (apply inv_issue))

theorem inv_execLoop (r : ReedIx) (s : State) (hG : InvAt adr s) : ∀ t, (execLoop r s) = .next t → InvAt adr t := by
  intro t ht
  simp only [execLoop, Host.Outcome.next.injEq] at ht
  subst ht
  simp +contextual (maxDischargeDepth := 40) [*]

@[simp] theorem inv_issueBr (s : State) (r : Nat) (hG : InvAt adr s) : InvAt adr (issueBr s r) := by
  unfold issueBr
  repeat' (first | (with_reducible assumption) | (simp +contextual (maxDischargeDepth := 40) [*]; done) | intro _ | split | (apply inv_foldl) | (apply inv_issue))

theorem inv_execBr (r : ReedIx) (s : State) (hG : InvAt adr s) : ∀ t, (execBr r s) = .next t → InvAt adr t := by
  intro t ht
  simp only [execBr, Host.Outcome.next.injEq] at ht
  subst ht
  simp +contextual (maxDischargeDepth := 40) [*]

@[simp] theorem inv_issueWaitq (s : State) (r : Nat) (hG : InvAt adr s) : InvAt adr (issueWaitq s r) := by
  unfold issueWaitq
  repeat' (first | (with_reducible assumption) | (simp +contextual (maxDischargeDepth := 40) [*]; done) | intro _ | split | (apply inv_foldl) | (apply inv_issue))

theorem inv_execWaitq (r : ReedIx) (s : State) (hG : InvAt adr s) : ∀ t, (execWaitq r s) = .next t → InvAt adr t := by
  intro t ht
  simp only [execWaitq, Host.Outcome.next.injEq] at ht
  subst ht
  simp +contextual (maxDischargeDepth := 40) [*]

theorem inv_execWaitqRelease (r : ReedIx) (s : State) (hG : InvAt adr s) : ∀ t, (execWaitqRelease r s) = .next t → InvAt adr t := by
  intro t ht
  simp only [execWaitqRelease, Host.Outcome.next.injEq] at ht
  subst ht
  (repeat' split) <;> first | (with_reducible assumption) | simp +contextual (maxDischargeDepth := 40) [*]

@[simp] theorem inv_issueEnd (s : State) (r : Nat) (hG : InvAt adr s) : InvAt adr (issueEnd s r) := by
  unfold issueEnd
  repeat' (first | (with_reducible assumption) | (simp +contextual (maxDischargeDepth := 40) [*]; done) | intro _ | split | (apply inv_foldl) | (apply inv_issue))

theorem inv_execEndInstruction (r : ReedIx) (s : State) (hG : InvAt adr s) : ∀ t, (execEndInstruction r s) = .next t → InvAt adr t
    := by
  intro t ht
  simp only [execEndInstruction, Host.Outcome.next.injEq] at ht
  subst ht
  simp +contextual (maxDischargeDepth := 40) [*]

theorem inv_execPosIndexWrite (r : ReedIx) (index : BitVec 6) (s : State) (hG : InvAt adr s) : ∀ t, (execPosIndexWrite r index s) =
    .next t → InvAt adr t := by
  intro t ht
  simp only [execPosIndexWrite, Host.Outcome.next.injEq] at ht
  subst ht
  simp +contextual (maxDischargeDepth := 40) [*]

theorem inv_execTrapctlClear (r : ReedIx) (s : State) (hG : InvAt adr s) : ∀ t, (execTrapctlClear r s) = .next t → InvAt adr t := by
  intro t ht
  simp only [execTrapctlClear, Host.Outcome.next.injEq] at ht
  subst ht
  simp +contextual (maxDischargeDepth := 40) [*]

end Sys2Proof.Machine
end

