-- ==== Sys2Proof/Laws/KeepXc.lean ====
section
/-!
SUPPORT. The operations of Machine/Xc.lean keep the invariant.
-/

namespace Sys2Proof.Machine

variable {adr : W32 × Bool}

set_option linter.unusedTactic false
set_option linter.unreachableTactic false

@[simp] theorem inv_issueXput (s : State) (r : Nat) (hG : InvAt adr s) : InvAt adr (issueXput s r) := by
  unfold issueXput
  simp +contextual (maxDischargeDepth := 40) [*]

@[simp] theorem inv_issueXget (s : State) (r : Nat) (hG : InvAt adr s) : InvAt adr (issueXget s r) := by
  unfold issueXget
  simp +contextual (maxDischargeDepth := 40) [*]

theorem inv_execXput (r : ReedIx) (s : State) (hG : InvAt adr s) : ∀ t, (execXput r s) = .next t → InvAt adr t := by
  intro t ht
  simp only [execXput, Host.Outcome.next.injEq] at ht
  subst ht
  simp +contextual (maxDischargeDepth := 40) [*]

theorem inv_execXget (r : ReedIx) (s : State) (hG : InvAt adr s) : ∀ t, (execXget r s) = .next t → InvAt adr t := by
  intro t ht
  simp only [execXget, Host.Outcome.next.injEq] at ht
  subst ht
  simp +contextual (maxDischargeDepth := 40) [*]

@[simp] theorem inv_xputPiece (s : State) (r : Nat) (q : QEntry) (hG : InvAt adr s) : InvAt adr (xputPiece s r q) := by
  unfold xputPiece
  repeat' (first | (with_reducible assumption) | (simp +contextual (maxDischargeDepth := 40) [*]; done) | intro _ | split | (apply inv_foldl) | (apply inv_issue))

@[simp] theorem inv_xputRun (w0 : Nat) (w1 : State) (w2 : Nat) (hG : InvAt adr w1) : InvAt adr (xputRun w0 w1 w2) := by
  induction w0 generalizing w1 with
  | zero => exact hG
  | succ n ih => unfold xputRun; repeat' split <;> simp [*]

@[simp] theorem inv_xgetPiece (s : State) (r : Nat) (q : QEntry) (hG : InvAt adr s) : InvAt adr (xgetPiece s r q) := by
  unfold xgetPiece
  simp +contextual (maxDischargeDepth := 40) [*]

@[simp] theorem inv_xgetRun (w0 : Nat) (w1 : State) (w2 : Nat) (hG : InvAt adr w1) : InvAt adr (xgetRun w0 w1 w2) := by
  induction w0 generalizing w1 with
  | zero => exact hG
  | succ n ih => unfold xgetRun; repeat' split <;> simp [*]

theorem inv_execXcBufferRoom (r : ReedIx) (s : State) (hG : InvAt adr s) : ∀ t, (execXcBufferRoom r s) = .next t → InvAt adr t := by
  intro t ht
  simp only [execXcBufferRoom, Host.Outcome.next.injEq] at ht
  subst ht
  simp +contextual (maxDischargeDepth := 40) [*]

theorem inv_execXcBytesArrive (r : ReedIx) (s : State) (hG : InvAt adr s) : ∀ t, (execXcBytesArrive r s) = .next t → InvAt adr t :=
    by
  intro t ht
  simp only [execXcBytesArrive, Host.Outcome.next.injEq] at ht
  subst ht
  simp +contextual (maxDischargeDepth := 40) [*]

@[simp] theorem inv_closeBuffers (s : State) (hG : InvAt adr s) : InvAt adr (closeBuffers s) := by
  unfold closeBuffers
  simp +contextual (maxDischargeDepth := 40) [*]

end Sys2Proof.Machine
end

