-- ==== Sys2Proof/Laws/KeepEngines.lean ====
section
/-!
SUPPORT. The operations of Machine/Engines.lean keep the invariant.
-/

namespace Sys2Proof.Machine

variable {adr : W32 × Bool}

set_option linter.unusedTactic false
set_option linter.unreachableTactic false

theorem inv_execEngineInstructionStart (r : ReedIx) (e : Engine) (errs : List MemErr) (s : State) (hG : InvAt adr s) : ∀ t,
    (execEngineInstructionStart r e errs s) = .next t → InvAt adr t := by
  intro t ht
  simp only [execEngineInstructionStart, Host.Outcome.next.injEq] at ht
  subst ht
  (repeat' split) <;> first | (with_reducible assumption) | simp +contextual (maxDischargeDepth := 40) [*]

@[simp] theorem inv_putReed (s : State) (r : Nat) (y : Reed × Nat) (hG : InvAt adr s) : InvAt adr (putReed s r y) := by
  unfold putReed
  simp +contextual (maxDischargeDepth := 40) [*]

@[simp] theorem inv_engineEffect (s : State) (r : Nat) (q : QEntry) (halt : Option TrapEv) (hG : InvAt adr s) : InvAt adr
    (engineEffect s r q halt) := by
  unfold engineEffect
  (repeat' split) <;> first | (with_reducible assumption) | simp +contextual (maxDischargeDepth := 40) [*]

@[simp] theorem inv_wvComplete (s : State) (r : Nat) (q : QEntry) (hG : InvAt adr s) : InvAt adr (wvComplete s r q) := by
  unfold wvComplete
  (repeat' split) <;> first | (with_reducible assumption) | simp +contextual (maxDischargeDepth := 40) [*]

theorem inv_execEngineInstructionComplete (r : ReedIx) (e : Engine) (s : State) (hG : InvAt adr s) : ∀ t,
    (execEngineInstructionComplete r e s) = .next t → InvAt adr t := by
  intro t ht
  simp only [execEngineInstructionComplete, Host.Outcome.next.injEq] at ht
  subst ht
  (repeat' split) <;> first | (with_reducible assumption) | simp +contextual (maxDischargeDepth := 40) [*]

theorem inv_execStAcknowledged (r : ReedIx) (s : State) (hG : InvAt adr s) : ∀ t, (execStAcknowledged r s) = .next t → InvAt adr t
    := by
  intro t ht
  simp only [execStAcknowledged, Host.Outcome.next.injEq] at ht
  subst ht
  (repeat' split) <;> first | (with_reducible assumption) | simp +contextual (maxDischargeDepth := 40) [*]

@[simp] theorem inv_noteTrap (s : State) (r : Nat) (q : QEntry) (ev : TrapEv) (hG : InvAt adr s) : InvAt adr (noteTrap s r q ev) :=
    by
  unfold noteTrap
  dsimp only
  split
  · exact hG
  · exact inv_State_event _ _ (inv_State_setReed _ _ _ hG)

@[simp] theorem inv_dropSample (s : State) (r : Nat) (q : QEntry) (hG : InvAt adr s) : InvAt adr (dropSample s r q) := by
  unfold dropSample
  simp +contextual (maxDischargeDepth := 40) [*]

theorem inv_execNumericTrap (r : ReedIx) (e : Engine) (s : State) (hG : InvAt adr s) : ∀ t, (execNumericTrap r e s) = .next t →
    InvAt adr t := by
  intro t ht
  simp only [execNumericTrap, Host.Outcome.next.injEq] at ht
  subst ht
  (repeat' split) <;> first | (with_reducible assumption) | simp +contextual (maxDischargeDepth := 40) [*]

theorem inv_execWvSampleCompare (g : SheafIx) (s : State) (hG : InvAt adr s) : ∀ t, (execWvSampleCompare g s) = .next t → InvAt adr
    t := by
  intro t ht
  simp only [execWvSampleCompare, Host.Outcome.next.injEq] at ht
  subst ht
  (repeat' split) <;> first | (with_reducible assumption) | simp +contextual (maxDischargeDepth := 40) [*]

theorem wf_mixBytes {α : Type} [DecidableEq α] (d : α) (b : Nat) (old new : KMap α) (h : KMap.wf d old = true) : KMap.wf d
    (mixBytes d b old new) = true := by
  refine KMap.wf_foldl d _ _ _ h (fun m e hm => ?_)
  split
  · exact KMap.wf_put d m _ _ hm
  · exact hm

@[simp] theorem inv_abandonOne (s : State) (r : Nat) (q : QEntry) (hG : InvAt adr s) : InvAt adr (abandonOne s r q) := by
  have key : ∀ (u : State) (b n : Nat), InvAt adr u → InvAt adr { u with
      mem := { u.mem with bytes := mixBytes 0 b s.mem.bytes (engineEffect s r q none).mem.bytes }, free := n } :=
    fun u _ _ hu => ⟨hu.tc, hu.addr, wfAt_map (wf_mixBytes 0 _ _ _) hG.mem⟩
  unfold abandonOne
  split
  · exact hG
  · split
    · simp [*]
    · apply key
      simp [*]

@[simp] theorem inv_abandonAll (s : State) (r : Nat) (hG : InvAt adr s) : InvAt adr (abandonAll s r) := by
  unfold abandonAll
  simp +contextual (maxDischargeDepth := 40) [*]

end Sys2Proof.Machine
end

