-- ==== Sys2Proof/Laws/KeepPorts.lean ====
section
/-!
SUPPORT. The operations of Machine/Ports.lean keep the invariant.
-/

namespace Sys2Proof.Machine

variable {adr : W32 × Bool}

set_option linter.unusedTactic false
set_option linter.unreachableTactic false

@[simp] theorem inv_hostAccess (s : State) (p : PortIx) (f : State → State) (hf : ∀ v0, InvAt adr v0 → InvAt adr (f v0))
    (hG : InvAt adr s) : InvAt adr (hostAccess s p f) := by
  unfold hostAccess
  simp +contextual (maxDischargeDepth := 40) [*]

@[simp] theorem inv_haltWindow (s : State) (p : PortIx) (cause : Nat) (hG : InvAt adr s) : InvAt adr (haltWindow s p cause) := by
  unfold haltWindow
  simp +contextual (maxDischargeDepth := 40) [*]

theorem inv_execWindowWrite (p : PortIx) (offset : Nat) (data : List Byte) (s : State) (hG : InvAt adr s) : ∀ t,
    (execWindowWrite p offset data s) = .next t → InvAt adr t := by
  intro t ht
  simp only [execWindowWrite, Host.Outcome.next.injEq] at ht
  subst ht
  simp +contextual (maxDischargeDepth := 40) [*]

theorem inv_execResync (p : PortIx) (s : State) (hG : InvAt adr s) : ∀ t, (execResync p s) = .next t → InvAt adr t := by
  intro t ht
  simp only [execResync, Host.Outcome.next.injEq] at ht
  subst ht
  simp +contextual (maxDischargeDepth := 40) [*]

@[simp] theorem inv_State_drainStore (s : State) (p : PortIx) (hG : InvAt adr s) : InvAt adr (State.drainStore s p) := by
  unfold State.drainStore
  simp +contextual (maxDischargeDepth := 40) [*]

theorem inv_execReplyWrite (p : PortIx) (s : State) (hG : InvAt adr s) : ∀ t, (execReplyWrite p s) = .next t → InvAt adr t := by
  intro t ht
  simp only [execReplyWrite, Host.Outcome.next.injEq] at ht
  subst ht
  simp +contextual (maxDischargeDepth := 40) [*]

theorem inv_execReplyheadWrite (p : PortIx) (value : W32) (s : State) (hG : InvAt adr s) : ∀ t, (execReplyheadWrite p value s) =
    .next t → InvAt adr t := by
  intro t ht
  simp only [execReplyheadWrite, Host.Outcome.next.injEq] at ht
  subst ht
  simp +contextual (maxDischargeDepth := 40) [*]

@[simp] theorem inv_State_disableRing (s : State) (p : PortIx) (hG : InvAt adr s) : InvAt adr (State.disableRing s p) := by
  unfold State.disableRing
  simp +contextual (maxDischargeDepth := 40) [*]

@[simp] theorem inv_State_hostLink (s : State) (dest which : PortIx) (what allot : Nat) (hG : InvAt adr s) : InvAt adr
    (State.hostLink s dest which what allot) := by
  unfold State.hostLink
  simp +contextual (maxDischargeDepth := 40) [*]

@[simp] theorem inv_State_writeReplyCtl (s : State) (p : PortIx) (value : W32) (hG : InvAt adr s) : InvAt adr
    (State.writeReplyCtl s p value) := by
  unfold State.writeReplyCtl
  simp +contextual (maxDischargeDepth := 40) [*]

theorem inv_execReplyRingEnable (p : PortIx) (value : W32) (s : State) (hG : InvAt adr s) : ∀ t, (execReplyRingEnable p value s) =
    .next t → InvAt adr t := by
  intro t ht
  simp only [execReplyRingEnable, Host.Outcome.next.injEq] at ht
  subst ht
  (repeat' split) <;> first | (with_reducible assumption) | simp +contextual (maxDischargeDepth := 40) [*]

theorem inv_execReplyRingDisable (p : PortIx) (value : W32) (s : State) (hG : InvAt adr s) : ∀ t, (execReplyRingDisable p value s)
    = .next t → InvAt adr t := by
  intro t ht
  simp only [execReplyRingDisable, Host.Outcome.next.injEq] at ht
  subst ht
  (repeat' split) <;> first | (with_reducible assumption) | simp +contextual (maxDischargeDepth := 40) [*]

theorem inv_execCoalesceTimerExpiry (p : PortIx) (s : State) (hG : InvAt adr s) : ∀ t, (execCoalesceTimerExpiry p s) = .next t →
    InvAt adr t := by
  intro t ht
  simp only [execCoalesceTimerExpiry, Host.Outcome.next.injEq] at ht
  subst ht
  simp +contextual (maxDischargeDepth := 40) [*]

theorem inv_execEventsLost (p : PortIx) (s : State) (hG : InvAt adr s) : ∀ t, (execEventsLost p s) = .next t → InvAt adr t := by
  intro t ht
  simp only [execEventsLost, Host.Outcome.next.injEq] at ht
  subst ht
  (repeat' split) <;> first | (with_reducible assumption) | simp +contextual (maxDischargeDepth := 40) [*]

@[simp] theorem inv_writeReg (s : State) (p : PortIx) (offset : Nat) (v : Nat) (hG : InvAt adr s) : InvAt adr
    (writeReg s p offset v) := by
  unfold writeReg
  dsimp only
  repeat' with_reducible refine inv_ite (fun _ => ?_) (fun _ => ?_)
  all_goals with_reducible first
    | exact hG
    | exact inv_State_setPort _ _ _ hG
    | exact inv_State_modPort _ _ _ hG
    | exact inv_State_writeReplyCtl _ _ _ hG

theorem inv_execRegisterWrite (p : PortIx) (offset size : Nat) (value : W64) (s : State) (hG : InvAt adr s) : ∀ t,
    (execRegisterWrite p offset size value s) = .next t → InvAt adr t := by
  intro t ht
  simp only [execRegisterWrite, Host.Outcome.next.injEq] at ht
  subst ht
  simp +contextual (maxDischargeDepth := 40) [*]

theorem inv_execBar2statClear (p : PortIx) (s : State) (hG : InvAt adr s) : ∀ t, (execBar2statClear p s) = .next t → InvAt adr t :=
    by
  intro t ht
  simp only [execBar2statClear, Host.Outcome.next.injEq] at ht
  subst ht
  simp +contextual (maxDischargeDepth := 40) [*]

@[simp] theorem inv_partDma (s : State) (p : PortIx) (dir : Byte) (host dev n : Nat) (hG : InvAt adr s) : InvAt adr
    (partDma s p dir host dev n) := by
  unfold partDma
  simp +contextual (maxDischargeDepth := 40) [*]

@[simp] theorem inv_stopDma (p : PortIx) (w0 : List Op) (w1 : State) (hG : InvAt adr w1) : InvAt adr (stopDma p w0 w1) := by
  induction w0 generalizing w1 with
  | nil => exact hG
  | cons o t ih =>
    unfold stopDma
    split
    · exact ih _ (inv_partDma _ _ _ _ _ _ ⟨hG.tc, hG.addr, hG.mem⟩)
    · exact ih _ hG

@[simp] theorem inv_State_resetPort (s : State) (p : PortIx) (hG : InvAt adr s) : InvAt adr (State.resetPort s p) := by
  unfold State.resetPort
  simp +contextual (maxDischargeDepth := 40) [*]

@[simp] theorem inv_State_linkLoss (s : State) (p : PortIx) (hG : InvAt adr s) : InvAt adr (State.linkLoss s p) := by
  unfold State.linkLoss
  simp +contextual (maxDischargeDepth := 40) [*]

theorem inv_execPortLinkDown (p : PortIx) (s : State) (hG : InvAt adr s) : ∀ t, (execPortLinkDown p s) = .next t → InvAt adr t := by
  intro t ht
  simp only [execPortLinkDown, Host.Outcome.next.injEq] at ht
  subst ht
  simp +contextual (maxDischargeDepth := 40) [*]

theorem inv_execPerstAssert (p : PortIx) (low : Bool) (s : State) (hG : InvAt adr s) : ∀ t, (execPerstAssert p low s) = .next t →
    InvAt adr t := by
  intro t ht
  simp only [execPerstAssert, Host.Outcome.next.injEq] at ht
  subst ht
  simp +contextual (maxDischargeDepth := 40) [*]

theorem inv_execPortLinkUp (p : PortIx) (speed width : BitVec 4) (s : State) (hG : InvAt adr s) : ∀ t,
    (execPortLinkUp p speed width s) = .next t → InvAt adr t := by
  intro t ht
  simp only [execPortLinkUp, Host.Outcome.next.injEq] at ht
  subst ht
  simp +contextual (maxDischargeDepth := 40) [*]

theorem inv_execPortReset (p : PortIx) (s : State) (hG : InvAt adr s) : ∀ t, (execPortReset p s) = .next t → InvAt adr t := by
  intro t ht
  simp only [execPortReset, Host.Outcome.next.injEq] at ht
  subst ht
  simp +contextual (maxDischargeDepth := 40) [*]

theorem inv_execGraceExpiry (p : PortIx) (s : State) (hG : InvAt adr s) : ∀ t, (execGraceExpiry p s) = .next t → InvAt adr t := by
  intro t ht
  simp only [execGraceExpiry, Host.Outcome.next.injEq] at ht
  subst ht
  simp +contextual (maxDischargeDepth := 40) [*]

end Sys2Proof.Machine
end

