-- ==== Sys2Proof/Laws/KeepDevice.lean ====
section
/-!
SUPPORT. The operations of Machine/Device.lean keep the invariant.
-/

namespace Sys2Proof.Machine

variable {adr : W32 × Bool}

set_option linter.unusedTactic false
set_option linter.unreachableTactic false

@[simp] theorem inv_nopNow (h : Hdr) (data : List Byte) (w0 : Nat) (w1 : State) (hG : InvAt adr w1) : InvAt adr
    (nopNow h data w0 w1) := by
  unfold nopNow
  simp +contextual (maxDischargeDepth := 40) [*]

theorem inv_execNop (h : Hdr) (data : List Byte) (s : State) (hG : InvAt adr s) : ∀ t, (execNop h data s) = .next t → InvAt adr t
    := by
  intro t ht
  simp only [execNop, Host.Outcome.next.injEq] at ht
  subst ht
  simp +contextual (maxDischargeDepth := 40) [*]

@[simp] theorem inv_devInfoNow (h : Hdr) (w0 : Nat) (w1 : State) (hG : InvAt adr w1) : InvAt adr (devInfoNow h w0 w1) := by
  unfold devInfoNow
  simp +contextual (maxDischargeDepth := 40) [*]

theorem inv_execDevInfo (h : Hdr) (s : State) (hG : InvAt adr s) : ∀ t, (execDevInfo h s) = .next t → InvAt adr t := by
  intro t ht
  simp only [execDevInfo, Host.Outcome.next.injEq] at ht
  subst ht
  simp +contextual (maxDischargeDepth := 40) [*]

@[simp] theorem inv_regReadNow (h : Hdr) (n : W16) (w0 : Nat) (w1 : State) (hG : InvAt adr w1) : InvAt adr (regReadNow h n w0 w1)
    := by
  unfold regReadNow
  simp +contextual (maxDischargeDepth := 40) [*]

theorem inv_execRegRead (h : Hdr) (regnum : W16) (s : State) (hG : InvAt adr s) : ∀ t, (execRegRead h regnum s) = .next t → InvAt
    adr t := by
  intro t ht
  simp only [execRegRead, Host.Outcome.next.injEq] at ht
  subst ht
  simp +contextual (maxDischargeDepth := 40) [*]

theorem weightsOk_write (v : Nat) : weightsOk (tcweightWrite v) = true := by
  have h : ∀ a b c : Fin 16, weightsOk (BitVec.ofNat 32 (a.val + b.val * 2 ^ 8 + c.val * 2 ^ 16 + 2 ^ 20)) = true
    := by decide +kernel
  exact h ⟨v % 16, Nat.mod_lt _ (by decide)⟩ ⟨v / 2 ^ 8 % 16, Nat.mod_lt _ (by decide)⟩ ⟨v / 2 ^ 16 % 16, Nat.mod_lt _ (by decide)⟩

@[simp] theorem inv_regWriteNow (h : Hdr) (n : W16) (v : W64) (w0 : Nat) (w1 : State) (hG : InvAt adr w1) : InvAt adr
    (regWriteNow h n v w0 w1) := by
  unfold regWriteNow
  refine inv_runModule _ _ _ _ _ _ (fun s id h' hs => ?_) hG
  exact inv_finishModule _ _ _ _ _ ⟨weightsAt_of (weightsOk_write _), hs.addr, hs.mem⟩

theorem inv_execRegWrite (h : Hdr) (regnum : W16) (value : W64) (s : State) (hG : InvAt adr s) : ∀ t,
    (execRegWrite h regnum value s) = .next t → InvAt adr t := by
  intro t ht
  simp only [execRegWrite, Host.Outcome.next.injEq] at ht
  subst ht
  simp +contextual (maxDischargeDepth := 40) [*]

@[simp] theorem inv_portGrantNow (h : Hdr) (g : Byte) (w0 : Nat) (w1 : State) (hG : InvAt adr w1) : InvAt adr
    (portGrantNow h g w0 w1) := by
  unfold portGrantNow
  simp +contextual (maxDischargeDepth := 40) [*]

theorem inv_execPortGrant (h : Hdr) (grant : Byte) (s : State) (hG : InvAt adr s) : ∀ t, (execPortGrant h grant s) = .next t →
    InvAt adr t := by
  intro t ht
  simp only [execPortGrant, Host.Outcome.next.injEq] at ht
  subst ht
  simp +contextual (maxDischargeDepth := 40) [*]

@[simp] theorem inv_takeAllot (p : PortIx) (s : State) (a : Nat) (hG : InvAt adr s) : InvAt adr (takeAllot p s a) := by
  unfold takeAllot
  (repeat' split) <;> first | (with_reducible assumption) | simp +contextual (maxDischargeDepth := 40) [*]

@[simp] theorem inv_takeoverBody (h : Hdr) (a : W16) (s : State) (id : Nat) (p : PortIx) (hG : InvAt adr s) : InvAt adr
    (takeoverBody h a s id p) := by
  unfold takeoverBody
  simp +contextual (maxDischargeDepth := 40) [*]

@[simp] theorem inv_takeoverNow (h : Hdr) (a : W16) (w0 : Nat) (w1 : State) (hG : InvAt adr w1) : InvAt adr (takeoverNow h a w0 w1)
    := by
  unfold takeoverNow
  repeat' (first
    | (with_reducible assumption)
    | (simp +contextual (maxDischargeDepth := 40) [*]; done)
    | apply inv_runModule
    | intro _
    | dsimp only
    | split
    | apply inv_foldl)

theorem inv_execTakeover (h : Hdr) (allot : W16) (s : State) (hG : InvAt adr s) : ∀ t, (execTakeover h allot s) = .next t → InvAt
    adr t := by
  intro t ht
  simp only [execTakeover, Host.Outcome.next.injEq] at ht
  subst ht
  simp +contextual (maxDischargeDepth := 40) [*]

end Sys2Proof.Machine
end

