-- ==== Sys2Proof/Laws/KeepSecurity.lean ====
section
/-!
SUPPORT. The operations of Machine/Security.lean keep the invariant.
-/

namespace Sys2Proof.Machine

variable {adr : W32 × Bool}

set_option linter.unusedTactic false
set_option linter.unreachableTactic false

@[simp] theorem inv_attestNow (h : Hdr) (nonce : List Byte) (w0 : Nat) (w1 : State) (hG : InvAt adr w1) : InvAt adr
    (attestNow h nonce w0 w1) := by
  unfold attestNow
  simp +contextual (maxDischargeDepth := 40) [*]

theorem inv_execAttest (h : Hdr) (nonce : List Byte) (s : State) (hG : InvAt adr s) : ∀ t, (execAttest h nonce s) = .next t → InvAt
    adr t := by
  intro t ht
  simp only [execAttest, Host.Outcome.next.injEq] at ht
  subst ht
  simp +contextual (maxDischargeDepth := 40) [*]

@[simp] theorem inv_certReadNow (h : Hdr) (w0 : Nat) (w1 : State) (hG : InvAt adr w1) : InvAt adr (certReadNow h w0 w1) := by
  unfold certReadNow
  simp +contextual (maxDischargeDepth := 40) [*]

theorem inv_execCertRead (h : Hdr) (s : State) (hG : InvAt adr s) : ∀ t, (execCertRead h s) = .next t → InvAt adr t := by
  intro t ht
  simp only [execCertRead, Host.Outcome.next.injEq] at ht
  subst ht
  simp +contextual (maxDischargeDepth := 40) [*]

@[simp] theorem inv_fwStageNow (h : Hdr) (off : W32) (data : List Byte) (w0 : Nat) (w1 : State) (hG : InvAt adr w1) : InvAt adr
    (fwStageNow h off data w0 w1) := by
  unfold fwStageNow
  simp +contextual (maxDischargeDepth := 40) [*]

theorem inv_execFwStage (h : Hdr) (offset : W32) (data : List Byte) (s : State) (hG : InvAt adr s) : ∀ t,
    (execFwStage h offset data s) = .next t → InvAt adr t := by
  intro t ht
  simp only [execFwStage, Host.Outcome.next.injEq] at ht
  subst ht
  simp +contextual (maxDischargeDepth := 40) [*]

@[simp] theorem inv_copySection (s : State) (slot : Nat) (hG : InvAt adr s) : InvAt adr (copySection s slot) := by
  unfold copySection
  simp +contextual (maxDischargeDepth := 40) [*]

@[simp] theorem inv_activate (s : State) (id : Nat) (c : Instr) (slot need : Nat) (hG : InvAt adr s) : InvAt adr
    (activate s id c slot need) := by
  unfold activate
  simp +contextual (maxDischargeDepth := 40) [*]

@[simp] theorem inv_fwActivateNow (h : Hdr) (adv : Byte) (w0 : Nat) (w1 : State) (hG : InvAt adr w1) : InvAt adr
    (fwActivateNow h adv w0 w1) := by
  unfold fwActivateNow
  simp +contextual (maxDischargeDepth := 40) [*]

theorem inv_execFwActivate (h : Hdr) (advance : Byte) (s : State) (hG : InvAt adr s) : ∀ t, (execFwActivate h advance s) = .next t
    → InvAt adr t := by
  intro t ht
  simp only [execFwActivate, Host.Outcome.next.injEq] at ht
  subst ht
  simp +contextual (maxDischargeDepth := 40) [*]

@[simp] theorem inv_fuseBegin (s : State) (id : Nat) (c : Instr) (setting left : Nat) (spend : Boot → Boot) (payload : List Byte)
    (hG : InvAt adr s) : InvAt adr (fuseBegin s id c setting left spend payload) := by
  unfold fuseBegin
  simp +contextual (maxDischargeDepth := 40) [*]

@[simp] theorem inv_fuseEnd (s : State) (o : Op) (setting left : Nat) (apply : Boot → Boot) (hG : InvAt adr s) : InvAt adr
    (fuseEnd s o setting left apply) := by
  unfold fuseEnd
  (repeat' split) <;> first | (with_reducible assumption) | simp +contextual (maxDischargeDepth := 40) [*]

@[simp] theorem inv_exhausted (s : State) (id : Nat) (c : Instr) (hG : InvAt adr s) : InvAt adr (exhausted s id c) := by
  unfold exhausted
  simp +contextual (maxDischargeDepth := 40) [*]

@[simp] theorem inv_repairCommitNow (h : Hdr) (w0 : Nat) (w1 : State) (hG : InvAt adr w1) : InvAt adr (repairCommitNow h w0 w1) :=
    by
  unfold repairCommitNow
  simp +contextual (maxDischargeDepth := 40) [*]

@[simp] theorem inv_repairCommitEnd (s : State) (o : Op) (n : Nat) (hG : InvAt adr s) : InvAt adr (repairCommitEnd s o n) := by
  unfold repairCommitEnd
  simp +contextual (maxDischargeDepth := 40) [*]

theorem inv_execRepairCommit (h : Hdr) (s : State) (hG : InvAt adr s) : ∀ t, (execRepairCommit h s) = .next t → InvAt adr t := by
  intro t ht
  simp only [execRepairCommit, Host.Outcome.next.injEq] at ht
  subst ht
  simp +contextual (maxDischargeDepth := 40) [*]

@[simp] theorem inv_keyRotateNow (h : Hdr) (hash : List Byte) (w0 : Nat) (w1 : State) (hG : InvAt adr w1) : InvAt adr
    (keyRotateNow h hash w0 w1) := by
  unfold keyRotateNow
  simp +contextual (maxDischargeDepth := 40) [*]

theorem inv_execKeyRotate (h : Hdr) (hash : List Byte) (s : State) (hG : InvAt adr s) : ∀ t, (execKeyRotate h hash s) = .next t →
    InvAt adr t := by
  intro t ht
  simp only [execKeyRotate, Host.Outcome.next.injEq] at ht
  subst ht
  simp +contextual (maxDischargeDepth := 40) [*]

@[simp] theorem inv_primarySetNow (h : Hdr) (port : Byte) (w0 : Nat) (w1 : State) (hG : InvAt adr w1) : InvAt adr
    (primarySetNow h port w0 w1) := by
  unfold primarySetNow
  simp +contextual (maxDischargeDepth := 40) [*]

theorem inv_execPrimarySet (h : Hdr) (port : Byte) (s : State) (hG : InvAt adr s) : ∀ t, (execPrimarySet h port s) = .next t →
    InvAt adr t := by
  intro t ht
  simp only [execPrimarySet, Host.Outcome.next.injEq] at ht
  subst ht
  simp +contextual (maxDischargeDepth := 40) [*]

@[simp] theorem inv_debugLockNow (h : Hdr) (w0 : Nat) (w1 : State) (hG : InvAt adr w1) : InvAt adr (debugLockNow h w0 w1) := by
  unfold debugLockNow
  simp +contextual (maxDischargeDepth := 40) [*]

@[simp] theorem inv_fuseDone (s : State) (o : Op) (hG : InvAt adr s) : InvAt adr (fuseDone s o) := by
  unfold fuseDone
  (repeat' split) <;> first | (with_reducible assumption) | simp +contextual (maxDischargeDepth := 40) [*]

theorem inv_execDebugLock (h : Hdr) (s : State) (hG : InvAt adr s) : ∀ t, (execDebugLock h s) = .next t → InvAt adr t := by
  intro t ht
  simp only [execDebugLock, Host.Outcome.next.injEq] at ht
  subst ht
  simp +contextual (maxDischargeDepth := 40) [*]

@[simp] theorem inv_journalReadNow (h : Hdr) (first : W32) (w0 : Nat) (w1 : State) (hG : InvAt adr w1) : InvAt adr
    (journalReadNow h first w0 w1) := by
  unfold journalReadNow
  simp +contextual (maxDischargeDepth := 40) [*]

theorem inv_execJournalRead (h : Hdr) (first : W32) (s : State) (hG : InvAt adr s) : ∀ t, (execJournalRead h first s) = .next t →
    InvAt adr t := by
  intro t ht
  simp only [execJournalRead, Host.Outcome.next.injEq] at ht
  subst ht
  simp +contextual (maxDischargeDepth := 40) [*]

end Sys2Proof.Machine
end

