-- ==== Sys2Proof/Laws/KeepPower.lean ====
section
/-!
SUPPORT. The operations of Machine/Power.lean keep the invariant.
-/

namespace Sys2Proof.Machine

variable {adr : W32 × Bool}

set_option linter.unusedTactic false
set_option linter.unreachableTactic false

@[simp] theorem inv_thermalReport (s : State) (g : Nat) (hG : InvAt adr s) : InvAt adr (thermalReport s g) := by
  unfold thermalReport
  simp +contextual (maxDischargeDepth := 40) [*]

@[simp] theorem inv_thermalReports (s : State) (hG : InvAt adr s) : InvAt adr (thermalReports s) := by
  unfold thermalReports
  simp +contextual (maxDischargeDepth := 40) [*]

@[simp] theorem inv_powerReport (s : State) (hG : InvAt adr s) : InvAt adr (powerReport s) := by
  unfold powerReport
  simp +contextual (maxDischargeDepth := 40) [*]

@[simp] theorem inv_State_mapClocks (s : State) (f : SClock → SClock) (hG : InvAt adr s) : InvAt adr (State.mapClocks s f) := by
  unfold State.mapClocks
  simp +contextual (maxDischargeDepth := 40) [*]

@[simp] theorem inv_capActs (s : State) (hG : InvAt adr s) : InvAt adr (capActs s) := by
  unfold capActs
  simp +contextual (maxDischargeDepth := 40) [*]

theorem inv_execPowerSample (inputW averageW currentA vin12mV : Nat) (s : State) (hG : InvAt adr s) : ∀ t,
    (execPowerSample inputW averageW currentA vin12mV s) = .next t → InvAt adr t := by
  intro t ht
  simp only [execPowerSample, Host.Outcome.next.injEq] at ht
  subst ht
  simp +contextual (maxDischargeDepth := 40) [*]

theorem inv_execDroop (sh : SheafIx) (s : State) (hG : InvAt adr s) : ∀ t, (execDroop sh s) = .next t → InvAt adr t := by
  intro t ht
  simp only [execDroop, Host.Outcome.next.injEq] at ht
  subst ht
  simp +contextual (maxDischargeDepth := 40) [*]

theorem inv_execDroopRelease (sh : SheafIx) (s : State) (hG : InvAt adr s) : ∀ t, (execDroopRelease sh s) = .next t → InvAt adr t
    := by
  intro t ht
  simp only [execDroopRelease, Host.Outcome.next.injEq] at ht
  subst ht
  simp +contextual (maxDischargeDepth := 40) [*]

@[simp] theorem inv_State_tripCheck (s : State) (k : Nat) (t : Int) (hG : InvAt adr s) : InvAt adr (State.tripCheck s k t) := by
  unfold State.tripCheck
  simp +contextual (maxDischargeDepth := 40) [*]

theorem inv_execThermalSample (sh : SheafIx) (temp : Int) (s : State) (hG : InvAt adr s) : ∀ t, (execThermalSample sh temp s) =
    .next t → InvAt adr t := by
  intro t ht
  simp only [execThermalSample, Host.Outcome.next.injEq] at ht
  subst ht
  simp +contextual (maxDischargeDepth := 40) [*]

theorem inv_execDieThermalSample (die : Fin 20) (temp : Int) (s : State) (hG : InvAt adr s) : ∀ t,
    (execDieThermalSample die temp s) = .next t → InvAt adr t := by
  intro t ht
  simp only [execDieThermalSample, Host.Outcome.next.injEq] at ht
  subst ht
  (repeat' split) <;> first | (with_reducible assumption) | simp +contextual (maxDischargeDepth := 40) [*]

theorem inv_execClockChangeDone (sh : SheafIx) (s : State) (hG : InvAt adr s) : ∀ t, (execClockChangeDone sh s) = .next t → InvAt
    adr t := by
  intro t ht
  simp only [execClockChangeDone, Host.Outcome.next.injEq] at ht
  subst ht
  simp +contextual (maxDischargeDepth := 40) [*]

theorem inv_execRateLimitWindowEnd (w : RateWindow) (s : State) (hG : InvAt adr s) : ∀ t, (execRateLimitWindowEnd w s) = .next t →
    InvAt adr t := by
  intro t ht
  simp only [execRateLimitWindowEnd, Host.Outcome.next.injEq] at ht
  subst ht
  (repeat' split) <;> first | (with_reducible assumption) | simp +contextual (maxDischargeDepth := 40) [*]

@[simp] theorem inv_linksLost (s : State) (e : Nat) (hG : InvAt adr s) : InvAt adr (linksLost s e) := by
  unfold linksLost
  simp +contextual (maxDischargeDepth := 40) [*]

theorem inv_execNetworkDomainSleep (d : DieIx) (s : State) (hG : InvAt adr s) : ∀ t, (execNetworkDomainSleep d s) = .next t → InvAt
    adr t := by
  intro t ht
  simp only [execNetworkDomainSleep, Host.Outcome.next.injEq] at ht
  subst ht
  simp +contextual (maxDischargeDepth := 40) [*]

theorem inv_execNetworkDomainWake (d : DieIx) (s : State) (hG : InvAt adr s) : ∀ t, (execNetworkDomainWake d s) = .next t → InvAt
    adr t := by
  intro t ht
  simp only [execNetworkDomainWake, Host.Outcome.next.injEq] at ht
  subst ht
  simp +contextual (maxDischargeDepth := 40) [*]

@[simp] theorem keeps_dvfsDef (mhz : W16) : Keeps adr (dvfsDef mhz) := by
  intro s g ls hG; unfold dvfsDef
  repeat' (first
    | (with_reducible assumption)
    | (simp +contextual (maxDischargeDepth := 40) [*]; done)
    | apply inv_runModule
    | intro _
    | dsimp only
    | split
    | apply inv_foldl)

theorem inv_execDvfsSet (h : Hdr) (mhz : W16) (s : State) (hG : InvAt adr s) : ∀ t, (execDvfsSet h mhz s) = .next t → InvAt adr t
    := by
  intro t ht
  simp only [execDvfsSet, Host.Outcome.next.injEq] at ht
  subst ht
  simp +contextual (maxDischargeDepth := 40) [*]

@[simp] theorem keeps_thermalReadDef : Keeps adr thermalReadDef := by
  intro s g ls hG; unfold thermalReadDef
  simp +contextual (maxDischargeDepth := 40) [*]

theorem inv_execThermalRead (h : Hdr) (s : State) (hG : InvAt adr s) : ∀ t, (execThermalRead h s) = .next t → InvAt adr t := by
  intro t ht
  simp only [execThermalRead, Host.Outcome.next.injEq] at ht
  subst ht
  simp +contextual (maxDischargeDepth := 40) [*]

@[simp] theorem inv_powerCapNow (h : Hdr) (watts : W16) (w0 : Nat) (w1 : State) (hG : InvAt adr w1) : InvAt adr
    (powerCapNow h watts w0 w1) := by
  unfold powerCapNow
  simp +contextual (maxDischargeDepth := 40) [*]

theorem inv_execPowerCap (h : Hdr) (watts : W16) (s : State) (hG : InvAt adr s) : ∀ t, (execPowerCap h watts s) = .next t → InvAt
    adr t := by
  intro t ht
  simp only [execPowerCap, Host.Outcome.next.injEq] at ht
  subst ht
  simp +contextual (maxDischargeDepth := 40) [*]

@[simp] theorem inv_powerReadNow (h : Hdr) (w0 : Nat) (w1 : State) (hG : InvAt adr w1) : InvAt adr (powerReadNow h w0 w1) := by
  unfold powerReadNow
  simp +contextual (maxDischargeDepth := 40) [*]

theorem inv_execPowerRead (h : Hdr) (s : State) (hG : InvAt adr s) : ∀ t, (execPowerRead h s) = .next t → InvAt adr t := by
  intro t ht
  simp only [execPowerRead, Host.Outcome.next.injEq] at ht
  subst ht
  simp +contextual (maxDischargeDepth := 40) [*]

end Sys2Proof.Machine
end

