-- ==== Sys2Proof/Laws/KeepUnits.lean ====
section
/-!
SUPPORT. The operations of Machine/Units.lean keep the invariant.
-/

namespace Sys2Proof.Machine

variable {adr : W32 × Bool}

set_option linter.unusedTactic false
set_option linter.unreachableTactic false

@[simp] theorem keeps_plainUnit (b : Bool) (act : State → Nat → List Nat → ActRes)
    (h : ∀ s g ls, InvAt adr s → InvAt adr (act s g ls).state) : Keeps adr (plainUnit b act) := h

@[simp] theorem inv_eachReed (f : State → Nat → State) (s : State) (g : Nat) (ls : List Nat)
    (hf : ∀ v0 v1, InvAt adr v0 → InvAt adr (f v0 v1)) (hG : InvAt adr s) : InvAt adr (eachReed f s g ls).state := by
  unfold eachReed
  simp +contextual (maxDischargeDepth := 40) [*]

@[simp] theorem inv_wakeSheaf (s : State) (g : Nat) (hG : InvAt adr s) : InvAt adr (wakeSheaf s g) := by
  unfold wakeSheaf
  simp +contextual (maxDischargeDepth := 40) [*]

@[simp] theorem keeps_wakeDef : Keeps adr wakeDef := by
  intro s g ls hG; unfold wakeDef
  simp +contextual (maxDischargeDepth := 40) [*]

theorem inv_execWake (h : Hdr) (s : State) (hG : InvAt adr s) : ∀ t, (execWake h s) = .next t → InvAt adr t := by
  intro t ht
  simp only [execWake, Host.Outcome.next.injEq] at ht
  subst ht
  simp +contextual (maxDischargeDepth := 40) [*]

@[simp] theorem inv_State_tellAwake (s : State) (o : Op) (hG : InvAt adr s) : InvAt adr (State.tellAwake s o) := by
  unfold State.tellAwake
  (repeat' split) <;> first | (with_reducible assumption) | simp +contextual (maxDischargeDepth := 40) [*]

@[simp] theorem inv_wakeReplies (s : State) (hG : InvAt adr s) : InvAt adr (wakeReplies s) := by
  unfold wakeReplies
  simp +contextual (maxDischargeDepth := 40) [*]

theorem inv_execWakeComplete (g : SheafIx) (s : State) (hG : InvAt adr s) : ∀ t, (execWakeComplete g s) = .next t → InvAt adr t :=
    by
  intro t ht
  simp only [execWakeComplete, Host.Outcome.next.injEq] at ht
  subst ht
  simp +contextual (maxDischargeDepth := 40) [*]

theorem inv_execPllLock (d : DieIx) (s : State) (hG : InvAt adr s) : ∀ t, (execPllLock d s) = .next t → InvAt adr t := by
  intro t ht
  simp only [execPllLock, Host.Outcome.next.injEq] at ht
  subst ht
  simp +contextual (maxDischargeDepth := 40) [*]

theorem inv_execPllStop (d : DieIx) (s : State) (hG : InvAt adr s) : ∀ t, (execPllStop d s) = .next t → InvAt adr t := by
  intro t ht
  simp only [execPllStop, Host.Outcome.next.injEq] at ht
  subst ht
  simp +contextual (maxDischargeDepth := 40) [*]

@[simp] theorem inv_leavePhase (s : State) (g : Nat) (hG : InvAt adr s) : InvAt adr (leavePhase s g) := by
  unfold leavePhase
  simp +contextual (maxDischargeDepth := 40) [*]

theorem inv_execPoweringSlotGrant (g : SheafIx) (s : State) (hG : InvAt adr s) : ∀ t, (execPoweringSlotGrant g s) = .next t → InvAt
    adr t := by
  intro t ht
  simp only [execPoweringSlotGrant, Host.Outcome.next.injEq] at ht
  subst ht
  have leave : ∀ (u : State) (l : List Nat), InvAt adr u → InvAt adr (match l with | e :: _ => leavePhase u e | [] => u) := by
    intro u l hu; cases l
    · exact hu
    · exact inv_leavePhase _ _ hu
  split
  · exact hG
  · have key : ∀ u : State, InvAt adr u → InvAt adr ({ u.modSheaf g (fun x => { x with power := .powering }) with
        pow := { u.pow with inPhase := u.pow.inPhase ++ [g.val], admitQueue := u.pow.admitQueue.filter (· ≠ g.val) } }) :=
      fun u hu => ⟨hu.tc, hu.addr, hu.mem⟩
    apply key
    refine inv_ite (fun _ => ?_) (fun _ => leave _ _ ?_) <;> exact inv_ite (fun _ => hG) (fun _ => leave _ _ hG)

@[simp] theorem inv_sleepSheaf (s : State) (g : Nat) (hG : InvAt adr s) : InvAt adr (sleepSheaf s g) := by
  unfold sleepSheaf
  simp +contextual (maxDischargeDepth := 40) [*]

@[simp] theorem keeps_sleepDef : Keeps adr sleepDef := by
  intro s g ls hG; unfold sleepDef
  simp +contextual (maxDischargeDepth := 40) [*]

@[simp] theorem inv_domainsOff (s : State) (w0 : Instr) (hG : InvAt adr s) : InvAt adr (domainsOff s w0) := by
  unfold domainsOff
  (repeat' split) <;> first | (with_reducible assumption) | simp +contextual (maxDischargeDepth := 40) [*]

theorem inv_execSleep (h : Hdr) (s : State) (hG : InvAt adr s) : ∀ t, (execSleep h s) = .next t → InvAt adr t := by
  intro t ht
  simp only [execSleep, Host.Outcome.next.injEq] at ht
  subst ht
  simp +contextual (maxDischargeDepth := 40) [*]

@[simp] theorem inv_resetSheaf (s : State) (g : Nat) (ls : List Nat) (hG : InvAt adr s) : InvAt adr (resetSheaf s g ls) := by
  unfold resetSheaf
  simp +contextual (maxDischargeDepth := 40) [*]

@[simp] theorem keeps_resetDef : Keeps adr resetDef := by
  intro s g ls hG; unfold resetDef
  simp +contextual (maxDischargeDepth := 40) [*]

theorem inv_execReset (h : Hdr) (s : State) (hG : InvAt adr s) : ∀ t, (execReset h s) = .next t → InvAt adr t := by
  intro t ht
  simp only [execReset, Host.Outcome.next.injEq] at ht
  subst ht
  simp +contextual (maxDischargeDepth := 40) [*]

@[simp] theorem keeps_queryDef : Keeps adr queryDef := by
  intro s g ls hG; unfold queryDef
  simp +contextual (maxDischargeDepth := 40) [*]

theorem inv_execQuery (h : Hdr) (s : State) (hG : InvAt adr s) : ∀ t, (execQuery h s) = .next t → InvAt adr t := by
  intro t ht
  simp only [execQuery, Host.Outcome.next.injEq] at ht
  subst ht
  simp +contextual (maxDischargeDepth := 40) [*]

@[simp] theorem inv_progLoadAct (h : Hdr) (source n entry a : Nat) (inline : List Byte) (errs : List MemErr) (s : State) (g : Nat)
    (ls : List Nat) (hG : InvAt adr s) : InvAt adr (progLoadAct h source n entry a inline errs s g ls).state := by
  have key : ∀ (u : State) (b : Bool) (w : W64), InvAt adr u → InvAt adr (if b then u.fresh else (w, u)).2 := by
    intro u b w hu; cases b <;> simp [hu]
  unfold progLoadAct
  dsimp only
  refine inv_State_modSheaf _ _ _ (key _ _ _ ?_)
  simp +contextual (maxDischargeDepth := 40) [*]

@[simp] theorem keeps_progLoadDef (h : Hdr) (source : Byte) (count entry : W16) (address : W64) (img : List Byte)
    (errs : List MemErr) : Keeps adr (progLoadDef h source count entry address img errs) := by
  intro s g ls hG; unfold progLoadDef
  simp +contextual (maxDischargeDepth := 40) [*]

theorem inv_execProgLoad (h : Hdr) (source : Byte) (count entry : W16) (address : W64) (image : List Byte) (s : State)
    (hG : InvAt adr s) : ∀ t, (execProgLoad h source count entry address image s) = .next t → InvAt adr t := by
  intro t ht
  simp only [execProgLoad, Host.Outcome.next.injEq] at ht
  subst ht
  simp +contextual (maxDischargeDepth := 40) [*]

@[simp] theorem keeps_startDef (h : Hdr) (args : List W32) : Keeps adr (startDef h args) := by
  intro s g ls hG; unfold startDef
  simp +contextual (maxDischargeDepth := 40) [*]

theorem inv_execStart (h : Hdr) (args : List W32) (s : State) (hG : InvAt adr s) : ∀ t, (execStart h args s) = .next t → InvAt adr
    t := by
  intro t ht
  simp only [execStart, Host.Outcome.next.injEq] at ht
  subst ht
  simp +contextual (maxDischargeDepth := 40) [*]

@[simp] theorem inv_toLoaded (s : State) (r : Nat) (hG : InvAt adr s) : InvAt adr (toLoaded s r) := by
  unfold toLoaded
  simp +contextual (maxDischargeDepth := 40) [*]

@[simp] theorem inv_stopReed (u : UState) (s : State) (r : Nat) (hG : InvAt adr s) : InvAt adr (stopReed u s r) := by
  unfold stopReed
  simp +contextual (maxDischargeDepth := 40) [*]

@[simp] theorem keeps_pauseDef : Keeps adr pauseDef := by
  intro s g ls hG; unfold pauseDef
  simp +contextual (maxDischargeDepth := 40) [*]

theorem inv_execPause (h : Hdr) (s : State) (hG : InvAt adr s) : ∀ t, (execPause h s) = .next t → InvAt adr t := by
  intro t ht
  simp only [execPause, Host.Outcome.next.injEq] at ht
  subst ht
  simp +contextual (maxDischargeDepth := 40) [*]

@[simp] theorem keeps_resumeDef : Keeps adr resumeDef := by
  intro s g ls hG; unfold resumeDef
  simp +contextual (maxDischargeDepth := 40) [*]

theorem inv_execResume (h : Hdr) (s : State) (hG : InvAt adr s) : ∀ t, (execResume h s) = .next t → InvAt adr t := by
  intro t ht
  simp only [execResume, Host.Outcome.next.injEq] at ht
  subst ht
  simp +contextual (maxDischargeDepth := 40) [*]

@[simp] theorem inv_drainReed (s : State) (r : Nat) (hG : InvAt adr s) : InvAt adr (drainReed s r) := by
  unfold drainReed
  simp +contextual (maxDischargeDepth := 40) [*]

@[simp] theorem keeps_drainDef : Keeps adr drainDef := by
  intro s g ls hG; unfold drainDef
  simp +contextual (maxDischargeDepth := 40) [*]

theorem inv_execDrain (h : Hdr) (s : State) (hG : InvAt adr s) : ∀ t, (execDrain h s) = .next t → InvAt adr t := by
  intro t ht
  simp only [execDrain, Host.Outcome.next.injEq] at ht
  subst ht
  simp +contextual (maxDischargeDepth := 40) [*]

theorem inv_execProgramEnd (r : ReedIx) (s : State) (hG : InvAt adr s) : ∀ t, (execProgramEnd r s) = .next t → InvAt adr t := by
  intro t ht
  simp only [execProgramEnd, Host.Outcome.next.injEq] at ht
  subst ht
  simp +contextual (maxDischargeDepth := 40) [*]

theorem inv_execDrainComplete (r : ReedIx) (s : State) (hG : InvAt adr s) : ∀ t, (execDrainComplete r s) = .next t → InvAt adr t :=
    by
  intro t ht
  simp only [execDrainComplete, Host.Outcome.next.injEq] at ht
  subst ht
  simp +contextual (maxDischargeDepth := 40) [*]

theorem inv_execDrainLimit (r : ReedIx) (s : State) (hG : InvAt adr s) : ∀ t, (execDrainLimit r s) = .next t → InvAt adr t := by
  intro t ht
  simp only [execDrainLimit, Host.Outcome.next.injEq] at ht
  subst ht
  simp +contextual (maxDischargeDepth := 40) [*]

@[simp] theorem keeps_uregReadDef (n : W16) : Keeps adr (uregReadDef n) := by
  intro s g ls hG; unfold uregReadDef
  simp +contextual (maxDischargeDepth := 40) [*]

theorem inv_execUregRead (h : Hdr) (regnum : W16) (s : State) (hG : InvAt adr s) : ∀ t, (execUregRead h regnum s) = .next t → InvAt
    adr t := by
  intro t ht
  simp only [execUregRead, Host.Outcome.next.injEq] at ht
  subst ht
  simp +contextual (maxDischargeDepth := 40) [*]

@[simp] theorem keeps_uregWriteDef (n : W16) (v : W64) : Keeps adr (uregWriteDef n v) := by
  intro s g ls hG; unfold uregWriteDef
  simp +contextual (maxDischargeDepth := 40) [*]

theorem inv_execUregWrite (h : Hdr) (regnum : W16) (value : W64) (s : State) (hG : InvAt adr s) : ∀ t,
    (execUregWrite h regnum value s) = .next t → InvAt adr t := by
  intro t ht
  simp only [execUregWrite, Host.Outcome.next.injEq] at ht
  subst ht
  simp +contextual (maxDischargeDepth := 40) [*]

@[simp] theorem keeps_spReadDef (off n : Nat) : Keeps adr (spReadDef off n) := by
  intro s g ls hG; unfold spReadDef
  simp +contextual (maxDischargeDepth := 40) [*]

theorem inv_execSpRead (h : Hdr) (offset bytes : W16) (s : State) (hG : InvAt adr s) : ∀ t, (execSpRead h offset bytes s) = .next t
    → InvAt adr t := by
  intro t ht
  simp only [execSpRead, Host.Outcome.next.injEq] at ht
  subst ht
  simp +contextual (maxDischargeDepth := 40) [*]

@[simp] theorem keeps_spWriteDef (off : Nat) (data : List Byte) : Keeps adr (spWriteDef off data) := by
  intro s g ls hG; unfold spWriteDef
  simp +contextual (maxDischargeDepth := 40) [*]

theorem inv_execSpWrite (h : Hdr) (offset : W16) (data : List Byte) (s : State) (hG : InvAt adr s) : ∀ t,
    (execSpWrite h offset data s) = .next t → InvAt adr t := by
  intro t ht
  simp only [execSpWrite, Host.Outcome.next.injEq] at ht
  subst ht
  simp +contextual (maxDischargeDepth := 40) [*]

@[simp] theorem keeps_spareStatusDef : Keeps adr spareStatusDef := by
  intro s g ls hG; unfold spareStatusDef
  simp +contextual (maxDischargeDepth := 40) [*]

theorem inv_execSpareStatus (h : Hdr) (s : State) (hG : InvAt adr s) : ∀ t, (execSpareStatus h s) = .next t → InvAt adr t := by
  intro t ht
  simp only [execSpareStatus, Host.Outcome.next.injEq] at ht
  subst ht
  simp +contextual (maxDischargeDepth := 40) [*]

@[simp] theorem inv_recordRepair (s : State) (r position : Nat) (runtime : Bool) (hG : InvAt adr s) : InvAt adr
    (recordRepair s r position runtime).1 := by
  unfold recordRepair
  simp +contextual (maxDischargeDepth := 40) [*]

theorem inv_execHardwareFault (r : ReedIx) (s : State) (hG : InvAt adr s) : ∀ t, (execHardwareFault r s) = .next t → InvAt adr t :=
    by
  intro t ht
  simp only [execHardwareFault, Host.Outcome.next.injEq] at ht
  subst ht
  simp +contextual (maxDischargeDepth := 40) [*]

theorem inv_execUnitFaultedCoalesce (g : SheafIx) (s : State) (hG : InvAt adr s) : ∀ t, (execUnitFaultedCoalesce g s) = .next t →
    InvAt adr t := by
  intro t ht
  simp only [execUnitFaultedCoalesce, Host.Outcome.next.injEq] at ht
  subst ht
  (repeat' split) <;> first | (with_reducible assumption) | simp +contextual (maxDischargeDepth := 40) [*]

end Sys2Proof.Machine
end

