-- ==== Sys2Proof/Laws/KeepMemCmd.lean ====
section
/-!
SUPPORT. The operations of Machine/MemCmd.lean keep the invariant.
-/

namespace Sys2Proof.Machine

variable {adr : W32 × Bool}

set_option linter.unusedTactic false
set_option linter.unreachableTactic false

@[simp] theorem inv_memGrantNow (h : Hdr) (allot : W16) (base size : W64) (w0 : Nat) (w1 : State) (hG : InvAt adr w1) : InvAt adr
    (memGrantNow h allot base size w0 w1) := by
  unfold memGrantNow
  repeat' (first
    | (with_reducible assumption)
    | (simp +contextual (maxDischargeDepth := 40) [*]; done)
    | apply inv_runModule
    | intro _
    | dsimp only
    | split
    | apply inv_foldl)

theorem inv_execMemGrant (h : Hdr) (allot : W16) (base size : W64) (s : State) (hG : InvAt adr s) : ∀ t,
    (execMemGrant h allot base size s) = .next t → InvAt adr t := by
  intro t ht
  simp only [execMemGrant, Host.Outcome.next.injEq] at ht
  subst ht
  simp +contextual (maxDischargeDepth := 40) [*]

@[simp] theorem inv_memRevokeNow (h : Hdr) (allot : W16) (base : W64) (w0 : Nat) (w1 : State) (hG : InvAt adr w1) : InvAt adr
    (memRevokeNow h allot base w0 w1) := by
  unfold memRevokeNow
  repeat' (first
    | (with_reducible assumption)
    | (simp +contextual (maxDischargeDepth := 40) [*]; done)
    | apply inv_runModule
    | intro _
    | dsimp only
    | split
    | apply inv_foldl)

theorem inv_execMemRevoke (h : Hdr) (allot : W16) (base : W64) (s : State) (hG : InvAt adr s) : ∀ t, (execMemRevoke h allot base s)
    = .next t → InvAt adr t := by
  intro t ht
  simp only [execMemRevoke, Host.Outcome.next.injEq] at ht
  subst ht
  simp +contextual (maxDischargeDepth := 40) [*]

@[simp] theorem inv_revokeDone (s : State) (allot base : Nat) (hG : InvAt adr s) : InvAt adr (revokeDone s allot base) := by
  unfold revokeDone
  (repeat' split) <;> first | (with_reducible assumption) | simp +contextual (maxDischargeDepth := 40) [*]

@[simp] theorem inv_hostDmaNow (h : Hdr) (dir : Byte) (host dev n : W64) (w0 : Nat) (w1 : State) (hG : InvAt adr w1) : InvAt adr
    (hostDmaNow h dir host dev n w0 w1) := by
  unfold hostDmaNow
  simp +contextual (maxDischargeDepth := 40) [*]

theorem inv_execHostDma (h : Hdr) (dir : Byte) (hostAddr devAddr bytes : W64) (s : State) (hG : InvAt adr s) : ∀ t,
    (execHostDma h dir hostAddr devAddr bytes s) = .next t → InvAt adr t := by
  intro t ht
  simp only [execHostDma, Host.Outcome.next.injEq] at ht
  subst ht
  simp +contextual (maxDischargeDepth := 40) [*]

@[simp] theorem inv_dmaIn (s : State) (o : Op) (dev : Nat) (data : List Byte) (errs : List MemErr) (st : Status) (hG : InvAt adr s)
    : InvAt adr (dmaIn s o dev data errs st) := by
  unfold dmaIn
  simp +contextual (maxDischargeDepth := 40) [*]

@[simp] theorem inv_dmaOut (s : State) (o : Op) (p : PortIx) (host dev n : Nat) (errs : List MemErr) (hG : InvAt adr s) : InvAt adr
    (dmaOut s o p host dev n errs) := by
  unfold dmaOut
  simp +contextual (maxDischargeDepth := 40) [*]

@[simp] theorem inv_dmaDone (s : State) (o : Op) (dir : Byte) (p : PortIx) (host dev n : Nat) (data : List Byte)
    (errs : List MemErr) (hG : InvAt adr s) : InvAt adr (dmaDone s o dir p host dev n data errs) := by
  unfold dmaDone
  simp +contextual (maxDischargeDepth := 40) [*]

@[simp] theorem inv_noteTimeout (s : State) (p : PortIx) (hG : InvAt adr s) : InvAt adr (noteTimeout s p) := by
  unfold noteTimeout
  simp +contextual (maxDischargeDepth := 40) [*]

theorem inv_execHostDmaReadError (op : Nat) (data : List Byte) (errs : List MemErr) (s : State) (hG : InvAt adr s) : ∀ t,
    (execHostDmaReadError op data errs s) = .next t → InvAt adr t := by
  intro t ht
  simp only [execHostDmaReadError, Host.Outcome.next.injEq] at ht
  subst ht
  (repeat' split) <;> first | (with_reducible assumption) | simp +contextual (maxDischargeDepth := 40) [*]

@[simp] theorem inv_memFillNow (h : Hdr) (dev n pattern : W64) (w0 : Nat) (w1 : State) (hG : InvAt adr w1) : InvAt adr
    (memFillNow h dev n pattern w0 w1) := by
  unfold memFillNow
  simp +contextual (maxDischargeDepth := 40) [*]

@[simp] theorem inv_fillDone (s : State) (o : Op) (dev n : Nat) (pattern : W64) (errs : List MemErr) (hG : InvAt adr s) : InvAt adr
    (fillDone s o dev n pattern errs) := by
  unfold fillDone
  simp +contextual (maxDischargeDepth := 40) [*]

theorem inv_execMemFill (h : Hdr) (devAddr bytes pattern : W64) (s : State) (hG : InvAt adr s) : ∀ t,
    (execMemFill h devAddr bytes pattern s) = .next t → InvAt adr t := by
  intro t ht
  simp only [execMemFill, Host.Outcome.next.injEq] at ht
  subst ht
  simp +contextual (maxDischargeDepth := 40) [*]

@[simp] theorem inv_apertureNow (h : Hdr) (base : W64) (w0 : Nat) (w1 : State) (hG : InvAt adr w1) : InvAt adr
    (apertureNow h base w0 w1) := by
  unfold apertureNow
  (repeat' split) <;> first | (with_reducible assumption) | simp +contextual (maxDischargeDepth := 40) [*]

theorem inv_execAperture (h : Hdr) (base : W64) (s : State) (hG : InvAt adr s) : ∀ t, (execAperture h base s) = .next t → InvAt adr
    t := by
  intro t ht
  simp only [execAperture, Host.Outcome.next.injEq] at ht
  subst ht
  simp +contextual (maxDischargeDepth := 40) [*]

@[simp] theorem inv_bar2Do (s : State) (w : HeldAccess) (hG : InvAt adr s) : InvAt adr (bar2Do s w) := by
  unfold bar2Do
  (repeat' split) <;> first | (with_reducible assumption) | simp +contextual (maxDischargeDepth := 40) [*]

@[simp] theorem inv_bar2Access (s : State) (w : HeldAccess) (hG : InvAt adr s) : InvAt adr (bar2Access s w) := by
  unfold bar2Access
  simp +contextual (maxDischargeDepth := 40) [*]

@[simp] theorem inv_flushBar2 (s : State) (hG : InvAt adr s) : InvAt adr (flushBar2 s) := by
  unfold flushBar2
  simp +contextual (maxDischargeDepth := 40) [*]

theorem inv_execBar2Write (p : PortIx) (offset : Nat) (data : List (Option Byte)) (errs : List MemErr) (s : State)
    (hG : InvAt adr s) : ∀ t, (execBar2Write p offset data errs s) = .next t → InvAt adr t := by
  intro t ht
  simp only [execBar2Write, Host.Outcome.next.injEq] at ht
  subst ht
  simp +contextual (maxDischargeDepth := 40) [*]

theorem inv_execBar2Read (p : PortIx) (offset length : Nat) (errs : List MemErr) (s : State) (hG : InvAt adr s) : ∀ t,
    (execBar2Read p offset length errs s) = .next t → InvAt adr t := by
  intro t ht
  simp only [execBar2Read, Host.Outcome.next.injEq] at ht
  subst ht
  simp +contextual (maxDischargeDepth := 40) [*]

@[simp] theorem inv_eccReadNow (h : Hdr) (clear : Byte) (w0 : Nat) (w1 : State) (hG : InvAt adr w1) : InvAt adr
    (eccReadNow h clear w0 w1) := by
  unfold eccReadNow
  simp +contextual (maxDischargeDepth := 40) [*]

theorem inv_execEccRead (h : Hdr) (clear : Byte) (s : State) (hG : InvAt adr s) : ∀ t, (execEccRead h clear s) = .next t → InvAt
    adr t := by
  intro t ht
  simp only [execEccRead, Host.Outcome.next.injEq] at ht
  subst ht
  simp +contextual (maxDischargeDepth := 40) [*]

@[simp] theorem inv_rowRetireNow (h : Hdr) (address : W64) (w0 : Nat) (w1 : State) (hG : InvAt adr w1) : InvAt adr
    (rowRetireNow h address w0 w1) := by
  unfold rowRetireNow
  simp +contextual (maxDischargeDepth := 40) [*]

theorem inv_execRowRetire (h : Hdr) (address : W64) (s : State) (hG : InvAt adr s) : ∀ t, (execRowRetire h address s) = .next t →
    InvAt adr t := by
  intro t ht
  simp only [execRowRetire, Host.Outcome.next.injEq] at ht
  subst ht
  simp +contextual (maxDischargeDepth := 40) [*]

theorem inv_execScrubRead (ch : ChanIx) (page : Nat) (errs : List MemErr) (s : State) (hG : InvAt adr s) : ∀ t,
    (execScrubRead ch page errs s) = .next t → InvAt adr t := by
  intro t ht
  simp only [execScrubRead, Host.Outcome.next.injEq] at ht
  subst ht
  simp +contextual (maxDischargeDepth := 40) [*]

@[simp] theorem inv_copyErrors (s : State) (ch p : Nat) (errs : List MemErr) (hG : InvAt adr s) : InvAt adr
    (copyErrors s ch p errs) := by
  unfold copyErrors
  simp +contextual (maxDischargeDepth := 40) [*]

theorem inv_execRowRetirementDone (ch : ChanIx) (errs : List MemErr) (s : State) (hG : InvAt adr s) : ∀ t,
    (execRowRetirementDone ch errs s) = .next t → InvAt adr t := by
  intro t ht
  simp only [execRowRetirementDone, Host.Outcome.next.injEq] at ht
  subst ht
  (repeat' split) <;> first | (with_reducible assumption) | simp +contextual (maxDischargeDepth := 40) [*]

theorem inv_execEccWindowClose (ch : ChanIx) (page : Nat) (s : State) (hG : InvAt adr s) : ∀ t, (execEccWindowClose ch page s) =
    .next t → InvAt adr t := by
  intro t ht
  simp only [execEccWindowClose, Host.Outcome.next.injEq] at ht
  subst ht
  (repeat' split) <;> first | (with_reducible assumption) | simp +contextual (maxDischargeDepth := 40) [*]

@[simp] theorem inv_trainingRecord (s : State) (ch rate : Nat) (hG : InvAt adr s) : InvAt adr (trainingRecord s ch rate).2 := by
  unfold trainingRecord
  simp +contextual (maxDischargeDepth := 40) [*]

@[simp] theorem inv_journalTraining (s : State) (ch rate rung : Nat) (retrain : Bool) (hG : InvAt adr s) : InvAt adr
    (journalTraining s ch rate rung retrain) := by
  unfold journalTraining
  simp +contextual (maxDischargeDepth := 40) [*]

theorem inv_execDriftCheck (ch : ChanIx) (beyond : Bool) (s : State) (hG : InvAt adr s) : ∀ t, (execDriftCheck ch beyond s) = .next
    t → InvAt adr t := by
  intro t ht
  simp only [execDriftCheck, Host.Outcome.next.injEq] at ht
  subst ht
  simp +contextual (maxDischargeDepth := 40) [*]

theorem inv_execChannelRetrainDone (ch : ChanIx) (s : State) (hG : InvAt adr s) : ∀ t, (execChannelRetrainDone ch s) = .next t →
    InvAt adr t := by
  intro t ht
  simp only [execChannelRetrainDone, Host.Outcome.next.injEq] at ht
  subst ht
  simp +contextual (maxDischargeDepth := 40) [*]

theorem inv_execDeviceTemperatureRead (dev : Fin 16) (temp : Int) (s : State) (hG : InvAt adr s) : ∀ t,
    (execDeviceTemperatureRead dev temp s) = .next t → InvAt adr t := by
  intro t ht
  simp only [execDeviceTemperatureRead, Host.Outcome.next.injEq] at ht
  subst ht
  simp +contextual (maxDischargeDepth := 40) [*]

theorem inv_execSelfRefreshEntry (ch : ChanIx) (s : State) (hG : InvAt adr s) : ∀ t, (execSelfRefreshEntry ch s) = .next t → InvAt
    adr t := by
  intro t ht
  simp only [execSelfRefreshEntry, Host.Outcome.next.injEq] at ht
  subst ht
  simp +contextual (maxDischargeDepth := 40) [*]

end Sys2Proof.Machine
end

