-- ==== Sys2Proof/Laws/KeepTensorCmd.lean ====
section
/-!
SUPPORT. The operations of Machine/TensorCmd.lean keep the invariant.
-/

namespace Sys2Proof.Machine

variable {adr : W32 × Bool}

set_option linter.unusedTactic false
set_option linter.unreachableTactic false

@[simp] theorem keeps_loftWriteDef (off : Nat) (data : List Byte) : Keeps adr (loftWriteDef off data) := by
  intro s g ls hG; unfold loftWriteDef
  simp +contextual (maxDischargeDepth := 40) [*]

theorem inv_execLoftWrite (h : Hdr) (offset : W32) (data : List Byte) (s : State) (hG : InvAt adr s) : ∀ t,
    (execLoftWrite h offset data s) = .next t → InvAt adr t := by
  intro t ht
  simp only [execLoftWrite, Host.Outcome.next.injEq] at ht
  subst ht
  simp +contextual (maxDischargeDepth := 40) [*]

@[simp] theorem keeps_loftReadDef (off n : Nat) : Keeps adr (loftReadDef off n) := by
  intro s g ls hG; unfold loftReadDef
  simp +contextual (maxDischargeDepth := 40) [*]

theorem inv_execLoftRead (h : Hdr) (offset : W32) (bytes : W32) (s : State) (hG : InvAt adr s) : ∀ t,
    (execLoftRead h offset bytes s) = .next t → InvAt adr t := by
  intro t ht
  simp only [execLoftRead, Host.Outcome.next.injEq] at ht
  subst ht
  simp +contextual (maxDischargeDepth := 40) [*]

@[simp] theorem inv_landAccesses (a : State × Nat) (ws : List (Nat × Byte)) (hG : InvAt adr a.1) : InvAt adr (landAccesses a ws).1 := by
  have h := inv_writeChecks a.1 3 0 ws a.1.mem.latent hG
  exact inv_writeLands _ _ (h.of_eq rfl rfl rfl)

@[simp] theorem inv_runMove (s : State) (g : Nat) (p : MovePlan) (hG : InvAt adr s) : InvAt adr (runMove s g p).state := by
  unfold runMove
  split
  · simp +contextual (maxDischargeDepth := 40) [*]
  · next fmt halo fill a b =>
    have h := inv_touchSectors s 3 0 (moveReads fmt a) s.mem.latent hG
    dsimp only
    split
    · exact inv_foldl _ _ _ (inv_foldl1 _ _ _ (inv_State_modSheaf _ _ _ (h.of_eq rfl rfl rfl)) (fun s a hs => inv_landAccesses _ _ hs))
        (fun s a hs => inv_State_poisonSector _ _ hs)
    · exact inv_State_loftStore _ _ _ _ _ (inv_State_modSheaf _ _ _ (h.of_eq rfl rfl rfl))

theorem inv_foldlM {α : Type} (l : List α) (f : MoveRes → α → MoveRes) (s : MoveRes) (h : InvAt adr s.state)
   (hf : ∀ s a, InvAt adr s.state → InvAt adr (f s a).state) : InvAt adr (l.foldl f s).state := by
  induction l generalizing s with
  | nil => exact h
  | cons a t ih => exact ih _ (hf _ _ h)

@[simp] theorem inv_moveAct (h : Hdr) (ds : List MoveDesc) (errs : List MemErr) (s : State) (g : Nat) (hG : InvAt adr s) : InvAt
    adr (moveAct h ds errs s g).state := by
  unfold moveAct
  split
  · exact hG
  · exact inv_foldlM _ _ _ hG (fun r p hr => by simp [*])

@[simp] theorem keeps_tensorMoveDef (h : Hdr) (ds : List MoveDesc) (errs : List MemErr) : Keeps adr (tensorMoveDef h ds errs) := by
  intro s g ls hG; unfold tensorMoveDef
  simp +contextual (maxDischargeDepth := 40) [*]

theorem inv_execTensorMove (h : Hdr) (descs : List MoveDesc) (s : State) (hG : InvAt adr s) : ∀ t, (execTensorMove h descs s) =
    .next t → InvAt adr t := by
  intro t ht
  simp only [execTensorMove, Host.Outcome.next.injEq] at ht
  subst ht
  simp +contextual (maxDischargeDepth := 40) [*]

@[simp] theorem inv_tensorDefineNow (h : Hdr) (handle : W16) (format : Byte) (dims : List DimRec) (w0 : Nat) (w1 : State)
    (hG : InvAt adr w1) : InvAt adr (tensorDefineNow h handle format dims w0 w1) := by
  unfold tensorDefineNow
  repeat' (first
    | (with_reducible assumption)
    | (simp +contextual (maxDischargeDepth := 40) [*]; done)
    | apply inv_runModule
    | intro _
    | dsimp only
    | split
    | apply inv_foldl)

theorem inv_execTensorDefine (h : Hdr) (handle : W16) (format : Byte) (dims : List DimRec) (s : State) (hG : InvAt adr s) : ∀ t,
    (execTensorDefine h handle format dims s) = .next t → InvAt adr t := by
  intro t ht
  simp only [execTensorDefine, Host.Outcome.next.injEq] at ht
  subst ht
  simp +contextual (maxDischargeDepth := 40) [*]

@[simp] theorem inv_tensorReleaseNow (h : Hdr) (handle : W16) (w0 : Nat) (w1 : State) (hG : InvAt adr w1) : InvAt adr
    (tensorReleaseNow h handle w0 w1) := by
  unfold tensorReleaseNow
  repeat' (first
    | (with_reducible assumption)
    | (simp +contextual (maxDischargeDepth := 40) [*]; done)
    | apply inv_runModule
    | intro _
    | dsimp only
    | split
    | apply inv_foldl)

theorem inv_execTensorRelease (h : Hdr) (handle : W16) (s : State) (hG : InvAt adr s) : ∀ t, (execTensorRelease h handle s) = .next
    t → InvAt adr t := by
  intro t ht
  simp only [execTensorRelease, Host.Outcome.next.injEq] at ht
  subst ht
  simp +contextual (maxDischargeDepth := 40) [*]

end Sys2Proof.Machine
end

