-- ==== Sys2Proof/Laws/KeepColl.lean ====
section
/-!
SUPPORT. The operations of Machine/Coll.lean keep the invariant.
-/

namespace Sys2Proof.Machine

variable {adr : W32 × Bool}

set_option linter.unusedTactic false
set_option linter.unreachableTactic false

@[simp] theorem inv_State_modHandle (s : State) (g : Nat) (a h : W16) (f : Coll → Coll) (hG : InvAt adr s) : InvAt adr
    (State.modHandle s g a h f) := by
  unfold State.modHandle
  simp +contextual (maxDischargeDepth := 40) [*]

@[simp] theorem inv_State_modBucket (s : State) (g : Nat) (a h : W16) (b : Nat) (f : Bucket → Bucket) (hG : InvAt adr s) : InvAt
    adr (State.modBucket s g a h b f) := by
  unfold State.modBucket
  simp +contextual (maxDischargeDepth := 40) [*]

@[simp] theorem inv_trussStore (s : State) (g off : Nat) (bs : List Byte) (hG : InvAt adr s) : InvAt adr (trussStore s g off bs) :=
    by
  unfold trussStore
  simp +contextual (maxDischargeDepth := 40) [*]

@[simp] theorem inv_accumulate (s : State) (g : Nat) (c : Coll) (b : Nat) (first : Bool) (hG : InvAt adr s) : InvAt adr
    (accumulate s g c b first) := by
  unfold accumulate
  simp +contextual (maxDischargeDepth := 40) [*]

@[simp] theorem inv_sendHeld (s : State) (p : Place) (c : Coll) (dest : W32) (f : BFrame) (hG : InvAt adr s) : InvAt adr
    (sendHeld s p c dest f) := by
  unfold sendHeld
  simp +contextual (maxDischargeDepth := 40) [*]

@[simp] theorem inv_touchBucket (s : State) (p : Place) (c : Coll) (hG : InvAt adr s) : InvAt adr (touchBucket s p c) := by
  unfold touchBucket
  simp +contextual (maxDischargeDepth := 40) [*]

@[simp] theorem inv_substitute (s : State) (p : Place) (c : Coll) (rank : Nat) (hG : InvAt adr s) : InvAt adr
    (substitute s p c rank) := by
  unfold substitute
  (repeat' split) <;> first | (with_reducible assumption) | simp +contextual (maxDischargeDepth := 40) [*]

@[simp] theorem inv_noteBreach (s : State) (g idx : Nat) (a h : W16) (rank : Nat) (hG : InvAt adr s) : InvAt adr
    (noteBreach s g idx a h rank) := by
  unfold noteBreach
  simp +contextual (maxDischargeDepth := 40) [*]

@[simp] theorem inv_compareCopies (s : State) (m : ModColl) (p : Place) (c : Coll) (rank : Nat) (hG : InvAt adr s) : InvAt adr
    (compareCopies s m p c rank) := by
  unfold compareCopies
  repeat' (first
    | (with_reducible assumption)
    | (simp +contextual (maxDischargeDepth := 40) [*]; done)
    | apply inv_runModule
    | intro _
    | dsimp only
    | split
    | apply inv_foldl)

@[simp] theorem inv_deliver (s : State) (p : Place) (c : Coll) (kind : Byte) (e : Int) (nf sub : Bool) (count : Nat)
    (ws : List W64) (hG : InvAt adr s) : InvAt adr (deliver s p c kind e nf sub count ws) := by
  unfold deliver
  simp +contextual (maxDischargeDepth := 40) [*]

@[simp] theorem inv_nackInputs (s : State) (m : ModColl) (p : Place) (c : Coll) (hG : InvAt adr s) : InvAt adr (nackInputs s m p c)
    := by
  unfold nackInputs
  simp +contextual (maxDischargeDepth := 40) [*]

@[simp] theorem inv_sumStep (s : State) (m : ModColl) (p : Place) (c : Coll) (hG : InvAt adr s) : InvAt adr (sumStep s m p c) := by
  unfold sumStep
  dsimp only
  split
  · split
    · exact hG
    · split
      · exact inv_nackInputs _ _ _ _ hG
      · split
        · exact inv_deliver _ _ _ _ _ _ _ _ _ (inv_State_modHandle _ _ _ _ _ (inv_State_modSheaf _ _ _ hG))
        · exact inv_sendHeld _ _ _ _ _ (inv_trussStore _ _ _ _ (inv_State_modBucket _ _ _ _ _ _ hG))
  · exact hG

@[simp] theorem inv_convertOwn (s : State) (m : ModColl) (p : Place) (c : Coll) (hG : InvAt adr s) : InvAt adr (convertOwn s m p c)
    := by
  unfold convertOwn
  repeat' (first
    | (with_reducible assumption)
    | (simp +contextual (maxDischargeDepth := 40) [*]; done)
    | apply inv_runModule
    | intro _
    | dsimp only
    | split
    | apply inv_foldl)

@[simp] theorem inv_takeExponent (s : State) (g : Nat) (a h : W16) (b : Nat) (e : Int) (nf : Bool) (hG : InvAt adr s) : InvAt adr
    (takeExponent s g a h b e nf) := by
  unfold takeExponent
  repeat' (first
    | (with_reducible assumption)
    | (simp +contextual (maxDischargeDepth := 40) [*]; done)
    | apply inv_runModule
    | intro _
    | dsimp only
    | split
    | apply inv_foldl)

@[simp] theorem inv_exponentStep (s : State) (g : Nat) (a h : W16) (b : Nat) (hG : InvAt adr s) : InvAt adr
    (exponentStep s g a h b) := by
  unfold exponentStep
  (repeat' split) <;> first | (with_reducible assumption) | simp +contextual (maxDischargeDepth := 40) [*]

@[simp] theorem inv_broadcastStep (s : State) (p : Place) (c : Coll) (hG : InvAt adr s) : InvAt adr (broadcastStep s p c) := by
  unfold broadcastStep
  dsimp only
  repeat' split
  all_goals first | (with_reducible assumption) | exact inv_deliver _ _ _ _ _ _ _ _ _ hG

@[simp] theorem inv_advanceBucket (s : State) (g : Nat) (a h : W16) (b : Nat) (hG : InvAt adr s) : InvAt adr
    (advanceBucket s g a h b) := by
  unfold advanceBucket
  repeat' (first
    | (with_reducible assumption)
    | (simp +contextual (maxDischargeDepth := 40) [*]; done)
    | apply inv_runModule
    | intro _
    | dsimp only
    | split
    | apply inv_foldl)

@[simp] theorem inv_accWords (s : State) (g : Nat) (c : Coll) (b : Nat) (hG : InvAt adr s) : InvAt adr (accWords s g c b).2 := by
  unfold accWords
  (repeat' split) <;> first | (with_reducible assumption) | simp +contextual (maxDischargeDepth := 40) [*]

@[simp] theorem inv_broadcastOut (s : State) (m : ModColl) (p : Place) (c : Coll) (hG : InvAt adr s) : InvAt adr
    (broadcastOut s m p c) := by
  unfold broadcastOut
  (repeat' split) <;> first | (with_reducible assumption) | simp +contextual (maxDischargeDepth := 40) [*]

@[simp] theorem inv_contribute (s : State) (m : ModColl) (p : Place) (c : Coll) (hG : InvAt adr s) : InvAt adr (contribute s m p c)
    := by
  unfold contribute
  repeat' (first
    | (with_reducible assumption)
    | (simp +contextual (maxDischargeDepth := 40) [*]; done)
    | apply inv_runModule
    | intro _
    | dsimp only
    | split
    | apply inv_foldl)

@[simp] theorem inv_arriveReady (s : State) (p : Place) (c : Coll) (hG : InvAt adr s) : InvAt adr (arriveReady s p c) := by
  unfold arriveReady
  simp +contextual (maxDischargeDepth := 40) [*]

@[simp] theorem inv_pump (s : State) (g : Nat) (a h : W16) (hG : InvAt adr s) : InvAt adr (pump s g a h) := by
  unfold pump
  repeat' (first | (with_reducible assumption) | (simp +contextual (maxDischargeDepth := 40) [*]; done) | intro _ | split | (apply inv_foldl) | (apply inv_issue))

@[simp] theorem inv_failBucket (s : State) (m : ModColl) (p : Place) (c : Coll) (st : Status) (hG : InvAt adr s) : InvAt adr
    (failBucket s m p c st) := by
  unfold failBucket
  simp +contextual (maxDischargeDepth := 40) [*]

@[simp] theorem inv_collEvent (s : State) (a h : W16) (kind : Nat) (st : Status) (seq : W32) (run : Byte) (o : Occ)
    (hG : InvAt adr s) : InvAt adr (collEvent s a h kind st seq run o) := by
  unfold collEvent
  (repeat' split) <;> first | (with_reducible assumption) | simp +contextual (maxDischargeDepth := 40) [*]

@[simp] theorem inv_flushOcc (s : State) (a h : W16) (seq : W32) (run : Byte) (hG : InvAt adr s) : InvAt adr
    (flushOcc s a h seq run) := by
  unfold flushOcc
  (repeat' split) <;> first | (with_reducible assumption) | simp +contextual (maxDischargeDepth := 40) [*]

@[simp] theorem inv_noteMismatch (s : State) (g : Nat) (a h : W16) (hG : InvAt adr s) : InvAt adr (noteMismatch s g a h) := by
  unfold noteMismatch
  simp +contextual (maxDischargeDepth := 40) [*]

@[simp] theorem inv_answerFrame (s : State) (m : ModColl) (p : Place) (c : Coll) (f : BFrame) (ok : Bool) (hG : InvAt adr s) :
    InvAt adr (answerFrame s m p c f ok) := by
  unfold answerFrame
  simp +contextual (maxDischargeDepth := 40) [*]

@[simp] theorem inv_rejectFrame (s : State) (m : ModColl) (p : Place) (c : Coll) (f : BFrame) (hG : InvAt adr s) : InvAt adr
    (rejectFrame s m p c f) := by
  unfold rejectFrame
  simp +contextual (maxDischargeDepth := 40) [*]

@[simp] theorem inv_noteDuplicate (s : State) (g : Nat) (a h : W16) (hG : InvAt adr s) : InvAt adr (noteDuplicate s g a h) := by
  unfold noteDuplicate
  simp +contextual (maxDischargeDepth := 40) [*]

@[simp] theorem inv_settleLate (s : State) (p : Place) (c : Coll) (sender : Nat) (backup : Bool) (hG : InvAt adr s) : InvAt adr
    (settleLate s p c sender backup) := by
  unfold settleLate
  (repeat' split) <;> first | (with_reducible assumption) | simp +contextual (maxDischargeDepth := 40) [*]

@[simp] theorem inv_takeInputExponent (s : State) (m : ModColl) (p : Place) (c : Coll) (f : CFrame) (hG : InvAt adr s) : InvAt adr
    (takeInputExponent s m p c f) := by
  unfold takeInputExponent
  simp +contextual (maxDischargeDepth := 40) [*]

@[simp] theorem inv_takeInputFrame (s : State) (m : ModColl) (p : Place) (c : Coll) (f : BFrame) (hG : InvAt adr s) : InvAt adr
    (takeInputFrame s m p c f) := by
  unfold takeInputFrame
  simp +contextual (maxDischargeDepth := 40) [*]

@[simp] theorem inv_takeResult (s : State) (m : ModColl) (p : Place) (c : Coll) (f : BFrame) (hG : InvAt adr s) : InvAt adr
    (takeResult s m p c f) := by
  unfold takeResult
  simp +contextual (maxDischargeDepth := 40) [*]

@[simp] theorem inv_checkLate (s : State) (p : Place) (c : Coll) (k : LateCheck) (cs1 cs2 : Nat) (hG : InvAt adr s) : InvAt adr
    (checkLate s p c k cs1 cs2) := by
  unfold checkLate
  simp +contextual (maxDischargeDepth := 40) [*]

@[simp] theorem inv_takeOld (s : State) (m : ModColl) (p : Place) (c : Coll) (f : BFrame) (hG : InvAt adr s) : InvAt adr
    (takeOld s m p c f) := by
  unfold takeOld
  (repeat' split) <;> first | (with_reducible assumption) | simp +contextual (maxDischargeDepth := 40) [*]

@[simp] theorem inv_takeFrame (s : State) (g : Nat) (k : CollFrame) (hG : InvAt adr s) : InvAt adr (takeFrame s g k) := by
  unfold takeFrame
  dsimp only
  repeat' split
  all_goals simp [*]

@[simp] theorem inv_settleWaiting (s : State) (g : Nat) (a h : W16) (b : Nat) (hG : InvAt adr s) : InvAt adr
    (settleWaiting s g a h b) := by
  unfold settleWaiting
  (repeat' split) <;> first | (with_reducible assumption) | simp +contextual (maxDischargeDepth := 40) [*]

@[simp] theorem inv_resumeTruss (s : State) (g : Nat) (a h : W16) (hG : InvAt adr s) : InvAt adr (resumeTruss s g a h) := by
  unfold resumeTruss
  (repeat' split) <;> first | (with_reducible assumption) | simp +contextual (maxDischargeDepth := 40) [*]

@[simp] theorem inv_resumeTrusses (s : State) (hG : InvAt adr s) : InvAt adr (resumeTrusses s) := by
  unfold resumeTrusses
  simp +contextual (maxDischargeDepth := 40) [*]

@[simp] theorem inv_replayAhead (s : State) (g : Nat) (a h : W16) (hG : InvAt adr s) : InvAt adr (replayAhead s g a h) := by
  unfold replayAhead
  (repeat' split) <;> first | (with_reducible assumption) | simp +contextual (maxDischargeDepth := 40) [*]

end Sys2Proof.Machine
end

