-- ==== Sys2Proof/Laws/KeepCollCmd.lean ====
section
/-!
SUPPORT. The operations of Machine/CollCmd.lean keep the invariant.
-/

namespace Sys2Proof.Machine

variable {adr : W32 × Bool}

set_option linter.unusedTactic false
set_option linter.unreachableTactic false

@[simp] theorem inv_openModule (s : State) (a h : W16) (hG : InvAt adr s) : InvAt adr (openModule s a h) := by
  unfold openModule
  (repeat' split) <;> first | (with_reducible assumption) | simp +contextual (maxDischargeDepth := 40) [*]

@[simp] theorem inv_sendDecision (s : State) (a h : W16) (m : ModColl) (c : Coll) (commit : Bool) (st : Status) (hG : InvAt adr s)
    : InvAt adr (sendDecision s a h m c commit st) := by
  unfold sendDecision
  simp +contextual (maxDischargeDepth := 40) [*]

@[simp] theorem inv_repeatDecision (s : State) (m : ModColl) (hG : InvAt adr s) : InvAt adr (repeatDecision s m) := by
  unfold repeatDecision
  (repeat' split) <;> first | (with_reducible assumption) | simp +contextual (maxDischargeDepth := 40) [*]

@[simp] theorem inv_repeatDecisions (s : State) (hG : InvAt adr s) : InvAt adr (repeatDecisions s) := by
  unfold repeatDecisions
  simp +contextual (maxDischargeDepth := 40) [*]

@[simp] theorem inv_countEarly (s : State) (a h : W16) (hG : InvAt adr s) : InvAt adr (countEarly s a h) := by
  unfold countEarly
  dsimp only
  repeat' split
  all_goals simp [*]

@[simp] theorem inv_openSheaf (s : State) (g : Nat) (a h : W16) (seq : W32) (hG : InvAt adr s) : InvAt adr (openSheaf s g a h seq)
    := by
  unfold openSheaf
  dsimp only
  split
  · simp +contextual (maxDischargeDepth := 40) [*]
  · split
    · simp +contextual (maxDischargeDepth := 40) [*]
    · apply inv_foldl
      · simp +contextual (maxDischargeDepth := 40) [*]
      · intro u b hu
        split
        · apply inv_accumulate
          simp +contextual (maxDischargeDepth := 40) [*]
        · simp +contextual (maxDischargeDepth := 40) [*]

@[simp] theorem inv_resumeSheaf (s : State) (g : Nat) (a h : W16) (hG : InvAt adr s) : InvAt adr (resumeSheaf s g a h) := by
  unfold resumeSheaf
  simp +contextual (maxDischargeDepth := 40) [*]

@[simp] theorem inv_openRound (s : State) (a h : W16) (seq : W32) (hG : InvAt adr s) : InvAt adr (openRound s a h seq) := by
  unfold openRound
  simp +contextual (maxDischargeDepth := 40) [*]

@[simp] theorem inv_rerunRound (s : State) (a h : W16) (hG : InvAt adr s) : InvAt adr (rerunRound s a h) := by
  unfold rerunRound
  simp +contextual (maxDischargeDepth := 40) [*]

@[simp] theorem keeps_collReplyDef : Keeps adr collReplyDef := by
  intro s g ls hG; unfold collReplyDef
  simp +contextual (maxDischargeDepth := 40) [*]

@[simp] theorem inv_finishWaiting (s : State) (due : Op → Bool) (st : Status) (value : W32) (hG : InvAt adr s) : InvAt adr
    (finishWaiting s due st value) := by
  unfold finishWaiting
  simp +contextual (maxDischargeDepth := 40) [*]

@[simp] theorem inv_clearAcc (s : State) (g : Nat) (c : Coll) (hG : InvAt adr s) : InvAt adr (clearAcc s g c) := by
  unfold clearAcc
  simp +contextual (maxDischargeDepth := 40) [*]

@[simp] theorem inv_abortSheaves (s : State) (a h : W16) (hG : InvAt adr s) : InvAt adr (abortSheaves s a h) := by
  unfold abortSheaves
  refine inv_foldl _ _ _ hG (fun s g hs => ?_)
  split
  · simp [*]
  · exact hs

@[simp] theorem inv_abortRound (s : State) (a h : W16) (hG : InvAt adr s) : InvAt adr (abortRound s a h) := by
  unfold abortRound
  dsimp only
  split
  · apply inv_openRound
    apply inv_State_modModColl
    refine inv_foldl _ _ _ hG (fun s g hs => ?_)
    split <;> simp [*]
  · apply inv_State_modModColl
    refine inv_foldl _ _ _ hG (fun s g hs => ?_)
    split <;> simp [*]

@[simp] theorem inv_finishAborts (s : State) (a h : W16) (seq : W32) (hG : InvAt adr s) : InvAt adr (finishAborts s a h seq) := by
  unfold finishAborts
  simp +contextual (maxDischargeDepth := 40) [*]

@[simp] theorem inv_writeBlock (s : State) (g : Nat) (a h : W16) (hG : InvAt adr s) : InvAt adr (writeBlock s g a h) := by
  unfold writeBlock
  (repeat' split) <;> first | (with_reducible assumption) | simp +contextual (maxDischargeDepth := 40) [*]

@[simp] theorem inv_applyDecision (s : State) (a h : W16) (commit : Bool) (st : Status) (hG : InvAt adr s) : InvAt adr
    (applyDecision s a h commit st) := by
  unfold applyDecision
  repeat' (first | (with_reducible assumption) | (simp +contextual (maxDischargeDepth := 40) [*]; done) | intro _ | split | (apply inv_foldl) | (apply inv_issue))

@[simp] theorem inv_makeDecision (s : State) (a h : W16) (m : ModColl) (c : Coll) (commit : Bool) (st : Status) (hG : InvAt adr s)
    : InvAt adr (makeDecision s a h m c commit st) := by
  unfold makeDecision
  simp +contextual (maxDischargeDepth := 40) [*]

@[simp] theorem inv_recordVote (s : State) (a h : W16) (rank : Nat) (ok : Bool) (st : Status) (hG : InvAt adr s) : InvAt adr
    (recordVote s a h rank ok st) := by
  unfold recordVote
  repeat' (first
    | (with_reducible assumption)
    | (simp +contextual (maxDischargeDepth := 40) [*]; done)
    | apply inv_runModule
    | intro _
    | dsimp only
    | split
    | apply inv_foldl)

@[simp] theorem inv_castVote (s : State) (a h : W16) (ok : Bool) (st : Status) (hG : InvAt adr s) : InvAt adr
    (castVote s a h ok st) := by
  unfold castVote
  repeat' (first
    | (with_reducible assumption)
    | (simp +contextual (maxDischargeDepth := 40) [*]; done)
    | apply inv_runModule
    | intro _
    | dsimp only
    | split
    | apply inv_foldl)

@[simp] theorem inv_defineAct (a h : W16) (slot : BitVec 4) (p : Plan) (s : State) (g : Nat) (hG : InvAt adr s) : InvAt adr
    (defineAct a h slot p s g) := by
  unfold defineAct
  simp +contextual (maxDischargeDepth := 40) [*]

@[simp] theorem keeps_collDefineDef (h : Hdr) (handle planWords : W16) (plan : Plan) : Keeps adr
    (collDefineDef h handle planWords plan) := by
  intro s g ls hG; unfold collDefineDef
  simp +contextual (maxDischargeDepth := 40) [*]

theorem inv_execCollDefine (h : Hdr) (handle planWords : W16) (plan : Plan) (s : State) (hG : InvAt adr s) : ∀ t,
    (execCollDefine h handle planWords plan s) = .next t → InvAt adr t := by
  intro t ht
  simp only [execCollDefine, Host.Outcome.next.injEq] at ht
  subst ht
  simp +contextual (maxDischargeDepth := 40) [*]

@[simp] theorem inv_adoptBackups (s : State) (a h : W16) (hG : InvAt adr s) : InvAt adr (adoptBackups s a h) := by
  unfold adoptBackups
  (repeat' split) <;> first | (with_reducible assumption) | simp +contextual (maxDischargeDepth := 40) [*]

@[simp] theorem inv_backupBody (a h : W16) (rank : Nat) (addr : W32) (c : Instr) (s : State) (id : Nat) (hG : InvAt adr s) : InvAt
    adr (backupBody a h rank addr c s id) := by
  unfold backupBody
  dsimp only
  (repeat' split) <;> first | (with_reducible assumption) | simp +contextual (maxDischargeDepth := 40) [*]

@[simp] theorem inv_collBackupNow (h : Hdr) (handle rank : W16) (addr : W32) (w0 : Nat) (w1 : State) (hG : InvAt adr w1) : InvAt
    adr (collBackupNow h handle rank addr w0 w1) := by
  unfold collBackupNow
  simp +contextual (maxDischargeDepth := 40) [*]

theorem inv_execCollBackup (h : Hdr) (handle rank : W16) (addr : W32) (s : State) (hG : InvAt adr s) : ∀ t,
    (execCollBackup h handle rank addr s) = .next t → InvAt adr t := by
  intro t ht
  simp only [execCollBackup, Host.Outcome.next.injEq] at ht
  subst ht
  simp +contextual (maxDischargeDepth := 40) [*]

@[simp] theorem keeps_collTuneDef (h : Hdr) (handle accumn : W16) (tlate tlost : W32) : Keeps adr
    (collTuneDef h handle accumn tlate tlost) := by
  intro s g ls hG; unfold collTuneDef
  simp +contextual (maxDischargeDepth := 40) [*]

theorem inv_execCollTune (h : Hdr) (handle accumn : W16) (tlate tlost : W32) (s : State) (hG : InvAt adr s) : ∀ t,
    (execCollTune h handle accumn tlate tlost s) = .next t → InvAt adr t := by
  intro t ht
  simp only [execCollTune, Host.Outcome.next.injEq] at ht
  subst ht
  simp +contextual (maxDischargeDepth := 40) [*]

@[simp] theorem inv_commitAct (a h : W16) (seq : W32) (s : State) (g : Nat) (hG : InvAt adr s) : InvAt adr
    (commitAct a h seq s g).state := by
  unfold commitAct
  dsimp only
  (repeat' split) <;> first | (with_reducible assumption) | simp +contextual (maxDischargeDepth := 40) [*]

@[simp] theorem keeps_collCommitDef (h : Hdr) (handle : W16) (seq : W32) : Keeps adr (collCommitDef h handle seq) := by
  intro s g ls hG; unfold collCommitDef
  simp +contextual (maxDischargeDepth := 40) [*]

theorem inv_execCollCommit (h : Hdr) (handle : W16) (seq : W32) (s : State) (hG : InvAt adr s) : ∀ t,
    (execCollCommit h handle seq s) = .next t → InvAt adr t := by
  intro t ht
  simp only [execCollCommit, Host.Outcome.next.injEq] at ht
  subst ht
  simp +contextual (maxDischargeDepth := 40) [*]

@[simp] theorem inv_abortAct (h : Hdr) (handle : W16) (s : State) (g : Nat) (hG : InvAt adr s) : InvAt adr
    (abortAct h handle s g).state := by
  unfold abortAct
  repeat' (first
    | (with_reducible assumption)
    | (simp +contextual (maxDischargeDepth := 40) [*]; done)
    | apply inv_runModule
    | intro _
    | dsimp only
    | split
    | apply inv_foldl)

@[simp] theorem keeps_collAbortDef (h : Hdr) (handle : W16) : Keeps adr (collAbortDef h handle) := by
  intro s g ls hG; unfold collAbortDef
  simp +contextual (maxDischargeDepth := 40) [*]

theorem inv_execCollAbort (h : Hdr) (handle : W16) (s : State) (hG : InvAt adr s) : ∀ t, (execCollAbort h handle s) = .next t →
    InvAt adr t := by
  intro t ht
  simp only [execCollAbort, Host.Outcome.next.injEq] at ht
  subst ht
  simp +contextual (maxDischargeDepth := 40) [*]

@[simp] theorem keeps_collStatusDef (h : Hdr) (handle : W16) : Keeps adr (collStatusDef h handle) := by
  intro s g ls hG; unfold collStatusDef
  simp +contextual (maxDischargeDepth := 40) [*]

theorem inv_execCollStatus (h : Hdr) (handle : W16) (s : State) (hG : InvAt adr s) : ∀ t, (execCollStatus h handle s) = .next t →
    InvAt adr t := by
  intro t ht
  simp only [execCollStatus, Host.Outcome.next.injEq] at ht
  subst ht
  simp +contextual (maxDischargeDepth := 40) [*]

@[simp] theorem inv_dissolveColls (s : State) (a : W16) (hG : InvAt adr s) : InvAt adr (dissolveColls s a) := by
  unfold dissolveColls
  simp +contextual (maxDischargeDepth := 40) [*]

@[simp] theorem inv_lateCopy (s : State) (g : Nat) (m : ModColl) (c : Coll) (o : Owed) (vs : List Val) (raw : List W64)
    (hG : InvAt adr s) : InvAt adr (lateCopy s g m c o vs raw) := by
  unfold lateCopy
  have h0 := fun f => inv_State_modHandle s g c.allot c.handle f hG
  dsimp only
  split
  · exact h0 _
  · split
    · exact h0 _
    · split
      · split
        · exact inv_checkLate _ _ _ _ _ _ (h0 _)
        · exact h0 _
      · exact inv_State_send _ _ (inv_State_modHandle _ _ _ _ _ (h0 _))

@[simp] theorem inv_lateRound (s : State) (g : Nat) (m : ModColl) (c : Coll) (b : Nat) (hG : InvAt adr s) : InvAt adr
    (lateRound s g m c b) := by
  unfold lateRound
  (repeat' split) <;> first | (with_reducible assumption) | simp +contextual (maxDischargeDepth := 40) [*]

theorem inv_execBucketReady (sh : SheafIx) (allot handle : W16) (b : Nat) (s : State) (hG : InvAt adr s) : ∀ t,
    (execBucketReady sh allot handle b s) = .next t → InvAt adr t := by
  intro t ht
  simp only [execBucketReady, Host.Outcome.next.injEq] at ht
  subst ht
  (repeat' split) <;> first | (with_reducible assumption) | simp +contextual (maxDischargeDepth := 40) [*]

theorem inv_execExponentFrame (sh : SheafIx) (f : CFrame) (s : State) (hG : InvAt adr s) : ∀ t, (execExponentFrame sh f s) = .next
    t → InvAt adr t := by
  intro t ht
  simp only [execExponentFrame, Host.Outcome.next.injEq] at ht
  subst ht
  simp +contextual (maxDischargeDepth := 40) [*]

theorem inv_execBucketExponent (sh : SheafIx) (f : CFrame) (s : State) (hG : InvAt adr s) : ∀ t, (execBucketExponent sh f s) =
    .next t → InvAt adr t := by
  intro t ht
  simp only [execBucketExponent, Host.Outcome.next.injEq] at ht
  subst ht
  simp +contextual (maxDischargeDepth := 40) [*]

theorem inv_execBucketFrame (sh : SheafIx) (f : BFrame) (s : State) (hG : InvAt adr s) : ∀ t, (execBucketFrame sh f s) = .next t →
    InvAt adr t := by
  intro t ht
  simp only [execBucketFrame, Host.Outcome.next.injEq] at ht
  subst ht
  simp +contextual (maxDischargeDepth := 40) [*]

theorem inv_execResultFrame (sh : SheafIx) (f : BFrame) (s : State) (hG : InvAt adr s) : ∀ t, (execResultFrame sh f s) = .next t →
    InvAt adr t := by
  intro t ht
  simp only [execResultFrame, Host.Outcome.next.injEq] at ht
  subst ht
  simp +contextual (maxDischargeDepth := 40) [*]

theorem inv_execBucketFailFrame (sh : SheafIx) (f : CFrame) (s : State) (hG : InvAt adr s) : ∀ t, (execBucketFailFrame sh f s) =
    .next t → InvAt adr t := by
  intro t ht
  simp only [execBucketFailFrame, Host.Outcome.next.injEq] at ht
  subst ht
  simp +contextual (maxDischargeDepth := 40) [*]

theorem inv_execBucketNack (sh : SheafIx) (f : CFrame) (s : State) (hG : InvAt adr s) : ∀ t, (execBucketNack sh f s) = .next t →
    InvAt adr t := by
  intro t ht
  simp only [execBucketNack, Host.Outcome.next.injEq] at ht
  subst ht
  (repeat' split) <;> first | (with_reducible assumption) | simp +contextual (maxDischargeDepth := 40) [*]

theorem inv_execBucketAck (sh : SheafIx) (f : CFrame) (s : State) (hG : InvAt adr s) : ∀ t, (execBucketAck sh f s) = .next t →
    InvAt adr t := by
  intro t ht
  simp only [execBucketAck, Host.Outcome.next.injEq] at ht
  subst ht
  (repeat' split) <;> first | (with_reducible assumption) | simp +contextual (maxDischargeDepth := 40) [*]

theorem inv_execTlateExpiry (sh : SheafIx) (allot handle : W16) (bucket rank : Nat) (s : State) (hG : InvAt adr s) : ∀ t,
    (execTlateExpiry sh allot handle bucket rank s) = .next t → InvAt adr t := by
  intro t ht
  simp only [execTlateExpiry, Host.Outcome.next.injEq] at ht
  subst ht
  (repeat' split) <;> first | (with_reducible assumption) | simp +contextual (maxDischargeDepth := 40) [*]

theorem inv_execTlostExpiry (sh : SheafIx) (allot handle : W16) (bucket : Nat) (s : State) (hG : InvAt adr s) : ∀ t,
    (execTlostExpiry sh allot handle bucket s) = .next t → InvAt adr t := by
  intro t ht
  simp only [execTlostExpiry, Host.Outcome.next.injEq] at ht
  subst ht
  (repeat' split) <;> first | (with_reducible assumption) | simp +contextual (maxDischargeDepth := 40) [*]

theorem inv_execVote (allot handle : W16) (s : State) (hG : InvAt adr s) : ∀ t, (execVote allot handle s) = .next t → InvAt adr t
    := by
  intro t ht
  simp only [execVote, Host.Outcome.next.injEq] at ht
  subst ht
  (repeat' split) <;> first | (with_reducible assumption) | simp +contextual (maxDischargeDepth := 40) [*]

@[simp] theorem inv_planMismatch (s : State) (a h : W16) (hG : InvAt adr s) : InvAt adr (planMismatch s a h) := by
  unfold planMismatch
  (repeat' split) <;> first | (with_reducible assumption) | simp +contextual (maxDischargeDepth := 40) [*]

theorem inv_execVoteReceived (allot handle : W16) (seq : W32) (run : Byte) (rank : Nat) (ok : Bool) (status : W16) (planId : W32)
    (s : State) (hG : InvAt adr s) : ∀ t, (execVoteReceived allot handle seq run rank ok status planId s) = .next t → InvAt adr t
    := by
  intro t ht
  simp only [execVoteReceived, Host.Outcome.next.injEq] at ht
  subst ht
  (repeat' split) <;> first | (with_reducible assumption) | simp +contextual (maxDischargeDepth := 40) [*]

theorem inv_execDecision (allot handle : W16) (seq : W32) (run : Byte) (rank : Nat) (commit : Bool) (status : W16) (planId : W32)
    (s : State) (hG : InvAt adr s) : ∀ t, (execDecision allot handle seq run rank commit status planId s) = .next t → InvAt adr t
    := by
  intro t ht
  simp only [execDecision, Host.Outcome.next.injEq] at ht
  subst ht
  (repeat' split) <;> first | (with_reducible assumption) | simp +contextual (maxDischargeDepth := 40) [*]

theorem inv_execDecisionAcknowledged (allot handle : W16) (seq : W32) (run : Byte) (rank : Nat) (planId : W32) (s : State)
    (hG : InvAt adr s) : ∀ t, (execDecisionAcknowledged allot handle seq run rank planId s) = .next t → InvAt adr t := by
  intro t ht
  simp only [execDecisionAcknowledged, Host.Outcome.next.injEq] at ht
  subst ht
  (repeat' split) <;> first | (with_reducible assumption) | simp +contextual (maxDischargeDepth := 40) [*]

theorem inv_execUndecided (allot handle : W16) (s : State) (hG : InvAt adr s) : ∀ t, (execUndecided allot handle s) = .next t →
    InvAt adr t := by
  intro t ht
  simp only [execUndecided, Host.Outcome.next.injEq] at ht
  subst ht
  repeat' (first | (with_reducible assumption) | (simp +contextual (maxDischargeDepth := 40) [*]; done) | intro _ | split | (apply inv_foldl) | (apply inv_issue))

theorem inv_execDecisionRequest (allot handle : W16) (seq : W32) (run : Byte) (rank : Nat) (addr planId : W32) (s : State)
    (hG : InvAt adr s) : ∀ t, (execDecisionRequest allot handle seq run rank addr planId s) = .next t → InvAt adr t := by
  intro t ht
  simp only [execDecisionRequest, Host.Outcome.next.injEq] at ht
  subst ht
  (repeat' split) <;> first | (with_reducible assumption) | simp +contextual (maxDischargeDepth := 40) [*]

end Sys2Proof.Machine
end

