-- ==== Sys2Proof/Laws/KeepNumCmd.lean ====
section
/-!
SUPPORT. The operations of Machine/NumCmd.lean keep the invariant.
-/

namespace Sys2Proof.Machine

variable {adr : W32 × Bool}

set_option linter.unusedTactic false
set_option linter.unreachableTactic false

@[simp] theorem keeps_numCtlDef (v : W32) : Keeps adr (numCtlDef v) := by
  intro s g ls hG; unfold numCtlDef
  simp +contextual (maxDischargeDepth := 40) [*]

theorem inv_execNumCtl (h : Hdr) (value : W32) (s : State) (hG : InvAt adr s) : ∀ t, (execNumCtl h value s) = .next t → InvAt adr t
    := by
  intro t ht
  simp only [execNumCtl, Host.Outcome.next.injEq] at ht
  subst ht
  simp +contextual (maxDischargeDepth := 40) [*]

@[simp] theorem keeps_rngKeyDef (h : Hdr) (key step : W64) : Keeps adr (rngKeyDef h key step) := by
  intro s g ls hG; unfold rngKeyDef
  simp +contextual (maxDischargeDepth := 40) [*]

theorem inv_execRngKey (h : Hdr) (key step : W64) (s : State) (hG : InvAt adr s) : ∀ t, (execRngKey h key step s) = .next t → InvAt
    adr t := by
  intro t ht
  simp only [execRngKey, Host.Outcome.next.injEq] at ht
  subst ht
  simp +contextual (maxDischargeDepth := 40) [*]

@[simp] theorem inv_configureSheaf (s : State) (g log2 : Nat) (enable : Bool) (tol thr : W32) (reserve : Nat) (hG : InvAt adr s) :
    InvAt adr (configureSheaf s g log2 enable tol thr reserve) := by
  unfold configureSheaf
  simp +contextual (maxDischargeDepth := 40) [*]

@[simp] theorem keeps_wvConfigDef (log2 enable : Byte) (tol thr reserve : W32) : Keeps adr
    (wvConfigDef log2 enable tol thr reserve) := by
  intro s g ls hG; unfold wvConfigDef
  simp +contextual (maxDischargeDepth := 40) [*]

theorem inv_execWvConfig (h : Hdr) (sampleLog2 enable : Byte) (tolerance threshold reserve : W32) (s : State) (hG : InvAt adr s) :
    ∀ t, (execWvConfig h sampleLog2 enable tolerance threshold reserve s) = .next t → InvAt adr t := by
  intro t ht
  simp only [execWvConfig, Host.Outcome.next.injEq] at ht
  subst ht
  simp +contextual (maxDischargeDepth := 40) [*]

@[simp] theorem keeps_wvStatsDef (clear : Byte) : Keeps adr (wvStatsDef clear) := by
  intro s g ls hG; unfold wvStatsDef
  simp +contextual (maxDischargeDepth := 40) [*]

theorem inv_execWvStats (h : Hdr) (clear : Byte) (s : State) (hG : InvAt adr s) : ∀ t, (execWvStats h clear s) = .next t → InvAt
    adr t := by
  intro t ht
  simp only [execWvStats, Host.Outcome.next.injEq] at ht
  subst ht
  simp +contextual (maxDischargeDepth := 40) [*]

@[simp] theorem keeps_clampReadDef (clear : Byte) : Keeps adr (clampReadDef clear) := by
  intro s g ls hG; unfold clampReadDef
  simp +contextual (maxDischargeDepth := 40) [*]

theorem inv_execClampRead (h : Hdr) (clear : Byte) (s : State) (hG : InvAt adr s) : ∀ t, (execClampRead h clear s) = .next t →
    InvAt adr t := by
  intro t ht
  simp only [execClampRead, Host.Outcome.next.injEq] at ht
  subst ht
  simp +contextual (maxDischargeDepth := 40) [*]

@[simp] theorem inv_determinismNow (h : Hdr) (on : Byte) (w0 : Nat) (w1 : State) (hG : InvAt adr w1) : InvAt adr
    (determinismNow h on w0 w1) := by
  unfold determinismNow
  repeat' (first
    | (with_reducible assumption)
    | (simp +contextual (maxDischargeDepth := 40) [*]; done)
    | apply inv_runModule
    | intro _
    | dsimp only
    | split
    | apply inv_foldl)

theorem inv_execDeterminism (h : Hdr) (on : Byte) (s : State) (hG : InvAt adr s) : ∀ t, (execDeterminism h on s) = .next t → InvAt
    adr t := by
  intro t ht
  simp only [execDeterminism, Host.Outcome.next.injEq] at ht
  subst ht
  simp +contextual (maxDischargeDepth := 40) [*]

end Sys2Proof.Machine
end

