-- ==== Sys2Proof/Laws/KeepLinks.lean ====
section
/-!
SUPPORT. The operations of Machine/Links.lean keep the invariant.
-/

namespace Sys2Proof.Machine

variable {adr : W32 × Bool}

set_option linter.unusedTactic false
set_option linter.unreachableTactic false

@[simp] theorem inv_linkEvent (s : State) (kind index lane new : Nat) (hG : InvAt adr s) : InvAt adr
    (linkEvent s kind index lane new) := by
  unfold linkEvent
  simp +contextual (maxDischargeDepth := 40) [*]

@[simp] theorem inv_redirect (s : State) (failed : Bool) (old : Option (Nat × W32)) (q : QFrame) (hG : InvAt adr s) : InvAt adr
    (redirect s failed old q) := by
  unfold redirect
  split
  · split
    · simp [*]
    · exact hG
  · split
    · next h => exact inv_sendOn _ _ _ hG _ h
    · split <;> simp [*]

@[simp] theorem inv_flushWaiting (s : State) (hG : InvAt adr s) : InvAt adr (flushWaiting s) := by
  unfold flushWaiting
  simp +contextual (maxDischargeDepth := 40) [*]

@[simp] theorem inv_takeQueue (s : State) (course : Nat) (peer : W32) (hG : InvAt adr s) : InvAt adr (takeQueue s course peer).2 :=
    by
  unfold takeQueue
  simp +contextual (maxDischargeDepth := 40) [*]

@[simp] theorem inv_flushQueues (s : State) (hG : InvAt adr s) : InvAt adr (flushQueues s) := by
  unfold flushQueues
  simp +contextual (maxDischargeDepth := 40) [*]

@[simp] theorem inv_reassemble (s : State) (f : LinkFrame) (hG : InvAt adr s) : InvAt adr (reassemble s f) := by
  unfold reassemble
  simp +contextual (maxDischargeDepth := 40) [*]

@[simp] theorem inv_forward (s : State) (q : QFrame) (hG : InvAt adr s) : InvAt adr (forward s q) := by
  unfold forward
  simp +contextual (maxDischargeDepth := 40) [*]

@[simp] theorem inv_routeFrame (s : State) (q : QFrame) (hG : InvAt adr s) : InvAt adr (routeFrame s q) := by
  unfold routeFrame
  simp +contextual (maxDischargeDepth := 40) [*]

@[simp] theorem inv_takeNext (s : State) (k : Nat) (q : QFrame) (hG : InvAt adr s) : InvAt adr (takeNext s k q) := by
  unfold takeNext
  simp +contextual (maxDischargeDepth := 40) [*]

@[simp] theorem inv_drainBundle (w0 : Nat) (w1 : State) (w2 : Nat) (hG : InvAt adr w1) : InvAt adr (drainBundle w0 w1 w2) := by
  induction w0 generalizing w1 with
  | zero => exact hG
  | succ n ih =>
    unfold drainBundle
    dsimp only
    split
    · exact hG
    · exact ih _ (inv_takeNext _ _ _ ⟨hG.tc, hG.addr, hG.mem⟩)

@[simp] theorem inv_acceptFrame (s : State) (ch : Nat) (f : LinkFrame) (hG : InvAt adr s) : InvAt adr (acceptFrame s ch f) := by
  unfold acceptFrame
  (repeat' split) <;> first | (with_reducible assumption) | simp +contextual (maxDischargeDepth := 40) [*]

@[simp] theorem inv_resendAll (s : State) (ch : Nat) (hG : InvAt adr s) : InvAt adr (resendAll s ch) := by
  unfold resendAll
  simp +contextual (maxDischargeDepth := 40) [*]

@[simp] theorem inv_unvia (s : State) (ch : Nat) (hG : InvAt adr s) : InvAt adr (unvia s ch) := by
  unfold unvia
  simp +contextual (maxDischargeDepth := 40) [*]

@[simp] theorem inv_dropTx (s : State) (ch : Nat) (hG : InvAt adr s) : InvAt adr (dropTx s ch) := by
  unfold dropTx
  simp +contextual (maxDischargeDepth := 40) [*]

@[simp] theorem inv_forgetTx (s : State) (course : Nat) (peer : W32) (hG : InvAt adr s) : InvAt adr (forgetTx s course peer) := by
  unfold forgetTx
  simp +contextual (maxDischargeDepth := 40) [*]

@[simp] theorem inv_forgetRx (s : State) (course : Nat) (peer : W32) (hG : InvAt adr s) : InvAt adr (forgetRx s course peer) := by
  unfold forgetRx
  simp +contextual (maxDischargeDepth := 40) [*]

@[simp] theorem inv_parkLane (s : State) (ch : Nat) (hG : InvAt adr s) : InvAt adr (parkLane s ch) := by
  unfold parkLane
  (repeat' split) <;> first | (with_reducible assumption) | simp +contextual (maxDischargeDepth := 40) [*]

@[simp] theorem inv_hearBack (s : State) (rev : Nat) (f : LinkFrame) (hG : InvAt adr s) : InvAt adr (hearBack s rev f) := by
  unfold hearBack
  simp +contextual (maxDischargeDepth := 40) [*]

@[simp] theorem inv_receiveFrame (s : State) (ch rev : Nat) (f : LinkFrame) (hG : InvAt adr s) : InvAt adr
    (receiveFrame s ch rev f) := by
  unfold receiveFrame
  (repeat' split) <;> first | (with_reducible assumption) | simp +contextual (maxDischargeDepth := 40) [*]

@[simp] theorem inv_switchRoutes (s : State) (course : Nat) (a b : W32) (hG : InvAt adr s) : InvAt adr (switchRoutes s course a b)
    := by
  unfold switchRoutes
  simp +contextual (maxDischargeDepth := 40) [*]

@[simp] theorem inv_reviewEntry (s : State) (a : W32) (hG : InvAt adr s) : InvAt adr (reviewEntry s a) := by
  unfold reviewEntry
  (repeat' split) <;> first | (with_reducible assumption) | simp +contextual (maxDischargeDepth := 40) [*]

@[simp] theorem inv_noteCopper (s : State) (course : Nat) (up : Bool) (a : W32) (hG : InvAt adr s) : InvAt adr
    (noteCopper s course up a) := by
  unfold noteCopper
  (repeat' split) <;> first | (with_reducible assumption) | simp +contextual (maxDischargeDepth := 40) [*]

@[simp] theorem inv_hopChanged (s : State) (n : News) (hG : InvAt adr s) : InvAt adr (hopChanged s n) := by
  unfold hopChanged
  simp +contextual (maxDischargeDepth := 40) [*]

@[simp] theorem inv_tellNews (s : State) (ch : Nat) (peer : W32) (up : Bool) (hG : InvAt adr s) : InvAt adr (tellNews s ch peer up)
    := by
  unfold tellNews
  simp +contextual (maxDischargeDepth := 40) [*]

@[simp] theorem inv_rerouteColls (s : State) (course : Nat) (a b : W32) (routes : KMap Allot) (hG : InvAt adr s) : InvAt adr
    (rerouteColls s course a b routes) := by
  unfold rerouteColls
  refine inv_foldl _ _ _ ⟨hG.tc, hG.addr, hG.mem⟩ (fun s e hs => inv_foldl _ _ _ hs (fun s c hs => ?_))
  split
  · exact hs
  · dsimp only
    split
    · exact hs
    · exact inv_foldl _ _ _ (inv_State_noteOcc _ _ _ _ _ _ _ _ (inv_State_modHandle _ _ _ _ _ hs)) (fun s h hs => inv_State_send _ _ hs)

@[simp] theorem inv_bundleGone (s : State) (ch : Nat) (peer : W32) (held : List QFrame) (hG : InvAt adr s) : InvAt adr
    (bundleGone s ch peer held) := by
  unfold bundleGone
  simp +contextual (maxDischargeDepth := 40) [*]

@[simp] theorem inv_channelLost (s : State) (ch : Nat) (hG : InvAt adr s) : InvAt adr (channelLost s ch) := by
  unfold channelLost
  repeat' (first
    | (with_reducible assumption)
    | (simp +contextual (maxDischargeDepth := 40) [*]; done)
    | apply inv_runModule
    | intro _
    | dsimp only
    | split
    | apply inv_foldl)

@[simp] theorem inv_downEvent (s : State) (ch : Nat) (hG : InvAt adr s) : InvAt adr (downEvent s ch) := by
  unfold downEvent
  simp +contextual (maxDischargeDepth := 40) [*]

@[simp] theorem inv_declareDown (s : State) (ch : Nat) (hG : InvAt adr s) : InvAt adr (declareDown s ch) := by
  unfold declareDown
  (repeat' split) <;> first | (with_reducible assumption) | simp +contextual (maxDischargeDepth := 40) [*]

@[simp] theorem inv_eaveLanesDown (s : State) (e : Nat) (hG : InvAt adr s) : InvAt adr (eaveLanesDown s e) := by
  unfold eaveLanesDown
  simp +contextual (maxDischargeDepth := 40) [*]

@[simp] theorem inv_hopCameUp (s : State) (ch : Nat) (peer : W32) (hG : InvAt adr s) : InvAt adr (hopCameUp s ch peer) := by
  unfold hopCameUp
  simp +contextual (maxDischargeDepth := 40) [*]

@[simp] theorem inv_recomputeRoutes (s : State) (hG : InvAt adr s) : InvAt adr (recomputeRoutes s) := by
  unfold recomputeRoutes
  simp +contextual (maxDischargeDepth := 40) [*]

@[simp] theorem inv_renumber (s : State) (e : Nat) (old new : Option ColourMap) (hG : InvAt adr s) : InvAt adr
    (renumber s e old new) := by
  unfold renumber
  simp +contextual (maxDischargeDepth := 40) [*]

@[simp] theorem inv_applyMap (s : State) (e : Nat) (new : Option ColourMap) (allot : W16) (hG : InvAt adr s) : InvAt adr
    (applyMap s e new allot) := by
  unfold applyMap
  simp +contextual (maxDischargeDepth := 40) [*]

@[simp] theorem inv_putMap (s : State) (e : Nat) (new : Option ColourMap) (allot : W16) (hG : InvAt adr s) : InvAt adr
    (putMap s e new allot) := by
  unfold putMap
  simp +contextual (maxDischargeDepth := 40) [*]

@[simp] theorem inv_undraw (s : State) (a : W16) (hG : InvAt adr s) : InvAt adr (undraw s a) := by
  unfold undraw
  simp +contextual (maxDischargeDepth := 40) [*]

end Sys2Proof.Machine
end

