-- ==== Sys2Proof/Laws/KeepAlloc.lean ====
section
/-!
SUPPORT. The operations of Machine/Alloc.lean keep the invariant.
-/

namespace Sys2Proof.Machine

variable {adr : W32 × Bool}

set_option linter.unusedTactic false
set_option linter.unreachableTactic false

@[simp] theorem inv_fabricTableNow (h : Hdr) (first : W32) (w0 : Nat) (w1 : State) (hG : InvAt adr w1) : InvAt adr
    (fabricTableNow h first w0 w1) := by
  unfold fabricTableNow
  simp +contextual (maxDischargeDepth := 40) [*]

theorem inv_execFabricTable (h : Hdr) (first : W32) (s : State) (hG : InvAt adr s) : ∀ t, (execFabricTable h first s) = .next t →
    InvAt adr t := by
  intro t ht
  simp only [execFabricTable, Host.Outcome.next.injEq] at ht
  subst ht
  simp +contextual (maxDischargeDepth := 40) [*]

@[simp] theorem inv_routeQueryNow (h : Hdr) (addr : W32) (w0 : Nat) (w1 : State) (hG : InvAt adr w1) : InvAt adr
    (routeQueryNow h addr w0 w1) := by
  unfold routeQueryNow
  simp +contextual (maxDischargeDepth := 40) [*]

theorem inv_execRouteQuery (h : Hdr) (addr : W32) (s : State) (hG : InvAt adr s) : ∀ t, (execRouteQuery h addr s) = .next t → InvAt
    adr t := by
  intro t ht
  simp only [execRouteQuery, Host.Outcome.next.injEq] at ht
  subst ht
  simp +contextual (maxDischargeDepth := 40) [*]

@[simp] theorem inv_allotCreateNow (h : Hdr) (allot : W16) (w : BitVec 256) (members : List W32) (w0 : Nat) (w1 : State)
    (hG : InvAt adr w1) : InvAt adr (allotCreateNow h allot w members w0 w1) := by
  unfold allotCreateNow
  dsimp only
  refine inv_runModule _ _ _ _ _ _ (fun s id h' hs => ?_) hG
  (repeat' split) <;> first | (with_reducible assumption) | simp +contextual (maxDischargeDepth := 40) [*]

theorem inv_execAllotCreate (h : Hdr) (allot : W16) (sheafSet : BitVec 256) (members : List W32) (s : State) (hG : InvAt adr s) : ∀
    t, (execAllotCreate h allot sheafSet members s) = .next t → InvAt adr t := by
  intro t ht
  simp only [execAllotCreate, Host.Outcome.next.injEq] at ht
  subst ht
  simp +contextual (maxDischargeDepth := 40) [*]

@[simp] theorem inv_dissolve (s : State) (a : W16) (hG : InvAt adr s) : InvAt adr (dissolve s a) := by
  unfold dissolve
  simp +contextual (maxDischargeDepth := 40) [*]

@[simp] theorem inv_dissolved (s : State) (id : Nat) (c : Instr) (u : UState) (payload : List Byte) (hG : InvAt adr s) : InvAt adr
    (dissolved s id c u payload) := by
  unfold dissolved
  simp +contextual (maxDischargeDepth := 40) [*]

@[simp] theorem inv_allotDissolveNow (h : Hdr) (allot : W16) (w0 : Nat) (w1 : State) (hG : InvAt adr w1) : InvAt adr
    (allotDissolveNow h allot w0 w1) := by
  unfold allotDissolveNow
  repeat' (first
    | (with_reducible assumption)
    | (simp +contextual (maxDischargeDepth := 40) [*]; done)
    | apply inv_runModule
    | intro _
    | dsimp only
    | split
    | apply inv_foldl)

theorem inv_execAllotDissolve (h : Hdr) (allot : W16) (s : State) (hG : InvAt adr s) : ∀ t, (execAllotDissolve h allot s) = .next t
    → InvAt adr t := by
  intro t ht
  simp only [execAllotDissolve, Host.Outcome.next.injEq] at ht
  subst ht
  simp +contextual (maxDischargeDepth := 40) [*]

@[simp] theorem inv_dropHandles (s : State) (a : W16) (w : BitVec 256) (hG : InvAt adr s) : InvAt adr (dropHandles s a w) := by
  unfold dropHandles
  simp +contextual (maxDischargeDepth := 40) [*]

@[simp] theorem inv_resizeAdd (s : State) (id : Nat) (c : Instr) (a : W16) (x : Allot) (w : BitVec 256) (list : List W32)
    (hG : InvAt adr s) : InvAt adr (resizeAdd s id c a x w list) := by
  unfold resizeAdd
  repeat' (first
    | (with_reducible assumption)
    | (simp +contextual (maxDischargeDepth := 40) [*]; done)
    | apply inv_runModule
    | intro _
    | dsimp only
    | split
    | apply inv_foldl)

@[simp] theorem inv_resizeRemove (s : State) (id : Nat) (c : Instr) (a : W16) (x : Allot) (w : BitVec 256) (list : List W32)
    (hG : InvAt adr s) : InvAt adr (resizeRemove s id c a x w list) := by
  unfold resizeRemove
  repeat' (first
    | (with_reducible assumption)
    | (simp +contextual (maxDischargeDepth := 40) [*]; done)
    | apply inv_runModule
    | intro _
    | dsimp only
    | split
    | apply inv_foldl)

@[simp] theorem inv_allotResizeNow (h : Hdr) (allot : W16) (op : Byte) (w : BitVec 256) (members : List W32) (w0 : Nat)
    (w1 : State) (hG : InvAt adr w1) : InvAt adr (allotResizeNow h allot op w members w0 w1) := by
  unfold allotResizeNow
  repeat' (first
    | (with_reducible assumption)
    | (simp +contextual (maxDischargeDepth := 40) [*]; done)
    | apply inv_runModule
    | intro _
    | dsimp only
    | split
    | apply inv_foldl)

theorem inv_execAllotResize (h : Hdr) (allot : W16) (op : Byte) (sheafSet : BitVec 256) (members : List W32) (s : State)
    (hG : InvAt adr s) : ∀ t, (execAllotResize h allot op sheafSet members s) = .next t → InvAt adr t := by
  intro t ht
  simp only [execAllotResize, Host.Outcome.next.injEq] at ht
  subst ht
  simp +contextual (maxDischargeDepth := 40) [*]

@[simp] theorem inv_drawEave (s : State) (e : Nat) (new : ColourMap) (a : W16) (members : List W32) (hG : InvAt adr s) : InvAt adr
    (drawEave s e new a members) := by
  unfold drawEave
  simp +contextual (maxDischargeDepth := 40) [*]

@[simp] theorem inv_redraw (s : State) (course : Nat) (hG : InvAt adr s) : InvAt adr (redraw s course) := by
  unfold redraw
  refine inv_foldl _ _ _ hG (fun s e hs => ?_)
  dsimp only
  repeat' split
  all_goals first | (with_reducible assumption) | exact inv_drawEave _ _ _ _ _ hs

@[simp] theorem inv_topoDrawNow (h : Hdr) (shape ndim : Byte) (ext : List W16) (w0 : Nat) (w1 : State) (hG : InvAt adr w1) : InvAt
    adr (topoDrawNow h shape ndim ext w0 w1) := by
  unfold topoDrawNow
  repeat' (first
    | (with_reducible assumption)
    | (simp +contextual (maxDischargeDepth := 40) [*]; done)
    | apply inv_runModule
    | intro _
    | dsimp only
    | split
    | apply inv_foldl)

theorem inv_execTopoDraw (h : Hdr) (shape ndim : Byte) (extents : List W16) (s : State) (hG : InvAt adr s) : ∀ t,
    (execTopoDraw h shape ndim extents s) = .next t → InvAt adr t := by
  intro t ht
  simp only [execTopoDraw, Host.Outcome.next.injEq] at ht
  subst ht
  simp +contextual (maxDischargeDepth := 40) [*]

@[simp] theorem inv_colourMapSetNow (h : Hdr) (eave : Byte) (map : ColourMap) (w0 : Nat) (w1 : State) (hG : InvAt adr w1) : InvAt
    adr (colourMapSetNow h eave map w0 w1) := by
  unfold colourMapSetNow
  simp +contextual (maxDischargeDepth := 40) [*]

theorem inv_execColourMapSet (h : Hdr) (eave : Byte) (map : ColourMap) (s : State) (hG : InvAt adr s) : ∀ t,
    (execColourMapSet h eave map s) = .next t → InvAt adr t := by
  intro t ht
  simp only [execColourMapSet, Host.Outcome.next.injEq] at ht
  subst ht
  simp +contextual (maxDischargeDepth := 40) [*]

end Sys2Proof.Machine
end

