-- ==== Sys2Proof/Laws/KeepFabric.lean ====
section
/-!
SUPPORT. The operations of Machine/Fabric.lean keep the invariant.
-/

namespace Sys2Proof.Machine

variable {adr : W32 × Bool}

set_option linter.unusedTactic false
set_option linter.unreachableTactic false

theorem inv_execRetransmitTimeout (ch : Nat) (s : State) (hG : InvAt adr s) : ∀ t, (execRetransmitTimeout ch s) = .next t → InvAt
    adr t := by
  intro t ht
  simp only [execRetransmitTimeout, Host.Outcome.next.injEq] at ht
  subst ht
  simp +contextual (maxDischargeDepth := 40) [*]

theorem inv_execFabricControlFrame (src msg : W32) (seg : W16) (via : Nat) (news : News) (s : State) (hG : InvAt adr s) : ∀ t,
    (execFabricControlFrame src msg seg via news s) = .next t → InvAt adr t := by
  intro t ht
  simp only [execFabricControlFrame, Host.Outcome.next.injEq] at ht
  subst ht
  (repeat' split) <;> first | (with_reducible assumption) | simp +contextual (maxDischargeDepth := 40) [*]

theorem inv_execRouteRecompute (s : State) (hG : InvAt adr s) : ∀ t, (execRouteRecompute s) = .next t → InvAt adr t := by
  intro t ht
  simp only [execRouteRecompute, Host.Outcome.next.injEq] at ht
  subst ht
  simp +contextual (maxDischargeDepth := 40) [*]

@[simp] theorem inv_State_modCopper (s : State) (i : Nat) (f : Copper → Copper) (hG : InvAt adr s) : InvAt adr
    (State.modCopper s i f) := by
  unfold State.modCopper
  simp +contextual (maxDischargeDepth := 40) [*]

@[simp] theorem inv_remapRecord (s : State) (type : Nat) (body : List Byte) (hG : InvAt adr s) : InvAt adr
    (remapRecord s type body) := by
  unfold remapRecord
  simp +contextual (maxDischargeDepth := 40) [*]

theorem inv_execCopperLaneSwap (c : CopperIx) (lane : Nat) (s : State) (hG : InvAt adr s) : ∀ t, (execCopperLaneSwap c lane s) =
    .next t → InvAt adr t := by
  intro t ht
  simp only [execCopperLaneSwap, Host.Outcome.next.injEq] at ht
  subst ht
  (repeat' split) <;> first | (with_reducible assumption) | simp +contextual (maxDischargeDepth := 40) [*]

@[simp] theorem inv_putEntry (s : State) (x : TableEntry) (hG : InvAt adr s) : InvAt adr (putEntry s x) := by
  unfold putEntry
  simp +contextual (maxDischargeDepth := 40) [*]

@[simp] theorem inv_addConflict (s : State) (e : TableEntry) (hG : InvAt adr s) : InvAt adr (addConflict s e) := by
  unfold addConflict
  simp +contextual (maxDischargeDepth := 40) [*]

@[simp] theorem inv_learn (s : State) (e : TableEntry) (reported : Byte) (hG : InvAt adr s) : InvAt adr (learn s e reported) := by
  unfold learn
  (repeat' split) <;> first | (with_reducible assumption) | simp +contextual (maxDischargeDepth := 40) [*]

@[simp] theorem inv_miswireRecord (s : State) (course : Nat) (peer : W32) (hG : InvAt adr s) : InvAt adr
    (miswireRecord s course peer) := by
  unfold miswireRecord
  simp +contextual (maxDischargeDepth := 40) [*]

@[simp] theorem inv_publishTables (s : State) (hG : InvAt adr s) : InvAt adr (publishTables s) := by
  unfold publishTables
  simp +contextual (maxDischargeDepth := 40) [*]

@[simp] theorem inv_republish (old s : State) (hG : InvAt adr s) : InvAt adr (republish old s) := by
  unfold republish
  simp +contextual (maxDischargeDepth := 40) [*]

@[simp] theorem inv_tellReady (s : State) (hG : InvAt adr s) : InvAt adr (tellReady s) := by
  unfold tellReady
  simp +contextual (maxDischargeDepth := 40) [*]

@[simp] theorem inv_tablesDone (s : State) (hG : InvAt adr s) : InvAt adr (tablesDone s) := by
  unfold tablesDone
  simp +contextual (maxDischargeDepth := 40) [*]

theorem inv_execCourseTrained (c : CopperIx) (peer : TableEntry) (s : State) (hG : InvAt adr s) : ∀ t, (execCourseTrained c peer s)
    = .next t → InvAt adr t := by
  intro t ht
  simp only [execCourseTrained, Host.Outcome.next.injEq] at ht
  subst ht
  (repeat' split) <;> first | (with_reducible assumption) | simp +contextual (maxDischargeDepth := 40) [*]

@[simp] theorem inv_laneMatches (s : State) (e k : Nat) (peer : W32) (hG : InvAt adr s) : InvAt adr (laneMatches s e k peer) := by
  unfold laneMatches
  simp +contextual (maxDischargeDepth := 40) [*]

theorem inv_execLaneToken (e : EaveIx) (lane : LaneIx) (peer : W32) (peerHasRing incoming : Bool) (s : State) (hG : InvAt adr s) :
    ∀ t, (execLaneToken e lane peer peerHasRing incoming s) = .next t → InvAt adr t := by
  intro t ht
  simp only [execLaneToken, Host.Outcome.next.injEq] at ht
  subst ht
  (repeat' split) <;> first | (with_reducible assumption) | simp +contextual (maxDischargeDepth := 40) [*]

@[simp] theorem inv_openTables (s : State) (hG : InvAt adr s) : InvAt adr (openTables s) := by
  unfold openTables
  simp +contextual (maxDischargeDepth := 40) [*]

theorem inv_execRackLeadRound (lead : W64) (s : State) (hG : InvAt adr s) : ∀ t, (execRackLeadRound lead s) = .next t → InvAt adr t
    := by
  intro t ht
  simp only [execRackLeadRound, Host.Outcome.next.injEq] at ht
  subst ht
  simp +contextual (maxDischargeDepth := 40) [*]

@[simp] theorem inv_groupsDone (s : State) (hG : InvAt adr s) : InvAt adr (groupsDone s) := by
  unfold groupsDone
  simp +contextual (maxDischargeDepth := 40) [*]

theorem inv_execDiscoverySweepDone (answers : List (Nat × W32)) (s : State) (hG : InvAt adr s) : ∀ t,
    (execDiscoverySweepDone answers s) = .next t → InvAt adr t := by
  intro t ht
  simp only [execDiscoverySweepDone, Host.Outcome.next.injEq] at ht
  subst ht
  simp +contextual (maxDischargeDepth := 40) [*]

@[simp] theorem inv_dropRx (s : State) (e : Nat) (hG : InvAt adr s) : InvAt adr (dropRx s e) := by
  unfold dropRx
  simp +contextual (maxDischargeDepth := 40) [*]

@[simp] theorem inv_miswireEave (s : State) (e : Nat) (peer : W32) (hG : InvAt adr s) : InvAt adr (miswireEave s e peer) := by
  unfold miswireEave
  simp +contextual (maxDischargeDepth := 40) [*]

theorem inv_execGroupToken (e : EaveIx) (offset : Nat) (peer : TableEntry) (msg : W32) (s : State) (hG : InvAt adr s) : ∀ t,
    (execGroupToken e offset peer msg s) = .next t → InvAt adr t := by
  intro t ht
  simp only [execGroupToken, Host.Outcome.next.injEq] at ht
  subst ht
  simp +contextual (maxDischargeDepth := 40) [*]

theorem inv_execTableExchange (entries : List TableEntry) (row : Bool) (via : Nat) (src msg : W32) (s : State) (hG : InvAt adr s) :
    ∀ t, (execTableExchange entries row via src msg s) = .next t → InvAt adr t := by
  intro t ht
  simp only [execTableExchange, Host.Outcome.next.injEq] at ht
  subst ht
  simp +contextual (maxDischargeDepth := 40) [*]

@[simp] theorem inv_reachReady (s : State) (complete : Bool) (hG : InvAt adr s) : InvAt adr (reachReady s complete) := by
  unfold reachReady
  simp +contextual (maxDischargeDepth := 40) [*]

theorem inv_execFabricReady (s : State) (hG : InvAt adr s) : ∀ t, (execFabricReady s) = .next t → InvAt adr t := by
  intro t ht
  simp only [execFabricReady, Host.Outcome.next.injEq] at ht
  subst ht
  simp +contextual (maxDischargeDepth := 40) [*]

theorem inv_execFabricReadyTimeout (s : State) (hG : InvAt adr s) : ∀ t, (execFabricReadyTimeout s) = .next t → InvAt adr t := by
  intro t ht
  simp only [execFabricReadyTimeout, Host.Outcome.next.injEq] at ht
  subst ht
  simp +contextual (maxDischargeDepth := 40) [*]

end Sys2Proof.Machine
end

