-- ==== Sys2Proof/Laws/KeepOptics.lean ====
section
/-!
SUPPORT. The operations of Machine/Optics.lean keep the invariant.
-/

namespace Sys2Proof.Machine

variable {adr : W32 × Bool}

set_option linter.unusedTactic false
set_option linter.unreachableTactic false

@[simp] theorem inv_swapReply (s : State) (e k : Nat) (st : Status) (hG : InvAt adr s) : InvAt adr (swapReply s e k st) := by
  unfold swapReply
  repeat' (first
    | (with_reducible assumption)
    | (simp +contextual (maxDischargeDepth := 40) [*]; done)
    | apply inv_runModule
    | intro _
    | dsimp only
    | split
    | apply inv_foldl)

@[simp] theorem inv_applyPending (s : State) (e : Nat) (hG : InvAt adr s) : InvAt adr (applyPending s e) := by
  unfold applyPending
  repeat' (first
    | (with_reducible assumption)
    | (simp +contextual (maxDischargeDepth := 40) [*]; done)
    | apply inv_runModule
    | intro _
    | dsimp only
    | split
    | apply inv_foldl)

@[simp] theorem inv_bindRecord (s : State) (e k old new reason : Nat) (hG : InvAt adr s) : InvAt adr
    (bindRecord s e k old new reason) := by
  unfold bindRecord
  simp +contextual (maxDischargeDepth := 40) [*]

@[simp] theorem inv_eaveChanged (s : State) (e : Nat) (hG : InvAt adr s) : InvAt adr (eaveChanged s e) := by
  unfold eaveChanged
  simp +contextual (maxDischargeDepth := 40) [*]

@[simp] theorem inv_retireLane (s : State) (e k reason : Nat) (hG : InvAt adr s) : InvAt adr (retireLane s e k reason) := by
  unfold retireLane
  simp +contextual (maxDischargeDepth := 40) [*]

@[simp] theorem inv_armLane (s : State) (e k : Nat) (moving : Bool) (reason : Nat) (hG : InvAt adr s) : InvAt adr
    (armLane s e k moving reason) := by
  unfold armLane
  (repeat' split) <;> first | (with_reducible assumption) | simp +contextual (maxDischargeDepth := 40) [*]

@[simp] theorem inv_sendTokens (s : State) (e : Nat) (hG : InvAt adr s) : InvAt adr (sendTokens s e) := by
  unfold sendTokens
  simp +contextual (maxDischargeDepth := 40) [*]

@[simp] theorem inv_bindRecords (s : State) (e reason : Nat) (hG : InvAt adr s) : InvAt adr (bindRecords s e reason) := by
  unfold bindRecords
  simp +contextual (maxDischargeDepth := 40) [*]

@[simp] theorem inv_commissioned (s : State) (e reason : Nat) (out : CommOutcome) (hG : InvAt adr s) : InvAt adr
    (commissioned s e reason out) := by
  unfold commissioned
  simp +contextual (maxDischargeDepth := 40) [*]

@[simp] theorem inv_takeLanesDown (s : State) (e : Nat) (st : EaveSt) (hG : InvAt adr s) : InvAt adr (takeLanesDown s e st) := by
  unfold takeLanesDown
  simp +contextual (maxDischargeDepth := 40) [*]

@[simp] theorem inv_withholdLanes (s : State) (e : Nat) (st : EaveSt) (hG : InvAt adr s) : InvAt adr (withholdLanes s e st) := by
  unfold withholdLanes
  simp +contextual (maxDischargeDepth := 40) [*]

@[simp] theorem inv_finishDown (s : State) (e : Nat) (hG : InvAt adr s) : InvAt adr (finishDown s e) := by
  unfold finishDown
  (repeat' split) <;> first | (with_reducible assumption) | simp +contextual (maxDischargeDepth := 40) [*]

@[simp] theorem inv_eaveStatusNow (h : Hdr) (eave : Byte) (w0 : Nat) (w1 : State) (hG : InvAt adr w1) : InvAt adr
    (eaveStatusNow h eave w0 w1) := by
  unfold eaveStatusNow
  simp +contextual (maxDischargeDepth := 40) [*]

theorem inv_execEaveStatus (h : Hdr) (eave : Byte) (s : State) (hG : InvAt adr s) : ∀ t, (execEaveStatus h eave s) = .next t →
    InvAt adr t := by
  intro t ht
  simp only [execEaveStatus, Host.Outcome.next.injEq] at ht
  subst ht
  simp +contextual (maxDischargeDepth := 40) [*]

@[simp] theorem inv_eaveCommissionNow (h : Hdr) (eave : Byte) (w0 : Nat) (w1 : State) (hG : InvAt adr w1) : InvAt adr
    (eaveCommissionNow h eave w0 w1) := by
  unfold eaveCommissionNow
  simp +contextual (maxDischargeDepth := 40) [*]

theorem inv_execEaveCommission (h : Hdr) (eave : Byte) (s : State) (hG : InvAt adr s) : ∀ t, (execEaveCommission h eave s) = .next
    t → InvAt adr t := by
  intro t ht
  simp only [execEaveCommission, Host.Outcome.next.injEq] at ht
  subst ht
  simp +contextual (maxDischargeDepth := 40) [*]

@[simp] theorem inv_eaveSweepNow (h : Hdr) (mask : Byte) (w0 : Nat) (w1 : State) (hG : InvAt adr w1) : InvAt adr
    (eaveSweepNow h mask w0 w1) := by
  unfold eaveSweepNow
  simp +contextual (maxDischargeDepth := 40) [*]

theorem inv_execEaveSweep (h : Hdr) (mask : Byte) (s : State) (hG : InvAt adr s) : ∀ t, (execEaveSweep h mask s) = .next t → InvAt
    adr t := by
  intro t ht
  simp only [execEaveSweep, Host.Outcome.next.injEq] at ht
  subst ht
  simp +contextual (maxDischargeDepth := 40) [*]

@[simp] theorem inv_swept (s : State) (e : Nat) (answers : List (Nat × W32)) (hG : InvAt adr s) : InvAt adr (swept s e answers) :=
    by
  unfold swept
  have h0 := fun f => inv_State_modEave s e f hG
  dsimp only
  split
  · exact inv_miswireEave _ _ _ (h0 _)
  · exact inv_eaveChanged _ _ (inv_applyPending _ _ (inv_sendTokens _ _ (h0 _)))

@[simp] theorem inv_monitorReadNow (h : Hdr) (eave laser : Byte) (integ : W32) (w0 : Nat) (w1 : State) (hG : InvAt adr w1) : InvAt
    adr (monitorReadNow h eave laser integ w0 w1) := by
  unfold monitorReadNow
  simp +contextual (maxDischargeDepth := 40) [*]

theorem inv_execMonitorRead (h : Hdr) (eave laser : Byte) (integUs : W32) (s : State) (hG : InvAt adr s) : ∀ t,
    (execMonitorRead h eave laser integUs s) = .next t → InvAt adr t := by
  intro t ht
  simp only [execMonitorRead, Host.Outcome.next.injEq] at ht
  subst ht
  simp +contextual (maxDischargeDepth := 40) [*]

@[simp] theorem inv_laserSwapNow (h : Hdr) (eave lane spare : Byte) (w0 : Nat) (w1 : State) (hG : InvAt adr w1) : InvAt adr
    (laserSwapNow h eave lane spare w0 w1) := by
  unfold laserSwapNow
  simp +contextual (maxDischargeDepth := 40) [*]

theorem inv_execLaserSwap (h : Hdr) (eave lane spare : Byte) (s : State) (hG : InvAt adr s) : ∀ t,
    (execLaserSwap h eave lane spare s) = .next t → InvAt adr t := by
  intro t ht
  simp only [execLaserSwap, Host.Outcome.next.injEq] at ht
  subst ht
  simp +contextual (maxDischargeDepth := 40) [*]

theorem inv_execSpareLocked (e : EaveIx) (spare : Fin 4) (s : State) (hG : InvAt adr s) : ∀ t, (execSpareLocked e spare s) = .next
    t → InvAt adr t := by
  intro t ht
  simp only [execSpareLocked, Host.Outcome.next.injEq] at ht
  subst ht
  (repeat' split) <;> first | (with_reducible assumption) | simp +contextual (maxDischargeDepth := 40) [*]

@[simp] theorem inv_spareFails (s : State) (e : Nat) (a : Arm) (hG : InvAt adr s) : InvAt adr (spareFails s e a) := by
  unfold spareFails
  simp +contextual (maxDischargeDepth := 40) [*]

theorem inv_execSpareLockTimeout (e : EaveIx) (spare : Fin 4) (s : State) (hG : InvAt adr s) : ∀ t,
    (execSpareLockTimeout e spare s) = .next t → InvAt adr t := by
  intro t ht
  simp only [execSpareLockTimeout, Host.Outcome.next.injEq] at ht
  subst ht
  (repeat' split) <;> first | (with_reducible assumption) | simp +contextual (maxDischargeDepth := 40) [*]

theorem inv_execSwapComplete (e : EaveIx) (lane : LaneIx) (s : State) (hG : InvAt adr s) : ∀ t, (execSwapComplete e lane s) = .next
    t → InvAt adr t := by
  intro t ht
  simp only [execSwapComplete, Host.Outcome.next.injEq] at ht
  subst ht
  (repeat' split) <;> first | (with_reducible assumption) | simp +contextual (maxDischargeDepth := 40) [*]

@[simp] theorem inv_fadeLane (s : State) (e k : Nat) (l : List Nat) (hG : InvAt adr s) : InvAt adr (fadeLane s e k l) := by
  unfold fadeLane
  simp +contextual (maxDischargeDepth := 40) [*]

theorem inv_execFadeAverage (e : EaveIx) (averages : List (LaserIx × W16)) (s : State) (hG : InvAt adr s) : ∀ t,
    (execFadeAverage e averages s) = .next t → InvAt adr t := by
  intro t ht
  simp only [execFadeAverage, Host.Outcome.next.injEq] at ht
  subst ht
  (repeat' split) <;> first | (with_reducible assumption) | simp +contextual (maxDischargeDepth := 40) [*]

@[simp] theorem inv_dataChanged (old : State) (e : Nat) (s : State) (hG : InvAt adr s) : InvAt adr (dataChanged old e s) := by
  unfold dataChanged
  simp +contextual (maxDischargeDepth := 40) [*]

theorem inv_execLockLost (e : EaveIx) (lane : Fin 34) (s : State) (hG : InvAt adr s) : ∀ t, (execLockLost e lane s) = .next t →
    InvAt adr t := by
  intro t ht
  simp only [execLockLost, Host.Outcome.next.injEq] at ht
  subst ht
  (repeat' split) <;> first | (with_reducible assumption) | simp +contextual (maxDischargeDepth := 40) [*]

theorem inv_execRelock (e : EaveIx) (lane : Fin 34) (s : State) (hG : InvAt adr s) : ∀ t, (execRelock e lane s) = .next t → InvAt
    adr t := by
  intro t ht
  simp only [execRelock, Host.Outcome.next.injEq] at ht
  subst ht
  simp +contextual (maxDischargeDepth := 40) [*]

theorem inv_execRelockRetry (e : EaveIx) (lane : Fin 34) (ok : Bool) (s : State) (hG : InvAt adr s) : ∀ t,
    (execRelockRetry e lane ok s) = .next t → InvAt adr t := by
  intro t ht
  simp only [execRelockRetry, Host.Outcome.next.injEq] at ht
  subst ht
  simp +contextual (maxDischargeDepth := 40) [*]

theorem inv_execPhotonicTemperatureRange (e : EaveIx) (temp : Int) (s : State) (hG : InvAt adr s) : ∀ t,
    (execPhotonicTemperatureRange e temp s) = .next t → InvAt adr t := by
  intro t ht
  simp only [execPhotonicTemperatureRange, Host.Outcome.next.injEq] at ht
  subst ht
  simp +contextual (maxDischargeDepth := 40) [*]

theorem inv_execFixedLaserFail (e : EaveIx) (cb : Bool) (s : State) (hG : InvAt adr s) : ∀ t, (execFixedLaserFail e cb s) = .next t
    → InvAt adr t := by
  intro t ht
  simp only [execFixedLaserFail, Host.Outcome.next.injEq] at ht
  subst ht
  simp +contextual (maxDischargeDepth := 40) [*]

theorem inv_execEaveLinksDown (e : EaveIx) (s : State) (hG : InvAt adr s) : ∀ t, (execEaveLinksDown e s) = .next t → InvAt adr t :=
    by
  intro t ht
  simp only [execEaveLinksDown, Host.Outcome.next.injEq] at ht
  subst ht
  simp +contextual (maxDischargeDepth := 40) [*]

@[simp] theorem inv_State_setCourse (s : State) (c : Nat) (d : Dom) (hG : InvAt adr s) : InvAt adr (State.setCourse s c d) := by
  unfold State.setCourse
  simp +contextual (maxDischargeDepth := 40) [*]

@[simp] theorem inv_domainDown (s : State) (d : Nat) (hG : InvAt adr s) : InvAt adr (domainDown s d) := by
  unfold domainDown
  simp +contextual (maxDischargeDepth := 40) [*]

@[simp] theorem inv_powerOff (s : State) (d : Nat) (hG : InvAt adr s) : InvAt adr (powerOff s d) := by
  unfold powerOff
  simp +contextual (maxDischargeDepth := 40) [*]

@[simp] theorem inv_finishDrains (s : State) (hG : InvAt adr s) : InvAt adr (finishDrains s) := by
  unfold finishDrains
  simp +contextual (maxDischargeDepth := 40) [*]

@[simp] theorem inv_startDrain (s : State) (d : Nat) (hG : InvAt adr s) : InvAt adr (startDrain s d) := by
  unfold startDrain
  simp +contextual (maxDischargeDepth := 40) [*]

@[simp] theorem inv_domainSetNow (h : Hdr) (domain on : Byte) (w0 : Nat) (w1 : State) (hG : InvAt adr w1) : InvAt adr
    (domainSetNow h domain on w0 w1) := by
  unfold domainSetNow
  simp +contextual (maxDischargeDepth := 40) [*]

theorem inv_execDomainSet (h : Hdr) (domain on : Byte) (s : State) (hG : InvAt adr s) : ∀ t, (execDomainSet h domain on s) = .next
    t → InvAt adr t := by
  intro t ht
  simp only [execDomainSet, Host.Outcome.next.injEq] at ht
  subst ht
  simp +contextual (maxDischargeDepth := 40) [*]

theorem inv_execLinkFrameReceive (ch rev : Nat) (f : LinkFrame) (s : State) (hG : InvAt adr s) : ∀ t,
    (execLinkFrameReceive ch rev f s) = .next t → InvAt adr t := by
  intro t ht
  simp only [execLinkFrameReceive, Host.Outcome.next.injEq] at ht
  subst ht
  simp +contextual (maxDischargeDepth := 40) [*]

theorem inv_execChannelDown (ch : Nat) (s : State) (hG : InvAt adr s) : ∀ t, (execChannelDown ch s) = .next t → InvAt adr t := by
  intro t ht
  simp only [execChannelDown, Host.Outcome.next.injEq] at ht
  subst ht
  simp +contextual (maxDischargeDepth := 40) [*]

end Sys2Proof.Machine
end

