-- ==== Sys2Proof/Laws/KeepLodge.lean ====
section
/-!
SUPPORT. The operations of Machine/Lodge.lean keep the invariant.
-/

namespace Sys2Proof.Machine

variable {adr : W32 × Bool}

set_option linter.unusedTactic false
set_option linter.unreachableTactic false

@[simp] theorem inv_moduleNow (w0 : Instr) (w1 : Nat) (w2 : State) (hG : InvAt adr w2) : InvAt adr (moduleNow w0 w1 w2) := by
  unfold moduleNow
  (repeat' split) <;> first | (with_reducible assumption) | simp +contextual (maxDischargeDepth := 40) [*]

theorem keeps_unitDefOf (c : Instr) (d : UnitDef) (h : unitDefOf c = some d) : Keeps adr d := by
  unfold unitDefOf at h
  split at h
  all_goals first
    | (cases h; simp; done)
    | cases h

@[simp] theorem inv_commandNow (c : Instr) (w0 : Nat) (w1 : State) (hG : InvAt adr w1) : InvAt adr (commandNow c w0 w1) := by
  unfold commandNow
  generalize hd : unitDefOf c = o
  cases o with
  | some d => exact inv_runUnit _ _ _ _ (keeps_unitDefOf c d hd) hG
  | none => exact inv_moduleNow _ _ _ hG

@[simp] theorem inv_receiveCmd (s : State) (c : Instr) (hG : InvAt adr s) : InvAt adr (receiveCmd s c) := by
  unfold receiveCmd
  (repeat' split) <;> first | (with_reducible assumption) | simp +contextual (maxDischargeDepth := 40) [*]

@[simp] theorem inv_admitNow (s : State) (id : Nat) (c : Instr) (hG : InvAt adr s) : InvAt adr (admitNow s id c) := by
  unfold admitNow
  (repeat' split) <;> first | (with_reducible assumption) | simp +contextual (maxDischargeDepth := 40) [*]

theorem inv_execLodgeAdmit (cmd : Nat) (s : State) (hG : InvAt adr s) : ∀ t, (execLodgeAdmit cmd s) = .next t → InvAt adr t := by
  intro t ht
  simp only [execLodgeAdmit, Host.Outcome.next.injEq] at ht
  subst ht
  (repeat' split) <;> first | (with_reducible assumption) | simp +contextual (maxDischargeDepth := 40) [*]

@[simp] theorem inv_State_putOp (s : State) (o : Op) (hG : InvAt adr s) : InvAt adr (State.putOp s o) := by
  unfold State.putOp
  simp +contextual (maxDischargeDepth := 40) [*]

theorem keeps_arrivalDef (c : Instr) (errs : List MemErr) (d : UnitDef) (h : arrivalDef c errs = some d) : Keeps adr d := by
  unfold arrivalDef at h
  split at h
  all_goals first
    | exact keeps_unitDefOf _ _ h
    | (cases h; simp; done)

theorem inv_execCommandArrival (op : Nat) (sh : SheafIx) (errs : List MemErr) (s : State) (hG : InvAt adr s) : ∀ t,
    (execCommandArrival op sh errs s) = .next t → InvAt adr t := by
  intro t ht
  simp only [execCommandArrival, Host.Outcome.next.injEq] at ht
  subst ht
  repeat' split
  · exact hG
  · next hd _ _ =>
    exact inv_State_flushWatches _ (inv_State_putOp _ _ (inv_arriveAt _ _ _ _ _ _ (keeps_arrivalDef _ _ _ hd) (inv_wakeRoute _ _ hG)))
  · exact hG
  · exact hG

@[simp] theorem inv_settleMembers (s : State) (d : UnitDef) (o : Op) (hd : Keeps adr d) (hG : InvAt adr s) : InvAt adr
    (settleMembers s d o) := by
  unfold settleMembers
  simp +contextual (maxDischargeDepth := 40) [*]

@[simp] theorem inv_sheafReply (s : State) (o : Op) (h : Hdr) (g : Nat) (hG : InvAt adr s) : InvAt adr (sheafReply s o h g) := by
  unfold sheafReply
  simp +contextual (maxDischargeDepth := 40) [*]

theorem inv_dieReply (s : State) (o : Op) (h : Hdr) (d : UnitDef) (k : Nat) (hd : Keeps adr d) (hG : InvAt adr s) :
    InvAt adr (dieReply s o h d k) := by
  unfold dieReply
  exact inv_settleMembers _ _ _ hd (inv_foldl _ _ _ hG (fun s m hs => inv_State_censusSel _ _ _ _ hs))

theorem inv_execMemberReply (op : Nat) (member : BitVec 24) (s : State) (hG : InvAt adr s) : ∀ t, (execMemberReply op member s) =
    .next t → InvAt adr t := by
  intro t ht
  simp only [execMemberReply, Host.Outcome.next.injEq] at ht
  subst ht
  split
  · exact hG
  · split
    · next hd _ =>
      have hk := keeps_unitDefOf (adr := adr) _ _ hd
      repeat' (with_reducible first
        | assumption
        | exact inv_sheafReply _ _ _ _ hG
        | exact inv_dieReply _ _ _ _ _ hk hG
        | split)
    · exact hG

@[simp] theorem inv_noteSilent (s : State) (o : Op) (k : Nat) (path : BitVec 24) (n : Nat) (hG : InvAt adr s) : InvAt adr
    (noteSilent s o k path n) := by
  unfold noteSilent
  simp +contextual (maxDischargeDepth := 40) [*]

@[simp] theorem inv_markSilent (s : State) (g : Nat) (ls : List Nat) (hG : InvAt adr s) : InvAt adr (markSilent s g ls) := by
  unfold markSilent
  simp +contextual (maxDischargeDepth := 40) [*]

@[simp] theorem inv_silenceL2 (s : State) (o : Op) (h : Hdr) (member : BitVec 24) (hG : InvAt adr s) : InvAt adr
    (silenceL2 s o h member) := by
  unfold silenceL2
  simp +contextual (maxDischargeDepth := 40) [*]

theorem inv_silenceSheaf (h : Hdr) (d : UnitDef) (a : State × Op) (g : Nat) (hG : InvAt adr a.1) :
    InvAt adr (silenceSheaf h d a g).1 := by
  unfold silenceSheaf
  exact inv_State_censusSel _ _ _ _ (inv_State_modSheaf _ _ _ (inv_markSilent _ _ _ hG))

theorem inv_silenceSheaves (h : Hdr) (d : UnitDef) (gs : List Nat) (a : State × Op) (hG : InvAt adr a.1) :
    InvAt adr (gs.foldl (silenceSheaf h d) a).1 :=
  inv_foldl1 gs (silenceSheaf h d) a hG (fun b g hb => inv_silenceSheaf h d b g hb)

theorem inv_execMemberSilent (op : Nat) (member : BitVec 24) (s : State) (hG : InvAt adr s) : ∀ t, (execMemberSilent op member s) =
    .next t → InvAt adr t := by
  intro t ht
  simp only [execMemberSilent, Host.Outcome.next.injEq] at ht
  subst ht
  split
  · exact hG
  · split
    · next hd _ =>
      have hk := keeps_unitDefOf (adr := adr) _ _ hd
      repeat' (with_reducible first
        | assumption
        | exact inv_State_flushWatches _ (inv_silenceL2 _ _ _ _ hG)
        | exact inv_settleMembers _ _ _ hk (inv_noteSilent _ _ _ _ _ (inv_silenceSheaves _ _ _ _ hG))
        | split)
    · exact hG

theorem inv_execMemberSilentCoalesce (lodge : Nat) (s : State) (hG : InvAt adr s) : ∀ t, (execMemberSilentCoalesce lodge s) = .next
    t → InvAt adr t := by
  intro t ht
  simp only [execMemberSilentCoalesce, Host.Outcome.next.injEq] at ht
  subst ht
  (repeat' split) <;> first | (with_reducible assumption) | simp +contextual (maxDischargeDepth := 40) [*]

theorem inv_execCensusUpdate (sh : SheafIx) (level : Nat) (reed : Option Nat) (s : State) (hG : InvAt adr s) : ∀ t,
    (execCensusUpdate sh level reed s) = .next t → InvAt adr t := by
  intro t ht
  simp only [execCensusUpdate, Host.Outcome.next.injEq] at ht
  subst ht
  simp +contextual (maxDischargeDepth := 40) [*]

end Sys2Proof.Machine
end

