-- ==== Sys2Proof/Laws/KeepPacket.lean ====
section
/-!
SUPPORT. The operations of Machine/Packet.lean keep the invariant.
-/

namespace Sys2Proof.Machine

variable {adr : W32 × Bool}

set_option linter.unusedTactic false
set_option linter.unreachableTactic false

@[simp] theorem inv_signatureFail (s : State) (src : Src) (r : RawHdr) (stale : Bool) (hG : InvAt adr s) : InvAt adr
    (signatureFail s src r stale) := by
  unfold signatureFail
  simp +contextual (maxDischargeDepth := 40) [*]

@[simp] theorem inv_tagTaken (s : State) (tag : W32) (hG : InvAt adr s) : InvAt adr (tagTaken s tag) := by
  unfold tagTaken
  simp +contextual (maxDischargeDepth := 40) [*]

@[simp] theorem inv_checkPacket (s : State) (src : Src) (b : List Byte) (hG : InvAt adr s) : InvAt adr (checkPacket s src b).2 := by
  unfold checkPacket
  repeat' (first
    | (with_reducible assumption)
    | (simp +contextual (maxDischargeDepth := 40) [*]; done)
    | apply inv_runModule
    | intro _
    | dsimp only
    | split
    | apply inv_foldl)

@[simp] theorem inv_headerReplyAs (s : State) (id : Nat) (src : Src) (b : List Byte) (st : Status) (hG : InvAt adr s) : InvAt adr
    (headerReplyAs s id src b st) := by
  unfold headerReplyAs
  simp +contextual (maxDischargeDepth := 40) [*]

@[simp] theorem inv_State_nextCmd (s : State) (hG : InvAt adr s) : InvAt adr (State.nextCmd s) := by
  unfold State.nextCmd
  simp +contextual (maxDischargeDepth := 40) [*]

@[simp] theorem inv_headerReply (s : State) (src : Src) (b : List Byte) (st : Status) (hG : InvAt adr s) : InvAt adr
    (headerReply s src b st) := by
  unfold headerReply
  simp +contextual (maxDischargeDepth := 40) [*]

@[simp] theorem inv_refuseAs (s : State) (id : Nat) (c : Instr) (st : Status) (r : Hdr → CmdInfo → Refuse) (hG : InvAt adr s) :
    InvAt adr (refuseAs s id c st r) := by
  unfold refuseAs
  (repeat' split) <;> first | (with_reducible assumption) | simp +contextual (maxDischargeDepth := 40) [*]

@[simp] theorem inv_formReplyAs (s : State) (id : Nat) (c : Instr) (st : Status) (hG : InvAt adr s) : InvAt adr
    (formReplyAs s id c st) := by
  unfold formReplyAs
  simp +contextual (maxDischargeDepth := 40) [*]

@[simp] theorem inv_fplReply (s : State) (c : Instr) (hG : InvAt adr s) : InvAt adr (fplReply s c) := by
  unfold fplReply
  simp +contextual (maxDischargeDepth := 40) [*]

@[simp] theorem inv_formReply (s : State) (c : Instr) (st : Status) (hG : InvAt adr s) : InvAt adr (formReply s c st) := by
  unfold formReply
  (repeat' split) <;> first | (with_reducible assumption) | simp +contextual (maxDischargeDepth := 40) [*]

@[simp] theorem inv_answerCheck (s : State) (c : Instr) (v : Verdict) (answer : State → Nat → State)
    (hanswer : ∀ v0 v1, InvAt adr v0 → InvAt adr (answer v0 v1)) (hG : InvAt adr s) : InvAt adr (answerCheck s c v answer) := by
  unfold answerCheck
  simp +contextual (maxDischargeDepth := 40) [*]

@[simp] theorem inv_arrived (s : State) (src : Src) (b : List Byte) (received : State → Instr → State)
    (hreceived : ∀ v0 v1, InvAt adr v0 → InvAt adr (received v0 v1)) (hG : InvAt adr s) : InvAt adr (arrived s src b received) := by
  unfold arrived
  repeat' (first
    | (with_reducible assumption)
    | (simp +contextual (maxDischargeDepth := 40) [*]; done)
    | apply inv_runModule
    | intro _
    | dsimp only
    | split
    | apply inv_foldl)

@[simp] theorem inv_releaseFence (s : State) (w : Waiting) (hG : InvAt adr s) : InvAt adr (releaseFence s w) := by
  unfold releaseFence
  (repeat' split) <;> first | (with_reducible assumption) | simp +contextual (maxDischargeDepth := 40) [*]

theorem inv_execFenceRelease (p : PortIx) (s : State) (hG : InvAt adr s) : ∀ t, (execFenceRelease p s) = .next t → InvAt adr t := by
  intro t ht
  simp only [execFenceRelease, Host.Outcome.next.injEq] at ht
  subst ht
  (repeat' split) <;> first | (with_reducible assumption) | simp +contextual (maxDischargeDepth := 40) [*]

theorem inv_execPacketTaken (p : PortIx) (s : State) (hG : InvAt adr s) : ∀ t, (execPacketTaken p s) = .next t → InvAt adr t := by
  intro t ht
  simp only [execPacketTaken, Host.Outcome.next.injEq] at ht
  subst ht
  simp +contextual (maxDischargeDepth := 40) [*]

@[simp] theorem inv_wholePacket (s : State) (src : Src) (b : List Byte) (received : State → Instr → State)
    (hreceived : ∀ v0 v1, InvAt adr v0 → InvAt adr (received v0 v1)) (hG : InvAt adr s) : InvAt adr (wholePacket s src b received)
    := by
  unfold wholePacket
  simp +contextual (maxDischargeDepth := 40) [*]

theorem inv_execPeerCommand (addr : W32) (fpl : Byte) (bytes : List Byte) (s : State) (hG : InvAt adr s) : ∀ t,
    (execPeerCommand addr fpl bytes s) = .next t → InvAt adr t := by
  intro t ht
  simp only [execPeerCommand, Host.Outcome.next.injEq] at ht
  subst ht
  simp +contextual (maxDischargeDepth := 40) [*]

theorem inv_execSidebandPacket (bytes : List Byte) (s : State) (hG : InvAt adr s) : ∀ t, (execSidebandPacket bytes s) = .next t →
    InvAt adr t := by
  intro t ht
  simp only [execSidebandPacket, Host.Outcome.next.injEq] at ht
  subst ht
  simp +contextual (maxDischargeDepth := 40) [*]

end Sys2Proof.Machine
end

