-- ==== Sys2Proof/Laws/KeepBoot.lean ====
section
/-!
SUPPORT. The operations of Machine/Boot.lean keep the invariant.
-/

namespace Sys2Proof.Machine

variable {adr : W32 × Bool}

set_option linter.unusedTactic false
set_option linter.unreachableTactic false

@[simp] theorem inv_State_dropMain (s : State) (hG : InvAt adr s) : InvAt adr (State.dropMain s) := by
  exact ⟨weightsAt_of (by decide : weightsOk State.reset.tcweight = true), hG.addr, wfAt_nil⟩

@[simp] theorem inv_noteStep (s : State) (type n : Nat) (st : Status) (body : List Byte) (hG : InvAt adr s) : InvAt adr
    (noteStep s type n st body) := by
  unfold noteStep
  simp +contextual (maxDischargeDepth := 40) [*]

@[simp] theorem inv_readArea (s : State) (n : Nat) (hG : InvAt adr s) : InvAt adr (readArea s n) := by
  unfold readArea
  simp +contextual (maxDischargeDepth := 40) [*]

@[simp] theorem inv_State_mainDomains (s : State) (d : Dom) (hG : InvAt adr s) : InvAt adr (State.mainDomains s d) := by
  unfold State.mainDomains
  simp +contextual (maxDischargeDepth := 40) [*]

@[simp] theorem inv_enterStep (s : State) (n : Nat) (hG : InvAt adr s) : InvAt adr (enterStep s n) := by
  unfold enterStep
  simp +contextual (maxDischargeDepth := 40) [*]

@[simp] theorem inv_endRecord (s : State) (n detail result : Nat) (items : List Nat) (hG : InvAt adr s) : InvAt adr
    (endRecord s n detail result items) := by
  unfold endRecord
  simp +contextual (maxDischargeDepth := 40) [*]

@[simp] theorem inv_State_powerUp (s : State) (step detail restarts : Nat) (hG : InvAt adr s) : InvAt adr
    (State.powerUp s step detail restarts) := by
  unfold State.powerUp
  simp +contextual (maxDischargeDepth := 40) [*]

@[simp] theorem inv_setDetail (s : State) (d : Nat) (hG : InvAt adr s) : InvAt adr (setDetail s d) := by
  unfold setDetail
  simp +contextual (maxDischargeDepth := 40) [*]

@[simp] theorem inv_degradeBoot (s : State) (d : Nat) (hG : InvAt adr s) : InvAt adr (degradeBoot s d) := by
  unfold degradeBoot
  simp +contextual (maxDischargeDepth := 40) [*]

@[simp] theorem inv_alterStep (s : State) (n d : Nat) (hG : InvAt adr s) : InvAt adr (alterStep s n d) := by
  unfold alterStep
  simp +contextual (maxDischargeDepth := 40) [*]

@[simp] theorem inv_addFail (s : State) (n : Nat) (watchdog : Bool) (item : Nat) (hG : InvAt adr s) : InvAt adr
    (addFail s n watchdog item) := by
  unfold addFail
  simp +contextual (maxDischargeDepth := 40) [*]

@[simp] theorem inv_clearFail (s : State) (n : Nat) (hG : InvAt adr s) : InvAt adr (clearFail s n) := by
  unfold clearFail
  simp +contextual (maxDischargeDepth := 40) [*]

@[simp] theorem inv_haltBoot (s : State) (n d : Nat) (items : List Nat) (hG : InvAt adr s) : InvAt adr (haltBoot s n d items) := by
  unfold haltBoot
  simp +contextual (maxDischargeDepth := 40) [*]

@[simp] theorem inv_restartBoot (s : State) (n : Nat) (items : List Nat) (hG : InvAt adr s) : InvAt adr (restartBoot s n items) :=
    by
  unfold restartBoot
  simp +contextual (maxDischargeDepth := 40) [*]

@[simp] theorem inv_failStep (s : State) (n : Nat) (items : List Nat) (hG : InvAt adr s) : InvAt adr (failStep s n items) := by
  unfold failStep
  simp +contextual (maxDischargeDepth := 40) [*]

@[simp] theorem inv_endStep (s : State) (n : Nat) (hG : InvAt adr s) : InvAt adr (endStep s n) := by
  unfold endStep
  simp +contextual (maxDischargeDepth := 40) [*]

@[simp] theorem inv_interruptStep (s : State) (hG : InvAt adr s) : InvAt adr (interruptStep s) := by
  unfold interruptStep
  simp +contextual (maxDischargeDepth := 40) [*]

theorem inv_execStandbyRailUp (s : State) (hG : InvAt adr s) : ∀ t, (execStandbyRailUp s) = .next t → InvAt adr t := by
  intro t ht
  simp only [execStandbyRailUp, Host.Outcome.next.injEq] at ht
  subst ht
  simp +contextual (maxDischargeDepth := 40) [*]

@[simp] theorem inv_State_darken (s : State) (hG : InvAt adr s) : InvAt adr (State.darken s) := by
  unfold State.darken
  simp +contextual (maxDischargeDepth := 40) [*]

theorem inv_execStandbyRailLoss (tear : Tear) (s : State) (hG : InvAt adr s) : ∀ t, (execStandbyRailLoss tear s) = .next t → InvAt
    adr t := by
  intro t ht
  simp only [execStandbyRailLoss, Host.Outcome.next.injEq] at ht
  subst ht
  simp +contextual (maxDischargeDepth := 40) [*]

theorem inv_execMainRailGood (s : State) (hG : InvAt adr s) : ∀ t, (execMainRailGood s) = .next t → InvAt adr t := by
  intro t ht
  simp only [execMainRailGood, Host.Outcome.next.injEq] at ht
  subst ht
  simp +contextual (maxDischargeDepth := 40) [*]

theorem inv_execMainRailLoss (s : State) (hG : InvAt adr s) : ∀ t, (execMainRailLoss s) = .next t → InvAt adr t := by
  intro t ht
  simp only [execMainRailLoss, Host.Outcome.next.injEq] at ht
  subst ht
  simp +contextual (maxDischargeDepth := 40) [*]

theorem inv_execResetNAssert (s : State) (hG : InvAt adr s) : ∀ t, (execResetNAssert s) = .next t → InvAt adr t := by
  intro t ht
  simp only [execResetNAssert, Host.Outcome.next.injEq] at ht
  subst ht
  simp +contextual (maxDischargeDepth := 40) [*]

theorem inv_execResetNRelease (s : State) (hG : InvAt adr s) : ∀ t, (execResetNRelease s) = .next t → InvAt adr t := by
  intro t ht
  simp only [execResetNRelease, Host.Outcome.next.injEq] at ht
  subst ht
  simp +contextual (maxDischargeDepth := 40) [*]

/-- POWER_ON alone gives the module another fabric address: that of its straps (R312). -/
theorem inv_execPowerOn (straps : BitVec 13) (s : State) (hG : InvAt adr s) : ∀ t, (execPowerOn straps s) = .next t →
    InvAt adr t ∨ InvAt (straps.setWidth 32, adr.2) t := by
  intro t ht
  simp only [execPowerOn, Host.Outcome.next.injEq] at ht
  subst ht
  split
  · exact .inl hG
  · exact .inr (inv_enterStep _ _ ⟨hG.tc, by simp [addressIs], hG.mem⟩)

theorem addressOk_straps (straps : BitVec 13) : addressOk (straps.setWidth 32) = true := by
  have := straps.isLt
  simp [addressOk]
  omega

@[simp] theorem inv_setMeas (s : State) (l : List (Nat × BitVec 256)) (hG : InvAt adr s) : InvAt adr (setMeas s l) := by
  unfold setMeas
  simp +contextual (maxDischargeDepth := 40) [*]

theorem inv_execFuse (ok : Bool) (s : State) (hG : InvAt adr s) : ∀ t, (execFuse ok s) = .next t → InvAt adr t := by
  intro t ht
  simp only [execFuse, Host.Outcome.next.injEq] at ht
  subst ht
  simp +contextual (maxDischargeDepth := 40) [*]

@[simp] theorem inv_useImage (s : State) (i : Nat) (hG : InvAt adr s) : InvAt adr (useImage s i) := by
  unfold useImage
  simp +contextual (maxDischargeDepth := 40) [*]

theorem inv_execImage (primaryRead goldenRead : Bool) (s : State) (hG : InvAt adr s) : ∀ t, (execImage primaryRead goldenRead s) =
    .next t → InvAt adr t := by
  intro t ht
  simp only [execImage, Host.Outcome.next.injEq] at ht
  subst ht
  simp +contextual (maxDischargeDepth := 40) [*]

@[simp] theorem inv_failReed (s : State) (reed position seq : Nat) (runtime : Bool) (hG : InvAt adr s) : InvAt adr
    (failReed s reed position seq runtime) := by
  unfold failReed
  simp +contextual (maxDischargeDepth := 40) [*]

@[simp] theorem inv_replayReed (s : State) (r : JRec) (hG : InvAt adr s) : InvAt adr (replayReed s r) := by
  unfold replayReed
  simp +contextual (maxDischargeDepth := 40) [*]

@[simp] theorem inv_replay (s : State) (r : JRec) (hG : InvAt adr s) : InvAt adr (replay s r) := by
  unfold replay
  simp +contextual (maxDischargeDepth := 40) [*]

@[simp] theorem inv_rebuildMaps (s : State) (hG : InvAt adr s) : InvAt adr (rebuildMaps s) := by
  unfold rebuildMaps
  simp +contextual (maxDischargeDepth := 40) [*]

@[simp] theorem inv_readJournal (s : State) (again readableA readableB : Bool) (hG : InvAt adr s) : InvAt adr
    (readJournal s again readableA readableB) := by
  unfold readJournal
  simp +contextual (maxDischargeDepth := 40) [*]

@[simp] theorem inv_copyStep (s : State) (n : Nat) (hG : InvAt adr s) : InvAt adr (copyStep s n) := by
  unfold copyStep
  (repeat' split) <;> first | (with_reducible assumption) | simp +contextual (maxDischargeDepth := 40) [*]

@[simp] theorem inv_noteFallback (s : State) (hG : InvAt adr s) : InvAt adr (noteFallback s) := by
  unfold noteFallback
  simp +contextual (maxDischargeDepth := 40) [*]

theorem inv_execJournal (readableA readableB : Bool) (largestEpoch : W32) (s : State) (hG : InvAt adr s) : ∀ t,
    (execJournal readableA readableB largestEpoch s) = .next t → InvAt adr t := by
  intro t ht
  simp only [execJournal, Host.Outcome.next.injEq] at ht
  subst ht
  simp +contextual (maxDischargeDepth := 40) [*]

theorem inv_execPower (ok : Bool) (s : State) (hG : InvAt adr s) : ∀ t, (execPower ok s) = .next t → InvAt adr t := by
  intro t ht
  simp only [execPower, Host.Outcome.next.injEq] at ht
  subst ht
  simp +contextual (maxDischargeDepth := 40) [*]

@[simp] theorem inv_bistReed (s : State) (r : Nat) (hG : InvAt adr s) : InvAt adr (bistReed s r) := by
  unfold bistReed
  simp +contextual (maxDischargeDepth := 40) [*]

@[simp] theorem inv_bistSpare (s : State) (q : Nat) (hG : InvAt adr s) : InvAt adr (bistSpare s q) := by
  unfold bistSpare
  repeat' (first
    | (with_reducible assumption)
    | (simp +contextual (maxDischargeDepth := 40) [*]; done)
    | apply inv_runModule
    | intro _
    | dsimp only
    | split
    | apply inv_foldl)

@[simp] theorem inv_bistLoftRow (s : State) (e : Nat × Nat × Nat) (hG : InvAt adr s) : InvAt adr (bistLoftRow s e) := by
  unfold bistLoftRow
  simp +contextual (maxDischargeDepth := 40) [*]

@[simp] theorem inv_bistRepairs (s : State) (o : BistOutcome) (ran : Nat → Bool) (hG : InvAt adr s) : InvAt adr
    (bistRepairs s o ran) := by
  unfold bistRepairs
  simp +contextual (maxDischargeDepth := 40) [*]

theorem inv_execBist (o : BistOutcome) (s : State) (hG : InvAt adr s) : ∀ t, (execBist o s) = .next t → InvAt adr t := by
  intro t ht
  simp only [execBist, Host.Outcome.next.injEq] at ht
  subst ht
  simp +contextual (maxDischargeDepth := 40) [*]

@[simp] theorem inv_trainChannel (s : State) (ch rung : Nat) (hG : InvAt adr s) : InvAt adr (trainChannel s ch rung) := by
  unfold trainChannel
  simp +contextual (maxDischargeDepth := 40) [*]

theorem inv_execMemory (rungs : List (Nat × Nat)) (s : State) (hG : InvAt adr s) : ∀ t, (execMemory rungs s) = .next t → InvAt adr
    t := by
  intro t ht
  simp only [execMemory, Host.Outcome.next.injEq] at ht
  subst ht
  (repeat' split) <;> first | (with_reducible assumption) | simp +contextual (maxDischargeDepth := 40) [*]

@[simp] theorem inv_bootEave (outcomes : List CommOutcome) (skipped : List Nat) (s : State) (e : Nat) (hG : InvAt adr s) : InvAt
    adr (bootEave outcomes skipped s e) := by
  unfold bootEave
  (repeat' split) <;> first | (with_reducible assumption) | simp +contextual (maxDischargeDepth := 40) [*]

@[simp] theorem inv_runEaves (s : State) (outcomes : List CommOutcome) (hG : InvAt adr s) : InvAt adr (runEaves s outcomes) := by
  unfold runEaves
  simp +contextual (maxDischargeDepth := 40) [*]

theorem inv_execEaves (outcomes : List CommOutcome) (s : State) (hG : InvAt adr s) : ∀ t, (execEaves outcomes s) = .next t → InvAt
    adr t := by
  intro t ht
  simp only [execEaves, Host.Outcome.next.injEq] at ht
  subst ht
  simp +contextual (maxDischargeDepth := 40) [*]

@[simp] theorem inv_burnRollback (s : State) (hG : InvAt adr s) : InvAt adr (burnRollback s) := by
  unfold burnRollback
  simp +contextual (maxDischargeDepth := 40) [*]

@[simp] theorem inv_tellFallback (s : State) (hG : InvAt adr s) : InvAt adr (tellFallback s) := by
  unfold tellFallback
  repeat' (first
    | (with_reducible assumption)
    | (simp +contextual (maxDischargeDepth := 40) [*]; done)
    | apply inv_runModule
    | intro _
    | dsimp only
    | split
    | apply inv_foldl)

theorem inv_execReleased (s : State) (hG : InvAt adr s) : ∀ t, (execReleased s) = .next t → InvAt adr t := by
  intro t ht
  simp only [execReleased, Host.Outcome.next.injEq] at ht
  subst ht
  simp +contextual (maxDischargeDepth := 40) [*]

theorem inv_execStepWatchdog (late : List Nat) (s : State) (hG : InvAt adr s) : ∀ t, (execStepWatchdog late s) = .next t → InvAt
    adr t := by
  intro t ht
  simp only [execStepWatchdog, Host.Outcome.next.injEq] at ht
  subst ht
  simp +contextual (maxDischargeDepth := 40) [*]

@[simp] theorem inv_keepTick (s : State) (hG : InvAt adr s) : InvAt adr (keepTick s) := by
  unfold keepTick
  simp +contextual (maxDischargeDepth := 40) [*]

end Sys2Proof.Machine
end

