-- ==== Sys2Proof/Laws/KeepAction.lean ====
section
/-!
SUPPORT. The operations of Machine/Action.lean keep the invariant.
-/

namespace Sys2Proof.Machine

variable {adr : W32 × Bool}

set_option linter.unusedTactic false
set_option linter.unreachableTactic false

@[simp] theorem inv_sendPrepared (s : State) (o : Op) (hG : InvAt adr s) : InvAt adr (sendPrepared s o) := by
  unfold sendPrepared
  (repeat' split) <;> first | (with_reducible assumption) | simp +contextual (maxDischargeDepth := 40) [*]

@[simp] theorem inv_sendKept (s : State) (o : Op) (hG : InvAt adr s) : InvAt adr (sendKept s o) := by
  unfold sendKept
  split <;> simp [*]

@[simp] theorem inv_sendLonger (s : State) (o : Op) (more : List Byte) (hG : InvAt adr s) : InvAt adr (sendLonger s o more) := by
  unfold sendLonger
  simp +contextual (maxDischargeDepth := 40) [*]

@[simp] theorem inv_commissionDone (s : State) (o : Op) (e : Nat) (out : CommOutcome) (hG : InvAt adr s) : InvAt adr
    (commissionDone s o e out) := by
  unfold commissionDone
  simp +contextual (maxDischargeDepth := 40) [*]

@[simp] theorem inv_sweepDone (s : State) (o : Op) (mask : Byte) (answers : List (Nat × W32)) (hG : InvAt adr s) : InvAt adr
    (sweepDone s o mask answers) := by
  unfold sweepDone
  simp +contextual (maxDischargeDepth := 40) [*]

@[simp] theorem inv_revocationDone (s : State) (o : Op) (allot base : Nat) (hG : InvAt adr s) : InvAt adr
    (revocationDone s o allot base) := by
  unfold revocationDone
  (repeat' split) <;> first | (with_reducible assumption) | simp +contextual (maxDischargeDepth := 40) [*]

@[simp] theorem inv_moduleDone (s : State) (o : Op) (data : ActionData) (hG : InvAt adr s) : InvAt adr (moduleDone s o data) := by
  unfold moduleDone
  (repeat' split) <;> first | (with_reducible assumption) | simp +contextual (maxDischargeDepth := 40) [*]

theorem inv_execCommandActionComplete (op : Nat) (data : ActionData) (s : State) (hG : InvAt adr s) : ∀ t,
    (execCommandActionComplete op data s) = .next t → InvAt adr t := by
  intro t ht
  simp only [execCommandActionComplete, Host.Outcome.next.injEq] at ht
  subst ht
  (repeat' split) <;> first | (with_reducible assumption) | simp +contextual (maxDischargeDepth := 40) [*]

@[simp] theorem inv_issueNext (s : State) (r : Nat) (hG : InvAt adr s) : InvAt adr (issueNext s r) := by
  unfold issueNext
  repeat' (first
    | (with_reducible assumption)
    | (simp +contextual (maxDischargeDepth := 40) [*]; done)
    | apply inv_runModule
    | intro _
    | dsimp only
    | split
    | apply inv_foldl)

theorem inv_execHeldIssueRetry (r : ReedIx) (s : State) (hG : InvAt adr s) : ∀ t, (execHeldIssueRetry r s) = .next t → InvAt adr t
    := by
  intro t ht
  simp only [execHeldIssueRetry, Host.Outcome.next.injEq] at ht
  subst ht
  (repeat' split) <;> first | (with_reducible assumption) | simp +contextual (maxDischargeDepth := 40) [*]

end Sys2Proof.Machine
end

