-- ==== Sys2Proof/Laws/PerInstr.lean ====
section
/-!
SUPPORT. The family Levels: of every command with a header, whether it is a unit command is said by its acting level (R86), and its level,
class and opcode lie where the opcode tables put them (R84). Said per constructor.
-/

namespace Sys2Proof.Laws.Levels

open Sys2Proof.Machine

set_option Elab.async false

/-- A command of an opcode table acts at level 0, 3 or 5, is a unit command when and only when it acts below level 5, asks for
one of three classes, and has an opcode of a command class. -/
def Statement (c : Instr) : Prop :=
  ∀ h i, cmdOf c = some (h, i) →
    ((unitDefOf c).isSome = true ↔ i.level < 5) ∧ (i.level = 0 ∨ i.level = 3 ∨ i.level = 5) ∧ i.minClass ≤ 2 ∧
    0x0100 ≤ i.code ∧ i.code < 0x0B00

theorem nop (h : Hdr) (data : List Byte) : Statement (.nop h data) := by intro _ _ e; cases e; simp [unitDefOf]
theorem devInfo (h : Hdr) : Statement (.devInfo h) := by intro _ _ e; cases e; simp [unitDefOf]
theorem regRead (h : Hdr) (regnum : W16) : Statement (.regRead h regnum) := by intro _ _ e; cases e; simp [unitDefOf]
theorem regWrite (h : Hdr) (regnum : W16) (value : W64) : Statement (.regWrite h regnum value) := by intro _ _ e; cases e; simp [unitDefOf]
theorem portGrant (h : Hdr) (grant : Byte) : Statement (.portGrant h grant) := by intro _ _ e; cases e; simp [unitDefOf]
theorem takeover (h : Hdr) (allot : W16) : Statement (.takeover h allot) := by intro _ _ e; cases e; simp [unitDefOf]
theorem wake (h : Hdr) : Statement (.wake h) := by intro _ _ e; cases e; simp [unitDefOf]
theorem sleep (h : Hdr) : Statement (.sleep h) := by intro _ _ e; cases e; simp [unitDefOf]
theorem reset (h : Hdr) : Statement (.reset h) := by intro _ _ e; cases e; simp [unitDefOf]
theorem query (h : Hdr) : Statement (.query h) := by intro _ _ e; cases e; simp [unitDefOf]
theorem progLoad (h : Hdr) (source : Byte) (count : W16) (entry : W16) (address : W64) (image : List Byte) : Statement (.progLoad h source count entry address image) := by
  intro _ _ e; cases e; simp [unitDefOf]
theorem start (h : Hdr) (args : List W32) : Statement (.start h args) := by intro _ _ e; cases e; simp [unitDefOf]
theorem pause (h : Hdr) : Statement (.pause h) := by intro _ _ e; cases e; simp [unitDefOf]
theorem resume (h : Hdr) : Statement (.resume h) := by intro _ _ e; cases e; simp [unitDefOf]
theorem drain (h : Hdr) : Statement (.drain h) := by intro _ _ e; cases e; simp [unitDefOf]
theorem uregRead (h : Hdr) (regnum : W16) : Statement (.uregRead h regnum) := by intro _ _ e; cases e; simp [unitDefOf]
theorem uregWrite (h : Hdr) (regnum : W16) (value : W64) : Statement (.uregWrite h regnum value) := by
  intro _ _ e; cases e; simp [unitDefOf]
theorem posIndexWrite (r : ReedIx) (index : BitVec 6) : Statement (.posIndexWrite r index) := by intro _ _ e; cases e
theorem trapctlClear (r : ReedIx) : Statement (.trapctlClear r) := by intro _ _ e; cases e
theorem spRead (h : Hdr) (offset : W16) (bytes : W16) : Statement (.spRead h offset bytes) := by intro _ _ e; cases e; simp [unitDefOf]
theorem spWrite (h : Hdr) (offset : W16) (data : List Byte) : Statement (.spWrite h offset data) := by
  intro _ _ e; cases e; simp [unitDefOf]
theorem spareStatus (h : Hdr) : Statement (.spareStatus h) := by intro _ _ e; cases e; simp [unitDefOf]
theorem memGrant (h : Hdr) (allot : W16) (base : W64) (size : W64) : Statement (.memGrant h allot base size) := by
  intro _ _ e; cases e; simp [unitDefOf]
theorem memRevoke (h : Hdr) (allot : W16) (base : W64) : Statement (.memRevoke h allot base) := by intro _ _ e; cases e; simp [unitDefOf]
theorem hostDma (h : Hdr) (dir : Byte) (hostAddr : W64) (devAddr : W64) (bytes : W64) : Statement (.hostDma h dir hostAddr devAddr bytes) := by
  intro _ _ e; cases e; simp [unitDefOf]
theorem hostDmaReadError (op : Nat) (data : List Byte) (errs : List MemErr) : Statement (.hostDmaReadError op data errs) := by
  intro _ _ e; cases e
theorem aperture (h : Hdr) (base : W64) : Statement (.aperture h base) := by intro _ _ e; cases e; simp [unitDefOf]
theorem memFill (h : Hdr) (devAddr : W64) (bytes : W64) (pattern : W64) : Statement (.memFill h devAddr bytes pattern) := by
  intro _ _ e; cases e; simp [unitDefOf]
theorem eccRead (h : Hdr) (clear : Byte) : Statement (.eccRead h clear) := by intro _ _ e; cases e; simp [unitDefOf]
theorem rowRetire (h : Hdr) (address : W64) : Statement (.rowRetire h address) := by intro _ _ e; cases e; simp [unitDefOf]
theorem loftWrite (h : Hdr) (offset : W32) (data : List Byte) : Statement (.loftWrite h offset data) := by
  intro _ _ e; cases e; simp [unitDefOf]
theorem loftRead (h : Hdr) (offset : W32) (bytes : W32) : Statement (.loftRead h offset bytes) := by intro _ _ e; cases e; simp [unitDefOf]
theorem tensorMove (h : Hdr) (descs : List MoveDesc) : Statement (.tensorMove h descs) := by intro _ _ e; cases e; simp [unitDefOf]
theorem tensorDefine (h : Hdr) (handle : W16) (format : Byte) (dims : List DimRec) : Statement (.tensorDefine h handle format dims) := by
  intro _ _ e; cases e; simp [unitDefOf]
theorem tensorRelease (h : Hdr) (handle : W16) : Statement (.tensorRelease h handle) := by intro _ _ e; cases e; simp [unitDefOf]
theorem allotCreate (h : Hdr) (allot : W16) (sheafSet : BitVec 256) (members : List W32) : Statement (.allotCreate h allot sheafSet members) := by
  intro _ _ e; cases e; simp [unitDefOf]
theorem allotDissolve (h : Hdr) (allot : W16) : Statement (.allotDissolve h allot) := by intro _ _ e; cases e; simp [unitDefOf]
theorem allotResize (h : Hdr) (allot : W16) (op : Byte) (sheafSet : BitVec 256) (members : List W32) : Statement (.allotResize h allot op sheafSet members) := by
  intro _ _ e; cases e; simp [unitDefOf]
theorem topoDraw (h : Hdr) (shape : Byte) (ndim : Byte) (extents : List W16) : Statement (.topoDraw h shape ndim extents) := by
  intro _ _ e; cases e; simp [unitDefOf]
theorem colourMapSet (h : Hdr) (eave : Byte) (map : ColourMap) : Statement (.colourMapSet h eave map) := by
  intro _ _ e; cases e; simp [unitDefOf]
theorem fabricTable (h : Hdr) (first : W32) : Statement (.fabricTable h first) := by intro _ _ e; cases e; simp [unitDefOf]
theorem routeQuery (h : Hdr) (addr : W32) : Statement (.routeQuery h addr) := by intro _ _ e; cases e; simp [unitDefOf]
theorem collDefine (h : Hdr) (handle : W16) (planWords : W16) (plan : Plan) : Statement (.collDefine h handle planWords plan) := by
  intro _ _ e; cases e; simp [unitDefOf]
theorem collBackup (h : Hdr) (handle : W16) (rank : W16) (addr : W32) : Statement (.collBackup h handle rank addr) := by
  intro _ _ e; cases e; simp [unitDefOf]
theorem collTune (h : Hdr) (handle : W16) (accumn : W16) (tlate : W32) (tlost : W32) : Statement (.collTune h handle accumn tlate tlost) := by
  intro _ _ e; cases e; simp [unitDefOf]
theorem collCommit (h : Hdr) (handle : W16) (seq : W32) : Statement (.collCommit h handle seq) := by intro _ _ e; cases e; simp [unitDefOf]
theorem collAbort (h : Hdr) (handle : W16) : Statement (.collAbort h handle) := by intro _ _ e; cases e; simp [unitDefOf]
theorem collStatus (h : Hdr) (handle : W16) : Statement (.collStatus h handle) := by intro _ _ e; cases e; simp [unitDefOf]
theorem numCtl (h : Hdr) (value : W32) : Statement (.numCtl h value) := by intro _ _ e; cases e; simp [unitDefOf]
theorem wvConfig (h : Hdr) (sampleLog2 : Byte) (enable : Byte) (tolerance : W32) (threshold : W32) (reserve : W32) : Statement (.wvConfig h sampleLog2 enable tolerance threshold reserve) := by
  intro _ _ e; cases e; simp [unitDefOf]
theorem wvStats (h : Hdr) (clear : Byte) : Statement (.wvStats h clear) := by intro _ _ e; cases e; simp [unitDefOf]
theorem rngKey (h : Hdr) (key : W64) (step : W64) : Statement (.rngKey h key step) := by intro _ _ e; cases e; simp [unitDefOf]
theorem determinism (h : Hdr) (on : Byte) : Statement (.determinism h on) := by intro _ _ e; cases e; simp [unitDefOf]
theorem clampRead (h : Hdr) (clear : Byte) : Statement (.clampRead h clear) := by intro _ _ e; cases e; simp [unitDefOf]
theorem eaveStatus (h : Hdr) (eave : Byte) : Statement (.eaveStatus h eave) := by intro _ _ e; cases e; simp [unitDefOf]
theorem eaveCommission (h : Hdr) (eave : Byte) : Statement (.eaveCommission h eave) := by intro _ _ e; cases e; simp [unitDefOf]
theorem laserSwap (h : Hdr) (eave : Byte) (lane : Byte) (spare : Byte) : Statement (.laserSwap h eave lane spare) := by
  intro _ _ e; cases e; simp [unitDefOf]
theorem monitorRead (h : Hdr) (eave : Byte) (laser : Byte) (integUs : W32) : Statement (.monitorRead h eave laser integUs) := by
  intro _ _ e; cases e; simp [unitDefOf]
theorem eaveSweep (h : Hdr) (mask : Byte) : Statement (.eaveSweep h mask) := by intro _ _ e; cases e; simp [unitDefOf]
theorem domainSet (h : Hdr) (domain : Byte) (on : Byte) : Statement (.domainSet h domain on) := by intro _ _ e; cases e; simp [unitDefOf]
theorem dvfsSet (h : Hdr) (mhz : W16) : Statement (.dvfsSet h mhz) := by intro _ _ e; cases e; simp [unitDefOf]
theorem powerCap (h : Hdr) (watts : W16) : Statement (.powerCap h watts) := by intro _ _ e; cases e; simp [unitDefOf]
theorem thermalRead (h : Hdr) : Statement (.thermalRead h) := by intro _ _ e; cases e; simp [unitDefOf]
theorem powerRead (h : Hdr) : Statement (.powerRead h) := by intro _ _ e; cases e; simp [unitDefOf]
theorem attest (h : Hdr) (nonce : List Byte) : Statement (.attest h nonce) := by intro _ _ e; cases e; simp [unitDefOf]
theorem certRead (h : Hdr) : Statement (.certRead h) := by intro _ _ e; cases e; simp [unitDefOf]
theorem fwStage (h : Hdr) (offset : W32) (data : List Byte) : Statement (.fwStage h offset data) := by
  intro _ _ e; cases e; simp [unitDefOf]
theorem fwActivate (h : Hdr) (advance : Byte) : Statement (.fwActivate h advance) := by intro _ _ e; cases e; simp [unitDefOf]
theorem repairCommit (h : Hdr) : Statement (.repairCommit h) := by intro _ _ e; cases e; simp [unitDefOf]
theorem keyRotate (h : Hdr) (hash : List Byte) : Statement (.keyRotate h hash) := by intro _ _ e; cases e; simp [unitDefOf]
theorem primarySet (h : Hdr) (port : Byte) : Statement (.primarySet h port) := by intro _ _ e; cases e; simp [unitDefOf]
theorem debugLock (h : Hdr) : Statement (.debugLock h) := by intro _ _ e; cases e; simp [unitDefOf]
theorem journalRead (h : Hdr) (first : W32) : Statement (.journalRead h first) := by intro _ _ e; cases e; simp [unitDefOf]
theorem nopInstruction (r : ReedIx) : Statement (.nopInstruction r) := by intro _ _ e; cases e
theorem seti (r : ReedIx) : Statement (.seti r) := by intro _ _ e; cases e
theorem alu (r : ReedIx) : Statement (.alu r) := by intro _ _ e; cases e
theorem sld (r : ReedIx) : Statement (.sld r) := by intro _ _ e; cases e
theorem sst (r : ReedIx) : Statement (.sst r) := by intro _ _ e; cases e
theorem movr (r : ReedIx) : Statement (.movr r) := by intro _ _ e; cases e
theorem movw (r : ReedIx) : Statement (.movw r) := by intro _ _ e; cases e
theorem loop (r : ReedIx) : Statement (.loop r) := by intro _ _ e; cases e
theorem br (r : ReedIx) : Statement (.br r) := by intro _ _ e; cases e
theorem waitq (r : ReedIx) : Statement (.waitq r) := by intro _ _ e; cases e
theorem waitqRelease (r : ReedIx) : Statement (.waitqRelease r) := by intro _ _ e; cases e
theorem endInstruction (r : ReedIx) : Statement (.endInstruction r) := by intro _ _ e; cases e
theorem programEnd (r : ReedIx) : Statement (.programEnd r) := by intro _ _ e; cases e
theorem heldIssueRetry (r : ReedIx) : Statement (.heldIssueRetry r) := by intro _ _ e; cases e
theorem mma (r : ReedIx) : Statement (.mma r) := by intro _ _ e; cases e
theorem mmaf (r : ReedIx) : Statement (.mmaf r) := by intro _ _ e; cases e
theorem accz (r : ReedIx) : Statement (.accz r) := by intro _ _ e; cases e
theorem accst (r : ReedIx) : Statement (.accst r) := by intro _ _ e; cases e
theorem sumsLand (r : ReedIx) : Statement (.sumsLand r) := by intro _ _ e; cases e
theorem vew (r : ReedIx) : Statement (.vew r) := by intro _ _ e; cases e
theorem vred (r : ReedIx) : Statement (.vred r) := by intro _ _ e; cases e
theorem vscan (r : ReedIx) : Statement (.vscan r) := by intro _ _ e; cases e
theorem vsscan (r : ReedIx) : Statement (.vsscan r) := by intro _ _ e; cases e
theorem vwide (r : ReedIx) : Statement (.vwide r) := by intro _ _ e; cases e
theorem vrng (r : ReedIx) : Statement (.vrng r) := by intro _ _ e; cases e
theorem opt (r : ReedIx) : Statement (.opt r) := by intro _ _ e; cases e
theorem vcld (r : ReedIx) : Statement (.vcld r) := by intro _ _ e; cases e
theorem vcst (r : ReedIx) : Statement (.vcst r) := by intro _ _ e; cases e
theorem ld (r : ReedIx) : Statement (.ld r) := by intro _ _ e; cases e
theorem ldpage (r : ReedIx) : Statement (.ldpage r) := by intro _ _ e; cases e
theorem st (r : ReedIx) : Statement (.st r) := by intro _ _ e; cases e
theorem stAcknowledged (r : ReedIx) : Statement (.stAcknowledged r) := by intro _ _ e; cases e
theorem xput (r : ReedIx) : Statement (.xput r) := by intro _ _ e; cases e
theorem xget (r : ReedIx) : Statement (.xget r) := by intro _ _ e; cases e
theorem xcBufferRoom (r : ReedIx) : Statement (.xcBufferRoom r) := by intro _ _ e; cases e
theorem xcBytesArrive (r : ReedIx) : Statement (.xcBytesArrive r) := by intro _ _ e; cases e
theorem engineInstructionStart (r : ReedIx) (e : Engine) (errs : List MemErr) : Statement (.engineInstructionStart r e errs) := by
  intro _ _ e; cases e
theorem engineInstructionComplete (r : ReedIx) (e : Engine) : Statement (.engineInstructionComplete r e) := by intro _ _ e; cases e
theorem numericTrap (r : ReedIx) (e : Engine) : Statement (.numericTrap r e) := by intro _ _ e; cases e
theorem wvSampleCompare (sh : SheafIx) : Statement (.wvSampleCompare sh) := by intro _ _ e; cases e
theorem hardwareFault (r : ReedIx) : Statement (.hardwareFault r) := by intro _ _ e; cases e
theorem unitFaultedCoalesce (sh : SheafIx) : Statement (.unitFaultedCoalesce sh) := by intro _ _ e; cases e
theorem drainComplete (r : ReedIx) : Statement (.drainComplete r) := by intro _ _ e; cases e
theorem drainLimit (r : ReedIx) : Statement (.drainLimit r) := by intro _ _ e; cases e
theorem wakeComplete (sh : SheafIx) : Statement (.wakeComplete sh) := by intro _ _ e; cases e
theorem poweringSlotGrant (sh : SheafIx) : Statement (.poweringSlotGrant sh) := by intro _ _ e; cases e
theorem pllLock (d : DieIx) : Statement (.pllLock d) := by intro _ _ e; cases e
theorem pllStop (d : DieIx) : Statement (.pllStop d) := by intro _ _ e; cases e
theorem lodgeAdmit (cmd : Nat) : Statement (.lodgeAdmit cmd) := by intro _ _ e; cases e
theorem commandArrival (op : Nat) (sh : SheafIx) (errs : List MemErr) : Statement (.commandArrival op sh errs) := by intro _ _ e; cases e
theorem memberReply (op : Nat) (member : BitVec 24) : Statement (.memberReply op member) := by intro _ _ e; cases e
theorem memberSilent (op : Nat) (member : BitVec 24) : Statement (.memberSilent op member) := by intro _ _ e; cases e
theorem censusUpdate (sh : SheafIx) (level : Nat) (reed : Option Nat) : Statement (.censusUpdate sh level reed) := by intro _ _ e; cases e
theorem windowWrite (p : PortIx) (offset : Nat) (data : List Byte) : Statement (.windowWrite p offset data) := by intro _ _ e; cases e
theorem packetTaken (p : PortIx) : Statement (.packetTaken p) := by intro _ _ e; cases e
theorem fenceRelease (p : PortIx) : Statement (.fenceRelease p) := by intro _ _ e; cases e
theorem resync (p : PortIx) : Statement (.resync p) := by intro _ _ e; cases e
theorem replyWrite (p : PortIx) : Statement (.replyWrite p) := by intro _ _ e; cases e
theorem replyheadWrite (p : PortIx) (value : W32) : Statement (.replyheadWrite p value) := by intro _ _ e; cases e
theorem replyRingEnable (p : PortIx) (value : W32) : Statement (.replyRingEnable p value) := by intro _ _ e; cases e
theorem replyRingDisable (p : PortIx) (value : W32) : Statement (.replyRingDisable p value) := by intro _ _ e; cases e
theorem coalesceTimerExpiry (p : PortIx) : Statement (.coalesceTimerExpiry p) := by intro _ _ e; cases e
theorem eventsLost (p : PortIx) : Statement (.eventsLost p) := by intro _ _ e; cases e
theorem registerWrite (p : PortIx) (offset : Nat) (size : Nat) (value : W64) : Statement (.registerWrite p offset size value) := by
  intro _ _ e; cases e
theorem bar2statClear (p : PortIx) : Statement (.bar2statClear p) := by intro _ _ e; cases e
theorem bar2Write (p : PortIx) (offset : Nat) (data : List (Option Byte)) (errs : List MemErr) : Statement (.bar2Write p offset data errs) := by
  intro _ _ e; cases e
theorem bar2Read (p : PortIx) (offset : Nat) (length : Nat) (errs : List MemErr) : Statement (.bar2Read p offset length errs) := by
  intro _ _ e; cases e
theorem portLinkDown (p : PortIx) : Statement (.portLinkDown p) := by intro _ _ e; cases e
theorem portLinkUp (p : PortIx) (speed : BitVec 4) (width : BitVec 4) : Statement (.portLinkUp p speed width) := by intro _ _ e; cases e
theorem portReset (p : PortIx) : Statement (.portReset p) := by intro _ _ e; cases e
theorem perstAssert (p : PortIx) (low : Bool) : Statement (.perstAssert p low) := by intro _ _ e; cases e
theorem graceExpiry (p : PortIx) : Statement (.graceExpiry p) := by intro _ _ e; cases e
theorem sidebandPacket (bytes : List Byte) : Statement (.sidebandPacket bytes) := by intro _ _ e; cases e
theorem scrubRead (ch : ChanIx) (page : Nat) (errs : List MemErr) : Statement (.scrubRead ch page errs) := by intro _ _ e; cases e
theorem rowRetirementDone (ch : ChanIx) (errs : List MemErr) : Statement (.rowRetirementDone ch errs) := by intro _ _ e; cases e
theorem eccWindowClose (ch : ChanIx) (page : Nat) : Statement (.eccWindowClose ch page) := by intro _ _ e; cases e
theorem driftCheck (ch : ChanIx) (beyond : Bool) : Statement (.driftCheck ch beyond) := by intro _ _ e; cases e
theorem channelRetrainDone (ch : ChanIx) : Statement (.channelRetrainDone ch) := by intro _ _ e; cases e
theorem deviceTemperatureRead (dev : Fin 16) (temp : Int) : Statement (.deviceTemperatureRead dev temp) := by intro _ _ e; cases e
theorem selfRefreshEntry (ch : ChanIx) : Statement (.selfRefreshEntry ch) := by intro _ _ e; cases e
theorem bucketReady (sh : SheafIx) (allot : W16) (handle : W16) (b : Nat) : Statement (.bucketReady sh allot handle b) := by
  intro _ _ e; cases e
theorem exponentFrame (sh : SheafIx) (f : CFrame) : Statement (.exponentFrame sh f) := by intro _ _ e; cases e
theorem bucketExponent (sh : SheafIx) (f : CFrame) : Statement (.bucketExponent sh f) := by intro _ _ e; cases e
theorem bucketFrame (sh : SheafIx) (f : BFrame) : Statement (.bucketFrame sh f) := by intro _ _ e; cases e
theorem bucketNack (sh : SheafIx) (f : CFrame) : Statement (.bucketNack sh f) := by intro _ _ e; cases e
theorem bucketAck (sh : SheafIx) (f : CFrame) : Statement (.bucketAck sh f) := by intro _ _ e; cases e
theorem resultFrame (sh : SheafIx) (f : BFrame) : Statement (.resultFrame sh f) := by intro _ _ e; cases e
theorem tlateExpiry (sh : SheafIx) (allot : W16) (handle : W16) (bucket : Nat) (rank : Nat) : Statement (.tlateExpiry sh allot handle bucket rank) := by
  intro _ _ e; cases e
theorem tlostExpiry (sh : SheafIx) (allot : W16) (handle : W16) (bucket : Nat) : Statement (.tlostExpiry sh allot handle bucket) := by
  intro _ _ e; cases e
theorem bucketFailFrame (sh : SheafIx) (f : CFrame) : Statement (.bucketFailFrame sh f) := by intro _ _ e; cases e
theorem vote (allot : W16) (handle : W16) : Statement (.vote allot handle) := by intro _ _ e; cases e
theorem voteReceived (allot : W16) (handle : W16) (seq : W32) (run : Byte) (rank : Nat) (ok : Bool) (status : W16) (planId : W32) :
    Statement (.voteReceived allot handle seq run rank ok status planId) := by
  intro _ _ e; cases e
theorem decision (allot : W16) (handle : W16) (seq : W32) (run : Byte) (rank : Nat) (commit : Bool) (status : W16) (planId : W32) :
    Statement (.decision allot handle seq run rank commit status planId) := by
  intro _ _ e; cases e
theorem undecided (allot : W16) (handle : W16) : Statement (.undecided allot handle) := by intro _ _ e; cases e
theorem linkFrameReceive (ch : Nat) (rev : Nat) (f : LinkFrame) : Statement (.linkFrameReceive ch rev f) := by intro _ _ e; cases e
theorem peerCommand (addr : W32) (fpl : Byte) (bytes : List Byte) : Statement (.peerCommand addr fpl bytes) := by intro _ _ e; cases e
theorem retransmitTimeout (ch : Nat) : Statement (.retransmitTimeout ch) := by intro _ _ e; cases e
theorem channelDown (ch : Nat) : Statement (.channelDown ch) := by intro _ _ e; cases e
theorem fabricControlFrame (src : W32) (msg : W32) (seg : W16) (via : Nat) (news : News) : Statement (.fabricControlFrame src msg seg via news) := by
  intro _ _ e; cases e
theorem routeRecompute : Statement (.routeRecompute) := by intro _ _ e; cases e
theorem copperLaneSwap (c : CopperIx) (lane : Nat) : Statement (.copperLaneSwap c lane) := by intro _ _ e; cases e
theorem courseTrained (c : CopperIx) (peer : TableEntry) : Statement (.courseTrained c peer) := by intro _ _ e; cases e
theorem laneToken (e : EaveIx) (lane : LaneIx) (peer : W32) (peerHasRing : Bool) (incoming : Bool) : Statement (.laneToken e lane peer peerHasRing incoming) := by
  intro _ _ e; cases e
theorem rackLeadRound (lead : W64) : Statement (.rackLeadRound lead) := by intro _ _ e; cases e
theorem groupToken (e : EaveIx) (offset : Nat) (peer : TableEntry) (msg : W32) : Statement (.groupToken e offset peer msg) := by
  intro _ _ e; cases e
theorem tableExchange (entries : List TableEntry) (row : Bool) (via : Nat) (src msg : W32) :
    Statement (.tableExchange entries row via src msg) := by intro _ _ e; cases e
theorem fabricReady : Statement (.fabricReady) := by intro _ _ e; cases e
theorem fabricReadyTimeout : Statement (.fabricReadyTimeout) := by intro _ _ e; cases e
theorem lockLost (e : EaveIx) (lane : Fin 34) : Statement (.lockLost e lane) := by intro _ _ e; cases e
theorem relock (e : EaveIx) (lane : Fin 34) : Statement (.relock e lane) := by intro _ _ e; cases e
theorem relockRetry (e : EaveIx) (lane : Fin 34) (ok : Bool) : Statement (.relockRetry e lane ok) := by intro _ _ e; cases e
theorem fadeAverage (e : EaveIx) (averages : List (LaserIx × W16)) : Statement (.fadeAverage e averages) := by intro _ _ e; cases e
theorem spareLocked (e : EaveIx) (spare : Fin 4) : Statement (.spareLocked e spare) := by intro _ _ e; cases e
theorem spareLockTimeout (e : EaveIx) (spare : Fin 4) : Statement (.spareLockTimeout e spare) := by intro _ _ e; cases e
theorem swapComplete (e : EaveIx) (lane : LaneIx) : Statement (.swapComplete e lane) := by intro _ _ e; cases e
theorem fixedLaserFail (e : EaveIx) (cb : Bool) : Statement (.fixedLaserFail e cb) := by intro _ _ e; cases e
theorem photonicTemperatureRange (e : EaveIx) (temp : Int) : Statement (.photonicTemperatureRange e temp) := by intro _ _ e; cases e
theorem eaveLinksDown (e : EaveIx) : Statement (.eaveLinksDown e) := by intro _ _ e; cases e
theorem standbyRailUp : Statement (.standbyRailUp) := by intro _ _ e; cases e
theorem standbyRailLoss (tear : Tear) : Statement (.standbyRailLoss tear) := by intro _ _ e; cases e
theorem mainRailGood : Statement (.mainRailGood) := by intro _ _ e; cases e
theorem mainRailLoss : Statement (.mainRailLoss) := by intro _ _ e; cases e
theorem resetNAssert : Statement (.resetNAssert) := by intro _ _ e; cases e
theorem resetNRelease : Statement (.resetNRelease) := by intro _ _ e; cases e
theorem powerOn (straps : BitVec 13) : Statement (.powerOn straps) := by intro _ _ e; cases e
theorem fuse (ok : Bool) : Statement (.fuse ok) := by intro _ _ e; cases e
theorem image (primaryRead : Bool) (goldenRead : Bool) : Statement (.image primaryRead goldenRead) := by intro _ _ e; cases e
theorem journal (readableA : Bool) (readableB : Bool) (largestEpoch : W32) : Statement (.journal readableA readableB largestEpoch) := by
  intro _ _ e; cases e
theorem power (ok : Bool) : Statement (.power ok) := by intro _ _ e; cases e
theorem bist (o : BistOutcome) : Statement (.bist o) := by intro _ _ e; cases e
theorem memory (rungs : List (Nat × Nat)) : Statement (.memory rungs) := by intro _ _ e; cases e
theorem eaves (outcomes : List CommOutcome) : Statement (.eaves outcomes) := by intro _ _ e; cases e
theorem released : Statement (.released) := by intro _ _ e; cases e
theorem stepWatchdog (late : List Nat) : Statement (.stepWatchdog late) := by intro _ _ e; cases e
theorem powerSample (inputW : Nat) (averageW : Nat) (currentA : Nat) (vin12mV : Nat) : Statement (.powerSample inputW averageW currentA vin12mV) := by
  intro _ _ e; cases e
theorem droop (sh : SheafIx) : Statement (.droop sh) := by intro _ _ e; cases e
theorem droopRelease (sh : SheafIx) : Statement (.droopRelease sh) := by intro _ _ e; cases e
theorem thermalSample (sh : SheafIx) (temp : Int) : Statement (.thermalSample sh temp) := by intro _ _ e; cases e
theorem dieThermalSample (die : Fin 20) (temp : Int) : Statement (.dieThermalSample die temp) := by intro _ _ e; cases e
theorem clockChangeDone (sh : SheafIx) : Statement (.clockChangeDone sh) := by intro _ _ e; cases e
theorem networkDomainSleep (d : DieIx) : Statement (.networkDomainSleep d) := by intro _ _ e; cases e
theorem networkDomainWake (d : DieIx) : Statement (.networkDomainWake d) := by intro _ _ e; cases e
theorem commandActionComplete (op : Nat) (data : ActionData) : Statement (.commandActionComplete op data) := by intro _ _ e; cases e
theorem decisionAcknowledged (allot : W16) (handle : W16) (seq : W32) (run : Byte) (rank : Nat) (planId : W32) : Statement (.decisionAcknowledged allot handle seq run rank planId) := by
  intro _ _ e; cases e
theorem decisionRequest (allot : W16) (handle : W16) (seq : W32) (run : Byte) (rank : Nat) (addr planId : W32) : Statement (.decisionRequest allot handle seq run rank addr planId) := by
  intro _ _ e; cases e
theorem discoverySweepDone (answers : List (Nat × W32)) : Statement (.discoverySweepDone answers) := by intro _ _ e; cases e
theorem rateLimitWindowEnd (w : RateWindow) : Statement (.rateLimitWindowEnd w) := by intro _ _ e; cases e
theorem memberSilentCoalesce (lodge : Nat) : Statement (.memberSilentCoalesce lodge) := by intro _ _ e; cases e

end Sys2Proof.Laws.Levels
end

