-- ==== Sys2Proof/Laws/Shared.lean ====
section
/-!
SUPPORT. What the shared operations do, said once: taking a command, carrying out a module or a unit command, issuing an
instruction.
-/

namespace Sys2Proof.Machine

/-- A command that is carried out as soon as it arrives. -/
theorem submit_unhindered {c : Instr} {h : Hdr} {i : CmdInfo} {s : State} (now : Nat → State → State)
    (hc : cmdOf c = some (h, i)) (hu : unhindered s c h = true) : submit c now s = now s.lodge.nextId s.taken := by
  simp only [unhindered, Bool.and_eq_true, List.isEmpty_iff, Bool.not_eq_true'] at hu
  obtain ⟨⟨h1, h2⟩, h3⟩ := hu
  simp only [State.taken] at h3
  simp [submit, hc, h1, h2, h3, State.taken]

/-- A module command carried out: its admission checks pass, and its body acts. -/
theorem submit_module {c : Instr} {h : Hdr} {i : CmdInfo} {s : State} (form : State → Hdr → Option Status)
    (foreign : State → Hdr → Bool) (body : State → Nat → Hdr → State) (hc : cmdOf c = some (h, i))
    (hr : moduleReady s c = true) (hf : form s.taken h = none) (ho : foreign s.taken h = false) :
    submit c (runModule c form foreign body) s = body s.taken s.lodge.nextId h := by
  simp only [moduleReady, hc, Bool.and_eq_true, Bool.not_eq_true', Option.isNone_iff_eq_none, decide_eq_true_eq] at hr
  obtain ⟨⟨⟨⟨⟨⟨h1, h2⟩, h3⟩, h4⟩, h5⟩, h6⟩, h7⟩ := hr
  rw [submit_unhindered _ hc h1]
  simp [runModule, hc, h2, admitModule, h3, h4, hf, h5, h6, h7, ho]

/-- A unit command carried out on every sheaf it selects. -/
theorem submit_unit {c : Instr} {d : UnitDef} {s : State} (hd : unitDefOf c = some d) (hr : unitReady s c = true) :
    submit c (runUnit c d) s = unitOutcome s c d.level3 d.act d.payload d.wait d.slice := by
  cases hc : cmdOf c with
  | none => simp [unitReady, hc] at hr
  | some p =>
    obtain ⟨h, i⟩ := p
    simp only [unitReady, hc, hd, Bool.and_eq_true, Option.isNone_iff_eq_none, decide_eq_true_eq] at hr
    obtain ⟨⟨⟨h1, h2⟩, h3⟩, h4⟩ := hr
    rw [submit_unhindered _ hc h1]
    simp only [runUnit, hc, admitOn, h2, if_false, h3, h4, Option.map_none, unitOutcome]
    rfl

/-- Giving a command its number changes no path, route or member of an allotment. -/
theorem pathUp_taken (s : State) (mem : W32 → Bool) (r : Route) : ∀ a, pathUp s.taken mem a r = pathUp s mem a r := by
  induction r with
  | nil => intro a; rfl
  | cons h t ih => intro a; simp only [pathUp, ih]; rfl
theorem candidates_taken (s : State) (mem : W32 → Bool) (p q : W32) : candidates s.taken mem p q = candidates s mem p q := by
  simp only [candidates, pathUp_taken]; rfl
theorem routesTo_taken (s : State) (mem : W32 → Bool) (q : W32) : routesTo s.taken mem q = routesTo s mem q := by
  simp only [routesTo, candidates_taken]; rfl
theorem allotRoutes_taken (s : State) (l : List W32) : allotRoutes s.taken l = allotRoutes s l := by
  simp only [allotRoutes, routesTo_taken]; rfl
theorem memberCheck_taken (s : State) (l : List W32) : memberCheck s.taken l = memberCheck s l := by
  simp only [memberCheck, allotRoutes_taken]; rfl

/-- An instruction that the stream issues next reaches its row. -/
theorem issue_issues {s : State} {r : ReedIx} {w : BitVec 256} {opc : Nat} (body : State → Reed → BitVec 256 → State)
    (hi : issues s r w = true) (ho : insOpc w = opc) (hk : opcodes.contains opc = true) :
    issue s r opc body = body s (s.reed r) w := by
  simp only [issues, Bool.and_eq_true, Bool.not_eq_true', decide_eq_true_eq] at hi
  obtain ⟨⟨⟨⟨⟨⟨h1, h2⟩, h3⟩, h4⟩, h5⟩, h6⟩, h7⟩ := hi
  unfold issue
  simp [h1, h2, h3, h4, h6, h7, ho, Nat.not_le.2 h5]
  intro hn
  rw [List.contains_iff_mem] at hk
  exact absurd hk hn

end Sys2Proof.Machine
end

