-- ==== Sys2Proof/Laws/State.lean ====
section
/-!
SUPPORT. Updates of the state field by field: for each update, one lemma per field it leaves alone, and what reading back
what it writes gives. No later proof unfolds a record update.
-/

namespace Sys2Proof.Machine

set_option Elab.async false

/-! ### `State.setSheaf` -/

@[simp] theorem State.setSheaf_pending (s : State) (g : Nat) (x : Sheaf) : (s.setSheaf g x).pending = s.pending := rfl
@[simp] theorem State.setSheaf_free (s : State) (g : Nat) (x : Sheaf) : (s.setSheaf g x).free = s.free := rfl
@[simp] theorem State.setSheaf_ticks (s : State) (g : Nat) (x : Sheaf) : (s.setSheaf g x).ticks = s.ticks := rfl
@[simp] theorem State.setSheaf_epoch (s : State) (g : Nat) (x : Sheaf) : (s.setSheaf g x).epoch = s.epoch := rfl
@[simp] theorem State.setSheaf_tcweight (s : State) (g : Nat) (x : Sheaf) : (s.setSheaf g x).tcweight = s.tcweight := rfl
@[simp] theorem State.setSheaf_port0 (s : State) (g : Nat) (x : Sheaf) : (s.setSheaf g x).port0 = s.port0 := rfl
@[simp] theorem State.setSheaf_port1 (s : State) (g : Nat) (x : Sheaf) : (s.setSheaf g x).port1 = s.port1 := rfl
@[simp] theorem State.setSheaf_sideband (s : State) (g : Nat) (x : Sheaf) : (s.setSheaf g x).sideband = s.sideband := rfl
@[simp] theorem State.setSheaf_sidebandBusy (s : State) (g : Nat) (x : Sheaf) : (s.setSheaf g x).sidebandBusy = s.sidebandBusy := rfl
@[simp] theorem State.setSheaf_lodge (s : State) (g : Nat) (x : Sheaf) : (s.setSheaf g x).lodge = s.lodge := rfl
@[simp] theorem State.setSheaf_allots (s : State) (g : Nat) (x : Sheaf) : (s.setSheaf g x).allots = s.allots := rfl
@[simp] theorem State.setSheaf_modColls (s : State) (g : Nat) (x : Sheaf) : (s.setSheaf g x).modColls = s.modColls := rfl
@[simp] theorem State.setSheaf_mem (s : State) (g : Nat) (x : Sheaf) : (s.setSheaf g x).mem = s.mem := rfl
@[simp] theorem State.setSheaf_fabric (s : State) (g : Nat) (x : Sheaf) : (s.setSheaf g x).fabric = s.fabric := rfl
@[simp] theorem State.setSheaf_eaves (s : State) (g : Nat) (x : Sheaf) : (s.setSheaf g x).eaves = s.eaves := rfl
@[simp] theorem State.setSheaf_pow (s : State) (g : Nat) (x : Sheaf) : (s.setSheaf g x).pow = s.pow := rfl
@[simp] theorem State.setSheaf_boot (s : State) (g : Nat) (x : Sheaf) : (s.setSheaf g x).boot = s.boot := rfl

/-! ### `State.modSheaf` -/

@[simp] theorem State.modSheaf_pending (s : State) (g : Nat) (f : Sheaf → Sheaf) : (s.modSheaf g f).pending = s.pending := rfl
@[simp] theorem State.modSheaf_free (s : State) (g : Nat) (f : Sheaf → Sheaf) : (s.modSheaf g f).free = s.free := rfl
@[simp] theorem State.modSheaf_ticks (s : State) (g : Nat) (f : Sheaf → Sheaf) : (s.modSheaf g f).ticks = s.ticks := rfl
@[simp] theorem State.modSheaf_epoch (s : State) (g : Nat) (f : Sheaf → Sheaf) : (s.modSheaf g f).epoch = s.epoch := rfl
@[simp] theorem State.modSheaf_tcweight (s : State) (g : Nat) (f : Sheaf → Sheaf) : (s.modSheaf g f).tcweight = s.tcweight := rfl
@[simp] theorem State.modSheaf_port0 (s : State) (g : Nat) (f : Sheaf → Sheaf) : (s.modSheaf g f).port0 = s.port0 := rfl
@[simp] theorem State.modSheaf_port1 (s : State) (g : Nat) (f : Sheaf → Sheaf) : (s.modSheaf g f).port1 = s.port1 := rfl
@[simp] theorem State.modSheaf_sideband (s : State) (g : Nat) (f : Sheaf → Sheaf) : (s.modSheaf g f).sideband = s.sideband := rfl
@[simp] theorem State.modSheaf_sidebandBusy (s : State) (g : Nat) (f : Sheaf → Sheaf) : (s.modSheaf g f).sidebandBusy = s.sidebandBusy := rfl
@[simp] theorem State.modSheaf_lodge (s : State) (g : Nat) (f : Sheaf → Sheaf) : (s.modSheaf g f).lodge = s.lodge := rfl
@[simp] theorem State.modSheaf_allots (s : State) (g : Nat) (f : Sheaf → Sheaf) : (s.modSheaf g f).allots = s.allots := rfl
@[simp] theorem State.modSheaf_modColls (s : State) (g : Nat) (f : Sheaf → Sheaf) : (s.modSheaf g f).modColls = s.modColls := rfl
@[simp] theorem State.modSheaf_mem (s : State) (g : Nat) (f : Sheaf → Sheaf) : (s.modSheaf g f).mem = s.mem := rfl
@[simp] theorem State.modSheaf_fabric (s : State) (g : Nat) (f : Sheaf → Sheaf) : (s.modSheaf g f).fabric = s.fabric := rfl
@[simp] theorem State.modSheaf_eaves (s : State) (g : Nat) (f : Sheaf → Sheaf) : (s.modSheaf g f).eaves = s.eaves := rfl
@[simp] theorem State.modSheaf_pow (s : State) (g : Nat) (f : Sheaf → Sheaf) : (s.modSheaf g f).pow = s.pow := rfl
@[simp] theorem State.modSheaf_boot (s : State) (g : Nat) (f : Sheaf → Sheaf) : (s.modSheaf g f).boot = s.boot := rfl

/-! ### `State.setReed` -/

@[simp] theorem State.setReed_pending (s : State) (r : Nat) (x : Reed) : (s.setReed r x).pending = s.pending := rfl
@[simp] theorem State.setReed_free (s : State) (r : Nat) (x : Reed) : (s.setReed r x).free = s.free := rfl
@[simp] theorem State.setReed_ticks (s : State) (r : Nat) (x : Reed) : (s.setReed r x).ticks = s.ticks := rfl
@[simp] theorem State.setReed_epoch (s : State) (r : Nat) (x : Reed) : (s.setReed r x).epoch = s.epoch := rfl
@[simp] theorem State.setReed_tcweight (s : State) (r : Nat) (x : Reed) : (s.setReed r x).tcweight = s.tcweight := rfl
@[simp] theorem State.setReed_port0 (s : State) (r : Nat) (x : Reed) : (s.setReed r x).port0 = s.port0 := rfl
@[simp] theorem State.setReed_port1 (s : State) (r : Nat) (x : Reed) : (s.setReed r x).port1 = s.port1 := rfl
@[simp] theorem State.setReed_sideband (s : State) (r : Nat) (x : Reed) : (s.setReed r x).sideband = s.sideband := rfl
@[simp] theorem State.setReed_sidebandBusy (s : State) (r : Nat) (x : Reed) : (s.setReed r x).sidebandBusy = s.sidebandBusy := rfl
@[simp] theorem State.setReed_lodge (s : State) (r : Nat) (x : Reed) : (s.setReed r x).lodge = s.lodge := rfl
@[simp] theorem State.setReed_allots (s : State) (r : Nat) (x : Reed) : (s.setReed r x).allots = s.allots := rfl
@[simp] theorem State.setReed_modColls (s : State) (r : Nat) (x : Reed) : (s.setReed r x).modColls = s.modColls := rfl
@[simp] theorem State.setReed_mem (s : State) (r : Nat) (x : Reed) : (s.setReed r x).mem = s.mem := rfl
@[simp] theorem State.setReed_fabric (s : State) (r : Nat) (x : Reed) : (s.setReed r x).fabric = s.fabric := rfl
@[simp] theorem State.setReed_eaves (s : State) (r : Nat) (x : Reed) : (s.setReed r x).eaves = s.eaves := rfl
@[simp] theorem State.setReed_pow (s : State) (r : Nat) (x : Reed) : (s.setReed r x).pow = s.pow := rfl
@[simp] theorem State.setReed_boot (s : State) (r : Nat) (x : Reed) : (s.setReed r x).boot = s.boot := rfl

/-! ### `State.modReed` -/

@[simp] theorem State.modReed_pending (s : State) (r : Nat) (f : Reed → Reed) : (s.modReed r f).pending = s.pending := rfl
@[simp] theorem State.modReed_free (s : State) (r : Nat) (f : Reed → Reed) : (s.modReed r f).free = s.free := rfl
@[simp] theorem State.modReed_ticks (s : State) (r : Nat) (f : Reed → Reed) : (s.modReed r f).ticks = s.ticks := rfl
@[simp] theorem State.modReed_epoch (s : State) (r : Nat) (f : Reed → Reed) : (s.modReed r f).epoch = s.epoch := rfl
@[simp] theorem State.modReed_tcweight (s : State) (r : Nat) (f : Reed → Reed) : (s.modReed r f).tcweight = s.tcweight := rfl
@[simp] theorem State.modReed_port0 (s : State) (r : Nat) (f : Reed → Reed) : (s.modReed r f).port0 = s.port0 := rfl
@[simp] theorem State.modReed_port1 (s : State) (r : Nat) (f : Reed → Reed) : (s.modReed r f).port1 = s.port1 := rfl
@[simp] theorem State.modReed_sideband (s : State) (r : Nat) (f : Reed → Reed) : (s.modReed r f).sideband = s.sideband := rfl
@[simp] theorem State.modReed_sidebandBusy (s : State) (r : Nat) (f : Reed → Reed) : (s.modReed r f).sidebandBusy = s.sidebandBusy := rfl
@[simp] theorem State.modReed_lodge (s : State) (r : Nat) (f : Reed → Reed) : (s.modReed r f).lodge = s.lodge := rfl
@[simp] theorem State.modReed_allots (s : State) (r : Nat) (f : Reed → Reed) : (s.modReed r f).allots = s.allots := rfl
@[simp] theorem State.modReed_modColls (s : State) (r : Nat) (f : Reed → Reed) : (s.modReed r f).modColls = s.modColls := rfl
@[simp] theorem State.modReed_mem (s : State) (r : Nat) (f : Reed → Reed) : (s.modReed r f).mem = s.mem := rfl
@[simp] theorem State.modReed_fabric (s : State) (r : Nat) (f : Reed → Reed) : (s.modReed r f).fabric = s.fabric := rfl
@[simp] theorem State.modReed_eaves (s : State) (r : Nat) (f : Reed → Reed) : (s.modReed r f).eaves = s.eaves := rfl
@[simp] theorem State.modReed_pow (s : State) (r : Nat) (f : Reed → Reed) : (s.modReed r f).pow = s.pow := rfl
@[simp] theorem State.modReed_boot (s : State) (r : Nat) (f : Reed → Reed) : (s.modReed r f).boot = s.boot := rfl

/-! ### `State.modHandle` -/

@[simp] theorem State.modHandle_pending (s : State) (g : Nat) (a h : W16) (f : Coll → Coll) : (s.modHandle g a h f).pending = s.pending := rfl
@[simp] theorem State.modHandle_free (s : State) (g : Nat) (a h : W16) (f : Coll → Coll) : (s.modHandle g a h f).free = s.free := rfl
@[simp] theorem State.modHandle_ticks (s : State) (g : Nat) (a h : W16) (f : Coll → Coll) : (s.modHandle g a h f).ticks = s.ticks := rfl
@[simp] theorem State.modHandle_epoch (s : State) (g : Nat) (a h : W16) (f : Coll → Coll) : (s.modHandle g a h f).epoch = s.epoch := rfl
@[simp] theorem State.modHandle_tcweight (s : State) (g : Nat) (a h : W16) (f : Coll → Coll) : (s.modHandle g a h f).tcweight = s.tcweight := rfl
@[simp] theorem State.modHandle_port0 (s : State) (g : Nat) (a h : W16) (f : Coll → Coll) : (s.modHandle g a h f).port0 = s.port0 := rfl
@[simp] theorem State.modHandle_port1 (s : State) (g : Nat) (a h : W16) (f : Coll → Coll) : (s.modHandle g a h f).port1 = s.port1 := rfl
@[simp] theorem State.modHandle_sideband (s : State) (g : Nat) (a h : W16) (f : Coll → Coll) : (s.modHandle g a h f).sideband = s.sideband := rfl
@[simp] theorem State.modHandle_sidebandBusy (s : State) (g : Nat) (a h : W16) (f : Coll → Coll) : (s.modHandle g a h f).sidebandBusy = s.sidebandBusy := rfl
@[simp] theorem State.modHandle_lodge (s : State) (g : Nat) (a h : W16) (f : Coll → Coll) : (s.modHandle g a h f).lodge = s.lodge := rfl
@[simp] theorem State.modHandle_allots (s : State) (g : Nat) (a h : W16) (f : Coll → Coll) : (s.modHandle g a h f).allots = s.allots := rfl
@[simp] theorem State.modHandle_modColls (s : State) (g : Nat) (a h : W16) (f : Coll → Coll) : (s.modHandle g a h f).modColls = s.modColls := rfl
@[simp] theorem State.modHandle_mem (s : State) (g : Nat) (a h : W16) (f : Coll → Coll) : (s.modHandle g a h f).mem = s.mem := rfl
@[simp] theorem State.modHandle_fabric (s : State) (g : Nat) (a h : W16) (f : Coll → Coll) : (s.modHandle g a h f).fabric = s.fabric := rfl
@[simp] theorem State.modHandle_eaves (s : State) (g : Nat) (a h : W16) (f : Coll → Coll) : (s.modHandle g a h f).eaves = s.eaves := rfl
@[simp] theorem State.modHandle_pow (s : State) (g : Nat) (a h : W16) (f : Coll → Coll) : (s.modHandle g a h f).pow = s.pow := rfl
@[simp] theorem State.modHandle_boot (s : State) (g : Nat) (a h : W16) (f : Coll → Coll) : (s.modHandle g a h f).boot = s.boot := rfl

/-! ### `State.modBucket` -/

@[simp] theorem State.modBucket_pending (s : State) (g : Nat) (a h : W16) (b : Nat) (f : Bucket → Bucket) : (s.modBucket g a h b f).pending = s.pending := rfl
@[simp] theorem State.modBucket_free (s : State) (g : Nat) (a h : W16) (b : Nat) (f : Bucket → Bucket) : (s.modBucket g a h b f).free = s.free := rfl
@[simp] theorem State.modBucket_ticks (s : State) (g : Nat) (a h : W16) (b : Nat) (f : Bucket → Bucket) : (s.modBucket g a h b f).ticks = s.ticks := rfl
@[simp] theorem State.modBucket_epoch (s : State) (g : Nat) (a h : W16) (b : Nat) (f : Bucket → Bucket) : (s.modBucket g a h b f).epoch = s.epoch := rfl
@[simp] theorem State.modBucket_tcweight (s : State) (g : Nat) (a h : W16) (b : Nat) (f : Bucket → Bucket) : (s.modBucket g a h b f).tcweight = s.tcweight := rfl
@[simp] theorem State.modBucket_port0 (s : State) (g : Nat) (a h : W16) (b : Nat) (f : Bucket → Bucket) : (s.modBucket g a h b f).port0 = s.port0 := rfl
@[simp] theorem State.modBucket_port1 (s : State) (g : Nat) (a h : W16) (b : Nat) (f : Bucket → Bucket) : (s.modBucket g a h b f).port1 = s.port1 := rfl
@[simp] theorem State.modBucket_sideband (s : State) (g : Nat) (a h : W16) (b : Nat) (f : Bucket → Bucket) : (s.modBucket g a h b f).sideband = s.sideband := rfl
@[simp] theorem State.modBucket_sidebandBusy (s : State) (g : Nat) (a h : W16) (b : Nat) (f : Bucket → Bucket) : (s.modBucket g a h b f).sidebandBusy = s.sidebandBusy := rfl
@[simp] theorem State.modBucket_lodge (s : State) (g : Nat) (a h : W16) (b : Nat) (f : Bucket → Bucket) : (s.modBucket g a h b f).lodge = s.lodge := rfl
@[simp] theorem State.modBucket_allots (s : State) (g : Nat) (a h : W16) (b : Nat) (f : Bucket → Bucket) : (s.modBucket g a h b f).allots = s.allots := rfl
@[simp] theorem State.modBucket_modColls (s : State) (g : Nat) (a h : W16) (b : Nat) (f : Bucket → Bucket) : (s.modBucket g a h b f).modColls = s.modColls := rfl
@[simp] theorem State.modBucket_mem (s : State) (g : Nat) (a h : W16) (b : Nat) (f : Bucket → Bucket) : (s.modBucket g a h b f).mem = s.mem := rfl
@[simp] theorem State.modBucket_fabric (s : State) (g : Nat) (a h : W16) (b : Nat) (f : Bucket → Bucket) : (s.modBucket g a h b f).fabric = s.fabric := rfl
@[simp] theorem State.modBucket_eaves (s : State) (g : Nat) (a h : W16) (b : Nat) (f : Bucket → Bucket) : (s.modBucket g a h b f).eaves = s.eaves := rfl
@[simp] theorem State.modBucket_pow (s : State) (g : Nat) (a h : W16) (b : Nat) (f : Bucket → Bucket) : (s.modBucket g a h b f).pow = s.pow := rfl
@[simp] theorem State.modBucket_boot (s : State) (g : Nat) (a h : W16) (b : Nat) (f : Bucket → Bucket) : (s.modBucket g a h b f).boot = s.boot := rfl

/-! ### `State.modModColl` -/

@[simp] theorem State.modModColl_pending (s : State) (a h : W16) (f : ModColl → ModColl) : (s.modModColl a h f).pending = s.pending := rfl
@[simp] theorem State.modModColl_free (s : State) (a h : W16) (f : ModColl → ModColl) : (s.modModColl a h f).free = s.free := rfl
@[simp] theorem State.modModColl_ticks (s : State) (a h : W16) (f : ModColl → ModColl) : (s.modModColl a h f).ticks = s.ticks := rfl
@[simp] theorem State.modModColl_epoch (s : State) (a h : W16) (f : ModColl → ModColl) : (s.modModColl a h f).epoch = s.epoch := rfl
@[simp] theorem State.modModColl_tcweight (s : State) (a h : W16) (f : ModColl → ModColl) : (s.modModColl a h f).tcweight = s.tcweight := rfl
@[simp] theorem State.modModColl_port0 (s : State) (a h : W16) (f : ModColl → ModColl) : (s.modModColl a h f).port0 = s.port0 := rfl
@[simp] theorem State.modModColl_port1 (s : State) (a h : W16) (f : ModColl → ModColl) : (s.modModColl a h f).port1 = s.port1 := rfl
@[simp] theorem State.modModColl_sideband (s : State) (a h : W16) (f : ModColl → ModColl) : (s.modModColl a h f).sideband = s.sideband := rfl
@[simp] theorem State.modModColl_sidebandBusy (s : State) (a h : W16) (f : ModColl → ModColl) : (s.modModColl a h f).sidebandBusy = s.sidebandBusy := rfl
@[simp] theorem State.modModColl_lodge (s : State) (a h : W16) (f : ModColl → ModColl) : (s.modModColl a h f).lodge = s.lodge := rfl
@[simp] theorem State.modModColl_sheaves (s : State) (a h : W16) (f : ModColl → ModColl) : (s.modModColl a h f).sheaves = s.sheaves := rfl
@[simp] theorem State.modModColl_allots (s : State) (a h : W16) (f : ModColl → ModColl) : (s.modModColl a h f).allots = s.allots := rfl
@[simp] theorem State.modModColl_mem (s : State) (a h : W16) (f : ModColl → ModColl) : (s.modModColl a h f).mem = s.mem := rfl
@[simp] theorem State.modModColl_fabric (s : State) (a h : W16) (f : ModColl → ModColl) : (s.modModColl a h f).fabric = s.fabric := rfl
@[simp] theorem State.modModColl_eaves (s : State) (a h : W16) (f : ModColl → ModColl) : (s.modModColl a h f).eaves = s.eaves := rfl
@[simp] theorem State.modModColl_pow (s : State) (a h : W16) (f : ModColl → ModColl) : (s.modModColl a h f).pow = s.pow := rfl
@[simp] theorem State.modModColl_boot (s : State) (a h : W16) (f : ModColl → ModColl) : (s.modModColl a h f).boot = s.boot := rfl

/-! ### `State.modChan` -/

@[simp] theorem State.modChan_pending (s : State) (ch : Nat) (f : MemChan → MemChan) : (s.modChan ch f).pending = s.pending := rfl
@[simp] theorem State.modChan_free (s : State) (ch : Nat) (f : MemChan → MemChan) : (s.modChan ch f).free = s.free := rfl
@[simp] theorem State.modChan_ticks (s : State) (ch : Nat) (f : MemChan → MemChan) : (s.modChan ch f).ticks = s.ticks := rfl
@[simp] theorem State.modChan_epoch (s : State) (ch : Nat) (f : MemChan → MemChan) : (s.modChan ch f).epoch = s.epoch := rfl
@[simp] theorem State.modChan_tcweight (s : State) (ch : Nat) (f : MemChan → MemChan) : (s.modChan ch f).tcweight = s.tcweight := rfl
@[simp] theorem State.modChan_port0 (s : State) (ch : Nat) (f : MemChan → MemChan) : (s.modChan ch f).port0 = s.port0 := rfl
@[simp] theorem State.modChan_port1 (s : State) (ch : Nat) (f : MemChan → MemChan) : (s.modChan ch f).port1 = s.port1 := rfl
@[simp] theorem State.modChan_sideband (s : State) (ch : Nat) (f : MemChan → MemChan) : (s.modChan ch f).sideband = s.sideband := rfl
@[simp] theorem State.modChan_sidebandBusy (s : State) (ch : Nat) (f : MemChan → MemChan) : (s.modChan ch f).sidebandBusy = s.sidebandBusy := rfl
@[simp] theorem State.modChan_lodge (s : State) (ch : Nat) (f : MemChan → MemChan) : (s.modChan ch f).lodge = s.lodge := rfl
@[simp] theorem State.modChan_sheaves (s : State) (ch : Nat) (f : MemChan → MemChan) : (s.modChan ch f).sheaves = s.sheaves := rfl
@[simp] theorem State.modChan_allots (s : State) (ch : Nat) (f : MemChan → MemChan) : (s.modChan ch f).allots = s.allots := rfl
@[simp] theorem State.modChan_modColls (s : State) (ch : Nat) (f : MemChan → MemChan) : (s.modChan ch f).modColls = s.modColls := rfl
@[simp] theorem State.modChan_fabric (s : State) (ch : Nat) (f : MemChan → MemChan) : (s.modChan ch f).fabric = s.fabric := rfl
@[simp] theorem State.modChan_eaves (s : State) (ch : Nat) (f : MemChan → MemChan) : (s.modChan ch f).eaves = s.eaves := rfl
@[simp] theorem State.modChan_pow (s : State) (ch : Nat) (f : MemChan → MemChan) : (s.modChan ch f).pow = s.pow := rfl
@[simp] theorem State.modChan_boot (s : State) (ch : Nat) (f : MemChan → MemChan) : (s.modChan ch f).boot = s.boot := rfl

/-! ### `State.storeBytes` -/

@[simp] theorem State.storeBytes_pending (s : State) (ws : List (Nat × Byte)) : (s.storeBytes ws).pending = s.pending := rfl
@[simp] theorem State.storeBytes_free (s : State) (ws : List (Nat × Byte)) : (s.storeBytes ws).free = s.free := rfl
@[simp] theorem State.storeBytes_ticks (s : State) (ws : List (Nat × Byte)) : (s.storeBytes ws).ticks = s.ticks := rfl
@[simp] theorem State.storeBytes_epoch (s : State) (ws : List (Nat × Byte)) : (s.storeBytes ws).epoch = s.epoch := rfl
@[simp] theorem State.storeBytes_tcweight (s : State) (ws : List (Nat × Byte)) : (s.storeBytes ws).tcweight = s.tcweight := rfl
@[simp] theorem State.storeBytes_port0 (s : State) (ws : List (Nat × Byte)) : (s.storeBytes ws).port0 = s.port0 := rfl
@[simp] theorem State.storeBytes_port1 (s : State) (ws : List (Nat × Byte)) : (s.storeBytes ws).port1 = s.port1 := rfl
@[simp] theorem State.storeBytes_sideband (s : State) (ws : List (Nat × Byte)) : (s.storeBytes ws).sideband = s.sideband := rfl
@[simp] theorem State.storeBytes_sidebandBusy (s : State) (ws : List (Nat × Byte)) : (s.storeBytes ws).sidebandBusy = s.sidebandBusy := rfl
@[simp] theorem State.storeBytes_lodge (s : State) (ws : List (Nat × Byte)) : (s.storeBytes ws).lodge = s.lodge := rfl
@[simp] theorem State.storeBytes_sheaves (s : State) (ws : List (Nat × Byte)) : (s.storeBytes ws).sheaves = s.sheaves := rfl
@[simp] theorem State.storeBytes_allots (s : State) (ws : List (Nat × Byte)) : (s.storeBytes ws).allots = s.allots := rfl
@[simp] theorem State.storeBytes_modColls (s : State) (ws : List (Nat × Byte)) : (s.storeBytes ws).modColls = s.modColls := rfl
@[simp] theorem State.storeBytes_fabric (s : State) (ws : List (Nat × Byte)) : (s.storeBytes ws).fabric = s.fabric := rfl
@[simp] theorem State.storeBytes_eaves (s : State) (ws : List (Nat × Byte)) : (s.storeBytes ws).eaves = s.eaves := rfl
@[simp] theorem State.storeBytes_pow (s : State) (ws : List (Nat × Byte)) : (s.storeBytes ws).pow = s.pow := rfl
@[simp] theorem State.storeBytes_boot (s : State) (ws : List (Nat × Byte)) : (s.storeBytes ws).boot = s.boot := rfl

/-! ### `State.poisonSector` -/

@[simp] theorem State.poisonSector_pending (s : State) (n : Nat) : (s.poisonSector n).pending = s.pending := rfl
@[simp] theorem State.poisonSector_free (s : State) (n : Nat) : (s.poisonSector n).free = s.free := rfl
@[simp] theorem State.poisonSector_ticks (s : State) (n : Nat) : (s.poisonSector n).ticks = s.ticks := rfl
@[simp] theorem State.poisonSector_epoch (s : State) (n : Nat) : (s.poisonSector n).epoch = s.epoch := rfl
@[simp] theorem State.poisonSector_tcweight (s : State) (n : Nat) : (s.poisonSector n).tcweight = s.tcweight := rfl
@[simp] theorem State.poisonSector_port0 (s : State) (n : Nat) : (s.poisonSector n).port0 = s.port0 := rfl
@[simp] theorem State.poisonSector_port1 (s : State) (n : Nat) : (s.poisonSector n).port1 = s.port1 := rfl
@[simp] theorem State.poisonSector_sideband (s : State) (n : Nat) : (s.poisonSector n).sideband = s.sideband := rfl
@[simp] theorem State.poisonSector_sidebandBusy (s : State) (n : Nat) : (s.poisonSector n).sidebandBusy = s.sidebandBusy := rfl
@[simp] theorem State.poisonSector_lodge (s : State) (n : Nat) : (s.poisonSector n).lodge = s.lodge := rfl
@[simp] theorem State.poisonSector_sheaves (s : State) (n : Nat) : (s.poisonSector n).sheaves = s.sheaves := rfl
@[simp] theorem State.poisonSector_allots (s : State) (n : Nat) : (s.poisonSector n).allots = s.allots := rfl
@[simp] theorem State.poisonSector_modColls (s : State) (n : Nat) : (s.poisonSector n).modColls = s.modColls := rfl
@[simp] theorem State.poisonSector_fabric (s : State) (n : Nat) : (s.poisonSector n).fabric = s.fabric := rfl
@[simp] theorem State.poisonSector_eaves (s : State) (n : Nat) : (s.poisonSector n).eaves = s.eaves := rfl
@[simp] theorem State.poisonSector_pow (s : State) (n : Nat) : (s.poisonSector n).pow = s.pow := rfl
@[simp] theorem State.poisonSector_boot (s : State) (n : Nat) : (s.poisonSector n).boot = s.boot := rfl

/-! ### `State.cleanSector` -/

@[simp] theorem State.cleanSector_pending (s : State) (n : Nat) : (s.cleanSector n).pending = s.pending := rfl
@[simp] theorem State.cleanSector_free (s : State) (n : Nat) : (s.cleanSector n).free = s.free := rfl
@[simp] theorem State.cleanSector_ticks (s : State) (n : Nat) : (s.cleanSector n).ticks = s.ticks := rfl
@[simp] theorem State.cleanSector_epoch (s : State) (n : Nat) : (s.cleanSector n).epoch = s.epoch := rfl
@[simp] theorem State.cleanSector_tcweight (s : State) (n : Nat) : (s.cleanSector n).tcweight = s.tcweight := rfl
@[simp] theorem State.cleanSector_port0 (s : State) (n : Nat) : (s.cleanSector n).port0 = s.port0 := rfl
@[simp] theorem State.cleanSector_port1 (s : State) (n : Nat) : (s.cleanSector n).port1 = s.port1 := rfl
@[simp] theorem State.cleanSector_sideband (s : State) (n : Nat) : (s.cleanSector n).sideband = s.sideband := rfl
@[simp] theorem State.cleanSector_sidebandBusy (s : State) (n : Nat) : (s.cleanSector n).sidebandBusy = s.sidebandBusy := rfl
@[simp] theorem State.cleanSector_lodge (s : State) (n : Nat) : (s.cleanSector n).lodge = s.lodge := rfl
@[simp] theorem State.cleanSector_sheaves (s : State) (n : Nat) : (s.cleanSector n).sheaves = s.sheaves := rfl
@[simp] theorem State.cleanSector_allots (s : State) (n : Nat) : (s.cleanSector n).allots = s.allots := rfl
@[simp] theorem State.cleanSector_modColls (s : State) (n : Nat) : (s.cleanSector n).modColls = s.modColls := rfl
@[simp] theorem State.cleanSector_fabric (s : State) (n : Nat) : (s.cleanSector n).fabric = s.fabric := rfl
@[simp] theorem State.cleanSector_eaves (s : State) (n : Nat) : (s.cleanSector n).eaves = s.eaves := rfl
@[simp] theorem State.cleanSector_pow (s : State) (n : Nat) : (s.cleanSector n).pow = s.pow := rfl
@[simp] theorem State.cleanSector_boot (s : State) (n : Nat) : (s.cleanSector n).boot = s.boot := rfl

/-! ### `State.modTx` -/

@[simp] theorem State.modTx_pending (s : State) (ch : Nat) (f : TxChan → TxChan) : (s.modTx ch f).pending = s.pending := rfl
@[simp] theorem State.modTx_free (s : State) (ch : Nat) (f : TxChan → TxChan) : (s.modTx ch f).free = s.free := rfl
@[simp] theorem State.modTx_ticks (s : State) (ch : Nat) (f : TxChan → TxChan) : (s.modTx ch f).ticks = s.ticks := rfl
@[simp] theorem State.modTx_epoch (s : State) (ch : Nat) (f : TxChan → TxChan) : (s.modTx ch f).epoch = s.epoch := rfl
@[simp] theorem State.modTx_tcweight (s : State) (ch : Nat) (f : TxChan → TxChan) : (s.modTx ch f).tcweight = s.tcweight := rfl
@[simp] theorem State.modTx_port0 (s : State) (ch : Nat) (f : TxChan → TxChan) : (s.modTx ch f).port0 = s.port0 := rfl
@[simp] theorem State.modTx_port1 (s : State) (ch : Nat) (f : TxChan → TxChan) : (s.modTx ch f).port1 = s.port1 := rfl
@[simp] theorem State.modTx_sideband (s : State) (ch : Nat) (f : TxChan → TxChan) : (s.modTx ch f).sideband = s.sideband := rfl
@[simp] theorem State.modTx_sidebandBusy (s : State) (ch : Nat) (f : TxChan → TxChan) : (s.modTx ch f).sidebandBusy = s.sidebandBusy := rfl
@[simp] theorem State.modTx_lodge (s : State) (ch : Nat) (f : TxChan → TxChan) : (s.modTx ch f).lodge = s.lodge := rfl
@[simp] theorem State.modTx_sheaves (s : State) (ch : Nat) (f : TxChan → TxChan) : (s.modTx ch f).sheaves = s.sheaves := rfl
@[simp] theorem State.modTx_allots (s : State) (ch : Nat) (f : TxChan → TxChan) : (s.modTx ch f).allots = s.allots := rfl
@[simp] theorem State.modTx_modColls (s : State) (ch : Nat) (f : TxChan → TxChan) : (s.modTx ch f).modColls = s.modColls := rfl
@[simp] theorem State.modTx_mem (s : State) (ch : Nat) (f : TxChan → TxChan) : (s.modTx ch f).mem = s.mem := rfl
@[simp] theorem State.modTx_eaves (s : State) (ch : Nat) (f : TxChan → TxChan) : (s.modTx ch f).eaves = s.eaves := rfl
@[simp] theorem State.modTx_pow (s : State) (ch : Nat) (f : TxChan → TxChan) : (s.modTx ch f).pow = s.pow := rfl
@[simp] theorem State.modTx_boot (s : State) (ch : Nat) (f : TxChan → TxChan) : (s.modTx ch f).boot = s.boot := rfl

/-! ### `State.modRx` -/

@[simp] theorem State.modRx_pending (s : State) (ch : Nat) (f : RxChan → RxChan) : (s.modRx ch f).pending = s.pending := rfl
@[simp] theorem State.modRx_free (s : State) (ch : Nat) (f : RxChan → RxChan) : (s.modRx ch f).free = s.free := rfl
@[simp] theorem State.modRx_ticks (s : State) (ch : Nat) (f : RxChan → RxChan) : (s.modRx ch f).ticks = s.ticks := rfl
@[simp] theorem State.modRx_epoch (s : State) (ch : Nat) (f : RxChan → RxChan) : (s.modRx ch f).epoch = s.epoch := rfl
@[simp] theorem State.modRx_tcweight (s : State) (ch : Nat) (f : RxChan → RxChan) : (s.modRx ch f).tcweight = s.tcweight := rfl
@[simp] theorem State.modRx_port0 (s : State) (ch : Nat) (f : RxChan → RxChan) : (s.modRx ch f).port0 = s.port0 := rfl
@[simp] theorem State.modRx_port1 (s : State) (ch : Nat) (f : RxChan → RxChan) : (s.modRx ch f).port1 = s.port1 := rfl
@[simp] theorem State.modRx_sideband (s : State) (ch : Nat) (f : RxChan → RxChan) : (s.modRx ch f).sideband = s.sideband := rfl
@[simp] theorem State.modRx_sidebandBusy (s : State) (ch : Nat) (f : RxChan → RxChan) : (s.modRx ch f).sidebandBusy = s.sidebandBusy := rfl
@[simp] theorem State.modRx_lodge (s : State) (ch : Nat) (f : RxChan → RxChan) : (s.modRx ch f).lodge = s.lodge := rfl
@[simp] theorem State.modRx_sheaves (s : State) (ch : Nat) (f : RxChan → RxChan) : (s.modRx ch f).sheaves = s.sheaves := rfl
@[simp] theorem State.modRx_allots (s : State) (ch : Nat) (f : RxChan → RxChan) : (s.modRx ch f).allots = s.allots := rfl
@[simp] theorem State.modRx_modColls (s : State) (ch : Nat) (f : RxChan → RxChan) : (s.modRx ch f).modColls = s.modColls := rfl
@[simp] theorem State.modRx_mem (s : State) (ch : Nat) (f : RxChan → RxChan) : (s.modRx ch f).mem = s.mem := rfl
@[simp] theorem State.modRx_eaves (s : State) (ch : Nat) (f : RxChan → RxChan) : (s.modRx ch f).eaves = s.eaves := rfl
@[simp] theorem State.modRx_pow (s : State) (ch : Nat) (f : RxChan → RxChan) : (s.modRx ch f).pow = s.pow := rfl
@[simp] theorem State.modRx_boot (s : State) (ch : Nat) (f : RxChan → RxChan) : (s.modRx ch f).boot = s.boot := rfl

/-! ### `State.modCopper` -/

@[simp] theorem State.modCopper_pending (s : State) (i : Nat) (f : Copper → Copper) : (s.modCopper i f).pending = s.pending := rfl
@[simp] theorem State.modCopper_free (s : State) (i : Nat) (f : Copper → Copper) : (s.modCopper i f).free = s.free := rfl
@[simp] theorem State.modCopper_ticks (s : State) (i : Nat) (f : Copper → Copper) : (s.modCopper i f).ticks = s.ticks := rfl
@[simp] theorem State.modCopper_epoch (s : State) (i : Nat) (f : Copper → Copper) : (s.modCopper i f).epoch = s.epoch := rfl
@[simp] theorem State.modCopper_tcweight (s : State) (i : Nat) (f : Copper → Copper) : (s.modCopper i f).tcweight = s.tcweight := rfl
@[simp] theorem State.modCopper_port0 (s : State) (i : Nat) (f : Copper → Copper) : (s.modCopper i f).port0 = s.port0 := rfl
@[simp] theorem State.modCopper_port1 (s : State) (i : Nat) (f : Copper → Copper) : (s.modCopper i f).port1 = s.port1 := rfl
@[simp] theorem State.modCopper_sideband (s : State) (i : Nat) (f : Copper → Copper) : (s.modCopper i f).sideband = s.sideband := rfl
@[simp] theorem State.modCopper_sidebandBusy (s : State) (i : Nat) (f : Copper → Copper) : (s.modCopper i f).sidebandBusy = s.sidebandBusy := rfl
@[simp] theorem State.modCopper_lodge (s : State) (i : Nat) (f : Copper → Copper) : (s.modCopper i f).lodge = s.lodge := rfl
@[simp] theorem State.modCopper_sheaves (s : State) (i : Nat) (f : Copper → Copper) : (s.modCopper i f).sheaves = s.sheaves := rfl
@[simp] theorem State.modCopper_allots (s : State) (i : Nat) (f : Copper → Copper) : (s.modCopper i f).allots = s.allots := rfl
@[simp] theorem State.modCopper_modColls (s : State) (i : Nat) (f : Copper → Copper) : (s.modCopper i f).modColls = s.modColls := rfl
@[simp] theorem State.modCopper_mem (s : State) (i : Nat) (f : Copper → Copper) : (s.modCopper i f).mem = s.mem := rfl
@[simp] theorem State.modCopper_eaves (s : State) (i : Nat) (f : Copper → Copper) : (s.modCopper i f).eaves = s.eaves := rfl
@[simp] theorem State.modCopper_pow (s : State) (i : Nat) (f : Copper → Copper) : (s.modCopper i f).pow = s.pow := rfl
@[simp] theorem State.modCopper_boot (s : State) (i : Nat) (f : Copper → Copper) : (s.modCopper i f).boot = s.boot := rfl

/-! ### `State.record` -/

@[simp] theorem State.record_pending (s : State) (m : OutMsg) : (s.record m).pending = s.pending := rfl
@[simp] theorem State.record_free (s : State) (m : OutMsg) : (s.record m).free = s.free := rfl
@[simp] theorem State.record_ticks (s : State) (m : OutMsg) : (s.record m).ticks = s.ticks := rfl
@[simp] theorem State.record_epoch (s : State) (m : OutMsg) : (s.record m).epoch = s.epoch := rfl
@[simp] theorem State.record_tcweight (s : State) (m : OutMsg) : (s.record m).tcweight = s.tcweight := rfl
@[simp] theorem State.record_port0 (s : State) (m : OutMsg) : (s.record m).port0 = s.port0 := rfl
@[simp] theorem State.record_port1 (s : State) (m : OutMsg) : (s.record m).port1 = s.port1 := rfl
@[simp] theorem State.record_sideband (s : State) (m : OutMsg) : (s.record m).sideband = s.sideband := rfl
@[simp] theorem State.record_sidebandBusy (s : State) (m : OutMsg) : (s.record m).sidebandBusy = s.sidebandBusy := rfl
@[simp] theorem State.record_lodge (s : State) (m : OutMsg) : (s.record m).lodge = s.lodge := rfl
@[simp] theorem State.record_sheaves (s : State) (m : OutMsg) : (s.record m).sheaves = s.sheaves := rfl
@[simp] theorem State.record_allots (s : State) (m : OutMsg) : (s.record m).allots = s.allots := rfl
@[simp] theorem State.record_modColls (s : State) (m : OutMsg) : (s.record m).modColls = s.modColls := rfl
@[simp] theorem State.record_mem (s : State) (m : OutMsg) : (s.record m).mem = s.mem := rfl
@[simp] theorem State.record_eaves (s : State) (m : OutMsg) : (s.record m).eaves = s.eaves := rfl
@[simp] theorem State.record_pow (s : State) (m : OutMsg) : (s.record m).pow = s.pow := rfl
@[simp] theorem State.record_boot (s : State) (m : OutMsg) : (s.record m).boot = s.boot := rfl

/-! ### `State.modEave` -/

@[simp] theorem State.modEave_pending (s : State) (e : Nat) (f : Eave → Eave) : (s.modEave e f).pending = s.pending := rfl
@[simp] theorem State.modEave_free (s : State) (e : Nat) (f : Eave → Eave) : (s.modEave e f).free = s.free := rfl
@[simp] theorem State.modEave_ticks (s : State) (e : Nat) (f : Eave → Eave) : (s.modEave e f).ticks = s.ticks := rfl
@[simp] theorem State.modEave_epoch (s : State) (e : Nat) (f : Eave → Eave) : (s.modEave e f).epoch = s.epoch := rfl
@[simp] theorem State.modEave_tcweight (s : State) (e : Nat) (f : Eave → Eave) : (s.modEave e f).tcweight = s.tcweight := rfl
@[simp] theorem State.modEave_port0 (s : State) (e : Nat) (f : Eave → Eave) : (s.modEave e f).port0 = s.port0 := rfl
@[simp] theorem State.modEave_port1 (s : State) (e : Nat) (f : Eave → Eave) : (s.modEave e f).port1 = s.port1 := rfl
@[simp] theorem State.modEave_sideband (s : State) (e : Nat) (f : Eave → Eave) : (s.modEave e f).sideband = s.sideband := rfl
@[simp] theorem State.modEave_sidebandBusy (s : State) (e : Nat) (f : Eave → Eave) : (s.modEave e f).sidebandBusy = s.sidebandBusy := rfl
@[simp] theorem State.modEave_lodge (s : State) (e : Nat) (f : Eave → Eave) : (s.modEave e f).lodge = s.lodge := rfl
@[simp] theorem State.modEave_sheaves (s : State) (e : Nat) (f : Eave → Eave) : (s.modEave e f).sheaves = s.sheaves := rfl
@[simp] theorem State.modEave_allots (s : State) (e : Nat) (f : Eave → Eave) : (s.modEave e f).allots = s.allots := rfl
@[simp] theorem State.modEave_modColls (s : State) (e : Nat) (f : Eave → Eave) : (s.modEave e f).modColls = s.modColls := rfl
@[simp] theorem State.modEave_mem (s : State) (e : Nat) (f : Eave → Eave) : (s.modEave e f).mem = s.mem := rfl
@[simp] theorem State.modEave_fabric (s : State) (e : Nat) (f : Eave → Eave) : (s.modEave e f).fabric = s.fabric := rfl
@[simp] theorem State.modEave_pow (s : State) (e : Nat) (f : Eave → Eave) : (s.modEave e f).pow = s.pow := rfl
@[simp] theorem State.modEave_boot (s : State) (e : Nat) (f : Eave → Eave) : (s.modEave e f).boot = s.boot := rfl

/-! ### `State.setCourse` -/

@[simp] theorem State.setCourse_pending (s : State) (c : Nat) (d : Dom) : (s.setCourse c d).pending = s.pending := rfl
@[simp] theorem State.setCourse_free (s : State) (c : Nat) (d : Dom) : (s.setCourse c d).free = s.free := rfl
@[simp] theorem State.setCourse_ticks (s : State) (c : Nat) (d : Dom) : (s.setCourse c d).ticks = s.ticks := rfl
@[simp] theorem State.setCourse_epoch (s : State) (c : Nat) (d : Dom) : (s.setCourse c d).epoch = s.epoch := rfl
@[simp] theorem State.setCourse_tcweight (s : State) (c : Nat) (d : Dom) : (s.setCourse c d).tcweight = s.tcweight := rfl
@[simp] theorem State.setCourse_port0 (s : State) (c : Nat) (d : Dom) : (s.setCourse c d).port0 = s.port0 := rfl
@[simp] theorem State.setCourse_port1 (s : State) (c : Nat) (d : Dom) : (s.setCourse c d).port1 = s.port1 := rfl
@[simp] theorem State.setCourse_sideband (s : State) (c : Nat) (d : Dom) : (s.setCourse c d).sideband = s.sideband := rfl
@[simp] theorem State.setCourse_sidebandBusy (s : State) (c : Nat) (d : Dom) : (s.setCourse c d).sidebandBusy = s.sidebandBusy := rfl
@[simp] theorem State.setCourse_lodge (s : State) (c : Nat) (d : Dom) : (s.setCourse c d).lodge = s.lodge := rfl
@[simp] theorem State.setCourse_sheaves (s : State) (c : Nat) (d : Dom) : (s.setCourse c d).sheaves = s.sheaves := rfl
@[simp] theorem State.setCourse_allots (s : State) (c : Nat) (d : Dom) : (s.setCourse c d).allots = s.allots := rfl
@[simp] theorem State.setCourse_modColls (s : State) (c : Nat) (d : Dom) : (s.setCourse c d).modColls = s.modColls := rfl
@[simp] theorem State.setCourse_mem (s : State) (c : Nat) (d : Dom) : (s.setCourse c d).mem = s.mem := rfl
@[simp] theorem State.setCourse_fabric (s : State) (c : Nat) (d : Dom) : (s.setCourse c d).fabric = s.fabric := rfl
@[simp] theorem State.setCourse_eaves (s : State) (c : Nat) (d : Dom) : (s.setCourse c d).eaves = s.eaves := rfl
@[simp] theorem State.setCourse_boot (s : State) (c : Nat) (d : Dom) : (s.setCourse c d).boot = s.boot := rfl

/-! ### `State.callDies` -/

@[simp] theorem State.callDies_pending (s : State) (l : List Nat) : (s.callDies l).pending = s.pending := rfl
@[simp] theorem State.callDies_free (s : State) (l : List Nat) : (s.callDies l).free = s.free := rfl
@[simp] theorem State.callDies_ticks (s : State) (l : List Nat) : (s.callDies l).ticks = s.ticks := rfl
@[simp] theorem State.callDies_epoch (s : State) (l : List Nat) : (s.callDies l).epoch = s.epoch := rfl
@[simp] theorem State.callDies_tcweight (s : State) (l : List Nat) : (s.callDies l).tcweight = s.tcweight := rfl
@[simp] theorem State.callDies_port0 (s : State) (l : List Nat) : (s.callDies l).port0 = s.port0 := rfl
@[simp] theorem State.callDies_port1 (s : State) (l : List Nat) : (s.callDies l).port1 = s.port1 := rfl
@[simp] theorem State.callDies_sideband (s : State) (l : List Nat) : (s.callDies l).sideband = s.sideband := rfl
@[simp] theorem State.callDies_sidebandBusy (s : State) (l : List Nat) : (s.callDies l).sidebandBusy = s.sidebandBusy := rfl
@[simp] theorem State.callDies_lodge (s : State) (l : List Nat) : (s.callDies l).lodge = s.lodge := rfl
@[simp] theorem State.callDies_sheaves (s : State) (l : List Nat) : (s.callDies l).sheaves = s.sheaves := rfl
@[simp] theorem State.callDies_allots (s : State) (l : List Nat) : (s.callDies l).allots = s.allots := rfl
@[simp] theorem State.callDies_modColls (s : State) (l : List Nat) : (s.callDies l).modColls = s.modColls := rfl
@[simp] theorem State.callDies_mem (s : State) (l : List Nat) : (s.callDies l).mem = s.mem := rfl
@[simp] theorem State.callDies_fabric (s : State) (l : List Nat) : (s.callDies l).fabric = s.fabric := rfl
@[simp] theorem State.callDies_eaves (s : State) (l : List Nat) : (s.callDies l).eaves = s.eaves := rfl
@[simp] theorem State.callDies_boot (s : State) (l : List Nat) : (s.callDies l).boot = s.boot := rfl

/-! ### `State.dropOp` -/

@[simp] theorem State.dropOp_pending (s : State) (id : Nat) : (s.dropOp id).pending = s.pending := rfl
@[simp] theorem State.dropOp_free (s : State) (id : Nat) : (s.dropOp id).free = s.free := rfl
@[simp] theorem State.dropOp_ticks (s : State) (id : Nat) : (s.dropOp id).ticks = s.ticks := rfl
@[simp] theorem State.dropOp_epoch (s : State) (id : Nat) : (s.dropOp id).epoch = s.epoch := rfl
@[simp] theorem State.dropOp_tcweight (s : State) (id : Nat) : (s.dropOp id).tcweight = s.tcweight := rfl
@[simp] theorem State.dropOp_port0 (s : State) (id : Nat) : (s.dropOp id).port0 = s.port0 := rfl
@[simp] theorem State.dropOp_port1 (s : State) (id : Nat) : (s.dropOp id).port1 = s.port1 := rfl
@[simp] theorem State.dropOp_sideband (s : State) (id : Nat) : (s.dropOp id).sideband = s.sideband := rfl
@[simp] theorem State.dropOp_sidebandBusy (s : State) (id : Nat) : (s.dropOp id).sidebandBusy = s.sidebandBusy := rfl
@[simp] theorem State.dropOp_sheaves (s : State) (id : Nat) : (s.dropOp id).sheaves = s.sheaves := rfl
@[simp] theorem State.dropOp_allots (s : State) (id : Nat) : (s.dropOp id).allots = s.allots := rfl
@[simp] theorem State.dropOp_modColls (s : State) (id : Nat) : (s.dropOp id).modColls = s.modColls := rfl
@[simp] theorem State.dropOp_mem (s : State) (id : Nat) : (s.dropOp id).mem = s.mem := rfl
@[simp] theorem State.dropOp_fabric (s : State) (id : Nat) : (s.dropOp id).fabric = s.fabric := rfl
@[simp] theorem State.dropOp_eaves (s : State) (id : Nat) : (s.dropOp id).eaves = s.eaves := rfl
@[simp] theorem State.dropOp_pow (s : State) (id : Nat) : (s.dropOp id).pow = s.pow := rfl
@[simp] theorem State.dropOp_boot (s : State) (id : Nat) : (s.dropOp id).boot = s.boot := rfl

/-! ### `State.putOp` -/

@[simp] theorem State.putOp_pending (s : State) (o : Op) : (s.putOp o).pending = s.pending := rfl
@[simp] theorem State.putOp_free (s : State) (o : Op) : (s.putOp o).free = s.free := rfl
@[simp] theorem State.putOp_ticks (s : State) (o : Op) : (s.putOp o).ticks = s.ticks := rfl
@[simp] theorem State.putOp_epoch (s : State) (o : Op) : (s.putOp o).epoch = s.epoch := rfl
@[simp] theorem State.putOp_tcweight (s : State) (o : Op) : (s.putOp o).tcweight = s.tcweight := rfl
@[simp] theorem State.putOp_port0 (s : State) (o : Op) : (s.putOp o).port0 = s.port0 := rfl
@[simp] theorem State.putOp_port1 (s : State) (o : Op) : (s.putOp o).port1 = s.port1 := rfl
@[simp] theorem State.putOp_sideband (s : State) (o : Op) : (s.putOp o).sideband = s.sideband := rfl
@[simp] theorem State.putOp_sidebandBusy (s : State) (o : Op) : (s.putOp o).sidebandBusy = s.sidebandBusy := rfl
@[simp] theorem State.putOp_sheaves (s : State) (o : Op) : (s.putOp o).sheaves = s.sheaves := rfl
@[simp] theorem State.putOp_allots (s : State) (o : Op) : (s.putOp o).allots = s.allots := rfl
@[simp] theorem State.putOp_modColls (s : State) (o : Op) : (s.putOp o).modColls = s.modColls := rfl
@[simp] theorem State.putOp_mem (s : State) (o : Op) : (s.putOp o).mem = s.mem := rfl
@[simp] theorem State.putOp_fabric (s : State) (o : Op) : (s.putOp o).fabric = s.fabric := rfl
@[simp] theorem State.putOp_eaves (s : State) (o : Op) : (s.putOp o).eaves = s.eaves := rfl
@[simp] theorem State.putOp_pow (s : State) (o : Op) : (s.putOp o).pow = s.pow := rfl
@[simp] theorem State.putOp_boot (s : State) (o : Op) : (s.putOp o).boot = s.boot := rfl

/-! ### `State.nextCmd` -/

@[simp] theorem State.nextCmd_pending (s : State) : s.nextCmd.pending = s.pending := rfl
@[simp] theorem State.nextCmd_free (s : State) : s.nextCmd.free = s.free := rfl
@[simp] theorem State.nextCmd_ticks (s : State) : s.nextCmd.ticks = s.ticks := rfl
@[simp] theorem State.nextCmd_epoch (s : State) : s.nextCmd.epoch = s.epoch := rfl
@[simp] theorem State.nextCmd_tcweight (s : State) : s.nextCmd.tcweight = s.tcweight := rfl
@[simp] theorem State.nextCmd_port0 (s : State) : s.nextCmd.port0 = s.port0 := rfl
@[simp] theorem State.nextCmd_port1 (s : State) : s.nextCmd.port1 = s.port1 := rfl
@[simp] theorem State.nextCmd_sideband (s : State) : s.nextCmd.sideband = s.sideband := rfl
@[simp] theorem State.nextCmd_sidebandBusy (s : State) : s.nextCmd.sidebandBusy = s.sidebandBusy := rfl
@[simp] theorem State.nextCmd_sheaves (s : State) : s.nextCmd.sheaves = s.sheaves := rfl
@[simp] theorem State.nextCmd_allots (s : State) : s.nextCmd.allots = s.allots := rfl
@[simp] theorem State.nextCmd_modColls (s : State) : s.nextCmd.modColls = s.modColls := rfl
@[simp] theorem State.nextCmd_mem (s : State) : s.nextCmd.mem = s.mem := rfl
@[simp] theorem State.nextCmd_fabric (s : State) : s.nextCmd.fabric = s.fabric := rfl
@[simp] theorem State.nextCmd_eaves (s : State) : s.nextCmd.eaves = s.eaves := rfl
@[simp] theorem State.nextCmd_pow (s : State) : s.nextCmd.pow = s.pow := rfl
@[simp] theorem State.nextCmd_boot (s : State) : s.nextCmd.boot = s.boot := rfl

/-! ### `State.fresh` -/

@[simp] theorem State.fresh_pending (s : State) : s.fresh.2.pending = s.pending := rfl
@[simp] theorem State.fresh_ticks (s : State) : s.fresh.2.ticks = s.ticks := rfl
@[simp] theorem State.fresh_epoch (s : State) : s.fresh.2.epoch = s.epoch := rfl
@[simp] theorem State.fresh_tcweight (s : State) : s.fresh.2.tcweight = s.tcweight := rfl
@[simp] theorem State.fresh_port0 (s : State) : s.fresh.2.port0 = s.port0 := rfl
@[simp] theorem State.fresh_port1 (s : State) : s.fresh.2.port1 = s.port1 := rfl
@[simp] theorem State.fresh_sideband (s : State) : s.fresh.2.sideband = s.sideband := rfl
@[simp] theorem State.fresh_sidebandBusy (s : State) : s.fresh.2.sidebandBusy = s.sidebandBusy := rfl
@[simp] theorem State.fresh_lodge (s : State) : s.fresh.2.lodge = s.lodge := rfl
@[simp] theorem State.fresh_sheaves (s : State) : s.fresh.2.sheaves = s.sheaves := rfl
@[simp] theorem State.fresh_allots (s : State) : s.fresh.2.allots = s.allots := rfl
@[simp] theorem State.fresh_modColls (s : State) : s.fresh.2.modColls = s.modColls := rfl
@[simp] theorem State.fresh_mem (s : State) : s.fresh.2.mem = s.mem := rfl
@[simp] theorem State.fresh_fabric (s : State) : s.fresh.2.fabric = s.fabric := rfl
@[simp] theorem State.fresh_eaves (s : State) : s.fresh.2.eaves = s.eaves := rfl
@[simp] theorem State.fresh_pow (s : State) : s.fresh.2.pow = s.pow := rfl
@[simp] theorem State.fresh_boot (s : State) : s.fresh.2.boot = s.boot := rfl

/-! ### `State.taken` -/

@[simp] theorem State.taken_pending (s : State) : s.taken.pending = s.pending := rfl
@[simp] theorem State.taken_free (s : State) : s.taken.free = s.free := rfl
@[simp] theorem State.taken_ticks (s : State) : s.taken.ticks = s.ticks := rfl
@[simp] theorem State.taken_epoch (s : State) : s.taken.epoch = s.epoch := rfl
@[simp] theorem State.taken_tcweight (s : State) : s.taken.tcweight = s.tcweight := rfl
@[simp] theorem State.taken_port0 (s : State) : s.taken.port0 = s.port0 := rfl
@[simp] theorem State.taken_port1 (s : State) : s.taken.port1 = s.port1 := rfl
@[simp] theorem State.taken_sideband (s : State) : s.taken.sideband = s.sideband := rfl
@[simp] theorem State.taken_sidebandBusy (s : State) : s.taken.sidebandBusy = s.sidebandBusy := rfl
@[simp] theorem State.taken_sheaves (s : State) : s.taken.sheaves = s.sheaves := rfl
@[simp] theorem State.taken_allots (s : State) : s.taken.allots = s.allots := rfl
@[simp] theorem State.taken_modColls (s : State) : s.taken.modColls = s.modColls := rfl
@[simp] theorem State.taken_mem (s : State) : s.taken.mem = s.mem := rfl
@[simp] theorem State.taken_fabric (s : State) : s.taken.fabric = s.fabric := rfl
@[simp] theorem State.taken_eaves (s : State) : s.taken.eaves = s.eaves := rfl
@[simp] theorem State.taken_pow (s : State) : s.taken.pow = s.pow := rfl
@[simp] theorem State.taken_boot (s : State) : s.taken.boot = s.boot := rfl

/-! ### `State.setPort` -/

@[simp] theorem State.setPort_pending (s : State) (p : PortIx) (x : Port) : (s.setPort p x).pending = s.pending := by cases p <;> rfl
@[simp] theorem State.setPort_free (s : State) (p : PortIx) (x : Port) : (s.setPort p x).free = s.free := by cases p <;> rfl
@[simp] theorem State.setPort_ticks (s : State) (p : PortIx) (x : Port) : (s.setPort p x).ticks = s.ticks := by cases p <;> rfl
@[simp] theorem State.setPort_epoch (s : State) (p : PortIx) (x : Port) : (s.setPort p x).epoch = s.epoch := by cases p <;> rfl
@[simp] theorem State.setPort_tcweight (s : State) (p : PortIx) (x : Port) : (s.setPort p x).tcweight = s.tcweight := by cases p <;> rfl
@[simp] theorem State.setPort_sideband (s : State) (p : PortIx) (x : Port) : (s.setPort p x).sideband = s.sideband := by cases p <;> rfl
@[simp] theorem State.setPort_sidebandBusy (s : State) (p : PortIx) (x : Port) : (s.setPort p x).sidebandBusy = s.sidebandBusy := by cases p <;> rfl
@[simp] theorem State.setPort_lodge (s : State) (p : PortIx) (x : Port) : (s.setPort p x).lodge = s.lodge := by cases p <;> rfl
@[simp] theorem State.setPort_sheaves (s : State) (p : PortIx) (x : Port) : (s.setPort p x).sheaves = s.sheaves := by cases p <;> rfl
@[simp] theorem State.setPort_allots (s : State) (p : PortIx) (x : Port) : (s.setPort p x).allots = s.allots := by cases p <;> rfl
@[simp] theorem State.setPort_modColls (s : State) (p : PortIx) (x : Port) : (s.setPort p x).modColls = s.modColls := by cases p <;> rfl
@[simp] theorem State.setPort_mem (s : State) (p : PortIx) (x : Port) : (s.setPort p x).mem = s.mem := by cases p <;> rfl
@[simp] theorem State.setPort_fabric (s : State) (p : PortIx) (x : Port) : (s.setPort p x).fabric = s.fabric := by cases p <;> rfl
@[simp] theorem State.setPort_eaves (s : State) (p : PortIx) (x : Port) : (s.setPort p x).eaves = s.eaves := by cases p <;> rfl
@[simp] theorem State.setPort_pow (s : State) (p : PortIx) (x : Port) : (s.setPort p x).pow = s.pow := by cases p <;> rfl
@[simp] theorem State.setPort_boot (s : State) (p : PortIx) (x : Port) : (s.setPort p x).boot = s.boot := by cases p <;> rfl

/-! ### `State.modPort` -/

@[simp] theorem State.modPort_pending (s : State) (p : PortIx) (f : Port → Port) : (s.modPort p f).pending = s.pending := by cases p <;> rfl
@[simp] theorem State.modPort_free (s : State) (p : PortIx) (f : Port → Port) : (s.modPort p f).free = s.free := by cases p <;> rfl
@[simp] theorem State.modPort_ticks (s : State) (p : PortIx) (f : Port → Port) : (s.modPort p f).ticks = s.ticks := by cases p <;> rfl
@[simp] theorem State.modPort_epoch (s : State) (p : PortIx) (f : Port → Port) : (s.modPort p f).epoch = s.epoch := by cases p <;> rfl
@[simp] theorem State.modPort_tcweight (s : State) (p : PortIx) (f : Port → Port) : (s.modPort p f).tcweight = s.tcweight := by cases p <;> rfl
@[simp] theorem State.modPort_sideband (s : State) (p : PortIx) (f : Port → Port) : (s.modPort p f).sideband = s.sideband := by cases p <;> rfl
@[simp] theorem State.modPort_sidebandBusy (s : State) (p : PortIx) (f : Port → Port) : (s.modPort p f).sidebandBusy = s.sidebandBusy := by cases p <;> rfl
@[simp] theorem State.modPort_lodge (s : State) (p : PortIx) (f : Port → Port) : (s.modPort p f).lodge = s.lodge := by cases p <;> rfl
@[simp] theorem State.modPort_sheaves (s : State) (p : PortIx) (f : Port → Port) : (s.modPort p f).sheaves = s.sheaves := by cases p <;> rfl
@[simp] theorem State.modPort_allots (s : State) (p : PortIx) (f : Port → Port) : (s.modPort p f).allots = s.allots := by cases p <;> rfl
@[simp] theorem State.modPort_modColls (s : State) (p : PortIx) (f : Port → Port) : (s.modPort p f).modColls = s.modColls := by cases p <;> rfl
@[simp] theorem State.modPort_mem (s : State) (p : PortIx) (f : Port → Port) : (s.modPort p f).mem = s.mem := by cases p <;> rfl
@[simp] theorem State.modPort_fabric (s : State) (p : PortIx) (f : Port → Port) : (s.modPort p f).fabric = s.fabric := by cases p <;> rfl
@[simp] theorem State.modPort_eaves (s : State) (p : PortIx) (f : Port → Port) : (s.modPort p f).eaves = s.eaves := by cases p <;> rfl
@[simp] theorem State.modPort_pow (s : State) (p : PortIx) (f : Port → Port) : (s.modPort p f).pow = s.pow := by cases p <;> rfl
@[simp] theorem State.modPort_boot (s : State) (p : PortIx) (f : Port → Port) : (s.modPort p f).boot = s.boot := by cases p <;> rfl

/-! ### `Sheaf.setReed` -/

@[simp] theorem Sheaf.setReed_power (s : Sheaf) (l : Nat) (r : Reed) : (s.setReed l r).power = s.power := rfl
@[simp] theorem Sheaf.setReed_withheld (s : Sheaf) (l : Nat) (r : Reed) : (s.setReed l r).withheld = s.withheld := rfl
@[simp] theorem Sheaf.setReed_census (s : Sheaf) (l : Nat) (r : Reed) : (s.setReed l r).census = s.census := rfl
@[simp] theorem Sheaf.setReed_timer (s : Sheaf) (l : Nat) (r : Reed) : (s.setReed l r).timer = s.timer := rfl
@[simp] theorem Sheaf.setReed_laneSeed (s : Sheaf) (l : Nat) (r : Reed) : (s.setReed l r).laneSeed = s.laneSeed := rfl
@[simp] theorem Sheaf.setReed_laneCycles (s : Sheaf) (l : Nat) (r : Reed) : (s.setReed l r).laneCycles = s.laneCycles := rfl
@[simp] theorem Sheaf.setReed_silent (s : Sheaf) (l : Nat) (r : Reed) : (s.setReed l r).silent = s.silent := rfl
@[simp] theorem Sheaf.setReed_repair (s : Sheaf) (l : Nat) (r : Reed) : (s.setReed l r).repair = s.repair := rfl
@[simp] theorem Sheaf.setReed_loft (s : Sheaf) (l : Nat) (r : Reed) : (s.setReed l r).loft = s.loft := rfl
@[simp] theorem Sheaf.setReed_numctl (s : Sheaf) (l : Nat) (r : Reed) : (s.setReed l r).numctl = s.numctl := rfl
@[simp] theorem Sheaf.setReed_keys (s : Sheaf) (l : Nat) (r : Reed) : (s.setReed l r).keys = s.keys := rfl
@[simp] theorem Sheaf.setReed_clamp (s : Sheaf) (l : Nat) (r : Reed) : (s.setReed l r).clamp = s.clamp := rfl
@[simp] theorem Sheaf.setReed_filled (s : Sheaf) (l : Nat) (r : Reed) : (s.setReed l r).filled = s.filled := rfl
@[simp] theorem Sheaf.setReed_dropped (s : Sheaf) (l : Nat) (r : Reed) : (s.setReed l r).dropped = s.dropped := rfl
@[simp] theorem Sheaf.setReed_wv (s : Sheaf) (l : Nat) (r : Reed) : (s.setReed l r).wv = s.wv := rfl
@[simp] theorem Sheaf.setReed_colls (s : Sheaf) (l : Nat) (r : Reed) : (s.setReed l r).colls = s.colls := rfl
@[simp] theorem Sheaf.setReed_clock (s : Sheaf) (l : Nat) (r : Reed) : (s.setReed l r).clock = s.clock := rfl
@[simp] theorem Sheaf.setReed_faultWin (s : Sheaf) (l : Nat) (r : Reed) : (s.setReed l r).faultWin = s.faultWin := rfl

/-! ### `Sheaf.endArming` -/

@[simp] theorem Sheaf.endArming_power (s : Sheaf) (r : Nat) : (s.endArming r).power = s.power := rfl
@[simp] theorem Sheaf.endArming_withheld (s : Sheaf) (r : Nat) : (s.endArming r).withheld = s.withheld := rfl
@[simp] theorem Sheaf.endArming_reeds (s : Sheaf) (r : Nat) : (s.endArming r).reeds = s.reeds := rfl
@[simp] theorem Sheaf.endArming_census (s : Sheaf) (r : Nat) : (s.endArming r).census = s.census := rfl
@[simp] theorem Sheaf.endArming_timer (s : Sheaf) (r : Nat) : (s.endArming r).timer = s.timer := rfl
@[simp] theorem Sheaf.endArming_laneSeed (s : Sheaf) (r : Nat) : (s.endArming r).laneSeed = s.laneSeed := rfl
@[simp] theorem Sheaf.endArming_laneCycles (s : Sheaf) (r : Nat) : (s.endArming r).laneCycles = s.laneCycles := rfl
@[simp] theorem Sheaf.endArming_silent (s : Sheaf) (r : Nat) : (s.endArming r).silent = s.silent := rfl
@[simp] theorem Sheaf.endArming_repair (s : Sheaf) (r : Nat) : (s.endArming r).repair = s.repair := rfl
@[simp] theorem Sheaf.endArming_loft (s : Sheaf) (r : Nat) : (s.endArming r).loft = s.loft := rfl
@[simp] theorem Sheaf.endArming_numctl (s : Sheaf) (r : Nat) : (s.endArming r).numctl = s.numctl := rfl
@[simp] theorem Sheaf.endArming_keys (s : Sheaf) (r : Nat) : (s.endArming r).keys = s.keys := rfl
@[simp] theorem Sheaf.endArming_clamp (s : Sheaf) (r : Nat) : (s.endArming r).clamp = s.clamp := rfl
@[simp] theorem Sheaf.endArming_filled (s : Sheaf) (r : Nat) : (s.endArming r).filled = s.filled := rfl
@[simp] theorem Sheaf.endArming_dropped (s : Sheaf) (r : Nat) : (s.endArming r).dropped = s.dropped := rfl
@[simp] theorem Sheaf.endArming_colls (s : Sheaf) (r : Nat) : (s.endArming r).colls = s.colls := rfl
@[simp] theorem Sheaf.endArming_clock (s : Sheaf) (r : Nat) : (s.endArming r).clock = s.clock := rfl
@[simp] theorem Sheaf.endArming_faultWin (s : Sheaf) (r : Nat) : (s.endArming r).faultWin = s.faultWin := rfl

/-! ### `Sheaf.dropUnstarted` -/

@[simp] theorem Sheaf.dropUnstarted_power (s : Sheaf) (r : Nat) : (s.dropUnstarted r).power = s.power := rfl
@[simp] theorem Sheaf.dropUnstarted_withheld (s : Sheaf) (r : Nat) : (s.dropUnstarted r).withheld = s.withheld := rfl
@[simp] theorem Sheaf.dropUnstarted_reeds (s : Sheaf) (r : Nat) : (s.dropUnstarted r).reeds = s.reeds := rfl
@[simp] theorem Sheaf.dropUnstarted_census (s : Sheaf) (r : Nat) : (s.dropUnstarted r).census = s.census := rfl
@[simp] theorem Sheaf.dropUnstarted_timer (s : Sheaf) (r : Nat) : (s.dropUnstarted r).timer = s.timer := rfl
@[simp] theorem Sheaf.dropUnstarted_laneSeed (s : Sheaf) (r : Nat) : (s.dropUnstarted r).laneSeed = s.laneSeed := rfl
@[simp] theorem Sheaf.dropUnstarted_laneCycles (s : Sheaf) (r : Nat) : (s.dropUnstarted r).laneCycles = s.laneCycles := rfl
@[simp] theorem Sheaf.dropUnstarted_silent (s : Sheaf) (r : Nat) : (s.dropUnstarted r).silent = s.silent := rfl
@[simp] theorem Sheaf.dropUnstarted_repair (s : Sheaf) (r : Nat) : (s.dropUnstarted r).repair = s.repair := rfl
@[simp] theorem Sheaf.dropUnstarted_loft (s : Sheaf) (r : Nat) : (s.dropUnstarted r).loft = s.loft := rfl
@[simp] theorem Sheaf.dropUnstarted_numctl (s : Sheaf) (r : Nat) : (s.dropUnstarted r).numctl = s.numctl := rfl
@[simp] theorem Sheaf.dropUnstarted_keys (s : Sheaf) (r : Nat) : (s.dropUnstarted r).keys = s.keys := rfl
@[simp] theorem Sheaf.dropUnstarted_clamp (s : Sheaf) (r : Nat) : (s.dropUnstarted r).clamp = s.clamp := rfl
@[simp] theorem Sheaf.dropUnstarted_filled (s : Sheaf) (r : Nat) : (s.dropUnstarted r).filled = s.filled := rfl
@[simp] theorem Sheaf.dropUnstarted_dropped (s : Sheaf) (r : Nat) : (s.dropUnstarted r).dropped = s.dropped := rfl
@[simp] theorem Sheaf.dropUnstarted_colls (s : Sheaf) (r : Nat) : (s.dropUnstarted r).colls = s.colls := rfl
@[simp] theorem Sheaf.dropUnstarted_clock (s : Sheaf) (r : Nat) : (s.dropUnstarted r).clock = s.clock := rfl
@[simp] theorem Sheaf.dropUnstarted_faultWin (s : Sheaf) (r : Nat) : (s.dropUnstarted r).faultWin = s.faultWin := rfl

/-! ### `Sheaf.tell` -/

@[simp] theorem Sheaf.tell_power (s : Sheaf) (n : Nat) (l : List Nat) : (s.tell n l).power = s.power := rfl
@[simp] theorem Sheaf.tell_withheld (s : Sheaf) (n : Nat) (l : List Nat) : (s.tell n l).withheld = s.withheld := rfl
@[simp] theorem Sheaf.tell_reeds (s : Sheaf) (n : Nat) (l : List Nat) : (s.tell n l).reeds = s.reeds := rfl
@[simp] theorem Sheaf.tell_timer (s : Sheaf) (n : Nat) (l : List Nat) : (s.tell n l).timer = s.timer := rfl
@[simp] theorem Sheaf.tell_laneSeed (s : Sheaf) (n : Nat) (l : List Nat) : (s.tell n l).laneSeed = s.laneSeed := rfl
@[simp] theorem Sheaf.tell_laneCycles (s : Sheaf) (n : Nat) (l : List Nat) : (s.tell n l).laneCycles = s.laneCycles := rfl
@[simp] theorem Sheaf.tell_silent (s : Sheaf) (n : Nat) (l : List Nat) : (s.tell n l).silent = s.silent := rfl
@[simp] theorem Sheaf.tell_repair (s : Sheaf) (n : Nat) (l : List Nat) : (s.tell n l).repair = s.repair := rfl
@[simp] theorem Sheaf.tell_loft (s : Sheaf) (n : Nat) (l : List Nat) : (s.tell n l).loft = s.loft := rfl
@[simp] theorem Sheaf.tell_numctl (s : Sheaf) (n : Nat) (l : List Nat) : (s.tell n l).numctl = s.numctl := rfl
@[simp] theorem Sheaf.tell_keys (s : Sheaf) (n : Nat) (l : List Nat) : (s.tell n l).keys = s.keys := rfl
@[simp] theorem Sheaf.tell_clamp (s : Sheaf) (n : Nat) (l : List Nat) : (s.tell n l).clamp = s.clamp := rfl
@[simp] theorem Sheaf.tell_filled (s : Sheaf) (n : Nat) (l : List Nat) : (s.tell n l).filled = s.filled := rfl
@[simp] theorem Sheaf.tell_dropped (s : Sheaf) (n : Nat) (l : List Nat) : (s.tell n l).dropped = s.dropped := rfl
@[simp] theorem Sheaf.tell_wv (s : Sheaf) (n : Nat) (l : List Nat) : (s.tell n l).wv = s.wv := rfl
@[simp] theorem Sheaf.tell_colls (s : Sheaf) (n : Nat) (l : List Nat) : (s.tell n l).colls = s.colls := rfl
@[simp] theorem Sheaf.tell_clock (s : Sheaf) (n : Nat) (l : List Nat) : (s.tell n l).clock = s.clock := rfl
@[simp] theorem Sheaf.tell_faultWin (s : Sheaf) (n : Nat) (l : List Nat) : (s.tell n l).faultWin = s.faultWin := rfl

/-! ### `Sheaf.addClamps` -/

@[simp] theorem Sheaf.addClamps_power (s : Sheaf) (n : Nat) : (s.addClamps n).power = s.power := rfl
@[simp] theorem Sheaf.addClamps_withheld (s : Sheaf) (n : Nat) : (s.addClamps n).withheld = s.withheld := rfl
@[simp] theorem Sheaf.addClamps_reeds (s : Sheaf) (n : Nat) : (s.addClamps n).reeds = s.reeds := rfl
@[simp] theorem Sheaf.addClamps_census (s : Sheaf) (n : Nat) : (s.addClamps n).census = s.census := rfl
@[simp] theorem Sheaf.addClamps_timer (s : Sheaf) (n : Nat) : (s.addClamps n).timer = s.timer := rfl
@[simp] theorem Sheaf.addClamps_laneSeed (s : Sheaf) (n : Nat) : (s.addClamps n).laneSeed = s.laneSeed := rfl
@[simp] theorem Sheaf.addClamps_laneCycles (s : Sheaf) (n : Nat) : (s.addClamps n).laneCycles = s.laneCycles := rfl
@[simp] theorem Sheaf.addClamps_silent (s : Sheaf) (n : Nat) : (s.addClamps n).silent = s.silent := rfl
@[simp] theorem Sheaf.addClamps_repair (s : Sheaf) (n : Nat) : (s.addClamps n).repair = s.repair := rfl
@[simp] theorem Sheaf.addClamps_loft (s : Sheaf) (n : Nat) : (s.addClamps n).loft = s.loft := rfl
@[simp] theorem Sheaf.addClamps_numctl (s : Sheaf) (n : Nat) : (s.addClamps n).numctl = s.numctl := rfl
@[simp] theorem Sheaf.addClamps_keys (s : Sheaf) (n : Nat) : (s.addClamps n).keys = s.keys := rfl
@[simp] theorem Sheaf.addClamps_filled (s : Sheaf) (n : Nat) : (s.addClamps n).filled = s.filled := rfl
@[simp] theorem Sheaf.addClamps_dropped (s : Sheaf) (n : Nat) : (s.addClamps n).dropped = s.dropped := rfl
@[simp] theorem Sheaf.addClamps_wv (s : Sheaf) (n : Nat) : (s.addClamps n).wv = s.wv := rfl
@[simp] theorem Sheaf.addClamps_colls (s : Sheaf) (n : Nat) : (s.addClamps n).colls = s.colls := rfl
@[simp] theorem Sheaf.addClamps_clock (s : Sheaf) (n : Nat) : (s.addClamps n).clock = s.clock := rfl
@[simp] theorem Sheaf.addClamps_faultWin (s : Sheaf) (n : Nat) : (s.addClamps n).faultWin = s.faultWin := rfl

/-! ### `Sheaf.addPads` -/

@[simp] theorem Sheaf.addPads_power (s : Sheaf) (f d : Nat) : (s.addPads f d).power = s.power := rfl
@[simp] theorem Sheaf.addPads_withheld (s : Sheaf) (f d : Nat) : (s.addPads f d).withheld = s.withheld := rfl
@[simp] theorem Sheaf.addPads_reeds (s : Sheaf) (f d : Nat) : (s.addPads f d).reeds = s.reeds := rfl
@[simp] theorem Sheaf.addPads_census (s : Sheaf) (f d : Nat) : (s.addPads f d).census = s.census := rfl
@[simp] theorem Sheaf.addPads_timer (s : Sheaf) (f d : Nat) : (s.addPads f d).timer = s.timer := rfl
@[simp] theorem Sheaf.addPads_laneSeed (s : Sheaf) (f d : Nat) : (s.addPads f d).laneSeed = s.laneSeed := rfl
@[simp] theorem Sheaf.addPads_laneCycles (s : Sheaf) (f d : Nat) : (s.addPads f d).laneCycles = s.laneCycles := rfl
@[simp] theorem Sheaf.addPads_silent (s : Sheaf) (f d : Nat) : (s.addPads f d).silent = s.silent := rfl
@[simp] theorem Sheaf.addPads_repair (s : Sheaf) (f d : Nat) : (s.addPads f d).repair = s.repair := rfl
@[simp] theorem Sheaf.addPads_loft (s : Sheaf) (f d : Nat) : (s.addPads f d).loft = s.loft := rfl
@[simp] theorem Sheaf.addPads_numctl (s : Sheaf) (f d : Nat) : (s.addPads f d).numctl = s.numctl := rfl
@[simp] theorem Sheaf.addPads_keys (s : Sheaf) (f d : Nat) : (s.addPads f d).keys = s.keys := rfl
@[simp] theorem Sheaf.addPads_clamp (s : Sheaf) (f d : Nat) : (s.addPads f d).clamp = s.clamp := rfl
@[simp] theorem Sheaf.addPads_wv (s : Sheaf) (f d : Nat) : (s.addPads f d).wv = s.wv := rfl
@[simp] theorem Sheaf.addPads_colls (s : Sheaf) (f d : Nat) : (s.addPads f d).colls = s.colls := rfl
@[simp] theorem Sheaf.addPads_clock (s : Sheaf) (f d : Nat) : (s.addPads f d).clock = s.clock := rfl
@[simp] theorem Sheaf.addPads_faultWin (s : Sheaf) (f d : Nat) : (s.addPads f d).faultWin = s.faultWin := rfl

/-! ### `Reed.setS` -/

@[simp] theorem Reed.setS_st (s : Reed) (n v : Nat) : (s.setS n v).st = s.st := rfl
@[simp] theorem Reed.setS_loops (s : Reed) (n v : Nat) : (s.setS n v).loops = s.loops := rfl
@[simp] theorem Reed.setS_index (s : Reed) (n v : Nat) : (s.setS n v).index = s.index := rfl
@[simp] theorem Reed.setS_entry (s : Reed) (n v : Nat) : (s.setS n v).entry = s.entry := rfl
@[simp] theorem Reed.setS_slot (s : Reed) (n v : Nat) : (s.setS n v).slot = s.slot := rfl
@[simp] theorem Reed.setS_vl (s : Reed) (n v : Nat) : (s.setS n v).vl = s.vl := rfl
@[simp] theorem Reed.setS_enProduced (s : Reed) (n v : Nat) : (s.setS n v).enProduced = s.enProduced := rfl
@[simp] theorem Reed.setS_enConsumed (s : Reed) (n v : Nat) : (s.setS n v).enConsumed = s.enConsumed := rfl
@[simp] theorem Reed.setS_trapAction (s : Reed) (n v : Nat) : (s.setS n v).trapAction = s.trapAction := rfl
@[simp] theorem Reed.setS_trapCount (s : Reed) (n v : Nat) : (s.setS n v).trapCount = s.trapCount := rfl
@[simp] theorem Reed.setS_trapRec (s : Reed) (n v : Nat) : (s.setS n v).trapRec = s.trapRec := rfl
@[simp] theorem Reed.setS_rngMode (s : Reed) (n v : Nat) : (s.setS n v).rngMode = s.rngMode := rfl
@[simp] theorem Reed.setS_faultInfo (s : Reed) (n v : Nat) : (s.setS n v).faultInfo = s.faultInfo := rfl
@[simp] theorem Reed.setS_edgePut (s : Reed) (n v : Nat) : (s.setS n v).edgePut = s.edgePut := rfl
@[simp] theorem Reed.setS_edgeGet (s : Reed) (n v : Nat) : (s.setS n v).edgeGet = s.edgeGet := rfl
@[simp] theorem Reed.setS_cycles (s : Reed) (n v : Nat) : (s.setS n v).cycles = s.cycles := rfl
@[simp] theorem Reed.setS_fullq (s : Reed) (n v : Nat) : (s.setS n v).fullq = s.fullq := rfl
@[simp] theorem Reed.setS_portStalls (s : Reed) (n v : Nat) : (s.setS n v).portStalls = s.portStalls := rfl
@[simp] theorem Reed.setS_counting (s : Reed) (n v : Nat) : (s.setS n v).counting = s.counting := rfl
@[simp] theorem Reed.setS_ibuf (s : Reed) (n v : Nat) : (s.setS n v).ibuf = s.ibuf := rfl
@[simp] theorem Reed.setS_sp (s : Reed) (n v : Nat) : (s.setS n v).sp = s.sp := rfl
@[simp] theorem Reed.setS_bank (s : Reed) (n v : Nat) : (s.setS n v).bank = s.bank := rfl
@[simp] theorem Reed.setS_cache (s : Reed) (n v : Nat) : (s.setS n v).cache = s.cache := rfl
@[simp] theorem Reed.setS_qmx (s : Reed) (n v : Nat) : (s.setS n v).qmx = s.qmx := rfl
@[simp] theorem Reed.setS_qvx (s : Reed) (n v : Nat) : (s.setS n v).qvx = s.qvx := rfl
@[simp] theorem Reed.setS_qld (s : Reed) (n v : Nat) : (s.setS n v).qld = s.qld := rfl
@[simp] theorem Reed.setS_qst (s : Reed) (n v : Nat) : (s.setS n v).qst = s.qst := rfl
@[simp] theorem Reed.setS_qxp (s : Reed) (n v : Nat) : (s.setS n v).qxp = s.qxp := rfl
@[simp] theorem Reed.setS_qxg (s : Reed) (n v : Nat) : (s.setS n v).qxg = s.qxg := rfl
@[simp] theorem Reed.setS_sums (s : Reed) (n v : Nat) : (s.setS n v).sums = s.sums := rfl
@[simp] theorem Reed.setS_rxN (s : Reed) (n v : Nat) : (s.setS n v).rxN = s.rxN := rfl
@[simp] theorem Reed.setS_rxE (s : Reed) (n v : Nat) : (s.setS n v).rxE = s.rxE := rfl
@[simp] theorem Reed.setS_rxS (s : Reed) (n v : Nat) : (s.setS n v).rxS = s.rxS := rfl
@[simp] theorem Reed.setS_rxW (s : Reed) (n v : Nat) : (s.setS n v).rxW = s.rxW := rfl
@[simp] theorem Reed.setS_hold (s : Reed) (n v : Nat) : (s.setS n v).hold = s.hold := rfl
@[simp] theorem Reed.setS_ended (s : Reed) (n v : Nat) : (s.setS n v).ended = s.ended := rfl
@[simp] theorem Reed.setS_ord (s : Reed) (n v : Nat) : (s.setS n v).ord = s.ord := rfl
@[simp] theorem Reed.setS_seqNo (s : Reed) (n v : Nat) : (s.setS n v).seqNo = s.seqNo := rfl

/-! ### `Reed.advance` -/

@[simp] theorem Reed.advance_st (s : Reed) : (s.advance).st = s.st := rfl
@[simp] theorem Reed.advance_regs (s : Reed) : (s.advance).regs = s.regs := rfl
@[simp] theorem Reed.advance_entry (s : Reed) : (s.advance).entry = s.entry := rfl
@[simp] theorem Reed.advance_slot (s : Reed) : (s.advance).slot = s.slot := rfl
@[simp] theorem Reed.advance_vl (s : Reed) : (s.advance).vl = s.vl := rfl
@[simp] theorem Reed.advance_enProduced (s : Reed) : (s.advance).enProduced = s.enProduced := rfl
@[simp] theorem Reed.advance_enConsumed (s : Reed) : (s.advance).enConsumed = s.enConsumed := rfl
@[simp] theorem Reed.advance_trapAction (s : Reed) : (s.advance).trapAction = s.trapAction := rfl
@[simp] theorem Reed.advance_trapCount (s : Reed) : (s.advance).trapCount = s.trapCount := rfl
@[simp] theorem Reed.advance_trapRec (s : Reed) : (s.advance).trapRec = s.trapRec := rfl
@[simp] theorem Reed.advance_rngMode (s : Reed) : (s.advance).rngMode = s.rngMode := rfl
@[simp] theorem Reed.advance_faultInfo (s : Reed) : (s.advance).faultInfo = s.faultInfo := rfl
@[simp] theorem Reed.advance_edgePut (s : Reed) : (s.advance).edgePut = s.edgePut := rfl
@[simp] theorem Reed.advance_edgeGet (s : Reed) : (s.advance).edgeGet = s.edgeGet := rfl
@[simp] theorem Reed.advance_cycles (s : Reed) : (s.advance).cycles = s.cycles := rfl
@[simp] theorem Reed.advance_fullq (s : Reed) : (s.advance).fullq = s.fullq := rfl
@[simp] theorem Reed.advance_portStalls (s : Reed) : (s.advance).portStalls = s.portStalls := rfl
@[simp] theorem Reed.advance_ibuf (s : Reed) : (s.advance).ibuf = s.ibuf := rfl
@[simp] theorem Reed.advance_sp (s : Reed) : (s.advance).sp = s.sp := rfl
@[simp] theorem Reed.advance_bank (s : Reed) : (s.advance).bank = s.bank := rfl
@[simp] theorem Reed.advance_cache (s : Reed) : (s.advance).cache = s.cache := rfl
@[simp] theorem Reed.advance_qmx (s : Reed) : (s.advance).qmx = s.qmx := rfl
@[simp] theorem Reed.advance_qvx (s : Reed) : (s.advance).qvx = s.qvx := rfl
@[simp] theorem Reed.advance_qld (s : Reed) : (s.advance).qld = s.qld := rfl
@[simp] theorem Reed.advance_qst (s : Reed) : (s.advance).qst = s.qst := rfl
@[simp] theorem Reed.advance_qxp (s : Reed) : (s.advance).qxp = s.qxp := rfl
@[simp] theorem Reed.advance_qxg (s : Reed) : (s.advance).qxg = s.qxg := rfl
@[simp] theorem Reed.advance_sums (s : Reed) : (s.advance).sums = s.sums := rfl
@[simp] theorem Reed.advance_rxN (s : Reed) : (s.advance).rxN = s.rxN := rfl
@[simp] theorem Reed.advance_rxE (s : Reed) : (s.advance).rxE = s.rxE := rfl
@[simp] theorem Reed.advance_rxS (s : Reed) : (s.advance).rxS = s.rxS := rfl
@[simp] theorem Reed.advance_rxW (s : Reed) : (s.advance).rxW = s.rxW := rfl
@[simp] theorem Reed.advance_ended (s : Reed) : (s.advance).ended = s.ended := rfl
@[simp] theorem Reed.advance_ord (s : Reed) : (s.advance).ord = s.ord := rfl
@[simp] theorem Reed.advance_seqNo (s : Reed) : (s.advance).seqNo = s.seqNo := rfl

/-! ### `Reed.branchTo` -/

@[simp] theorem Reed.branchTo_st (s : Reed) (t : Nat) : (s.branchTo t).st = s.st := rfl
@[simp] theorem Reed.branchTo_regs (s : Reed) (t : Nat) : (s.branchTo t).regs = s.regs := rfl
@[simp] theorem Reed.branchTo_entry (s : Reed) (t : Nat) : (s.branchTo t).entry = s.entry := rfl
@[simp] theorem Reed.branchTo_slot (s : Reed) (t : Nat) : (s.branchTo t).slot = s.slot := rfl
@[simp] theorem Reed.branchTo_vl (s : Reed) (t : Nat) : (s.branchTo t).vl = s.vl := rfl
@[simp] theorem Reed.branchTo_enProduced (s : Reed) (t : Nat) : (s.branchTo t).enProduced = s.enProduced := rfl
@[simp] theorem Reed.branchTo_enConsumed (s : Reed) (t : Nat) : (s.branchTo t).enConsumed = s.enConsumed := rfl
@[simp] theorem Reed.branchTo_trapAction (s : Reed) (t : Nat) : (s.branchTo t).trapAction = s.trapAction := rfl
@[simp] theorem Reed.branchTo_trapCount (s : Reed) (t : Nat) : (s.branchTo t).trapCount = s.trapCount := rfl
@[simp] theorem Reed.branchTo_trapRec (s : Reed) (t : Nat) : (s.branchTo t).trapRec = s.trapRec := rfl
@[simp] theorem Reed.branchTo_rngMode (s : Reed) (t : Nat) : (s.branchTo t).rngMode = s.rngMode := rfl
@[simp] theorem Reed.branchTo_faultInfo (s : Reed) (t : Nat) : (s.branchTo t).faultInfo = s.faultInfo := rfl
@[simp] theorem Reed.branchTo_edgePut (s : Reed) (t : Nat) : (s.branchTo t).edgePut = s.edgePut := rfl
@[simp] theorem Reed.branchTo_edgeGet (s : Reed) (t : Nat) : (s.branchTo t).edgeGet = s.edgeGet := rfl
@[simp] theorem Reed.branchTo_cycles (s : Reed) (t : Nat) : (s.branchTo t).cycles = s.cycles := rfl
@[simp] theorem Reed.branchTo_fullq (s : Reed) (t : Nat) : (s.branchTo t).fullq = s.fullq := rfl
@[simp] theorem Reed.branchTo_portStalls (s : Reed) (t : Nat) : (s.branchTo t).portStalls = s.portStalls := rfl
@[simp] theorem Reed.branchTo_ibuf (s : Reed) (t : Nat) : (s.branchTo t).ibuf = s.ibuf := rfl
@[simp] theorem Reed.branchTo_sp (s : Reed) (t : Nat) : (s.branchTo t).sp = s.sp := rfl
@[simp] theorem Reed.branchTo_bank (s : Reed) (t : Nat) : (s.branchTo t).bank = s.bank := rfl
@[simp] theorem Reed.branchTo_cache (s : Reed) (t : Nat) : (s.branchTo t).cache = s.cache := rfl
@[simp] theorem Reed.branchTo_qmx (s : Reed) (t : Nat) : (s.branchTo t).qmx = s.qmx := rfl
@[simp] theorem Reed.branchTo_qvx (s : Reed) (t : Nat) : (s.branchTo t).qvx = s.qvx := rfl
@[simp] theorem Reed.branchTo_qld (s : Reed) (t : Nat) : (s.branchTo t).qld = s.qld := rfl
@[simp] theorem Reed.branchTo_qst (s : Reed) (t : Nat) : (s.branchTo t).qst = s.qst := rfl
@[simp] theorem Reed.branchTo_qxp (s : Reed) (t : Nat) : (s.branchTo t).qxp = s.qxp := rfl
@[simp] theorem Reed.branchTo_qxg (s : Reed) (t : Nat) : (s.branchTo t).qxg = s.qxg := rfl
@[simp] theorem Reed.branchTo_sums (s : Reed) (t : Nat) : (s.branchTo t).sums = s.sums := rfl
@[simp] theorem Reed.branchTo_rxN (s : Reed) (t : Nat) : (s.branchTo t).rxN = s.rxN := rfl
@[simp] theorem Reed.branchTo_rxE (s : Reed) (t : Nat) : (s.branchTo t).rxE = s.rxE := rfl
@[simp] theorem Reed.branchTo_rxS (s : Reed) (t : Nat) : (s.branchTo t).rxS = s.rxS := rfl
@[simp] theorem Reed.branchTo_rxW (s : Reed) (t : Nat) : (s.branchTo t).rxW = s.rxW := rfl
@[simp] theorem Reed.branchTo_hold (s : Reed) (t : Nat) : (s.branchTo t).hold = s.hold := rfl
@[simp] theorem Reed.branchTo_ended (s : Reed) (t : Nat) : (s.branchTo t).ended = s.ended := rfl
@[simp] theorem Reed.branchTo_ord (s : Reed) (t : Nat) : (s.branchTo t).ord = s.ord := rfl
@[simp] theorem Reed.branchTo_seqNo (s : Reed) (t : Nat) : (s.branchTo t).seqNo = s.seqNo := rfl

/-! ### `Reed.atEntry` -/

@[simp] theorem Reed.atEntry_st (s : Reed) : s.atEntry.st = s.st := rfl
@[simp] theorem Reed.atEntry_regs (s : Reed) : s.atEntry.regs = s.regs := rfl
@[simp] theorem Reed.atEntry_entry (s : Reed) : s.atEntry.entry = s.entry := rfl
@[simp] theorem Reed.atEntry_slot (s : Reed) : s.atEntry.slot = s.slot := rfl
@[simp] theorem Reed.atEntry_vl (s : Reed) : s.atEntry.vl = s.vl := rfl
@[simp] theorem Reed.atEntry_enProduced (s : Reed) : s.atEntry.enProduced = s.enProduced := rfl
@[simp] theorem Reed.atEntry_enConsumed (s : Reed) : s.atEntry.enConsumed = s.enConsumed := rfl
@[simp] theorem Reed.atEntry_trapAction (s : Reed) : s.atEntry.trapAction = s.trapAction := rfl
@[simp] theorem Reed.atEntry_trapCount (s : Reed) : s.atEntry.trapCount = s.trapCount := rfl
@[simp] theorem Reed.atEntry_trapRec (s : Reed) : s.atEntry.trapRec = s.trapRec := rfl
@[simp] theorem Reed.atEntry_rngMode (s : Reed) : s.atEntry.rngMode = s.rngMode := rfl
@[simp] theorem Reed.atEntry_faultInfo (s : Reed) : s.atEntry.faultInfo = s.faultInfo := rfl
@[simp] theorem Reed.atEntry_edgePut (s : Reed) : s.atEntry.edgePut = s.edgePut := rfl
@[simp] theorem Reed.atEntry_edgeGet (s : Reed) : s.atEntry.edgeGet = s.edgeGet := rfl
@[simp] theorem Reed.atEntry_cycles (s : Reed) : s.atEntry.cycles = s.cycles := rfl
@[simp] theorem Reed.atEntry_fullq (s : Reed) : s.atEntry.fullq = s.fullq := rfl
@[simp] theorem Reed.atEntry_portStalls (s : Reed) : s.atEntry.portStalls = s.portStalls := rfl
@[simp] theorem Reed.atEntry_ibuf (s : Reed) : s.atEntry.ibuf = s.ibuf := rfl
@[simp] theorem Reed.atEntry_sp (s : Reed) : s.atEntry.sp = s.sp := rfl
@[simp] theorem Reed.atEntry_bank (s : Reed) : s.atEntry.bank = s.bank := rfl
@[simp] theorem Reed.atEntry_cache (s : Reed) : s.atEntry.cache = s.cache := rfl
@[simp] theorem Reed.atEntry_qmx (s : Reed) : s.atEntry.qmx = s.qmx := rfl
@[simp] theorem Reed.atEntry_qvx (s : Reed) : s.atEntry.qvx = s.qvx := rfl
@[simp] theorem Reed.atEntry_qld (s : Reed) : s.atEntry.qld = s.qld := rfl
@[simp] theorem Reed.atEntry_qst (s : Reed) : s.atEntry.qst = s.qst := rfl
@[simp] theorem Reed.atEntry_qxp (s : Reed) : s.atEntry.qxp = s.qxp := rfl
@[simp] theorem Reed.atEntry_qxg (s : Reed) : s.atEntry.qxg = s.qxg := rfl
@[simp] theorem Reed.atEntry_sums (s : Reed) : s.atEntry.sums = s.sums := rfl
@[simp] theorem Reed.atEntry_rxN (s : Reed) : s.atEntry.rxN = s.rxN := rfl
@[simp] theorem Reed.atEntry_rxE (s : Reed) : s.atEntry.rxE = s.rxE := rfl
@[simp] theorem Reed.atEntry_rxS (s : Reed) : s.atEntry.rxS = s.rxS := rfl
@[simp] theorem Reed.atEntry_rxW (s : Reed) : s.atEntry.rxW = s.rxW := rfl
@[simp] theorem Reed.atEntry_ord (s : Reed) : s.atEntry.ord = s.ord := rfl
@[simp] theorem Reed.atEntry_seqNo (s : Reed) : s.atEntry.seqNo = s.seqNo := rfl

/-! ### `Reed.clearTraps` -/

@[simp] theorem Reed.clearTraps_st (s : Reed) : s.clearTraps.st = s.st := rfl
@[simp] theorem Reed.clearTraps_regs (s : Reed) : s.clearTraps.regs = s.regs := rfl
@[simp] theorem Reed.clearTraps_loops (s : Reed) : s.clearTraps.loops = s.loops := rfl
@[simp] theorem Reed.clearTraps_index (s : Reed) : s.clearTraps.index = s.index := rfl
@[simp] theorem Reed.clearTraps_entry (s : Reed) : s.clearTraps.entry = s.entry := rfl
@[simp] theorem Reed.clearTraps_slot (s : Reed) : s.clearTraps.slot = s.slot := rfl
@[simp] theorem Reed.clearTraps_vl (s : Reed) : s.clearTraps.vl = s.vl := rfl
@[simp] theorem Reed.clearTraps_enProduced (s : Reed) : s.clearTraps.enProduced = s.enProduced := rfl
@[simp] theorem Reed.clearTraps_enConsumed (s : Reed) : s.clearTraps.enConsumed = s.enConsumed := rfl
@[simp] theorem Reed.clearTraps_trapAction (s : Reed) : s.clearTraps.trapAction = s.trapAction := rfl
@[simp] theorem Reed.clearTraps_rngMode (s : Reed) : s.clearTraps.rngMode = s.rngMode := rfl
@[simp] theorem Reed.clearTraps_faultInfo (s : Reed) : s.clearTraps.faultInfo = s.faultInfo := rfl
@[simp] theorem Reed.clearTraps_edgePut (s : Reed) : s.clearTraps.edgePut = s.edgePut := rfl
@[simp] theorem Reed.clearTraps_edgeGet (s : Reed) : s.clearTraps.edgeGet = s.edgeGet := rfl
@[simp] theorem Reed.clearTraps_cycles (s : Reed) : s.clearTraps.cycles = s.cycles := rfl
@[simp] theorem Reed.clearTraps_fullq (s : Reed) : s.clearTraps.fullq = s.fullq := rfl
@[simp] theorem Reed.clearTraps_portStalls (s : Reed) : s.clearTraps.portStalls = s.portStalls := rfl
@[simp] theorem Reed.clearTraps_counting (s : Reed) : s.clearTraps.counting = s.counting := rfl
@[simp] theorem Reed.clearTraps_ibuf (s : Reed) : s.clearTraps.ibuf = s.ibuf := rfl
@[simp] theorem Reed.clearTraps_sp (s : Reed) : s.clearTraps.sp = s.sp := rfl
@[simp] theorem Reed.clearTraps_bank (s : Reed) : s.clearTraps.bank = s.bank := rfl
@[simp] theorem Reed.clearTraps_cache (s : Reed) : s.clearTraps.cache = s.cache := rfl
@[simp] theorem Reed.clearTraps_qmx (s : Reed) : s.clearTraps.qmx = s.qmx := rfl
@[simp] theorem Reed.clearTraps_qvx (s : Reed) : s.clearTraps.qvx = s.qvx := rfl
@[simp] theorem Reed.clearTraps_qld (s : Reed) : s.clearTraps.qld = s.qld := rfl
@[simp] theorem Reed.clearTraps_qst (s : Reed) : s.clearTraps.qst = s.qst := rfl
@[simp] theorem Reed.clearTraps_qxp (s : Reed) : s.clearTraps.qxp = s.qxp := rfl
@[simp] theorem Reed.clearTraps_qxg (s : Reed) : s.clearTraps.qxg = s.qxg := rfl
@[simp] theorem Reed.clearTraps_sums (s : Reed) : s.clearTraps.sums = s.sums := rfl
@[simp] theorem Reed.clearTraps_rxN (s : Reed) : s.clearTraps.rxN = s.rxN := rfl
@[simp] theorem Reed.clearTraps_rxE (s : Reed) : s.clearTraps.rxE = s.rxE := rfl
@[simp] theorem Reed.clearTraps_rxS (s : Reed) : s.clearTraps.rxS = s.rxS := rfl
@[simp] theorem Reed.clearTraps_rxW (s : Reed) : s.clearTraps.rxW = s.rxW := rfl
@[simp] theorem Reed.clearTraps_hold (s : Reed) : s.clearTraps.hold = s.hold := rfl
@[simp] theorem Reed.clearTraps_ended (s : Reed) : s.clearTraps.ended = s.ended := rfl
@[simp] theorem Reed.clearTraps_ord (s : Reed) : s.clearTraps.ord = s.ord := rfl
@[simp] theorem Reed.clearTraps_seqNo (s : Reed) : s.clearTraps.seqNo = s.seqNo := rfl

/-! ### Reading back -/

@[simp] theorem State.port_setPort (s : State) (p : PortIx) (x : Port) : (s.setPort p x).port p = x := by cases p <;> rfl

theorem State.port_setPort_ne (s : State) (p q : PortIx) (x : Port) (h : q ≠ p) : (s.setPort p x).port q = s.port q := by
  cases p <;> cases q <;> first | rfl | exact absurd rfl h

@[simp] theorem State.port_modPort (s : State) (p : PortIx) (f : Port → Port) : (s.modPort p f).port p = f (s.port p) :=
  State.port_setPort s p _

theorem State.port_modPort_ne (s : State) (p q : PortIx) (f : Port → Port) (h : q ≠ p) : (s.modPort p f).port q = s.port q :=
  State.port_setPort_ne s p q _ h

@[simp] theorem State.sheaf_setSheaf (s : State) (g : Nat) (x : Sheaf) : (s.setSheaf g x).sheaf g = x :=
  KMap.get_put_self _ _ _ _

theorem State.sheaf_setSheaf_ne (s : State) (g k : Nat) (x : Sheaf) (h : k ≠ g) : (s.setSheaf g x).sheaf k = s.sheaf k :=
  KMap.get_put_ne _ _ _ _ _ h

@[simp] theorem State.sheaf_modSheaf (s : State) (g : Nat) (f : Sheaf → Sheaf) : (s.modSheaf g f).sheaf g = f (s.sheaf g) :=
  KMap.get_put_self _ _ _ _

theorem State.sheaf_modSheaf_ne (s : State) (g k : Nat) (f : Sheaf → Sheaf) (h : k ≠ g) : (s.modSheaf g f).sheaf k = s.sheaf k :=
  KMap.get_put_ne _ _ _ _ _ h

@[simp] theorem Sheaf.reed_setReed (x : Sheaf) (l : Nat) (r : Reed) : (x.setReed l r).reed l = r := KMap.get_put_self _ _ _ _

theorem Sheaf.reed_setReed_ne (x : Sheaf) (l k : Nat) (r : Reed) (h : k ≠ l) : (x.setReed l r).reed k = x.reed k :=
  KMap.get_put_ne _ _ _ _ _ h

/-- A sheaf after one of its reeds was set. -/
theorem State.sheaf_setReed (s : State) (r g : Nat) (x : Reed) :
    (s.setReed r x).sheaf g = if g = r / 4096 then (s.sheaf g).setReed (r % 4096) x else s.sheaf g := by
  unfold State.setReed
  split
  · next h => subst h; exact State.sheaf_modSheaf _ _ _
  · next h => exact State.sheaf_modSheaf_ne _ _ _ _ h

@[simp] theorem State.reed_setReed (s : State) (r : Nat) (x : Reed) : (s.setReed r x).reed r = x := by
  simp [State.reed, State.sheaf_setReed]

theorem State.reed_setReed_ne (s : State) (r q : Nat) (x : Reed) (h : q ≠ r) : (s.setReed r x).reed q = s.reed q := by
  unfold State.reed
  rw [State.sheaf_setReed]
  split
  · next hg => exact Sheaf.reed_setReed_ne _ _ _ _ (by omega)
  · rfl

@[simp] theorem State.reed_modReed (s : State) (r : Nat) (f : Reed → Reed) : (s.modReed r f).reed r = f (s.reed r) :=
  State.reed_setReed s r _

theorem State.reed_modReed_ne (s : State) (r q : Nat) (f : Reed → Reed) (h : q ≠ r) : (s.modReed r f).reed q = s.reed q :=
  State.reed_setReed_ne s r q _ h

/-- A change of a sheaf that leaves its reeds alone leaves every reed alone. -/
theorem State.reed_modSheaf (s : State) (g q : Nat) (f : Sheaf → Sheaf) (h : (f (s.sheaf g)).reeds = (s.sheaf g).reeds) :
    (s.modSheaf g f).reed q = s.reed q := by
  unfold State.reed Sheaf.reed
  by_cases hg : q / 4096 = g
  · subst hg; rw [State.sheaf_modSheaf, h]
  · rw [State.sheaf_modSheaf_ne _ _ _ _ hg]

@[simp] theorem State.tx_modTx (s : State) (ch : Nat) (f : TxChan → TxChan) : (s.modTx ch f).tx ch = f (s.tx ch) :=
  KMap.get_put_self _ _ _ _

theorem State.tx_modTx_ne (s : State) (ch k : Nat) (f : TxChan → TxChan) (h : k ≠ ch) : (s.modTx ch f).tx k = s.tx k :=
  KMap.get_put_ne _ _ _ _ _ h

@[simp] theorem State.rx_modTx (s : State) (ch k : Nat) (f : TxChan → TxChan) : (s.modTx ch f).rx k = s.rx k := rfl

@[simp] theorem State.rx_modRx (s : State) (ch : Nat) (f : RxChan → RxChan) : (s.modRx ch f).rx ch = f (s.rx ch) :=
  KMap.get_put_self _ _ _ _

theorem State.rx_modRx_ne (s : State) (ch k : Nat) (f : RxChan → RxChan) (h : k ≠ ch) : (s.modRx ch f).rx k = s.rx k :=
  KMap.get_put_ne _ _ _ _ _ h

@[simp] theorem State.tx_modRx (s : State) (ch k : Nat) (f : RxChan → RxChan) : (s.modRx ch f).tx k = s.tx k := rfl

theorem State.eave_modEave (s : State) (e : Nat) (f : Eave → Eave) (h : e < 8) : (s.modEave e f).eave e = f (s.eave e) := by
  simp [State.eave, State.modEave, h]

theorem State.eave_modEave_ne (s : State) (e k : Nat) (f : Eave → Eave) (h : k ≠ e) : (s.modEave e f).eave k = s.eave k := by
  simp [State.eave, State.modEave, Vector.getElem?_toList, Ne.symm h]

/-! ### Memory keeps its canonical form -/

theorem Memory.wf_reset : Memory.wf State.reset.mem.bytes = true := rfl

theorem Memory.wf_put (m : KMap Byte) (a : Nat) (b : Byte) (h : Memory.wf m = true) : Memory.wf (KMap.put 0 m a b) = true :=
  KMap.wf_put 0 m a b h

theorem Memory.wf_write (m : KMap Byte) (a : Nat) (bs : List Byte) (h : Memory.wf m = true) : Memory.wf (KMap.write m a bs) = true :=
  KMap.wf_write m a bs h

theorem Memory.wf_storeBytes (s : State) (ws : List (Nat × Byte)) (h : Memory.wf s.mem.bytes = true) :
    Memory.wf (s.storeBytes ws).mem.bytes = true :=
  KMap.wf_foldl 0 ws _ _ h (fun m b hm => KMap.wf_put 0 m b.1 b.2 hm)

end Sys2Proof.Machine
end

