-- ==== Sys2Proof/Laws/Replies.lean ====
section
/-!
SUPPORT. What writing replies and events can change: the holding stores, the fabric's outgoing messages, the sideband, free
values drawn, the lodge's records of replies and watches, and the network domains called on the way; nothing else.
-/

namespace Sys2Proof.Machine

theorem calledOnly_refl (v : Vector Dom 16) : calledOnly v v := fun _ => .inl rfl

theorem calledOnly_trans {u v w : Vector Dom 16} (h : calledOnly u v) (k : calledOnly v w) : calledOnly u w := by
  intro d
  rcases h d with h | ⟨h1, h2⟩ <;> rcases k d with k | ⟨k1, k2⟩
  · exact .inl (k.trans h)
  · exact .inr ⟨h ▸ k1, k2⟩
  · exact .inr ⟨h1, k.trans h2⟩
  · rw [h2] at k1
    exact absurd k1 (by decide)

theorem calledOnly_set (v : Vector Dom 16) (d : Nat) (h : v.toList[d]? = some .sleeping) :
    calledOnly v (v.setIfInBounds d .powering) := by
  intro e
  have hd : d < v.toList.length := (List.getElem?_eq_some_iff.mp h).1
  rw [Vector.toList_setIfInBounds, List.getElem?_set]
  by_cases he : d = e
  · subst he
    have hd' : d < 16 := by simpa using hd
    exact .inr ⟨h, by simp [hd']⟩
  · exact .inl (by simp [he])

theorem calledOnly_foldl (l : List Nat) (v : Vector Dom 16) :
    calledOnly v (l.foldl (fun v d => if v.toList[d]? = some .sleeping then v.setIfInBounds d .powering else v) v) := by
  induction l generalizing v with
  | nil => exact calledOnly_refl v
  | cons d t ih =>
    refine calledOnly_trans ?_ (ih _)
    dsimp only
    split
    · next h => exact calledOnly_set v d h
    · exact calledOnly_refl v

theorem onlyReplied_refl (s : State) : onlyReplied s s := ⟨rfl, rfl, rfl, rfl, rfl, ⟨⟨rfl, rfl⟩, calledOnly_refl _⟩, rfl, rfl, rfl, rfl, rfl⟩

/-- Calling the dies on a packet's way (R428). -/
theorem onlyReplied_callDies (s : State) (l : List Nat) : onlyReplied s (s.callDies l) :=
  ⟨rfl, rfl, rfl, rfl, rfl, ⟨⟨rfl, rfl⟩, calledOnly_foldl l _⟩, rfl, rfl, rfl, rfl, rfl⟩

theorem onlyReplied_trans {s t u : State} (h : onlyReplied s t) (k : onlyReplied t u) : onlyReplied s u := by
  obtain ⟨h1, h2, h3, h4, h5, ⟨h6, m⟩, h7, h8, h9, h10, h11⟩ := h
  obtain ⟨k1, k2, k3, k4, k5, ⟨k6, n⟩, k7, k8, k9, k10, k11⟩ := k
  exact ⟨k1.trans h1, k2.trans h2, k3.trans h3, k4.trans h4, k5.trans h5, ⟨⟨k6.1.trans h6.1, k6.2.trans h6.2⟩, calledOnly_trans m n⟩, k7.trans h7, k8.trans h8,
    k9.trans h9, k10.trans h10, k11.trans h11⟩

theorem onlyReplied_foldl {α : Type} (l : List α) (f : State → α → State) (hf : ∀ s a, onlyReplied s (f s a)) (s : State) :
    onlyReplied s (l.foldl f s) := by
  induction l generalizing s with
  | nil => exact onlyReplied_refl s
  | cons a t ih => exact onlyReplied_trans (hf s a) (ih _)

theorem onlyReplied_modPort (s : State) (p : PortIx) (f : Port → Port) : onlyReplied s (s.modPort p f) := by
  unfold onlyReplied
  simp [calledOnly_refl]

/-- A change of the fabric beside its table and address. -/
theorem onlyReplied_fabric (s : State) (f : Fabric) (h1 : f.table = s.fabric.table) (h2 : f.address = s.fabric.address) :
    onlyReplied s { s with fabric := f } := ⟨rfl, rfl, rfl, rfl, rfl, ⟨⟨rfl, rfl⟩, calledOnly_refl _⟩, rfl, rfl, rfl, h1, h2⟩

theorem onlyReplied_record (s : State) (m : OutMsg) : onlyReplied s (s.record m) := onlyReplied_refl s

theorem onlyReplied_txFrame (s : State) (ch : Nat) (f : LinkFrame) : onlyReplied s (txFrame s ch f) := onlyReplied_refl s

theorem onlyReplied_answerLink (s : State) (ch : Nat) (nack park : Bool) (credit : Nat) (cvl : Byte) :
    onlyReplied s (answerLink s ch nack park credit cvl) := by
  unfold answerLink
  dsimp only
  generalize (if ch < 5 then some ch else _ : Option Nat) = out
  cases out <;> exact onlyReplied_refl s

theorem onlyReplied_creditBack (s : State) (f : LinkFrame) (b : Option (Nat × Byte)) : onlyReplied s (creditBack s f b) := by
  cases b with
  | none => exact onlyReplied_refl s
  | some b => exact onlyReplied_answerLink s _ _ _ _ _

theorem onlyReplied_spendRound (s : State) (course : Nat) (peer : W32) (cls : Nat) :
    onlyReplied s (spendRound s course peer cls) := by
  unfold spendRound
  split <;> exact onlyReplied_refl s

/-- A frame leaves (R327): the channel, its queue and the round alone change. -/
theorem onlyReplied_launch (s : State) (course : Nat) (peer : W32) (q : QFrame) (ch : Nat) :
    onlyReplied s (launch s course peer q ch) := by
  unfold launch
  refine onlyReplied_trans (onlyReplied_spendRound s course peer (frameClass q.frame)) (onlyReplied_trans ?_ (onlyReplied_creditBack _ _ _))
  exact onlyReplied_trans (onlyReplied_fabric _ _ rfl rfl) (onlyReplied_txFrame _ _ _)

theorem onlyReplied_serve (n : Nat) (s : State) (course : Nat) (peer : W32) : onlyReplied s (serve n s course peer) := by
  induction n generalizing s with
  | zero => exact onlyReplied_refl s
  | succ n ih =>
    unfold serve
    split
    · exact onlyReplied_trans (onlyReplied_launch s _ _ _ _) (ih _)
    · exact onlyReplied_refl s

theorem onlyReplied_queueFrame (s : State) (course : Nat) (peer : W32) (q : QFrame) :
    onlyReplied s (queueFrame s course peer q) :=
  onlyReplied_trans (onlyReplied_fabric s _ rfl rfl) (onlyReplied_serve _ _ _ _)

/-- A frame starts on its route, or waits for one (R331, R335). -/
theorem onlyReplied_sendOn_getD (s : State) (old : Option (Nat × W32)) (q : QFrame) :
    onlyReplied s ((sendOn s old q).getD (waitFrame s q)) := by
  unfold sendOn
  dsimp only
  repeat' split
  · exact onlyReplied_queueFrame s _ _ _
  all_goals exact onlyReplied_refl s

theorem onlyReplied_postMsg (s : State) (allot : W16) (dest : W32) (ftype : Byte) (cls : Nat) (bs : List Byte) :
    onlyReplied s (postMsg s allot dest ftype cls bs) := by
  unfold postMsg
  split
  · exact onlyReplied_refl s
  · exact onlyReplied_trans (onlyReplied_fabric s _ rfl rfl) (onlyReplied_foldl _ _ (fun s _ => onlyReplied_sendOn_getD s _ _) _)

theorem onlyReplied_send (s : State) (m : OutMsg) : onlyReplied s (s.send m) := by
  refine onlyReplied_trans (onlyReplied_record s m) ?_
  unfold State.send OutMsg.post
  split <;> first | exact onlyReplied_postMsg _ _ _ _ _ _ | exact onlyReplied_refl _

theorem onlyReplied_fresh (s : State) : onlyReplied s s.fresh.2 := onlyReplied_refl s

theorem onlyReplied_taken (s : State) : onlyReplied s s.taken := onlyReplied_refl s

/-- An event goes to the stores of the ports, over the dies between (R70 to R72, R428). -/
theorem onlyReplied_event (s : State) (e : Ev) : onlyReplied s (s.event e) :=
  onlyReplied_trans (onlyReplied_callDies s _)
    (onlyReplied_foldl _ _ (fun s _ => onlyReplied_trans (onlyReplied_callDies s _) (onlyReplied_modPort _ _ _)) _)

theorem onlyReplied_moduleEvent (s : State) (opcode group : Nat) (st : Status) (detail : List Byte) :
    onlyReplied s (s.moduleEvent opcode group st detail) := onlyReplied_event s _

/-- A reply goes to a port's store, to the lodge while that store is full, over the fabric, or to the sideband (R60, R66, R75). -/
theorem onlyReplied_sendReply (s : State) (h : Hdr) (c : Instr) (k : OutPkt) : onlyReplied s (s.sendReply h c k) := by
  unfold State.sendReply
  dsimp only
  split
  · split
    · exact onlyReplied_refl s
    · next p _ _ =>
      have h := onlyReplied_callDies s (portDies p)
      split
      · exact onlyReplied_trans h (onlyReplied_modPort _ _ _)
      · exact h
  · split
    · exact onlyReplied_refl s
    · exact onlyReplied_trans (onlyReplied_callDies s _) (onlyReplied_send _ _)
  · split <;> exact onlyReplied_refl s

theorem onlyReplied_reply (s : State) (id : Nat) (c : Instr) (st : Status) (u : UState) (payload : List Byte) :
    onlyReplied s (s.reply id c st u payload) := by
  unfold State.reply
  split
  · exact onlyReplied_sendReply s _ _ _
  · exact onlyReplied_refl s

theorem onlyReplied_finishModule (s : State) (id : Nat) (c : Instr) (st : Status) (payload : List Byte) :
    onlyReplied s (finishModule s id c st payload) := by
  unfold finishModule
  split
  · exact onlyReplied_reply s _ _ _ _ _
  · exact onlyReplied_refl s

theorem onlyReplied_refuseUnit (s : State) (id : Nat) (c : Instr) (h : Hdr) (d : UnitDef) (r : Refuse) :
    onlyReplied s (refuseUnit s id c h d r) :=
  onlyReplied_trans (onlyReplied_callDies s _) (onlyReplied_reply _ _ _ _ _ _)

theorem onlyReplied_combinedState (s : State) (c : List Nat) : onlyReplied s (s.combinedState c).2 := by
  unfold State.combinedState
  split <;> exact onlyReplied_refl s

theorem onlyReplied_holdModule (s : State) (id : Nat) (c : Instr) (st : Status) (payload : List Byte) :
    onlyReplied s (holdModule s id c st payload) := by
  unfold holdModule holdFor
  split <;> exact onlyReplied_refl s

/-- The combined reply of a unit command (R46 to R48). -/
theorem onlyReplied_finishUnit (s : State) (d : UnitDef) (o : Op) : onlyReplied s (finishUnit s d o) := by
  unfold finishUnit
  dsimp only
  have h := onlyReplied_trans (onlyReplied_combinedState s (o.summary s d.level3).counts)
    (onlyReplied_reply (s.combinedState (o.summary s d.level3).counts).2 o.id o.cmd (o.summary s d.level3).status
      (s.combinedState (o.summary s d.level3).counts).1 ((o.summary s d.level3).bytes ++ d.payload o))
  split
  · exact h
  · exact h

theorem onlyReplied_concludeUnit (s : State) (d : UnitDef) (o : Op) : onlyReplied s (concludeUnit s d o) := by
  unfold concludeUnit
  split
  · exact onlyReplied_refl s
  · exact onlyReplied_finishUnit s d o

theorem onlyReplied_completionEvent (s : State) (w : Watch) : onlyReplied s (completionEvent s w) := by
  unfold completionEvent
  split
  · dsimp only
    refine onlyReplied_trans (onlyReplied_combinedState s (w.op.summary s false).counts) ?_
    split
    · exact onlyReplied_trans (onlyReplied_callDies _ _) (onlyReplied_send _ _)
    · exact onlyReplied_foldl _ _ (fun s _ => onlyReplied_trans (onlyReplied_callDies s _) (onlyReplied_modPort _ _ _)) _
  · exact onlyReplied_refl s

/-- Completion events that have fallen due (R80). -/
theorem onlyReplied_flushWatches (s : State) : onlyReplied s s.flushWatches :=
  onlyReplied_foldl _ _ (fun s w => onlyReplied_completionEvent s w)
    { s with lodge := { s.lodge with watches := s.lodge.watches.filter (fun w => !watchDue s w) } }

/-! ### A network domain wakes -/

theorem onlyReplied_serveEave (s : State) (e : Nat) : onlyReplied s (serveEave s e) := by
  refine onlyReplied_foldl _ _ (fun s k => ?_) s
  unfold serveChan
  split
  · exact onlyReplied_serve _ _ _ _
  · exact onlyReplied_refl s

/-- What waking network domains changes: the domains and their timers, the eaves whose links come back, and what their lanes then send;
nothing where none slept or was called. -/
def wokenOnly (s t : State) : Prop :=
  t.sheaves = s.sheaves ∧ t.mem = s.mem ∧ t.allots = s.allots ∧ t.modColls = s.modColls ∧ t.pow.rest = s.pow.rest ∧ t.boot = s.boot ∧
  t.tcweight = s.tcweight ∧ t.lodge.waiting = s.lodge.waiting ∧ t.fabric.table = s.fabric.table ∧ t.fabric.address = s.fabric.address ∧
  ((∀ d : Nat, s.pow.net.toList[d]? ≠ some .sleeping ∧ s.pow.net.toList[d]? ≠ some .powering) → t = s)

theorem wokenOnly_refl (s : State) : wokenOnly s s := ⟨rfl, rfl, rfl, rfl, rfl, rfl, rfl, rfl, rfl, rfl, fun _ => rfl⟩

theorem wokenOnly_trans {s t u : State} (h : wokenOnly s t) (k : wokenOnly t u) : wokenOnly s u := by
  obtain ⟨h1, h2, h3, h4, h5, h6, h7, h8, h9, h10, h11⟩ := h
  obtain ⟨k1, k2, k3, k4, k5, k6, k7, k8, k9, k10, k11⟩ := k
  refine ⟨k1.trans h1, k2.trans h2, k3.trans h3, k4.trans h4, k5.trans h5, k6.trans h6, k7.trans h7, k8.trans h8, k9.trans h9,
    k10.trans h10, fun hn => ?_⟩
  rw [h11 hn] at k11
  exact k11 hn

theorem wokenOnly_wakeNet (s : State) (d : Nat) : wokenOnly s (wakeNet s d) := by
  unfold wakeNet
  split
  · next h =>
    have hq : ¬ (∀ d : Nat, s.pow.net.toList[d]? ≠ some .sleeping ∧ s.pow.net.toList[d]? ≠ some .powering) := by
      intro hn
      have := hn d
      revert h this
      cases s.pow.net.toList[d]? with
      | none => simp
      | some v => cases v <;> simp
    dsimp only
    split
    · obtain ⟨h1, h2, h3, h4, -, ⟨h6, -⟩, h7, h8, h9, h10, h11⟩ := onlyReplied_serveEave ((State.modEave { s with pow := { s.pow with
        net := s.pow.net.setIfInBounds d .awake, netTimer := s.pow.netTimer.setIfInBounds d 0 } } (d / 2)
        (fun x => { x with linksDown := false })).judgeSideband) (d / 2)
      exact ⟨h1, h2, h3, h4, h6.2, h7, h8, h9, h10, h11, fun hn => absurd hn hq⟩
    · exact ⟨rfl, rfl, rfl, rfl, rfl, rfl, rfl, rfl, rfl, rfl, fun hn => absurd hn hq⟩
  · exact wokenOnly_refl s

/-- The domains on the ways to a list of dies wake (R428). -/
theorem wokenOnly_wakeRoute {α : Type} (l : List α) (f : α → Nat) (s : State) :
    wokenOnly s (l.foldl (fun s a => wakeRoute s (f a)) s) := by
  induction l generalizing s with
  | nil => exact wokenOnly_refl s
  | cons a l ih =>
    refine wokenOnly_trans (?_ : wokenOnly s ((feedRoute lodgeFeed (f a)).foldl wakeNet s)) (ih _)
    generalize feedRoute lodgeFeed (f a) = k
    clear ih
    induction k generalizing s with
    | nil => exact wokenOnly_refl s
    | cons d k ih => exact wokenOnly_trans (wokenOnly_wakeNet s d) (ih _)

end Sys2Proof.Machine
end

