-- ==== Sys2Proof/Tests/Slice0.lean ====
section
/-!
SUPPORT. Tests of the model's author. First the well-formedness smoke: for each check of WellFormed.lean a command that it
refuses. Then, for every statement of Certificates/Slice0/Obligations.lean that has hypotheses, concrete states and operands
that meet them together, clause by clause; and a few steps whose expected result is written out from the spec.
-/

set_option Elab.async false

namespace Sys2Proof.Tests

open Sys2Proof.Machine

/-! ### Commands and states the tests use -/

/-- A header from port 0 as owner, the class that no allotment limits (R74, R405). -/
def hdrAt (path : BitVec 24) (slot : BitVec 4) : Hdr :=
  { src := .port .port0, priv := 2, path := path, allot := 0, slot := slot, mask := none, quiet := false, fence := false,
    irq := false, tag := 7 }
/-- A module command's header. -/
def hdrM : Hdr := hdrAt 0 0xF
/-- A header naming reed 0. -/
def hdrR : Hdr := hdrAt (reedPath 0) 0xF
/-- A header naming L3 sheaf 0. -/
def hdrG : Hdr := hdrAt (sheafPath 0) 0xF
/-- A header from the sideband. -/
def hdrS : Hdr := { hdrM with src := .sideband }

/-- A module that has been released, with its rails good and the links of both ports up (R416). -/
def up : State :=
  { State.reset with
    port0 := { Port.reset true with linkUp := true }, port1 := { Port.reset false with linkUp := true },
    pow := { Power.reset with main := true, stbyOk := true, pwrGood := true },
    boot := { Boot.reset with step := 8, ended := true, released := true } }
/-- `up` with port 0's reply ring enabled at host address 0x10000. -/
def upRing : State :=
  { up with port0 := { up.port0 with enable := true, replyBase := 0x10000, latchedBase := 0x10000 } }

/-- The lodges have heard of reed 0's state. -/
def heardOf (x : Reed) : Vector Census 5 :=
  Vector.replicate 5 { dom := none, reeds := if x.st = .idle then [] else [(0, x.st)] }
/-- A sheaf that is awake with one reed other than reset. -/
def sheafWith (x : Reed) : Sheaf := { Sheaf.reset with power := .awake, reeds := [(0, x)], census := heardOf x }
/-- `up` with sheaf 0 awake and reed 0 as given. -/
def withReed (x : Reed) : State := { up with sheaves := [(0, sheafWith x)] }
/-- Reed 0 awake, nothing else done. -/
def awake0 : State := withReed { Reed.reset with vl := 9 }

/-- An instruction from its eight fixed bytes and its three operand fields. -/
def ins (b0 b1 b2 b3 aux f1 f2 f3 : Nat) : BitVec 256 :=
  BitVec.ofNat 256 (b0 + 2 ^ 8 * b1 + 2 ^ 16 * b2 + 2 ^ 24 * b3 + 2 ^ 32 * aux + 2 ^ 64 * f1 + 2 ^ 128 * f2 + 2 ^ 192 * f3)
/-- A descriptor of one row (R127). -/
def row (base bytes : Nat) : Nat := base + 2 ^ 16 + 2 ^ 48 * bytes
/-- A reed that runs `w` next. -/
def runs (w : BitVec 256) : Reed := { Reed.reset with st := .running, ibuf := [(0, w)] }
/-- Reed 0 about to issue `w`. -/
def atIssue (w : BitVec 256) : State := withReed (runs w)
/-- Whether a check passes. -/
def passes {α β : Type} (e : Except α β) : Bool := match e with | .ok _ => true | .error _ => false

/-! ### Well-formedness: an ill-formed command for each check -/

theorem test_wf_nop_bytes : (Instr.nop hdrM [1, 2, 3]).wf = false := by decide
theorem test_wf_nop_length : (Instr.nop hdrM (List.replicate 65528 0)).wf = false := by
  simp only [Instr.wf, fitsLength, List.length_replicate]; decide
theorem test_wf_progLoad_image : (Instr.progLoad hdrR 0 2 0 0 [1]).wf = false := by decide
theorem test_wf_progLoad_noImage : (Instr.progLoad hdrR 1 1 0 0 [1]).wf = false := by decide
theorem test_wf_progLoad_length (img : List Byte) (h : img.length = 131072) :
    (Instr.progLoad hdrR 0 4096 0 0 img).wf = false := by
  simp [Instr.wf, fitsLength, h]
theorem test_wf_start : (Instr.start hdrR (List.replicate 256 0)).wf = false := by
  simp only [Instr.wf, List.length_replicate]; decide
theorem test_wf_spWrite : (Instr.spWrite hdrR 0 (List.replicate 65505 0)).wf = false := by
  simp only [Instr.wf, List.length_replicate]; decide
theorem test_wf_loftWrite : (Instr.loftWrite hdrG 0 (List.replicate 65513 0)).wf = false := by
  simp only [Instr.wf, List.length_replicate]; decide
theorem test_wf_fwStage : (Instr.fwStage hdrM 0 (List.replicate 65513 0)).wf = false := by
  simp only [Instr.wf, List.length_replicate]; decide
theorem test_wf_tensorMove : (Instr.tensorMove hdrM (List.replicate 256 ⟨0, 0, 0, 0, 0, 0, 0, 0, 0⟩)).wf = false := by
  simp only [Instr.wf, List.length_replicate]; decide
theorem test_wf_tensorDefine : (Instr.tensorDefine hdrM 1 0 (List.replicate 256 ⟨1, 0, 0, 0, 0⟩)).wf = false := by
  simp only [Instr.wf, List.length_replicate]; decide
theorem test_wf_allotCreate : (Instr.allotCreate hdrM 1 1 (List.replicate 16371 0)).wf = false := by
  simp only [Instr.wf, List.length_replicate]; decide
theorem test_wf_allotResize : (Instr.allotResize hdrM 1 0 1 (List.replicate 16371 0)).wf = false := by
  simp only [Instr.wf, List.length_replicate]; decide
theorem test_wf_topoDraw : (Instr.topoDraw hdrM 0 1 [4]).wf = false := by decide
theorem test_wf_colourMap_tx : (Instr.colourMapSet hdrM 0 ⟨0, 4, 1, [1], List.replicate 32 0xFF⟩).wf = false := by decide
theorem test_wf_colourMap_rx : (Instr.colourMapSet hdrM 0 ⟨0, 4, 1, List.replicate 32 0xFF, [1]⟩).wf = false := by decide
theorem test_wf_attest : (Instr.attest hdrM [1]).wf = false := by decide
theorem test_wf_keyRotate : (Instr.keyRotate hdrM [1]).wf = false := by decide
theorem test_wf_sideband : (Instr.sidebandPacket (List.replicate 4097 0)).wf = false := by
  simp only [Instr.wf, List.length_replicate]; decide

/-! ### Witnesses: the streams of the reeds -/

theorem witness_ScalarInstructionsComplete :
    issues (atIssue 0) 0 0 = true ∧ nopFlaw 0 (runs 0) = none ∧
    issues (atIssue (ins 1 3 0 0 9 0 0 0)) 0 (ins 1 3 0 0 9 0 0 0) = true ∧
      setiFlaw (ins 1 3 0 0 9 0 0 0) ((atIssue (ins 1 3 0 0 9 0 0 0)).reed 0) = none ∧
    issues (atIssue (ins 2 0x21 0x03 12 0 0 0 0)) 0 (ins 2 0x21 0x03 12 0 0 0 0) = true ∧
      aluFlaw (ins 2 0x21 0x03 12 0 0 0 0) ((atIssue (ins 2 0x21 0x03 12 0 0 0 0)).reed 0) = none ∧
    issues (atIssue (ins 3 5 3 0 0 (row 0x2FF0 16) 0 0)) 0 (ins 3 5 3 0 0 (row 0x2FF0 16) 0 0) = true ∧
      passes (wordOperand (ins 3 5 3 0 0 (row 0x2FF0 16) 0 0) (runs 0) 0xF0 false) = true ∧
    issues (atIssue (ins 4 0x50 3 0 0 (row 0x2FF0 16) 0 0)) 0 (ins 4 0x50 3 0 0 (row 0x2FF0 16) 0 0) = true ∧
      passes (wordOperand (ins 4 0x50 3 0 0 (row 0x2FF0 16) 0 0) (runs 0) 0x0F true) = true ∧
    waitsFor (runs 0).allQueued [(0x2FF0, 0x3000)] [] = false ∧ waitsFor (runs 0).allQueued [] [(0x2FF0, 0x3000)] = false ∧
    issues (atIssue (ins 5 4 1 0x21 0 0 0 0)) 0 (ins 5 4 1 0x21 0 0 0 0) = true ∧
      movrFlaw (ins 5 4 1 0x21 0 0 0 0) (runs 0) = none ∧ (reedReg (atIssue (ins 5 4 1 0x21 0 0 0 0)) 0 0x21).isSome = true ∧
    issues (atIssue (ins 6 0x40 0 0x28 0 0 0 0)) 0 (ins 6 0x40 0 0x28 0 0 0 0) = true ∧
      movwFlaw (ins 6 0x40 0 0x28 0 0 0 0) (runs 0) = none := by decide +kernel

/-- LOOP ending in the last entry, with a count of 0 and one of 3. -/
def loopW : BitVec 256 := ins 8 0x10 0 63 0 0 0 0
theorem witness_ControlInstructionsComplete :
    issues (atIssue loopW) 0 loopW = true ∧ loopFlaw loopW (runs loopW) = none ∧ (runs loopW).s (insByte loopW 1 / 16) = 0 ∧
    (let x := (runs loopW).setS 1 3
     issues (withReed x) 0 loopW = true ∧ loopFlaw loopW ((withReed x).reed 0) = none ∧
     ((withReed x).reed 0).s (insByte loopW 1 / 16) ≠ 0) ∧
    (let w := ins 9 0 0 63 0 0 0 0
     issues (atIssue w) 0 w = true ∧ brFlaw w (runs w) = none ∧ brTaken (insByte w 2 / 32) 0 0 = true) ∧
    (let w := ins 9 0 0x40 63 0 0 0 0
     issues (atIssue w) 0 w = true ∧ brFlaw w (runs w) = none ∧ brTaken (insByte w 2 / 32) 0 0 = false) ∧
    (let w := ins 10 0 0 0x1F 0 0 0 0
     issues (atIssue w) 0 w = true ∧ waitqFlaw w (runs w) = none ∧ queuesAtMost (runs w) (insByte w 3) (insByte w 2) = true) ∧
    (let w := ins 31 0 0 0 0 0 0 0
     issues (atIssue w) 0 w = true ∧ nopFlaw w (runs w) = none) := by decide +kernel

/-- A queued ACCZ, not started. -/
def acczQ : QEntry := engineEntry (atIssue 0) 0 (runs 0) (ins 0x42 0 0 0 0 0 0 0) ([], [])
theorem witness_ControlInstructionsComplete_waits :
    (let w := ins 10 0 0 0x1F 0 0 0 0
     let x := { runs w with qmx := [acczQ] }
     issues (withReed x) 0 w = true ∧ waitqFlaw w x = none ∧ queuesAtMost x (insByte w 3) (insByte w 2) = false) := by
  decide +kernel

theorem witness_StreamEventsComplete :
    (let s := withReed { runs 0 with hold := .waitq 0x1F 0 }
     (s.reed 0).hold = .waitq 0x1F 0 ∧ (s.reed 0).st = .running ∧ clockRuns s 0 = true ∧ queuesAtMost (s.reed 0) 0x1F 0 = true) ∧
    (let s := withReed { runs 0 with ended := true }
     (s.sheaf 0).stOf 0 = .running ∧ (s.reed 0).ended = true ∧ (s.reed 0).queuesEmpty = true) ∧
    (awake0.sheaf 0).stOf 0 ∈ [UState.idle, .loaded, .paused, .faulted] ∧ (awake0.sheaf 0).power = .awake := by decide +kernel

theorem witness_HeldIssueProceeds :
    ∀ h ∈ [Hold.fullQueue, .depend, .fetch], let s := withReed { runs 0 with hold := h }
      issues s 0 0 = true ∧ (s.reed 0).hold = h ∧ insOpc 0 = 0x00 := by decide +kernel

/-- An instruction of each OPC that an engine takes, with no flaw. -/
def engineWords : List (BitVec 256 × IssueCheck × Reed) :=
  let v (f : State → Nat → BitVec 256 → Reed → VSpec) : IssueCheck := fun s r w x => vxCheck (f s r w x) w x
  let three := fun opc m => ins opc (m % 256) (m / 256 % 256) (m / 65536) 0 (row 0 32) (row 0x100 32) (row 0x200 32)
  let two := fun opc m => ins opc (m % 256) (m / 256 % 256) (m / 65536) 0 (row 0 32) 0 (row 0x200 32)
  [(ins 0x42 0 0 0 0 0 0 0, acczCheck, runs 0), (ins 0x43 0 0 0 0 (row 0 16) 0 0, accstCheck, runs 0),
   (three 0x60 0, v vewSpec, runs 0), (two 0x61 0, v redSpec, runs 0), (two 0x62 0, v redSpec, runs 0),
   (three 0x63 0, v redSpec, runs 0), (two 0x64 0, v wideSpec, runs 0),
   (ins 0x65 0 0 0 0 0 0 (row 0x200 32), v rngSpec, { runs 0 with rngMode := false }),
   (ins 0x66 0x10 0 0 0 (row 0 32) (row 0x100 32) (row 0x200 256), v optSpec, (runs 0).setS 1 0x400),
   (ins 0x67 0 0 0 0 (row 0 32) 0 0, v cacheSpec, runs 0), (ins 0x68 0 0 0 0 (row 0 32) 0 0, v cacheSpec, runs 0),
   (ins 0x81 0 0 0 0 0 0 0, pageCheck, runs 0), (ins 0xA0 0 0 0 0 (row 0 32) 0 0, lsCheck, runs 0),
   (ins 0xC0 1 0 0 0 (row 0 32) 0 0, xputCheck, runs 0), (ins 0xC1 1 0 0 0 (row 0 32) 0 0, xgetCheck, runs 0),
   (ins 0x40 0 0 0 4 (row 0 16) (row 0x100 16) 0, mmaCheck, runs 0),
   (ins 0x41 0 0 0 4 (row 0 16) (row 0x100 16) 0, mmaCheck, runs 0),
   (ins 0x80 0 0 0 0 (row 0 32) 0 0, lsCheck, runs 0)]
theorem witness_EngineInstructionsQueue_SampledInstructionsQueue :
    ∀ p ∈ engineWords, let s := withReed { p.2.2 with ibuf := [(0, p.1)] }
      issues s 0 p.1 = true ∧ passes (p.2.1 s 0 p.1 (s.reed 0)) = true ∧
      (List.range 6).all (fun k => decide ((s.reed 0).depth k < 8)) = true := by decide +kernel

theorem witness_StreamFaults :
    (let w := ins 2 0 0 13 0 0 0 0
     issues (atIssue w) 0 w = true ∧ (aluFlaw w ((atIssue w).reed 0)).isSome = true) ∧
    (let w := ins 0x07 0 0 0 0 0 0 0
     issues (atIssue w) 0 w = true ∧ ¬ opcodes.contains (insOpc w)) := by decide +kernel

/-- A queue entry of an instruction, as issue captures it. -/
def entryOf (x : Reed) (w : BitVec 256) : QEntry := engineEntry (withReed x) 0 x w ([], [])
/-- Reed 0 with one instruction in a queue. -/
def queued (e : Engine) (w : BitVec 256) (f : QEntry → QEntry) : State :=
  withReed ((runs 0).setQueue e [f (entryOf (runs 0) w)])
/-- Reed 0 with one instruction in a queue that runs. -/
def running (e : Engine) (w : BitVec 256) : State := queued e w (fun q => { q with started := true })
/-- The head of a queue of reed 0. -/
def headIs (s : State) (e : Engine) (p : QEntry → Bool) : Bool :=
  match (s.reed 0).queue e with | q :: _ => clockRuns s 0 && p q | [] => false

/-- A VEW ADD of FP32 values. -/
def addW : BitVec 256 := ins 0x60 0 0 0 0 (row 0 32) (row 0x100 32) (row 0x200 32)
def stW : BitVec 256 := ins 0xA0 0 0 0 0 (row 0 32) 0 0
def ldW : BitVec 256 := ins 0x80 0 0 0 0 (row 0 32) 0 0
def putW : BitVec 256 := ins 0xC0 1 0 0 0 (row 0 32) 0 0
def getW : BitVec 256 := ins 0xC1 1 0 0 0 (row 0 32) 0 0

theorem witness_EngineStepsComplete_start :
    ∀ p ∈ [(Engine.mx, ins 0x42 0 0 0 0 0 0 0), (.vx, addW), (.st, stW), (.ld, ldW), (.xput, putW), (.xget, getW)],
      let s := queued p.1 p.2 (fun q => q)
      headIs s p.1 (fun q => !q.started && !headWaits (s.reed 0) q &&
        (startFlaw s 0 (s.reed 0) (readView (s.reed 0) q)).isNone) = true := by decide +kernel

/-- A load from the first byte after the loft is out of bounds when it starts (R239). -/
theorem witness_EngineStepsComplete_flaw :
    let s := queued .ld (ins 0x80 0 0 0 0 (row 0 32) 0x1FFFFFFFFF0 0) (fun q => q)
    headIs s .ld (fun q => !q.started && !headWaits (s.reed 0) q &&
      (startFlaw s 0 (s.reed 0) (readView (s.reed 0) q)).isSome) = true := by decide +kernel

theorem witness_EngineStepsComplete_end :
    ∀ p ∈ [(Engine.mx, ins 0x42 0 0 0 0 0 0 0), (.vx, addW), (.ld, ldW), (.st, stW)],
      let s := running p.1 p.2
      headIs s p.1 (fun q => q.started && workDone q && decide (engineTraps s 0 q = []) && decide (q.progress = 0)) = true := by
  decide +kernel

theorem witness_EngineStepsComplete_pieces :
    (∀ p ∈ [(Engine.xput, putW), (.xget, getW)], let s := queued p.1 p.2 (fun q => { q with started := true, progress := 32 })
      headIs s p.1 (fun q => q.started && workDone q && decide (engineTraps s 0 q = [])) = true) ∧
    (let s := queued .st stW (fun q => { q with started := true, progress := 1 })
     headIs s .st (fun q => q.started && decide (q.progress = 1) && decide (engineTraps s 0 q = [])) = true) := by
  decide +kernel

/-- Two infinities of opposite sign, added (R219). -/
def infSum (act : Bool) : State :=
  let x := { runs 0 with sp := KMap.write (KMap.write [] 0 (leBytes 4 0x7F800000)) 0x100 (leBytes 4 0xFF800000) }
  withReed (x.setQueue .vx [{ entryOf x addW with started := true, trapAction := act }])
theorem witness_EngineStepsComplete_trap :
    ∀ act ∈ [true, false], headIs (infSum act) .vx (fun q => q.started && !q.trapsDone &&
      (firstEv (engineTraps (infSum act) 0 q)).isSome && decide (q.trapAction = act)) = true := by decide +kernel

/-- Sheaf 0 with one sample of a pair, a tolerance and a threshold. -/
def sampled (wide : W32) (window : Bool) : State :=
  let g := sheafWith (runs 0)
  let y : Sample := { reed := 0, seqNo := 1, index := 0, slot := 0, caps := [], aExt := (0, 16), bExt := (0x100, 0x110),
                      pairs := some [(0x3F800000, wide)], landed := true }
  { up with sheaves := [(0, { g with wv := { g.wv with
      samples := [y], tolerance := 0x3E800000, threshold := 1, eventWindow := window } })] }
/-- Whether the sample's pairs reach the threshold. -/
def sampleHits (w : Weathervane) (ps : List (W32 × W32)) : Bool :=
  w.threshold ≠ 0 && decide (w.threshold.toNat ≤ (ps.filter (fun p =>
    !((val32 false p.1.toNat).isNan || (val32 false p.2.toNat).isNan || (val32 false p.1.toNat).infSign.isSome ||
      (val32 false p.2.toNat).infSign.isSome) &&
    (val32 false w.tolerance.toNat).lt (relOf (val32 false p.1.toNat) (val32 false p.2.toNat)))).length)
theorem witness_SampleCompareCompletes :
    (∀ b ∈ [false, true], let s := sampled 0x40000000 b
      ((s.sheaf 0).wv.samples.find? (fun y => y.pairs.isSome && y.landed)).isSome = true ∧
      clockRuns s 0 = true ∧ (s.sheaf 0).wv.eventWindow = b) ∧
    sampleHits ((sampled 0x40000000 true).sheaf 0).wv [(0x3F800000, 0x40000000)] = true ∧
    sampleHits ((sampled 0x40000000 false).sheaf 0).wv [(0x3F800000, 0x40000000)] = true := by decide +kernel
theorem witness_SampleCompareCompletes_below :
    ((((sampled 0x3F800000 false).sheaf 0).wv.samples.head?).bind (·.pairs)).isSome = true ∧
    sampleHits ((sampled 0x3F800000 false).sheaf 0).wv [(0x3F800000, 0x3F800000)] = false := by decide +kernel

theorem witness_EngineInstructionsQueue_full :
    (let s := withReed { runs (ins 0x42 0 0 0 0 0 0 0) with qmx := List.replicate 8 acczQ }
     issues s 0 (ins 0x42 0 0 0 0 0 0 0) = true ∧ 8 ≤ (s.reed 0).depth (engineNum .mx) ∧
     passes (acczCheck s 0 (ins 0x42 0 0 0 0 0 0 0) (s.reed 0)) = true) := by decide +kernel

/-! ### Witnesses: the commands of the device and unit classes -/

/-- An allotment of port 1, on this module alone, with L3 sheaf 0. -/
def allotOf1 : Allot :=
  { owner := .port1, members := [0], sheaves := 1, fpl := 0, det := false, grants := [(0, 0x100000000)], revoking := [],
    tensors := [], shape := none, routes := [] }
/-- `up` with allotment 5 of port 1, whose link is down beyond its grace period. -/
def orphan : State := { up with allots := [(5, allotOf1)], port1 := { up.port1 with linkUp := false, graceElapsed := true } }

theorem witness_DeviceCommandsComplete :
    moduleReady up (.nop hdrM [1, 2, 3, 4, 5, 6, 7, 8]) = true ∧ moduleReady up (.devInfo hdrM) = true ∧
    (∀ n ∈ [1, 2, 3, 4, 5, 6], moduleReady up (.regRead hdrM (BitVec.ofNat 16 n)) = true) ∧
    moduleReady up (.regWrite hdrM 2 0xFFFFFFFF) = true ∧ moduleReady up (.portGrant hdrM 1) = true ∧
    hdrM.src = .port (otherPort (secondaryPort up)) ∧
    moduleReady orphan (.takeover hdrM 0xFFFF) = true ∧ moduleReady orphan (.takeover hdrM 5) = true ∧
    hdrM.src = .port .port0 ∧ (orphan.port .port0).linkUp = true ∧ (orphan.port (otherPort .port0)).linkUp = false ∧
    (orphan.port (otherPort .port0)).graceElapsed = true ∧ orphan.allotsOf (otherPort .port0) = [5] := by decide +kernel

/-- Reed 0 loaded with a NOP. -/
def loaded0 : State := withReed { runs 0 with st := .loaded }

theorem witness_UnitCommandsComplete :
    unitReady up (.wake hdrG) = true ∧ unitReady awake0 (.sleep hdrG) = true ∧ unitReady awake0 (.reset hdrR) = true ∧
    unitReady awake0 (.query hdrR) = true ∧ unitReady awake0 (.progLoad hdrR 0 1 0 0 (List.replicate 32 0)) = true ∧
    (∀ src ∈ [(0 : Byte), 1, 2], loadHeld awake0 src 1 0x1000 = false) ∧
    unitReady loaded0 (.start (hdrAt (reedPath 0) 3) [4, 5]) = true ∧
    unitReady (atIssue 0) (.pause hdrR) = true ∧
    unitReady (withReed { runs 0 with st := .paused }) (.resume hdrR) = true ∧ unitReady (atIssue 0) (.drain hdrR) = true ∧
    unitReady awake0 (.uregRead hdrR 0x21) = true ∧ unitReady awake0 (.uregWrite hdrR 0x21 5) = true ∧
    unitReady awake0 (.spRead hdrR 0x2FF0 16) = true ∧ unitReady awake0 (.spWrite hdrR 0x2FF0 (List.replicate 16 1)) = true ∧
    unitReady awake0 (.spareStatus hdrG) = true := by decide +kernel
/-- Sheaf 0 in a power state. -/
def powered (p : SPower) : State := { up with sheaves := [(0, { Sheaf.reset with power := p })] }
theorem witness_UnitEventsComplete :
    ((powered .waitSlot).sheaf 0).power = .waitSlot ∧ earlierWaits (powered .waitSlot) 0 = false ∧
    ((powered .powering).sheaf 0).power = .powering ∧ ((powered .rising).sheaf 0).power = .rising ∧
    ({ up.pow with pll := up.pow.pll.set 3 .starting } : Power).pll[(3 : DieIx)] = .starting ∧
    ({ up.pow with pll := up.pow.pll.set 3 .locked } : Power).pll[(3 : DieIx)] = .locked ∧
    (∀ i < 16, (up.sheaf (16 * 3 + i)).power = .off) ∧
    (let s := withReed { runs 0 with st := .draining }
     (s.sheaf 0).stOf 0 = .draining ∧ (s.reed 0).queuesEmpty = true) ∧
    (let s := atIssue 0
     let p := repairFor ((s.sheaf 0).l1 0) 0
     (s.sheaf 0).power = .awake ∧ (s.sheaf 0).retired 0 = false ∧ p.2 ≠ .retireL1 ∧ ((s.sheaf 0).l1 0).awaits 0 = false ∧
     (s.reed 0).st ≠ .faulted) ∧
    (∃ s : State, (s.sheaf 0).faultWin.isSome = true) := by
  refine ⟨by decide +kernel, by decide +kernel, by decide +kernel, by decide +kernel, by decide +kernel, by decide +kernel,
    by decide +kernel, by decide +kernel, by decide +kernel,
    { up with sheaves := [(0, { Sheaf.reset with faultWin := some ⟨reedPath 0, 3, 1, 0x0301, 7⟩ })] }, by decide +kernel⟩

/-! ### Witnesses: memory and tensors -/

/-- An allotment of port 0 with one grant of 4 GiB and tensor 1. -/
def allotOf0 : Allot :=
  { allotOf1 with owner := .port0, tensors := [(1, { format := 0, dims := [{ size := 8, split := 0, parts := 1, place := 0, halo := 0 }] })] }
/-- `up` with allotment 5 of port 0, sheaf 0 awake and reed 0 as reset. -/
def allotted : State := { awake0 with allots := [(5, allotOf0)] }
/-- `allotted` while page 5 of channel 3 is being retired. -/
def retiring : State := allotted.modChan 3 (fun c => { c with retiring := [5, 6] })
/-- A header of the owner class in allotment 5. -/
def hdr5 : Hdr := { hdrM with allot := 5 }
/-- A command in progress. -/
def opOf (c : Instr) (w : OpWait) : Op :=
  { id := 3, cmd := c, todo := [], acting := [], deaf := [], acted := false, selected := 0, answered := 0, retired := 0, lateSkipped := 0, silent := 0,
    entries := [], note := none, pieces := [], wait := w, prepared := none }
def inProgress (s : State) (c : Instr) (w : OpWait) : State := { s with lodge := { s.lodge with ops := [opOf c w] } }

theorem witness_MemoryCommandsComplete :
    (moduleReady allotted (.memGrant hdrM 5 0x100000000 0x40000000) = true ∧ (allotted.allot? 5).isSome = true ∧
      foreignAllot allotted hdrM 5 = false ∧ (0x140000000 : Nat) ≤ memEnd ∧ (0x100000000 : Nat) % gib = 0 ∧
      allotted.granted.all (fun g => !extOverlap (0x100000000, 0x140000000) g) = true) ∧
    (moduleReady allotted (.memRevoke hdrM 5 0) = true ∧
      (allotOf0.grants.find? (fun g => decide (g.1 = 0))) = some (0, 0x100000000)) ∧
    [0, 1].all (fun d => moduleReady allotted (.hostDma hdr5 (BitVec.ofNat 8 d) 0x1000 0xFFFFFFC0 64)) = true ∧ portOf hdr5 ≠ none ∧
    memScope allotted hdr5 0xFFFFFFC0 0x100000000 = true ∧
    (moduleReady allotted (.aperture hdrM 0x40000000) = true ∧ portOf hdrM = some .port0 ∧ 0x40000000 + 64 * gib ≤ memEnd ∧
      memScope allotted hdrM 0x40000000 (0x40000000 + 64 * gib) = true) ∧
    moduleReady allotted (.memFill hdr5 0xFFFFFFC0 64 0x0123456789ABCDEF) = true ∧
    [0, 1].all (fun c => moduleReady allotted (.eccRead hdrM (BitVec.ofNat 8 c))) = true ∧
    moduleReady allotted (.rowRetire hdrM 0x1000) = true ∧ 0x1000 < memEnd := by decide +kernel

theorem witness_HostAccessComplete :
    bar2Takes allotted .port0 8 4 = true ∧ bar2Denied allotted .port0 8 4 = false ∧
    bar2Waits allotted ⟨.port0, 8, 4, none, []⟩ = false ∧ bar2Waits retiring ⟨.port0, rowBase 3 5, 4, none, []⟩ = true ∧
    bar2Denied { allotted with port0 := { allotted.port0 with bar2Allot := 5 } } .port0 0x100000000 4 = true ∧
    memHeld allotted (sectorsOf 0x40 64) = false ∧ (allotted.port .port0).reached = true ∧
    (let c := Instr.hostDma hdr5 0 0x1000 0x40 128
     let s := inProgress allotted c .action
     s.lodge.ops.find? (fun o => decide (o.id = 3) && decide (o.wait = .action)) = some (opOf c .action) ∧
     (opOf c .action).cmd = c ∧ (List.replicate 64 (0 : Byte)).length < (128 : W64).toNat ∧ (List.replicate 64 (0 : Byte)).length % 32 = 0) := by
  decide +kernel

theorem witness_MemoryEventsComplete :
    (5 < pagesPerChan ∧ 5 ∉ (up.chan 3).scrubbed ∧ memHeld up (halfSectors 3 5 0) = false ∧ (up.chan 3).retraining = false) ∧
    ((retiring.chan 3).retiring = 5 :: [6]) ∧
    (∀ k ∈ [0, 3], let w : Nat → Nat → EccWindow := fun k n => ⟨k, 0, 0, 0, 0, 1, n⟩
      let c : MemChan := { MemChan.reset with windows := [(windowKey 5 0, w 0 k), (windowKey 5 3, w 3 (3 - k))] }
      KMap.look c.windows (windowKey 5 k) = some (w k 0) ∧ KMap.look c.windows (windowKey 5 (3 - k)) = some (w (3 - k) 3)) ∧
    ({ MemChan.reset with retraining := true }).retraining = true := by decide +kernel

theorem witness_TensorCommandsComplete :
    unitReady allotted (.loftWrite { hdrG with allot := 5 } 0 (List.replicate 32 1)) = true ∧
    unitReady allotted (.loftRead { hdrG with allot := 5 } 32 32) = true ∧
    unitReady allotted (.tensorMove { hdrG with allot := 5 } [⟨4, 0, 0, 0, 0, 64, 0, 0, 0⟩]) = true ∧
    moveHeld allotted { hdrG with allot := 5 } [⟨4, 0, 0, 0, 0, 64, 0, 0, 0⟩] 0 = false ∧
    (let d : List DimRec := [{ size := 8, split := 0, parts := 1, place := 0, halo := 0 }]
     let a := { allotOf0 with tensors := [] }
     let s := { allotted with allots := [(5, a)] }
     moduleReady s (.tensorDefine hdr5 2 0 d) = true ∧ (elemKind 0).isSome = true ∧
     d.zipIdx.all (fun e => dimForm e.2 e.1) = true ∧ KMap.look a.tensors 2 = none ∧
     insideRanges a.grants (tensorFoot s a 0 d).1 (tensorFoot s a 0 d).2 = true ∧ shardConflict s a 0 d = false) ∧
    moduleReady allotted (.tensorRelease hdr5 1) = true ∧ (KMap.look allotOf0.tensors 1).isSome = true := by decide +kernel

/-! ### Witnesses: the ports and the lodges -/

/-- The packet of a NOP from port 0 with one word of data and TAG 7: VERSION 1, PRIV 1, OPCODE 0x0100, LENGTH 3 (R57). -/
def nopPacket : List Byte := [0x11, 0x00, 0x01, 3, 0, 0, 0, 0, 0, 0, 0x0F, 0, 7, 0, 0, 0] ++ [1, 2, 3, 4, 5, 6, 7, 8]
/-- `upRing` with a packet's bytes in port 0's window. -/
def windowed (b : List Byte) : State := { upRing with port0 := { upRing.port0 with win := putHalves [] 0 b } }
/-- Port 0's window with a packet: what the take reads of it. -/
def takenNow (b : List Byte) : Nat × List Byte × Checked :=
  let s := windowed b
  let x := s.port .port0
  let n := (rawHdr (x.packetBytes 2)).words
  (n, x.packetBytes n, (checkPacket (s.modPort .port0 (fun x => { x with
    win := x.win.filter (fun e => decide (n ≤ (e.1 / 2 + 32768 - x.takePtr / 8) % 32768)),
    takePtr := (x.takePtr + 8 * n) % windowBytes, taken := x.taken + BitVec.ofNat 32 (8 * n) })) (.port .port0) (x.packetBytes n)).1)
/-- Whether the header checks pass. -/
def isGood (k : Checked) : Bool := match k with | .good _ => true | _ => false
/-- The same with a SLOT that is neither 0 to 3 nor 15 (R57). -/
def badSlotPacket : List Byte := nopPacket.set 10 7
/-- REG_READ with a reserved byte that is not zero (R86). -/
def flawedPacket : List Byte := [0x11, 0x02, 0x01, 3, 0, 0, 0, 0, 0, 0, 0x0F, 0, 8, 0, 0, 0, 1, 0, 0, 0, 0, 0, 0, 9]

/-- Which of its three answers a header check gives. -/
def answers (k : Checked) : Nat := match k with | .good _ => 0 | .refused _ => 1 | .flawed _ _ => 2

theorem witness_WindowEventsComplete_write :
    up.boot.released = true ∧ (up.port .port0).reached = true ∧ (up.port .port0).halted = false ∧
    ({ up.port .port0 with halted := true } : Port).halted = true ∧
    ((windowed nopPacket).port .port0).halted = false ∧ ((windowed nopPacket).port .port0).wordPresent ((0 / 4 + 1) / 2) = true ∧
    (∀ k < 2, ((windowed nopPacket).port .port0).wordPresent ((24 / 4 + k) / 2) = false) := by decide +kernel

theorem witness_WindowEventsComplete_take :
    (∀ b ∈ [nopPacket, badSlotPacket, flawedPacket], mayTake (windowed b) .port0 = true ∧ (takenNow b).1 = 3 ∧
      (takenNow b).2.1 = b ∧ (((windowed b).port .port0).packetWords 3).all ((windowed b).port .port0).wordPresent = true) ∧
    answers (takenNow nopPacket).2.2 = 0 ∧ answers (takenNow badSlotPacket).2.2 = 1 ∧ answers (takenNow flawedPacket).2.2 = 2 ∧
    (mayTake (windowed (nopPacket.set 3 1)) .port0 = true ∧ (takenNow (nopPacket.set 3 1)).1 = 1) ∧
    (mayTake (windowed ((nopPacket.set 3 1).set 4 0x20)) .port0 = true ∧ (takenNow ((nopPacket.set 3 1).set 4 0x20)).1 = 8193) := by
  decide +kernel

/-- A command held under FENCE. -/
def fenced (v : Verdict) : State := { up with lodge := { up.lodge with waiting := [⟨9, .devInfo { hdrM with fence := true }, [3], v⟩] } }
theorem witness_WindowEventsComplete_fence :
    ∀ v ∈ [Verdict.admitted, .form .badParam, .header .badLength (nopPacket.take 16)],
      (fenced v).lodge.waiting.find? (fun w => w.fencedBy ≠ [] && !(w.fencedBy.any (fun i => ((fenced v).openCmds .port0).contains i)) &&
        decide (srcOf w.cmd = some (Src.port .port0))) = some ⟨9, .devInfo { hdrM with fence := true }, [3], v⟩ := by
  decide +kernel

/-- A reply of 16 bytes. -/
def smallReply : OutPkt :=
  { event := false, cmdId := 1, opcode := 0x0100, status := .ok, ustate := .idle, tag := 7, path := 0, slot := 0xF, payload := [],
    irq := false }
/-- A port with an enabled ring and one reply waiting. -/
def answering : Port := { upRing.port0 with hold := [smallReply], irqEn := true, timerArmed := true, unsignalled := 1, lostSince := 2 }
theorem witness_RingEventsComplete :
    answering.reached = true ∧ (answering.hold = smallReply :: [] ∧ answering.enable = true ∧ answering.headFits = true) ∧
    ((0x00000001 : W32).getLsbD 0 = true ∧ up.port0.enable = false ∧ up.port0.cfgOk = true) ∧
    ({ up.port0 with replySize := 5 } : Port).cfgOk = false ∧ ((0 : W32).getLsbD 0 = false ∧ answering.enable = true) ∧
    (answering.timerArmed = true ∧ 0 < answering.unsignalled ∧ answering.irqEn = true) ∧
    (0 < answering.lostSince ∧ answering.held < 32768 ∧ answering.evGroups.getLsbD 7 = true) := by decide +kernel

theorem witness_PortEventsComplete :
    (∀ off ∈ [0x40010, 0x40014, 0x40018, 0x40028, 0x40000, 0x40004, 0x40020, 0x4002C, 0x40030], off % 4 = 0) ∧
    (0x40010 % 8 = 0) ∧ (up.port .port0).linkUp = true ∧ (up.port .port0).reached = true ∧
    (up.pow.pwrGood = true ∧ (orphan.port .port1).perst = false ∧ (orphan.port .port1).linkUp = false ∧ (6 : BitVec 4).toNat ∈ [4, 5, 6] ∧ (8 : BitVec 4).toNat ∈ [1, 2, 4, 8]) ∧
    (({ orphan.port1 with graceRunning := true } : Port).linkUp = false) ∧
    (16 ≤ nopPacket.length ∧ nopPacket.length = 8 * (rawHdr nopPacket).words ∧
      answers (checkPacket up (.peer 3 0) nopPacket).1 = 0) ∧
    (up.pow.standby = true ∧ up.pow.resetLow = false ∧ up.sidebandBusy = false ∧
      answers (checkPacket { up with sidebandBusy := true, sideband := none } .sideband nopPacket).1 = 0) := by decide +kernel

/-- DEV_INFO waiting to be admitted, after a QUERY of reed 0. -/
def lineUp : State := { awake0 with lodge := { awake0.lodge with waiting := [⟨4, .query hdrR, [], .admitted⟩, ⟨5, .devInfo hdrM, [], .admitted⟩] } }
/-- A QUERY of reed 0 in progress: at its sheaf, and at the lodge after the sheaf has acted. -/
def queryOp (todo : List Nat) (acting : List MemberRes) : State :=
  { awake0 with lodge := { awake0.lodge with ops := [{ opOf (.query hdrR) .members with todo := todo, acting := acting, selected := 1 }] } }
theorem witness_LodgeEventsComplete_admit :
    (lineUp.lodge.waiting.find? (fun w => decide (w.id = 4) && w.fencedBy.isEmpty && decide (w.verdict = .admitted))).isSome = true ∧
    mustWait lineUp (lineUp.lodge.waiting.takeWhile (fun v => decide (v.id ≠ 4))) (.query hdrR) = false ∧
    unitReady { lineUp with lodge := { lineUp.lodge with waiting := [⟨5, .devInfo hdrM, [], .admitted⟩] } } (.query hdrR) = true ∧
    (lineUp.lodge.waiting.find? (fun w => decide (w.id = 5) && w.fencedBy.isEmpty && decide (w.verdict = .admitted))).isSome = true ∧
    mustWait lineUp (lineUp.lodge.waiting.takeWhile (fun v => decide (v.id ≠ 5))) (.devInfo hdrM) = false ∧
    (unitDefOf (.devInfo hdrM)).isNone = true := by decide +kernel
theorem witness_LodgeEventsComplete_members :
    let f := fun (o : Op) => decide (o.id = 3) && decide (o.wait = .members)
    let m : Bool → MemberRes := fun b => ⟨0, [0], [], [], [], [], .ok, [], 0, b⟩
    (((queryOp [0] []).lodge.ops.find? f).elim false (fun o => o.todo.contains 0 && decide (o.ofDie 0 ≠ []) && !o.deaf.contains 3) = true) ∧
    (((queryOp [] [m false]).lodge.ops.find? f).elim false (fun o =>
      o.acting.any (fun x => decide (x.sheaf = memberSheaf (sheafPath 0)) && !x.replied)) = true) ∧
    (((queryOp [] [m true]).lodge.ops.find? f).elim false (fun o => decide (o.ofDie 0 ≠ []) &&
      (o.ofDie 0).all (fun g => o.acting.any (fun x => decide (x.sheaf = g) && x.replied))) = true) ∧
    (pathDepth (sheafPath 0) = 2 ∧ memberSheaf (sheafPath 0) = 0 ∧ pathInvalid (sheafPath 0) = false) ∧
    (pathDepth (diePath 0) = 1 ∧ pathDigit (diePath 0) 1 = 0 ∧ pathInvalid (diePath 0) = false) ∧
    (let l2 : BitVec 24 := BitVec.ofNat 24 (3 * 2 ^ 21 + 3 * 256)
     pathDepth l2 = 3 ∧ memberSheaf l2 = 0 ∧ pathDigit l2 3 = 3 ∧ pathInvalid l2 = false) ∧
    ((unitDefOf (.query hdrR)).elim true (·.level3) = false) ∧ lodgeHolds awake0 0 = false ∧ arrivalHeld awake0 (.query hdrR) 0 = false ∧
    (unitDefOf (.query hdrR)).isSome = true ∧ (arrivalDef (.query hdrR) []).isSome = true ∧ (cmdOf (.query hdrR)).isSome = true ∧
    (awake0.sheaf 0).power = .awake ∧ (KMap.look [(1, (⟨reedPath 0, 4, 1, 0x0204, 7⟩ : FaultWindow))] 1).isSome = true := by
  decide +kernel

theorem witness_CommandActionsEnd :
    let p := fun (c : Instr) => (inProgress allotted c .action).lodge.ops.find? (fun o => decide (o.id = 3) && decide (o.wait = .action))
    (∀ c ∈ [Instr.sleep hdrG, .hostDma hdr5 0 0x1000 0x40 64, .hostDma hdr5 1 0x1000 0x40 64, .memFill hdr5 0x40 64 7, .eaveCommission hdrM 2,
        .keyRotate hdrM (List.replicate 32 1), .rowRetire hdrM 0x1000, .memRevoke hdrM 5 0x40000000],
      (p c).elim false (fun o => decide (o.cmd = c)) = true) ∧
    (unitDefOf (.sleep hdrG)).isSome = true ∧ portOf hdr5 = some .port0 ∧ (List.replicate 64 (0 : Byte)).length = (64 : W64).toNat ∧
    memPage 0x1000 ∉ (allotted.chan (memChan 0x1000)).retiring ∧
    ([((0 : Nat), 1), (0x40000000, 0x80000000)].find? (fun g => decide (g.1 = 0x40000000))).isSome = true ∧
    rangeInUse allotted 5 (0x40000000, 0x80000000) = false ∧ retiringIn allotted 0x40000000 0x80000000 = false ∧
    memHeld allotted (sectorsOf 0x40 64) = false := by decide +kernel

/-! ### Witnesses: the fabric -/

/-- A module's table entry, READY, at this module's own FPL. -/
def ready (s : State) (a : W32) : TableEntry := { addr := a, state := 2, fpl := fplInUse s, eavesUp := 0, copper := 0x1F, fabricId := 0 }
/-- `awake0` with discovery ended, copper course 0 up, and the module on its other side READY. -/
def meshed : State :=
  { awake0 with fabric := { awake0.fabric with
      phase := 7, table := [(1, ready awake0 1)], tx := [(0, { TxChan.reset with up := true })],
      rx := [(0, { RxChan.reset with up := true })], peers := [(0, 1)],
      copper := awake0.fabric.copper.set 0 { Copper.reset with trained := true, peer := some (ready awake0 1) } },
                pow := { awake0.pow with copper := awake0.pow.copper.set 0 .awake } }
/-- `meshed` with allotment 5 of modules 0 and 1. -/
def pairAllot : Allot := { allotOf0 with members := [0, 1], routes := allotRoutes meshed [0, 1] }
def paired : State := { meshed with allots := [(5, pairAllot)] }
/-- `meshed` with allotment 5 of this module alone. -/
def single : State := { meshed with allots := [(5, allotOf0)] }

theorem memberCheck_of (s : State) (l : List W32) (a : l.all (fun a => decide ((tableEntry s a).state = 2)) = true)
    (b : allReached (allotRoutes s l) = true) (d : offBoard s l = false) (c : fplClose (l.map (fun a => (tableEntry s a).fpl.toNat)) = true) :
    memberCheck s l = none := by
  unfold memberCheck; rw [a, b, c, d]; rfl
theorem fpl_own (s : State) (h : s.fabric.address = 0) : (tableEntry s 0).fpl = fplInUse s := by simp [tableEntry, ownEntry, h]
theorem fpl_peer (s : State) (h : s.fabric = meshed.fabric) : (tableEntry s 1).fpl = fplInUse awake0 := by
  have e : (1 : W32) ≠ s.fabric.address := by rw [h]; decide
  have f : s.entry 1 = some (ready awake0 1) := by simp only [State.entry, h]; rfl
  rw [tableEntry, if_neg e, f]; rfl

theorem witness_AllotmentCommandsComplete :
    (moduleReady meshed (.allotCreate hdrM 5 1 [0]) = true ∧ allotForm 5 [0] = true ∧ meshed.fabric.address ∈ [(0 : W32)] ∧
      (meshed.allot? 5).isNone = true ∧ (setBits (1 : BitVec 256)).all (fun g => decide (meshed.allotOf g = 0)) = true ∧
      drawnByOther meshed 5 = false ∧ sheavesBusy meshed 1 = false ∧ memberCheck meshed [0] = none) ∧
    (moduleReady paired (.allotDissolve hdrM 5) = true ∧ (paired.allot? 5).isSome = true ∧ foreignAllot paired hdrM 5 = false ∧
      sheavesBusy paired pairAllot.sheaves = false) ∧
    (moduleReady single (.allotResize hdrM 5 0 2 [1]) = true ∧ allotForm 5 [1] = true ∧ (single.allot? 5).isSome = true ∧
      foreignAllot single hdrM 5 = false ∧ [(1 : W32)].all (fun m => !allotOf0.members.contains m) = true ∧
      (setBits (2 : BitVec 256)).all (fun g => decide (single.allotOf g = 0)) = true ∧ drawnByOther single 5 = false ∧
      sheavesBusy single 2 = false ∧ memberCheck single ([(1 : W32)].foldl (fun l m => insAddr m l) [0]) = none) ∧
    (moduleReady paired (.allotResize hdrM 5 1 1 [1]) = true ∧ [(1 : W32)].all (fun m => pairAllot.members.contains m) = true ∧
      (1 : BitVec 256) &&& ~~~pairAllot.sheaves = 0 ∧ paired.fabric.address ∉ [(1 : W32)] ∧ sheavesBusy paired 1 = false ∧
      memberCheck paired (pairAllot.members.filter (fun m => !([(1 : W32)].contains m))) = none) ∧
    moduleReady meshed (.fabricTable hdrM 0) = true ∧ moduleReady meshed (.routeQuery hdrM 1) = true ∧ addrReserved 1 = false ∧
    (queriedRoute meshed hdrM 1).main.isSome = true := by
  have one : ∀ s : State, s.fabric = meshed.fabric → fplClose ([(0 : W32)].map (fun a => (tableEntry s a).fpl.toNat)) = true :=
    fun s h => by simp [fplClose]
  refine ⟨?_, ?_, ?_, ?_, by decide +kernel, by decide +kernel, by decide +kernel, by decide +kernel⟩
  · refine ⟨by decide +kernel, by decide +kernel, by decide +kernel, by decide +kernel, by decide +kernel, by decide +kernel,
      by decide +kernel, memberCheck_of _ _ (by decide +kernel) (by decide +kernel) (by decide +kernel) (one _ rfl)⟩
  · decide +kernel
  · refine ⟨by decide +kernel, by decide +kernel, by decide +kernel, by decide +kernel, by decide +kernel, by decide +kernel,
      by decide +kernel, by decide +kernel, ?_⟩
    have e : [(1 : W32)].foldl (fun l m => insAddr m l) [0] = [0, 1] := by decide +kernel
    rw [e]
    refine memberCheck_of _ _ (by decide +kernel) (by decide +kernel) (by decide +kernel) ?_
    simp only [List.map, fpl_own single rfl, fpl_peer single rfl]
    simp [fplClose, show fplInUse single = fplInUse awake0 from rfl]
  · refine ⟨by decide +kernel, by decide +kernel, by decide +kernel, by decide +kernel, by decide +kernel, ?_⟩
    have e : pairAllot.members.filter (fun m => !([(1 : W32)].contains m)) = [0] := by decide +kernel
    rw [e]
    exact memberCheck_of _ _ (by decide +kernel) (by decide +kernel) (by decide +kernel) (one _ rfl)

/-- An eave of radix 16 that is up, with lane 0 up. -/
def eaveUp : Eave := { Eave.reset with st := .up, radix := 16, laneUp := 1, bind := 0 :: List.replicate 31 255 }
/-- `meshed` with eave 4 up and allotment 5 of this module and its neighbour. -/
def drawnable : State := { meshed with eaves := meshed.eaves.set 4 eaveUp, allots := [(5, pairAllot)] }
def mapOf : ColourMap :=
  { format := 1, radix := 16, mapId := 9, tx := 1 :: List.replicate 31 255, rx := 1 :: List.replicate 31 255 }
theorem witness_MapCommandsComplete :
    (moduleReady drawnable (.topoDraw hdr5 0 1 [2, 0, 0, 0]) = true ∧ drawnable.boot.gradeB = false ∧
      (drawnable.allot? 5).isSome = true ∧ shapeFits 0 1 [2] pairAllot.members.length = true ∧
      drawnable.allots.length ≤ 1 ∧ allReached pairAllot.routes = true) ∧
    (moduleReady drawnable (.colourMapSet hdrM 4 mapOf) = true ∧ mapGood 4 (drawnable.eave 4) mapOf = true ∧
      (drawnable.eave 4).dataUp = true ∧ (drawnable.eave 4).arms = []) ∧
    (let x : Eave := { eaveUp with arms := [⟨0, 1, false, true, 3⟩] }
     x.dataUp = true ∧ mapGood 4 x mapOf = true ∧ x.arms.any (·.moving) = true) := by decide +kernel

/-- A frame of the link, in turn for a channel that has received nothing. -/
def frame0 : LinkFrame :=
  { lseq := 0, lack := 0xFFFF, cvl := 0, nack := false, creditOnly := false, park := false, bseq := 0, credit := 1, creditCvl := 0,
    crcOk := true, dest := 0, srcAddr := 1, allot := 5, hop := 1, ftype := 2, route := 0, msg := 1, seg := 0, segs := 1, fpl := 0,
    payload := [1, 2, 3, 4] }
/-- `meshed` with copper course 0 serving and its spare used, or not. -/
def copperOf (bad : BitVec 9) : Copper := { Copper.reset with trained := true, bad := bad }
theorem witness_ChannelEventsComplete :
    (meshed.rxUp 0 = true ∧ ({ frame0 with crcOk := false } : LinkFrame).crcOk = false) ∧
    (speaksOf meshed 0 0 = true ∧ frame0.crcOk = true ∧ frame0.payload.length ≤ 4200 ∧ frame0.creditOnly = false ∧
      frame0.lseq = ((hearBack meshed 0 frame0).rx 0).next ∧ (3 : W16) ≠ ((hearBack meshed 0 { frame0 with lseq := 3 }).rx 0).next ∧
      ({ frame0 with creditOnly := true } : LinkFrame).creditOnly = true) ∧
    (meshed.txUp 0 = true ∧ KMap.look meshed.fabric.orphans 0 = none) ∧
    (meshed.boot.released = true ∧ ((1 : W32), (4 : Byte), (4 : W32), (0 : W16)) ∉ meshed.fabric.seen) ∧
    ((copperOf 0).trained = true ∧ (copperOf 0).serving.getLsbD 3 = true ∧
      ((List.range 9).find? (fun i => !((copperOf 0).serving &&& ~~~laneSet [3]).getLsbD i && !((copperOf 0).bad ||| laneSet [3]).getLsbD i))
        = some 8) ∧
    ((List.range 9).find? (fun i => !((copperOf 0x100).serving &&& ~~~laneSet [3]).getLsbD i &&
      !((copperOf 0x100).bad ||| laneSet [3]).getLsbD i)).isNone = true ∧
    ((∀ d ∈ [Dom.powering, .awake], let s := { up with pow := { up.pow with copper := up.pow.copper.set 1 d } }
        s.courseDom 1 = d ∧ (s.tx 1).up = false ∧ 4 ≤ (((List.range 9).filter (fun i => !(s.copper 1).bad.getLsbD i)).take 8).length) ∧
      (2 : W32) = copperAddr up.fabric.address 1 ∧ (2 : W32) ≠ up.fabric.address ∧ (3 : W32) ≠ copperAddr up.fabric.address 1) ∧
    (let e : Nat := 4
     let s := { drawnable with eaves := drawnable.eaves.set 4 { eaveUp with map := some mapOf } }
     (s.eave e).dataUp = true ∧ (s.eave e).laneUp.getLsbD 0 = true ∧ (s.tx (laneChan e 0)).up = false ∧
     txPeer s e (slotOf true e 0 (s.eave e).map) ≠ s.fabric.address ∧ slotOf false e 0 (s.eave e).map ≠ 255 ∧
     nearEnd s (laneChan e 0) ≠ s.fabric.address) := by decide +kernel

/-- A grade B module whose four modules of the fabric are READY, and one that has not found them. -/
def rackB (found : Bool) : State :=
  { up with boot := { up.boot with gradeB := true },
            fabric := { up.fabric with
              phase := 7, table := if found then [(1, ready up 1), (2, ready up 2), (3, ready up 3)] else [] } }
theorem witness_DiscoveryEventsComplete :
    (up.boot.released = true ∧ up.fabric.phase ≤ 3) ∧
    ({ up.fabric with phase := 4 } : Fabric).phase = 4 ∧ up.boot.gradeB = false ∧ up.fabric.ready = false ∧
    (allReady (rackB true) = true ∧ (rackB true).boot.released = true ∧ (rackB true).fabric.ready = false) ∧
    allReady (rackB false) = false ∧
    (wiredRight drawnable 4 1 (around drawnable 4 1) = true ∧ wiredRight drawnable 4 1 0 = false) := by decide +kernel

/-! ### Witnesses: collectives and numerics -/

/-- A sum over one bucket of FP32, shape 0 of radix 2 (Table 11-1). -/
def plan0 : Plan :=
  { op := 0, fmt := 0, outFmt := 0, shape := 0, radix := 2, courses := 7, root := 0, buckets := 1, src0 := 0, src1 := 0x1000,
    dst0 := 0x2000, dst1 := 0x3000, acc := 0x4000, work := 0x10000, window := 1, commit := 0x8000, planId := 1 }
/-- A state whose allotment 5 has handle 1 on sheaf 0, as changed by `f`. -/
def withColl (s : State) (f : Coll → Coll) (m : ModColl → ModColl) : State :=
  let x := s.sheaf 0
  { s with sheaves := [(0, { x with colls := [f (newColl 5 1 0 plan0 false)] })], modColls := [m { newModColl s 5 1 plan0 with sheaves := [0] }] }
/-- The handle alone on this module, and over two modules. -/
def soloColl (f : Coll → Coll) : State := withColl single f (fun m => m)
def pairColl (f : Coll → Coll) : State := withColl paired f (fun m => m)
def hdrC : Hdr := { hdrAt (sheafPath 0) 0 with allot := 5 }

theorem defineResource_single :
    defineResource 5 1 plan0 single.taken (selOf hdrC.path none) = none := by
  have g : groupFor single.taken 5 1 plan0.courses = [0] := by decide +kernel
  have h : ([(0 : W32)].filterMap (fplOf single.taken)) = [(fplInUse single.taken).toNat] := rfl
  have f : fplClose ((groupFor single.taken 5 1 plan0.courses).filterMap (fplOf single.taken)) = true := by
    rw [g, h]; simp [fplClose]
  unfold defineResource
  dsimp only
  rw [f]
  decide +kernel

theorem witness_CollectiveCommandsComplete :
    unitReady single (.collDefine hdrC 1 8 plan0) = true ∧
    unitReady (soloColl (fun c => c)) (.collTune { hdrC with slot := 15 } 1 2 0 1000) = true ∧
    unitReady (soloColl (fun c => c)) (.collCommit hdrC 1 1) = true ∧
    unitReady (soloColl (fun c => c)) (.collAbort hdrC 1) = true ∧
    unitReady (soloColl (fun c => c)) (.collStatus { hdrC with slot := 15 } 1) = true := by
  refine ⟨?_, by decide +kernel, by decide +kernel, by decide +kernel, by decide +kernel⟩
  have r : (((unitDefOf (.collDefine hdrC 1 8 plan0)).map
      (fun d => (d.resource single.taken (selOf hdrC.path hdrC.mask)).isNone)).getD false) = true := by
    show (defineResource 5 1 plan0 single.taken (selOf hdrC.path none)).isNone = true
    rw [defineResource_single]; rfl
  have e : unitReady single (.collDefine hdrC 1 8 plan0) =
      (unhindered single (.collDefine hdrC 1 8 plan0) hdrC && decide (hdrC.src ≠ .sideband) &&
        (admitUnit single.taken (.collDefine hdrC 1 8 plan0) hdrC ⟨0x0601, 3, 0, true⟩ (collDefineDef hdrC 1 8 plan0)).isNone &&
        ((unitDefOf (.collDefine hdrC 1 8 plan0)).map (fun d => (d.resource single.taken (selOf hdrC.path hdrC.mask)).isNone)).getD false) := rfl
  rw [e, r]; decide +kernel

/-- The handle on this module with member 1 outside its group (COURSES 0), so that member 1 can stand by. -/
def backed : State :=
  let p := { plan0 with courses := 0 }
  let x := paired.sheaf 0
  { paired with sheaves := [(0, { x with colls := [newColl 5 1 0 p false] })], modColls := [{ newModColl paired 5 1 p with sheaves := [0] }] }
theorem witness_CollectiveCommandsComplete_backup :
    (let s := pairColl (fun c => c)
     moduleReady s (.collBackup hdr5 1 1 0xFFFFFFFF) = true ∧ hdr5.allot ≠ 0 ∧ (s.modColl 5 1).isSome = true ∧
     (s.collAny 5 1).isSome = true ∧ 1 < (groupOf s pairAllot.members plan0.courses []).length) ∧
    (let s := backed
     moduleReady s (.collBackup hdr5 1 0 1) = true ∧ addrReserved 1 = false ∧ pairAllot.members.contains 1 = true ∧
     groupOf s pairAllot.members 0 [] = [0] ∧ candidates s (fun b => pairAllot.members.contains b) 1 0 ≠ []) := by decide +kernel

theorem witness_CommitAndAbortAct :
    ((soloColl (fun c => c)).coll 0 5 1).isSome = true ∧ hdrC.allot = 5 ∧
    (selOf hdrC.path hdrC.mask).sheaves.find? (fun g => ((soloColl (fun c => c)).coll g 5 1).isSome) = some 0 ∧
    awaitsDecision (soloColl (fun c => c)) 5 1 = false := by decide +kernel

/-- A source bucket with all of its 128 segments. -/
def filled : SrcBucket := { segs := (List.range 128).map (fun k => (k, 0)), frozen := false }
/-- A control frame of bucket 0 from module `r`. -/
def ctlFrame (r : Nat) : CFrame :=
  { handle := 1, allot := 5, seq := 1, run := 0, bucket := 0, sender := r, backup := false, x := 0, nonfinite := false, status := 0,
    planId := 1 }
/-- A bucket frame of zeros from module `r`, whose checksums are those of its payload or not. -/
def zeroFrame (r : Nat) (kind : Byte) (good : Bool := true) : BFrame :=
  let w : List W64 := List.replicate 512 0
  let k := checksums (decide (kind.toNat < 2)) w
  { handle := 1, allot := 5, seq := 1, bucket := 0, sender := r, kind := kind, backup := false, nonfinite := false, substituted := false,
    exp := 0, count := 1, run := 0, attempt := 0, fpl := fplInUse up, planId := 1, cs1 := k.1 + (if good then 0 else 1), cs2 := k.2, words := w }
/-- An input of rank 1, as its exponent or its words left it. -/
def inputOf (backup words : Bool) : CInput :=
  { rank := 1, backup := backup, x := some 0, nonfinite := false, words := if words then some (List.replicate 512 0) else none,
    cs1 := 0, cs2 := 0, count := 1, sub := false }
/-- The handle over two modules, of which this one, the adder, has bucket 0 as given. -/
def onRank0 (x : Bucket) : State := pairColl (fun c => { c with buckets := [(0, x)] })
/-- The same as it stands on module 1, whose contributions go to module 0. -/
def onRank1 (x : Bucket) : State :=
  let s := onRank0 x
  { s with fabric := { s.fabric with address := 1 } }
/-- The place where a frame of near FPL is judged. -/
def placed (s : State) (g : Nat) (k : CollFrame) : Option (ModColl × Place × Coll) :=
  match s.modColl k.handle.1 k.handle.2, s.coll g k.handle.1 k.handle.2 with
  | some m, some c =>
    if trussRuns s g && frameFits s c k.plan k.index && decide (k.index / c.plan.buckets.toNat = s.collPlace k.handle.1 k.handle.2 g) then
      (placeOf s m c g (k.index % c.plan.buckets.toNat)).map (fun p => (m, p, c))
    else none
  | _, _ => none
theorem fplNear_self (v : Byte) : fplNear v v = true := by simp [fplNear]
theorem frameAt_near (s : State) (g : Nat) (k : CollFrame) (h : k.fpl.all (fplNear (fplInUse s)) = true) : frameAt s g k = placed s g k := by
  unfold frameAt placed
  rw [h]
  rfl
/-- What a statement asks of the place where a frame is judged. -/
def judged (s : State) (k : CollFrame) (q : ModColl → Place → Coll → Bool) : Bool :=
  (placed s 0 k).elim false (fun p => decide (p.2.2.age k.round.1 k.round.2 = .current) && q p.1 p.2.1 p.2.2)
theorem judged_frameAt {s : State} {k : CollFrame} {q : ModColl → Place → Coll → Bool} (h : k.fpl.all (fplNear (fplInUse s)) = true)
    (j : judged s k q = true) :
    ∃ m p c, frameAt s 0 k = some (m, p, c) ∧ c.age k.round.1 k.round.2 = .current ∧ q m p c = true := by
  rw [frameAt_near s 0 k h]
  unfold judged at j
  match e : placed s 0 k with
  | none => simp [e] at j
  | some (m, p, c) =>
    simp only [e, Option.elim_some, Bool.and_eq_true, decide_eq_true_eq] at j
    exact ⟨m, p, c, rfl, j⟩

theorem witness_TrussEventsComplete_ready :
    ∀ n ∈ [1, 2], ∀ base ∈ [0, 1], let s := soloColl (fun c => { c with src := [(0, filled)], accumn := n, base := base })
      (s.modColl 5 1).isSome = true ∧ trussRuns s 0 = true ∧ (s.coll 0 5 1).elim false (fun c => decide (0 < c.plan.buckets.toNat) &&
        !(c.source (2 * 0 + c.usedOf 0 % 2)).frozen && decide ((c.source (2 * 0 + c.usedOf 0 % 2)).segs.length * 16 = c.srcBytes) &&
        s.recordsFor c && decide (c.accumn = n) && decide (c.usedOf 0 - c.base < c.accumn) && decide (c.usedOf 0 < c.base ↔ base = 1)) = true := by
  decide +kernel
/-- A contribution owed to the round decided before: the only local round of its cycle, or the first or last of two (R298). -/
theorem witness_TrussEventsComplete_owed :
    ∀ k ∈ [(1, 1, 1), (2, 2, 1), (2, 1, 2)], let o : Owed := ⟨0, 1, 0, 0, false, k.1, true⟩
      let s := soloColl (fun c => { c with src := [(0, filled)], accumn := k.1, base := k.2.1, owed := [o] })
      (s.coll 0 5 1).elim false (fun c => decide (c.usedOf 0 < c.base) && decide (c.owed.find? (fun o => decide (o.bucket = 0)) = some o) &&
        decide (c.latePosition 0 o = k.2.2) && s.recordsFor c) = true := by decide +kernel

theorem witness_TrussEventsComplete_frames :
    (let s := onRank0 Bucket.empty
     (s.modColl 5 1).isSome = true ∧
     (s.coll 0 5 1).elim true (fun c => frameFits s c 2 0) = false ∧ (s.coll 0 5 1).elim true (fun c => frameFits s c 1 1) = false ∧
     trussRuns { s with pow := { s.pow with tripped := true } } 0 = false ∧
     (frameAt s 0 (.exponent { ctlFrame 1 with seq := 2 })).elim false (fun p => decide (p.2.2.age 2 0 = .ahead)) = true) ∧
    (∀ w ∈ [none, some (inputOf false false)],
      judged (onRank0 { Bucket.empty with inputs := w.toList }) (.exponent (ctlFrame 1)) (fun m p c =>
        p.expects m 1 false && decide ((c.bucket p.b).input 1 false = w)) = true) ∧
    (∀ e ∈ [none, some (3 : Int)], judged (onRank1 { Bucket.empty with exponent := e }) (.exponentDown (ctlFrame 0)) (fun m p c =>
      decide (p.source m = some 0) && decide ((c.bucket p.b).exponent = e)) = true) ∧
    (judged (onRank0 Bucket.empty) (.fail (ctlFrame 1)) (fun _ p c => decide ((c.bucket p.b).failed = none)) = true) := by decide +kernel

theorem witness_TrussEventsComplete_inputs (w : Bool) :
    ∃ m p c, frameAt (onRank0 { Bucket.empty with inputs := [inputOf false w] }) 0 (.bucket (zeroFrame 1 0)) = some (m, p, c) ∧
      c.age 1 0 = .current ∧
      (p.expects m 1 false && decide (((c.bucket p.b).input 1 false).any (fun i => i.words.isSome) = w)) = true :=
  judged_frameAt (k := .bucket (zeroFrame 1 0)) (q := fun m p c =>
      p.expects m 1 false && decide (((c.bucket p.b).input 1 false).any (fun i => i.words.isSome) = w))
    (fplNear_self _) (by cases w <;> decide +kernel)
theorem witness_TrussEventsComplete_results (d : Bool) :
    ∃ m p c, frameAt (onRank1 { Bucket.empty with resultDone := d }) 0 (.result (zeroFrame 0 2)) = some (m, p, c) ∧
      c.age 1 0 = .current ∧ (decide (p.source m = some 0) && decide (p.node ≠ 0) && decide ((c.bucket p.b).resultDone = d) &&
        decide ((c.bucket p.b).failed = none)) = true :=
  judged_frameAt (k := .result (zeroFrame 0 2)) (q := fun m p c =>
      decide (p.source m = some 0) && decide (p.node ≠ 0) && decide ((c.bucket p.b).resultDone = d) && decide ((c.bucket p.b).failed = none))
    (fplNear_self _) (by cases d <;> decide +kernel)
theorem witness_TrussEventsComplete_sums :
    frameSound (zeroFrame 1 0) = true ∧ frameSound (zeroFrame 1 0 false) = false ∧ frameSound (zeroFrame 0 2) = true ∧
    frameSound (zeroFrame 0 2 false) = false := by decide +kernel

theorem witness_TrussEventsComplete_answers :
    (∀ k ∈ [1, 2], ∀ b ∈ [false, true], let e : W32 × BFrame := (1, { zeroFrame 0 0 with attempt := k, fpl := 0 })
      let s := onRank0 { Bucket.empty with contributed := true, held := if b then [] else [e], acked := if b then [e] else [] }
      (bucketNow s 0 5 1 ((ctlFrame 1).bucket % max 1 ((s.coll 0 5 1).elim 1 (·.plan.buckets.toNat)))).elim false (fun p =>
        frameFits s p.2.2 1 0 && decide (((p.2.2.bucket p.2.1.b).held ++ (p.2.2.bucket p.2.1.b).acked ++ p.2.2.lateHeld).find?
          (heldFor (senderAddr p.1 1 false) (ctlFrame 1)) = some e) && decide (p.2.2.age 1 0 = .current)) = true) ∧
    (let s := onRank0 Bucket.empty
     (bucketNow s 0 5 1 (7 % max 1 ((s.coll 0 5 1).elim 1 (·.plan.buckets.toNat)))).elim true (fun p => frameFits s p.2.2 1 7) = false) := by
  decide +kernel

theorem witness_TrussEventsComplete_late :
    trussRuns (onRank0 Bucket.empty) 0 = true ∧ (∀ l ∈ [[], [inputOf true true]],
      let s := onRank0 { Bucket.empty with arrived := true, tlate := 50, inputs := l }
      (bucketNow s 0 5 1 0).elim false (fun p => decide (0 < p.2.2.plan.buckets.toNat) && !p.2.2.isFailed &&
        (p.2.2.bucket 0).arrived && decide ((p.2.2.bucket 0).tlate ≠ 0) && p.2.1.direct.contains 1 && decide (1 ≠ p.2.1.rank) &&
        ((p.2.2.bucket 0).input 1 false).isNone && !(p.2.2.bucket 0).substituted.contains 1 &&
        decide (((p.2.2.bucket 0).input 1 true).isSome = !l.isEmpty)) = true) ∧
    (bucketNow (onRank0 Bucket.empty) 0 5 1 0).elim false (fun p => !(p.2.2.bucket 0).contributed && !(p.2.2.bucket 0).arrived) = true := by
  decide +kernel

theorem witness_DecisionEventsComplete :
    (let s := soloColl (fun c => { c with commitSeq := 1, buckets := [(0, { Bucket.empty with resultDone := true })] })
     (s.collAny 5 1).isSome = true ∧ (s.modColl 5 1).elim false (mayVote s 5 1) = true) ∧
    (let s := onRank0 Bucket.empty
     (s.modColl 5 1).elim false (fun m => decide (m.role s.fabric.address = .rank 0)) = true ∧
     (s.collAny 5 1).elim false (fun c => decide (c.age 1 0 = .current) && decide (c.age 1 1 = .ahead) && decide (c.age 2 0 = .ahead) &&
       decide (c.plan.planId = 1) && decide (c.plan.planId ≠ 2)) = true) ∧
    (∀ k ∈ [(false, (1 : Byte)), (true, 1)], let s := pairColl (fun c => { c with isFailed := k.1, run := k.2 })
     let s := { s with fabric := { s.fabric with address := 1 } }
     (s.modColl 5 1).elim false (fun m => decide (m.role s.fabric.address ≠ .rank 0) && decide (m.role s.fabric.address ≠ .outside) &&
       (m.voters s.fabric.address).any (fun e => decide (e.1 = 0))) = true ∧
     (s.collAny 5 1).elim false (fun c => decide (c.openSeq = 1) && decide (c.run = 1) && decide (c.isFailed = k.1) &&
       decide ((0 : W32).toNat < c.openSeq.toNat) && decide ((0 : Byte).toNat < c.run.toNat)) = true) ∧
    (∀ applied ∈ [false, true], ∀ live ∈ [false, true],
      let o : Outcome := ⟨1, 0, true, .ok, [], applied, live⟩
      let s := withColl paired (fun c => c) (fun m => { m with outcomes := [o] })
      (s.modColl 5 1).elim false (fun m =>
        decide (m.outcomes.find? (fun o => decide (o.seq = 1) && decide (o.run = 0) && !o.acks.contains 1) = some o) &&
        (m.voters s.fabric.address).any (fun e => decide (e.1 = 1))) = true) ∧
    (∀ u ∈ [false, true], let s := withColl paired (fun c => c) (fun m => { m with voted := true, isUndecided := u })
      (s.modColl 5 1).elim false (fun m => m.voted && decide (m.isUndecided = u) && (s.collAny 5 1).any (fun c =>
        !c.isFailed && !m.hasOutcome c)) = true) ∧
    (let s := withColl paired (fun c => { c with decided := 3, openSeq := 4, committed := 3 }) (fun m => { m with known := [(3, 0, true, .ok)] })
     (s.modColl 5 1).elim false (fun m => decide (m.decisionOf 3 0 = some (true, .ok)) &&
       (m.voters s.fabric.address).any (fun e => decide (e.1 = 1))) = true) := by
  decide +kernel

theorem witness_NumericsCommandsComplete :
    (let h := { hdrC with slot := 15 }
     unitReady single (.numCtl h 1) = true ∧ unitReady single (.wvConfig h 20 1 0x3A000000 0 4096) = true ∧
     unitReady single (.wvStats h 1) = true ∧ unitReady single (.clampRead h 1) = true) ∧
    unitReady single (.rngKey hdrC 1 2) = true ∧ moduleReady single (.determinism hdr5 1) = true ∧
    (setBits allotOf0.sheaves).all (fun g => !(single.sheaf g).busyCensus) = true ∧ (single.sheaf 0).wv.soiled ≤ 4096 := by
  decide +kernel

/-! ### Witnesses: the eaves -/

/-- `up` with eave 4 as given. -/
def withEave (x : Eave) : State := { up with eaves := up.eaves.set 4 x }
/-- Eave 4 up with its fixed lasers, every laser lit and bound to its lane. -/
def eaveLit : Eave :=
  { eaveUp with ca := true, cb := true, laneUp := 0xFFFFFFFF, bind := List.range 32, level := List.replicate 38 (-5) }
/-- Eave 4 with control lane CA as given. -/
def ctlEave (lost down : BitVec 2) : State := withEave { eaveLit with ctlLost := lost, ctlDown := down }
theorem witness_OpticsCommandsComplete :
    up.boot.gradeB = false ∧ (4 : Byte).toNat ≤ 7 ∧ moduleReady (withEave eaveLit) (.eaveStatus hdrM 4) = true ∧
    moduleReady (withEave eaveLit) (.eaveCommission hdrM 4) = true ∧ ((withEave eaveLit).eave 4).st ≠ .off ∧
    (moduleReady (withEave eaveLit) (.laserSwap hdrM 4 3 1) = true ∧ ((withEave eaveLit).eave 4).isUp = true ∧
      eaveLit.armOf 3 = none ∧ eaveLit.spareFree 1 = true ∧ eaveLit.laneOn 4 3 = true) ∧
    (let x := { eaveLit with laneUp := 0, map := some { mapOf with tx := List.replicate 32 255 } }
     moduleReady (withEave x) (.laserSwap hdrM 4 3 1) = true ∧ x.laneOn 4 3 = false ∧ x.isUp = true) ∧
    moduleReady (withEave eaveLit) (.monitorRead hdrM 4 37 10000) = true ∧
    moduleReady (withEave eaveLit) (.eaveSweep hdrM 0x10) = true := by decide +kernel
theorem witness_EaveEventsComplete :
    eaveLit.laneUp.getLsbD 3 = true ∧
    ({ eaveLit with laneUp := 0xFFFFFFF7 } : Eave).lockable 4 3 = true ∧ ((withEave eaveLit).tx (laneChan 4 3)).up = false ∧
    ((ctlEave 0 0).ctlUp 4 0 = true ∧ (ctlEave 1 0).ctlOn 4 0 = true ∧ ((ctlEave 1 0).eave 4).ctlLost.getLsbD 0 = true ∧
      ((ctlEave 1 1).eave 4).ctlDown.getLsbD 0 = true) ∧
    (let x := { eaveLit with arms := [⟨3, 1, false, true, 0⟩] }
     x.arms.find? (fun a => decide (a.spare = 1) && !a.locked) = some ⟨3, 1, false, true, 0⟩) ∧
    (let x := { eaveLit with arms := [⟨3, 1, true, true, 0⟩] }
     x.armOf 3 = some ⟨3, 1, true, true, 0⟩ ∧ x.outOfRange = false ∧ x.laneUp.getLsbD 3 = true) ∧
    (let x := { eaveLit with arms := [⟨3, 1, false, true, 0⟩], fadeWait := [6] }
     ((withEave x).eave 4).fadeWait = [6] ∧ x.isUp = true ∧ (x.level[x.laser 6]?).getD (-128) ≠ -128) ∧
    (let x := { eaveLit with arms := [⟨3, 1, true, true, 0⟩], bind := 255 :: List.range 31 }
     x.laser 0 = 255) ∧
    (eaveLit.cb = true ∧ eaveLit.ca = true) ∧ (withEave eaveLit).eavePowered 4 = true ∧
    (∀ d ∈ [8, 9], up.pow.net.toList[d]? ≠ some .awake) := by decide +kernel

/-! ### Witnesses: power, security and boot -/

theorem witness_PowerCommandsComplete :
    (moduleReady (withEave eaveLit) (.domainSet hdrM 4 1) = true ∧ domainIsOn (withEave eaveLit) 4 = true) ∧
    moduleReady (withEave eaveLit) (.domainSet hdrM 4 0) = true ∧
    (moduleReady up (.domainSet hdrM 4 1) = true ∧ domainIsOn up 4 = false ∧ up.boot.gradeB = false) ∧
    (moduleReady up (.domainSet hdrM 12 1) = true ∧ domainIsOn up 12 = false) ∧
    unitReady awake0 (.dvfsSet hdrG 700) = true ∧ moduleReady up (.powerCap hdrM 300) = true ∧
    unitReady awake0 (.thermalRead hdrG) = true ∧ moduleReady up (.powerRead hdrM) = true := by decide +kernel

theorem witness_PowerEventsComplete :
    up.boot.released = true ∧ (awake0.sheaf 0).power = .awake ∧
    (let x := { sheafWith (runs 0) with clock := { SClock.reset with droopStretch := true } }
     x.power = .awake ∧ x.clock.droopStretch = true) ∧
    (let p := { up.pow with net := Vector.replicate 16 .awake }
     p.net[(15 : DieIx)] = .awake ∧ networkNeeded { up with pow := p } 15 = false) ∧
    (let p := { up.pow with net := Vector.replicate 16 .sleeping }
     p.net[(15 : DieIx)] = .sleeping) ∧ up.boot.step ≠ 4 ∧
    (∀ b : Bool, ({ up with eaves := up.eaves.set 7 { up.eaves[7] with linksDown := b } }.eave 7).linksDown = b) ∧
    (let p := { up.pow with net := (Vector.replicate 16 Dom.sleeping).set 14 .awake }
     ∃ e ∈ [14, 15], p.net.toList[e]? = some .awake) := by decide +kernel

/-- `up` whose owner key has been rotated once. -/
def rotated : State := { up with boot := { up.boot with keySlot := 1, keyHashes := [5], unfused := [3] } }
theorem witness_SecurityCommandsComplete :
    moduleReady up (.attest hdrM (List.replicate 32 9)) = true ∧ moduleReady up (.certRead hdrM) = true ∧
    (moduleReady up (.fwStage hdrM 0 (List.replicate 16 1)) = true ∧ slotWritten (stageSlot up.boot 0) 0 16 = false ∧
      16 ≤ slotSize) ∧
    (moduleReady up (.fwActivate hdrM 0) = true ∧ moduleReady up (.fwActivate hdrM 1) = true ∧ up.anyBusy = false) ∧
    (moduleReady rotated (.repairCommit hdrM) = true ∧ rotated.boot.repairLeft ≠ 0 ∧ rotated.boot.unfused.take 2048 ≠ []) ∧
    (moduleReady rotated (.keyRotate hdrM (List.replicate 32 1)) = true ∧ ofLe (List.replicate 32 1) ≠ 0 ∧
      BitVec.ofNat 256 (ofLe (List.replicate 32 1)) ≠ rotated.ownerHash ∧ rotated.boot.keyLeft ≠ 0) ∧
    (moduleReady up (.primarySet hdrM 1) = true ∧ up.boot.primaryLeft ≠ 0 ∧ up.boot.primaryFused ≠ decide ((1 : Byte) = 1)) ∧
    (moduleReady up (.debugLock hdrM) = true ∧ up.boot.debugLeft ≠ 0) ∧ moduleReady up (.journalRead hdrM 0) = true := by
  decide +kernel
/-- A module in a boot step with both rails good. -/
def booting (n : Nat) : State :=
  { State.reset with pow := { Power.reset with main := true }, boot := { Boot.reset with step := n } }
theorem witness_RailEventsComplete :
    ({ up.pow with standby := false } : Power).standby = false ∧ up.pow.standby = true ∧ State.reset.pow.main = false ∧
    (up.pow.main = true ∧ (let t := interruptStep { up with pow := { up.pow with main := false } }
      t.pow.standby = true ∧ t.pow.resetLow = false ∧ 4 ≤ t.boot.step ∧ t.boot.halted = false)) ∧
    (let t := interruptStep { booting 1 with pow := { (booting 1).pow with main := false } }
     (booting 1).pow.main = true ∧ t.pow.standby = true ∧ t.pow.resetLow = false ∧ t.boot.step = 1 ∧ t.boot.halted = false) ∧
    up.pow.resetLow = false ∧ ({ up.pow with resetLow := true } : Power).resetLow = true := by decide +kernel

theorem witness_BootStepsComplete :
    atStep State.reset 0 = true ∧
    (∀ n ∈ [1, 2, 3, 4, 5, 6, 7, 8], atStep (booting n) n = true ∧ (booting n).boot.step = n ∧ (booting n).boot.failed n = false) ∧
    (booting 3).boot.fallback = false ∧ (booting 4).pow.main = true ∧ (booting 6).boot.failures = [] ∧
    (booting 8).boot.released = false ∧
    (let s := { booting 2 with boot := { (booting 2).boot with failures := [⟨2, false, 0⟩] } }
     atStep s 2 = true ∧ s.boot.failed 2 = true) ∧
    ((booting 3).boot.finalTorn = false ∧
      (let b := (booting 3).boot
       ({ b with copyA := { b.copyA with torn := [b.priorSeq] } } : Boot).finalTorn = true)) ∧
    (∀ n ∈ [1, 2, 3, 4, 5, 6, 7], n = (booting n).boot.step ∧ atStep (booting n) n = true ∧ (n = 4 → (booting n).pow.main = true)) := by
  decide +kernel

/-! ### Witnesses: the rules stated whole -/

/-- ALU with FN, BR with COND, without a flaw; and the reserved codes. -/
def aluW (fn : Nat) : BitVec 256 := ins 2 0x21 0x03 fn 0 0 0 0
def brW (cond : Nat) : BitVec 256 := ins 9 0x20 (32 * cond + 3) 5 0 0 0 0
theorem witness_ScalarArithmetic :
    (∀ fn ∈ List.range 13, issues (atIssue (aluW fn)) 0 (aluW fn) = true ∧ insOpc (aluW fn) = 0x02 ∧
      aluFlaw (aluW fn) (runs (aluW fn)) = none ∧ insByte (aluW fn) 3 = fn) ∧
    (issues (atIssue (aluW 13)) 0 (aluW 13) = true ∧ 12 < insByte (aluW 13) 3 ∧
      firstFlaw (reservedFlaws (aluW 13) (streamReserved (aluW 13) 0 0xE0 0 (bitOf (insByte (aluW 13) 2) 4)) 1) = none) ∧
    (∀ k ∈ List.range 7, issues (atIssue (brW k)) 0 (brW k) = true ∧ insOpc (brW k) = 0x09 ∧
      brFlaw (brW k) (runs (brW k)) = none ∧ insByte (brW k) 2 / 32 = k) ∧
    (insByte (brW 7) 2 / 32 = 7 ∧ firstFlaw (reservedFlaws (brW 7) (streamReserved (brW 7) 0x0F 0x10 0xC0 false) 1) = none) := by
  decide +kernel

theorem witness_LoopCounts :
    (issues (atIssue loopW) 0 loopW = true ∧ insOpc loopW = 0x08 ∧ loopFlaw loopW (runs loopW) = none) ∧
    (let w := ins 1 3 0 0 9 0 0 0
     issues (atIssue w) 0 w = true ∧ setiFlaw w (runs w) = none) ∧
    (let w := ins 3 5 3 0 0 (row 0x2FF0 16) 0 0
     issues (atIssue w) 0 w = true ∧ passes (wordOperand w (runs w) 0xF0 false) = true ∧
     waitsFor (runs w).allQueued [(0x2FF0, 0x3000)] [] = false) := by decide +kernel

/-- Two loops that end at entry 5, the inner one in its last iteration or not. -/
def nested (iter : W32) (outer : Nat) : Reed :=
  { runs 0 with index := 5, loops := [⟨3, 5, iter, 4⟩, ⟨1, outer, 0, 2⟩] }
theorem witness_LoopEnds :
    ((nested 0 5).index = 5 ∧ (0 : W32).toNat + 1 < (4 : W32).toNat) ∧
    (¬ (3 : W32).toNat + 1 < (4 : W32).toNat ∧ ((nested 3 9).loops.drop 1).head?.map (·.stop) ≠ some 5) ∧
    ((nested 3 5).loops.drop 1).head?.map (·.stop) = some 5 ∧
    (issues (atIssue 0) 0 0 = true ∧ insOpc 0 = 0x00) := by decide +kernel

/-- BR always to entry 1 out of two loops. -/
def loopsBr : Reed :=
  { (runs 0) with ibuf := [(1, ins 8 0x10 0 6 0 0 0 0), (4, ins 9 0 0 1 0 0 0 0)], index := 4, loops := [⟨3, 5, 1, 4⟩, ⟨1, 6, 0, 2⟩],
                  regs := (Vector.replicate 16 0).set 1 7 }
theorem witness_BranchesAndLoops :
    (let s := withReed loopsBr
     let w := ins 9 0 0 1 0 0 0 0
     issues s 0 w = true ∧ insOpc w = 0x09 ∧ brFlaw w (s.reed 0) = none ∧ brTaken (insByte w 2 / 32) 0 0 = true ∧
     (s.reed 0).loops.any (fun l => decide (l.start = insByte w 3)) = true) ∧
    (let t := withReed { loopsBr.branchTo 1 with hold := .none }
     let v := ins 8 0x10 0 6 0 0 0 0
     issues t 0 v = true ∧ insOpc v = 0x08 ∧ loopFlaw v (t.reed 0) = none ∧ (t.reed 0).s (insByte v 1 / 16) ≠ 0) ∧
    (awake0.sheaf 0).stOf 0 ∈ [UState.idle, .loaded, .paused, .faulted] := by decide +kernel

theorem witness_ProgramEnds :
    (let w := ins 31 0 0 0 0 0 0 0
     issues (atIssue w) 0 w = true ∧ insOpc w = 0x1F ∧ nopFlaw w (runs w) = none) ∧
    ({ runs 0 with qmx := [acczQ] } : Reed).queuesEmpty = false ∧
    (let s := withReed { runs 0 with ended := true }
     (s.sheaf 0).stOf 0 = .running ∧ (s.reed 0).ended = true ∧ (s.reed 0).queuesEmpty = true) ∧
    (let c := Instr.start (hdrAt (reedPath 0) 3) [4, 5]
     unitReady loaded0 c = true ∧ actsOn loaded0 c 0 = true ∧ (loaded0.reed 0).index = (loaded0.reed 0).entry ∧
     (loaded0.reed 0).loops = []) ∧
    (let s := withReed { runs 0 with ended := true }
     (s.reed 0).ended = true) ∧
    (∀ i ∈ [5, 64], let s := withReed { runs 0 with ibuf := [(0, 0)], index := i }
      (s.reed 0).st = .running ∧ (s.reed 0).ended = false ∧ clockRuns s 0 = true ∧ (s.sheaf 0).retired 0 = false ∧
      (s.reed 0).index = i ∧ pageWill (s.reed 0) i = false ∧ KMap.look (s.reed 0).ibuf i = none) := by decide +kernel

theorem witness_LoopRegisters :
    (∀ n < 4, let w := ins 5 4 1 (0x10 + n) 0 0 0 0
      issues (withReed { nested 0 9 with index := 0, ibuf := [(0, w)] }) 0 w = true ∧ insByte w 3 = 0x10 + n ∧
      movrFlaw w (runs w) = none) ∧
    ((nested 0 9).loops.reverse[1]?).isSome = true ∧ (nested 0 9).loops.length ≤ 2 ∧
    (let w := ins 6 0x40 0 0x11 0 0 0 0
     issues (atIssue w) 0 w = true ∧ firstFlaw (reservedFlaws w (streamReserved w 0x0F 255 0 false) 1) = none) := by decide +kernel

/-- A path deeper than 5, one with bit 20 set, and one with a digit below its depth (R38). -/
def badPaths : List (BitVec 24) := [BitVec.ofNat 24 (6 * 2 ^ 21), BitVec.ofNat 24 (2 ^ 20), BitVec.ofNat 24 (2 * 2 ^ 21 + 1)]
theorem witness_MalformedPathsRefused :
    badPaths.all (fun p => decide (5 < p.toNat / 2 ^ 21) || decide (p.toNat / 2 ^ 20 % 2 = 1) ||
      decide (p.toNat % 2 ^ 20 % 16 ^ (5 - p.toNat / 2 ^ 21) ≠ 0)) = true ∧
    badPaths.all (fun p => unhindered awake0 (.query (hdrAt p 0xF)) (hdrAt p 0xF) &&
      (unitDefOf (.query (hdrAt p 0xF))).elim false (fun d => (d.form awake0.taken Sel.none).isNone) &&
      (Instr.query (hdrAt p 0xF)).wf && unhindered up (.devInfo (hdrAt p 0xF)) (hdrAt p 0xF) &&
      (unitDefOf (.devInfo (hdrAt p 0xF))).isNone && (Instr.devInfo (hdrAt p 0xF)).wf &&
      (cmdOf (.query (hdrAt p 0xF))).isSome && (cmdOf (.devInfo (hdrAt p 0xF))).isSome) = true ∧
    (cmdOf (.query (hdrAt (BitVec.ofNat 24 (6 * 2 ^ 21)) 0xF))).elim true (fun p => headerBad p.1 p.2) = false ∧
    (cmdOf (.devInfo (hdrAt (BitVec.ofNat 24 (6 * 2 ^ 21)) 0xF))).elim true (fun p => headerBad p.1 p.2) = false := by decide +kernel

theorem witness_ReplyHeadAndDisable :
    (let x := { answering with head := 2, tail := 5 }
     (5 : W32).toNat % 65536 < x.ringSize ∧ (5 + x.ringSize - x.head) % x.ringSize ≤ (x.tail + x.ringSize - x.head) % x.ringSize ∧
     (x.tail + x.ringSize - x.head) % x.ringSize < (6 + x.ringSize - x.head) % x.ringSize ∧ x.ringSize ≤ (64 : W32).toNat % 65536) ∧
    ((0 : W32).getLsbD 0 = false ∧ answering.enable = true) ∧ answering.reached = true := by decide +kernel

theorem witness_KeyRotation :
    (moduleReady rotated (.keyRotate hdrM (List.replicate 32 0)) = true ∧ ofLe (List.replicate 32 0) = 0) ∧
    (moduleReady rotated (.keyRotate hdrM (leBytes 32 5)) = true ∧ BitVec.ofNat 256 (ofLe (leBytes 32 5)) = rotated.ownerHash) ∧
    (moduleReady rotated (.keyRotate hdrM (List.replicate 32 1)) = true ∧ ofLe (List.replicate 32 1) ≠ 0 ∧
      BitVec.ofNat 256 (ofLe (List.replicate 32 1)) ≠ rotated.ownerHash ∧ 0 < rotated.boot.keyLeft) ∧
    (let c := Instr.keyRotate hdrM (List.replicate 32 1)
     (inProgress rotated c .action).lodge.ops.find? (fun o => decide (o.id = 3) && decide (o.wait = .action)) =
       some (opOf c .action)) := by decide +kernel

/-- A header of job class in allotment 5. -/
def hdrJ : Hdr := { hdr5 with priv := 0 }
theorem witness_ApertureReaches :
    (moduleReady allotted (.aperture hdrM 0x1D000000000) = true ∧ 1888 * 2 ^ 30 < 0x1D000000000 + 64 * 2 ^ 30) ∧
    (moduleReady allotted (.aperture hdrJ 0) = true ∧ hdrJ.src = .port .port0 ∧ hdrJ.priv = 0 ∧
      insideRanges allotOf0.grants 0 (64 * 2 ^ 30) = false) ∧
    (moduleReady allotted (.aperture hdrM 0) = true ∧ memScope allotted hdrM 0 (64 * 2 ^ 30) = true) ∧
    (bar2Takes allotted .port0 0 4 = true ∧ bar2Takes allotted .port0 (64 * 2 ^ 30 - 128) 128 = true ∧
      bar2Denied allotted .port0 0 4 = false ∧ bar2Waits allotted ⟨.port0, 0, 4, some [some 1, none, some 2, some 3], []⟩ = false ∧
      bar2Waits allotted ⟨.port0, 0, 4, none, []⟩ = false ∧
      sectorFailed allotted 0 = false ∧ sectorBad allotted 0 = false) := by decide +kernel

theorem witness_AddressFixed :
    atStep State.reset 0 = true ∧ atStep up 0 = false ∧
    (∃ t, step { State.reset with pending := [.powerOn 0x1FFF] } = .next t ∧ t.fabric.address ≠ State.reset.fabric.address) ∧
    (moduleReady paired (.routeQuery hdr5 0x2000) = true ∧ moduleReady paired (.collBackup hdr5 1 1 0x2000) = true ∧
      moduleReady meshed (.allotCreate hdrM 5 1 [0x2000]) = true ∧ moduleReady single (.allotResize hdrM 5 0 2 [0x2000]) = true) ∧
    (let s := pairColl id
     moduleReady s (.collBackup hdr5 1 1 0xFFFFFFFF) = true ∧ hdr5.allot ≠ 0 ∧ s.fabric.address ≠ 0xFFFFFFFF ∧
     (match s.modColl hdr5.allot 1, s.collAny hdr5.allot 1, s.allot? hdr5.allot.toNat with
      | some m, some k, some x => decide ((1 : W16).toNat < (groupOf s x.members k.plan.courses m.backups).length)
      | _, _, _ => false) = true) := by
  refine ⟨by decide +kernel, by decide +kernel, ⟨_, rfl, by decide +kernel⟩, by decide +kernel, by decide +kernel⟩

theorem witness_StepKeepsInvariant : Inv up := by
  refine ⟨by decide +kernel, by decide +kernel, by decide +kernel⟩

theorem witness_BeforeReleaseNothingArrives :
    State.reset.boot.released = false ∧ (cmdOf (.devInfo hdrM)).isSome = true ∧ hdrM.src ≠ .sideband := by decide +kernel

theorem witness_RefusedCommandsChangeNothing :
    (unitDefOf (.start (hdrAt (reedPath 0) 3) [])).isSome = true ∧
    unhindered awake0 (.start (hdrAt (reedPath 0) 3) []) (hdrAt (reedPath 0) 3) = true ∧
    (match cmdOf (.start (hdrAt (reedPath 0) 3) []), unitDefOf (.start (hdrAt (reedPath 0) 3) []) with
     | some (h, i), some d => (admitUnit awake0.taken (.start (hdrAt (reedPath 0) 3) []) h i d).isSome
     | _, _ => false) = true := by decide +kernel

theorem witness_SelectionFollowsPath :
    (4095 < 2 ^ 20 ∧ pathDepth (sheafPath 0) ≤ 5) ∧
    (let v : W64 := 0x0000000000050003
     pathDepth (sheafPath 0) < maskDepth (sheafPath 0) v ∧ maskDepth (sheafPath 0) v ≤ 5) := by decide +kernel

theorem witness_ReedCommandsAct :
    unitReady awake0 (.query hdrR) = true ∧ unitReady (withReed { runs 0 with st := .paused }) (.resume hdrR) = true ∧
    unitReady loaded0 (.start (hdrAt (reedPath 0) 3) [4, 5]) = true ∧ unitReady awake0 (.uregWrite hdrR 0x0F 5) = true ∧
    unitReady awake0 (.spWrite hdrR 0x2FF0 (List.replicate 16 1)) = true ∧
    (∀ d : DieIx, up.pow.net[d] ≠ .sleeping ∧ up.pow.net[d] ≠ .powering) := by decide +kernel

theorem witness_FillWritesItsRange :
    moduleReady allotted (.memFill hdr5 0xFFFFFFC0 64 7) = true ∧ (0xFFFFFFC0 : W64).toNat + 64 ≤ 1888 * 2 ^ 30 ∧
    memScope allotted hdr5 0xFFFFFFC0 0x100000000 = true ∧ sectorFailed allotted (0xFFFFFFC0 / 32) = false ∧
    memHeld allotted (sectorsOf 0xFFFFFFC0 64) = false ∧
    (let c := Instr.memFill hdr5 0xFFFFFFC0 64 7
     (inProgress allotted c .action).lodge.ops.find? (fun o => decide (o.id = 3) && decide (o.wait = .action)) =
       some (opOf c .action) ∧ (opOf c .action).cmd = c ∧ (0xFFFFFFC0 : W64).toNat % 64 = 0) := by decide +kernel

theorem witness_JobClassGetsNoPrivilege :
    (let c := Instr.powerCap { hdrM with priv := 0, allot := 0 } 400
     let h : Hdr := { hdrM with priv := 0, allot := 0 }
     unitDefOf c = none ∧ h.src = .port .port0 ∧ h.priv = 0 ∧ h.path = 0 ∧ h.mask = none ∧ unhindered up c h = true ∧ c.wf = true ∧
     (cmdOf c).elim false (fun p => decide (1 ≤ p.2.minClass) && !headerBad p.1 p.2) = true) := by
  refine ⟨rfl, rfl, rfl, rfl, rfl, by decide +kernel, by decide +kernel, by decide +kernel⟩

/-! ### Worked examples of the spec -/

/-- Table 2-3: the paths of `S:3`, `S:3.A` and `S:3.A.0.7.F`. -/
theorem test_paths : diePath 3 = 0x230000 ∧ sheafPath 0x3A = 0x43A000 ∧ reedPath 0x3A07F = 0xA3A07F := by decide
/-- Chapter 5, R127: the descriptor of 64 rows of 64 bytes based at s3 = 0x1100 has the extent 0x1100 to 0x20FF. -/
theorem test_descriptor : (operandOf 0x3040004000400000 ((Vector.replicate 16 0).set 3 0x1100)).extent = (0x1100, 0x2100) := by
  decide +kernel
/-- Chapter 5: a body of entries 5 to 9 with COUNT 3 goes round with ITER 1, and after ITER 2 the stream moves to entry 10. -/
theorem test_loop_body :
    (let x : Reed := { Reed.reset with index := 9, loops := [⟨4, 9, 0, 3⟩] }
     x.advance.index = 5 ∧ x.advance.loops = [⟨4, 9, 1, 3⟩]) ∧
    (let x : Reed := { Reed.reset with index := 9, loops := [⟨4, 9, 2, 3⟩] }
     x.advance.index = 10 ∧ x.advance.loops = []) := by decide +kernel
/-- Chapter 8, worked example: FP32 0.3 to E4M3, to nearest, toward zero and stochastically on both sides of u = 1,639. -/
theorem test_e4m3_rounding :
    let v := val32 false 0x3E99999A
    (encodeFp e4m3 0 .nearest v).bits = 0x2A ∧ (encodeFp e4m3 0 .zero v).bits = 0x29 ∧
    (encodeFp e4m3 0 (.stochastic 1638) v).bits = 0x29 ∧ (encodeFp e4m3 0 (.stochastic 1639) v).bits = 0x2A := by decide +kernel
/-- Table 8-11: 500.0 and 0.005 to E4M3, 100,000.0 to E5M2, at the reset value of `NUMCTL`. -/
theorem test_table_8_11 :
    (encodeFp e4m3 0 .nearest (val32 false 0x43FA0000)).bits = 0x7E ∧ (encodeFp e4m3 0 .nearest (val32 false 0x3BA3D70A)).bits = 0x03 ∧
    (encodeFp e5m2 0 .nearest (val32 false 0x47C35000)).bits = 0x7B := by decide +kernel
/-- R207: 3.0 in LA40. -/
theorem test_la40 : encodeLa (val32 false 0x40400000) = 0x4018000000 := by decide +kernel

/-! ### Single steps -/

/-- R33, Table 1-9: REG_WRITE of all ones to `TCWEIGHT` sets the three weights; every other bit reads as it is fixed. -/
theorem test_tcweight :
    (match step { up with pending := [.regWrite hdrM 2 0xFFFFFFFF] } with
     | .next t => t.tcweight | _ => 0) = 0x001F0F0F := by decide +kernel
/-- Chapter 5, the worked example's ALU: s1 takes s1 ADD 0x1100. -/
theorem test_alu_add :
    (match exec (.alu 0) (withReed ((runs (ins 2 0x11 0x10 0 0x1100 0 0 0)).setS 1 0x00EF)) with
     | .next t => (t.reed 0).s 1 | _ => 0) = 0x11EF := by decide +kernel
/-- R131: SUB wraps, and SHR by 33 shifts by 1. -/
theorem test_alu_wraps :
    (match exec (.alu 0) (withReed (runs (ins 2 0x11 0x10 1 1 0 0 0))) with
     | .next t => (t.reed 0).s 1 | _ => 0) = 0xFFFFFFFF ∧
    (match exec (.alu 0) (withReed ((runs (ins 2 0x11 0x10 7 33 0 0 0)).setS 1 0x80000000)) with
     | .next t => (t.reed 0).s 1 | _ => 0) = 0x40000000 := by decide +kernel
/-- R412, R312: POWER_ON takes the address from the straps. -/
theorem test_power_on :
    (match step { State.reset with pending := [.powerOn 0x1A5] } with
     | .next t => t.fabric.address | _ => 0) = 0x1A5 := by decide +kernel
/-- R129: an undefined OPC faults the reed with cause ILLEGAL_OPCODE, FAULTINFO code 4 (Table 5-7). -/
theorem test_illegal_opcode :
    (match exec (.nopInstruction 0) (atIssue (ins 0x07 0 0 0 0 0 0 0)) with
     | .next t => ((t.reed 0).st, (t.reed 0).faultInfo.toNat % 256) | _ => (.idle, 0)) = (.faulted, 4) := by
  decide +kernel
/-- Table 3-8: SP_WRITE lands in the scratchpad of the reed its path names, and in no other. -/
theorem test_sp_write :
    (match exec (.spWrite hdrR 0x2FF0 (List.replicate 16 0xA5)) awake0 with
     | .next t => (KMap.get 0 (t.reed 0).sp 0x2FFF, KMap.get 0 (t.reed 1).sp 0x2FFF) | _ => (0, 0)) = (0xA5, 0) := by
  decide +kernel

end Sys2Proof.Tests
end

section
/-!
PROOF. O45 (R38): a command whose path is malformed is refused by its admission checks, before its body or its members see it, and
the refusal writes a reply alone.
-/

namespace Sys2Proof.Machine

/-! ### How a malformed path shows -/

/-- A set bit 20 of the path is a reserved bit of the header (R38). -/
theorem headerBad_of_pathBit20 {h : Hdr} (i : CmdInfo) (hb : h.path.toNat / 2 ^ 20 % 2 = 1) : headerBad h i = true := by
  have hbit : pathBit20 h.path = true := by
    simpa [pathBit20, BitVec.getLsbD, Nat.testBit_eq_decide_div_mod_eq] using hb
  simp [headerBad, reservedBits, hbit]

theorem pathInvalid_iff (p : BitVec 24) :
    pathInvalid p = true ↔ 5 < p.toNat / 2 ^ 21 ∨ p.toNat % 2 ^ 20 % 16 ^ (5 - p.toNat / 2 ^ 21) ≠ 0 := by
  rw [pathInvalid, Bool.or_eq_true, decide_eq_true_eq, decide_eq_true_eq, pathDepth]

/-- The module's own path is well formed. -/
theorem ne_zero_of_pathInvalid {p : BitVec 24} (hp : pathInvalid p = true) : p ≠ 0 := by
  rintro rfl
  exact absurd hp (by decide)

/-! ### Unit commands -/

theorem admitUnit_headerBad {h : Hdr} {i : CmdInfo} (s : State) (c : Instr) (d : UnitDef) (hb : headerBad h i = true) :
    admitUnit s c h i d = some (Refuse.form .badParam) := by
  simp [admitUnit, hb]

/-- An invalid path selects nothing, and is refused once the form checks have passed (R87). -/
theorem admitUnit_pathInvalid {s : State} {c : Instr} {h : Hdr} {i : CmdInfo} {d : UnitDef} (hb : headerBad h i = false)
    (hw : c.wf = true) (hf : d.form s Sel.none = none) (hp : pathInvalid h.path = true) :
    admitUnit s c h i d = some (Refuse.form .badUnit) := by
  have hm : pathMaskCheck h i.level = some .badUnit := by simp [pathMaskCheck, hp]
  simp [admitUnit, hb, hw, hm, hf]

/-- The row of a unit command submits it; PROG_LOAD and TENSOR_MOVE may first have to wait for memory. -/
theorem exec_unit {c : Instr} {d : UnitDef} (s : State) (hd : unitDefOf c = some d) :
    exec c s = .next (submit c (runUnit c d) s) ∨ ∃ held, exec c s = .next (submitOr held c d s) := by
  unfold unitDefOf at hd
  split at hd
  case h_5 | h_17 => -- PROG_LOAD, TENSOR_MOVE
    cases hd
    exact .inr ⟨_, rfl⟩
  all_goals (cases hd <;> exact .inl rfl)

/-- A command that its checks refuse waits for no memory. -/
theorem submitOr_refused {c : Instr} {h : Hdr} {i : CmdInfo} {d : UnitDef} {s : State} {r : Refuse} (held : State → Bool)
    (hc : cmdOf c = some (h, i)) (hr : admitOn s.taken c h i d = some r) :
    submitOr held c d s = submit c (runUnit c d) s := by
  simp only [State.taken] at hr
  simp [submitOr, hc, hr]

/-- A unit command that its admission refuses: the refusal is the whole step (R47, R87). -/
theorem exec_unit_refused {c : Instr} {h : Hdr} {i : CmdInfo} {d : UnitDef} {s : State} {r : Refuse}
    (hc : cmdOf c = some (h, i)) (hu : unhindered s c h = true) (hs : h.src ≠ .sideband) (hd : unitDefOf c = some d)
    (hr : admitUnit s.taken c h i d = some r) : exec c s = .next (refuseUnit s.taken s.lodge.nextId c h d r) := by
  have ho : admitOn s.taken c h i d = some r := by simp [admitOn, hs, hr]
  have hn : submit c (runUnit c d) s = refuseUnit s.taken s.lodge.nextId c h d r := by
    rw [submit_unhindered _ hc hu]
    simp [runUnit, hc, ho]
  obtain he | ⟨held, he⟩ := exec_unit s hd
  · rw [he, hn]
  · rw [he, submitOr_refused held hc ho, hn]

/-! ### Module commands -/

/-- What a module command's own form check can answer: nothing, or one of three statuses. -/
def FormFault (r : Option Status) : Prop := ∀ st ∈ r, st = .badParam ∨ st = .alignFault ∨ st = .engineFused

@[simp] theorem formFault_none : FormFault none := by simp [FormFault]
@[simp] theorem formFault_badParam : FormFault (some .badParam) := by simp [FormFault]
@[simp] theorem formFault_alignFault : FormFault (some .alignFault) := by simp [FormFault]
@[simp] theorem formFault_engineFused : FormFault (some .engineFused) := by simp [FormFault]
@[simp] theorem formFault_ite (p : Prop) [Decidable p] (a b : Option Status) :
    FormFault (if p then a else b) ↔ (p → FormFault a) ∧ (¬p → FormFault b) := by
  by_cases hp : p <;> simp [hp]
@[simp] theorem formFault_noForm (s : State) (h : Hdr) : FormFault (noForm s h) := formFault_none
@[simp] theorem formFault_transferForm (dev n : Nat) (addrs : List Nat) : FormFault (transferForm dev n addrs) := by
  simp [transferForm]
@[simp] theorem formFault_eaveForm (s : State) (eave : Byte) (fits : Bool) : FormFault (eaveForm s eave fits) := by
  simp [eaveForm]

/-- The row of a module command submits it to `moduleNow`. -/
theorem exec_module {c : Instr} {p : Hdr × CmdInfo} (s : State) (hc : cmdOf c = some p) (hd : unitDefOf c = none) :
    exec c s = .next (submit c (moduleNow c) s) := by
  unfold cmdOf at hc
  split at hc
  all_goals (cases hc <;> cases hd <;> rfl)

/-- Every module command is carried out behind the checks of R86 and R87, with a form check of three possible faults. -/
theorem moduleNow_checked {c : Instr} {p : Hdr × CmdInfo} (hc : cmdOf c = some p) (hd : unitDefOf c = none) :
    ∃ form foreign body, moduleNow c = runModule c form foreign body ∧ ∀ s h, FormFault (form s h) := by
  unfold cmdOf at hc
  split at hc
  -- `hc` rules out the rows that are no command, `hd` the unit commands.
  all_goals (cases hc <;> cases hd)
  all_goals
    simp only [moduleNow]
    exact ⟨_, _, _, by rfl, fun _ _ => by simp⟩

/-- DEV_INFO, POWER_READ and CERT_READ have no form check of their own. -/
theorem moduleNow_formless {c : Instr} {h : Hdr} (hc : c ∈ [.devInfo h, .powerRead h, .certRead h]) :
    ∃ foreign body, moduleNow c = runModule c noForm foreign body := by
  simp only [List.mem_cons, List.not_mem_nil, or_false] at hc
  obtain rfl | rfl | rfl := hc <;> simp only [moduleNow] <;> exact ⟨_, _, rfl⟩

theorem admitModule_headerBad {h : Hdr} {i : CmdInfo} (s : State) (c : Instr) (form : State → Hdr → Option Status)
    (foreign : State → Hdr → Bool) (hb : headerBad h i = true) : admitModule s c h i form foreign = some .badParam := by
  simp [admitModule, hb]

/-- A path other than the module's is refused once the form checks have passed (R86, R87). -/
theorem admitModule_path {c : Instr} {h : Hdr} {i : CmdInfo} (s : State) (form : State → Hdr → Option Status)
    (foreign : State → Hdr → Bool) (hb : headerBad h i = false) (hw : c.wf = true) (hp : h.path ≠ 0) :
    admitModule s c h i form foreign = some ((form s h).getD .badUnit) := by
  simp only [admitModule, hb, hw, hp, ne_eq, not_false_eq_true, if_true]
  cases form s h <;> rfl

/-- A module command that its admission refuses: its reply is the whole step (R86, R87). -/
theorem exec_module_refused {c : Instr} {h : Hdr} {i : CmdInfo} {s : State} {form : State → Hdr → Option Status}
    {foreign : State → Hdr → Bool} {body : State → Nat → Hdr → State} {st : Status} (hc : cmdOf c = some (h, i))
    (hu : unhindered s c h = true) (hs : h.src ≠ .sideband) (hd : unitDefOf c = none)
    (hm : moduleNow c = runModule c form foreign body) (ha : admitModule s.taken c h i form foreign = some st) :
    exec c s = .next (moduleOutcome s s.taken c st []) := by
  have hside : sideCheck s.taken c h = none := by
    unfold sideCheck
    split
    · contradiction
    · rfl
  rw [exec_module s hc hd, submit_unhindered _ hc hu, hm]
  simp [runModule, hc, hside, ha, moduleOutcome]

/-- What a module command with a malformed path is answered: its form check's fault, else `BAD_UNIT`. -/
theorem exec_module_pathInvalid {c : Instr} {h : Hdr} {i : CmdInfo} {s : State} (hc : cmdOf c = some (h, i))
    (hu : unhindered s c h = true) (hs : h.src ≠ .sideband) (hd : unitDefOf c = none) (hb : headerBad h i = false)
    (hw : c.wf = true) (hp : pathInvalid h.path = true) :
    ∃ st, exec c s = .next (moduleOutcome s s.taken c st []) ∧
      (st = .badUnit ∨ st = .badParam ∨ st = .alignFault ∨ st = .engineFused) ∧
      (c ∈ [.devInfo h, .powerRead h, .certRead h] → st = .badUnit) := by
  have hz := ne_zero_of_pathInvalid hp
  by_cases hl : c ∈ [.devInfo h, .powerRead h, .certRead h]
  · obtain ⟨foreign, body, hm⟩ := moduleNow_formless hl
    exact ⟨.badUnit, exec_module_refused hc hu hs hd hm (admitModule_path _ _ _ hb hw hz), .inl rfl, fun _ => rfl⟩
  · obtain ⟨form, foreign, body, hm, hform⟩ := moduleNow_checked hc hd
    refine ⟨_, exec_module_refused hc hu hs hd hm (admitModule_path _ _ _ hb hw hz), ?_, fun hc => absurd hc hl⟩
    cases hf : form s.taken h with
    | none => exact .inl rfl
    | some st => exact .inr (hform s.taken h st hf)

/-! ### The refusals have no side effect -/

theorem onlyReplied_unitRefusal (s : State) (c : Instr) (h : Hdr) (d : UnitDef) (r : Refuse) :
    onlyReplied s (refuseUnit s.taken s.lodge.nextId c h d r) :=
  onlyReplied_trans (onlyReplied_taken s) (onlyReplied_refuseUnit _ _ _ _ _ _)

theorem onlyReplied_moduleRefusal (s : State) (c : Instr) (st : Status) : onlyReplied s (moduleOutcome s s.taken c st []) :=
  onlyReplied_trans (onlyReplied_taken s) (onlyReplied_finishModule _ _ _ _ _)

/-- Settles O45: each kind of malformed path fails an admission check, and what admission refuses is replied to and no more. -/
theorem malformedPathsRefused : Obligations.MalformedPathsRefused := by
  intro s c h i hc hu hs
  refine ⟨fun d hd hbit => ?_, fun d hd hb hw hf hp => ?_, fun hd hbit => ?_, fun hd hb hw hp => ?_⟩
  · have hr := admitUnit_headerBad s.taken c d (headerBad_of_pathBit20 i hbit)
    exact ⟨_, exec_unit_refused hc hu hs hd hr, rfl, onlyReplied_unitRefusal s c h d _⟩
  · have hr := admitUnit_pathInvalid hb hw hf ((pathInvalid_iff h.path).mpr hp)
    exact ⟨_, exec_unit_refused hc hu hs hd hr, rfl, onlyReplied_unitRefusal s c h d _⟩
  · obtain ⟨form, foreign, body, hm, -⟩ := moduleNow_checked hc hd
    have hr := admitModule_headerBad s.taken c form foreign (headerBad_of_pathBit20 i hbit)
    exact ⟨_, exec_module_refused hc hu hs hd hm hr, rfl, onlyReplied_moduleRefusal s c _⟩
  · obtain ⟨st, he, hst, hl⟩ := exec_module_pathInvalid hc hu hs hd hb hw ((pathInvalid_iff h.path).mpr hp)
    exact ⟨_, st, he, rfl, onlyReplied_moduleRefusal s c st, hst, hl⟩

end Sys2Proof.Machine
end

section
/-!
PROOF. O46 (R69): the range test of `REPLYHEAD`, and what the disable of a ring discards. The disable ends by writing the completion
events that fall due: none of them enters the store of a disabled ring, and what they send to peers changes the fabric alone.
-/

namespace Sys2Proof.Machine

/-! ### Sending changes the fabric alone -/

/-- Nothing changed but the fabric. -/
def fabricOnly (s t : State) : Prop := ∃ f, t = { s with fabric := f }

theorem fabricOnly_refl (s : State) : fabricOnly s s := ⟨_, rfl⟩

theorem fabricOnly_trans {s t u : State} (h : fabricOnly s t) (k : fabricOnly t u) : fabricOnly s u := by
  obtain ⟨_, rfl⟩ := h
  obtain ⟨f, rfl⟩ := k
  exact ⟨f, rfl⟩

theorem fabricOnly_spendRound (s : State) (course : Nat) (peer : W32) (cls : Nat) :
    fabricOnly s (spendRound s course peer cls) := by
  unfold spendRound
  split
  · exact fabricOnly_refl s
  · exact ⟨_, rfl⟩

theorem fabricOnly_answerLink (s : State) (ch : Nat) (nack park : Bool) (credit : Nat) (cvl : Byte) :
    fabricOnly s (answerLink s ch nack park credit cvl) := by
  unfold answerLink
  dsimp only
  split
  · exact fabricOnly_refl s
  · exact ⟨_, rfl⟩

theorem fabricOnly_creditBack (s : State) (f : LinkFrame) (b : Option (Nat × Byte)) : fabricOnly s (creditBack s f b) := by
  cases b with
  | none => exact fabricOnly_refl s
  | some b => exact fabricOnly_answerLink s _ _ _ _ _

theorem fabricOnly_launch (s : State) (course : Nat) (peer : W32) (q : QFrame) (ch : Nat) :
    fabricOnly s (launch s course peer q ch) :=
  fabricOnly_trans (fabricOnly_trans (fabricOnly_spendRound s course peer (frameClass q.frame)) ⟨_, rfl⟩)
    (fabricOnly_creditBack _ _ _)

theorem fabricOnly_serve (n : Nat) (s : State) (course : Nat) (peer : W32) : fabricOnly s (serve n s course peer) := by
  induction n generalizing s with
  | zero => exact fabricOnly_refl s
  | succ n ih =>
    unfold serve
    split
    · exact fabricOnly_trans (fabricOnly_launch s _ _ _ _) (ih _)
    · exact fabricOnly_refl s

theorem fabricOnly_queueFrame (s : State) (course : Nat) (peer : W32) (q : QFrame) :
    fabricOnly s (queueFrame s course peer q) :=
  fabricOnly_trans ⟨_, rfl⟩ (fabricOnly_serve _ _ _ _)

theorem fabricOnly_sendOn {s t : State} {old : Option (Nat × W32)} {q : QFrame} (h : sendOn s old q = some t) :
    fabricOnly s t := by
  unfold sendOn at h
  dsimp only at h
  split at h
  · split at h
    · obtain rfl := Option.some.inj h
      exact fabricOnly_queueFrame s _ _ _
    · contradiction
  · contradiction

theorem fabricOnly_sendOn_getD (s : State) (old : Option (Nat × W32)) (q : QFrame) :
    fabricOnly s ((sendOn s old q).getD (waitFrame s q)) := by
  cases h : sendOn s old q with
  | none => exact ⟨_, rfl⟩
  | some t => exact fabricOnly_sendOn h

theorem fabricOnly_foldl {α : Type} (l : List α) (f : State → α → State) (hf : ∀ s a, fabricOnly s (f s a)) (s : State) :
    fabricOnly s (l.foldl f s) := by
  induction l generalizing s with
  | nil => exact fabricOnly_refl s
  | cons a t ih => exact fabricOnly_trans (hf s a) (ih _)

theorem fabricOnly_postMsg (s : State) (allot : W16) (dest : W32) (ftype : Byte) (cls : Nat) (bs : List Byte) :
    fabricOnly s (postMsg s allot dest ftype cls bs) := by
  unfold postMsg
  split
  · exact fabricOnly_refl s
  · exact fabricOnly_trans ⟨_, rfl⟩ (fabricOnly_foldl _ _ (fun s _ => fabricOnly_sendOn_getD s _ _) _)

theorem fabricOnly_sendPeerReply (s : State) (addr : W32) (allot : W16) (k : OutPkt) :
    fabricOnly s (s.send (.peerReply addr allot k)) :=
  fabricOnly_trans ⟨_, rfl⟩ (fabricOnly_postMsg (s.record (.peerReply addr allot k)) _ _ _ _ _)

/-! ### Completion events beside a disabled ring -/

/-- No step to come, no command in progress and no port whose ring is disabled changed. -/
def disabledRingsKept (s t : State) : Prop :=
  t.pending = s.pending ∧ t.lodge.ops = s.lodge.ops ∧ ∀ p, (s.port p).enable = false → t.port p = s.port p

theorem disabledRingsKept_refl (s : State) : disabledRingsKept s s := ⟨rfl, rfl, fun _ _ => rfl⟩

theorem disabledRingsKept_trans {s t u : State} (h : disabledRingsKept s t) (k : disabledRingsKept t u) :
    disabledRingsKept s u := by
  obtain ⟨hpend, hops, hport⟩ := h
  obtain ⟨kpend, kops, kport⟩ := k
  refine ⟨kpend.trans hpend, kops.trans hops, fun p hp => ?_⟩
  have heq := hport p hp
  exact (kport p (heq ▸ hp)).trans heq

theorem disabledRingsKept_foldl {α : Type} (l : List α) (f : State → α → State) (hf : ∀ s a, disabledRingsKept s (f s a))
    (s : State) : disabledRingsKept s (l.foldl f s) := by
  induction l generalizing s with
  | nil => exact disabledRingsKept_refl s
  | cons a t ih => exact disabledRingsKept_trans (hf s a) (ih _)

theorem disabledRingsKept_of_fabricOnly {s t : State} (h : fabricOnly s t) : disabledRingsKept s t := by
  obtain ⟨f, rfl⟩ := h
  exact ⟨rfl, rfl, fun p _ => by cases p <;> rfl⟩

theorem disabledRingsKept_callDies (s : State) (l : List Nat) : disabledRingsKept s (s.callDies l) :=
  ⟨rfl, rfl, fun p _ => by cases p <;> rfl⟩

theorem disabledRingsKept_fresh (s : State) : disabledRingsKept s s.fresh.2 :=
  ⟨rfl, rfl, fun p _ => by cases p <;> rfl⟩

theorem disabledRingsKept_combinedState (s : State) (c : List Nat) : disabledRingsKept s (s.combinedState c).2 := by
  unfold State.combinedState
  split
  · exact disabledRingsKept_refl s
  · exact disabledRingsKept_fresh s

/-- A disabled ring takes no event (R69, R71). -/
theorem Port.putEvent_disabled {x : Port} (h : x.enable = false) (group : Nat) (completion : Bool) (k : OutPkt) :
    x.putEvent group completion k = x := by
  simp [Port.putEvent, h]

theorem disabledRingsKept_putEvent (s : State) (p : PortIx) (group : Nat) (completion : Bool) (k : OutPkt) :
    disabledRingsKept s (s.modPort p (fun x => x.putEvent group completion k)) := by
  refine ⟨by simp, by simp, fun q hq => ?_⟩
  by_cases hqp : q = p
  · subst hqp
    rw [State.port_modPort, Port.putEvent_disabled hq]
  · exact State.port_modPort_ne s p q _ hqp

theorem disabledRingsKept_completionEvent (s : State) (w : Watch) : disabledRingsKept s (completionEvent s w) := by
  unfold completionEvent
  split
  · dsimp only
    refine disabledRingsKept_trans (disabledRingsKept_combinedState s (w.op.summary s false).counts) ?_
    split
    · exact disabledRingsKept_trans (disabledRingsKept_callDies _ _)
        (disabledRingsKept_of_fabricOnly (fabricOnly_sendPeerReply _ _ _ _))
    · exact disabledRingsKept_foldl _ _
        (fun s _ => disabledRingsKept_trans (disabledRingsKept_callDies s _) (disabledRingsKept_putEvent _ _ _ _ _)) _
  · exact disabledRingsKept_refl s

theorem disabledRingsKept_flushWatches (s : State) : disabledRingsKept s s.flushWatches :=
  disabledRingsKept_trans
    (t := { s with lodge := { s.lodge with watches := s.lodge.watches.filter (fun w => !watchDue s w) } })
    ⟨rfl, rfl, fun p _ => by cases p <;> rfl⟩ (disabledRingsKept_foldl _ _ disabledRingsKept_completionEvent _)

/-! ### Writes of `REPLYHEAD` -/

/-- A write of `REPLYHEAD` goes to its port's index, or to HEAD_ERR. -/
theorem exec_replyheadWrite {s : State} {p : PortIx} (v : W32) (hr : (s.port p).reached = true) :
    exec (.replyheadWrite p v) s = .next (s.setPort p ((s.port p).writeHeadIndex v.toNat)) := by
  show execReplyheadWrite p v s = _
  rw [execReplyheadWrite, hostAccess, if_pos hr, State.modPort]

/-- From HEAD up to TAIL round the ring: the write moves HEAD. -/
theorem Port.writeHeadIndex_inRange {x : Port} {v : Nat} (hv : v % 65536 < x.ringSize)
    (hd : (v % 65536 + x.ringSize - x.head) % x.ringSize ≤ (x.tail + x.ringSize - x.head) % x.ringSize) :
    x.writeHeadIndex v = { x with head := v % 65536 } := by
  simp [Port.writeHeadIndex, hv, hd]

/-- No entry of the ring, or one beyond TAIL: the write is ignored. -/
theorem Port.writeHeadIndex_outOfRange {x : Port} {v : Nat} (h : x.ringSize ≤ v % 65536 ∨
    (x.tail + x.ringSize - x.head) % x.ringSize < (v % 65536 + x.ringSize - x.head) % x.ringSize) :
    x.writeHeadIndex v = { x with headErr := true } := by
  have hn : ¬ (v % 65536 < x.ringSize ∧
      (v % 65536 + x.ringSize - x.head) % x.ringSize ≤ (x.tail + x.ringSize - x.head) % x.ringSize) := by omega
  simp [Port.writeHeadIndex, hn]

/-! ### The disable of a ring -/

@[simp] theorem Port.signal_enable (x : Port) : x.signal.enable = x.enable := by
  unfold Port.signal
  dsimp only
  split <;> rfl

@[simp] theorem Port.recheck_enable (x : Port) : x.recheck.enable = x.enable := by
  unfold Port.recheck
  dsimp only
  split
  · exact Port.signal_enable _
  · rfl

/-- The settings and RW1C bits that a `REPLYCTL` write takes, whatever its ENABLE (Table 3-8e). -/
def Port.takeSettings (x : Port) (v : Nat) : Port :=
  Port.recheck { x with
    irqEn := bitOf v 1, vector := BitVec.ofNat 6 (v / 4), coalesceCount := BitVec.ofNat 8 (v / 2 ^ 8),
    coalesceTime := BitVec.ofNat 12 (v / 2 ^ 16), headErr := x.headErr && !bitOf v 29, cfgErr := x.cfgErr && !bitOf v 30 }

@[simp] theorem Port.takeSettings_enable (x : Port) (v : Nat) : (x.takeSettings v).enable = x.enable := Port.recheck_enable _

/-- A write of ENABLE 0 to an enabled port takes the settings, then disables the ring. -/
theorem State.writeReplyCtl_disables {s : State} {p : PortIx} {v : W32} (hv : bitOf v.toNat 0 = false)
    (he : (s.port p).enable = true) :
    s.writeReplyCtl p v = (s.modPort p (fun x => x.takeSettings v.toNat)).disableRing p := by
  have hen : ((s.modPort p (fun x => x.takeSettings v.toNat)).port p).enable = true := by simp [he]
  show (if bitOf v.toNat 0 then _ else if ((s.modPort p (fun x => x.takeSettings v.toNat)).port p).enable then _ else _) = _
  rw [if_neg (ne_true_of_eq_false hv), if_pos hen]
  rfl

theorem exec_replyRingDisable_enabled {s : State} {p : PortIx} {v : W32} (hr : (s.port p).reached = true)
    (hv : v.getLsbD 0 = false) (he : (s.port p).enable = true) :
    exec (.replyRingDisable p v) s = .next ((s.modPort p (fun x => x.takeSettings v.toNat)).disableRing p) := by
  have hbit : bitOf v.toNat 0 = false := by
    simpa [bitOf, BitVec.getLsbD, Nat.testBit_eq_decide_div_mod_eq] using hv
  show execReplyRingDisable p v s = _
  rw [execReplyRingDisable, hostAccess, if_pos hr, if_neg (ne_true_of_eq_false hv), State.writeReplyCtl_disables hbit he]

/-- The state of a disabled ring before the completion events that fall due: its store is empty, and the replies that waited for that
store are gone (R69). -/
def State.discardRing (s : State) (p : PortIx) : State :=
  let t := s.modPort p (fun x => { x with enable := false, hold := [], unsignalled := 0, timerArmed := false })
  { t with lodge := { t.lodge with ops := t.lodge.ops.filter (fun o => decide (o.wait ≠ OpWait.store p)) } }

theorem State.disableRing_eq (s : State) (p : PortIx) : s.disableRing p = (s.discardRing p).flushWatches := rfl

theorem State.discardRing_port (s : State) (p : PortIx) : (s.discardRing p).port p =
    { s.port p with enable := false, hold := [], unsignalled := 0, timerArmed := false } := by
  cases p <;> rfl

theorem State.discardRing_ops (s : State) (p : PortIx) :
    (s.discardRing p).lodge.ops = s.lodge.ops.filter (fun o => decide (o.wait ≠ OpWait.store p)) := by
  cases p <;> rfl

theorem State.discardRing_pending (s : State) (p : PortIx) : (s.discardRing p).pending = s.pending :=
  State.modPort_pending s p _

theorem State.disableRing_port (s : State) (p : PortIx) : (s.disableRing p).port p = (s.discardRing p).port p := by
  obtain ⟨-, -, hport⟩ := disabledRingsKept_flushWatches (s.discardRing p)
  rw [State.disableRing_eq]
  exact hport p (by rw [State.discardRing_port])

theorem State.disableRing_ops (s : State) (p : PortIx) :
    (s.disableRing p).lodge.ops = s.lodge.ops.filter (fun o => decide (o.wait ≠ OpWait.store p)) := by
  obtain ⟨-, hops, -⟩ := disabledRingsKept_flushWatches (s.discardRing p)
  rw [State.disableRing_eq]
  exact hops.trans (State.discardRing_ops s p)

theorem State.disableRing_pending (s : State) (p : PortIx) : (s.disableRing p).pending = s.pending := by
  obtain ⟨hpend, -, -⟩ := disabledRingsKept_flushWatches (s.discardRing p)
  rw [State.disableRing_eq]
  exact hpend.trans (State.discardRing_pending s p)

theorem onlyReplied_disableRing (s : State) (p : PortIx) : onlyReplied s (s.disableRing p) :=
  onlyReplied_trans (onlyReplied_modPort s p _) (onlyReplied_flushWatches (s.discardRing p))

/-- Settles O46: the range test by its two cases; the disable by what `disableRing` leaves, since the events written after it cannot
enter the store of a disabled ring. -/
theorem replyHeadAndDisable : Obligations.ReplyHeadAndDisable := by
  intro s p v hr
  refine ⟨fun hv hd => ?_, fun hout => ?_, fun hv he => ?_⟩
  · rw [exec_replyheadWrite v hr, Port.writeHeadIndex_inRange hv hd]
  · rw [exec_replyheadWrite v hr, Port.writeHeadIndex_outOfRange hout]
  · obtain ⟨hsheaves, hmem, hallots, -, -, -, -, -, hwaiting, -, -⟩ :=
      onlyReplied_trans (onlyReplied_modPort s p (fun x => x.takeSettings v.toNat)) (onlyReplied_disableRing _ p)
    refine ⟨_, exec_replyRingDisable_enabled hr hv he, ?_, ?_, hwaiting, ?_, ?_, hsheaves, hmem, hallots⟩
    · rw [State.disableRing_port, State.discardRing_port]
    · rw [State.disableRing_port, State.discardRing_port]
    · rw [State.disableRing_pending, State.modPort_pending]
    · rw [State.disableRing_ops, State.modPort_lodge]

end Sys2Proof.Machine
end

section
/-!
SUPPORT. What an instruction of a stream does once it issues, said once per shape: reading a scalar register back, where the stream goes
next, what a fault leaves of the reed, and the first flaw of checks made one after another.
-/

namespace Sys2Proof.Machine

/-! ### Scalar registers (R117) -/

theorem Reed.s_lt (x : Reed) (n : Nat) : x.s n < 2 ^ 32 := by
  unfold Reed.s
  cases x.regs.toList[n]? with
  | none => simp
  | some v => exact v.isLt

theorem Reed.s_setS_self (x : Reed) {n : Nat} (hn : n < 16) (v : Nat) : (x.setS n v).s n = v % 2 ^ 32 := by
  simp [Reed.s, Reed.setS, hn]

/-! ### Where the stream goes next (R145) -/

/-- Where the stream goes next depends on the index and the loops alone. -/
theorem Reed.advance_place {x y : Reed} (hi : y.index = x.index) (hl : y.loops = x.loops) :
    y.advance.index = x.advance.index ∧ y.advance.loops = x.advance.loops := by
  simp [Reed.advance, hi, hl]

theorem afterEntry_of_ne {i : Nat} {ls : List Loop} (h : ls.head?.map (·.stop) ≠ some i) : afterEntry i ls = (i + 1, ls) := by
  cases ls with
  | nil => rfl
  | cons l rest => exact if_neg (fun hi => h (by simp [hi]))

theorem afterEntry_round {l : Loop} (rest : List Loop) (h : l.iter.toNat + 1 < l.count.toNat) :
    afterEntry l.stop (l :: rest) = (l.start + 1, { l with iter := l.iter + 1 } :: rest) := by
  simp [afterEntry, h]

theorem afterEntry_last {l : Loop} (rest : List Loop) (h : ¬ l.iter.toNat + 1 < l.count.toNat) :
    afterEntry l.stop (l :: rest) = afterEntry l.stop rest := by
  simp [afterEntry, h]

/-! ### Flaws -/

theorem firstFlaw_append_of_none {l : List (Bool × Flaw)} (m : List (Bool × Flaw)) (h : firstFlaw l = none) :
    firstFlaw (l ++ m) = firstFlaw m := by
  induction l with
  | nil => rfl
  | cons e l ih =>
    obtain ⟨bad, f⟩ := e
    cases bad
    · exact ih h
    · cases h

theorem firstFlaw_eq_none_iff (l : List (Bool × Flaw)) : firstFlaw l = none ↔ ∀ e ∈ l, e.1 = false := by
  induction l with
  | nil => simp [firstFlaw]
  | cons e l ih =>
    obtain ⟨bad, f⟩ := e
    cases bad <;> simp [firstFlaw, ih]

/-! ### Faults (R140) -/

theorem State.reed_of_sheaves {s t : State} (h : t.sheaves = s.sheaves) (q : Nat) : t.reed q = s.reed q := by
  simp [State.reed, State.sheaf, h]

@[simp] theorem State.reed_flushWatches (s : State) (q : Nat) : s.flushWatches.reed q = s.reed q :=
  State.reed_of_sheaves (onlyReplied_flushWatches s).1 q

@[simp] theorem Sheaf.noteFault_reeds (x : Sheaf) (r cause : Nat) : (x.noteFault r cause).reeds = x.reeds := by
  unfold Sheaf.noteFault
  split <;> rfl

theorem reed_enterFaulted (s : State) (r cause : Nat) :
    (enterFaulted s r cause).reed r = { (s.reed r).dropQueued with st := .faulted, hold := .none } := by
  unfold enterFaulted
  rw [State.reed_modSheaf _ _ _ _ (by simp), State.reed_modReed]

@[simp] theorem streamFault_st (s : State) (r : Nat) (f : Flaw) (i : Nat) : ((streamFault s r f i).reed r).st = .faulted := by
  rw [streamFault, State.reed_flushWatches, reed_enterFaulted]

theorem streamFault_qmx (s : State) (r : Nat) (f : Flaw) (i : Nat) :
    ((streamFault s r f i).reed r).qmx = (s.reed r).qmx.filter (·.started) := by
  rw [streamFault, State.reed_flushWatches, reed_enterFaulted, State.reed_modReed]
  split <;> rfl

theorem streamFault_qld (s : State) (r : Nat) (f : Flaw) (i : Nat) :
    ((streamFault s r f i).reed r).qld = (s.reed r).qld.filter (·.started) := by
  rw [streamFault, State.reed_flushWatches, reed_enterFaulted, State.reed_modReed]
  split <;> rfl

/-! ### Scalar instructions -/

/-- The conditions under which an instruction issues, one by one. -/
theorem issues_iff (s : State) (r : ReedIx) (w : BitVec 256) :
    issues s r w = true ↔ (s.reed r).st = .running ∧ (s.reed r).ended = false ∧ clockRuns s (r / 4096) = true ∧
      (s.sheaf (r / 4096)).retired (r % 4096) = false ∧ (s.reed r).index < 64 ∧ pageWill (s.reed r) (s.reed r).index = false ∧
      KMap.look (s.reed r).ibuf (s.reed r).index = some w := by
  simp only [issues, Bool.and_eq_true, Bool.not_eq_true', decide_eq_true_eq, and_assoc]

theorem running_of_issues {s : State} {r : ReedIx} {w : BitVec 256} (hi : issues s r w = true) : (s.reed r).st = .running :=
  ((issues_iff s r w).mp hi).1

section
variable {s : State} {r : ReedIx} {w : BitVec 256} {opc : Nat} {flaws : BitVec 256 → Reed → Option Flaw}
  {eff : State → BitVec 256 → Reed → Reed}

theorem issue_scalar (hi : issues s r w = true) (ho : insOpc w = opc) (hk : opcodes.contains opc = true)
    (hf : flaws w (s.reed r) = none) :
    issue s r opc (scalar r flaws eff) = s.setReed r (eff s w (s.reed r)).advance := by
  rw [issue_issues _ hi ho hk]
  simp [scalar, hf]

theorem issue_scalar_flaw {f : Flaw} (hi : issues s r w = true) (ho : insOpc w = opc) (hk : opcodes.contains opc = true)
    (hf : flaws w (s.reed r) = some f) :
    issue s r opc (scalar r flaws eff) = streamFault s r f (s.reed r).index := by
  rw [issue_issues _ hi ho hk]
  simp [scalar, hf]

theorem exec_alu (hi : issues s r w = true) (ho : insOpc w = 0x02) (hf : aluFlaw w (s.reed r) = none) :
    exec (.alu r) s = .next (s.setReed r ((s.reed r).setS (insSD w) (aluResult w (s.reed r)).toNat).advance) :=
  congrArg Host.Outcome.next (issue_scalar hi ho (by decide) hf)

theorem exec_movr (hi : issues s r w = true) (ho : insOpc w = 0x05) (hf : movrFlaw w (s.reed r) = none) :
    exec (.movr r) s = .next (s.setReed r ((s.reed r).setS (insSD w) (if bitOf (insByte w 2) 0
      then (reedReg s r (insByte w 3)).getD 0 / 2 ^ 32 else (reedReg s r (insByte w 3)).getD 0 % 2 ^ 32)).advance) :=
  congrArg Host.Outcome.next (issue_scalar hi ho (by decide) hf)

theorem exec_br (hi : issues s r w = true) (ho : insOpc w = 0x09) (hf : brFlaw w (s.reed r) = none) :
    exec (.br r) s = .next (if brTaken (insByte w 2 / 32) (BitVec.ofNat 32 ((s.reed r).s (insSA w)))
        (BitVec.ofNat 32 ((s.reed r).s (insSB w)))
      then s.setReed r { (s.reed r).branchTo (insByte w 3) with hold := .none } else s.setReed r (s.reed r).advance) := by
  refine congrArg Host.Outcome.next ((issue_issues _ hi ho (by decide)).trans ?_)
  simp [hf]

theorem exec_loop (hi : issues s r w = true) (ho : insOpc w = 0x08) (hf : loopFlaw w (s.reed r) = none) :
    exec (.loop r) s = .next (s.setReed r (enterLoop w (s.reed r))) := by
  refine congrArg Host.Outcome.next ((issue_issues _ hi ho (by decide)).trans ?_)
  simp [hf]

end

theorem insSD_lt (w : BitVec 256) : insSD w < 16 := Nat.mod_lt _ (by decide)

end Sys2Proof.Machine
end

section
/-!
PROOF. O38 (R131): the scalar functions and branch conditions, each shown on 32-bit words and then read off the instruction.
-/

namespace Sys2Proof.Machine

/-! ### Table 5-14 on numbers below 2^32 -/

/-- The two's complement reading of 32 bits, as R131 states it. -/
def SignedReading (sg : Nat → Int) : Prop := ∀ v, sg v = if v < 2 ^ 31 then (v : Int) else (v : Int) - 2 ^ 32

theorem toInt_ofNat_signed {sg : Nat → Int} (hsg : SignedReading sg) {a : Nat} (ha : a < 2 ^ 32) :
    (BitVec.ofNat 32 a).toInt = sg a := by
  rw [hsg, BitVec.toInt_eq_toNat_cond, BitVec.toNat_ofNat, Nat.mod_eq_of_lt ha]
  split <;> split <;> omega

theorem toNat_sshiftRight_signed {sg : Nat → Int} (hsg : SignedReading sg) {a : Nat} (ha : a < 2 ^ 32) (k : Nat) :
    ((BitVec.ofNat 32 a).sshiftRight k).toNat = (sg a / 2 ^ k % 2 ^ 32).toNat := by
  simp [BitVec.sshiftRight, toInt_ofNat_signed hsg ha, Int.shiftRight_eq_div_pow, BitVec.toNat_ofInt]

/-- The functions of Table 5-14. -/
theorem aluFn_table {sg : Nat → Int} (hsg : SignedReading sg) {a b : Nat} (ha : a < 2 ^ 32) (hb : b < 2 ^ 32) :
    ∀ p ∈ [(0, (a + b) % 2 ^ 32), (1, (a + 2 ^ 32 - b) % 2 ^ 32), (2, a * b % 2 ^ 32), (3, a &&& b), (4, a ||| b), (5, a ^^^ b),
        (6, a * 2 ^ (b % 32) % 2 ^ 32), (7, a / 2 ^ (b % 32)), (8, (sg a / 2 ^ (b % 32) % 2 ^ 32).toNat),
        (9, if sg a ≤ sg b then a else b), (10, if sg a ≤ sg b then b else a), (11, min a b), (12, max a b)],
      (aluFn p.1 (BitVec.ofNat 32 a) (BitVec.ofNat 32 b)).toNat = p.2 := by
  have na : (BitVec.ofNat 32 a).toNat = a := by rw [BitVec.toNat_ofNat, Nat.mod_eq_of_lt ha]
  have nb : (BitVec.ofNat 32 b).toNat = b := by rw [BitVec.toNat_ofNat, Nat.mod_eq_of_lt hb]
  have ia := toInt_ofNat_signed hsg ha
  have ib := toInt_ofNat_signed hsg hb
  simp only [List.forall_mem_cons, aluFn]
  refine ⟨?add, ?sub, ?mul, ?and, ?or, ?xor, ?shl, ?shr, ?sar, ?smin, ?smax, ?umin, ?umax, by simp⟩
  case add => rw [BitVec.toNat_add, na, nb]
  case sub => rw [BitVec.toNat_sub, na, nb]; omega
  case mul => rw [BitVec.toNat_mul, na, nb]
  case and => rw [BitVec.toNat_and, na, nb]
  case or => rw [BitVec.toNat_or, na, nb]
  case xor => rw [BitVec.toNat_xor, na, nb]
  case shl => rw [BitVec.toNat_shiftLeft, na, nb, Nat.shiftLeft_eq]
  case shr => rw [BitVec.toNat_ushiftRight, na, nb, Nat.shiftRight_eq_div_pow]
  case sar => rw [nb, toNat_sshiftRight_signed hsg ha]
  case smin => rw [ia, ib, apply_ite BitVec.toNat, na, nb]
  case smax => rw [ia, ib, apply_ite BitVec.toNat, na, nb]
  case umin => rw [apply_ite BitVec.toNat, na, nb, Nat.min_def]
  case umax => rw [apply_ite BitVec.toNat, na, nb, Nat.max_def]

/-- The conditions of Table 5-14. -/
theorem brTaken_table {sg : Nat → Int} (hsg : SignedReading sg) {a b : Nat} (ha : a < 2 ^ 32) (hb : b < 2 ^ 32) :
    ∀ p ∈ [(0, true), (1, decide (a = 0)), (2, decide (a ≠ 0)), (3, decide (sg a < sg b)), (4, decide (sg b ≤ sg a)),
        (5, decide (a < b)), (6, decide (b ≤ a))],
      brTaken p.1 (BitVec.ofNat 32 a) (BitVec.ofNat 32 b) = p.2 := by
  have na : (BitVec.ofNat 32 a).toNat = a := by rw [BitVec.toNat_ofNat, Nat.mod_eq_of_lt ha]
  have nb : (BitVec.ofNat 32 b).toNat = b := by rw [BitVec.toNat_ofNat, Nat.mod_eq_of_lt hb]
  have hz : BitVec.ofNat 32 a = 0 ↔ a = 0 := by rw [← BitVec.toNat_inj, na]; rfl
  have ia := toInt_ofNat_signed hsg ha
  have ib := toInt_ofNat_signed hsg hb
  simp only [List.forall_mem_cons, brTaken]
  refine ⟨trivial, ?eqz, ?nez, ?lts, ?ges, ?ltu, ?geu, by simp⟩
  case eqz => rw [decide_eq_decide, hz]
  case nez => rw [decide_eq_decide, ne_eq, hz]
  case lts => rw [ia, ib]
  case ges => rw [ia, ib]
  case ltu => rw [na, nb]
  case geu => rw [na, nb]

/-! ### The operands of an instruction -/

theorem insAux_lt (w : BitVec 256) : insAux w < 2 ^ 32 := Nat.mod_lt _ (by decide)

theorem aluFlaw_reservedFn {w : BitVec 256} (x : Reed) (hn : 12 < insByte w 3)
    (hr : firstFlaw (reservedFlaws w (streamReserved w 0 0xE0 0 (aluImm w)) 1) = none) :
    aluFlaw w x = some (.fieldRange, 0) := by
  rw [aluFlaw, firstFlaw_append_of_none _ hr]
  simp [firstFlaw, hn]

theorem brFlaw_reservedCond {w : BitVec 256} (x : Reed) (hn : insByte w 2 / 32 = 7)
    (hr : firstFlaw (reservedFlaws w (streamReserved w 0x0F 0x10 0xC0 false) 1) = none) :
    brFlaw w x = some (.fieldRange, 0) := by
  rw [brFlaw, firstFlaw_append_of_none _ hr]
  simp [firstFlaw, hn]

/-- Settles O38: the tables of functions and conditions hold of the words that the instruction's operands are. -/
theorem scalarArithmetic : Obligations.ScalarArithmetic := by
  intro s r w a b sg hi ha hsg
  have ha32 : a < 2 ^ 32 := ha ▸ (s.reed r).s_lt _
  have hrun := running_of_issues hi
  refine ⟨fun ho hf hb p hp hfn => ?_, fun ho hn hr => ?_, fun ho hf hb p hp hcond => ?_, fun ho hn hr => ?_⟩
  · have hb32 : b < 2 ^ 32 := by
      rw [hb]
      split
      · exact insAux_lt w
      · exact (s.reed r).s_lt _
    have hres : (aluResult w (s.reed r)).toNat = p.2 := by
      rw [← aluFn_table hsg ha32 hb32 p hp, ← hfn, ha, hb]
      rfl
    refine ⟨_, exec_alu hi ho hf, ?_, ?_⟩
    · rw [State.reed_setReed, hres]
      exact (Reed.s_setS_self _ (insSD_lt w) _).trans (Nat.mod_eq_of_lt (hres ▸ BitVec.isLt _))
    · rw [State.reed_setReed, Reed.advance_st, Reed.setS_st, hrun]
  · exact congrArg Host.Outcome.next (issue_scalar_flaw hi ho (by decide) (aluFlaw_reservedFn _ hn hr))
  · have hb32 : b < 2 ^ 32 := hb ▸ (s.reed r).s_lt _
    have htaken : brTaken (insByte w 2 / 32) (BitVec.ofNat 32 ((s.reed r).s (insSA w)))
        (BitVec.ofNat 32 ((s.reed r).s (insSB w))) = p.2 := by
      rw [← brTaken_table hsg ha32 hb32 p hp, ← hcond, ha, hb]
      rfl
    refine ⟨_, exec_br hi ho hf, ?_⟩
    rw [htaken]
    cases p.2 <;> simp [hrun, Reed.branchTo]
  · refine congrArg Host.Outcome.next ((issue_issues _ hi ho (by decide)).trans ?_)
    simp [brFlaw_reservedCond _ hn hr]

end Sys2Proof.Machine
end

section
/-!
PROOF. O43 (R119): `LC`*n* holds ITER in its low half and the count in its high half, and MOVR reads one half.
-/

namespace Sys2Proof.Machine

theorem reedReg_lc (s : State) (r : Nat) {n : Nat} (hn : n < 4) : reedReg s r (0x10 + n) = some ((s.reed r).lc n) := by
  have h16 : ¬ 0x10 + n < 16 := by omega
  have hlc : 16 ≤ 0x10 + n ∧ 0x10 + n < 20 := by omega
  simp only [reedReg, if_neg h16, if_pos hlc, Nat.add_sub_cancel_left]

theorem Reed.lc_active {x : Reed} {n : Nat} {l : Loop} (h : x.loops.reverse[n]? = some l) :
    x.lc n = l.iter.toNat + 2 ^ 32 * l.count.toNat := by
  simp [Reed.lc, h]

theorem Reed.lc_inactive {x : Reed} {n : Nat} (h : x.loops.length ≤ n) : x.lc n = 0 := by
  simp [Reed.lc, h]

/-- The half of a register that HALF selects. -/
theorem half_lc (l : Loop) (high : Bool) :
    (if high then (l.iter.toNat + 2 ^ 32 * l.count.toNat) / 2 ^ 32 else (l.iter.toNat + 2 ^ 32 * l.count.toNat) % 2 ^ 32) =
      if high then l.count.toNat else l.iter.toNat := by
  have hi := l.iter.isLt
  cases high
  · simp only [Bool.false_eq_true, if_false]; omega
  · simp only [if_true]; omega

theorem movwFlaw_lc {w : BitVec 256} {n : Nat} (x : Reed) (hn : n < 4) (hreg : insByte w 3 = 0x10 + n)
    (hr : firstFlaw (reservedFlaws w (streamReserved w 0x0F 255 0 false) 1) = none) :
    movwFlaw w x = some (.badReg, 0) := by
  have hmem : 0x10 + n ∉ [0x21, 0x23, 0x28] := by simp; omega
  rw [movwFlaw, firstFlaw_append_of_none _ hr, hreg]
  simp [firstFlaw, hmem]

/-- Settles O43: the value of `LC`*n* by whether level *n* is active, and the check that MOVW fails. -/
theorem loopRegisters : Obligations.LoopRegisters := by
  intro s r w n hi hn hreg
  refine ⟨fun ho hf => ⟨_, exec_movr hi ho hf, ?_⟩, fun ho hr => ?_⟩
  · rw [State.reed_setReed, hreg, reedReg_lc s r hn, Option.getD_some]
    refine ⟨fun l hl => ?_, fun hl => ?_⟩
    · rw [Reed.lc_active hl, half_lc]
      refine (Reed.s_setS_self _ (insSD_lt w) _).trans (Nat.mod_eq_of_lt ?_)
      split
      · exact l.count.isLt
      · exact l.iter.isLt
    · rw [Reed.lc_inactive hl]
      refine (Reed.s_setS_self _ (insSD_lt w) _).trans ?_
      simp
  · exact congrArg Host.Outcome.next (issue_scalar_flaw hi ho (by decide) (movwFlaw_lc _ hn hreg hr))

end Sys2Proof.Machine
end

section
/-!
PROOF. O39 (R144): LOOP latches the count; writing a scalar register moves no loop.
-/

namespace Sys2Proof.Machine

theorem enterLoop_zero {w : BitVec 256} {x : Reed} (h : x.s (insSA w) = 0) :
    enterLoop w x = { x with index := insByte w 3 + 1, hold := .none } := by
  simp [enterLoop, h]

theorem enterLoop_pos {w : BitVec 256} {x : Reed} (h : x.s (insSA w) ≠ 0) :
    enterLoop w x = { x with
      index := x.index + 1, hold := .none,
      loops := { start := x.index, stop := insByte w 3, iter := 0, count := BitVec.ofNat 32 (x.s (insSA w)) } :: x.loops } := by
  simp [enterLoop, h]

theorem Reed.writeReg_scalar (x : Reed) {n : Nat} (hn : n < 16) (v : Nat) : x.writeReg n v = x.setS n v := if_pos hn

theorem exec_seti {s : State} {r : ReedIx} {w : BitVec 256} (hi : issues s r w = true) (ho : insOpc w = 0x01)
    (hf : setiFlaw w (s.reed r) = none) :
    exec (.seti r) s = .next (s.setReed r ((s.reed r).setS (insSD w) (insAux w)).advance) :=
  congrArg Host.Outcome.next (issue_scalar hi ho (by decide) hf)

theorem exec_sld {s : State} {r : ReedIx} {w : BitVec 256} {o : Operand} (hi : issues s r w = true) (ho : insOpc w = 0x03)
    (hw : wordOperand w (s.reed r) 0xF0 false = .ok o) (hq : waitsFor (s.reed r).allQueued [o.extent] [] = false) :
    exec (.sld r) s = .next (s.setReed r ((s.reed r).setS (insSD w)
      (ofLe (KMap.bytes (s.reed r).sp (o.base + 4 * (insByte w 2 % 4)) 4))).advance) := by
  refine congrArg Host.Outcome.next ((issue_issues _ hi ho (by decide)).trans ?_)
  simp [wordIssue, hw, hq]

/-- An instruction whose effect is to write a scalar register goes where one that writes nothing goes. -/
theorem place_of_setS {s t : State} {r : ReedIx} {n v : Nat} (h : t = s.setReed r ((s.reed r).setS n v).advance) :
    (t.reed r).index = (s.reed r).advance.index ∧ (t.reed r).loops = (s.reed r).advance.loops := by
  rw [h, State.reed_setReed]
  exact Reed.advance_place (Reed.setS_index _ _ _) (Reed.setS_loops _ _ _)

/-- Settles O39: the two outcomes of LOOP, and the rows whose effect is to write a scalar register. -/
theorem loopCounts : Obligations.LoopCounts := by
  intro s r w hi
  refine ⟨fun ho hf => ⟨_, exec_loop hi ho hf, fun hz => ?_, fun hnz => ?_⟩, ?_, fun o ho hw hq => ?_, fun n v hn => ?_⟩
  · rw [State.reed_setReed, enterLoop_zero hz]
    exact ⟨rfl, rfl⟩
  · rw [State.reed_setReed, enterLoop_pos hnz]
    exact ⟨rfl, rfl⟩
  · simp only [List.forall_mem_cons]
    refine ⟨fun ho hf => ?_, fun ho hf => ?_, fun ho hf => ?_, by simp⟩
    · exact ⟨_, exec_seti hi ho hf, place_of_setS rfl⟩
    · exact ⟨_, exec_alu hi ho hf, place_of_setS rfl⟩
    · exact ⟨_, exec_movr hi ho hf, place_of_setS rfl⟩
  · exact ⟨_, exec_sld hi ho hw hq, place_of_setS rfl⟩
  · rw [Reed.writeReg_scalar _ hn]
    exact ⟨Reed.setS_loops _ _ _, Reed.setS_index _ _ _⟩

end Sys2Proof.Machine
end

section
/-!
PROOF. O40 (R145): every row of the stream ends in one of three ways: it has faulted, its reed holds, or the stream has advanced from
the index and the loops the reed had.
-/

namespace Sys2Proof.Machine

/-- Where reed `r` still runs and holds nothing after `s` has become `t`, its stream has advanced past the instruction. -/
def advancedIfRuns (s : State) (r : ReedIx) (t : State) : Prop :=
  (t.reed r).st = .running → (t.reed r).hold = .none →
    (t.reed r).index = (s.reed r).advance.index ∧ (t.reed r).loops = (s.reed r).advance.loops

section
variable {s : State} {r : ReedIx} {w : BitVec 256} {opc : Nat}

theorem advancedIfRuns_streamFault (f : Flaw) (i : Nat) : advancedIfRuns s r (streamFault s r f i) := by
  intro hst
  rw [streamFault_st] at hst
  cases hst

theorem advancedIfRuns_hold {y : Reed} (h : y.hold ≠ .none) : advancedIfRuns s r (s.setReed r y) := by
  intro _ hhold
  rw [State.reed_setReed] at hhold
  exact absurd hhold h

theorem advancedIfRuns_advance {y : Reed} (hi : y.index = (s.reed r).index) (hl : y.loops = (s.reed r).loops) :
    advancedIfRuns s r (s.setReed r y.advance) := by
  intro _ _
  rw [State.reed_setReed]
  exact Reed.advance_place hi hl

theorem advancedIfRuns_ite {c : Prop} [Decidable c] {t u : State} (ht : advancedIfRuns s r t) (hu : advancedIfRuns s r u) :
    advancedIfRuns s r (if c then t else u) := by
  split
  · exact ht
  · exact hu

/-- What an instruction's row makes of the state is what its body makes of it, or the fault of an undefined OPC. -/
theorem advancedIfRuns_issue {body : State → Reed → BitVec 256 → State} (hi : issues s r w = true) (ho : insOpc w = opc)
    (hb : advancedIfRuns s r (body s (s.reed r) w)) : advancedIfRuns s r (issue s r opc body) := by
  by_cases hk : opcodes.contains opc = true
  · rwa [issue_issues body hi ho hk]
  · obtain ⟨hst, hend, hclk, hret, hix, hpage, hlook⟩ := (issues_iff s r w).mp hi
    have hn : issue s r opc body = streamFault s r (.illegalOpcode, 0) (s.reed r).index := by
      simp only [List.contains_iff_mem] at hk
      simp [issue, hst, hend, hclk, hret, hpage, hlook, ho, hk, Nat.not_le.2 hix]
    rw [hn]
    exact advancedIfRuns_streamFault _ _

theorem advancedIfRuns_scalar {flaws : BitVec 256 → Reed → Option Flaw} {eff : State → BitVec 256 → Reed → Reed}
    (he : flaws w (s.reed r) = none →
      (eff s w (s.reed r)).index = (s.reed r).index ∧ (eff s w (s.reed r)).loops = (s.reed r).loops) :
    advancedIfRuns s r (scalar r flaws eff s (s.reed r) w) := by
  unfold scalar
  split
  · exact advancedIfRuns_streamFault _ _
  · next hf => exact advancedIfRuns_advance (he hf).1 (he hf).2

theorem advancedIfRuns_wordIssue {m1 : Nat} {dest : Bool} {eff : Operand → BitVec 256 → Reed → Reed}
    (hix : ∀ o w x, (eff o w x).index = x.index) (hl : ∀ o w x, (eff o w x).loops = x.loops) :
    advancedIfRuns s r (wordIssue r m1 dest eff s (s.reed r) w) := by
  unfold wordIssue
  split
  · exact advancedIfRuns_streamFault _ _
  · exact advancedIfRuns_ite (advancedIfRuns_hold (by simp)) (advancedIfRuns_advance (hix _ _ _) (hl _ _ _))

theorem Reed.setQueue_place (x : Reed) (e : Engine) (q : List QEntry) :
    (x.setQueue e q).index = x.index ∧ (x.setQueue e q).loops = x.loops := by
  cases e <;> exact ⟨rfl, rfl⟩

theorem advancedIfRuns_enqueue {y : Reed} (e : Engine) (q : QEntry) (hi : y.index = (s.reed r).index) (hl : y.loops = (s.reed r).loops) :
    advancedIfRuns s r (enqueue s r y e q) := by
  unfold enqueue
  split
  · exact advancedIfRuns_hold (by simp)
  · obtain ⟨hqi, hql⟩ := Reed.setQueue_place { y with seqNo := y.seqNo + 1 } e (y.queue e ++ [q])
    exact advancedIfRuns_advance (hqi.trans hi) (hql.trans hl)

theorem advancedIfRuns_engineIssue {e : Engine} {chk : IssueCheck} {passes : BitVec 256 → Reed → W32 → Nat} (hi : issues s r w = true)
    (ho : insOpc w = opc) : advancedIfRuns s r (engineIssue opc e chk passes s r) := by
  refine advancedIfRuns_issue hi ho ?_
  dsimp only
  split
  · exact advancedIfRuns_streamFault _ _
  · exact advancedIfRuns_ite (advancedIfRuns_hold (by simp)) (advancedIfRuns_enqueue _ _ rfl rfl)

/-- Bookkeeping of a sheaf that touches no reed, as the weathervane's. -/
theorem advancedIfRuns_modSheaf {t : State} {g : Nat} {f : Sheaf → Sheaf} (hf : ∀ sh, (f sh).reeds = sh.reeds)
    (h : advancedIfRuns s r t) : advancedIfRuns s r (t.modSheaf g f) := by
  rwa [advancedIfRuns, State.reed_modSheaf t g r f (hf _)]

theorem advancedIfRuns_mmaIssue (hi : issues s r w = true) (ho : insOpc w = opc) : advancedIfRuns s r (mmaIssue opc s r) := by
  unfold mmaIssue
  dsimp only
  split
  · split
    · exact advancedIfRuns_modSheaf (fun _ => rfl) (advancedIfRuns_engineIssue hi ho)
    · exact advancedIfRuns_engineIssue hi ho
  · exact advancedIfRuns_engineIssue hi ho

theorem advancedIfRuns_issueLd (hi : issues s r w = true) (ho : insOpc w = 0x80) : advancedIfRuns s r (issueLd s r) := by
  unfold issueLd
  dsimp only
  split
  · split
    · split
      · exact advancedIfRuns_modSheaf (fun _ => rfl) (advancedIfRuns_engineIssue hi ho)
      · exact advancedIfRuns_engineIssue hi ho
    · exact advancedIfRuns_engineIssue hi ho
  · exact advancedIfRuns_engineIssue hi ho

theorem advancedIfRuns_issueBr (hi : issues s r w = true) (ho : insOpc w = 0x09)
    (hn : brTaken (insByte w 2 / 32) (BitVec.ofNat 32 ((s.reed r).s (insByte w 1 / 16)))
      (BitVec.ofNat 32 ((s.reed r).s (insByte w 2 % 16))) = false) : advancedIfRuns s r (issueBr s r) := by
  refine advancedIfRuns_issue hi ho ?_
  dsimp only
  split
  · exact advancedIfRuns_streamFault _ _
  · split
    · next ht => exact absurd (hn.symm.trans ht) (by decide)
    · exact advancedIfRuns_advance rfl rfl

theorem advancedIfRuns_issueWaitq (hi : issues s r w = true) (ho : insOpc w = 0x0A) : advancedIfRuns s r (issueWaitq s r) := by
  refine advancedIfRuns_issue hi ho ?_
  split
  · exact advancedIfRuns_streamFault _ _
  · exact advancedIfRuns_ite (advancedIfRuns_advance rfl rfl) (advancedIfRuns_hold (by simp))

end

theorem movw_reg_of_clean {w : BitVec 256} {x : Reed} (hf : movwFlaw w x = none) :
    insByte w 3 = 0x21 ∨ insByte w 3 = 0x23 ∨ insByte w 3 = 0x28 := by
  have h := (firstFlaw_eq_none_iff _).mp hf _ (List.mem_append_right _ (List.mem_singleton_self _))
  have hc : [0x21, 0x23, 0x28].contains (insByte w 3) = true := by simpa only [Bool.not_eq_false'] using h
  simpa only [List.contains_iff_mem, List.mem_cons, List.not_mem_nil, or_false] using hc

theorem Reed.writeTrapctl_place (x : Reed) (v : Nat) :
    (x.writeTrapctl v).index = x.index ∧ (x.writeTrapctl v).loops = x.loops := by
  unfold Reed.writeTrapctl
  dsimp only
  split <;> exact ⟨rfl, rfl⟩

/-- The registers that MOVW can write are not `POS`. -/
theorem Reed.writeReg_place_of_movw {w : BitVec 256} {x : Reed} (v : Nat) (hf : movwFlaw w x = none) :
    (x.writeReg (insByte w 3) v).index = x.index ∧ (x.writeReg (insByte w 3) v).loops = x.loops := by
  obtain h | h | h := movw_reg_of_clean hf <;> rw [h]
  · exact ⟨rfl, rfl⟩
  · exact Reed.writeTrapctl_place x v
  · exact ⟨rfl, rfl⟩

/-- The three outcomes of an iteration's end (R145), innermost loop first. -/
theorem Reed.advance_at_stop {x : Reed} {l : Loop} {rest : List Loop} (hl : x.loops = l :: rest) (hi : x.index = l.stop) :
    (l.iter.toNat + 1 < l.count.toNat →
      x.advance.index = l.start + 1 ∧ x.advance.loops = { l with iter := l.iter + 1 } :: rest) ∧
    (¬ l.iter.toNat + 1 < l.count.toNat → rest.head?.map (·.stop) ≠ some l.stop →
      x.advance.index = l.stop + 1 ∧ x.advance.loops = rest) ∧
    (¬ l.iter.toNat + 1 < l.count.toNat → x.advance = ({ x with loops := rest } : Reed).advance) := by
  refine ⟨fun h => ?_, fun h hr => ?_, fun h => ?_⟩
  · simp [Reed.advance, hl, hi, afterEntry_round rest h]
  · simp [Reed.advance, hl, hi, afterEntry_last rest h, afterEntry_of_ne hr]
  · simp [Reed.advance, hl, hi, afterEntry_last rest h]

/-- Settles O40: the end of an iteration by the recursion of `afterEntry`, and every row by the shape of its issue. -/
theorem loopEnds : Obligations.LoopEnds := by
  refine ⟨fun x l rest hl hi => ?_, fun s r w hi => ?_⟩
  · obtain ⟨hround, hlast, houter⟩ := Reed.advance_at_stop hl hi
    exact ⟨hround, hlast, fun h _ => houter h⟩
  simp only [List.forall_mem_cons]
  refine ⟨?nop, ?seti, ?alu, ?sld, ?sst, ?movr, ?movw, ?br, ?waitq, ?mma, ?mmaf, ?_⟩
  case nop => exact fun ho _ => ⟨_, rfl, advancedIfRuns_issue hi ho (advancedIfRuns_scalar fun _ => ⟨rfl, rfl⟩)⟩
  case seti => exact fun ho _ => ⟨_, rfl, advancedIfRuns_issue hi ho (advancedIfRuns_scalar fun _ => ⟨rfl, rfl⟩)⟩
  case alu => exact fun ho _ => ⟨_, rfl, advancedIfRuns_issue hi ho (advancedIfRuns_scalar fun _ => ⟨rfl, rfl⟩)⟩
  case movr => exact fun ho _ => ⟨_, rfl, advancedIfRuns_issue hi ho (advancedIfRuns_scalar fun _ => ⟨rfl, rfl⟩)⟩
  case movw => exact fun ho _ => ⟨_, rfl, advancedIfRuns_issue hi ho (advancedIfRuns_scalar (Reed.writeReg_place_of_movw _))⟩
  case sld => exact fun ho _ => ⟨_, rfl, advancedIfRuns_issue hi ho (advancedIfRuns_wordIssue (fun _ _ _ => rfl) (fun _ _ _ => rfl))⟩
  case sst => exact fun ho _ => ⟨_, rfl, advancedIfRuns_issue hi ho (advancedIfRuns_wordIssue (fun _ _ _ => rfl) (fun _ _ _ => rfl))⟩
  case br => exact fun ho hn => ⟨_, rfl, advancedIfRuns_issueBr hi ho (hn ho)⟩
  case waitq => exact fun ho _ => ⟨_, rfl, advancedIfRuns_issueWaitq hi ho⟩
  case mma => exact fun ho _ => ⟨_, rfl, advancedIfRuns_mmaIssue hi ho⟩
  case mmaf => exact fun ho _ => ⟨_, rfl, advancedIfRuns_mmaIssue hi ho⟩
  refine ⟨?_, ?_, ?_, ?_, ?_, ?_, ?_, ?_, ?_, ?_, ?_, ?ld, ?_, ?_, ?_, ?_, by simp⟩
  case ld => exact fun ho _ => ⟨_, rfl, advancedIfRuns_issueLd hi ho⟩
  all_goals exact fun ho _ => ⟨_, rfl, advancedIfRuns_engineIssue hi ho⟩

end Sys2Proof.Machine
end

section
/-!
PROOF. O41 (R146): a branch, and a write of `POS`.INDEX, filter the loops by whether their body holds the target.
-/

namespace Sys2Proof.Machine

theorem Reed.mem_branchTo_loops (x : Reed) (j : Nat) (l : Loop) :
    l ∈ (x.branchTo j).loops ↔ l ∈ x.loops ∧ l.start + 1 ≤ j ∧ j ≤ l.stop := by
  simp [Reed.branchTo]

theorem Reed.branchTo_loops_sublist (x : Reed) (j : Nat) : (x.branchTo j).loops.Sublist x.loops := List.filter_sublist

/-- A loop whose LOOP instruction is the target does not hold it in its body. -/
theorem Reed.not_mem_branchTo_start (x : Reed) (l : Loop) : l ∉ (x.branchTo l.start).loops := by
  intro h
  obtain ⟨-, hj, -⟩ := (x.mem_branchTo_loops _ l).mp h
  omega

theorem exec_posIndexWrite {s : State} {r : ReedIx} (j : BitVec 6)
    (h : (s.sheaf (r / 4096)).stOf (r % 4096) ∈ [UState.idle, .loaded, .paused, .faulted]) :
    exec (.posIndexWrite r j) s = .next (s.modReed r (fun x => x.branchTo j.toNat)) := by
  refine congrArg Host.Outcome.next (if_pos ?_)
  simpa using h

theorem Reed.writeReg_pos (x : Reed) {j : Nat} (hj : j < 64) : x.writeReg 0x20 j = x.branchTo j := by
  rw [← Nat.mod_eq_of_lt hj]
  exact congrArg x.branchTo (Nat.mod_mod j 64)

/-- What a taken branch does: `branchTo`, whatever held. -/
theorem exec_br_taken {s : State} {r : ReedIx} {w : BitVec 256} (hi : issues s r w = true) (ho : insOpc w = 0x09)
    (hf : brFlaw w (s.reed r) = none) (ht : brTaken (insByte w 2 / 32) (BitVec.ofNat 32 ((s.reed r).s (insSA w)))
      (BitVec.ofNat 32 ((s.reed r).s (insSB w))) = true) :
    ∃ t, exec (.br r) s = .next t ∧ (t.reed r).index = insByte w 3 ∧
      (t.reed r).loops = ((s.reed r).branchTo (insByte w 3)).loops := by
  refine ⟨_, (exec_br hi ho hf).trans (congrArg Host.Outcome.next (if_pos ht)), ?_⟩
  rw [State.reed_setReed]
  exact ⟨rfl, rfl⟩

theorem exec_loop_enters {s : State} {r : ReedIx} {w : BitVec 256} (hi : issues s r w = true) (ho : insOpc w = 0x08)
    (hf : loopFlaw w (s.reed r) = none) (hn : (s.reed r).s (insSA w) ≠ 0) :
    ∃ t, exec (.loop r) s = .next t ∧ (t.reed r).loops =
      { start := (s.reed r).index, stop := insByte w 3, iter := 0,
        count := BitVec.ofNat 32 ((s.reed r).s (insSA w)) } :: (s.reed r).loops := by
  refine ⟨_, exec_loop hi ho hf, ?_⟩
  rw [State.reed_setReed, enterLoop_pos hn]

/-- Settles O41: each of the three writes of the index is `branchTo`; LOOP, executed at its own entry, enters its loop again. -/
theorem branchesAndLoops : Obligations.BranchesAndLoops := by
  intro s r
  refine ⟨fun w hi ho hf ht => ?_, fun j hst => ?_, fun j hj => ?_⟩
  · obtain ⟨t, he, hix, hloops⟩ := exec_br_taken hi ho hf ht
    refine ⟨t, he, hix, ?_⟩
    rw [hloops]
    refine ⟨Reed.branchTo_loops_sublist _ _, Reed.mem_branchTo_loops _ _, fun l _ hstart => ⟨?_, ?_⟩⟩
    · rw [← hstart]
      exact Reed.not_mem_branchTo_start _ l
    · rintro v n hiv hov hfv rfl hnz
      obtain ⟨u, hu, hul⟩ := exec_loop_enters hiv hov hfv hnz
      exact ⟨u, hu, by rw [hul, hix, hloops, hstart]; rfl⟩
  · refine ⟨_, exec_posIndexWrite j hst, ?_⟩
    rw [State.reed_modReed]
    exact ⟨rfl, Reed.branchTo_loops_sublist _ _, Reed.mem_branchTo_loops _ _⟩
  · rw [Reed.writeReg_pos _ hj]
    exact ⟨rfl, Reed.branchTo_loops_sublist _ _, Reed.mem_branchTo_loops _ _⟩

end Sys2Proof.Machine
end

section
/-!
PROOF. O42 (R141): END and the passage to LOADED, the START that follows, and the fetches that no row makes. START is followed through
the sheaves of its selection: what they do can only set a reed RUNNING, and the sheaf of a LOADED reed that it acts on does so.
-/

namespace Sys2Proof.Machine

/-! ### END and the passage to LOADED -/

theorem exec_endInstruction {s : State} {r : ReedIx} {w : BitVec 256} (hi : issues s r w = true) (ho : insOpc w = 0x1F)
    (hf : nopFlaw w (s.reed r) = none) :
    exec (.endInstruction r) s = .next (s.setReed r { s.reed r with ended := true, hold := .none }) := by
  refine congrArg Host.Outcome.next ((issue_issues _ hi ho (by decide)).trans ?_)
  simp [hf]

theorem exec_programEnd_busy {s : State} {r : ReedIx} (h : (s.reed r).queuesEmpty = false) : exec (.programEnd r) s = .next s := by
  refine congrArg Host.Outcome.next (if_neg ?_)
  simp [Reed.hasEnded, h]

theorem exec_programEnd_done {s : State} {r : ReedIx} (hst : (s.sheaf (r / 4096)).stOf (r % 4096) = .running)
    (he : (s.reed r).ended = true) (hq : (s.reed r).queuesEmpty = true) :
    exec (.programEnd r) s = .next (toLoaded s r).flushWatches := by
  refine congrArg Host.Outcome.next (if_pos ⟨hst, ?_⟩)
  simp [Reed.hasEnded, he, hq]

theorem reed_toLoaded (s : State) (r : Nat) : (toLoaded s r).reed r = { (s.reed r).atEntry with st := .loaded } := by
  rw [toLoaded, State.reed_modSheaf _ _ _ _ (by simp), State.reed_modReed]

/-! ### START -/

/-- Between two states reed `q` kept its place in its program and whether it is retired, its sheaf its power, and its state is as before or
RUNNING. -/
def runsOnAt (q : Nat) (s t : State) : Prop :=
  (t.reed q).index = (s.reed q).index ∧ (t.reed q).loops = (s.reed q).loops ∧
  ((t.reed q).st = (s.reed q).st ∨ (t.reed q).st = .running) ∧
  (t.sheaf (q / 4096)).domState = (s.sheaf (q / 4096)).domState ∧
  (t.sheaf (q / 4096)).retired (q % 4096) = (s.sheaf (q / 4096)).retired (q % 4096)

theorem runsOnAt_refl (q : Nat) (s : State) : runsOnAt q s s := ⟨rfl, rfl, .inl rfl, rfl, rfl⟩

theorem runsOnAt_trans {q : Nat} {s t u : State} (h : runsOnAt q s t) (k : runsOnAt q t u) : runsOnAt q s u := by
  obtain ⟨hix, hl, hst, hd, hr⟩ := h
  obtain ⟨kix, kl, kst, kd, kr⟩ := k
  refine ⟨kix.trans hix, kl.trans hl, ?_, kd.trans hd, kr.trans hr⟩
  obtain kst | kst := kst
  · rwa [kst]
  · exact .inr kst

theorem runsOnAt_of_sheaves {q : Nat} {s t : State} (h : t.sheaves = s.sheaves) : runsOnAt q s t := by
  simp [runsOnAt, State.reed, State.sheaf, h]

theorem runsOnAt_running {q : Nat} {s t : State} (h : runsOnAt q s t) (hs : (s.reed q).st = .running) : (t.reed q).st = .running := by
  obtain ⟨-, -, hst | hst, -, -⟩ := h
  · exact hst.trans hs
  · exact hst

theorem runsOnAt_foldl {α : Type} {q : Nat} {f : State → α → State} (hf : ∀ s a, runsOnAt q s (f s a)) (l : List α) (s : State) :
    runsOnAt q s (l.foldl f s) := by
  induction l generalizing s with
  | nil => exact runsOnAt_refl q s
  | cons a l ih => exact runsOnAt_trans (hf s a) (ih _)

/-- A reed at START, in the state of the module. -/
def startReed (args : List W32) (slot : BitVec 4) (s : State) (r : Nat) : State := s.modReed r (fun x => x.start r args slot)

theorem domState_setReed (s : State) (r g : Nat) (x : Reed) : ((s.setReed r x).sheaf g).domState = (s.sheaf g).domState := by
  rw [State.sheaf_setReed]
  split <;> rfl

theorem retired_setReed (s : State) (r g l : Nat) (x : Reed) : ((s.setReed r x).sheaf g).retired l = (s.sheaf g).retired l := by
  rw [State.sheaf_setReed]
  split <;> rfl

theorem startReed_running (args : List W32) (slot : BitVec 4) (s : State) (r : Nat) :
    ((startReed args slot s r).reed r).st = .running := by
  rw [startReed, State.reed_modReed]
  rfl

theorem runsOnAt_startReed (args : List W32) (slot : BitVec 4) (q : Nat) (s : State) (r : Nat) :
    runsOnAt q s (startReed args slot s r) := by
  have hd : ((startReed args slot s r).sheaf (q / 4096)).domState = (s.sheaf (q / 4096)).domState := domState_setReed _ _ _ _
  have hr : ((startReed args slot s r).sheaf (q / 4096)).retired (q % 4096) = (s.sheaf (q / 4096)).retired (q % 4096) :=
    retired_setReed _ _ _ _ _
  by_cases hq : q = r
  · subst hq
    refine ⟨?_, ?_, .inr (startReed_running args slot s q), hd, hr⟩ <;> rw [startReed, State.reed_modReed] <;> rfl
  · have hx : (startReed args slot s r).reed q = s.reed q := State.reed_modReed_ne _ _ _ _ hq
    exact ⟨by rw [hx], by rw [hx], .inl (by rw [hx]), hd, hr⟩

/-- What START does on the units of a sheaf. -/
def startAct (args : List W32) (slot : BitVec 4) : State → Nat → List Nat → ActRes := eachReed (startReed args slot)

theorem runsOnAt_startAct (args : List W32) (slot : BitVec 4) (q : Nat) (s : State) (g : Nat) (ls : List Nat) :
    runsOnAt q s (startAct args slot s g ls).state :=
  runsOnAt_foldl (fun s l => runsOnAt_startReed args slot q s (4096 * g + l)) ls s

theorem startAct_running (args : List W32) (slot : BitVec 4) (s : State) (g : Nat) {l : Nat} {ls : List Nat} (hl : l ∈ ls) :
    ((startAct args slot s g ls).state.reed (4096 * g + l)).st = .running := by
  obtain ⟨before, after, rfl⟩ := List.append_of_mem hl
  have hsplit : (startAct args slot s g (before ++ l :: after)).state =
      (startAct args slot (startReed args slot (startAct args slot s g before).state (4096 * g + l)) g after).state := by
    simp [startAct, eachReed]
  rw [hsplit]
  exact runsOnAt_running (runsOnAt_startAct ..) (startReed_running ..)

/-- The units of a sheaf that act, where a reed command reaches it and no lodge is silent. -/
theorem arriveAt_acts (s : State) (c : Instr) (h : Hdr) {d : UnitDef} (g : Nat) (hd : d.level3 = false) :
    ∃ go, (arriveAt s c h d [] g).1 = (d.act s g go).state ∧ ∀ l, l ∈ go ↔ l ∈ (selOf h.path h.mask).locals ∧
      (s.sheaf g).retired l = false ∧ markOf c ((s.sheaf g).stOf l) ≠ .no ∧ markOf c ((s.sheaf g).stOf l) ≠ .same := by
  unfold arriveAt
  simp only [hd, Bool.false_eq_true, if_false]
  refine ⟨_, rfl, fun l => ?_⟩
  simp only [List.mem_filter, List.contains_nil, Bool.not_false, Bool.and_eq_true, Bool.not_eq_true',
    decide_eq_true_eq]
  tauto

theorem runsOnAt_censusSel (q : Nat) (s : State) (n g : Nat) (ls : List Nat) : runsOnAt q s (s.censusSel n g ls) := by
  have hx : (s.censusSel n g ls).reed q = s.reed q := State.reed_modSheaf s g q _ rfl
  have hs : (s.censusSel n g ls).sheaf (q / 4096) = s.sheaf (q / 4096) ∨
      (s.censusSel n g ls).sheaf (q / 4096) = (s.sheaf (q / 4096)).tell n ls := by
    by_cases hg : q / 4096 = g
    · subst hg
      exact .inr (State.sheaf_modSheaf _ _ _)
    · exact .inl (State.sheaf_modSheaf_ne _ _ _ _ hg)
  refine ⟨by rw [hx], by rw [hx], .inl (by rw [hx]), ?_, ?_⟩ <;> obtain h | h := hs <;> rw [h] <;> rfl

section
variable {s : State} {h : Hdr} {args : List W32}

/-- One sheaf of a selection takes a START that has been admitted, and its lodges hear of it. -/
def startSheaf (h : Hdr) (args : List W32) (a : State × Op) (g : Nat) : State × Op :=
  let t := arriveAt a.1 (.start h args) h (plainUnit false (startAct args h.slot)) [] g
  (t.1.censusSel 5 g (selOf h.path h.mask).locals, a.2.absorb false t.2)

theorem runsOnAt_startSheaf (q : Nat) (a : State × Op) (g : Nat) : runsOnAt q a.1 (startSheaf h args a g).1 := by
  obtain ⟨go, hgo, -⟩ := arriveAt_acts a.1 (.start h args) h (d := plainUnit false (startAct args h.slot)) g rfl
  refine runsOnAt_trans ?_ (runsOnAt_censusSel q _ _ _ _)
  rw [hgo]
  exact runsOnAt_startAct args h.slot q a.1 g go

theorem runsOnAt_startSheaves (q : Nat) (gs : List Nat) (a : State × Op) :
    runsOnAt q a.1 (gs.foldl (startSheaf h args) a).1 := by
  induction gs generalizing a with
  | nil => exact runsOnAt_refl q _
  | cons g gs ih => exact runsOnAt_trans (runsOnAt_startSheaf q a g) (ih _)

/-- A selected reed that is LOADED and not retired runs once its sheaf has taken the START. -/
theorem startSheaf_running {q : Nat} {a : State × Op} (hl : q % 4096 ∈ (selOf h.path h.mask).locals)
    (hr : (a.1.sheaf (q / 4096)).retired (q % 4096) = false) (hst : (a.1.sheaf (q / 4096)).stOf (q % 4096) = .loaded) :
    ((startSheaf h args a (q / 4096)).1.reed q).st = .running := by
  obtain ⟨go, hgo, hmem⟩ := arriveAt_acts a.1 (.start h args) h (d := plainUnit false (startAct args h.slot)) (q / 4096) rfl
  refine runsOnAt_running (runsOnAt_censusSel q _ _ _ _) ?_
  have hq : q % 4096 ∈ go := (hmem _).mpr ⟨hl, hr, by rw [hst]; simp [markOf], by rw [hst]; simp [markOf]⟩
  have hrun := startAct_running args h.slot a.1 (q / 4096) hq
  rw [Nat.div_add_mod] at hrun
  rw [hgo]
  exact hrun

theorem startSheaves_running {q : Nat} (hl : q % 4096 ∈ (selOf h.path h.mask).locals)
    (hr : (s.sheaf (q / 4096)).retired (q % 4096) = false) (hst : (s.sheaf (q / 4096)).stOf (q % 4096) = .loaded)
    (gs : List Nat) (a : State × Op) (hg : q / 4096 ∈ gs) (hs : runsOnAt q s a.1) :
    ((gs.foldl (startSheaf h args) a).1.reed q).st = .running := by
  induction gs generalizing a with
  | nil => exact absurd hg List.not_mem_nil
  | cons g gs ih =>
    have hstep := runsOnAt_startSheaf (h := h) (args := args) q a g
    by_cases hgq : q / 4096 = g
    · refine runsOnAt_running (runsOnAt_startSheaves q gs _) ?_
      obtain ⟨-, -, hsame | hrun, hdom, hret⟩ := hs
      · subst hgq
        refine startSheaf_running hl (hret.trans hr) ?_
        rw [← hst, Sheaf.stOf, Sheaf.stOf, hdom]
        exact congrArg _ hsame
      · exact runsOnAt_running hstep hrun
    · exact ih _ ((List.mem_cons.mp hg).resolve_left hgq) (runsOnAt_trans hs hstep)

end

/-- What carrying out a START leaves of the sheaves: its reply touches none. -/
theorem exec_start_sheaves {s : State} {h : Hdr} {args : List W32} (hr : unitReady s (.start h args) = true) :
    ∃ t o, exec (.start h args) s = .next t ∧ t.sheaves = ((selOf h.path h.mask).sheaves.foldl (startSheaf h args)
      ((selOf h.path h.mask).sheaves.foldl (fun s g => wakeRoute s (g / 16)) s.taken, o)).1.sheaves :=
  ⟨_, { Op.begin s.lodge.nextId (.start h args) h false with todo := [] }, congrArg Host.Outcome.next (submit_unit rfl hr),
    (onlyReplied_flushWatches _).1.trans (onlyReplied_concludeUnit _ _ _).1⟩

theorem loaded_of_marked {h : Hdr} {args : List W32} {u : UState} (hm : markOf (.start h args) u ≠ .no) : u = .loaded := by
  cases u
  case loaded => rfl
  all_goals exact absurd rfl hm

/-- A START that acts on a reed takes it to RUNNING and leaves its place in the program. -/
theorem exec_start_acts {s : State} {r : ReedIx} {h : Hdr} {args : List W32} (hr : unitReady s (.start h args) = true)
    (hact : actsOn s (.start h args) r = true) :
    ∃ t, exec (.start h args) s = .next t ∧ (t.reed r).st = .running ∧ (t.reed r).index = (s.reed r).index ∧
      (t.reed r).loops = (s.reed r).loops := by
  obtain ⟨t, o, he, ht⟩ := exec_start_sheaves hr
  simp only [actsOn, cmdOf, Bool.and_eq_true, List.contains_iff_mem, Bool.not_eq_true', decide_eq_true_eq] at hact
  obtain ⟨⟨⟨⟨hg, hl⟩, hret⟩, hno⟩, -⟩ := hact
  have hwoken : runsOnAt r s ((selOf h.path h.mask).sheaves.foldl (fun s g => wakeRoute s (g / 16)) s.taken) :=
    runsOnAt_of_sheaves (wokenOnly_wakeRoute _ (· / 16) s.taken).1
  obtain ⟨hix, hloops, -⟩ := runsOnAt_trans hwoken (runsOnAt_startSheaves (args := args) r _ (_, o))
  refine ⟨t, he, ?_⟩
  rw [State.reed_of_sheaves ht]
  exact ⟨startSheaves_running hl hret (loaded_of_marked hno) _ _ hg hwoken, hix, hloops⟩

/-! ### Fetches -/

/-- What a row of the stream that makes `t` of `s` does where there is nothing to issue (R141). -/
def fetchStops (s : State) (r : ReedIx) (t : State) : Prop :=
  ((s.reed r).ended = true → t = s) ∧
  ((s.reed r).st = .running → (s.reed r).ended = false → clockRuns s (r / 4096) = true →
    (s.sheaf (r / 4096)).retired (r % 4096) = false →
    (64 ≤ (s.reed r).index → t = streamFault s r (.fetchInvalid, 0) 63) ∧
    ((s.reed r).index < 64 → pageWill (s.reed r) (s.reed r).index = false → KMap.look (s.reed r).ibuf (s.reed r).index = none →
      t = streamFault s r (.fetchInvalid, 0) (s.reed r).index))

theorem fetchStops_issue (s : State) (r : ReedIx) (opc : Nat) (body : State → Reed → BitVec 256 → State) :
    fetchStops s r (issue s r opc body) := by
  refine ⟨fun he => ?_, fun hst he hclk hret => ⟨fun hix => ?_, fun hix hpage hlook => ?_⟩⟩
  · simp [issue, he]
  · simp [issue, hst, he, hclk, hret, hix]
  · simp [issue, hst, he, hclk, hret, Nat.not_le.2 hix, hpage, hlook]

theorem fetchStops_engineIssue (s : State) (r : ReedIx) (opc : Nat) (e : Engine) (chk : IssueCheck)
    (passes : BitVec 256 → Reed → W32 → Nat) : fetchStops s r (engineIssue opc e chk passes s r) := fetchStops_issue s r _ _

theorem fetchStops_vxIssue (s : State) (r : ReedIx) (opc : Nat) (spec : State → Nat → BitVec 256 → Reed → VSpec)
    (passes : BitVec 256 → Reed → W32 → Nat) : fetchStops s r (vxIssue opc spec passes s r) := fetchStops_engineIssue s r opc _ _ _

/-- Bookkeeping that follows an issue, where it leaves a state that has not changed, or has faulted, alone. -/
theorem fetchStops_follow {s t u : State} {r : ReedIx} (h : fetchStops s r t)
    (hu : (t = s ∨ ∃ f i, t = streamFault s r f i) → u = t) : fetchStops s r u := by
  obtain ⟨hended, hrest⟩ := h
  refine ⟨fun he => ?_, fun hst he hclk hret => ?_⟩
  · exact (hu (.inl (hended he))).trans (hended he)
  · obtain ⟨hpast, hinvalid⟩ := hrest hst he hclk hret
    exact ⟨fun hix => (hu (.inr ⟨_, _, hpast hix⟩)).trans (hpast hix),
      fun hix hp hk => (hu (.inr ⟨_, _, hinvalid hix hp hk⟩)).trans (hinvalid hix hp hk)⟩

/-- The weathervane counts an MMA only where MX's queue has grown. -/
theorem fetchStops_mmaIssue (s : State) (r : ReedIx) (opc : Nat) : fetchStops s r (mmaIssue opc s r) := by
  refine fetchStops_follow (fetchStops_engineIssue s r opc .mx mmaCheck mmaPasses) (fun h => if_neg ?_)
  rw [Nat.not_lt]
  obtain h | ⟨f, i, h⟩ := h <;> rw [h]
  rw [streamFault_qmx]
  exact List.length_filter_le _ _

/-- The weathervane tags an LD only where LD's queue has grown. -/
theorem fetchStops_issueLd (s : State) (r : ReedIx) : fetchStops s r (issueLd s r) := by
  refine fetchStops_follow (fetchStops_engineIssue s r 0x80 .ld lsCheck lsPasses) (fun h => if_neg ?_)
  rw [Nat.not_lt]
  obtain h | ⟨f, i, h⟩ := h <;> rw [h]
  rw [streamFault_qld]
  exact List.length_filter_le _ _

theorem fetchStops_exec {s t : State} {r : ReedIx} {c : Instr} (he : exec c s = .next t) (h : fetchStops s r t) :
    ((s.reed r).ended = true → exec c s = .next s) ∧
    ((s.reed r).st = .running → (s.reed r).ended = false → clockRuns s (r / 4096) = true →
      (s.sheaf (r / 4096)).retired (r % 4096) = false →
      (64 ≤ (s.reed r).index → exec c s = .next (streamFault s r (.fetchInvalid, 0) 63)) ∧
      ((s.reed r).index < 64 → pageWill (s.reed r) (s.reed r).index = false → KMap.look (s.reed r).ibuf (s.reed r).index = none →
        exec c s = .next (streamFault s r (.fetchInvalid, 0) (s.reed r).index))) := by
  rw [he]
  simpa only [fetchStops, Host.Outcome.next.injEq] using h

/-! ### The entries that PROG_LOAD does not write -/

theorem KMap.look_eq_none {α : Type} {m : KMap α} {k : Nat} (h : ∀ e ∈ m, e.1 ≠ k) : KMap.look m k = none := by
  induction m with
  | nil => rfl
  | cons e m ih =>
    obtain ⟨he, hm⟩ := List.forall_mem_cons.mp h
    exact (if_neg he).trans (ih hm)

theorem ibufOf_beyond (l : List (Option (BitVec 256))) {n : Nat} (hn : l.length ≤ n) : KMap.look (ibufOf l) n = none := by
  refine KMap.look_eq_none (fun e he => ?_)
  obtain ⟨p, hp, hpe⟩ := List.mem_filterMap.mp he
  obtain ⟨v, -, rfl⟩ := Option.map_eq_some_iff.mp hpe
  have := List.snd_lt_of_mem_zipIdx hp
  exact Nat.ne_of_lt (by omega)

/-- Settles O42: the passage is `toLoaded`, START is followed through its sheaves, and every row fetches through `issue`. -/
theorem programEnds : Obligations.ProgramEnds := by
  intro s r
  refine ⟨fun w hi ho hf => ?_, exec_programEnd_busy, fun hst he hq => ?_, fun h args hr hact hix hl => ?_, ?_, fun x l e n hn => ?_⟩
  · refine ⟨_, exec_endInstruction hi ho hf, ?_⟩
    rw [State.reed_setReed]
    exact ⟨rfl, running_of_issues hi⟩
  · refine ⟨_, exec_programEnd_done hst he hq, ?_⟩
    rw [State.reed_flushWatches, reed_toLoaded]
    exact ⟨rfl, rfl, rfl, rfl, rfl, rfl, rfl, rfl⟩
  · obtain ⟨t, he, hst, htix, htl⟩ := exec_start_acts hr hact
    exact ⟨t, he, hst, htix.trans hix, htl.trans hl⟩
  · intro c hc
    suffices h : ∃ t, exec c s = .next t ∧ fetchStops s r t by
      obtain ⟨t, he, ht⟩ := h
      exact fetchStops_exec he ht
    revert c
    simp only [List.forall_mem_cons]
    refine ⟨?_, ?_, ?_, ?_, ?_, ?_, ?_, ?_, ?_, ?_, ?_, ?engines⟩
    case engines =>
      refine ⟨?mma, ?mmaf, ?_, ?_, ?vew, ?vred, ?vscan, ?vsscan, ?vwide, ?vrng, ?opt, ?vcld, ?vcst, ?ld, ?_, ?_, ?_, ?_, by simp⟩
      case mma => exact ⟨_, rfl, fetchStops_mmaIssue s r 0x40⟩
      case mmaf => exact ⟨_, rfl, fetchStops_mmaIssue s r 0x41⟩
      case ld => exact ⟨_, rfl, fetchStops_issueLd s r⟩
      case vew | vred | vscan | vsscan | vwide | vrng | opt | vcld | vcst => exact ⟨_, rfl, fetchStops_vxIssue s r _ _ _⟩
      all_goals exact ⟨_, rfl, fetchStops_engineIssue s r _ _ _ _⟩
    all_goals exact ⟨_, rfl, fetchStops_issue s r _ _⟩
  · exact ibufOf_beyond l hn

end Sys2Proof.Machine
end

section
/-!
PROOF. O49 (R312, Table 12-1): the fabric address. Every row but POWER_ON keeps `InvAt`, whose address part asks nothing of the state it
starts from; so the address that a step leaves is the one before it, or what POWER_ON samples. A command that names a reserved address
is refused by its own form check.
-/

namespace Sys2Proof.Machine

variable {adr : W32 × Bool}

/-! ### The rows keep the address -/

/-- The dispatcher's rows, each by what its meaning keeps (R312). -/
theorem invAt_exec {s t : State} {c : Instr} (hG : InvAt adr s) (hc : ∀ straps, c ≠ .powerOn straps) :
    exec c s = .next t → InvAt adr t :=
  match c with
  | .nop .. => inv_execNop _ _ s hG t
  | .devInfo .. => inv_execDevInfo _ s hG t
  | .regRead .. => inv_execRegRead _ _ s hG t
  | .regWrite .. => inv_execRegWrite _ _ _ s hG t
  | .portGrant .. => inv_execPortGrant _ _ s hG t
  | .takeover .. => inv_execTakeover _ _ s hG t
  | .wake .. => inv_execWake _ s hG t
  | .sleep .. => inv_execSleep _ s hG t
  | .reset .. => inv_execReset _ s hG t
  | .query .. => inv_execQuery _ s hG t
  | .progLoad .. => inv_execProgLoad _ _ _ _ _ _ s hG t
  | .start .. => inv_execStart _ _ s hG t
  | .pause .. => inv_execPause _ s hG t
  | .resume .. => inv_execResume _ s hG t
  | .drain .. => inv_execDrain _ s hG t
  | .uregRead .. => inv_execUregRead _ _ s hG t
  | .uregWrite .. => inv_execUregWrite _ _ _ s hG t
  | .posIndexWrite .. => inv_execPosIndexWrite _ _ s hG t
  | .trapctlClear .. => inv_execTrapctlClear _ s hG t
  | .spRead .. => inv_execSpRead _ _ _ s hG t
  | .spWrite .. => inv_execSpWrite _ _ _ s hG t
  | .spareStatus .. => inv_execSpareStatus _ s hG t
  | .memGrant .. => inv_execMemGrant _ _ _ _ s hG t
  | .memRevoke .. => inv_execMemRevoke _ _ _ s hG t
  | .hostDma .. => inv_execHostDma _ _ _ _ _ s hG t
  | .hostDmaReadError .. => inv_execHostDmaReadError _ _ _ s hG t
  | .aperture .. => inv_execAperture _ _ s hG t
  | .memFill .. => inv_execMemFill _ _ _ _ s hG t
  | .eccRead .. => inv_execEccRead _ _ s hG t
  | .rowRetire .. => inv_execRowRetire _ _ s hG t
  | .loftWrite .. => inv_execLoftWrite _ _ _ s hG t
  | .loftRead .. => inv_execLoftRead _ _ _ s hG t
  | .tensorMove .. => inv_execTensorMove _ _ s hG t
  | .tensorDefine .. => inv_execTensorDefine _ _ _ _ s hG t
  | .tensorRelease .. => inv_execTensorRelease _ _ s hG t
  | .allotCreate .. => inv_execAllotCreate _ _ _ _ s hG t
  | .allotDissolve .. => inv_execAllotDissolve _ _ s hG t
  | .allotResize .. => inv_execAllotResize _ _ _ _ _ s hG t
  | .topoDraw .. => inv_execTopoDraw _ _ _ _ s hG t
  | .colourMapSet .. => inv_execColourMapSet _ _ _ s hG t
  | .fabricTable .. => inv_execFabricTable _ _ s hG t
  | .routeQuery .. => inv_execRouteQuery _ _ s hG t
  | .collDefine .. => inv_execCollDefine _ _ _ _ s hG t
  | .collBackup .. => inv_execCollBackup _ _ _ _ s hG t
  | .collTune .. => inv_execCollTune _ _ _ _ _ s hG t
  | .collCommit .. => inv_execCollCommit _ _ _ s hG t
  | .collAbort .. => inv_execCollAbort _ _ s hG t
  | .collStatus .. => inv_execCollStatus _ _ s hG t
  | .numCtl .. => inv_execNumCtl _ _ s hG t
  | .wvConfig .. => inv_execWvConfig _ _ _ _ _ _ s hG t
  | .wvStats .. => inv_execWvStats _ _ s hG t
  | .rngKey .. => inv_execRngKey _ _ _ s hG t
  | .determinism .. => inv_execDeterminism _ _ s hG t
  | .clampRead .. => inv_execClampRead _ _ s hG t
  | .eaveStatus .. => inv_execEaveStatus _ _ s hG t
  | .eaveCommission .. => inv_execEaveCommission _ _ s hG t
  | .laserSwap .. => inv_execLaserSwap _ _ _ _ s hG t
  | .monitorRead .. => inv_execMonitorRead _ _ _ _ s hG t
  | .eaveSweep .. => inv_execEaveSweep _ _ s hG t
  | .domainSet .. => inv_execDomainSet _ _ _ s hG t
  | .dvfsSet .. => inv_execDvfsSet _ _ s hG t
  | .powerCap .. => inv_execPowerCap _ _ s hG t
  | .thermalRead .. => inv_execThermalRead _ s hG t
  | .powerRead .. => inv_execPowerRead _ s hG t
  | .attest .. => inv_execAttest _ _ s hG t
  | .certRead .. => inv_execCertRead _ s hG t
  | .fwStage .. => inv_execFwStage _ _ _ s hG t
  | .fwActivate .. => inv_execFwActivate _ _ s hG t
  | .repairCommit .. => inv_execRepairCommit _ s hG t
  | .keyRotate .. => inv_execKeyRotate _ _ s hG t
  | .primarySet .. => inv_execPrimarySet _ _ s hG t
  | .debugLock .. => inv_execDebugLock _ s hG t
  | .journalRead .. => inv_execJournalRead _ _ s hG t
  | .nopInstruction .. => inv_execNopInstruction _ s hG t
  | .seti .. => inv_execSeti _ s hG t
  | .alu .. => inv_execAlu _ s hG t
  | .sld .. => inv_execSld _ s hG t
  | .sst .. => inv_execSst _ s hG t
  | .movr .. => inv_execMovr _ s hG t
  | .movw .. => inv_execMovw _ s hG t
  | .loop .. => inv_execLoop _ s hG t
  | .br .. => inv_execBr _ s hG t
  | .waitq .. => inv_execWaitq _ s hG t
  | .waitqRelease .. => inv_execWaitqRelease _ s hG t
  | .endInstruction .. => inv_execEndInstruction _ s hG t
  | .programEnd .. => inv_execProgramEnd _ s hG t
  | .heldIssueRetry .. => inv_execHeldIssueRetry _ s hG t
  | .mma .. => inv_execMma _ s hG t
  | .mmaf .. => inv_execMmaf _ s hG t
  | .accz .. => inv_execAccz _ s hG t
  | .accst .. => inv_execAccst _ s hG t
  | .sumsLand .. => inv_execSumsLand _ s hG t
  | .vew .. => inv_execVew _ s hG t
  | .vred .. => inv_execVred _ s hG t
  | .vscan .. => inv_execVscan _ s hG t
  | .vsscan .. => inv_execVsscan _ s hG t
  | .vwide .. => inv_execVwide _ s hG t
  | .vrng .. => inv_execVrng _ s hG t
  | .opt .. => inv_execOpt _ s hG t
  | .vcld .. => inv_execVcld _ s hG t
  | .vcst .. => inv_execVcst _ s hG t
  | .ld .. => inv_execLd _ s hG t
  | .ldpage .. => inv_execLdpage _ s hG t
  | .st .. => inv_execSt _ s hG t
  | .stAcknowledged .. => inv_execStAcknowledged _ s hG t
  | .xput .. => inv_execXput _ s hG t
  | .xget .. => inv_execXget _ s hG t
  | .xcBufferRoom .. => inv_execXcBufferRoom _ s hG t
  | .xcBytesArrive .. => inv_execXcBytesArrive _ s hG t
  | .engineInstructionStart .. => inv_execEngineInstructionStart _ _ _ s hG t
  | .engineInstructionComplete .. => inv_execEngineInstructionComplete _ _ s hG t
  | .numericTrap .. => inv_execNumericTrap _ _ s hG t
  | .wvSampleCompare .. => inv_execWvSampleCompare _ s hG t
  | .hardwareFault .. => inv_execHardwareFault _ s hG t
  | .unitFaultedCoalesce .. => inv_execUnitFaultedCoalesce _ s hG t
  | .drainComplete .. => inv_execDrainComplete _ s hG t
  | .drainLimit .. => inv_execDrainLimit _ s hG t
  | .wakeComplete .. => inv_execWakeComplete _ s hG t
  | .poweringSlotGrant .. => inv_execPoweringSlotGrant _ s hG t
  | .pllLock .. => inv_execPllLock _ s hG t
  | .pllStop .. => inv_execPllStop _ s hG t
  | .lodgeAdmit .. => inv_execLodgeAdmit _ s hG t
  | .commandArrival .. => inv_execCommandArrival _ _ _ s hG t
  | .memberReply .. => inv_execMemberReply _ _ s hG t
  | .memberSilent .. => inv_execMemberSilent _ _ s hG t
  | .censusUpdate .. => inv_execCensusUpdate _ _ _ s hG t
  | .windowWrite .. => inv_execWindowWrite _ _ _ s hG t
  | .packetTaken .. => inv_execPacketTaken _ s hG t
  | .fenceRelease .. => inv_execFenceRelease _ s hG t
  | .resync .. => inv_execResync _ s hG t
  | .replyWrite .. => inv_execReplyWrite _ s hG t
  | .replyheadWrite .. => inv_execReplyheadWrite _ _ s hG t
  | .replyRingEnable .. => inv_execReplyRingEnable _ _ s hG t
  | .replyRingDisable .. => inv_execReplyRingDisable _ _ s hG t
  | .coalesceTimerExpiry .. => inv_execCoalesceTimerExpiry _ s hG t
  | .eventsLost .. => inv_execEventsLost _ s hG t
  | .registerWrite .. => inv_execRegisterWrite _ _ _ _ s hG t
  | .bar2statClear .. => inv_execBar2statClear _ s hG t
  | .bar2Write .. => inv_execBar2Write _ _ _ _ s hG t
  | .bar2Read .. => inv_execBar2Read _ _ _ _ s hG t
  | .portLinkDown .. => inv_execPortLinkDown _ s hG t
  | .portLinkUp .. => inv_execPortLinkUp _ _ _ s hG t
  | .portReset .. => inv_execPortReset _ s hG t
  | .perstAssert .. => inv_execPerstAssert _ _ s hG t
  | .graceExpiry .. => inv_execGraceExpiry _ s hG t
  | .sidebandPacket .. => inv_execSidebandPacket _ s hG t
  | .scrubRead .. => inv_execScrubRead _ _ _ s hG t
  | .rowRetirementDone .. => inv_execRowRetirementDone _ _ s hG t
  | .eccWindowClose .. => inv_execEccWindowClose _ _ s hG t
  | .driftCheck .. => inv_execDriftCheck _ _ s hG t
  | .channelRetrainDone .. => inv_execChannelRetrainDone _ s hG t
  | .deviceTemperatureRead .. => inv_execDeviceTemperatureRead _ _ s hG t
  | .selfRefreshEntry .. => inv_execSelfRefreshEntry _ s hG t
  | .bucketReady .. => inv_execBucketReady _ _ _ _ s hG t
  | .exponentFrame .. => inv_execExponentFrame _ _ s hG t
  | .bucketExponent .. => inv_execBucketExponent _ _ s hG t
  | .bucketFrame .. => inv_execBucketFrame _ _ s hG t
  | .bucketNack .. => inv_execBucketNack _ _ s hG t
  | .bucketAck .. => inv_execBucketAck _ _ s hG t
  | .resultFrame .. => inv_execResultFrame _ _ s hG t
  | .tlateExpiry .. => inv_execTlateExpiry _ _ _ _ _ s hG t
  | .tlostExpiry .. => inv_execTlostExpiry _ _ _ _ s hG t
  | .bucketFailFrame .. => inv_execBucketFailFrame _ _ s hG t
  | .vote .. => inv_execVote _ _ s hG t
  | .voteReceived .. => inv_execVoteReceived _ _ _ _ _ _ _ _ s hG t
  | .decision .. => inv_execDecision _ _ _ _ _ _ _ _ s hG t
  | .undecided .. => inv_execUndecided _ _ s hG t
  | .linkFrameReceive .. => inv_execLinkFrameReceive _ _ _ s hG t
  | .peerCommand .. => inv_execPeerCommand _ _ _ s hG t
  | .retransmitTimeout .. => inv_execRetransmitTimeout _ s hG t
  | .channelDown .. => inv_execChannelDown _ s hG t
  | .fabricControlFrame .. => inv_execFabricControlFrame _ _ _ _ _ s hG t
  | .routeRecompute => inv_execRouteRecompute s hG t
  | .copperLaneSwap .. => inv_execCopperLaneSwap _ _ s hG t
  | .courseTrained .. => inv_execCourseTrained _ _ s hG t
  | .laneToken .. => inv_execLaneToken _ _ _ _ _ s hG t
  | .rackLeadRound .. => inv_execRackLeadRound _ s hG t
  | .groupToken .. => inv_execGroupToken _ _ _ _ s hG t
  | .tableExchange .. => inv_execTableExchange _ _ _ _ _ s hG t
  | .fabricReady => inv_execFabricReady s hG t
  | .fabricReadyTimeout => inv_execFabricReadyTimeout s hG t
  | .lockLost .. => inv_execLockLost _ _ s hG t
  | .relock .. => inv_execRelock _ _ s hG t
  | .relockRetry .. => inv_execRelockRetry _ _ _ s hG t
  | .fadeAverage .. => inv_execFadeAverage _ _ s hG t
  | .spareLocked .. => inv_execSpareLocked _ _ s hG t
  | .spareLockTimeout .. => inv_execSpareLockTimeout _ _ s hG t
  | .swapComplete .. => inv_execSwapComplete _ _ s hG t
  | .fixedLaserFail .. => inv_execFixedLaserFail _ _ s hG t
  | .photonicTemperatureRange .. => inv_execPhotonicTemperatureRange _ _ s hG t
  | .eaveLinksDown .. => inv_execEaveLinksDown _ s hG t
  | .standbyRailUp => inv_execStandbyRailUp s hG t
  | .standbyRailLoss .. => inv_execStandbyRailLoss _ s hG t
  | .mainRailGood => inv_execMainRailGood s hG t
  | .mainRailLoss => inv_execMainRailLoss s hG t
  | .resetNAssert => inv_execResetNAssert s hG t
  | .resetNRelease => inv_execResetNRelease s hG t
  | .powerOn straps => absurd rfl (hc straps)
  | .fuse .. => inv_execFuse _ s hG t
  | .image .. => inv_execImage _ _ s hG t
  | .journal .. => inv_execJournal _ _ _ s hG t
  | .power .. => inv_execPower _ s hG t
  | .bist .. => inv_execBist _ s hG t
  | .memory .. => inv_execMemory _ s hG t
  | .eaves .. => inv_execEaves _ s hG t
  | .released => inv_execReleased s hG t
  | .stepWatchdog .. => inv_execStepWatchdog _ s hG t
  | .powerSample .. => inv_execPowerSample _ _ _ _ s hG t
  | .droop .. => inv_execDroop _ s hG t
  | .droopRelease .. => inv_execDroopRelease _ s hG t
  | .thermalSample .. => inv_execThermalSample _ _ s hG t
  | .dieThermalSample .. => inv_execDieThermalSample _ _ s hG t
  | .clockChangeDone .. => inv_execClockChangeDone _ s hG t
  | .networkDomainSleep .. => inv_execNetworkDomainSleep _ s hG t
  | .networkDomainWake .. => inv_execNetworkDomainWake _ s hG t
  | .commandActionComplete .. => inv_execCommandActionComplete _ _ s hG t
  | .decisionAcknowledged .. => inv_execDecisionAcknowledged _ _ _ _ _ _ s hG t
  | .decisionRequest .. => inv_execDecisionRequest _ _ _ _ _ _ _ s hG t
  | .discoverySweepDone .. => inv_execDiscoverySweepDone _ s hG t
  | .rateLimitWindowEnd .. => inv_execRateLimitWindowEnd _ s hG t
  | .memberSilentCoalesce .. => inv_execMemberSilentCoalesce _ s hG t

/-- Every row but POWER_ON leaves the fabric address as it is, whatever the state. -/
theorem address_exec {s t : State} {c : Instr} (hc : ∀ straps, c ≠ .powerOn straps) (he : exec c s = .next t) :
    t.fabric.address = s.fabric.address :=
  (invAt_exec (.here s) hc he).address

theorem address_keepTick (s : State) : (keepTick s).fabric.address = s.fabric.address := (inv_keepTick s (.here s)).address

/-! ### POWER_ON samples the straps -/

theorem address_enterStep (s : State) (n : Nat) : (enterStep s n).fabric.address = s.fabric.address :=
  (inv_enterStep s n (.here s)).address

/-- The state in which POWER_ON enters step 0x01: the address is the straps', and `STBY_OK` is released (R312, R413, R469). -/
def State.strapped (s : State) (straps : BitVec 13) : State :=
  { s with fabric := { s.fabric with address := straps.setWidth 32 }, pow := { s.pow with stbyOk := true } }

theorem exec_powerOn {s : State} (straps : BitVec 13) (hs : atStep s 0 = true) :
    exec (.powerOn straps) s = .next (enterStep (s.strapped straps) 1) := by
  simp only [exec, execPowerOn, hs, Bool.not_true, Bool.false_eq_true, if_false]
  rfl

theorem exec_powerOn_idle {s : State} (straps : BitVec 13) (hs : atStep s 0 = false) : exec (.powerOn straps) s = .next s := by
  simp only [exec, execPowerOn, hs, Bool.not_false, if_true]

theorem address_powerOn (s : State) (straps : BitVec 13) :
    (enterStep (s.strapped straps) 1).fabric.address = straps.setWidth 32 := address_enterStep _ 1

/-- A step changes the address only where the front command is POWER_ON in its own boot step. -/
theorem powerOn_of_address_ne {s t : State} (he : step s = .next t) (hne : t.fabric.address ≠ s.fabric.address) :
    ∃ straps rest, s.pending = .powerOn straps :: rest ∧ atStep s 0 = true ∧ t.fabric.address = straps.setWidth 32 := by
  unfold step at he
  split at he
  next =>
    cases he
    exact absurd (address_keepTick s) hne
  next c rest hp =>
    by_cases hc : ∃ straps, c = .powerOn straps
    · obtain ⟨straps, rfl⟩ := hc
      cases hs : atStep s 0 with
      | false =>
        rw [exec_powerOn_idle straps (s := { s with pending := rest }) hs] at he
        cases he
        exact absurd rfl hne
      | true =>
        rw [exec_powerOn straps (s := { s with pending := rest }) hs] at he
        cases he
        exact ⟨straps, rest, hp, rfl, address_powerOn _ straps⟩
    · exact absurd (address_exec (s := { s with pending := rest }) (not_exists.mp hc) he) hne

/-- Table 12-1: the fields of the straps are those of the address. -/
theorem strapped_layout {a : W32} {straps : BitVec 13} (ha : a = straps.setWidth 32) :
    a.toNat % 4 = straps.toNat % 4 ∧ a.toNat / 4 % 8 = straps.toNat / 4 % 8 ∧ adX a = straps.toNat / 32 % 16 ∧
    adY a = straps.toNat / 512 ∧ adC a = straps.toNat % 32 ∧ a.toNat / 2 ^ 13 = 0 := by
  have hlt : straps.toNat < 2 ^ 13 := straps.isLt
  have hn : a.toNat = straps.toNat := by
    rw [ha, BitVec.toNat_setWidth]
    exact Nat.mod_eq_of_lt (by omega)
  simp only [adX, adY, adC, hn, true_and]
  omega

/-! ### Addresses with a reserved bit -/

/-- A module command that passes the checks of its lane and fails its own form check: the refusal is the whole step (R86, R87). -/
theorem exec_module_formFault {c : Instr} {h : Hdr} {i : CmdInfo} {s : State} {form : State → Hdr → Option Status}
    {foreign : State → Hdr → Bool} {body : State → Nat → Hdr → State} {st : Status} (hc : cmdOf c = some (h, i))
    (hd : unitDefOf c = none) (hr : moduleReady s c = true) (hm : moduleNow c = runModule c form foreign body)
    (hf : form s.taken h = some st) : exec c s = .next (moduleOutcome s s.taken c st []) := by
  simp only [moduleReady, hc, Bool.and_eq_true, Bool.not_eq_true', Option.isNone_iff_eq_none] at hr
  obtain ⟨⟨⟨⟨⟨⟨hu, hside⟩, hb⟩, hw⟩, -⟩, -⟩, -⟩ := hr
  rw [exec_module s hc hd, submit_unhindered _ hc hu, hm]
  simp [runModule, hc, hside, admitModule, hb, hw, hf, moduleOutcome]

theorem addrReserved_iff (a : W32) : addrReserved a = true ↔ 2 ^ 13 ≤ a.toNat := decide_eq_true_iff

/-- A member list that holds a reserved address fails the form check of ALLOT_CREATE and ALLOT_RESIZE. -/
theorem allotForm_of_reserved {a : W32} {l : List W32} (n : W16) (hl : a ∈ l) (ha : addrReserved a = true) :
    allotForm n l = false := by
  have hall : l.all (fun a => !addrReserved a) = false := List.all_eq_false.mpr ⟨a, hl, by simp [ha]⟩
  simp [allotForm, hall]

/-- R312: each of the four commands that name addresses refuses one with a reserved bit by its form check. -/
theorem exec_reservedAddress_refused {s : State} {h : Hdr} {n rank : W16} {op : Byte} {w : BitVec 256} {l : List W32} {a : W32}
    (ha : 2 ^ 13 ≤ a.toNat) (hl : a ∈ l) :
    ∀ c ∈ [Instr.routeQuery h a, .collBackup h n rank a, .allotCreate h n w l, .allotResize h n op w l], moduleReady s c = true →
      (c = .collBackup h n rank a → a ≠ 0xFFFFFFFF) → exec c s = .next (moduleOutcome s s.taken c .badParam []) := by
  have hres : addrReserved a = true := (addrReserved_iff a).mpr ha
  have hform : allotForm n l = false := allotForm_of_reserved n hl hres
  simp only [List.forall_mem_cons]
  refine ⟨fun hr _ => ?query, fun hr hne => ?backup, fun hr _ => ?create, fun hr _ => ?resize, by simp⟩
  all_goals refine exec_module_formFault rfl rfl hr (by rfl) ?_
  case query => exact if_pos hres
  case backup => exact if_pos (.inr ⟨hne trivial, hres⟩)
  case create | resize => simp [hform]

/-! ### The removal of a backup (R293) -/

/-- COLL_BACKUP of the address of all ones names no address, so its form and its objects are in order. -/
theorem exec_collBackup_none {s : State} {h : Hdr} {n rank : W16} (hr : moduleReady s (.collBackup h n rank 0xFFFFFFFF) = true)
    (ha : h.allot ≠ 0) : exec (.collBackup h n rank 0xFFFFFFFF) s =
      .next (backupBody h.allot n rank.toNat 0xFFFFFFFF (.collBackup h n rank 0xFFFFFFFF) s.taken s.lodge.nextId) :=
  congrArg Host.Outcome.next (submit_module _ _ _ rfl hr (if_neg (by simpa using ha)) rfl)

theorem State.modColl_congr {s t : State} (h : t.modColls = s.modColls) (a n : W16) : t.modColl a n = s.modColl a n := by
  simp only [State.modColl, h]

/-- The record of a handle after a change that keeps what names it. -/
theorem State.modColl_modModColl (s : State) (a n : W16) {f : ModColl → ModColl}
    (hf : ∀ m, (f m).allot = m.allot ∧ (f m).handle = m.handle) : (s.modModColl a n f).modColl a n = (s.modColl a n).map f := by
  simp only [State.modColl, State.modModColl]
  induction s.modColls with
  | nil => rfl
  | cons m ms ih =>
    rw [List.map_cons, List.find?_cons, List.find?_cons]
    by_cases hm : m.allot = a ∧ m.handle = n
    · simp [hm, hf]
    · simp only [hm, if_false, ← Bool.decide_and, decide_false] at ih ⊢
      exact ih

theorem backups_adoptBackups (s : State) (a n : W16) :
    ((adoptBackups s a n).modColl a n).map (·.backups) = (s.modColl a n).map (·.backups) := by
  unfold adoptBackups
  split
  · rfl
  · rw [State.modColl_modModColl, Option.map_map]
    · rfl
    · exact fun _ => ⟨rfl, rfl⟩

theorem modColl_finishModule (s : State) (id : Nat) (c : Instr) (st : Status) (payload : List Byte) (a n : W16) :
    (finishModule s id c st payload).modColl a n = s.modColl a n := by
  obtain ⟨-, -, -, hcolls, -⟩ := onlyReplied_finishModule s id c st payload
  exact State.modColl_congr hcolls a n

/-- A state whose record of a handle names the given backups. -/
def State.setBackups (s : State) (a n : W16) (l : KMap W32) : State := s.modModColl a n (fun m => { m with backups := l })

theorem State.backups_setBackups {s : State} {a n : W16} {m : ModColl} (l : KMap W32) (hm : s.modColl a n = some m) :
    ((s.setBackups a n l).modColl a n).map (·.backups) = some l := by
  rw [State.setBackups, State.modColl_modModColl, hm]
  · rfl
  · exact fun _ => ⟨rfl, rfl⟩

/-- The address of all ones is no module's: a COLL_BACKUP of it leaves the backups of the other ranks. -/
theorem backups_backupBody_none {s : State} {a n : W16} {m : ModColl} {k : Coll} {x : Allot} {rank : Nat} (c : Instr) (id : Nat)
    (hown : s.fabric.address ≠ 0xFFFFFFFF) (hm : s.modColl a n = some m) (hk : s.collAny a n = some k)
    (hx : s.allot? a.toNat = some x) (hr : rank < (groupOf s x.members k.plan.courses m.backups).length) :
    ((backupBody a n rank 0xFFFFFFFF c s id).modColl a n).map (·.backups) =
      some (m.backups.filter (fun e => decide (e.1 ≠ rank))) := by
  let u := s.setBackups a n (m.backups.filter (fun e => decide (e.1 ≠ rank)))
  have hbody : backupBody a n rank 0xFFFFFFFF c s id =
      finishModule (if firstUntouched u a n then adoptBackups u a n else u) id c .ok [] := by
    simp only [backupBody, hm, hk, hx, if_neg hown.symm, Nat.not_le.mpr hr, decide_true, decide_false, Bool.not_true, Bool.false_and,
      Bool.or_false, Bool.false_eq_true, if_true, if_false]
    rfl
  have hu : (u.modColl a n).map (·.backups) = some (m.backups.filter (fun e => decide (e.1 ≠ rank))) :=
    State.backups_setBackups _ hm
  rw [hbody, modColl_finishModule]
  split
  · rw [backups_adoptBackups, hu]
  · exact hu

/-- Settles O49: every row but POWER_ON keeps the address, POWER_ON samples it in its own step, and the four form checks refuse a
reserved one. -/
theorem addressFixed : Obligations.AddressFixed := by
  refine ⟨fun s straps hs => ?_, fun s straps hs => exec_powerOn_idle straps hs, fun s t c he hc => address_exec hc he,
    fun s t he hne => powerOn_of_address_ne he hne, fun s h n rank op w l a ha hl => ?_,
    fun s h n rank m k x hready ha hown hm hk hx hr => ?_⟩
  · exact ⟨_, exec_powerOn straps hs, strapped_layout (address_powerOn s straps)⟩
  · exact exec_reservedAddress_refused ha hl
  · exact ⟨_, exec_collBackup_none hready ha, backups_backupBody_none (s := s.taken) _ _ hown hm hk hx hr⟩

end Sys2Proof.Machine
end

section
/-!
PROOF. O48 (R392), first part: what an access to memory changes (R376 to R378, R390). Waking channels, filling check caches and counting
poisoned sectors change no byte and no sector's poison. An error changes bytes of its own sector alone. The bytes of a write land at their
addresses, but for pages that failed in place. No access moves an aperture.
-/

namespace Sys2Proof.Machine

/-! ### Apertures keep their places -/

/-- Each port's BAR2 reaches what it reached. -/
def basesKept (s t : State) : Prop := ∀ p, (t.port p).bar2Base = (s.port p).bar2Base

theorem basesKept_refl (s : State) : basesKept s s := fun _ => rfl

theorem basesKept_trans {s t u : State} (h : basesKept s t) (k : basesKept t u) : basesKept s u := fun p => (k p).trans (h p)

theorem basesKept_foldl {α : Type} {f : State → α → State} (hf : ∀ s a, basesKept s (f s a)) (l : List α) (s : State) :
    basesKept s (l.foldl f s) := by
  induction l generalizing s with
  | nil => exact basesKept_refl s
  | cons a t ih => exact basesKept_trans (hf s a) (ih _)

theorem basesKept_of_ports {s t : State} (h0 : t.port0 = s.port0) (h1 : t.port1 = s.port1) : basesKept s t
  | .port0 => congrArg Port.bar2Base h0
  | .port1 => congrArg Port.bar2Base h1

theorem basesKept_callDies (s : State) (l : List Nat) : basesKept s (s.callDies l) := basesKept_of_ports rfl rfl

theorem basesKept_modPort (s : State) (p : PortIx) {f : Port → Port} (hf : ∀ x, (f x).bar2Base = x.bar2Base) :
    basesKept s (s.modPort p f) := by
  intro q
  by_cases hq : q = p
  · rw [hq, State.port_modPort, hf]
  · rw [State.port_modPort_ne s p q f hq]

theorem Port.putEvent_bar2Base (x : Port) (group : Nat) (completion : Bool) (k : OutPkt) :
    (x.putEvent group completion k).bar2Base = x.bar2Base := by
  unfold Port.putEvent
  split
  · rfl
  · split <;> rfl

theorem basesKept_moduleEvent (s : State) (opcode group : Nat) (st : Status) (detail : List Byte) :
    basesKept s (s.moduleEvent opcode group st detail) :=
  basesKept_trans (basesKept_callDies s _)
    (basesKept_foldl
      (fun s _ => basesKept_trans (basesKept_callDies s _) (basesKept_modPort _ _ (fun x => x.putEvent_bar2Base _ _ _))) _ _)

theorem basesKept_sendReply (s : State) (h : Hdr) (c : Instr) (k : OutPkt) : basesKept s (s.sendReply h c k) := by
  unfold State.sendReply
  dsimp only
  split
  case h_1 p _ => -- a port
    split
    · exact basesKept_refl s
    · refine basesKept_trans (basesKept_callDies s (portDies p)) ?_
      split
      · exact basesKept_modPort _ _ (fun _ => rfl)
      · exact basesKept_of_ports rfl rfl
  case h_2 => -- a peer
    split
    · exact basesKept_refl s
    · obtain ⟨f, hf⟩ := fabricOnly_sendPeerReply (s.callDies (peerDies s h.allot _ k.status)) _ h.allot k
      rw [hf]
      exact basesKept_of_ports rfl rfl
  case h_3 => -- the sideband
    split <;> exact basesKept_of_ports rfl rfl

theorem basesKept_finishModule (s : State) (id : Nat) (c : Instr) (st : Status) (payload : List Byte) :
    basesKept s (finishModule s id c st payload) := by
  cases hc : cmdOf c with
  | none => simp only [finishModule, hc]; exact basesKept_refl s
  | some e => simp only [finishModule, State.reply, hc]; exact basesKept_sendReply s _ _ _

/-! ### Channels -/

@[simp] theorem State.chan_modChan (s : State) (ch : Nat) (f : MemChan → MemChan) : (s.modChan ch f).chan ch = f (s.chan ch) :=
  KMap.get_put_self _ _ _ _

theorem State.chan_modChan_ne (s : State) (ch k : Nat) (f : MemChan → MemChan) (h : k ≠ ch) : (s.modChan ch f).chan k = s.chan k :=
  KMap.get_put_ne _ _ _ _ _ h

/-! ### What leaves every sector as it is -/

/-- No port, no byte, no sector's poison and no page that failed in place changed. -/
def sectorsKept (s t : State) : Prop :=
  t.port0 = s.port0 ∧ t.port1 = s.port1 ∧ t.mem.bytes = s.mem.bytes ∧ t.mem.poison = s.mem.poison ∧
    ∀ ch, (t.chan ch).failedPages = (s.chan ch).failedPages

theorem sectorsKept_refl (s : State) : sectorsKept s s := ⟨rfl, rfl, rfl, rfl, fun _ => rfl⟩

theorem sectorsKept_trans {s t u : State} (h : sectorsKept s t) (k : sectorsKept t u) : sectorsKept s u := by
  obtain ⟨hp, hq, hb, hn, hf⟩ := h
  obtain ⟨kp, kq, kb, kn, kf⟩ := k
  exact ⟨kp.trans hp, kq.trans hq, kb.trans hb, kn.trans hn, fun ch => (kf ch).trans (hf ch)⟩

theorem sectorsKept_foldl {α : Type} {f : State → α → State} (hf : ∀ s a, sectorsKept s (f s a)) (l : List α) (s : State) :
    sectorsKept s (l.foldl f s) := by
  induction l generalizing s with
  | nil => exact sectorsKept_refl s
  | cons a t ih => exact sectorsKept_trans (hf s a) (ih _)

theorem sectorsKept_modChan (s : State) (ch : Nat) {f : MemChan → MemChan} (hf : ∀ c, (f c).failedPages = c.failedPages) :
    sectorsKept s (s.modChan ch f) := by
  refine ⟨rfl, rfl, rfl, rfl, fun k => ?_⟩
  by_cases hk : k = ch
  · rw [hk, State.chan_modChan, hf]
  · rw [State.chan_modChan_ne s ch k f hk]

theorem sectorsKept_wakeChans (s : State) (secs : List Nat) : sectorsKept s (s.wakeChans secs) := by
  refine sectorsKept_foldl (fun s ch => ?_) _ _
  split
  · exact sectorsKept_modChan s ch (fun _ => rfl)
  · exact sectorsKept_refl s

theorem sectorsKept_fillCaches (s : State) (secs : List Nat) : sectorsKept s (s.fillCaches secs) :=
  sectorsKept_foldl (fun s n => sectorsKept_modChan s (memChan (32 * n)) (f := fun c => c.fill (burstOf s n)) (fun _ => rfl)) _ _

theorem sectorsKept_eccCoalesce (s : State) (kind source : Nat) (path : BitVec 24) (n : Nat) :
    sectorsKept s (eccCoalesce s kind source path n) := sectorsKept_modChan s _ (fun _ => rfl)

/-- What an access does before it meets an error. -/
theorem sectorsKept_reach (s : State) (source : Nat) (path : BitVec 24) (secs bad : List Nat) :
    sectorsKept s (bad.foldl (fun s n => eccCoalesce s 3 source path n) ((s.wakeChans secs).fillCaches secs)) :=
  sectorsKept_trans (sectorsKept_wakeChans s secs) (sectorsKept_trans (sectorsKept_fillCaches _ secs)
    (sectorsKept_foldl (fun s n => sectorsKept_eccCoalesce s 3 source path n) bad _))

theorem sectorFailed_congr {s t : State} (h : sectorsKept s t) (n : Nat) : sectorFailed t n = sectorFailed s n := by
  obtain ⟨-, -, -, -, hf⟩ := h
  rw [sectorFailed, sectorFailed, hf]

theorem sectorBad_congr {s t : State} (h : sectorsKept s t) (n : Nat) : sectorBad t n = sectorBad s n := by
  have hfailed := sectorFailed_congr h n
  obtain ⟨-, -, -, hpoison, -⟩ := h
  rw [sectorBad, sectorBad, hfailed, hpoison]

/-! ### What the errors of an access change (R376, R377) -/

/-- Beside the bytes of the sectors in which some errors fell, no byte changed, and no aperture moved. -/
def changedByErrs (errs : List MemErr) (s t : State) : Prop :=
  basesKept s t ∧ ∀ a, (∀ e ∈ errs, a / 32 ≠ e.addr / 32) → KMap.get 0 t.mem.bytes a = KMap.get 0 s.mem.bytes a

section
variable {errs : List MemErr}

theorem changedByErrs_trans {s t u : State} (h : changedByErrs errs s t) (k : changedByErrs errs t u) : changedByErrs errs s u :=
  ⟨basesKept_trans h.1 k.1, fun a ha => (k.2 a ha).trans (h.2 a ha)⟩

/-- Where the bytes are the same, no error changed them. -/
theorem changedByErrs_of_bytes {s t : State} (hp : basesKept s t) (hb : t.mem.bytes = s.mem.bytes) : changedByErrs errs s t :=
  ⟨hp, fun a _ => by rw [hb]⟩

theorem changedByErrs_refl (s : State) : changedByErrs errs s s := changedByErrs_of_bytes (basesKept_refl s) rfl

theorem changedByErrs_of_sectorsKept {s t : State} (h : sectorsKept s t) : changedByErrs errs s t := by
  obtain ⟨h0, h1, hb, -, -⟩ := h
  exact changedByErrs_of_bytes (basesKept_of_ports h0 h1) hb

theorem changedByErrs_foldl {α : Type} {f : State → α → State} {l : List α} {s t : State} (h : changedByErrs errs s t)
    (hf : ∀ u, ∀ a ∈ l, changedByErrs errs u (f u a)) : changedByErrs errs s (l.foldl f t) := by
  induction l generalizing t with
  | nil => exact h
  | cons a l ih =>
    exact ih (changedByErrs_trans h (hf t a List.mem_cons_self)) (fun u b hb => hf u b (List.mem_cons_of_mem _ hb))

theorem changedByErrs_modChan (s : State) (ch : Nat) (f : MemChan → MemChan) : changedByErrs errs s (s.modChan ch f) :=
  changedByErrs_of_bytes (basesKept_of_ports rfl rfl) rfl

theorem changedByErrs_moduleEvent (s : State) (opcode group : Nat) (st : Status) (detail : List Byte) :
    changedByErrs errs s (s.moduleEvent opcode group st detail) := by
  obtain ⟨-, hmem, -⟩ := onlyReplied_moduleEvent s opcode group st detail
  exact changedByErrs_of_bytes (basesKept_moduleEvent s opcode group st detail) (by rw [hmem])

theorem changedByErrs_poisonSector (s : State) (n : Nat) : changedByErrs errs s (s.poisonSector n) :=
  changedByErrs_of_bytes (basesKept_of_ports rfl rfl) rfl

theorem changedByErrs_retirePage (s : State) (ch p source : Nat) (path : BitVec 24) :
    changedByErrs errs s (retirePage s ch p source path) := by
  unfold retirePage
  dsimp only
  split
  · exact changedByErrs_refl s
  · split
    · exact changedByErrs_trans (changedByErrs_modChan s _ _)
        (changedByErrs_trans (changedByErrs_moduleEvent _ _ _ _ _) (changedByErrs_moduleEvent _ _ _ _ _))
    · exact changedByErrs_modChan s _ _

theorem changedByErrs_correctedError (s : State) (source : Nat) (path : BitVec 24) (n : Nat) :
    changedByErrs errs s (correctedError s source path n) := by
  unfold correctedError
  dsimp only
  split
  · refine changedByErrs_trans ?_ (changedByErrs_retirePage _ _ _ _ _)
    exact changedByErrs_of_bytes (basesKept_of_ports rfl rfl) rfl
  · exact changedByErrs_of_bytes (basesKept_of_ports rfl rfl) rfl

theorem changedByErrs_countUncorrected (s : State) :
    changedByErrs errs s { s with mem := { s.mem with uncorrected := s.mem.uncorrected + 1 } } :=
  changedByErrs_of_bytes (basesKept_of_ports rfl rfl) rfl

theorem changedByErrs_uncorrectableError (s : State) (source : Nat) (path : BitVec 24) (n : Nat) :
    changedByErrs errs s (uncorrectableError s source path n) :=
  changedByErrs_trans (changedByErrs_poisonSector s n)
    (changedByErrs_trans (changedByErrs_countUncorrected _)
      (changedByErrs_trans (changedByErrs_moduleEvent _ _ _ _ _) (changedByErrs_retirePage _ _ _ _ _)))

theorem changedByErrs_rowFailureError (s : State) (source : Nat) (path : BitVec 24) (n : Nat) (spared : List Nat) :
    changedByErrs errs s (rowFailureError s source path n spared) :=
  changedByErrs_trans (changedByErrs_foldl (changedByErrs_refl s) (fun u k _ => changedByErrs_poisonSector u k))
    (changedByErrs_trans (changedByErrs_countUncorrected _)
      (changedByErrs_trans (changedByErrs_moduleEvent _ _ _ _ _) (changedByErrs_retirePage _ _ _ _ _)))

end

/-! ### Storing bytes -/

/-- Bytes stored elsewhere leave an address alone. -/
theorem get_storeBytes_of_not_mem (s : State) {ws : List (Nat × Byte)} {a : Nat} (h : ∀ w ∈ ws, w.1 ≠ a) :
    KMap.get 0 (s.storeBytes ws).mem.bytes a = KMap.get 0 s.mem.bytes a := by
  induction ws generalizing s with
  | nil => rfl
  | cons w t ih =>
    rw [List.forall_mem_cons] at h
    calc KMap.get 0 (s.storeBytes (w :: t)).mem.bytes a
      _ = KMap.get 0 ((s.storeBytes [w]).storeBytes t).mem.bytes a := rfl
      _ = KMap.get 0 (KMap.put 0 s.mem.bytes w.1 w.2) a := ih _ h.2
      _ = KMap.get 0 s.mem.bytes a := KMap.get_put_ne _ _ _ _ _ h.1.symm

/-- An address for which one byte is stored holds it. -/
theorem get_storeBytes_of_mem (s : State) {ws : List (Nat × Byte)} {a : Nat} {b : Byte} (hm : (a, b) ∈ ws)
    (h : ∀ w ∈ ws, w.1 = a → w.2 = b) : KMap.get 0 (s.storeBytes ws).mem.bytes a = b := by
  induction ws generalizing s with
  | nil => exact absurd hm List.not_mem_nil
  | cons w t ih =>
    rw [List.forall_mem_cons] at h
    by_cases ht : ∃ c, (a, c) ∈ t
    · obtain ⟨c, hc⟩ := ht
      obtain rfl : c = b := h.2 _ hc rfl
      exact ih (s.storeBytes [w]) hc h.2
    · obtain rfl : (a, b) = w := (List.mem_cons.mp hm).resolve_right (fun hb => ht ⟨b, hb⟩)
      calc KMap.get 0 (s.storeBytes ((a, b) :: t)).mem.bytes a
        _ = KMap.get 0 ((s.storeBytes [(a, b)]).storeBytes t).mem.bytes a := rfl
        _ = KMap.get 0 (KMap.put 0 s.mem.bytes a b) a :=
          get_storeBytes_of_not_mem _ (fun w hw hwa => ht ⟨w.2, by rwa [← hwa]⟩)
        _ = b := KMap.get_put_self _ _ _ _

/-! ### One error, and the errors of an access -/

/-- A misread changes its own sector. -/
theorem changedByErrs_misread {errs : List MemErr} {e : MemErr} (he : e ∈ errs) (s : State) (data : List Byte) :
    changedByErrs errs s (s.misread (e.addr / 32) data) := by
  refine ⟨basesKept_of_ports rfl rfl, fun a ha => get_storeBytes_of_not_mem s (fun w hw hwa => ha e he ?_)⟩
  obtain ⟨⟨b, i⟩, hx, rfl⟩ := List.mem_map.mp hw
  obtain ⟨hlo, hhi, -⟩ := List.mem_zipIdx hx
  have hlen : (data.take 32).length ≤ 32 := List.length_take_le _ _
  dsimp only at hwa
  omega

theorem changedByErrs_applyErr {errs : List MemErr} {e : MemErr} (he : e ∈ errs) (s : State) (source : Nat) (path : BitVec 24)
    (spared : List Nat) : changedByErrs errs s (applyErr s source path spared e) := by
  unfold applyErr
  dsimp only
  split
  · exact changedByErrs_correctedError _ _ _ _
  · exact changedByErrs_correctedError _ _ _ _
  · split
    · exact changedByErrs_refl s
    · exact changedByErrs_trans (changedByErrs_misread he s _) (changedByErrs_uncorrectableError _ _ _ _)
  · exact changedByErrs_trans (changedByErrs_misread he s _) (changedByErrs_correctedError _ _ _ _)
  · exact changedByErrs_misread he s _
  · exact changedByErrs_rowFailureError _ _ _ _ _

/-- The errors that an access meets are among those given. -/
theorem mem_of_mem_errsMet {s : State} {errs : List MemErr} {secs : List Nat} {e : MemErr} (h : e ∈ errsMet s errs secs) : e ∈ errs :=
  List.mem_of_mem_filter (List.mem_of_mem_filter h)

theorem changedByErrs_writeChecks (s : State) (source : Nat) (path : BitVec 24) (ws : List (Nat × Byte)) (errs : List MemErr) :
    changedByErrs errs s (writeChecks s source path ws errs) := by
  unfold writeChecks
  refine changedByErrs_foldl
    (changedByErrs_foldl (changedByErrs_of_sectorsKept (sectorsKept_reach s source path _ _)) (fun u e he => ?_)) (fun u e he => ?_)
  all_goals exact changedByErrs_applyErr (mem_of_mem_errsMet (List.mem_of_mem_filter he)) u source path _

/-- The checks of a write that meets no error leave every sector as it is. -/
theorem sectorsKept_writeChecks (s : State) (source : Nat) (path : BitVec 24) (ws : List (Nat × Byte)) :
    sectorsKept s (writeChecks s source path ws []) :=
  sectorsKept_reach s source path _ _

/-- A read that meets no error leaves every sector as it is. -/
theorem sectorsKept_touchSectors (s : State) (source : Nat) (path : BitVec 24) (secs : List Nat) :
    sectorsKept s (touchSectors s source path secs []) := sectorsKept_reach s source path secs _

/-! ### A write (R378, R390) -/

/-- Cleaning sectors changes no port and no byte. -/
theorem foldl_cleanSector_kept (l : List Nat) (s : State) :
    basesKept s (l.foldl State.cleanSector s) ∧ (l.foldl State.cleanSector s).mem.bytes = s.mem.bytes := by
  induction l generalizing s with
  | nil => exact ⟨basesKept_refl s, rfl⟩
  | cons n t ih =>
    obtain ⟨hp, hb⟩ := ih (s.cleanSector n)
    exact ⟨basesKept_trans (basesKept_of_ports rfl rfl) hp, hb⟩

theorem basesKept_writeLands (s : State) (ws : List (Nat × Byte)) : basesKept s (writeLands s ws) :=
  basesKept_trans (basesKept_of_ports rfl rfl) (foldl_cleanSector_kept _ (s.storeBytes (landing s ws))).1

theorem bytes_writeLands (s : State) (ws : List (Nat × Byte)) :
    (writeLands s ws).mem.bytes = (s.storeBytes (landing s ws)).mem.bytes := (foldl_cleanSector_kept _ _).2

theorem basesKept_memWrite (s : State) (source : Nat) (path : BitVec 24) (ws : List (Nat × Byte)) (errs : List MemErr) :
    basesKept s (memWrite s source path ws errs) :=
  basesKept_trans (changedByErrs_writeChecks s source path ws errs).1 (basesKept_writeLands _ ws)

/-- A write changes bytes at its own addresses and in the sectors of the errors it meets. -/
theorem memWrite_changes {s : State} {source : Nat} {path : BitVec 24} {ws : List (Nat × Byte)} {errs : List MemErr} {a : Nat}
    (h : KMap.get 0 (memWrite s source path ws errs).mem.bytes a ≠ KMap.get 0 s.mem.bytes a) :
    (∃ b, (a, b) ∈ ws) ∨ ∃ e ∈ errs, a / 32 = e.addr / 32 := by
  by_contra! hn
  obtain ⟨hws, herrs⟩ := hn
  refine h ?_
  rw [memWrite, bytes_writeLands, get_storeBytes_of_not_mem]
  · exact (changedByErrs_writeChecks s source path ws errs).2 a herrs
  · rintro ⟨a', b⟩ hw rfl
    exact hws b (List.mem_of_mem_filter hw)

/-- A write that meets no error lands wherever the page has not failed. -/
theorem get_memWrite_of_mem {s : State} {source : Nat} {path : BitVec 24} {ws : List (Nat × Byte)} {a : Nat} {b : Byte}
    (hm : (a, b) ∈ ws) (hu : ∀ w ∈ ws, w.1 = a → w.2 = b) (hf : sectorFailed s (a / 32) = false) :
    KMap.get 0 (memWrite s source path ws []).mem.bytes a = b := by
  have hland : sectorFailed (writeChecks s source path ws []) (a / 32) = false := by
    rw [sectorFailed_congr (sectorsKept_writeChecks s source path ws), hf]
  rw [memWrite, bytes_writeLands]
  refine get_storeBytes_of_mem _ (List.mem_filter.mpr ⟨hm, by simp [hland]⟩) (fun w hw => hu w (List.mem_of_mem_filter hw))

/-! ### The sectors and the bytes of a range -/

/-- Each sector of a range holds a byte of it. -/
theorem exists_byte_of_mem_sectorsOf {lo n k : Nat} (h : k ∈ sectorsOf lo n) : ∃ i < n, k = (lo + i) / 32 := by
  unfold sectorsOf at h
  split at h
  · exact absurd h List.not_mem_nil
  · next hn =>
    obtain ⟨j, hj, rfl⟩ := List.mem_map.mp h
    rw [List.mem_range] at hj
    rcases Nat.eq_zero_or_pos j with rfl | hpos
    · exact ⟨0, by omega, by omega⟩
    · exact ⟨32 * (j + lo / 32) - lo, by omega, by omega⟩

theorem KMap.length_bytes (m : KMap Byte) (a n : Nat) : (KMap.bytes m a n).length = n := by
  induction n generalizing a with
  | zero => rfl
  | succ n ih => rw [KMap.bytes, List.length_cons, ih]

theorem KMap.getElem?_bytes (m : KMap Byte) {n k : Nat} (a : Nat) (h : k < n) :
    (KMap.bytes m a n)[k]? = some (KMap.get 0 m (a + k)) := by
  induction n generalizing a k with
  | zero => omega
  | succ n ih =>
    cases k with
    | zero => rfl
    | succ k => rw [KMap.bytes, List.getElem?_cons_succ, ih (a + 1) (by omega), Nat.add_right_comm, Nat.add_assoc]

end Sys2Proof.Machine
end

section
/-!
PROOF. O48 (R392, R400): the aperture. APERTURE fails its form check, or the check of what it names, or sets the base of its own port; a
BAR2 access that does not wait is the memory's own read or write at BASE plus its offset.
-/

namespace Sys2Proof.Machine

/-! ### APERTURE -/

theorem memScope_outside {s : State} {h : Hdr} {lo hi : Nat} (hp : h.priv = 0)
    (hg : ∀ a, s.allot? h.allot.toNat = some a → insideRanges a.grants lo hi = false) : memScope s h lo hi = false := by
  have hz : h.priv.toNat = 0 := by rw [hp]; rfl
  unfold memScope
  cases ha : s.allot? h.allot.toNat with
  | none => simp [hz]
  | some a => simp [hz, hg a ha]

theorem memScope_taken (s : State) (h : Hdr) (lo hi : Nat) : memScope s.taken h lo hi = memScope s h lo hi := rfl

/-- A module command that passes every check but that of the objects it names: `WRONG_ALLOTMENT` is the whole step (R86, R87). -/
theorem exec_module_foreign {c : Instr} {h : Hdr} {i : CmdInfo} {s : State} {form : State → Hdr → Option Status}
    {foreign : State → Hdr → Bool} {body : State → Nat → Hdr → State} (hc : cmdOf c = some (h, i)) (hd : unitDefOf c = none)
    (hr : moduleReady s c = true) (hm : moduleNow c = runModule c form foreign body) (hf : form s.taken h = none)
    (ho : foreign s.taken h = true) : exec c s = .next (moduleOutcome s s.taken c .wrongAllotment []) := by
  simp only [moduleReady, hc, Bool.and_eq_true, Bool.not_eq_true', Option.isNone_iff_eq_none, decide_eq_true_eq] at hr
  obtain ⟨⟨⟨⟨⟨⟨hu, hside⟩, hb⟩, hw⟩, hpath⟩, hmask⟩, hpriv⟩ := hr
  rw [exec_module s hc hd, submit_unhindered _ hc hu, hm]
  simp [runModule, hc, hside, admitModule, hb, hw, hf, hpath, hmask, hpriv, ho, moduleOutcome]

/-- An aperture that lies on a gibibyte and inside memory, asked for by a port, passes the form check. -/
theorem apertureForm_none {h : Hdr} {b : W64} {p : PortIx} (hs : h.src = .port p) (hal : b.toNat % 2 ^ 30 = 0)
    (hend : b.toNat + 64 * 2 ^ 30 ≤ 1888 * 2 ^ 30) :
    (if memEnd < b.toNat + 64 * gib ∨ portOf h = none then some Status.badParam
      else if b.toNat % gib ≠ 0 then some .alignFault else none) = none := by
  have hport : portOf h ≠ none := by simp [portOf, hs]
  exact (if_neg (not_or.mpr ⟨Nat.not_lt.mpr hend, hport⟩)).trans (if_neg (not_not.mpr hal))

section
variable {s : State} {h : Hdr} {b : W64} {p : PortIx} (hr : moduleReady s (.aperture h b) = true)
include hr

/-- An aperture that reaches beyond memory fails the form check. -/
theorem exec_aperture_beyond (hb : 1888 * 2 ^ 30 < b.toNat + 64 * 2 ^ 30) :
    exec (.aperture h b) s = .next (moduleOutcome s s.taken (.aperture h b) .badParam []) :=
  exec_module_formFault rfl rfl hr (by rfl) (if_pos (Or.inl hb))

variable (hs : h.src = .port p) (hal : b.toNat % 2 ^ 30 = 0) (hend : b.toNat + 64 * 2 ^ 30 ≤ 1888 * 2 ^ 30)
include hs hal hend

theorem exec_aperture_foreign (hm : memScope s h b.toNat (b.toNat + 64 * 2 ^ 30) = false) :
    exec (.aperture h b) s = .next (moduleOutcome s s.taken (.aperture h b) .wrongAllotment []) := by
  refine exec_module_foreign rfl rfl hr (by rfl) ?form ?scope
  case form => exact apertureForm_none hs hal hend
  case scope => rw [memScope_taken, gib, hm]; rfl

/-- An aperture in scope takes its place on the port that asked. -/
theorem exec_aperture_sets (hm : memScope s h b.toNat (b.toNat + 64 * 2 ^ 30) = true) :
    exec (.aperture h b) s = .next (moduleOutcome s
      (s.taken.modPort p (fun x => { x with bar2Base := b, bar2Allot := if h.priv = 0 then h.allot else 0 }))
      (.aperture h b) .ok []) := by
  have hport : portOf h = some p := by simp [portOf, hs]
  rw [exec_module s rfl rfl, moduleNow, apertureNow, submit_module _ _ _ rfl hr ?form ?scope, hport]
  case form => exact apertureForm_none hs hal hend
  case scope => rw [memScope_taken, gib, hm]; rfl
  rfl

end

/-! ### Accesses over BAR2 -/

/-- The bytes of a host's write that are enabled, with their addresses. -/
def enabledBytes (lo : Nat) (ds : List (Option Byte)) : List (Nat × Byte) :=
  (ds.zipIdx lo).filterMap (fun e => e.1.map (fun b => (e.2, b)))

theorem mem_enabledBytes {lo a : Nat} {ds : List (Option Byte)} {b : Byte} :
    (a, b) ∈ enabledBytes lo ds ↔ ∃ k, a = lo + k ∧ ds[k]? = some (some b) := by
  simp only [enabledBytes, List.mem_filterMap, Prod.exists, List.mk_mem_zipIdx_iff_le_and_getElem?_sub, Option.map_eq_some_iff,
    Prod.mk.injEq]
  constructor
  · rintro ⟨_, i, ⟨hi, hd⟩, _, rfl, rfl, rfl⟩
    exact ⟨i - lo, by omega, hd⟩
  · rintro ⟨k, rfl, hd⟩
    exact ⟨some b, lo + k, ⟨by omega, by rwa [Nat.add_sub_cancel_left]⟩, b, rfl, rfl, rfl⟩

section
variable {s : State} {p : PortIx} {o : Nat}

theorem exec_bar2Write {ds : List (Option Byte)} {errs : List MemErr} (ht : bar2Takes s p o ds.length = true)
    (hd : bar2Denied s p ((s.port p).bar2Base.toNat + o) ds.length = false)
    (hw : bar2Waits s ⟨p, (s.port p).bar2Base.toNat + o, ds.length, some ds, errs⟩ = false) :
    exec (.bar2Write p o ds errs) s = .next (memWrite s 5 0 (enabledBytes ((s.port p).bar2Base.toNat + o) ds) errs) := by
  change execBar2Write p o ds errs s = _
  simp [execBar2Write, ht, hd, bar2Access, hw, bar2Do, enabledBytes]

theorem exec_bar2Read {n : Nat} {errs : List MemErr} (ht : bar2Takes s p o n = true)
    (hd : bar2Denied s p ((s.port p).bar2Base.toNat + o) n = false)
    (hw : bar2Waits s ⟨p, (s.port p).bar2Base.toNat + o, n, none, errs⟩ = false) :
    exec (.bar2Read p o n errs) s = .next (bar2Do s ⟨p, (s.port p).bar2Base.toNat + o, n, none, errs⟩) := by
  change execBar2Read p o n errs s = _
  simp [execBar2Read, ht, hd, bar2Access, hw]

end

theorem mem_bar2Do_read (s : State) (p : PortIx) (lo n : Nat) (errs : List MemErr) :
    (bar2Do s ⟨p, lo, n, none, errs⟩).mem = (touchSectors s 5 0 (sectorsOf lo n) errs).mem := State.modPort_mem _ _ _

/-- A read of sectors that are not poisoned, in pages that have not failed, returns the stored bytes. -/
theorem bar2Out_bar2Do_read {s : State} {lo n : Nat} (p : PortIx) (h : ∀ i < n, sectorBad s ((lo + i) / 32) = false) :
    ((bar2Do s ⟨p, lo, n, none, []⟩).port p).bar2Out = some { data := s.memBytes lo n, ep := false, ur := false } := by
  have hkept := sectorsKept_touchSectors s 5 0 (sectorsOf lo n)
  have hep : (sectorsOf lo n).any (sectorBad (touchSectors s 5 0 (sectorsOf lo n) [])) = false := by
    refine List.any_eq_false.mpr (fun k hk => ?_)
    obtain ⟨i, hi, rfl⟩ := exists_byte_of_mem_sectorsOf hk
    rw [sectorBad_congr hkept, h i hi]
    exact Bool.false_ne_true
  have hdata : ((s.memBytes lo n).zipIdx lo).map
      (fun e => if sectorBad (touchSectors s 5 0 (sectorsOf lo n) []) (e.2 / 32) then (0xFF : Byte) else e.1) = s.memBytes lo n := by
    refine (List.map_congr_left ?_).trans (List.zipIdx_map_fst lo (s.memBytes lo n))
    rintro ⟨b, a⟩ he
    obtain ⟨hlo, hhi, -⟩ := List.mem_zipIdx he
    rw [State.memBytes, KMap.length_bytes] at hhi
    have hgood := h (a - lo) (by omega)
    rw [Nat.add_sub_cancel' hlo] at hgood
    exact if_neg (by rw [sectorBad_congr hkept, hgood]; exact Bool.false_ne_true)
  have hbytes : (touchSectors s 5 0 (sectorsOf lo n) []).memBytes lo n = s.memBytes lo n := by
    obtain ⟨-, -, hb, -, -⟩ := hkept
    rw [State.memBytes, State.memBytes, hb]
  dsimp only [bar2Do]
  rw [State.port_modPort, hep, hbytes, hdata]

/-! ### The obligation -/

theorem otherPort_ne (p : PortIx) : otherPort p ≠ p := by cases p <;> decide

/-- Settles O48: an APERTURE by its checks in order; a BAR2 write by what `memWrite` stores, a BAR2 read by what `touchSectors` leaves. -/
theorem apertureReaches : Obligations.ApertureReaches := by
  refine ⟨rfl, rfl, fun s h b p hr hs => ⟨exec_aperture_beyond hr, fun hal hend => ⟨fun hp hg => ?foreign, fun hm => ?sets⟩⟩,
    fun s p o ds errs ht hd hw => ?write, fun s p o n ht hd hw => ⟨fun errs hw => ?reads, fun hgood => ?clean⟩⟩
  case foreign => exact exec_aperture_foreign hr hs hal hend (memScope_outside hp hg)
  case sets =>
    refine ⟨_, exec_aperture_sets hr hs hal hend hm, ?_, ?_⟩
    · rw [moduleOutcome, basesKept_finishModule, State.port_modPort]
    · rw [moduleOutcome, basesKept_finishModule, State.port_modPort_ne _ _ _ _ (otherPort_ne p)]
      cases p <;> rfl
  case write =>
    refine ⟨_, exec_bar2Write ht hd hw, basesKept_memWrite s _ _ _ _ p, rfl, fun a ha => ?_, ?_⟩
    · refine (memWrite_changes ha).imp_left (fun ⟨b, hb⟩ => ?_)
      obtain ⟨k, hk, hdk⟩ := mem_enabledBytes.mp hb
      exact ⟨k, b, hk, hdk⟩
    · rintro rfl k b hk hf
      refine get_memWrite_of_mem (mem_enabledBytes.mpr ⟨k, rfl, hk⟩) (fun ⟨a, c⟩ hc hac => ?_) hf
      obtain ⟨j, hj, hcj⟩ := mem_enabledBytes.mp hc
      obtain rfl : j = k := Nat.add_left_cancel (hj.symm.trans hac)
      exact Option.some.inj (Option.some.inj (hcj.symm.trans hk))
  case reads => exact ⟨_, exec_bar2Read ht hd hw, mem_bar2Do_read s p _ n errs⟩
  case clean =>
    have hout := bar2Out_bar2Do_read (s := s) (lo := (s.port p).bar2Base.toNat + o) (n := n) p (fun i hi => by
      rw [Nat.add_assoc]
      exact hgood (o + i) (Nat.le_add_right o i) (Nat.add_lt_add_left hi o))
    exact ⟨_, exec_bar2Read ht hd hw, _, hout, rfl, rfl, KMap.length_bytes _ _ _, fun k hk => KMap.getElem?_bytes _ _ hk⟩

end Sys2Proof.Machine
end

section
/-!
PROOF. O47 (R447): KEY_ROTATE. It fails its form check, or is held while its fuse row burns; when the burn ends, `Boot.keyRotated` says
what the slots hold, and the records, the reply and the event that follow leave them alone.
-/

namespace Sys2Proof.Machine

/-! ### The owner key's slots -/

/-- No slot of the owner key changed, nor which is current. -/
def keySlotsKept (b c : Boot) : Prop := c.keySlot = b.keySlot ∧ c.keyHashes = b.keyHashes

theorem keySlotsKept_makeRoom (b : Boot) : keySlotsKept b b.makeRoom := by
  unfold Boot.makeRoom
  split
  · exact ⟨rfl, rfl⟩
  · exact ⟨rfl, rfl⟩

/-- A journal record is written beside the fuses (R442, R460). -/
theorem keySlotsKept_journalAdd (s : State) (type : Nat) (st : Status) (body : List Byte) :
    keySlotsKept s.boot (s.journalAdd type st body).1.boot :=
  keySlotsKept_makeRoom s.boot

/-- The fuses once a new owner key hash is in force: it stands in the slot after the current one, behind the earlier slots (R447). -/
def Boot.keyRotated (b : Boot) (hash : BitVec 256) : Boot :=
  { b with
    keySlot := b.keySlot + 1,
    keyHashes := (List.range b.keySlot).map (fun i => (b.keyHashes[i]?).getD 0) ++ [hash] }

theorem Boot.keyRotated_new (b : Boot) (hash : BitVec 256) : (b.keyRotated hash).keyHashes[b.keySlot]? = some hash := by
  simp [keyRotated]

theorem Boot.keyRotated_earlier (b : Boot) (hash : BitVec 256) {i : Nat} (hi : i < b.keySlot) :
    (b.keyRotated hash).keyHashes[i]?.getD 0 = b.keyHashes[i]?.getD 0 := by
  simp [keyRotated, List.getElem?_append_left, hi]

/-- The owner key hash in force is the one in the current slot (R447). -/
theorem ownerHash_of_slot {s : State} {n : Nat} {hash : BitVec 256} (hn : s.boot.keySlot = n + 1)
    (hh : s.boot.keyHashes[n]? = some hash) : s.ownerHash = hash := by
  simp [State.ownerHash, hn, hh]

/-! ### The burn begins and ends (R444) -/

theorem boot_of_onlyReplied {s t : State} (h : onlyReplied s t) : t.boot = s.boot := by
  obtain ⟨-, -, -, -, -, -, hboot, -⟩ := h
  exact hboot

/-- A fuse operation that begins is in progress, last of the lodge's commands, until its burn ends. -/
theorem fuseBegin_inProgress {c : Instr} {p : Hdr × CmdInfo} (s : State) (id setting left : Nat) (spend : Boot → Boot)
    (payload : List Byte) (hc : cmdOf c = some p) :
    ∃ o, (fuseBegin s id c setting left spend payload).lodge.ops = s.lodge.ops ++ [o] ∧ o.cmd = c ∧ o.wait = .action := by
  simp only [fuseBegin, holdModule, holdFor, hc]
  exact ⟨_, rfl, rfl, rfl⟩

/-- After a burn only its record touches the fuses' state: the reply and the event leave it as it is. -/
theorem boot_fuseEnd (s : State) (o : Op) (setting left : Nat) (apply : Boot → Boot) :
    (fuseEnd s o setting left apply).boot =
      (({ s with boot := apply s.boot } : State).journalAdd 0x000B .ok (leBytes 1 setting ++ [1] ++ leBytes 1 left)).1.boot := by
  unfold fuseEnd
  dsimp only
  rw [boot_of_onlyReplied (onlyReplied_moduleEvent _ _ _ _ _)]
  split
  · rw [boot_of_onlyReplied (onlyReplied_sendReply _ _ _ _), State.dropOp_boot]
  · rw [State.dropOp_boot]

/-- When a fuse operation's burn ends, the slots of the owner key are as its change leaves them. -/
theorem keySlotsKept_fuseEnd (s : State) (o : Op) (setting left : Nat) (apply : Boot → Boot) :
    keySlotsKept (apply s.boot) (fuseEnd s o setting left apply).boot := by
  rw [boot_fuseEnd]
  exact keySlotsKept_journalAdd { s with boot := apply s.boot } _ _ _

/-! ### KEY_ROTATE -/

section
variable {s : State} {h : Hdr} {k : List Byte}

/-- A hash of all zeros, or the current one, fails the form check. -/
theorem exec_keyRotate_refused (hr : moduleReady s (.keyRotate h k) = true)
    (hk : ofLe k = 0 ∨ BitVec.ofNat 256 (ofLe k) = s.ownerHash) :
    exec (.keyRotate h k) s = .next (moduleOutcome s s.taken (.keyRotate h k) .badParam []) :=
  exec_module_formFault rfl rfl hr (by rfl) (if_pos hk)

/-- Any other hash, while the row's budget lasts: the burn begins. -/
theorem exec_keyRotate_begins (hr : moduleReady s (.keyRotate h k) = true)
    (hk : ¬ (ofLe k = 0 ∨ BitVec.ofNat 256 (ofLe k) = s.ownerHash)) (hleft : s.boot.keyLeft ≠ 0) :
    exec (.keyRotate h k) s = .next (fuseBegin s.taken s.lodge.nextId (.keyRotate h k) 1 (s.boot.keyLeft - 1)
      (fun b => { b with keyLeft := s.boot.keyLeft - 1 }) (leBytes 1 (s.boot.keyLeft - 1))) := by
  rw [exec_module s rfl rfl, moduleNow, keyRotateNow, submit_module _ _ _ rfl hr (if_neg hk) rfl]
  exact congrArg _ (if_neg hleft)

/-- The end of its burn is the end of a fuse operation whose change is `Boot.keyRotated`. -/
theorem exec_keyRotate_ends {op : Nat} {o : Op} (data : ActionData)
    (hf : s.lodge.ops.find? (fun o => decide (o.id = op) && decide (o.wait = .action)) = some o) (hc : o.cmd = .keyRotate h k) :
    exec (.commandActionComplete op data) s =
      .next (fuseEnd s o 1 s.boot.keyLeft (fun b => b.keyRotated (BitVec.ofNat 256 (ofLe k)))) := by
  have hdone : moduleDone s o data = fuseDone s o := by simp only [moduleDone, hc]
  change execCommandActionComplete op data s = _
  simp only [execCommandActionComplete, hf, hdone, fuseDone, hc]
  rfl

end

/-- Settles O47: the form check, the start of the burn, and the slots as `Boot.keyRotated` leaves them at its end. -/
theorem keyRotation : Obligations.KeyRotation := by
  refine fun s h k => ⟨exec_keyRotate_refused, fun hr hz hne hleft => ?begins, fun op data o hf hc => ?ends⟩
  case begins => exact ⟨_, exec_keyRotate_begins hr (not_or.mpr ⟨hz, hne⟩) hleft.ne', fuseBegin_inProgress _ _ _ _ _ _ rfl⟩
  case ends =>
    obtain ⟨hslot, hhashes⟩ :=
      keySlotsKept_fuseEnd s o 1 s.boot.keyLeft (fun b => b.keyRotated (BitVec.ofNat 256 (ofLe k)))
    have hnew := (congrArg (·[s.boot.keySlot]?) hhashes).trans (s.boot.keyRotated_new _)
    refine ⟨_, exec_keyRotate_ends data hf hc, hslot, hnew, ownerHash_of_slot hslot hnew, fun i hi => ?_⟩
    rw [hhashes]
    exact s.boot.keyRotated_earlier _ hi

end Sys2Proof.Machine
end

section
/-!
PROOF. O50 to O54 (R33, R312, R411, R416): one step of the block, the invariant that it keeps, what reset leaves, and that before release
nothing a port or a peer sends arrives.
-/

namespace Sys2Proof.Machine

/-! ### One step -/

theorem step_cons (s : State) (c : Instr) (rest : List Instr) :
    step { s with pending := c :: rest } = exec c { s with pending := rest } := rfl

theorem step_of_pending {s : State} {c : Instr} {rest : List Instr} (hp : s.pending = c :: rest) :
    step s = exec c { s with pending := rest } := by
  rw [step, hp]

theorem step_idle {s : State} (hp : s.pending = []) : step s = .next (keepTick s) := by
  rw [step, hp]

/-- Settles O50: the two arms of `step`. -/
theorem stepRunsFront : Obligations.StepRunsFront := by
  unfold Obligations.StepRunsFront
  exact ⟨step_cons, fun _ hp => step_idle hp⟩

/-! ### The invariant -/

/-- POWER_ON keeps the rest of the invariant, and the address it samples is one. -/
theorem inv_exec_powerOn {s t : State} {straps : BitVec 13} (hs : Inv s) (he : exec (.powerOn straps) s = .next t) : Inv t := by
  cases hb : atStep s 0 with
  | false =>
    rw [exec_powerOn_idle straps hb] at he
    cases he
    exact hs
  | true =>
    rw [exec_powerOn straps hb] at he
    cases he
    have hstrap : Inv (s.strapped straps) := ⟨hs.1, addressOk_straps straps, hs.2.2⟩
    exact (inv_enterStep _ 1 hstrap.at).inv hstrap.2.1

theorem inv_exec {s t : State} {c : Instr} (hs : Inv s) (he : exec c s = .next t) : Inv t := by
  by_cases hc : ∃ straps, c = .powerOn straps
  · obtain ⟨straps, rfl⟩ := hc
    exact inv_exec_powerOn hs he
  · exact (invAt_exec hs.at (not_exists.mp hc) he).inv hs.2.1

/-- Settles O51: a keep tick keeps the invariant, and so does every row; POWER_ON alone changes the address. -/
theorem stepKeepsInvariant : Obligations.StepKeepsInvariant := by
  unfold Obligations.StepKeepsInvariant
  intro s t hs he
  cases hp : s.pending with
  | nil =>
    rw [step_idle hp] at he
    cases he
    exact (inv_keepTick s hs.at).inv hs.2.1
  | cons c rest =>
    rw [step_of_pending hp] at he
    exact inv_exec (s := { s with pending := rest }) hs he

/-- Settles O52: the weights, the address and the memory of reset, each by its value. -/
theorem invariantHoldsAtReset : Obligations.InvariantHoldsAtReset := by
  unfold Obligations.InvariantHoldsAtReset
  exact ⟨by decide, by decide, Memory.wf_reset⟩

/-! ### Reset -/

/-- A reed that nothing has touched. -/
theorem reed_reset (r : Nat) : State.reset.reed r = Reed.reset := rfl

/-- The registers of a host port that Tables 3-4 to 3-12 and 15-4 give a reset value. -/
theorem readReg_reset (p : PortIx) : ∀ e ∈ [(0x40000, 0), (0x40004, 0), (0x40008, 0), (0x40010, 0), (0x40014, 0), (0x40018, 6),
    (0x4001C, 0), (0x40020, 2 ^ 16), (0x40024, 0x100), (0x40028, 0xFF), (0x40034, 0)], readReg State.reset p e.1 = e.2 := by
  cases p <;> decide

theorem reedReg_reset_scalar (r : Nat) {n : Nat} (hn : n < 16) : reedReg State.reset r n = some 0 := by
  have hz : ∀ k < 16, (Reed.reset.regs.toList[k]?).elim 0 BitVec.toNat = 0 := by decide
  simp only [reedReg, if_pos hn, reed_reset, hz n hn]

/-- Settles O53: each clause by the field of `State.reset` that it reads. -/
theorem resetLeaves : Obligations.ResetLeaves := by
  unfold Obligations.ResetLeaves
  exact ⟨rfl, rfl, rfl, fun _ => rfl, fun _ => rfl, rfl, readReg_reset, fun r _ hn => reedReg_reset_scalar r hn, fun _ => rfl⟩

/-! ### Before release -/

theorem laneOpen_unreleased {s : State} {h : Hdr} (hr : s.boot.released = false) (hs : h.src ≠ .sideband) : laneOpen s h = false := by
  unfold laneOpen
  split
  · contradiction
  · simp [hr]
  · exact hr

/-- A command whose lane is closed is not taken (R411, R416). -/
theorem submit_closed {c : Instr} {h : Hdr} {i : CmdInfo} {s : State} (now : Nat → State → State) (hc : cmdOf c = some (h, i))
    (hl : laneOpen s h = false) : submit c now s = s := by
  simp [submit, hc, hl]

theorem submitOr_closed {c : Instr} {h : Hdr} {i : CmdInfo} {d : UnitDef} {s : State} (held : State → Bool)
    (hc : cmdOf c = some (h, i)) (hl : laneOpen s h = false) : submitOr held c d s = s := by
  simp [submitOr, hc, hl, submit_closed _ hc hl]

theorem exec_closed {c : Instr} {h : Hdr} {i : CmdInfo} {s : State} (hc : cmdOf c = some (h, i)) (hl : laneOpen s h = false) :
    exec c s = .next s := by
  cases hd : unitDefOf c with
  | none => rw [exec_module s hc hd, submit_closed _ hc hl]
  | some d =>
    obtain he | ⟨held, he⟩ := exec_unit s hd
    · rw [he, submit_closed _ hc hl]
    · rw [he, submitOr_closed held hc hl]

/-- Settles O54: no lane but the sideband's is open before release, and the window and the fabric look at the same bit. -/
theorem beforeReleaseNothingArrives : Obligations.BeforeReleaseNothingArrives := by
  unfold Obligations.BeforeReleaseNothingArrives
  intro s hr
  refine ⟨fun c h i hc hs => exec_closed hc (laneOpen_unreleased hr hs), fun p o d => ?_, fun p => ?_, fun a f b => ?_, fun p => ?_⟩
  · simp [exec, execWindowWrite, hr]
  · simp [exec, execPacketTaken, mayTake, hr]
  · simp [exec, execPeerCommand, hr]
  · simp [readReg, pwfree, hr]

end Sys2Proof.Machine
end

section
/-!
PROOF. O55, O60 (R42, R74, R86, R87): what admission refuses changes nothing but the command's number and its reply.
-/

namespace Sys2Proof.Machine

/-- Settles O55: admission answers before any sheaf is reached, and a reply changes what `onlyReplied` lets it. -/
theorem refusedCommandsChangeNothing : Obligations.RefusedCommandsChangeNothing := by
  unfold Obligations.RefusedCommandsChangeNothing
  intro s c h i d r hc hd hu hs hr
  exact ⟨_, exec_unit_refused hc hu hs hd hr, rfl, onlyReplied_unitRefusal s c h d r⟩

/-- A command in job class from a host port lacks every class above its own (R74). -/
theorem privCheck_job {s : State} {h : Hdr} {p : PortIx} {n : Nat} (b : Bool) (hs : h.src = .port p) (hp : h.priv = 0) (hn : 1 ≤ n) :
    privCheck s h n b = some .noPrivilege := by
  simp [privCheck, hs, hp, Nat.pos_iff_ne_zero.mp hn]

/-- The class of a module command comes after its form checks (R86, R87). -/
theorem admitModule_job {s : State} {c : Instr} {h : Hdr} {i : CmdInfo} {p : PortIx} (form : State → Hdr → Option Status)
    (foreign : State → Hdr → Bool) (hs : h.src = .port p) (hp : h.priv = 0) (hi : 1 ≤ i.minClass) (hb : headerBad h i = false)
    (hw : c.wf = true) (hpath : h.path = 0) (hm : h.mask = none) :
    admitModule s c h i form foreign = some ((form s h).getD .noPrivilege) := by
  have hpriv : privCheck s h (classNeeded h i) (isTakeover c) = some .noPrivilege := privCheck_job _ hs hp (by simpa [classNeeded, hs] using hi)
  simp only [admitModule, hb, hw, hpath, hm, hpriv]
  cases form s h <;> simp

/-- The form checks of ECC_READ, POWER_CAP, REPAIR_COMMIT and JOURNAL_READ pass these parameters. -/
theorem moduleNow_wellFormed {c : Instr} {h : Hdr}
    (hc : c ∈ [.eccRead h 0, .powerCap h 400, .repairCommit h] ∨ ∃ n, c = .journalRead h n) (s : State) :
    ∃ form foreign body, moduleNow c = runModule c form foreign body ∧ form s h = none := by
  simp only [List.mem_cons, List.not_mem_nil, or_false] at hc
  obtain (rfl | rfl | rfl) | ⟨n, rfl⟩ := hc <;> exact ⟨_, _, _, by rfl, by rfl⟩

/-- Settles O60: the form check is the only one before the class, and each kind of command it concerns has one that passes. -/
theorem jobClassGetsNoPrivilege : Obligations.JobClassGetsNoPrivilege := by
  unfold Obligations.JobClassGetsNoPrivilege
  intro s c h i p hc hd hs hp hi hu hb hw hpath hmask
  have hside : h.src ≠ .sideband := by simp [hs]
  have hadmit := fun form foreign => admitModule_job (s := s.taken) form foreign hs hp hi hb hw hpath hmask
  by_cases hl : c ∈ [.eccRead h 0, .powerCap h 400, .repairCommit h] ∨ ∃ n, c = .journalRead h n
  · obtain ⟨form, foreign, body, hm, hf⟩ := moduleNow_wellFormed hl s.taken
    refine ⟨_, .noPrivilege, exec_module_refused hc hu hside hd hm ?_, rfl, onlyReplied_moduleRefusal s c _, .inl rfl, fun _ => rfl⟩
    simpa [hf] using hadmit form foreign
  · obtain ⟨form, foreign, body, hm, hform⟩ := moduleNow_checked hc hd
    refine ⟨_, _, exec_module_refused hc hu hside hd hm (hadmit form foreign), rfl, onlyReplied_moduleRefusal s c _, ?_,
      fun hl' => absurd hl' hl⟩
    cases hf : form s.taken h with
    | none => exact .inl rfl
    | some st => exact .inr (hform s.taken h st hf)

end Sys2Proof.Machine
end

section
/-!
PROOF. O56 (R37, R39, R40): the reeds that a path and a member mask select, digit by digit.
-/

namespace Sys2Proof.Machine

/-- The digit of a reed number at a depth from 1 to 5. -/
def reedDigit (q k : Nat) : Nat := q / 16 ^ (5 - k) % 16

theorem digitsAt_lt {p : BitVec 24} {m : Option W64} {k d : Nat} (hd : d ∈ digitsAt p m k) : d < 16 := by
  unfold digitsAt at hd
  split at hd
  · rw [List.mem_singleton.mp hd]
    exact Nat.mod_lt _ (by decide)
  · split at hd
    · split at hd
      · exact List.mem_range.mp (List.mem_of_mem_filter hd)
      · exact List.mem_range.mp hd
    · exact List.mem_range.mp hd

theorem reedDigit_lt (q k : Nat) : reedDigit q k < 16 := Nat.mod_lt _ (by decide)

/-- A pair of digits is in the product of two digit lists when each is in its own. -/
theorem mem_cross {xs ys : List Nat} (hy : ∀ b ∈ ys, b < 16) (n : Nat) : n ∈ cross xs ys ↔ n / 16 ∈ xs ∧ n % 16 ∈ ys := by
  simp only [cross, List.mem_flatMap, List.mem_map]
  constructor
  · rintro ⟨a, ha, b, hb, rfl⟩
    have := hy b hb
    rw [show (16 * a + b) / 16 = a by omega, show (16 * a + b) % 16 = b by omega]
    exact ⟨ha, hb⟩
  · rintro ⟨ha, hb⟩
    exact ⟨_, ha, _, hb, Nat.div_add_mod n 16⟩

/-- A reed is selected when each of its five digits is. -/
theorem mem_selOf (p : BitVec 24) (m : Option W64) {q : Nat} (hq : q < 2 ^ 20) :
    (q / 4096 ∈ (selOf p m).sheaves ∧ q % 4096 ∈ (selOf p m).locals) ↔ ∀ k, 1 ≤ k → k ≤ 5 → reedDigit q k ∈ digitsAt p m k := by
  have hall : (∀ k, 1 ≤ k → k ≤ 5 → reedDigit q k ∈ digitsAt p m k) ↔ reedDigit q 1 ∈ digitsAt p m 1 ∧ reedDigit q 2 ∈ digitsAt p m 2 ∧
      reedDigit q 3 ∈ digitsAt p m 3 ∧ reedDigit q 4 ∈ digitsAt p m 4 ∧ reedDigit q 5 ∈ digitsAt p m 5 := by
    refine ⟨fun h => ⟨h 1 (by decide) (by decide), h 2 (by decide) (by decide), h 3 (by decide) (by decide), h 4 (by decide) (by decide),
      h 5 (by decide) (by decide)⟩, fun ⟨h1, h2, h3, h4, h5⟩ k hlo hhi => ?_⟩
    interval_cases k <;> assumption
  rw [hall]
  simp only [selOf, mem_cross (fun _ h => digitsAt_lt h), reedDigit, Nat.reduceSub, Nat.reducePow, Nat.pow_zero, Nat.div_one]
  rw [show q / 4096 / 16 = q / 65536 % 16 by omega, show q % 4096 / 16 / 16 = q / 256 % 16 by omega,
    show q % 4096 / 16 % 16 = q / 16 % 16 by omega, show q % 4096 % 16 = q % 16 by omega]
  tauto

theorem bitOf_iff (n i : Nat) : bitOf n i = true ↔ n / 2 ^ i % 2 = 1 := by
  simp [bitOf]

theorem maskDepth_eq (p : BitVec 24) (v : W64) :
    maskDepth p v = if v.toNat / 2 ^ 16 % 8 = 0 then p.toNat / 2 ^ 21 + 1 else v.toNat / 2 ^ 16 % 8 := by
  rfl

/-- One digit: the path's, down to its depth; below it the mask's, at the depth where the mask filters (R39, R40). -/
theorem mem_digitsAt {p : BitVec 24} {m : Option W64} (hm : ∀ v, m = some v → pathDepth p < maskDepth p v) {k d : Nat} (hd : d < 16) :
    d ∈ digitsAt p m k ↔ (k ≤ pathDepth p → d = pathDigit p k) ∧ (∀ v, m = some v → k = maskDepth p v → v.toNat / 2 ^ d % 2 = 1) := by
  unfold digitsAt
  split
  next hk =>
    have hne : ∀ v, m = some v → k ≠ maskDepth p v := fun v hv => by have := hm v hv; omega
    simp only [List.mem_singleton, hk, true_imp_iff]
    exact ⟨fun h => ⟨h, fun v hv he => absurd he (hne v hv)⟩, And.left⟩
  next hk =>
    cases m with
    | none => simp [hk, hd]
    | some v =>
      by_cases he : maskDepth p v = k
      · simp [hk, hd, he, bitOf_iff]
      · simp [hk, hd, he, Ne.symm he]

/-- Settles O56: the selection is the product of five digit lists, and each list is what R39 and R40 say. -/
theorem selectionFollowsPath : Obligations.SelectionFollowsPath := by
  unfold Obligations.SelectionFollowsPath
  intro p m q hq _ hm
  rw [mem_selOf p m hq]
  refine forall₃_congr fun k _ _ => ?_
  rw [mem_digitsAt (fun v hv => (hm v hv).1) (reedDigit_lt q k)]
  simp only [maskDepth_eq, pathDepth, pathDigit, reedDigit]

end Sys2Proof.Machine
end

section
/-!
PROOF. O59 (R57, R84, R85): a field of a packet is read back from the bytes that spell it, wherever the fields before it end.
-/

namespace Sys2Proof.Machine

/-! ### Little-endian fields -/

@[simp] theorem length_leBytes (n v : Nat) : (leBytes n v).length = n := by
  induction n generalizing v with
  | zero => rfl
  | succ n ih => simp [leBytes, ih]

theorem ofLe_leBytes (n v : Nat) : ofLe (leBytes n v) = v % 256 ^ n := by
  induction n generalizing v with
  | zero => simp [leBytes, ofLe, Nat.mod_one]
  | succ n ih =>
    simp only [leBytes, ofLe, ih, BitVec.toNat_ofNat, Nat.reducePow]
    rw [Nat.pow_succ', Nat.mod_mul]

/-- A field that starts behind some bytes does not see them. -/
theorem leAt_append_right {xs : List Byte} {off : Nat} (ys : List Byte) (n : Nat) (h : xs.length ≤ off) :
    leAt (xs ++ ys) off n = leAt ys (off - xs.length) n := by
  rw [leAt, leAt, List.drop_append, List.drop_eq_nil_of_le h, List.nil_append]

theorem leAt_leBytes_append {n v : Nat} (ys : List Byte) (hv : v < 256 ^ n) : leAt (leBytes n v ++ ys) 0 n = v := by
  rw [leAt, List.drop_zero, List.take_left' (length_leBytes n v), ofLe_leBytes, Nat.mod_eq_of_lt hv]

theorem toNat_lt_pow {w n : Nat} (v : BitVec w) (hw : w = 8 * n) : v.toNat < 256 ^ n := by
  calc v.toNat < 2 ^ w := v.isLt
    _ = 256 ^ n := by rw [hw, Nat.pow_mul]

/-- A field of whole bytes reads back. -/
theorem leAt_field_append {w n : Nat} (v : BitVec w) (ys : List Byte) (hw : w = 8 * n) : leAt (leBytes n v.toNat ++ ys) 0 n = v.toNat :=
  leAt_leBytes_append ys (toNat_lt_pow v hw)

theorem leAt_field {w n : Nat} (v : BitVec w) (hw : w = 8 * n) : leAt (leBytes n v.toNat) 0 n = v.toNat := by
  have hf := leAt_field_append v [] hw
  rwa [List.append_nil] at hf

theorem zeroIn_append_right {xs : List Byte} {lo : Nat} (ys : List Byte) (hi : Nat) (h : xs.length ≤ lo) :
    zeroIn (xs ++ ys) lo hi = zeroIn ys (lo - xs.length) (hi - xs.length) := by
  rw [zeroIn, zeroIn, List.drop_append, List.drop_eq_nil_of_le h, List.nil_append, Nat.sub_sub_sub_cancel_right h]

theorem mem_leBytes_zero {n : Nat} {b : Byte} (hb : b ∈ leBytes n 0) : b = 0 := by
  induction n with
  | zero => simp [leBytes] at hb
  | succ n ih =>
    simp only [leBytes, Nat.zero_div, List.mem_cons] at hb
    exact hb.elim id ih

theorem zeroIn_leBytes_zero (n lo hi : Nat) : zeroIn (leBytes n 0) lo hi = true := by
  simp only [zeroIn, List.all_eq_true, decide_eq_true_eq]
  exact fun b hb => mem_leBytes_zero (List.mem_of_mem_drop (List.mem_of_mem_take hb))

theorem zeroIn_leBytes_zero_append {n hi : Nat} (ys : List Byte) (h : hi ≤ n) : zeroIn (leBytes n 0 ++ ys) 0 hi = true := by
  have ht : (leBytes n 0 ++ ys).take hi = (leBytes n 0).take hi := List.take_append_of_le_length (by simpa using h)
  simp only [zeroIn, List.drop_zero, Nat.sub_zero, ht, List.all_eq_true, decide_eq_true_eq]
  exact fun b hb => mem_leBytes_zero (List.mem_of_mem_take hb)

theorem zeroIn_empty (p : List Byte) (n : Nat) : zeroIn p n n = true := by simp [zeroIn]

/-! ### The header -/

theorem rawHdr_spelled {priv opcode words flags : Nat} (path : BitVec 24) (allot : W16) (tag : W32) (rest : List Byte)
    (hp : priv < 16) (ho : opcode < 2 ^ 16) (hw : words < 2 ^ 16) (hf : flags < 2 ^ 16) :
    rawHdr (leBytes 1 (1 + 16 * priv) ++ leBytes 2 opcode ++ leBytes 2 words ++ leBytes 3 path.toNat ++ leBytes 2 allot.toNat ++
      leBytes 2 flags ++ leBytes 4 tag.toNat ++ rest) =
      { version := 1, priv := priv, opcode := opcode, words := words, path := path, allot := allot, flags := flags, tag := tag } := by
  have hpriv : 1 + 16 * priv < 256 ^ 1 := by omega
  have hmod : (1 + 16 * priv) % 16 = 1 := by omega
  have hdiv : (1 + 16 * priv) / 16 = priv := by omega
  simp [rawHdr, List.append_assoc, leAt_append_right, leAt_field_append, leAt_leBytes_append _ hpriv,
    leAt_leBytes_append (n := 2) _ ho, leAt_leBytes_append (n := 2) _ hw, leAt_leBytes_append (n := 2) _ hf, hmod, hdiv]

/-! ### Parameters -/

/-- A byte is a field of one byte. -/
theorem cons_eq_field (b : Byte) (l : List Byte) : b :: l = leBytes 1 b.toNat ++ l := by simp [leBytes]

theorem pBytes_all {l : List Byte} {n : Nat} (h : l.length = n) : pBytes l 0 n = l := by
  rw [pBytes, List.drop_zero, List.take_of_length_le (Nat.le_of_eq h)]

/-- Settles O59: the header's fields, and the parameters of each command, by where their bytes stand. -/
theorem packetsReadBack : Obligations.PacketsReadBack := by
  unfold Obligations.PacketsReadBack
  refine ⟨fun priv opcode words flags path allot tag rest hp ho hw hf => rawHdr_spelled path allot tag rest hp ho hw hf, ?_⟩
  intro h a b x y z u v w e f g k
  have hstart : leBytes 8 2 = leBytes 1 2 ++ leBytes 7 0 := by decide
  have hone : leAt (leBytes 1 2 ++ (leBytes 7 0 ++ (leBytes 4 x.toNat ++ leBytes 4 y.toNat))) 0 1 = 2 := leAt_leBytes_append _ (by decide)
  have hkey : pBytes k.toList 0 32 = k.toList := pBytes_all (by simp)
  simp only [List.forall_mem_cons, hstart, cons_eq_field e, cons_eq_field f, cons_eq_field g []]
  simp [parseCmd, parseLow, parseMid, parseHigh, oneByte, pB, pH, pW, pD, pList, ceilDiv, zeroFrom, List.range_succ, List.append_assoc,
    leAt_append_right, leAt_field_append, leAt_field, hone, hkey, zeroIn_append_right, zeroIn_leBytes_zero, zeroIn_leBytes_zero_append,
    zeroIn_empty]

end Sys2Proof.Machine
end

section
/-!
PROOF. O1 to O3, O7 (R121, R123, R129 to R131, R137, R140 to R146): the rows of the stream that no engine carries out, each by what its
`issue` comes to, and what a fault of the stream leaves.
-/

namespace Sys2Proof.Machine

section
variable {s : State} {r : ReedIx} {w : BitVec 256}

/-! ### Rows without a flaw -/

theorem exec_nopInstruction (hi : issues s r w = true) (ho : insOpc w = 0x00) (hf : nopFlaw w (s.reed r) = none) :
    exec (.nopInstruction r) s = .next (scalarOutcome s r (s.reed r)) :=
  congrArg Host.Outcome.next (issue_scalar hi ho (by decide) hf)

theorem exec_sst {o : Operand} (hi : issues s r w = true) (ho : insOpc w = 0x04) (hw : wordOperand w (s.reed r) 0x0F true = .ok o)
    (hq : waitsFor (s.reed r).allQueued [] [o.extent] = false) :
    exec (.sst r) s = .next (scalarOutcome s r { s.reed r with
      sp := KMap.write (s.reed r).sp (o.base + 4 * (insByte w 2 % 4)) (leBytes 4 ((s.reed r).s (insSA w))) }) := by
  refine congrArg Host.Outcome.next ((issue_issues _ hi ho (by decide)).trans ?_)
  simp [wordIssue, hw, hq, scalarOutcome]

theorem exec_movw (hi : issues s r w = true) (ho : insOpc w = 0x06) (hf : movwFlaw w (s.reed r) = none) :
    exec (.movw r) s = .next (scalarOutcome s r ((s.reed r).writeReg (insByte w 3) ((s.reed r).s (insSA w)))) :=
  congrArg Host.Outcome.next (issue_scalar hi ho (by decide) hf)

theorem exec_waitq (hi : issues s r w = true) (ho : insOpc w = 0x0A) (hf : waitqFlaw w (s.reed r) = none) :
    exec (.waitq r) s = .next (if queuesAtMost (s.reed r) (insByte w 3) (insByte w 2) then scalarOutcome s r (s.reed r)
      else s.setReed r { s.reed r with hold := .waitq (BitVec.ofNat 5 (insByte w 3)) (insByte w 2) }) := by
  refine congrArg Host.Outcome.next ((issue_issues _ hi ho (by decide)).trans ?_)
  simp [hf, scalarOutcome]

/-- Settles O1: each row is `issue` of its scalar effect, or of its word operand. -/
theorem scalarInstructionsComplete : Obligations.ScalarInstructionsComplete := by
  unfold Obligations.ScalarInstructionsComplete
  intro s r w hi
  refine ⟨exec_nopInstruction hi, exec_seti hi, exec_alu hi, fun ho _ => exec_sld hi ho, fun ho _ => exec_sst hi ho,
    fun ho hf v hv => ?movr, exec_movw hi⟩
  case movr =>
    rw [exec_movr hi ho hf, hv]
    rfl

/-! ### LOOP, BR, WAITQ and END -/

/-- Settles O2: LOOP by its count, BR by its condition, WAITQ by its queues. -/
theorem controlInstructionsComplete : Obligations.ControlInstructionsComplete := by
  unfold Obligations.ControlInstructionsComplete
  intro s r w hi
  refine ⟨fun ho hf hz => ?skip, fun ho hf hn => ?enter, fun ho hf ht => ?taken, fun ho hf ht => ?untaken, fun ho hf hq => ?goesOn,
    fun ho hf hq => ?holds, exec_endInstruction hi⟩
  case skip => rw [exec_loop hi ho hf, enterLoop_zero hz]
  case enter => rw [exec_loop hi ho hf, enterLoop_pos hn]; rfl
  case taken => exact (exec_br hi ho hf).trans (congrArg Host.Outcome.next (if_pos ht))
  case untaken => exact (exec_br hi ho hf).trans (congrArg Host.Outcome.next (if_neg (Bool.eq_false_iff.mp ht)))
  case goesOn => rw [exec_waitq hi ho hf, if_pos hq]
  case holds => rw [exec_waitq hi ho hf, if_neg (Bool.eq_false_iff.mp hq)]

/-! ### The steps that are not an issue -/

theorem exec_waitqRelease {m : BitVec 5} {d : Nat} (hh : (s.reed r).hold = .waitq m d) (hst : (s.reed r).st = .running)
    (hc : clockRuns s (r / 4096) = true) (hq : queuesAtMost (s.reed r) m.toNat d = true) :
    exec (.waitqRelease r) s = .next (scalarOutcome s r (s.reed r)) := by
  simp [exec, execWaitqRelease, hh, hst, hc, hq, scalarOutcome]

theorem exec_trapctlClear (hp : (s.sheaf (r / 4096)).power = .awake) :
    exec (.trapctlClear r) s = .next (s.modReed r Reed.clearTraps) :=
  congrArg Host.Outcome.next (if_pos hp)

/-- Settles O3: each of the four steps under the condition of its row. -/
theorem streamEventsComplete : Obligations.StreamEventsComplete := by
  unfold Obligations.StreamEventsComplete
  intro s r
  exact ⟨fun _ _ => exec_waitqRelease, exec_programEnd_done, exec_posIndexWrite, exec_trapctlClear⟩

/-! ### Faults -/

theorem exec_loop_flaw {f : Flaw} (hi : issues s r w = true) (ho : insOpc w = 0x08) (hf : loopFlaw w (s.reed r) = some f) :
    exec (.loop r) s = .next (streamFault s r f (s.reed r).index) := by
  refine congrArg Host.Outcome.next ((issue_issues _ hi ho (by decide)).trans ?_)
  simp [hf]

theorem exec_br_flaw {f : Flaw} (hi : issues s r w = true) (ho : insOpc w = 0x09) (hf : brFlaw w (s.reed r) = some f) :
    exec (.br r) s = .next (streamFault s r f (s.reed r).index) := by
  refine congrArg Host.Outcome.next ((issue_issues _ hi ho (by decide)).trans ?_)
  simp [hf]

theorem exec_waitq_flaw {f : Flaw} (hi : issues s r w = true) (ho : insOpc w = 0x0A) (hf : waitqFlaw w (s.reed r) = some f) :
    exec (.waitq r) s = .next (streamFault s r f (s.reed r).index) := by
  refine congrArg Host.Outcome.next ((issue_issues _ hi ho (by decide)).trans ?_)
  simp [hf]

theorem exec_endInstruction_flaw {f : Flaw} (hi : issues s r w = true) (ho : insOpc w = 0x1F) (hf : nopFlaw w (s.reed r) = some f) :
    exec (.endInstruction r) s = .next (streamFault s r f (s.reed r).index) := by
  refine congrArg Host.Outcome.next ((issue_issues _ hi ho (by decide)).trans ?_)
  simp [hf]

/-- An undefined OPC faults the reed, whatever row looks at it (R129). -/
theorem issue_illegalOpcode {opc : Nat} {body : State → Reed → BitVec 256 → State} (hi : issues s r w = true)
    (ho : ¬ opcodes.contains (insOpc w)) : issue s r opc body = streamFault s r (.illegalOpcode, 0) (s.reed r).index := by
  obtain ⟨hst, hend, hclk, hret, hidx, hpg, hw⟩ := (issues_iff s r w).mp hi
  rw [Bool.not_eq_true] at ho
  simp only [issue, hst, hend, hclk, hret, hpg, hw, ho]
  simp [Nat.not_le.mpr hidx]

/-- `FAULTINFO` after a fault: the first cause since the last load or reset (R123). -/
def Reed.firstFault (x : Reed) (f : Flaw) (i : Nat) : W32 :=
  if x.faultInfo.toNat % 256 = 0 then BitVec.ofNat 32 (f.1.code + 2 ^ 8 * (i % 64) + 2 ^ 16 * f.2) else x.faultInfo

/-- The reed that a fault of the stream leaves (R123, R140). -/
theorem reed_streamFault (s : State) (r : Nat) (f : Flaw) (i : Nat) : (streamFault s r f i).reed r =
    { (s.reed r).dropQueued with st := .faulted, hold := .none, faultInfo := (s.reed r).firstFault f i } := by
  rw [streamFault, State.reed_flushWatches, reed_enterFaulted, State.reed_modReed, Reed.firstFault]
  split <;> rfl

/-- Settles O7: each row's flaw reaches `streamFault`, whose reed is `reed_streamFault`. -/
theorem streamFaults : Obligations.StreamFaults := by
  unfold Obligations.StreamFaults
  intro s r
  refine ⟨fun w hi => ⟨?_, fun ho => congrArg Host.Outcome.next (issue_illegalOpcode hi ho)⟩, fun f i y hy => ?_⟩
  · simp only [List.forall_mem_cons]
    exact ⟨fun f ho hf => congrArg Host.Outcome.next (issue_scalar_flaw hi ho (by decide) hf),
      fun f ho hf => congrArg Host.Outcome.next (issue_scalar_flaw hi ho (by decide) hf),
      fun f ho hf => congrArg Host.Outcome.next (issue_scalar_flaw hi ho (by decide) hf),
      fun f ho hf => congrArg Host.Outcome.next (issue_scalar_flaw hi ho (by decide) hf),
      fun f ho hf => congrArg Host.Outcome.next (issue_scalar_flaw hi ho (by decide) hf),
      fun f => exec_loop_flaw hi, fun f => exec_br_flaw hi, fun f => exec_waitq_flaw hi, fun f => exec_endInstruction_flaw hi, by simp⟩
  · rw [reed_streamFault] at hy
    subst hy
    exact ⟨rfl, rfl, rfl, rfl, rfl⟩

end

end Sys2Proof.Machine
end

section
/-!
PROOF. O4 to O6 (R132, R134, R136, R148, R257, R258): engine instructions enter their queue, MMA, MMAF and LD are seen by the
weathervane, and a held issue is an issue of the same row.
-/

namespace Sys2Proof.Machine

section
variable {s : State} {r : ReedIx} {w : BitVec 256}

/-! ### Into a queue -/

/-- Reed `x` once an engine instruction has entered its queue (R132, R215). -/
def Reed.queued (x : Reed) (e : Engine) (q : QEntry) (passes : Nat) : Reed :=
  (({ x with ord := x.ord + BitVec.ofNat 24 passes, seqNo := x.seqNo + 1 } : Reed).setQueue e (x.queue e ++ [q])).advance

theorem Reed.queue_ord (x : Reed) (e : Engine) (o : BitVec 24) : ({ x with ord := o } : Reed).queue e = x.queue e := by
  cases e <;> rfl

theorem Reed.depth_ord (x : Reed) (k : Nat) (o : BitVec 24) : ({ x with ord := o } : Reed).depth k = x.depth k := rfl

section
variable {opc : Nat} {e : Engine} {chk : IssueCheck} {passes : BitVec 256 → Reed → W32 → Nat} {ext : List (Nat × Nat) × List (Nat × Nat)}

theorem engineIssue_queued (hi : issues s r w = true) (ho : insOpc w = opc) (hk : opcodes.contains opc = true)
    (hc : chk s r w (s.reed r) = .ok ext) (hd : (s.reed r).depth (engineNum e) < 8) :
    engineIssue opc e chk passes s r = s.setReed r ((s.reed r).queued e (engineEntry s r (s.reed r) w ext)
      (passes w (s.reed r) (s.sheaf (r / 4096)).numctl)) := by
  have hq : (engineEntry s r (s.reed r) w ext).numctl = (s.sheaf (r / 4096)).numctl := rfl
  rw [engineIssue, issue_issues _ hi ho hk]
  simp only [hc, enqueue, Reed.depth_ord, Reed.queue_ord, if_neg (Nat.not_le.mpr hd), hq, Reed.queued]

theorem engineIssue_full (hi : issues s r w = true) (ho : insOpc w = opc) (hk : opcodes.contains opc = true)
    (hc : chk s r w (s.reed r) = .ok ext) (hd : 8 ≤ (s.reed r).depth (engineNum e)) :
    engineIssue opc e chk passes s r = s.setReed r { s.reed r with hold := .fullQueue } := by
  rw [engineIssue, issue_issues _ hi ho hk]
  simp only [hc, if_pos hd]

/-- The two outcomes of a row that is an `engineIssue`. -/
theorem exec_engineIssue {c : Instr} (hrow : exec c s = .next (engineIssue opc e chk passes s r)) (hi : issues s r w = true)
    (hk : opcodes.contains opc = true) (ho : insOpc w = opc) (hc : chk s r w (s.reed r) = .ok ext) :
    ((s.reed r).depth (engineNum e) < 8 → exec c s = .next (s.setReed r ((s.reed r).queued e (engineEntry s r (s.reed r) w ext)
      (passes w (s.reed r) (s.sheaf (r / 4096)).numctl)))) ∧
    (8 ≤ (s.reed r).depth (engineNum e) → exec c s = .next (s.setReed r { s.reed r with hold := .fullQueue })) :=
  ⟨fun hd => hrow.trans (congrArg Host.Outcome.next (engineIssue_queued hi ho hk hc hd)),
    fun hd => hrow.trans (congrArg Host.Outcome.next (engineIssue_full hi ho hk hc hd))⟩

end

/-- Settles O5: each of the rows is an `engineIssue`. -/
theorem engineInstructionsQueue : Obligations.EngineInstructionsQueue := by
  unfold Obligations.EngineInstructionsQueue
  intro s r w ext hi p hp ho hc
  have hrow : exec p.2.1 s = .next (engineIssue p.1 p.2.2.1 p.2.2.2.1 p.2.2.2.2 s r) ∧ opcodes.contains p.1 = true := by
    simp only [List.mem_cons, List.not_mem_nil, or_false] at hp
    obtain rfl | rfl | rfl | rfl | rfl | rfl | rfl | rfl | rfl | rfl | rfl | rfl | rfl | rfl | rfl := hp <;> exact ⟨rfl, rfl⟩
  exact exec_engineIssue hrow.1 hi hrow.2 ho hc

/-! ### MMA, MMAF and LD -/

/-- An MMA that passes its checks names A and B first among its sources (R161). -/
theorem mmaCheck_srcs {x : Reed} {ext : List (Nat × Nat) × List (Nat × Nat)} (hc : mmaCheck s r w x = .ok ext) :
    ∃ a b l, ext.1 = a :: b :: l := by
  unfold mmaCheck at hc
  cases ha : checkOperand (insF w 1) x.regs 1 false with
  | error f => simp [ha, bind, Except.bind] at hc
  | ok a =>
    cases hb : checkOperand (insF w 2) x.regs 2 false with
    | error f => simp [ha, hb, bind, Except.bind] at hc
    | ok b =>
      simp only [ha, hb, bind, Except.bind] at hc
      split at hc
      · contradiction
      · split at hc
        · contradiction
        · split at hc <;> (cases hc; exact ⟨_, _, _, rfl⟩)

theorem Reed.queued_qmx (x : Reed) (q : QEntry) (n : Nat) : (x.queued .mx q n).qmx = x.qmx ++ [q] := rfl

theorem Reed.queued_qld (x : Reed) (q : QEntry) (n : Nat) : (x.queued .ld q n).qld = x.qld ++ [q] := rfl

/-- MMA and MMAF: into MX's queue, and under the weathervane's eye (R257). -/
theorem mmaIssue_queued {opc : Nat} {ext : List (Nat × Nat) × List (Nat × Nat)} (hi : issues s r w = true) (ho : insOpc w = opc)
    (hk : opcodes.contains opc = true) (hc : mmaCheck s r w (s.reed r) = .ok ext) (hd : (s.reed r).depth 0 < 8) :
    mmaIssue opc s r = (s.setReed r ((s.reed r).queued .mx (engineEntry s r (s.reed r) w ext)
      (mmaPasses w (s.reed r) (s.sheaf (r / 4096)).numctl))).modSheaf (r / 4096) (fun sh =>
        { sh with wv := sh.wv.onMma r (engineEntry s r (s.reed r) w ext) ((ext.1[0]?).getD (0, 0)) ((ext.1[1]?).getD (0, 0)) }) := by
  obtain ⟨a, b, l, hsrc⟩ := mmaCheck_srcs hc
  have hs : (engineEntry s r (s.reed r) w ext).srcs = a :: b :: l := hsrc
  rw [mmaIssue, engineIssue_queued (e := .mx) hi ho hk hc hd]
  simp [Reed.queued_qmx, hs, hsrc]

/-- LD: into LD's queue, and offered to the captures where it narrows (R258). -/
theorem issueLd_queued {ext : List (Nat × Nat) × List (Nat × Nat)} (hi : issues s r w = true) (ho : insOpc w = 0x80)
    (hc : lsCheck s r w (s.reed r) = .ok ext) (hd : (s.reed r).depth 2 < 8) {t : State}
    (ht : t = s.setReed r ((s.reed r).queued .ld (engineEntry s r (s.reed r) w ext)
      (lsPasses w (s.reed r) (s.sheaf (r / 4096)).numctl))) :
    issueLd s r = if narrows (lsSrc w) (lsDst w) then
      t.modSheaf (r / 4096) (fun sh => { sh with wv := sh.wv.capture (lsCapture r (engineEntry s r (s.reed r) w ext)) }) else t := by
  have hraw : (engineEntry s r (s.reed r) w ext).raw = w := rfl
  rw [issueLd, engineIssue_queued (e := .ld) hi ho (by decide) hc hd, ← ht]
  have hq : (t.reed r).qld = (s.reed r).qld ++ [engineEntry s r (s.reed r) w ext] := by rw [ht, State.reed_setReed, Reed.queued_qld]
  simp [hq, hraw]

/-- Settles O6: the two rows of `mmaIssue`, and LD's. -/
theorem sampledInstructionsQueue : Obligations.SampledInstructionsQueue := by
  unfold Obligations.SampledInstructionsQueue
  intro s r w ext hi
  simp only [List.forall_mem_cons]
  exact ⟨⟨fun ho hc hd => congrArg Host.Outcome.next (mmaIssue_queued hi ho (by decide) hc hd),
    fun ho hc hd => congrArg Host.Outcome.next (mmaIssue_queued hi ho (by decide) hc hd), by simp⟩,
    fun ho hc hd => congrArg Host.Outcome.next (issueLd_queued hi ho hc hd rfl)⟩

/-! ### Held issues -/

theorem exec_heldIssueRetry (hh : (s.reed r).hold = .fullQueue ∨ (s.reed r).hold = .depend ∨ (s.reed r).hold = .fetch) :
    exec (.heldIssueRetry r) s = .next (issueNext s r) := by
  obtain hh | hh | hh := hh <;> simp [exec, execHeldIssueRetry, hh]

/-- Settles O4: `issueNext` looks at the OPC of the entry that the stream issues next, and calls the row of that OPC. -/
theorem heldIssueProceeds : Obligations.HeldIssueProceeds := by
  unfold Obligations.HeldIssueProceeds
  intro s r w hi hh
  obtain ⟨-, -, -, -, -, -, hw⟩ := (issues_iff s r w).mp hi
  have hnext : ∀ {c : Instr} {t : State}, exec c s = .next t → issueNext s r = t →
      ∃ t, exec c s = .next t ∧ exec (.heldIssueRetry r) s = .next t := fun hc ht =>
    ⟨_, hc, (exec_heldIssueRetry hh).trans (congrArg Host.Outcome.next ht)⟩
  intro p hp ho
  simp only [List.mem_cons, List.not_mem_nil, or_false] at hp
  obtain rfl | rfl | rfl | rfl | rfl | rfl | rfl | rfl | rfl | rfl | rfl | rfl | rfl | rfl | rfl | rfl | rfl | rfl | rfl | rfl | rfl |
    rfl | rfl | rfl | rfl | rfl | rfl | rfl | rfl := hp <;>
  exact hnext rfl (by simp only [issueNext, hw, Option.map_some, ho])

end

end Sys2Proof.Machine
end

section
/-!
PROOF. O44 (R129 to R140): what an instruction of a stream leaves alone. Every row is made of writes to its own reed, bookkeeping of its
sheaf's weathervane and fault window, and the events of a fault; each of these keeps the frame, and `issue` does where its body does.
-/

namespace Sys2Proof.Machine

/-- Between two states nothing changed but reed `r`, bookkeeping of its sheaf, and what replies and events change. -/
def streamFramed (r : Nat) (s t : State) : Prop :=
  (∀ q, q ≠ r → t.reed q = s.reed q) ∧
  (∀ g, (t.sheaf g).loft = (s.sheaf g).loft ∧ (t.sheaf g).power = (s.sheaf g).power ∧ (t.sheaf g).colls = (s.sheaf g).colls) ∧
  t.mem = s.mem ∧ t.allots = s.allots ∧ t.modColls = s.modColls ∧ t.eaves = s.eaves ∧ t.pow.rest = s.pow.rest ∧
  calledOnly s.pow.net t.pow.net ∧ t.boot = s.boot ∧ t.fabric.table = s.fabric.table ∧ t.fabric.address = s.fabric.address ∧
  t.tcweight = s.tcweight

theorem streamFramed_refl (r : Nat) (s : State) : streamFramed r s s :=
  ⟨fun _ _ => rfl, fun _ => ⟨rfl, rfl, rfl⟩, rfl, rfl, rfl, rfl, rfl, calledOnly_refl _, rfl, rfl, rfl, rfl⟩

theorem streamFramed_trans {r : Nat} {s t u : State} (h : streamFramed r s t) (k : streamFramed r t u) : streamFramed r s u := by
  obtain ⟨h1, h2, h3, h4, h5, h6, h7, h8, h9, h10, h11, h12⟩ := h
  obtain ⟨k1, k2, k3, k4, k5, k6, k7, k8, k9, k10, k11, k12⟩ := k
  refine ⟨fun q hq => (k1 q hq).trans (h1 q hq), fun g => ?_, k3.trans h3, k4.trans h4, k5.trans h5, k6.trans h6, k7.trans h7,
    calledOnly_trans h8 k8, k9.trans h9, k10.trans h10, k11.trans h11, k12.trans h12⟩
  obtain ⟨h1, h2, h3⟩ := h2 g
  obtain ⟨k1, k2, k3⟩ := k2 g
  exact ⟨k1.trans h1, k2.trans h2, k3.trans h3⟩

theorem streamFramed_of_onlyReplied {r : Nat} {s t : State} (h : onlyReplied s t) : streamFramed r s t := by
  obtain ⟨h1, h2, h3, h4, h5, ⟨h6, hcall⟩, h7, h8, h9, h10, h11⟩ := h
  refine ⟨fun q _ => State.reed_of_sheaves h1 q, fun g => ?_, h2, h3, h4, h5, h6.2, hcall, h7, h10, h11, h8⟩
  simp [State.sheaf, h1]

theorem streamFramed_modSheaf (r : Nat) (s : State) (g : Nat) {f : Sheaf → Sheaf} (hr : ∀ x, (f x).reeds = x.reeds)
    (hf : ∀ x, (f x).loft = x.loft ∧ (f x).power = x.power ∧ (f x).colls = x.colls) : streamFramed r s (s.modSheaf g f) := by
  refine ⟨fun q _ => State.reed_modSheaf s g q f (hr _), fun k => ?_, rfl, rfl, rfl, rfl, rfl, calledOnly_refl _, rfl, rfl, rfl, rfl⟩
  by_cases hk : k = g
  · subst hk
    rw [State.sheaf_modSheaf]
    exact hf _
  · rw [State.sheaf_modSheaf_ne _ _ _ _ hk]
    exact ⟨rfl, rfl, rfl⟩

theorem streamFramed_setReed (r : Nat) (s : State) (x : Reed) : streamFramed r s (s.setReed r x) := by
  refine ⟨fun q hq => State.reed_setReed_ne s r q x hq, fun g => ?_, rfl, rfl, rfl, rfl, rfl, calledOnly_refl _, rfl, rfl, rfl, rfl⟩
  rw [State.sheaf_setReed]
  split <;> exact ⟨rfl, rfl, rfl⟩

theorem streamFramed_modReed (r : Nat) (s : State) (f : Reed → Reed) : streamFramed r s (s.modReed r f) := streamFramed_setReed r s _

theorem Sheaf.noteFault_kept (x : Sheaf) (r cause : Nat) :
    (x.noteFault r cause).loft = x.loft ∧ (x.noteFault r cause).power = x.power ∧ (x.noteFault r cause).colls = x.colls := by
  unfold Sheaf.noteFault
  split <;> exact ⟨rfl, rfl, rfl⟩

theorem streamFramed_enterFaulted (r : Nat) (s : State) (cause : Nat) : streamFramed r s (enterFaulted s r cause) :=
  streamFramed_trans (streamFramed_modReed r s _) (streamFramed_modSheaf r _ _ (fun x => by simp) (fun x => by
    simpa using Sheaf.noteFault_kept x r cause))

theorem streamFramed_streamFault (r : Nat) (s : State) (f : Flaw) (i : Nat) : streamFramed r s (streamFault s r f i) :=
  streamFramed_trans (streamFramed_trans (streamFramed_modReed r s _) (streamFramed_enterFaulted r _ _))
    (streamFramed_of_onlyReplied (onlyReplied_flushWatches _))

section
variable {r : Nat} {s : State}

theorem streamFramed_ite {c : Prop} [Decidable c] {t u : State} (ht : streamFramed r s t) (hu : streamFramed r s u) :
    streamFramed r s (if c then t else u) := by
  split
  · exact ht
  · exact hu

/-! ### The ways to issue -/

theorem streamFramed_issue {opc : Nat} {body : State → Reed → BitVec 256 → State} (hb : ∀ x w, streamFramed r s (body s x w)) :
    streamFramed r s (issue s r opc body) := by
  unfold issue
  refine streamFramed_ite (streamFramed_refl r s) (streamFramed_ite (streamFramed_streamFault r s _ _)
    (streamFramed_ite (streamFramed_setReed r s _) ?_))
  split
  · exact streamFramed_streamFault r s _ _
  · exact streamFramed_ite (streamFramed_streamFault r s _ _) (streamFramed_ite (streamFramed_refl r s) (hb _ _))

theorem streamFramed_scalar {opc : Nat} {flaws : BitVec 256 → Reed → Option Flaw} {eff : State → BitVec 256 → Reed → Reed} :
    streamFramed r s (issue s r opc (scalar r flaws eff)) := by
  refine streamFramed_issue fun x w => ?_
  unfold scalar
  split
  · exact streamFramed_streamFault r s _ _
  · exact streamFramed_setReed r s _

theorem streamFramed_wordIssue {opc m1 : Nat} {dest : Bool} {eff : Operand → BitVec 256 → Reed → Reed} :
    streamFramed r s (issue s r opc (wordIssue r m1 dest eff)) := by
  refine streamFramed_issue fun x w => ?_
  unfold wordIssue
  split
  · exact streamFramed_streamFault r s _ _
  · exact streamFramed_ite (streamFramed_setReed r s _) (streamFramed_setReed r s _)

theorem streamFramed_issueLoop : streamFramed r s (issueLoop s r) := by
  refine streamFramed_issue fun x w => ?_
  split
  · exact streamFramed_streamFault r s _ _
  · exact streamFramed_setReed r s _

theorem streamFramed_issueBr : streamFramed r s (issueBr s r) := by
  refine streamFramed_issue fun x w => ?_
  split
  · exact streamFramed_streamFault r s _ _
  · exact streamFramed_ite (streamFramed_setReed r s _) (streamFramed_setReed r s _)

theorem streamFramed_issueWaitq : streamFramed r s (issueWaitq s r) := by
  refine streamFramed_issue fun x w => ?_
  split
  · exact streamFramed_streamFault r s _ _
  · exact streamFramed_ite (streamFramed_setReed r s _) (streamFramed_setReed r s _)

theorem streamFramed_issueEnd : streamFramed r s (issueEnd s r) := by
  refine streamFramed_issue fun x w => ?_
  split
  · exact streamFramed_streamFault r s _ _
  · exact streamFramed_setReed r s _

theorem streamFramed_engineIssue {opc : Nat} {e : Engine} {chk : IssueCheck} {passes : BitVec 256 → Reed → W32 → Nat} :
    streamFramed r s (engineIssue opc e chk passes s r) := by
  refine streamFramed_issue fun x w => ?_
  split
  · exact streamFramed_streamFault r s _ _
  · exact streamFramed_ite (streamFramed_setReed r s _) (streamFramed_ite (streamFramed_setReed r s _) (streamFramed_setReed r s _))

/-- What an issue did, followed by the weathervane's bookkeeping. -/
theorem streamFramed_weathervane {t : State} (h : streamFramed r s t) (g : Nat) (f : Sheaf → Weathervane) :
    streamFramed r s (t.modSheaf g (fun sh => { sh with wv := f sh })) :=
  streamFramed_trans h (streamFramed_modSheaf r t g (fun _ => rfl) (fun _ => ⟨rfl, rfl, rfl⟩))

theorem streamFramed_mmaIssue {opc : Nat} : streamFramed r s (mmaIssue opc s r) := by
  refine streamFramed_ite ?_ streamFramed_engineIssue
  split
  · exact streamFramed_weathervane streamFramed_engineIssue _ (fun sh => sh.wv.onMma r _ _ _)
  · exact streamFramed_engineIssue

theorem streamFramed_issueLd : streamFramed r s (issueLd s r) := by
  refine streamFramed_ite ?_ streamFramed_engineIssue
  split
  · exact streamFramed_ite (streamFramed_weathervane streamFramed_engineIssue _ (fun sh => sh.wv.capture _)) streamFramed_engineIssue
  · exact streamFramed_engineIssue

/-! ### The rows -/

/-- Each row of the stream, by the way it issues. -/
theorem streamFramed_rows : ∀ t ∈ [issueNop s r, issueSeti s r, issueAlu s r, issueSld s r, issueSst s r, issueMovr s r, issueMovw s r,
    issueLoop s r, issueBr s r, issueWaitq s r, issueEnd s r, issueMma s r, issueMmaf s r, issueAccz s r, issueAccst s r, issueVew s r,
    issueVred s r, issueVscan s r, issueVsscan s r, issueVwide s r, issueVrng s r, issueOpt s r, issueVcld s r, issueVcst s r, issueLd s r,
    issueLdpage s r, issueSt s r, issueXput s r, issueXget s r], streamFramed r s t := by
  simp only [List.forall_mem_cons]
  exact ⟨streamFramed_scalar, streamFramed_scalar, streamFramed_scalar, streamFramed_wordIssue, streamFramed_wordIssue, streamFramed_scalar,
    streamFramed_scalar, streamFramed_issueLoop, streamFramed_issueBr, streamFramed_issueWaitq, streamFramed_issueEnd,
    streamFramed_mmaIssue, streamFramed_mmaIssue, streamFramed_engineIssue, streamFramed_engineIssue, streamFramed_engineIssue,
    streamFramed_engineIssue, streamFramed_engineIssue, streamFramed_engineIssue, streamFramed_engineIssue, streamFramed_engineIssue,
    streamFramed_engineIssue, streamFramed_engineIssue, streamFramed_engineIssue, streamFramed_issueLd, streamFramed_engineIssue,
    streamFramed_engineIssue, streamFramed_engineIssue, streamFramed_engineIssue, by simp⟩

theorem streamFramed_issueNext : streamFramed r s (issueNext s r) := by
  unfold issueNext
  dsimp only
  split
  case h_30 => exact streamFramed_issue fun _ _ => streamFramed_refl r s
  all_goals exact streamFramed_rows _ (by simp only [List.mem_cons, true_or, or_true])

theorem streamFramed_heldIssueRetry (s : State) (r : ReedIx) : ∃ t, exec (.heldIssueRetry r) s = .next t ∧ streamFramed r s t := by
  refine ⟨_, rfl, ?_⟩
  split
  case h_4 => exact streamFramed_refl _ s
  all_goals exact streamFramed_issueNext

theorem streamFramed_waitqRelease (s : State) (r : ReedIx) : ∃ t, exec (.waitqRelease r) s = .next t ∧ streamFramed r s t := by
  refine ⟨_, rfl, ?_⟩
  dsimp only
  split
  · exact streamFramed_ite (streamFramed_setReed r s _) (streamFramed_refl _ s)
  · exact streamFramed_refl _ s

end

/-- Settles O44: the frame of each row. -/
theorem streamFrame : Obligations.StreamFrame := by
  unfold Obligations.StreamFrame
  intro s r c hc
  have hframe : ∃ t, exec c s = .next t ∧ streamFramed r s t := by
    simp only [List.mem_cons, List.not_mem_nil, or_false] at hc
    obtain rfl | rfl | rfl | rfl | rfl | rfl | rfl | rfl | rfl | rfl | rfl | rfl | rfl | rfl | rfl | rfl | rfl | rfl | rfl | rfl | rfl |
      rfl | rfl | rfl | rfl | rfl | rfl | rfl | rfl | rfl | rfl := hc
    on_goal 31 => exact streamFramed_waitqRelease s r
    on_goal 30 => exact streamFramed_heldIssueRetry s r
    all_goals
      refine ⟨_, rfl, streamFramed_rows _ ?_⟩
      simp only [List.mem_cons, true_or, or_true]
  obtain ⟨t, ht, h1, h2, h3, h4, h5, h6, h7, h8, h9, h10, h11, h12⟩ := hframe
  exact ⟨t, ht, h1, fun a => by rw [h3], h2, h3, h4, h5, h6, h7, h8, h9, h10, h11, h12⟩

end Sys2Proof.Machine
end

section
/-!
PROOF. O57 (R40, R45, R94 to R96, R113): a command for reeds acts once on each selected reed in a state that lets it act. The sheaves of a
selection are met one after the other, and each changes its own reeds alone.
-/

namespace Sys2Proof.Machine

/-! ### Reeds changed in place -/

/-- What a command for reeds leaves of a sheaf. -/
def sheafKept (x y : Sheaf) : Prop := y.power = x.power ∧ y.withheld = x.withheld ∧ y.repair = x.repair ∧ y.loft = x.loft

/-- The sheaves alone changed, and in them the reeds of `A` alone, each by `f`. -/
def actedReeds (A : Nat → Bool) (f : Nat → Reed → Reed) (s t : State) : Prop :=
  (∃ l, t = { s with sheaves := l }) ∧ (∀ g, sheafKept (s.sheaf g) (t.sheaf g)) ∧
  ∀ q, t.reed q = if A q then f q (s.reed q) else s.reed q

section
variable {A B : Nat → Bool} {f : Nat → Reed → Reed} {s t u : State}

theorem sheafKept_refl (x : Sheaf) : sheafKept x x := ⟨rfl, rfl, rfl, rfl⟩

theorem sheafKept_trans {x y z : Sheaf} (h : sheafKept x y) (k : sheafKept y z) : sheafKept x z := by
  obtain ⟨h1, h2, h3, h4⟩ := h
  obtain ⟨k1, k2, k3, k4⟩ := k
  exact ⟨k1.trans h1, k2.trans h2, k3.trans h3, k4.trans h4⟩

theorem retired_of_sheafKept {x y : Sheaf} (h : sheafKept x y) (l : Nat) : y.retired l = x.retired l := by
  obtain ⟨-, hw, hr, -⟩ := h
  rw [Sheaf.retired, Sheaf.retired, Sheaf.l1, Sheaf.l1, hw, hr]

theorem domState_of_sheafKept {x y : Sheaf} (h : sheafKept x y) : y.domState = x.domState := by
  simp [Sheaf.domState, h.1]

/-- Where no reed is acted on, and where acting changes none. -/
theorem actedReeds_refl (h : ∀ q, A q = true → f q (s.reed q) = s.reed q) : actedReeds A f s s := by
  refine ⟨⟨_, rfl⟩, fun g => sheafKept_refl _, fun q => ?_⟩
  split
  next ha => exact (h q ha).symm
  next => rfl

theorem actedReeds_congr (h : actedReeds A f s t) (hab : ∀ q, A q = B q) : actedReeds B f s t := by
  obtain ⟨h1, h2, h3⟩ := h
  exact ⟨h1, h2, fun q => by rw [h3 q, hab q]⟩

theorem actedReeds_trans (h : actedReeds A f s t) (k : actedReeds B f t u) (hd : ∀ q, A q = true → B q = false) :
    actedReeds (fun q => A q || B q) f s u := by
  obtain ⟨⟨l, ht⟩, h2, h3⟩ := h
  obtain ⟨⟨l', hu⟩, k2, k3⟩ := k
  refine ⟨⟨l', by rw [hu, ht]⟩, fun g => sheafKept_trans (h2 g) (k2 g), fun q => ?_⟩
  rw [k3 q, h3 q]
  cases ha : A q with
  | true => simp [ha, hd q ha]
  | false => simp [ha]

theorem actedReeds_modReed (s : State) (r : Nat) : actedReeds (fun q => decide (q = r)) f s (s.modReed r (f r)) := by
  refine ⟨⟨_, rfl⟩, fun g => ?_, fun q => ?_⟩
  · rw [State.modReed, State.sheaf_setReed]
    split <;> exact sheafKept_refl _
  · by_cases hq : q = r
    · subst hq
      simp
    · rw [State.reed_modReed_ne _ _ _ _ hq]
      simp [hq]

/-- The census of a sheaf's lodges is bookkeeping. -/
theorem actedReeds_censusSel (s : State) (n g : Nat) (ls : List Nat) : actedReeds (fun _ => false) f s (s.censusSel n g ls) := by
  refine ⟨⟨_, rfl⟩, fun k => ?_, fun q => State.reed_modSheaf s g q _ rfl⟩
  by_cases hk : k = g
  · subst hk
    rw [State.censusSel, State.sheaf_modSheaf]
    exact sheafKept_refl _
  · rw [State.censusSel, State.sheaf_modSheaf_ne _ _ _ _ hk]
    exact sheafKept_refl _

end

/-! ### One sheaf -/

/-- The action of a unit command is to change each acting reed by `f`. -/
def ActsBy (act : State → Nat → List Nat → ActRes) (f : Nat → Reed → Reed) : Prop :=
  ∀ s g ls, ls.Nodup → (∀ l ∈ ls, l < 4096) →
    actedReeds (fun q => decide (q / 4096 = g) && ls.contains (q % 4096)) f s (act s g ls).state

theorem actsBy_query (st : Status) (p : List Byte) : ActsBy (fun s _ _ => ⟨s, st, p⟩) (fun _ x => x) :=
  fun _ _ _ _ _ => actedReeds_refl fun _ _ => rfl

theorem actsBy_eachReed (f : Nat → Reed → Reed) : ActsBy (eachReed (fun s r => s.modReed r (f r))) f := by
  intro s g ls hn hlt
  induction ls generalizing s with
  | nil => exact actedReeds_refl (by simp)
  | cons l ls ih =>
    obtain ⟨hl, hls⟩ := List.nodup_cons.mp hn
    have hl4 : l < 4096 := hlt l List.mem_cons_self
    have hrest := ih (s.modReed (4096 * g + l) (f (4096 * g + l))) hls (fun k hk => hlt k (List.mem_cons_of_mem l hk))
    refine actedReeds_congr (actedReeds_trans (actedReeds_modReed s (4096 * g + l)) hrest fun q hq => ?_) fun q => ?_
    · rw [of_decide_eq_true hq, show (4096 * g + l) % 4096 = l by omega]
      simp [hl]
    · have hsplit : q = 4096 * g + l ↔ q / 4096 = g ∧ q % 4096 = l := by omega
      simp only [hsplit, List.contains_cons, Bool.decide_and, ← Bool.and_or_distrib_left]
      rfl

/-- Reed `q` of a selected sheaf acts, by its own state and the command's mark (R40, R45, R113). -/
def reedActs (c : Instr) (h : Hdr) (s : State) (q : Nat) : Bool :=
  (selOf h.path h.mask).locals.contains (q % 4096) && !(s.sheaf (q / 4096)).retired (q % 4096) &&
  decide (markOf c ((s.sheaf (q / 4096)).stOf (q % 4096)) ≠ .no) && decide (markOf c ((s.sheaf (q / 4096)).stOf (q % 4096)) ≠ .same)

/-- Acting on other sheaves does not decide whether a reed acts. -/
theorem reedActs_kept {c : Instr} {h : Hdr} {A : Nat → Bool} {f : Nat → Reed → Reed} {s t : State} (k : actedReeds A f s t) {q : Nat}
    (hq : A q = false) : reedActs c h t q = reedActs c h s q := by
  obtain ⟨-, hkept, hreed⟩ := k
  have hx : t.reed q = s.reed q := by rw [hreed q, hq]; rfl
  have hst : (t.sheaf (q / 4096)).stOf (q % 4096) = (s.sheaf (q / 4096)).stOf (q % 4096) := by
    rw [Sheaf.stOf, Sheaf.stOf, domState_of_sheafKept (hkept _)]
    exact congrArg (fun x : Reed => Option.getD _ x.st) hx
  rw [reedActs, reedActs, retired_of_sheafKept (hkept _), hst]

/-- The units of a sheaf that act, as a part of the selection, where no lodge is silent. -/
theorem arriveAt_acting (s : State) (c : Instr) (h : Hdr) {d : UnitDef} (g : Nat) (hd : d.level3 = false) :
    ∃ go, (arriveAt s c h d [] g).1 = (d.act s g go).state ∧ go.Sublist (selOf h.path h.mask).locals ∧
      ∀ q, q / 4096 = g → (go.contains (q % 4096) = reedActs c h s q) := by
  unfold arriveAt
  simp only [hd, Bool.false_eq_true, if_false]
  refine ⟨_, rfl, List.filter_sublist.trans (List.filter_sublist.trans List.filter_sublist), fun q hq => ?_⟩
  subst hq
  rw [Bool.eq_iff_iff]
  simp only [reedActs, List.contains_iff_mem, List.mem_filter, List.contains_nil, Bool.not_false, Bool.and_eq_true, Bool.not_eq_true',
    decide_eq_true_eq]
  tauto

/-! ### The selection has no sheaf and no reed twice -/

theorem nodup_digitsAt (p : BitVec 24) (m : Option W64) (k : Nat) : (digitsAt p m k).Nodup := by
  unfold digitsAt
  split
  · exact List.nodup_singleton _
  · split
    · split
      · exact List.nodup_range.filter _
      · exact List.nodup_range
    · exact List.nodup_range

theorem nodup_cross {xs ys : List Nat} (hx : xs.Nodup) (hy : ys.Nodup) (hlt : ∀ b ∈ ys, b < 16) : (cross xs ys).Nodup := by
  refine List.nodup_flatMap.mpr ⟨fun a _ => hy.map fun b b' h => by simpa using h, hx.imp fun {a a'} hne => ?_⟩
  simp only [Function.onFun, List.disjoint_left, List.mem_map]
  rintro _ ⟨b, hb, rfl⟩ ⟨b', hb', h⟩
  have := hlt b hb
  have := hlt b' hb'
  omega

theorem cross_lt {xs ys : List Nat} {m : Nat} (hx : ∀ a ∈ xs, a < m) (hlt : ∀ b ∈ ys, b < 16) : ∀ n ∈ cross xs ys, n < 16 * m := by
  simp only [cross, List.mem_flatMap, List.mem_map]
  rintro n ⟨a, ha, b, hb, rfl⟩
  have := hx a ha
  have := hlt b hb
  omega

theorem selOf_sheaves_nodup (p : BitVec 24) (m : Option W64) : (selOf p m).sheaves.Nodup :=
  nodup_cross (nodup_digitsAt p m 1) (nodup_digitsAt p m 2) fun _ h => digitsAt_lt h

theorem selOf_locals_nodup (p : BitVec 24) (m : Option W64) : (selOf p m).locals.Nodup :=
  nodup_cross (nodup_cross (nodup_digitsAt p m 3) (nodup_digitsAt p m 4) fun _ h => digitsAt_lt h) (nodup_digitsAt p m 5)
    fun _ h => digitsAt_lt h

theorem selOf_locals_lt (p : BitVec 24) (m : Option W64) : ∀ l ∈ (selOf p m).locals, l < 4096 :=
  cross_lt (m := 256) (cross_lt (m := 16) (fun _ h => digitsAt_lt h) fun _ h => digitsAt_lt h) fun _ h => digitsAt_lt h

/-! ### Every sheaf of a selection -/

/-- One sheaf of a selection takes a unit command that has been admitted, and its lodges hear of it. -/
def takeSheaf (c : Instr) (h : Hdr) (d : UnitDef) (a : State × Op) (g : Nat) : State × Op :=
  let t := arriveAt a.1 c h d [] g
  (t.1.censusSel 5 g (selOf h.path h.mask).locals, a.2.absorb d.level3 t.2)

section
variable {c : Instr} {h : Hdr} {d : UnitDef} {f : Nat → Reed → Reed}

theorem actedReeds_takeSheaf (hd : d.level3 = false) (hf : ActsBy d.act f) (a : State × Op) (g : Nat) :
    actedReeds (fun q => decide (q / 4096 = g) && reedActs c h a.1 q) f a.1 (takeSheaf c h d a g).1 := by
  obtain ⟨go, hgo, hsub, hmem⟩ := arriveAt_acting a.1 c h g hd
  have hact := hf a.1 g go (hsub.nodup (selOf_locals_nodup _ _)) fun l hl => selOf_locals_lt _ _ l (hsub.subset hl)
  rw [← hgo] at hact
  refine actedReeds_congr (actedReeds_trans hact (actedReeds_censusSel _ 5 g _) fun _ _ => rfl) fun q => ?_
  by_cases hq : q / 4096 = g
  · rw [hmem q hq, Bool.or_false]
  · simp [hq]

theorem actedReeds_takeSheaves (hd : d.level3 = false) (hf : ActsBy d.act f) (gs : List Nat) (hn : gs.Nodup) (a : State × Op) :
    actedReeds (fun q => gs.contains (q / 4096) && reedActs c h a.1 q) f a.1 (gs.foldl (takeSheaf c h d) a).1 := by
  induction gs generalizing a with
  | nil => exact actedReeds_refl (by simp)
  | cons g gs ih =>
    obtain ⟨hg, hgs⟩ := List.nodup_cons.mp hn
    have hfirst := actedReeds_takeSheaf hd hf (c := c) (h := h) a g
    refine actedReeds_congr (actedReeds_trans hfirst (ih hgs (takeSheaf c h d a g)) fun q hq => ?_) fun q => ?_
    · have hqg : q / 4096 = g := by simp only [Bool.and_eq_true, decide_eq_true_eq] at hq; exact hq.1
      simp [hqg, hg]
    · by_cases hqg : q / 4096 = g
      · simp [hqg, hg]
      · have hsame := reedActs_kept (c := c) (h := h) hfirst (q := q) (by simp [hqg])
        simp [hqg, hsame]

end

/-! ### The command as a whole -/

theorem actsOn_eq {s : State} {c : Instr} {h : Hdr} {i : CmdInfo} (hc : cmdOf c = some (h, i)) (q : Nat) :
    actsOn s c q = ((selOf h.path h.mask).sheaves.contains (q / 4096) && reedActs c h s q) := by
  simp only [actsOn, hc, reedActs, Bool.and_assoc]

/-- Waking a command's way, where no domain on the package sleeps or is called, changes nothing. -/
theorem eaves_of_wokenOnly {s t : State} (h : wokenOnly s t)
    (hn : ∀ d : DieIx, s.pow.net[d] ≠ .sleeping ∧ s.pow.net[d] ≠ .powering) : t = s := by
  refine h.2.2.2.2.2.2.2.2.2.2 fun d => ?_
  by_cases hd : d < 16
  · have hget : s.pow.net.toList[d]? = some s.pow.net[d] := by simp [hd]
    have hd' := hn ⟨d, hd⟩
    rw [hget]
    exact ⟨fun he => hd'.1 (Option.some.inj he), fun he => hd'.2 (Option.some.inj he)⟩
  · have hget : s.pow.net.toList[d]? = none := by simpa using hd
    rw [hget]
    simp

/-- What a command for reeds that is carried out leaves. -/
theorem exec_reeds {s : State} {c : Instr} {h : Hdr} {i : CmdInfo} {d : UnitDef} {f : Nat → Reed → Reed} (hc : cmdOf c = some (h, i))
    (hu : unitDefOf c = some d) (hd : d.level3 = false) (hf : ActsBy d.act f) (hrow : exec c s = .next (submit c (runUnit c d) s))
    (hr : unitReady s c = true) :
    ∃ t, exec c s = .next t ∧ (∀ q, t.reed q = if actsOn s c q then f q (s.reed q) else s.reed q) ∧ t.mem = s.mem ∧ t.allots = s.allots ∧
      t.modColls = s.modColls ∧ t.pow.rest = s.pow.rest ∧ t.boot = s.boot ∧ t.fabric.address = s.fabric.address ∧
      ((∀ d : DieIx, s.pow.net[d] ≠ .sleeping ∧ s.pow.net[d] ≠ .powering) → t.eaves = s.eaves ∧ calledOnly s.pow.net t.pow.net) ∧
      ∀ g, (t.sheaf g).loft = (s.sheaf g).loft ∧ (t.sheaf g).power = (s.sheaf g).power := by
  have hwoken := wokenOnly_wakeRoute (selOf h.path h.mask).sheaves (· / 16) s.taken
  generalize hw : (selOf h.path h.mask).sheaves.foldl (fun s g => wakeRoute s (g / 16)) s.taken = w at hwoken
  have hacted := actedReeds_takeSheaves (c := c) (h := h) hd hf _ (selOf_sheaves_nodup h.path h.mask)
    (w, { Op.begin s.lodge.nextId c h d.level3 with todo := [] })
  generalize hv : (selOf h.path h.mask).sheaves.foldl (takeSheaf c h d) (w, { Op.begin s.lodge.nextId c h d.level3 with todo := [] }) = v
    at hacted
  have hend : onlyReplied v.1 (concludeUnit v.1 d v.2).flushWatches :=
    onlyReplied_trans (onlyReplied_concludeUnit _ _ _) (onlyReplied_flushWatches _)
  have hout : exec c s = .next (concludeUnit v.1 d v.2).flushWatches := by
    rw [hrow, submit_unit hu hr, ← hv, ← hw]
    simp only [unitOutcome, hc]
    rfl
  refine ⟨_, hout, ?_⟩
  generalize (concludeUnit v.1 d v.2).flushWatches = t at hend
  obtain ⟨hl, hkept, hreed⟩ := hacted
  dsimp only at hkept hreed
  obtain ⟨l, hl⟩ := hl
  obtain ⟨h1, h2, h3, h4, h5, ⟨h6, hcall⟩, h7, -, -, -, h11⟩ := hend
  simp only [hl] at h2 h3 h4 h5 h6 h7 h11 hcall
  have heaves := fun hn => eaves_of_wokenOnly hwoken hn
  obtain ⟨w1, w2, w3, w4, w5, w6, -, -, -, w10, -⟩ := hwoken
  have hsame : ∀ q, w.reed q = s.reed q := State.reed_of_sheaves w1
  have hsheaf : ∀ g, w.sheaf g = s.sheaf g := fun g => by rw [State.sheaf, w1]; rfl
  have hacts : ∀ q, reedActs c h w q = reedActs c h s q := fun q => by simp only [reedActs, hsheaf]
  refine ⟨fun q => ?_, h2.trans w2, h3.trans w3, h4.trans w4, h6.2.trans w5, h7.trans w6, h11.trans w10, fun hn => ?_, fun g => ?_⟩
  · rw [State.reed_of_sheaves h1 q, hreed q, hsame, actsOn_eq hc, ← hacts]
  · rw [heaves hn] at h5 hcall
    exact ⟨h5, hcall⟩
  · obtain ⟨hp, -, -, hloft⟩ := hkept g
    have hsh : t.sheaf g = v.1.sheaf g := by simp [State.sheaf, h1]
    rw [hsh, hloft, hp, hsheaf]
    exact ⟨rfl, rfl⟩

/-- Settles O57: each of the commands acts by its own function of a reed. -/
theorem reedCommandsAct : Obligations.ReedCommandsAct := by
  unfold Obligations.ReedCommandsAct
  intro s h c f hcf hr
  obtain ⟨rfl, rfl⟩ | ⟨rfl, rfl⟩ | ⟨args, rfl, rfl⟩ | ⟨n, v, rfl, rfl⟩ | ⟨o, d, rfl, rfl⟩ := hcf
  · exact exec_reeds rfl rfl rfl (actsBy_query _ _) rfl hr
  · exact exec_reeds rfl rfl rfl (actsBy_eachReed _) rfl hr
  · exact exec_reeds rfl rfl rfl (actsBy_eachReed (fun q x => x.start q args h.slot)) rfl hr
  · exact exec_reeds rfl rfl rfl (actsBy_eachReed _) rfl hr
  · exact exec_reeds rfl rfl rfl (actsBy_eachReed _) rfl hr

end Sys2Proof.Machine
end

section
/-!
PROOF. O11, O12 (R77 to R82, R93 to R96, R53, R55, R116, R424, R427): each unit command carried out acts as its own row says, and each
transition that a sheaf or a reed makes by itself leaves the state of its rule.
-/

namespace Sys2Proof.Machine

/-! ### Commands -/

/-- A command that waits for what its row names goes on where nothing is held. -/
theorem submitOr_unhindered {c : Instr} {d : UnitDef} {s : State} (held : State → Bool) (hd : unitDefOf c = some d)
    (hr : unitReady s c = true) (hh : held s.taken = false) :
    submitOr held c d s = unitOutcome s c d.level3 d.act d.payload d.wait d.slice := by
  rw [← submit_unit hd hr, submitOr]
  split
  next h i hc =>
    rw [State.taken] at hh
    simp [hh]
  next hc => simp [unitReady, hc] at hr

/-- Settles O11: each command's act, payload and wait are those of its row. -/
theorem unitCommandsComplete : Obligations.UnitCommandsComplete := by
  unfold Obligations.UnitCommandsComplete
  intro s h
  refine ⟨?_, ?_, ?_, ?_, ?_, ?_, ?_, ?_, ?_, ?_, ?_, ?_, ?_, ?_⟩
  · exact fun hr => congrArg Host.Outcome.next (submit_unit rfl hr)
  · exact fun hr => congrArg Host.Outcome.next (submit_unit rfl hr)
  · exact fun hr => congrArg Host.Outcome.next (submit_unit rfl hr)
  · exact fun hr => congrArg Host.Outcome.next (submit_unit rfl hr)
  · exact fun source count entry address image hr hh => congrArg Host.Outcome.next (submitOr_unhindered _ rfl hr hh)
  · exact fun args hr => congrArg Host.Outcome.next (submit_unit rfl hr)
  · exact fun hr => congrArg Host.Outcome.next (submit_unit rfl hr)
  · exact fun hr => congrArg Host.Outcome.next (submit_unit rfl hr)
  · exact fun hr => congrArg Host.Outcome.next (submit_unit rfl hr)
  · exact fun n hr => congrArg Host.Outcome.next (submit_unit rfl hr)
  · exact fun n v hr => congrArg Host.Outcome.next (submit_unit rfl hr)
  · exact fun off n hr => congrArg Host.Outcome.next (submit_unit rfl hr)
  · exact fun off d hr => congrArg Host.Outcome.next (submit_unit rfl hr)
  · exact fun hr => congrArg Host.Outcome.next (submit_unit rfl hr)

/-! ### Transitions -/

/-- What a fault calls for leaves it open, until it takes effect, which reeds are retired. -/
theorem repairFor_retired (x : L1Repair) (i : Nat) :
    (repairFor x i).1.l1Retired = x.l1Retired ∧ (repairFor x i).1.retired = x.retired := by
  unfold repairFor
  dsimp only
  split
  · exact ⟨rfl, rfl⟩
  · split <;> exact ⟨rfl, rfl⟩

theorem sheaves_recordRepair (s : State) (r position : Nat) (runtime : Bool) :
    (recordRepair s r position runtime).1.sheaves = s.sheaves := by
  unfold recordRepair
  dsimp only
  split <;> rfl

/-- A repair recorded for later retires no reed at once. -/
theorem retired_pending (sh : Sheaf) (k i l : Nat) (ps : List PendingRepair) :
    Sheaf.retired { sh with repair := KMap.put L1Repair.none sh.repair k { (repairFor (sh.l1 k) i).1 with pending := ps } } l =
      sh.retired l := by
  obtain ⟨h1, h2⟩ := repairFor_retired (sh.l1 k) i
  by_cases hl : l / 16 = k
  · rw [Sheaf.l1] at h1 h2
    simp [Sheaf.retired, Sheaf.l1, hl, h1, h2]
  · unfold Sheaf.retired Sheaf.l1
    rw [KMap.get_put_ne _ _ _ _ _ hl]

/-- A fault that leaves the rest of its L1 sheaf in use. -/
theorem exec_hardwareFault {s : State} {r : ReedIx} {x : L1Repair} {p : Repair} (hp : (s.sheaf (r / 4096)).power = .awake)
    (hr : (s.sheaf (r / 4096)).retired (r % 4096) = false)
    (hx : repairFor ((s.sheaf (r / 4096)).l1 (r % 4096 / 16)) (r % 16) = (x, p)) (hp1 : p ≠ .retireL1)
    (ha : ((s.sheaf (r / 4096)).l1 (r % 4096 / 16)).awaits (r % 16) = false) (hf : (s.reed r).st ≠ .faulted) {j : State × Nat}
    (hj : j = recordRepair s r (if ((s.sheaf (r / 4096)).l1 (r % 4096 / 16)).replaced = some (r.val % 16) then 16 else r.val % 16) true) :
    exec (.hardwareFault r) s =
      .next (enterFaulted (j.1.modSheaf (r / 4096) (fun sh => { sh with
        repair := KMap.put L1Repair.none sh.repair (r % 4096 / 16)
          { x with pending := x.pending ++ [⟨p, j.2, decide (((s.sheaf (r / 4096)).l1 (r % 4096 / 16)).replaced = some (r.val % 16)), true⟩] } }))
        r 3).flushWatches := by
  have hsheaves : j.1.sheaves = s.sheaves := hj ▸ sheaves_recordRepair ..
  have hout : ¬(decide ((s.sheaf (r / 4096)).power ≠ .awake) || (s.sheaf (r / 4096)).retired (r % 4096)) = true := by simp [hp, hr]
  refine congrArg Host.Outcome.next ((if_neg hout).trans ((if_neg (by simp [ha])).trans ?_))
  have hg : ((r / 4096 : ReedIx) : Nat) = r.val / 4096 := rfl
  have hk : ((r % 4096 / 16 : ReedIx) : Nat) = r.val % 4096 / 16 := rfl
  simp only [hg, hk, hx, hp1, if_false, List.foldl_cons, List.foldl_nil, L1Repair.position, ← hj]
  refine congrArg State.flushWatches (if_neg ?_)
  have hst : ∀ f, (∀ y : Sheaf, (f y).reeds = y.reeds) → ((j.1.modSheaf (r / 4096) f).reed r) = s.reed r := fun f hf => by
    rw [State.reed_modSheaf _ _ _ _ (hf _), State.reed_of_sheaves hsheaves]
  have hre : ∀ f, (f (s.sheaf (r / 4096))).retired (r % 4096) = false →
      ((j.1.modSheaf (r / 4096) f).sheaf (r / 4096)).retired (r % 4096) = false := fun f hf => by
    rw [State.sheaf_modSheaf, State.sheaf, hsheaves]
    exact hf
  rw [hst, hre]
  · simp [hf]
  · rw [← show _ = x from congrArg Prod.fst hx, retired_pending]
    exact hr
  · exact fun _ => rfl

/-- The sheaf longest in its powering phase leaves it. -/
theorem elim_leavePhase (s : State) (l : List Nat) :
    l.head?.elim s (leavePhase s) = match l with | e :: _ => leavePhase s e | [] => s := by
  cases l <;> rfl

/-- Settles O12: each event's condition is met, and the branch it takes is the clause. -/
theorem unitEventsComplete : Obligations.UnitEventsComplete := by
  unfold Obligations.UnitEventsComplete
  refine ⟨?_, ?_, ?_, ?_, ?_, ?_, ?_⟩
  · intro s g hw he a b ha hb
    refine congrArg Host.Outcome.next ((if_neg (by simp [hw, he])).trans ?_)
    have hlimit : phaseLimit s = phaseLimit a := by
      rw [ha]
      split
      · rfl
      · cases inPhaseOf s (g / 16) <;> rfl
    rw [hlimit] at hb
    simp only [hb, ha, elim_leavePhase]
    rfl
  · intro s g hp c hc
    subst hc
    exact congrArg Host.Outcome.next (if_pos hp)
  · exact fun s d hd => congrArg Host.Outcome.next (if_pos hd)
  · exact fun s d hd ho => congrArg Host.Outcome.next (if_pos ⟨hd, by simpa using ho⟩)
  · exact fun s r hd => ⟨fun hq => congrArg Host.Outcome.next (if_pos ⟨hd, hq⟩), congrArg Host.Outcome.next (if_pos hd)⟩
  · exact fun s r x p hp hr hx hp1 ha hf j hj => exec_hardwareFault hp hr hx hp1 ha hf hj
  · intro s g w hw
    simp only [exec, execUnitFaultedCoalesce, hw]

end Sys2Proof.Machine
end

section
/-!
PROOF. O8, O9 (R133, R134, R150, R152, R164, R174, R223, R239 to R241, R262 to R265): the engines' own steps and the checker's. The head of
a queue that nothing holds back starts, completes or traps as its row says.
-/

namespace Sys2Proof.Machine

/-! ### The engines -/

section
variable {s : State} {r : ReedIx} {e : Engine} {q : QEntry} {t : List QEntry} (errs : List MemErr)

/-- A head that nothing holds back starts. -/
theorem exec_engineStart (hq : (s.reed r).queue e = q :: t) (hc : clockRuns s (r / 4096) = true) (hn : q.started = false)
    (hw : headWaits (s.reed r) q = false) (hm : e = .ld → memWaits s r (readView (s.reed r) q) = false)
    (hf : startFlaw s r (s.reed r) (readView (s.reed r) q) = none) {v : QEntry} {u : State}
    (hv : v = { readView (s.reed r) q with started := true, srcs := (startExtents (readView (s.reed r) q)).1,
                                           dsts := (startExtents (readView (s.reed r) q)).2, freeBase := s.free, errs := errs })
    (hu : u = ({ s with free := s.free + freeDraws v } : State).modReed r (fun x => x.modHead e (fun _ => v))) :
    exec (.engineInstructionStart r e errs) s = .next (match e with
      | .xput => xputRun maxPieces u r
      | .xget => xgetRun maxPieces u r
      | .ld =>
        if insOpc v.raw ≠ 0x80 then u
        else
          let u := u.modSheaf (r / 4096) (fun sh => { sh with wv := sh.wv.sized r v.seqNo (ldSourceBytes v) })
          if lsMem v.raw then touchSectors u 1 (reedPath r) (lsSectors v) errs else u
      | _ => u) := by
  have hgo : (q.started || !clockRuns s (r / 4096) || headWaits (s.reed r) q ||
      (decide (e = .ld) && memWaits s r (readView (s.reed r) q))) = false := by
    simp [hn, hc, hw]
    exact hm
  simp only [exec, execEngineInstructionStart, hq, hgo, hf, Bool.false_eq_true, if_false, hu, hv]
  cases e <;> rfl

/-- A head whose start checks fail faults its reed. -/
theorem exec_engineStart_flaw (hq : (s.reed r).queue e = q :: t) (hc : clockRuns s (r / 4096) = true) (hn : q.started = false)
    (hw : headWaits (s.reed r) q = false) (hm : e = .ld → memWaits s r (readView (s.reed r) q) = false) {f : Flaw}
    (hf : startFlaw s r (s.reed r) (readView (s.reed r) q) = some f) :
    exec (.engineInstructionStart r e errs) s = .next (streamFault s r f (readView (s.reed r) q).index.toNat) := by
  have hgo : (q.started || !clockRuns s (r / 4096) || headWaits (s.reed r) q ||
      (decide (e = .ld) && memWaits s r (readView (s.reed r) q))) = false := by
    simp [hn, hc, hw]
    exact hm
  simp only [exec, execEngineInstructionStart, hq, hgo, hf, Bool.false_eq_true, if_false]

/-- A running instruction other than an ST that has done its work, and traps no more, ends and frees its entry. -/
theorem exec_engineComplete (hq : (s.reed r).queue e = q :: t) (hc : clockRuns s (r / 4096) = true) (hs : e ≠ .st)
    (hn : q.started = true) (hw : workDone q = true) (hd : dataHeld s r q = false) (ht : engineTraps s r q = []) {stop : Bool} {u : State}
    (hstop : stop = (decide (e = .ld) && decide (insOpc q.raw = 0x80) &&
      (match lsViewOf q with | some v => decide (stopOf s q < v.count) | none => false)))
    (hu : u = (engineEffect (wvComplete s r q) r q none).modReed r (fun x => x.popHead e)) :
    exec (.engineInstructionComplete r e) s = .next (if stop then (enterFaulted u r 3).flushWatches else u) := by
  cases e
  case st => exact absurd rfl hs
  all_goals
    simp only [exec, execEngineInstructionComplete, hq, hn, hw, hc, hd, ht, Bool.not_true, Bool.false_or, List.isEmpty_nil, Bool.and_false,
      Bool.false_eq_true, if_false, hstop, hu] <;> rfl

/-- An ST whose words can go writes them, and waits for its acknowledgement. -/
theorem exec_stComplete (hq : (s.reed r).queue .st = q :: t) (hc : clockRuns s (r / 4096) = true) (hn : q.started = true)
    (hw : workDone q = true) (hd : dataHeld s r q = false) (hm : memWaits s r q = false) (ht : engineTraps s r q = [])
    (hp : q.progress = 0) :
    exec (.engineInstructionComplete r .st) s =
      .next ((engineEffect s r q none).modReed r (fun x => x.modHead .st (fun h => { h with progress := 1 }))) := by
  simp [exec, execEngineInstructionComplete, hq, hn, hw, hc, hd, ht, hp, hm]

/-- The acknowledgement of an ST completes it; where the words had not gone, they go with it. -/
theorem exec_stAcknowledged (hq : (s.reed r).queue .st = q :: t) (hc : clockRuns s (r / 4096) = true) (hn : q.started = true)
    (hd : dataHeld s r q = false) (hm : q.progress = 0 → memWaits s r q = false) (ht : engineTraps s r q = []) :
    exec (.stAcknowledged r) s =
      .next ((if q.progress = 0 then engineEffect s r q none else s).modReed r (fun x => x.popHead .st)) := by
  have hst : (s.reed r).qst = q :: t := hq
  have hgo : (decide (q.progress = 0) && memWaits s r q) = false := by simpa using hm
  simp [exec, execStAcknowledged, hst, hn, hc, hd, ht, hgo]

/-- A trap that counts leaves the instruction to go on. -/
theorem exec_numericTrap_counts (hq : (s.reed r).queue e = q :: t) (hc : clockRuns s (r / 4096) = true) (hn : q.started = true)
    (hd : q.trapsDone = false) {ev : TrapEv} (hev : firstEv (engineTraps s r q) = some ev) (ha : q.trapAction = true) :
    exec (.numericTrap r e) s = .next ((noteTrap s r q ev).modReed r (fun x =>
      (x.countTraps (engineTraps s r q).length).modHead e (fun h => { h with trapsDone := true }))) := by
  simp [exec, execNumericTrap, hq, hn, hc, hd, hev, ha]

/-- A trap that halts stops the instruction there. -/
theorem exec_numericTrap_halts (hq : (s.reed r).queue e = q :: t) (hc : clockRuns s (r / 4096) = true) (hn : q.started = true)
    (hd : q.trapsDone = false) {ev : TrapEv} (hev : firstEv (engineTraps s r q) = some ev) (ha : q.trapAction = false) :
    exec (.numericTrap r e) s = .next ((enterFaulted (dropSample ((engineEffect (noteTrap s r q ev) r q (some ev)).modReed r (fun x =>
      (x.countTraps 1).popHead e)) r q) r 1).flushWatches) := by
  simp [exec, execNumericTrap, hq, hn, hc, hd, hev, ha]

end

/-- Settles O8: the clauses are the engines' steps, and XC's and the sums' own rows. -/
theorem engineStepsComplete : Obligations.EngineStepsComplete := by
  unfold Obligations.EngineStepsComplete
  intro s r e q t errs hq hc
  have hawake : (s.sheaf (r / 4096)).power = .awake := by
    simp only [clockRuns, Bool.and_eq_true, decide_eq_true_eq] at hc
    exact hc.1.1
  refine ⟨?_, ?_, ?_, ?_, ?_, ?_, ?_, ?_, congrArg Host.Outcome.next (if_pos hc), congrArg Host.Outcome.next (if_pos hc),
    congrArg Host.Outcome.next (if_pos (by rw [hc, decide_eq_true hawake]; rfl))⟩
  · intro he hn hw hf
    have hm : e = .ld → memWaits s r (readView (s.reed r) q) = false := by rcases he with rfl | rfl | rfl <;> simp
    rw [exec_engineStart errs hq hc hn hw hm hf rfl rfl]
    obtain rfl | rfl | rfl := he <;> rfl
  · intro he hn hw hm hf v u hv hu
    rw [exec_engineStart errs hq hc hn hw hm hf hv hu]
    obtain rfl | rfl | rfl := he <;> rfl
  · exact fun f hn hw hm hf => exec_engineStart_flaw errs hq hc hn hw hm hf
  · intro he hn hw hd ht
    have hs : e ≠ .st ∧ e ≠ .ld := by rcases he with rfl | rfl | rfl | rfl <;> decide
    rw [exec_engineComplete hq hc hs.1 hn hw hd ht rfl rfl]
    simp [hs.2]
  · rintro rfl hn hw hd ht stop u hstop hu
    exact exec_engineComplete hq hc (by decide) hn hw hd ht (by rw [hstop]; rfl) hu
  · rintro rfl hn hw hd hm ht hp
    exact exec_stComplete hq hc hn hw hd hm ht hp
  · rintro rfl hn hd hm ht
    exact exec_stAcknowledged hq hc hn hd hm ht
  · exact fun hn hd ev hev => ⟨exec_numericTrap_counts hq hc hn hd hev, exec_numericTrap_halts hq hc hn hd hev⟩

/-! ### The checker -/

/-- Settles O9: the first sample whose instruction has run is the one that the checker takes, and its outcome is one of three. -/
theorem sampleCompareCompletes : Obligations.SampleCompareCompletes := by
  unfold Obligations.SampleCompareCompletes
  intro s g y ps hy hps hc w a b hit t hw ha hb hhit
  have hfind : (s.sheaf g).wv.samples.find? Sample.ready = some y := hy
  have hrun : exec (.wvSampleCompare g) s = .next (
      let st := if hit && w.eventWindow then { b with suppressed := min (b.suppressed + 1) 0xFFFF } else b
      let u := s.modSheaf g (fun x => { x with wv := { x.wv with
        samples := x.wv.samples.erase y, stats := st, eventWindow := x.wv.eventWindow || (hit && !w.eventWindow) } })
      if hit && !w.eventWindow then
        u.event { opcode := 0x0B03, group := 1, status := .ok, path := reedPath y.reed, allot := u.allotOf g, slot := y.slot,
                  ustate := (s.sheaf g).stOf (y.reed % 4096), detail := st.bytes }
      else u) := by
    rw [hhit, hb, ha, hw]
    simp only [exec, execWvSampleCompare, hfind, hc, hps, Bool.not_true, Bool.false_eq_true, if_false, Option.getD_some]
    rfl
  refine ⟨fun hit0 => ?_, fun hit1 hwin => ?_, fun hit1 hwin ht => ?_⟩
  · rw [hrun, hit0]
    simp
  · rw [hrun, hit1, hwin]
    simp
  · rw [hrun, hit1, hwin, ht]
    simp

end Sys2Proof.Machine
end

section
/-!
PROOF. O10 (R33, R73, R90 to R92, R407): what each command of the device class leaves.
-/

namespace Sys2Proof.Machine

/-- A TAKEOVER whose partner is down beyond its grace period moves the allotments it names. -/
theorem takeoverBody_ready {h : Hdr} {a : W16} {s : State} {p : PortIx} (hup : (s.port p).linkUp = true)
    (hdown : (s.port (otherPort p)).linkUp = false) (hgrace : (s.port (otherPort p)).graceElapsed = true) {l : List Nat}
    (hl : (a.toNat = 0xFFFF ∧ l = s.allotsOf (otherPort p) ∧ l ≠ []) ∨
      (a.toNat ≠ 0xFFFF ∧ a ≠ 0 ∧ a.toNat ∈ s.allotsOf (otherPort p) ∧ l = [a.toNat])) :
    takeoverBody h a s.taken s.lodge.nextId p = l.foldl (fun t x => t.hostLink p (otherPort p) 3 x)
      (moduleOutcome s (l.foldl (takeAllot p) s.taken) (.takeover h a) .ok (leBytes 2 l.length)) := by
  have hready : ((s.port p).linkUp && !(s.port (otherPort p)).linkUp && (s.port (otherPort p)).graceElapsed) = true := by
    simp [hup, hdown, hgrace]
  obtain ⟨ha, rfl, hne⟩ | ⟨ha, h0, hmem, rfl⟩ := hl
  · exact (if_pos ha).trans ((if_neg hne).trans (if_pos hready))
  · have htheirs : ((s.allotsOf (otherPort p)).contains a.toNat && decide (a ≠ 0)) = true := by
      rw [decide_eq_true h0]
      simp [hmem]
    exact (if_neg ha).trans ((if_pos htheirs).trans (if_pos hready))

/-- Settles O10: each command's checks pass, and its body is the clause. -/
theorem deviceCommandsComplete : Obligations.DeviceCommandsComplete := by
  unfold Obligations.DeviceCommandsComplete
  refine ⟨?_, ?_, ?_, ?_, ?_, ?_⟩
  · exact fun s h d hr => congrArg Host.Outcome.next (submit_module _ _ _ rfl hr rfl rfl)
  · exact fun s h hr => congrArg Host.Outcome.next (submit_module _ _ _ rfl hr rfl rfl)
  · intro s h n hr p hp hn
    have hreg : moduleReg s p.1 = some p.2 := by
      simp only [List.mem_cons, List.not_mem_nil, or_false] at hp
      obtain rfl | rfl | rfl | rfl | rfl | rfl := hp <;> rfl
    rw [← hn] at hreg ⊢
    have hform : (if (moduleReg s.taken n.toNat).isSome then none else some Status.badParam) = none := by
      rw [if_pos]
      exact Option.isSome_of_eq_some hreg
    refine (congrArg Host.Outcome.next (submit_module _ _ _ rfl hr hform rfl)).trans ?_
    rw [show moduleReg s.taken n.toNat = some p.2 from hreg]
    rfl
  · intro s h n v hr hn hv w hw
    have hform : (if n.toNat ≠ 2 then some Status.badParam else if v.toNat / 2 ^ 32 ≠ 0 then some .badParam else none) = none := by
      rw [if_neg (by simp [hn]), if_neg (by omega)]
    refine (congrArg Host.Outcome.next (submit_module _ _ _ rfl hr hform rfl)).trans ?_
    rw [hn, hw]
    rfl
  · intro s h g hr hg hs
    have hform : (if 1 < g.toNat then some Status.badParam else none) = none := if_neg (by omega)
    exact congrArg Host.Outcome.next ((submit_module _ _ _ rfl hr hform rfl).trans (if_pos hs))
  · intro s h a p hr hs hup hdown hgrace l hl
    refine congrArg Host.Outcome.next ((submit_module _ _ _ rfl hr rfl rfl).trans ?_)
    simp only [hs]
    exact takeoverBody_ready hup hdown hgrace hl

end Sys2Proof.Machine
end

section
/-!
PROOF. O13 to O15 (R98, R225, R384 to R392, R397, R400, R401, R426): the memory class, the host's own accesses over BAR2, and what the
memory does by itself.
-/

namespace Sys2Proof.Machine

/-! ### Commands -/

/-- The range checks of a transfer pass. -/
theorem transferForm_none {dev n : Nat} {addrs : List Nat} (h1 : 64 ≤ n) (h2 : n ≤ 64 * gib) (h3 : dev + n ≤ memEnd)
    (h4 : dev % 64 = 0) (h5 : n % 64 = 0) (h6 : ∀ a ∈ addrs, a % 64 = 0) : transferForm dev n addrs = none := by
  rw [transferForm, if_neg (by omega), if_neg (by simpa [h4, h5] using h6)]

/-- A MEM_FILL of whole pieces of memory in its scope stays in progress. -/
theorem exec_memFill {s : State} {h : Hdr} {dev n pattern : W64} (hr : moduleReady s (.memFill h dev n pattern) = true)
    (h1 : 64 ≤ n.toNat) (h2 : n.toNat ≤ 64 * gib) (h3 : dev.toNat + n.toNat ≤ memEnd) (h4 : dev.toNat % 64 = 0) (h5 : n.toNat % 64 = 0)
    (hscope : memScope s h dev.toNat (dev.toNat + n.toNat) = true) :
    exec (.memFill h dev n pattern) s = .next (moduleHeld s s.taken (.memFill h dev n pattern) .ok []) := by
  have hform : transferForm dev.toNat n.toNat [] = none := transferForm_none h1 h2 h3 h4 h5 (by simp)
  have hmine : (!memScope s h dev.toNat (dev.toNat + n.toNat)) = false := by rw [hscope]; rfl
  exact congrArg Host.Outcome.next (submit_module _ _ _ rfl hr hform hmine)

theorem src_of_portOf {h : Hdr} {p : PortIx} (hp : portOf h = some p) : h.src = .port p := by
  unfold portOf at hp
  split at hp
  next q hq => rw [hq, Option.some.inj hp]
  next => exact absurd hp (by simp)

/-- Settles O13: each command's checks pass, and its body is the clause. -/
theorem memoryCommandsComplete : Obligations.MemoryCommandsComplete := by
  unfold Obligations.MemoryCommandsComplete
  refine ⟨?_, ?_, ?_, ?_, ?_, ?_, ?_⟩
  · intro s h al base size a hr ha hfor h0 hend hb hs hfree
    have hform : (if size = 0 ∨ memEnd < base.toNat + size.toNat ∨ (s.allot? al.toNat) = none then some Status.badParam
        else if base.toNat % gib ≠ 0 ∨ size.toNat % gib ≠ 0 then some .alignFault else none) = none := by
      rw [if_neg (by simp only [h0, ha, false_or, reduceCtorEq, or_false]; omega), if_neg (by omega)]
    have hover : (s.granted.any (extOverlap (base.toNat, base.toNat + size.toNat))) = false := by simpa using fun x y hg => hfree (x, y) hg
    refine congrArg Host.Outcome.next ((submit_module _ _ _ rfl hr hform hfor).trans ?_)
    rw [show s.taken.allot? al.toNat = some a from ha]
    exact if_neg (by rw [show s.taken.granted = s.granted from rfl, hover]; decide)
  · intro s h al base a g hr hfor ha hg
    have hgrant : grantAt s al.toNat base.toNat = some g := by rw [grantAt, ha]; exact hg
    refine congrArg Host.Outcome.next ((submit_module _ _ _ rfl hr rfl hfor).trans ?_)
    rw [show grantAt s.taken al.toNat base.toNat = some g from hgrant, show s.taken.allot? al.toNat = some a from ha]
    rfl
  · intro s h dir host dev n hr hdir hp h1 h2 h3 h4 h5 h6 hscope
    have hform : (if 1 < dir.toNat ∨ portOf h = none then some Status.badParam else transferForm dev.toNat n.toNat [host.toNat]) = none := by
      rw [if_neg (by simp only [hp, or_false]; omega), transferForm_none h1 h2 h3 h5 h6 (by simpa using h4)]
    have hmine : (!memScope s h dev.toNat (dev.toNat + n.toNat)) = false := by rw [hscope]; rfl
    exact congrArg Host.Outcome.next (submit_module _ _ _ rfl hr hform hmine)
  · intro s h base p hr hp hend hb hscope
    exact exec_aperture_sets hr (src_of_portOf hp) hb hend hscope
  · exact fun s h dev n pattern hr h1 h2 h3 h4 h5 hscope => exec_memFill hr h1 h2 h3 h4 h5 hscope
  · intro s h clear hr hc
    have hform : (if 1 < clear.toNat then some Status.badParam else none) = none := if_neg (by omega)
    exact congrArg Host.Outcome.next (submit_module _ _ _ rfl hr hform rfl)
  · intro s h a t hr ha ht
    have hform : (if memEnd ≤ a.toNat then some Status.badParam else none) = none := if_neg (by omega)
    refine congrArg Host.Outcome.next ((submit_module _ _ _ rfl hr hform rfl).trans ?_)
    simp only [← ht, List.contains_iff_mem]
    rfl

/-! ### BAR2 and host reads -/

/-- Settles O14: an access that BAR2 takes is denied, waits or is carried out. -/
theorem hostAccessComplete : Obligations.HostAccessComplete := by
  unfold Obligations.HostAccessComplete
  refine ⟨?_, ?_, ?_, ?_⟩
  · intro s p off data errs ht
    exact congrArg Host.Outcome.next (if_neg (by simp [ht]))
  · intro s p off n errs ht lo t hlo htt
    subst hlo htt
    exact congrArg Host.Outcome.next (if_neg (by simp [ht]))
  · intro s id o h dir host dev n data errs ho hcmd hdir hlen h32 hheld p t hp ht
    have hport : (cmdOf o.cmd).bind (fun e => portOf e.1) = some p := by rw [hcmd]; exact hp
    have hgo : dir = 0 ∧ data.length < n.toNat ∧ data.length % 32 = 0 ∧ memHeld s (sectorsOf dev.toNat data.length) = false :=
      ⟨hdir, hlen, h32, hheld⟩
    simp only [exec, execHostDmaReadError, ho, hcmd]
    simp only [hcmd] at hport
    rw [if_pos hgo]
    simp only [hport, dmaIn, noteTimeout, ht, hcmd, decide_eq_true_eq]
  · intro s p hr
    exact congrArg Host.Outcome.next (if_pos hr)

/-! ### The memory by itself -/

/-- Of a page's event windows the one that opened first closes; one that stands alone closes. -/
theorem exec_eccWindowClose {s : State} {ch : ChanIx} {page k : Nat} {w : EccWindow}
    (hfirst : (k = windowKey page 0 ∧ ∀ v, KMap.look (s.chan ch).windows (windowKey page 3) = some v → w.order < v.order) ∨
      (k = windowKey page 3 ∧ ∀ v, KMap.look (s.chan ch).windows (windowKey page 0) = some v → w.order ≤ v.order))
    (hw : KMap.look (s.chan ch).windows k = some w) :
    exec (.eccWindowClose ch page) s = .next (eccEvent (s.modChan ch (fun c => { c with windows := KMap.del c.windows k }))
      w.kind w.addr ch page w.source w.sectors w.count w.path) := by
  obtain ⟨rfl, hv⟩ | ⟨rfl, hv⟩ := hfirst
  · cases h3 : KMap.look (s.chan ch).windows (windowKey page 3) with
    | none => simp only [exec, execEccWindowClose, hw, h3]
    | some v => simp only [exec, execEccWindowClose, hw, h3, if_pos (hv v h3)]
  · cases h0 : KMap.look (s.chan ch).windows (windowKey page 0) with
    | none => simp only [exec, execEccWindowClose, hw, h0]
    | some v => simp only [exec, execEccWindowClose, hw, h0, if_neg (Nat.not_lt.mpr (hv v h0))]

/-- Settles O15: each event's condition is met, and the branch it takes is the clause. -/
theorem memoryEventsComplete : Obligations.MemoryEventsComplete := by
  unfold Obligations.MemoryEventsComplete
  refine ⟨?_, ?_, ?_, ?_, ?_, ?_, ?_⟩
  · intro s ch page errs hp hnew hheld secs u t hsecs hu ht
    subst hsecs hu ht
    refine congrArg Host.Outcome.next (if_neg ?_)
    simp [hheld, hnew, hp]
  · intro s ch p l errs hret secs v q t u hsecs hv hq ht hu
    subst hsecs hv hq ht hu
    simp only [exec, execRowRetirementDone, hret]
    rfl
  · exact fun s ch page k w hfirst hw => exec_eccWindowClose hfirst hw
  · exact fun s ch => ⟨rfl, rfl⟩
  · intro s ch hre t b u ht hbu
    subst ht
    refine congrArg Host.Outcome.next ((if_pos hre).trans ?_)
    rw [journalTraining, ← hbu]
    rfl
  · exact fun s dev temp => rfl
  · intro s ch hre
    simp only [exec, execSelfRefreshEntry, State.modChan, hre, Bool.false_eq_true, if_false]

end Sys2Proof.Machine
end

section
/-!
PROOF. O16 (R100, R246 to R256): the tensor class.
-/

namespace Sys2Proof.Machine

theorem planAll_taken (s : State) (h : Hdr) (g : Nat) (ds : List MoveDesc) : planAll s.taken h g ds = planAll s h g ds := by
  induction ds with
  | nil => rfl
  | cons d ds ih =>
    rw [planAll, planAll, ih]
    rfl

theorem moveHeld_taken (s : State) (h : Hdr) (ds : List MoveDesc) (g : Nat) : moveHeld s.taken h ds g = moveHeld s h ds g := by
  rw [moveHeld, moveHeld, planAll_taken]
  rfl

/-- Settles O16: each unit command acts as its row says, and each module command's checks pass. -/
theorem tensorCommandsComplete : Obligations.TensorCommandsComplete := by
  unfold Obligations.TensorCommandsComplete
  refine ⟨?_, ?_, ?_, ?_, ?_⟩
  · exact fun s h off d hr => congrArg Host.Outcome.next (submit_unit rfl hr)
  · exact fun s h off n hr => congrArg Host.Outcome.next (submit_unit rfl hr)
  · intro s h ds hr hfree
    have hheld : (selOf h.path h.mask).sheaves.any (moveHeld s.taken h ds) = false := by
      simpa [moveHeld_taken] using hfree
    refine congrArg Host.Outcome.next ((submitOr_unhindered _ rfl hr hheld).trans ?_)
    rfl
  · intro s h n fmt dims a hr hn hn' hd hd' hf hdims ha hnew hin hconf
    have hform : (if n.toNat < 1 ∨ 0xFFF < n.toNat ∨ dims.length < 1 ∨ 8 < dims.length ∨ (elemKind fmt.toNat).isNone = true ∨
        (dims.zipIdx.any (fun e => !dimForm e.2 e.1)) = true then some Status.badParam else none) = none := by
      have hany : (dims.zipIdx.any (fun e => !dimForm e.2 e.1)) = false := by simpa using hdims
      refine if_neg ?_
      rintro (hbad | hbad | hbad | hbad | hbad | hbad)
      · omega
      · omega
      · omega
      · omega
      · exact absurd (Option.isNone_iff_eq_none.mp hbad) (Option.isSome_iff_ne_none.mp hf)
      · exact absurd hbad (by rw [hany]; decide)
    refine congrArg Host.Outcome.next ((submit_module _ _ _ rfl hr hform rfl).trans ?_)
    rw [show s.taken.allot? h.allot.toNat = some a from ha]
    refine (if_neg (by simp [hnew])).trans ((if_neg ?_).trans (if_neg ?_))
    · rw [Bool.not_eq_true, Bool.not_eq_false']
      exact hin
    · rw [Bool.not_eq_true]
      exact hconf
  · intro s h n a x hr ha hx
    refine congrArg Host.Outcome.next ((submit_module _ _ _ rfl hr rfl rfl).trans ?_)
    rw [show s.taken.allot? h.allot.toNat = some a from ha]
    exact if_neg (by simp [hx])

end Sys2Proof.Machine
end

section
/-!
PROOF. O17 to O19 (R61 to R75, R395, R398, R404 to R411, R457): the packet window and the header checks, the reply ring, and the ports with
their registers and links.
-/

namespace Sys2Proof.Machine

/-! ### The packet window -/

section
variable {s : State} {p : PortIx} {off : Nat} {data : List Byte} (hrel : s.boot.released = true) (hre : (s.port p).reached = true)
include hrel hre

theorem exec_windowWrite_halted (hh : (s.port p).halted = true) :
    exec (.windowWrite p off data) s = .next (s.modPort p (fun x => { x with dropped := min (x.dropped + 1) 1023 })) :=
  congrArg Host.Outcome.next ((if_neg (by simp [hrel, hre])).trans (if_pos hh))

variable (hh : (s.port p).halted = false)
include hh

theorem exec_windowWrite_misaligned (ho : off % 4 ≠ 0 ∨ data.length % 4 ≠ 0) :
    exec (.windowWrite p off data) s = .next (haltWindow s p 3) :=
  congrArg Host.Outcome.next ((if_neg (by simp [hrel, hre])).trans ((if_neg (by simp [hh])).trans (if_pos (by simpa using ho))))

theorem exec_windowWrite_aligned (h1 : off % 4 = 0) (h2 : data.length % 4 = 0) {d : List Byte} (hd : d = data.take (windowBytes - off)) :
    exec (.windowWrite p off data) s = .next (
      if ((List.range (d.length / 4)).map (fun i => off / 4 + i)).any (fun k => (s.port p).wordPresent (k / 2)) then haltWindow s p 2
      else s.modPort p (fun x => { x with win := putHalves x.win (off / 4) d })) := by
  subst hd
  exact congrArg Host.Outcome.next ((if_neg (by simp [hrel, hre])).trans ((if_neg (by simp [hh])).trans (if_neg (by simp [h1, h2]))))

end

/-- A packet that the header checks have seen. -/
theorem arrived_good {s : State} {src : Src} {b : List Byte} {received : State → Instr → State} {k : Checked × State} {c : Instr}
    (hk : k = checkPacket s src b) (hc : k.1 = .good c) : arrived s src b received = received k.2 c := by
  subst hk
  simp only [arrived, hc]

theorem arrived_refused {s : State} {src : Src} {b : List Byte} {received : State → Instr → State} {k : Checked × State} {st : Status}
    (hk : k = checkPacket s src b) (hc : k.1 = .refused st) :
    arrived s src b received = answerCheck k.2 (.nop ((rawHdr b).hdr src b) []) (.header st (b.take 16))
      (fun s id => headerReplyAs s id src b st) := by
  subst hk
  simp only [arrived, hc]

theorem arrived_flawed {s : State} {src : Src} {b : List Byte} {received : State → Instr → State} {k : Checked × State} {c : Instr}
    {st : Status} (hk : k = checkPacket s src b) (hc : k.1 = .flawed c st) :
    arrived s src b received = answerCheck k.2 c (.form st) (fun s id => formReplyAs s id c st) := by
  subst hk
  simp only [arrived, hc]

/-- A packet that is whole is taken and goes to its header checks. -/
theorem exec_packetTaken_whole {s : State} {p : PortIx} (ht : mayTake s p = true) {n : Nat}
    (hn : n = (rawHdr ((s.port p).packetBytes 2)).words) (h2 : 2 ≤ n) (h8 : n ≤ 8192)
    (hw : ∀ w ∈ (s.port p).packetWords n, (s.port p).wordPresent w = true) :
    exec (.packetTaken p) s =
      .next (arrived (s.modPort p (fun x => x.taking n)) (.port p) ((s.port p).packetBytes n) receiveCmd) := by
  subst hn
  have hall : ((s.port p).packetWords (rawHdr ((s.port p).packetBytes 2)).words).all (s.port p).wordPresent = true := by simpa using hw
  refine congrArg Host.Outcome.next ((if_neg (by simp [ht])).trans ((if_neg ?_).trans (if_neg ?_)))
  · show ¬((rawHdr ((s.port p).packetBytes 2)).words < 2 ∨ 8192 < (rawHdr ((s.port p).packetBytes 2)).words)
    omega
  · simp [hall]

/-- Settles O17: a write by the state of its window, a packet by its LENGTH and its header checks, a held packet by its verdict. -/
theorem windowEventsComplete : Obligations.WindowEventsComplete := by
  unfold Obligations.WindowEventsComplete
  refine ⟨?_, ?_, ?_, ?_⟩
  · intro s p off data hrel hre
    refine ⟨exec_windowWrite_halted hrel hre, exec_windowWrite_misaligned hrel hre, fun hh h1 h2 d hd => ⟨?_, ?_⟩⟩
    · rintro ⟨k, hk, hp⟩
      rw [exec_windowWrite_aligned hrel hre hh h1 h2 hd, if_pos]
      simpa using ⟨k, hk, hp⟩
    · intro hfree
      rw [exec_windowWrite_aligned hrel hre hh h1 h2 hd, if_neg]
      simpa using hfree
  · exact fun s p hre => congrArg Host.Outcome.next (if_pos hre)
  · intro s p ht n b t k hn hb htt hk
    refine ⟨fun hlen => ?_, fun h2 h8 hw => ⟨fun c hc => ?_, fun st hc => ?_, fun c st hc => ?_⟩⟩
    · subst hn
      exact congrArg Host.Outcome.next ((if_neg (by simp [ht])).trans (if_pos hlen))
    all_goals
      subst hb htt
      rw [exec_packetTaken_whole ht hn h2 h8 hw]
    · exact congrArg Host.Outcome.next (arrived_good hk hc)
    · exact congrArg Host.Outcome.next (arrived_refused hk hc)
    · exact congrArg Host.Outcome.next (arrived_flawed hk hc)
  · intro s p w hw rest hrest
    subst hrest
    have hrun : exec (.fenceRelease p) s = .next (releaseFence s w) := by
      simp only [exec, execFenceRelease, hw]
    have hsrc : srcOf w.cmd = some (Src.port p) := by
      have hfound := List.find?_some hw
      simp only [Bool.and_eq_true, decide_eq_true_eq] at hfound
      exact hfound.2
    refine ⟨fun hv => ?_, fun st hv => ?_, fun st b hv => ?_⟩
    · rw [hrun, releaseFence, hv]
    · rw [hrun, releaseFence, hv]
    · rw [hrun, releaseFence, hv]
      simp only [hsrc]

/-! ### The reply ring -/

/-- A ring's configuration, and whether it is in use. -/
def Port.config (x : Port) : Bool × W64 × BitVec 5 × Bool := (x.enable, x.replyBase, x.replySize, x.upEvent)

theorem Port.config_signal (x : Port) : x.signal.config = x.config := by
  unfold Port.signal
  dsimp only
  split <;> rfl

theorem Port.config_recheck (x : Port) : x.recheck.config = x.config := by
  unfold Port.recheck
  dsimp only
  split
  · exact Port.config_signal _
  · rfl

/-- A port with the settings of a `REPLYCTL` write, and the messages they call for. -/
def Port.settings (v : W32) (x : Port) : Port :=
  Port.recheck { x with
    irqEn := bitOf v.toNat 1, vector := BitVec.ofNat 6 (v.toNat / 4), coalesceCount := BitVec.ofNat 8 (v.toNat / 2 ^ 8),
    coalesceTime := BitVec.ofNat 12 (v.toNat / 2 ^ 16), headErr := x.headErr && !bitOf v.toNat 29, cfgErr := x.cfgErr && !bitOf v.toNat 30 }

theorem Port.settings_kept (v : W32) (x : Port) : (x.settings v).enable = x.enable ∧ (x.settings v).replyBase = x.replyBase ∧
    (x.settings v).replySize = x.replySize ∧ (x.settings v).upEvent = x.upEvent := by
  have hkept : (x.settings v).config = x.config := Port.config_recheck _
  simpa only [Port.config, Prod.mk.injEq] using hkept

theorem bitOf_zero (v : W32) : bitOf v.toNat 0 = v.getLsbD 0 := by
  rw [Bool.eq_iff_iff]
  simp [bitOf, BitVec.getLsbD, Nat.testBit]

theorem State.modPort_setPort (s : State) (p : PortIx) (f : Port → Port) (x : Port) : (s.modPort p f).setPort p x = s.setPort p x := by
  cases p <;> rfl

section
variable {s : State} {p : PortIx} {v : W32}

theorem exec_replyRingEnable (hre : (s.port p).reached = true) (hv : v.getLsbD 0 = true) :
    exec (.replyRingEnable p v) s = .next (s.writeReplyCtl p v) :=
  congrArg Host.Outcome.next ((if_pos hre).trans (if_pos hv))

/-- What a write of `REPLYCTL` does, by its ENABLE and the ring's. -/
theorem writeReplyCtl_eq : s.writeReplyCtl p v =
    let x := (s.port p).settings v
    if v.getLsbD 0 then
      if x.enable then s.modPort p (Port.settings v)
      else if !x.cfgOk then s.setPort p { x with cfgErr := true }
      else
        let t := s.setPort p { x with
          enable := true, latchedBase := (s.port p).replyBase, latchedLog2 := (s.port p).replySize.toNat,
          head := 0, tail := 0, phase := true, evSeq := 1, evLost := 0, lostSince := 0, unsignalled := 0, timerArmed := false,
          upEvent := false }
        if x.upEvent then t.hostLink p p 1 0 else t
    else if x.enable then (s.modPort p (Port.settings v)).disableRing p else s.modPort p (Port.settings v) := by
  obtain ⟨-, k2, k3, -⟩ := Port.settings_kept v (s.port p)
  rw [← k2, ← k3]
  unfold State.writeReplyCtl
  simp only [State.port_modPort, State.modPort_setPort, bitOf_zero]
  rfl

end

/-- Settles O18: each event's condition is met, and the branch it takes is the clause. -/
theorem ringEventsComplete : Obligations.RingEventsComplete := by
  unfold Obligations.RingEventsComplete
  refine ⟨?_, ?_, ?_, ?_, ?_, ?_, ?_⟩
  · intro s p k rest hhold hen hfit x n u y hx hn hu hy
    subst hx hn hu hy
    refine congrArg (fun z => Host.Outcome.next ((s.setPort p z).drainStore p).flushWatches) (?_ : (s.port p).writeHead = _)
    have hgo : (!(s.port p).enable || !(s.port p).headFits) = false := by rw [hen, hfit]; rfl
    simp only [Port.writeHead, hhold, hgo, Bool.false_eq_true, if_false, decide_eq_true_eq]
  · exact fun s p v hre => congrArg Host.Outcome.next (if_pos hre)
  · intro s p v hre hv hen hcfg t ht
    obtain ⟨k1, k2, k3, k4⟩ := Port.settings_kept v (s.port p)
    have hcfg' : ((s.port p).settings v).cfgOk = true := by simpa only [Port.cfgOk, k2, k3] using hcfg
    subst ht
    rw [exec_replyRingEnable hre hv, writeReplyCtl_eq, ← k4]
    exact congrArg Host.Outcome.next ((if_pos hv).trans ((if_neg (by rw [k1, hen]; decide)).trans (if_neg (by rw [hcfg']; decide))))
  · intro s p v hre hv hen hcfg
    obtain ⟨k1, k2, k3, -⟩ := Port.settings_kept v (s.port p)
    have hcfg' : ((s.port p).settings v).cfgOk = false := by simpa only [Port.cfgOk, k2, k3] using hcfg
    rw [exec_replyRingEnable hre hv, writeReplyCtl_eq]
    exact congrArg Host.Outcome.next ((if_pos hv).trans ((if_neg (by rw [k1, hen]; decide)).trans (if_pos (by rw [hcfg']; rfl))))
  · intro s p v hre hv hen
    obtain ⟨k1, -, -, -⟩ := Port.settings_kept v (s.port p)
    have hrun : exec (.replyRingDisable p v) s = .next (s.writeReplyCtl p v) :=
      congrArg Host.Outcome.next ((if_pos hre).trans (if_neg (by rw [hv]; decide)))
    rw [hrun, writeReplyCtl_eq]
    simp only [hv, k1, hen, Bool.false_eq_true, if_false, if_true]
    rfl
  · intro s p ht hu hi
    refine congrArg (fun z => Host.Outcome.next (s.setPort p z)) ((if_pos ?_).trans (if_pos hi))
    simp [ht, hu]
  · intro s p hen hl hh hg
    exact congrArg Host.Outcome.next (if_pos (by simp [hen, hl, hh, hg]))

/-! ### Ports -/

/-- Settles O19: each event's condition is met, and the branch it takes is the clause. -/
theorem portEventsComplete : Obligations.PortEventsComplete := by
  unfold Obligations.PortEventsComplete
  refine ⟨?_, ?_, ?_, ?_, ?_, ?_, ?_, ?_, ?_⟩
  · intro s p off v hre h4 w hw
    subst hw
    refine ⟨?_, ?_, ?_, ?_, ?_⟩
    · rintro rfl
      simp [exec, execRegisterWrite, hostAccess, hre, configBase, writeReg, State.modPort]
    · rintro rfl
      simp [exec, execRegisterWrite, hostAccess, hre, configBase, writeReg, State.modPort]
    · rintro rfl
      simp [exec, execRegisterWrite, hostAccess, hre, configBase, writeReg, State.modPort]
    · rintro rfl
      simp [exec, execRegisterWrite, hostAccess, hre, configBase, writeReg, State.modPort]
    · intro hoff
      simp only [List.mem_cons, List.not_mem_nil, or_false] at hoff
      obtain rfl | rfl | rfl | rfl | rfl := hoff <;> simp [exec, execRegisterWrite, hostAccess, hre, configBase, writeReg]
  · intro s p off v hre h8 hoff
    refine congrArg Host.Outcome.next ((if_neg (by rw [configBase]; omega)).trans ((if_pos hre).trans ((if_neg (by simp)).trans (if_pos ?_))))
    simp [h8]
  · exact fun s p => rfl
  · intro s p t hup ht
    subst ht
    exact congrArg Host.Outcome.next (if_neg (by simp [hup]))
  · exact fun s p => ⟨rfl, rfl⟩
  · intro s p sp w hg hper hdown hs hw t ht
    subst ht
    exact congrArg Host.Outcome.next (if_neg (by simp [hg, hper, hdown, hs, hw]))
  · intro s p hdown hgrace
    exact congrArg Host.Outcome.next (if_neg (by simp [hdown, hgrace]))
  · intro s addr fpl b k hrel hlen hwords hk c hc
    refine congrArg Host.Outcome.next ((if_neg (by simp [hrel])).trans ((if_neg (by omega)).trans ((if_neg (by simp [hwords])).trans ?_)))
    exact arrived_good hk hc
  · intro s b k c hst hrn hbusy h16 h4096 hwords hk hc
    refine congrArg Host.Outcome.next ((if_neg ?_).trans ((if_neg (by omega)).trans ((if_neg (by simp [hwords])).trans ?_)))
    · simp [hst, hrn, hbusy, h16, h4096]
    · exact arrived_good hk hc

end Sys2Proof.Machine
end

section
/-!
PROOF. O20 (R42 to R46, R49, R88, R116): the lodges step by step. Each row looks its command up, and the clause is the branch that the
command and the member take.
-/

namespace Sys2Proof.Machine

section
variable {s : State} {op : Nat} {m : BitVec 24} {o : Op} {d : UnitDef} {h : Hdr} {i : CmdInfo}

/-- A command that waits alone is admitted. -/
theorem exec_lodgeAdmit {id : Nat} {w : Waiting}
    (hw : s.lodge.waiting.find? (fun w => decide (w.id = id) && w.fencedBy.isEmpty && decide (w.verdict = .admitted)) = some w)
    (hm : mustWait s (s.lodge.waiting.takeWhile (fun v => decide (v.id ≠ id))) w.cmd = false) :
    exec (.lodgeAdmit id) s =
      .next (admitNow { s with lodge := { s.lodge with waiting := s.lodge.waiting.filter (fun v => decide (v.id ≠ id)) } } id w.cmd) := by
  simp only [exec, execLodgeAdmit, hw, hm, Bool.false_eq_true, if_false]

theorem admitNow_unit {id : Nat} {c : Instr} {t : State} (hd : unitDefOf c = some d) (hc : cmdOf c = some (h, i)) (hs : h.src ≠ .sideband)
    (ha : admitUnit t c h i d = none) (hr : d.resource t (selOf h.path h.mask) = none) :
    admitNow t id c =
      let u := t.callDies ((Op.begin id c h d.level3).todo.flatMap (fun g => feedRoute lodgeFeed (g / 16)))
      { u with lodge := { u.lodge with ops := u.lodge.ops ++ [Op.begin id c h d.level3] } } := by
  have hon : admitOn t c h i d = none := by
    rw [admitOn, if_neg hs, ha, hr]
    rfl
  simp only [admitNow, hd, hc, hon]

theorem admitNow_module {id : Nat} {c : Instr} {t : State} (hd : unitDefOf c = none) : admitNow t id c = moduleNow c id t := by
  simp only [admitNow, hd]

variable (ho : s.lodge.ops.find? (fun o => decide (o.id = op) && decide (o.wait = .members)) = some o) (hc : cmdOf o.cmd = some (h, i))
include ho hc

/-- A command that nothing holds reaches a sheaf. -/
theorem exec_commandArrival {g : SheafIx} {errs : List MemErr} (hd : arrivalDef o.cmd errs = some d) (hg : g.val ∈ o.todo)
    (hh : arrivalHeld s o.cmd g = false) (hl : lodgeHolds s g = false) {a : State × MemberRes}
    (ha : a = arriveAt (wakeRoute s (g / 16)) o.cmd h d o.deaf g) :
    exec (.commandArrival op g errs) s = .next (a.1.putOp { o with
      todo := o.todo.filter (fun x => decide (x ≠ g.val)), acting := o.acting ++ [a.2] }).flushWatches := by
  have hop : s.memberOp op = some o := ho
  have hgo : (o.todo.contains g.val && !arrivalHeld s o.cmd g && !lodgeHolds s g) = true := by simp [hg, hh, hl]
  subst ha
  simp only [exec, execCommandArrival, hop, hd, hc, hgo, if_true]

variable (hd : unitDefOf o.cmd = some d)
include hd

theorem exec_memberReply (hl : lodgeHolds s (memberSheaf m) = false) : exec (.memberReply op m) s = .next (
    if pathDepth m = 2 && o.acting.any (fun x => decide (x.sheaf = memberSheaf m) && !x.replied) then sheafReply s o h (memberSheaf m)
    else if pathDepth m = 1 && !(o.ofDie (pathDigit m 1)).isEmpty &&
        (o.ofDie (pathDigit m 1)).all (fun g => o.acting.any (fun x => decide (x.sheaf = g) && x.replied)) then
      dieReply s o h d (pathDigit m 1)
    else s) := by
  have hop : s.memberOp op = some o := ho
  simp only [exec, execMemberReply, hop, hd, hc, hl, Bool.false_eq_true, if_false]

/-- A silent member takes the sheaves below it out of the command. -/
theorem exec_memberSilent_sheaves (hp : pathInvalid m = false) {gs : List Nat} (hgs : gs ≠ []) (h3 : pathDepth m ≠ 3)
    (hbelow : (if pathDepth m = 1 then o.ofDie (pathDigit m 1)
      else if pathDepth m = 2 && (o.todo.contains (memberSheaf m) || o.acting.any (fun x => decide (x.sheaf = memberSheaf m) && !x.replied)) &&
        decide ((s.sheaf (memberSheaf m)).power = .awake) then [memberSheaf m] else []) = gs) :
    exec (.memberSilent op m) s =
      let r := gs.foldl (silenceSheaf h d) (s, o)
      .next (settleMembers (noteSilent r.1 o (waitingLodge m)
        (BitVec.ofNat 24 ((lowest (gs.flatMap (fun g => (silentCount s h d.level3 g).map (unitPath d.level3 g)))).getD 0))
        (r.2.silent - o.silent)) d r.2) := by
  have hop : s.memberOp op = some o := ho
  simp only [exec, execMemberSilent, hop, hd, hc, hp, Bool.false_eq_true, if_false, h3]
  simp only [hbelow, hgs, if_false]

/-- A silent L2 lodge of a sheaf that the command is on its way to. -/
theorem exec_memberSilent_l2 (hp : pathInvalid m = false) (h3 : pathDepth m = 3) (hl : d.level3 = false) (hg : memberSheaf m ∈ o.todo)
    (ha : (s.sheaf (memberSheaf m)).power = .awake) (hdeaf : o.deaf.contains (16 * memberSheaf m + pathDigit m 3) = false) :
    exec (.memberSilent op m) s = .next (silenceL2 s o h m).flushWatches := by
  have hop : s.memberOp op = some o := ho
  have hwait : o.todo.contains (memberSheaf m) = true := List.contains_iff_mem.mpr hg
  have hgo : (d.level3 || !(o.todo.contains (memberSheaf m) || o.acting.any (fun x => decide (x.sheaf = memberSheaf m) && !x.replied)) ||
      decide ((s.sheaf (memberSheaf m)).power ≠ .awake) || o.deaf.contains (16 * memberSheaf m + pathDigit m 3)) = false := by
    rw [hl, hwait, ha, hdeaf]
    rfl
  simp only [exec, execMemberSilent, hop, hd, hc, hp, Bool.false_eq_true, if_false, h3, if_true, hgo]

end

/-- Settles O20: each clause is the branch of its row that the command and the member take. -/
theorem lodgeEventsComplete : Obligations.LodgeEventsComplete := by
  unfold Obligations.LodgeEventsComplete
  refine ⟨?_, ?_, ?_, ?_, ?_, ?_⟩
  · intro s id w d h i hw hm t ht
    subst ht
    rw [exec_lodgeAdmit hw hm]
    refine ⟨fun hd hc hs ha hr u hu => ?_, fun hd => congrArg Host.Outcome.next (admitNow_module hd)⟩
    subst hu
    exact congrArg Host.Outcome.next (admitNow_unit hd hc hs ha hr)
  · exact fun s op g errs o d h i ho hd hc hg hh hl a ha => exec_commandArrival ho hc hd hg hh hl ha
  · intro s op m o d h i ho hd hc hl
    rw [exec_memberReply ho hc hd hl]
    refine ⟨fun h2 hx => ?_, fun h1 hne hall mine p hmine hp => ?_⟩
    · obtain ⟨x, hmem, hx, hrep⟩ := hx
      have hany : o.acting.any (fun x => decide (x.sheaf = memberSheaf m) && !x.replied) = true :=
        List.any_eq_true.mpr ⟨x, hmem, by simp [hx, hrep]⟩
      exact congrArg Host.Outcome.next (if_pos (by rw [h2, hany]; rfl))
    · have hdie : (o.ofDie (pathDigit m 1)).all (fun g => o.acting.any (fun x => decide (x.sheaf = g) && x.replied)) = true := by
        rw [List.all_eq_true]
        intro g hg
        obtain ⟨x, hmem, hx, hrep⟩ := hall g hg
        exact List.any_eq_true.mpr ⟨x, hmem, by simp [hx, hrep]⟩
      have hsome : (o.ofDie (pathDigit m 1)).isEmpty = false := by simpa using hne
      subst hp hmine
      exact congrArg Host.Outcome.next ((if_neg (by simp [h1])).trans (if_pos (by rw [h1, hsome, hdie]; rfl)))
  · intro s op m o d h i ho hd hc hp
    refine ⟨fun h2 hg ha live n u r hlive hn hu hr => ?_, fun h3 hl hg ha hdeaf => exec_memberSilent_l2 ho hc hd hp h3 hl hg ha hdeaf,
      fun h1 hne r hr => ?_⟩
    · have hwait : o.todo.contains (memberSheaf m) = true := List.contains_iff_mem.mpr hg
      rw [exec_memberSilent_sheaves ho hc hd hp (gs := [memberSheaf m]) (by simp) (by omega)
        (by rw [h2, hwait, ha]; rfl)]
      have hunits : silentUnits s h d.level3 (memberSheaf m) = live := hlive.symm
      have hcount : silentCount s h d.level3 (memberSheaf m) = n := by
        rw [hn, hlive]
        cases hl : d.level3 with
        | true => rw [silentCount, if_pos rfl, if_pos rfl]
        | false => rfl
      have hsilent : silenceSheaf h d (s, o) (memberSheaf m) = (u, r o) := by
        rw [hu, hr, silenceSheaf, hunits, hcount, markSilent, if_neg (by simp [ha])]
      simp only [List.foldl_cons, List.foldl_nil, hsilent, List.flatMap_cons, List.flatMap_nil, List.append_nil, hcount, waitingLodge, h2]
      rfl
    · subst hr
      rw [exec_memberSilent_sheaves ho hc hd hp hne (by omega) (if_pos h1)]
      rw [waitingLodge, if_pos h1]
  · intro s k w hw
    simp only [exec, execMemberSilentCoalesce, hw]
  · exact fun s g k reed h1 h5 => congrArg Host.Outcome.next (if_pos ⟨h1, h5⟩)

end Sys2Proof.Machine
end

section
/-!
PROOF. O21 (R89, R98, R108, R225, R368, R391): the action of a command in progress ends with its reply.
-/

namespace Sys2Proof.Machine

section
variable {s : State} {id : Nat} {o : Op} (ho : s.lodge.ops.find? (fun o => decide (o.id = id) && decide (o.wait = .action)) = some o)
include ho

theorem exec_actionComplete_unit {d : UnitDef} {data : ActionData} (hd : unitDefOf o.cmd = some d) :
    exec (.commandActionComplete id data) s = .next (finishUnit (domainsOff (s.dropOp o.id) o.cmd) d o).flushWatches := by
  simp only [exec, execCommandActionComplete, ho, hd]

theorem exec_actionComplete_module {data : ActionData} (hd : unitDefOf o.cmd = none) :
    exec (.commandActionComplete id data) s = .next (moduleDone s o data) := by
  simp only [exec, execCommandActionComplete, ho, hd]

end

section
variable {s : State} {o : Op}

theorem moduleDone_hostDma_in {h : Hdr} {dir : Byte} {host dev n : W64} {l : List Byte} {errs : List MemErr}
    (hcmd : o.cmd = .hostDma h dir host dev n) (hdir : dir = 0) (hp : portOf h ≠ none) (hl : l.length = n.toNat)
    (hheld : memHeld s (sectorsOf dev.toNat n.toNat) = false) : moduleDone s o (.bytes l errs) = dmaIn s o dev.toNat l errs .ok := by
  obtain ⟨p, hp⟩ := Option.ne_none_iff_exists'.mp hp
  simp only [moduleDone, hcmd, hp]
  simp [dmaDone, hdir, hl, hheld]

theorem moduleDone_hostDma_out {h : Hdr} {dir : Byte} {host dev n : W64} {p : PortIx} {errs : List MemErr}
    (hcmd : o.cmd = .hostDma h dir host dev n) (hdir : dir ≠ 0) (hp : portOf h = some p)
    (hheld : memHeld s (sectorsOf dev.toNat n.toNat) = false) :
    moduleDone s o (.found errs) = dmaOut s o p host.toNat dev.toNat n.toNat errs := by
  simp only [moduleDone, hcmd, hp, hdir, dmaDone, hheld, Bool.false_eq_true, if_false]

theorem moduleDone_memFill {h : Hdr} {dev n pattern : W64} {errs : List MemErr} (hcmd : o.cmd = .memFill h dev n pattern)
    (hheld : memHeld s (sectorsOf dev.toNat n.toNat) = false) :
    moduleDone s o (.found errs) =
      let t := wholeChecks s dev.toNat n.toNat errs
      finishModule ((wholeLands t dev.toNat (fillBytes pattern n.toNat)).dropOp o.id) o.id o.cmd
        (if landed t dev.toNat n.toNat < n.toNat then .okDegraded else .ok) (leBytes 8 (landed t dev.toNat n.toNat)) := by
  simp only [moduleDone, hcmd, fillDone, hheld, Bool.false_eq_true, if_false]

theorem moduleDone_memRevoke {h : Hdr} {al : W16} {base : W64} {data : ActionData} {a : Allot} {g : Nat × Nat}
    (hcmd : o.cmd = .memRevoke h al base) (ha : s.allot? al.toNat = some a)
    (hg : a.revoking.find? (fun g => decide (g.1 = base.toNat)) = some g) (huse : rangeInUse s al.toNat g = false)
    (hret : retiringIn s g.1 g.2 = false) : moduleDone s o data = sendPrepared (revokeDone s al.toNat base.toNat) o := by
  simp only [moduleDone, hcmd, revocationDone, ha, Option.bind_some, hg, huse, hret, Bool.or_self, Bool.false_eq_true, if_false]

end

/-- Settles O21: a unit command ends by its own row, a module command by what its action was. -/
theorem commandActionsEnd : Obligations.CommandActionsEnd := by
  unfold Obligations.CommandActionsEnd
  intro s id o ho
  refine ⟨fun d data hd => exec_actionComplete_unit ho hd, ?_, ?_, ?_, ?_, ?_, ?_, ?_⟩
  · intro h dir host dev n l errs hcmd hdir hp hl hheld t ht
    subst ht
    rw [exec_actionComplete_module ho (by rw [hcmd]; rfl), moduleDone_hostDma_in hcmd hdir hp hl hheld, dmaIn]
    simp only [decide_eq_true_eq]
    rfl
  · intro h dir host dev n p errs hcmd hdir hp hheld t ht
    subst ht
    rw [exec_actionComplete_module ho (by rw [hcmd]; rfl), moduleDone_hostDma_out hcmd hdir hp hheld]
    rfl
  · intro h e out hcmd
    rw [exec_actionComplete_module ho (by rw [hcmd]; rfl)]
    simp only [moduleDone, hcmd, commissionDone]
  · intro h dev n pattern errs hcmd hheld t ht
    subst ht
    rw [exec_actionComplete_module ho (by rw [hcmd]; rfl), moduleDone_memFill hcmd hheld]
    rfl
  · intro h k hcmd
    rw [exec_actionComplete_module ho (by rw [hcmd]; rfl)]
    simp only [moduleDone, hcmd]
  · intro h a hcmd hret
    have hout : (s.chan (memChan a.toNat)).retiring.contains (memPage a.toNat) = false := by simpa using hret
    rw [exec_actionComplete_module ho (by rw [hcmd]; rfl)]
    simp only [moduleDone, hcmd, hout, Bool.false_eq_true, if_false]
  · intro h al base hcmd a g ha hg huse hret
    rw [exec_actionComplete_module ho (by rw [hcmd]; rfl), moduleDone_memRevoke hcmd ha hg huse hret, revokeDone, ha]

end Sys2Proof.Machine
end

section
/-!
PROOF. O58 (R89, R98, R378, R391): MEM_FILL is in progress until its action ends, and its end writes its range and nothing else.
-/

namespace Sys2Proof.Machine

/-! ### The bytes of a fill -/

theorem getElem?_leBytes {n k : Nat} (v : Nat) (hk : k < n) : (leBytes n v)[k]? = some (BitVec.ofNat 8 (v / 256 ^ k)) := by
  induction n generalizing v k with
  | zero => omega
  | succ n ih =>
    cases k with
    | zero => simp [leBytes]
    | succ k =>
      rw [leBytes, List.getElem?_cons_succ, ih _ (by omega), Nat.div_div_eq_div_mul, Nat.pow_succ']

theorem getElem?_flatten_replicate {α : Type} (l : List α) {m k : Nat} (hk : k < m * l.length) :
    (List.replicate m l).flatten[k]? = l[k % l.length]? := by
  induction m generalizing k with
  | zero => omega
  | succ m ih =>
    rw [List.replicate_succ, List.flatten_cons, List.getElem?_append]
    split
    next h => rw [Nat.mod_eq_of_lt h]
    next h => rw [ih (by rw [Nat.succ_mul] at hk; omega), ← Nat.mod_eq_sub_mod (by omega)]

theorem length_fillBytes (pattern : W64) {n : Nat} (hn : n % 8 = 0) : (fillBytes pattern n).length = n := by
  simp only [fillBytes, List.length_flatten, List.map_replicate, length_leBytes, List.sum_replicate, smul_eq_mul]
  omega

theorem getElem?_fillBytes (pattern : W64) {n k : Nat} (hn : n % 8 = 0) (hk : k < n) :
    (fillBytes pattern n)[k]? = some (BitVec.ofNat 8 (pattern.toNat / 256 ^ (k % 8))) := by
  rw [fillBytes, getElem?_flatten_replicate _ (by rw [length_leBytes]; omega), length_leBytes, getElem?_leBytes _ (by omega)]

/-! ### Whole sectors land -/

/-- The channels of memory alone changed. -/
def onlyChans (s t : State) : Prop := ∃ c, t = { s with mem := { s.mem with chans := c } }

theorem onlyChans_foldl {α : Type} {f : State → α → State} (hf : ∀ s a, onlyChans s (f s a)) (l : List α) (s : State) :
    onlyChans s (l.foldl f s) := by
  induction l generalizing s with
  | nil => exact ⟨s.mem.chans, rfl⟩
  | cons a l ih =>
    obtain ⟨c, hc⟩ := hf s a
    obtain ⟨c', hc'⟩ := ih (f s a)
    exact ⟨c', by rw [List.foldl_cons, hc', hc]⟩

theorem onlyChans_wakeChans (s : State) (secs : List Nat) : onlyChans s (s.wakeChans secs) := by
  refine onlyChans_foldl (fun s ch => ?_) _ s
  split
  · exact ⟨_, rfl⟩
  · exact ⟨s.mem.chans, rfl⟩

theorem onlyChans_fillCaches (s : State) (secs : List Nat) : onlyChans s (s.fillCaches secs) :=
  onlyChans_foldl (fun _ _ => ⟨_, rfl⟩) _ s

/-- A write of whole sectors that meets no error touches, before its bytes land, the channels' caches and self-refresh alone. -/
theorem wholeChecks_noErrs (s : State) (lo n : Nat) :
    sectorsKept s (wholeChecks s lo n []) ∧ onlyChans s (wholeChecks s lo n []) := by
  refine ⟨sectorsKept_trans (sectorsKept_wakeChans s _) (sectorsKept_fillCaches _ _), ?_⟩
  obtain ⟨c, hc⟩ := onlyChans_wakeChans s (sectorsOf lo n)
  obtain ⟨c', hc'⟩ := onlyChans_fillCaches (s.wakeChans (sectorsOf lo n)) (sectorsOf lo n)
  exact ⟨c', hc'.trans (by rw [hc])⟩

/-- What a range holds after bytes have landed on it. -/
theorem get_wholeLands {s : State} {lo a : Nat} {bs : List Byte} :
    (a < lo ∨ lo + bs.length ≤ a → KMap.get 0 (wholeLands s lo bs).mem.bytes a = KMap.get 0 s.mem.bytes a) ∧
    (∀ b, lo ≤ a → bs[a - lo]? = some b → sectorFailed s (a / 32) = false → KMap.get 0 (wholeLands s lo bs).mem.bytes a = b) := by
  have hmem : ∀ x b, (x, b) ∈ (bs.zipIdx lo).map (fun e => (e.2, e.1)) ↔ lo ≤ x ∧ bs[x - lo]? = some b := fun x b => by
    simp [List.mk_mem_zipIdx_iff_le_and_getElem?_sub]
  refine ⟨fun hout => ?_, fun b hlo hb hf => ?_⟩
  · refine get_storeBytes_of_not_mem s fun w hw hwa => ?_
    obtain ⟨hlo, hb⟩ := (hmem w.1 w.2).mp (List.mem_of_mem_filter hw)
    have hlt := (List.getElem?_eq_some_iff.mp hb).1
    omega
  · refine get_storeBytes_of_mem s (List.mem_filter.mpr ⟨(hmem a b).mpr ⟨hlo, hb⟩, by simp [hf]⟩) fun w hw hwa => ?_
    obtain ⟨-, hwb⟩ := (hmem w.1 w.2).mp (List.mem_of_mem_filter hw)
    rw [hwa, hb] at hwb
    exact (Option.some.inj hwb).symm

/-- Settles O58: before its end the command waits on the lodge's list alone; its end writes its pattern where it lands. -/
theorem fillWritesItsRange : Obligations.FillWritesItsRange := by
  unfold Obligations.FillWritesItsRange
  refine ⟨fun s h dev n pattern hr h1 h2 h3 h4 h5 hscope => ?_, fun s id o h dev n pattern ho hcmd hdev hn hheld => ?_⟩
  · exact ⟨_, _, exec_memFill hr h1 h2 h3 h4 h5 hscope, rfl, rfl, rfl, rfl, rfl, rfl, rfl⟩
  · obtain ⟨hkept, c, hc⟩ := wholeChecks_noErrs s dev.toNat n.toNat
    refine ⟨_, (exec_actionComplete_module ho (by rw [hcmd]; rfl)).trans (congrArg Host.Outcome.next (moduleDone_memFill hcmd hheld)), ?_⟩
    have hn8 : n.toNat % 8 = 0 := by omega
    have hreply := onlyReplied_finishModule ((wholeLands (wholeChecks s dev.toNat n.toNat []) dev.toNat (fillBytes pattern n.toNat)).dropOp o.id)
      o.id o.cmd (if landed (wholeChecks s dev.toNat n.toNat []) dev.toNat n.toNat < n.toNat then .okDegraded else .ok)
      (leBytes 8 (landed (wholeChecks s dev.toNat n.toNat []) dev.toNat n.toNat))
    obtain ⟨h1, h2, h3, -, -, -, h7, -⟩ := hreply
    have hget := fun a => get_wholeLands (s := wholeChecks s dev.toNat n.toNat []) (lo := dev.toNat) (a := a) (bs := fillBytes pattern n.toNat)
    rw [length_fillBytes _ hn8] at hget
    refine ⟨h1.trans (by rw [hc]; rfl), h3.trans (by rw [hc]; rfl), h7.trans (by rw [hc]; rfl), fun a hout => ?_, fun a hlo hhi hf => ?_⟩
    · rw [h2]
      refine ((hget a).1 hout).trans (by rw [hc])
    · rw [h2]
      exact (hget a).2 _ hlo (getElem?_fillBytes pattern hn8 (by omega)) (by rw [sectorFailed_congr hkept, hf])

end Sys2Proof.Machine
end

section
/-!
PROOF. O22, O23 (R101, R102, R322, R323, R329, R330, R334, R336, R338 to R341, R346): the fabric class.
-/

namespace Sys2Proof.Machine

/-! ### Allotments -/

/-- Sheaves free of any allotment. -/
theorem any_allotted_false {s : State} {w : BitVec 256} (hw : ∀ g ∈ setBits w, s.allotOf g = 0) :
    (setBits w).any (fun g => decide (s.allotOf g ≠ 0)) = false := by simpa using hw

theorem exec_allotCreate {s : State} {h : Hdr} {al : W16} {w : BitVec 256} {l : List W32}
    (hr : moduleReady s (.allotCreate h al w l) = true) (hform : allotForm al l = true) (hown : s.fabric.address ∈ l)
    (hnew : s.allot? al.toNat = none) (hw : ∀ g ∈ setBits w, s.allotOf g = 0) (hdrawn : drawnByOther s al.toNat = false)
    (hbusy : sheavesBusy s w = false) (hm : memberCheck s l = none) {x : Allot}
    (hx : x = { owner := ownerOf h, members := l, sheaves := w, fpl := BitVec.ofNat 8 (lowestFpl s l), det := false, grants := [],
                revoking := [], tensors := [], shape := none, routes := allotRoutes s l }) :
    exec (.allotCreate h al w l) s = .next (moduleOutcome s (closeBuffers { s.taken with allots := KMap.ins s.allots al.toNat x })
      (.allotCreate h al w l) .ok (leBytes 2 al.toNat ++ [x.fpl])) := by
  have hf : (if allotForm al l && l.contains s.fabric.address then none else some Status.badParam) = none :=
    if_pos (by rw [hform, List.contains_iff_mem.mpr hown]; rfl)
  have hfor : foreignAllot s h al.toNat = false := by
    rw [foreignAllot, hnew]
    split <;> rfl
  rw [exec_module s rfl rfl, moduleNow, allotCreateNow, submit_module _ _ _ rfl hr ?form ?scope]
  case form => exact hf
  case scope => exact hfor
  refine congrArg Host.Outcome.next ((if_neg ?_).trans ((if_neg ?_).trans ?_))
  · show ¬((s.allot? al.toNat).isSome || (setBits w).any (fun g => decide (s.allotOf g ≠ 0)) || drawnByOther s al.toNat) = true
    rw [hnew, any_allotted_false hw, hdrawn]
    decide
  · show ¬sheavesBusy s w = true
    rw [hbusy]
    decide
  · rw [memberCheck_taken, hm, allotRoutes_taken, hx]
    rfl

/-- An ALLOT_RESIZE of an allotment in scope goes to its OP. -/
theorem exec_allotResize {s : State} {h : Hdr} {al : W16} {op : Byte} {w : BitVec 256} {l : List W32} {x : Allot}
    (hr : moduleReady s (.allotResize h al op w l) = true) (hform : allotForm al l = true) (hop : op.toNat ≤ 1)
    (hx : s.allot? al.toNat = some x) (hfor : foreignAllot s h al.toNat = false) :
    exec (.allotResize h al op w l) s = .next (if op = 0 then resizeAdd s.taken s.lodge.nextId (.allotResize h al op w l) al x w l
      else resizeRemove s.taken s.lodge.nextId (.allotResize h al op w l) al x w l) := by
  have hf : (if allotForm al l && decide (op.toNat ≤ 1) && (s.allot? al.toNat).isSome then none else some Status.badParam) = none :=
    if_pos (by rw [hform, decide_eq_true hop, hx]; rfl)
  rw [exec_module s rfl rfl, moduleNow, allotResizeNow, submit_module _ _ _ rfl hr ?form ?scope, show s.taken.allot? al.toNat = some x from hx]
  case form => exact hf
  case scope => exact hfor

theorem resizeAdd_ok {s : State} {c : Instr} {a : W16} {x y : Allot} {w : BitVec 256} {l members : List W32}
    (hl : ∀ m ∈ l, m ∉ x.members) (hw : ∀ g ∈ setBits w, s.allotOf g = 0) (hdrawn : drawnByOther s a.toNat = false)
    (hbusy : sheavesBusy s w = false) (hmem : members = l.foldl (fun l m => insAddr m l) x.members) (hm : memberCheck s members = none)
    (hy : y = { x with members := members, sheaves := x.sheaves ||| w, fpl := resizeFpl s a x members, routes := allotRoutes s members }) :
    resizeAdd s.taken s.lodge.nextId c a x w l =
      moduleOutcome s (closeBuffers { s.taken with allots := KMap.ins s.allots a.toNat y }) c .ok (leBytes 2 0 ++ [y.fpl]) := by
  have hnew : l.any (fun m => x.members.contains m) = false := by simpa using hl
  refine (if_neg ?_).trans ((if_neg ?_).trans ?_)
  · show ¬(l.any (fun m => x.members.contains m) || (setBits w).any (fun g => decide (s.allotOf g ≠ 0)) || drawnByOther s a.toNat) = true
    rw [hnew, any_allotted_false hw, hdrawn]
    decide
  · show ¬sheavesBusy s w = true
    rw [hbusy]
    decide
  · dsimp only
    rw [← hmem, memberCheck_taken, hm, allotRoutes_taken, hy]
    rfl

theorem resizeRemove_ok {s : State} {c : Instr} {a : W16} {x y : Allot} {w : BitVec 256} {l members : List W32}
    (hl : ∀ m ∈ l, m ∈ x.members) (hw : w &&& ~~~x.sheaves = 0) (hown : s.fabric.address ∉ l) (hbusy : sheavesBusy s w = false)
    (hmem : members = x.members.filter (fun m => !l.contains m)) (hm : memberCheck s members = none)
    (hy : y = { x with members := members, sheaves := x.sheaves &&& ~~~w, fpl := resizeFpl s a x members, routes := allotRoutes s members }) :
    resizeRemove s.taken s.lodge.nextId c a x w l =
      moduleOutcome s (closeBuffers (dropHandles { s.taken with allots := KMap.ins s.allots a.toNat y } a w)) c .ok
        (leBytes 2 0 ++ [y.fpl]) := by
  have hin : l.any (fun m => !x.members.contains m) = false := by simpa using hl
  refine (if_neg ?_).trans ((if_neg ?_).trans ((if_neg ?_).trans ?_))
  · rw [hin, hw]
    decide
  · show ¬l.contains s.fabric.address = true
    simpa using hown
  · show ¬sheavesBusy s w = true
    rw [hbusy]
    decide
  · dsimp only
    rw [← hmem, memberCheck_taken, hm, allotRoutes_taken, hy]
    rfl

theorem exec_allotDissolve {s : State} {h : Hdr} {al : W16} {x : Allot} (hr : moduleReady s (.allotDissolve h al) = true)
    (hx : s.allot? al.toNat = some x) (hfor : foreignAllot s h al.toNat = false) (hbusy : sheavesBusy s x.sheaves = false) {t : State}
    (ht : t = undraw (dissolveColls s.taken al) al) :
    exec (.allotDissolve h al) s = .next (dissolved (closeBuffers { t with allots := KMap.del t.allots al.toNat })
      s.lodge.nextId (.allotDissolve h al) (s.topAmong (setBits x.sheaves)) []) := by
  have hf : (if (s.allot? al.toNat).isNone then some Status.badParam else none) = none := if_neg (by simp [hx])
  rw [exec_module s rfl rfl, moduleNow, allotDissolveNow, submit_module _ _ _ rfl hr ?form ?scope,
    show s.taken.allot? al.toNat = some x from hx]
  case form => exact hf
  case scope => exact hfor
  have hdis : dissolve s.taken al = closeBuffers { t with allots := KMap.del t.allots al.toNat } := by rw [ht]; rfl
  have htop : s.taken.topAmong (setBits x.sheaves) = s.topAmong (setBits x.sheaves) := rfl
  have hbusy' : sheavesBusy s.taken x.sheaves = false := hbusy
  simp only [hdis, htop, hbusy', Bool.false_eq_true, if_false]

/-- Settles O22: each command's checks pass, and its body is the clause. -/
theorem allotmentCommandsComplete : Obligations.AllotmentCommandsComplete := by
  unfold Obligations.AllotmentCommandsComplete
  refine ⟨?_, ?_, ?_, ?_, ?_, ?_⟩
  · exact fun s h al w l hr hf hown hnew hw hdrawn hbusy hm x hx => exec_allotCreate hr hf hown hnew hw hdrawn hbusy hm hx
  · exact fun s h al x hr hx hfor hbusy t ht => exec_allotDissolve hr hx hfor hbusy ht
  · intro s h al w l x hr hf hx hfor hl hw hdrawn hbusy members y hmem hm hy
    rw [exec_allotResize hr hf (by decide) hx hfor, if_pos rfl, resizeAdd_ok hl hw hdrawn hbusy hmem hm hy]
  · intro s h al w l x hr hf hx hfor hl hw hown hbusy members y hmem hm hy
    rw [exec_allotResize hr hf (by decide) hx hfor, if_neg (by decide), resizeRemove_ok hl hw hown hbusy hmem hm hy]
  · intro s h first l hr hl
    subst hl
    exact congrArg Host.Outcome.next (submit_module _ _ _ rfl hr rfl rfl)
  · intro s h a hr ha
    have hf : (if addrReserved a then some Status.badParam else none) = none := if_neg (by simp [ha])
    have hroute : queriedRoute s.taken h a = queriedRoute s h a := by
      rw [queriedRoute, routesTo_taken]
      rfl
    refine congrArg Host.Outcome.next ((submit_module _ _ _ rfl hr hf rfl).trans ?_)
    rw [hroute]
    rfl

/-! ### Maps -/

theorem exec_topoDraw {s : State} {h : Hdr} {shape ndim : Byte} {ext : List W16} {x : Allot}
    (hr : moduleReady s (.topoDraw h shape ndim ext) = true) (hs : shape.toNat ≤ 3) (hn : ndim ≠ 0) (hn4 : ndim.toNat ≤ 4)
    (hext : ∀ v ∈ ext.drop ndim.toNat, v = 0) (hgrade : s.boot.gradeB = false) (hx : s.allot? h.allot.toNat = some x)
    (hfits : shapeFits shape.toNat ndim.toNat ((ext.map BitVec.toNat).take ndim.toNat) x.members.length = true)
    (hone : s.allots.length ≤ 1) (hreach : allReached x.routes = true) {d : Nat → Draw} {jobs : List (Nat × Nat)}
    {maps : List (Nat × ColourMap)} {f : W64 × State} {t : State}
    (hd : d = fun k => ⟨k, x.members, shape.toNat, (ext.map BitVec.toNat).take ndim.toNat⟩)
    (hjobs : jobs = [5, 6, 7].flatMap (fun k => (drawEaves s.taken (d k)).map (fun e => (k, e)))) (hf : f = s.taken.fresh)
    (hmaps : maps = jobs.map (fun j => (j.2, drawnMap s.taken (d j.1) j.2 (f.1.setWidth 32))))
    (ht : t = { f.2 with allots := KMap.ins f.2.allots h.allot.toNat { x with
      shape := some (shape.toNat, (ext.map BitVec.toNat).take ndim.toNat) } }) :
    exec (.topoDraw h shape ndim ext) s = .next (moduleHeld s (maps.foldl (fun s m => drawEave s m.1 m.2 h.allot x.members) t)
      (.topoDraw h shape ndim ext) .ok (leBytes 4 jobs.length)) := by
  have hform : (if 3 < shape.toNat ∨ ndim = 0 ∨ 4 < ndim.toNat ∨ (ext.drop ndim.toNat).any (fun x => decide (x ≠ 0)) = true then
      some Status.badParam else if s.boot.gradeB then some .engineFused else none) = none := by
    have hzero : (ext.drop ndim.toNat).any (fun x => decide (x ≠ 0)) = false := by simpa using hext
    refine (if_neg ?_).trans (if_neg (by simp [hgrade]))
    rintro (hbad | hbad | hbad | hbad)
    · omega
    · exact hn hbad
    · omega
    · exact absurd hbad (by rw [hzero]; decide)
  rw [exec_module s rfl rfl, moduleNow, topoDrawNow, submit_module _ _ _ rfl hr ?form ?scope,
    show s.taken.allot? h.allot.toNat = some x from hx]
  case form => exact hform
  case scope => rfl
  have hgo : (!shapeFits shape.toNat ndim.toNat ((ext.map BitVec.toNat).take ndim.toNat) x.members.length ||
      decide (1 < s.taken.allots.length)) = false := by
    rw [hfits, show decide (1 < s.taken.allots.length) = false from decide_eq_false (Nat.not_lt.mpr hone)]
    rfl
  simp only [hgo, hreach, Bool.not_true, Bool.false_eq_true, if_false]
  subst hd hjobs hf hmaps ht
  rfl

/-- Settles O23: each command's checks pass, and its body is the clause. -/
theorem mapCommandsComplete : Obligations.MapCommandsComplete := by
  unfold Obligations.MapCommandsComplete
  refine ⟨?_, ?_⟩
  · intro s h shape ndim ext x hr hs hn hn4 hext hgrade hx hfits hone hreach d jobs maps f t hd hjobs hf hmaps ht
    exact exec_topoDraw hr hs hn hn4 hext hgrade hx hfits hone hreach (funext hd) hjobs hf hmaps ht
  · intro s h e m hr he hgrade hgood hup
    have hform : (if 7 < e.toNat ∨ mapGood e.toNat (s.eave e.toNat) m = false then some Status.badParam
        else if s.boot.gradeB then some .engineFused else none) = none := by
      rw [if_neg (by rw [hgood]; simp; omega), if_neg (by simp [hgrade])]
    have hrun : exec (.colourMapSet h e m) s = .next (if (s.eave e.toNat).arms.any (·.moving) then
        holdFor (.mapApplied e.toNat) (putMap s.taken e.toNat (some m) 0) s.lodge.nextId (.colourMapSet h e m) .ok []
        else finishModule (putMap s.taken e.toNat (some m) 0) s.lodge.nextId (.colourMapSet h e m) .ok []) := by
      rw [exec_module s rfl rfl, moduleNow, colourMapSetNow, submit_module _ _ _ rfl hr ?form ?scope]
      case form => exact hform
      case scope => rfl
      exact congrArg Host.Outcome.next (if_neg (by rw [show (s.taken.eave e.toNat).dataUp = true from hup]; decide))
    refine ⟨fun hstill => ?_, fun hmoves => ?_⟩
    · have hany : (s.eave e.toNat).arms.any (·.moving) = false := by simpa using hstill
      rw [hrun, if_neg (by rw [hany]; decide), putMap]
      exact congrArg (fun t => Host.Outcome.next (finishModule t _ _ _ _)) (if_neg (ne_true_of_eq_false hany))
    · have hany : (s.eave e.toNat).arms.any (·.moving) = true := by simpa using hmoves
      rw [hrun, if_pos hany, putMap]
      exact congrArg (fun t => Host.Outcome.next (holdFor _ t _ _ _ _)) (if_pos hany)

end Sys2Proof.Machine
end

section
/-!
PROOF. O24, O25 (R315 to R317, R320, R324 to R327, R332, R335, R342 to R346, R351): what happens on channels, and the discovery of the fabric.
-/

namespace Sys2Proof.Machine

/-! ### Channels -/

section
variable {s : State} {ch rev : Nat} {f : LinkFrame}

/-- A frame heard with a good CRC, after its acknowledgement has been taken. -/
theorem receiveFrame_good (hup : s.rxUp ch = true) (hcrc : f.crcOk = true) (hlen : f.payload.length ≤ 4200) {t : State}
    (ht : t = (if speaksOf s ch rev then hearBack s rev f else s)) :
    receiveFrame s ch rev f =
      if f.creditOnly then t
      else if f.lseq = (t.rx ch).next then
        acceptFrame (answerLink (t.modRx ch (fun c => { c with next := c.next + 1 })) ch false false 0 0) ch f
      else answerLink t ch (decide ((f.lseq - (t.rx ch).next).toNat < 0x8000)) false 0 0 := by
  subst ht
  exact (if_neg (by simp [hup])).trans ((if_neg (by simp [hcrc])).trans (if_neg (by omega)))

theorem receiveFrame_badCrc (hup : s.rxUp ch = true) (hcrc : f.crcOk = false) :
    receiveFrame s ch rev f = answerLink s ch true false 0 0 :=
  (if_neg (by simp [hup])).trans (if_pos (by simp [hcrc]))

end

/-- A message that has not been seen is taken. -/
theorem unseen_goes {s : State} {k : W32 × Byte × W32 × W16} (hrel : s.boot.released = true) (hk : k ∉ s.fabric.seen) :
    (!s.boot.released || s.fabric.seen.contains k) = false := by
  rw [hrel, Bool.not_true, Bool.false_or, ← Bool.not_eq_true, List.contains_iff_mem]
  exact hk

/-- News of a channel that has not been seen is taken and passed on once. -/
theorem exec_fabricControlFrame {s : State} {src msg : W32} {seg : W16} {via : Nat} {n : News} (hrel : s.boot.released = true)
    (hseen : (src, 4, msg, seg) ∉ s.fabric.seen) {t u x v : State}
    (ht : t = hopChanged { s with fabric := { s.fabric with seen := s.fabric.seen ++ [(src, 4, msg, seg)] } } n)
    (hu : u = (if !n.hop && decide (n.endB = t.fabric.address) then forgetRx t n.course n.endA else t))
    (hx : x = (if !n.up && decide (n.endB = u.fabric.address) && decide (261 ≤ n.chan) then u.modRx n.chan (fun _ => RxChan.reset) else u))
    (hv : v = relayNews x (if toldOf x n then List.range 8 else [via]) src msg seg n) :
    exec (.fabricControlFrame src msg seg via n) s =
      .next (if n.hop then v else rerouteColls v n.course n.endA n.endB s.allots) := by
  subst ht hu hx hv
  exact congrArg Host.Outcome.next (if_neg (ne_true_of_eq_false (unseen_goes hrel hseen)))

section
variable {s : State} {c : CopperIx} {lane : Nat} (ht : (s.copper c).trained = true) (hs : (s.copper c).serving.getLsbD lane = true)
  {bad rest : BitVec 9} (hbad : bad = (s.copper c).bad ||| laneSet [lane]) (hrest : rest = (s.copper c).serving &&& ~~~laneSet [lane])
include ht hs hbad hrest

/-- A copper lane that fails is swapped for the spare, where there is one. -/
theorem exec_copperLaneSwap_spare {spare : Nat} (hf : (List.range 9).find? (fun i => !rest.getLsbD i && !bad.getLsbD i) = some spare) :
    exec (.copperLaneSwap c lane) s = .next (resendAll (remapRecord (s.modCopper c (fun x => { x with
      serving := rest ||| laneSet [spare], bad := bad })) 0x0006 [BitVec.ofNat 8 c.val, BitVec.ofNat 8 lane, BitVec.ofNat 8 spare]) c.val) := by
  have hgo : (!(s.copper c).trained || !(s.copper c).serving.getLsbD lane) = false := by rw [ht, hs]; rfl
  subst hbad hrest
  simp only [exec, execCopperLaneSwap, hgo, hf, Bool.false_eq_true, if_false]

theorem exec_copperLaneSwap_none (hf : (List.range 9).find? (fun i => !rest.getLsbD i && !bad.getLsbD i) = none) :
    exec (.copperLaneSwap c lane) s = .next (if (setBits rest).length < 4
      then declareDown (s.modCopper c (fun x => { x with serving := rest, bad := bad })) c.val
      else linkEvent (s.modCopper c (fun x => { x with serving := rest, bad := bad })) 0 c.val 0 2) := by
  have hgo : (!(s.copper c).trained || !(s.copper c).serving.getLsbD lane) = false := by rw [ht, hs]; rfl
  subst hbad hrest
  simp only [exec, execCopperLaneSwap, hgo, hf, Bool.false_eq_true, if_false]

end

section
variable {s : State} {c : CopperIx} {peer : TableEntry} (hrel : s.boot.released = true)
  (hdom : s.courseDom c.val = .powering ∨ s.courseDom c.val = .awake) (hdown : (s.tx c.val).up = false)
include hrel hdom hdown

theorem courseTrained_goes :
    (!s.boot.released || decide (s.courseDom c.val ≠ .powering ∧ s.courseDom c.val ≠ .awake) || (s.tx c.val).up) = false := by
  rw [hrel, hdown]
  rcases hdom with h | h <;> rw [h] <;> rfl

theorem exec_courseTrained_miswired (hp : peer.addr ≠ copperAddr s.fabric.address c.val ∨ peer.addr = s.fabric.address) :
    exec (.courseTrained c peer) s = .next (miswireRecord (linkEvent (s.modCopper c (fun x => { x with
      trained := false, miswired := true, peer := some peer })) 0 c.val 0 0) c.val peer.addr) := by
  have hgo := courseTrained_goes hrel hdom hdown
  exact congrArg Host.Outcome.next ((if_neg (ne_true_of_eq_false hgo)).trans (if_pos hp))

theorem exec_courseTrained (hp : peer.addr = copperAddr s.fabric.address c.val) (hown : peer.addr ≠ s.fabric.address) {good : List Nat}
    (hgood : good = ((List.range 9).filter (fun i => !(s.copper c).bad.getLsbD i)).take 8) (h4 : 4 ≤ good.length) {t u v w : State}
    (ht : t = s.modCopper c (fun x => { x with trained := true, miswired := false, peer := some peer, serving := laneSet good }))
    (hu : u = ((({ t with pow := { t.pow with copper := t.pow.copper.setIfInBounds c.val .awake } } : State).modTx c.val (fun _ =>
      { TxChan.reset with up := true })).modRx c.val (fun _ => { RxChan.reset with up := true })))
    (hv : v = sendToken (learn u peer 1) 0 [c.val] [ownEntry u]) (hw : w = (if good.length < 8 then linkEvent v 0 c.val 0 2 else v)) :
    exec (.courseTrained c peer) s = .next (if w.fabric.phase ≤ 2 then { w with fabric := { w.fabric with phase := 2 } }
      else republish s (hopCameUp w c.val peer.addr)) := by
  have hgo := courseTrained_goes hrel hdom hdown
  subst hgood
  refine congrArg Host.Outcome.next ((if_neg (ne_true_of_eq_false hgo)).trans ((if_neg (not_or.mpr ⟨not_not.mpr hp, hown⟩)).trans
    ((if_neg (Nat.not_lt.mpr h4)).trans ?_)))
  subst ht hu hv hw
  rfl

end

/-- A lane whose token finds its ring serves its bundle. -/
theorem laneMatches_eq {s : State} {e k : Nat} {peer : W32} {t u : State}
    (ht : t = (s.modEave e (fun x => { x with matched := setLane x.matched k true })).modTx (laneChan e k) (fun _ =>
      { TxChan.reset with up := true }))
    (hu : u = { t with fabric := { t.fabric with
      peers := KMap.ins t.fabric.peers (laneChan e k) peer,
      orphans := t.fabric.orphans.filter (fun o => !(decide (o.2 = peer) && decide (chanCourse o.1 = courseOf e))) } }) :
    laneMatches s e k peer = if hopUp s (courseOf e) s.fabric.address peer then serveBundle u (courseOf e) peer
      else if u.fabric.phase < 7 then flushWaiting (serveBundle u (courseOf e) peer) else hopCameUp u (laneChan e k) peer := by
  rw [laneMatches, ← ht]
  subst hu
  rfl

/-- Settles O24: each event's condition is met, and the branch it takes is the clause. -/
theorem channelEventsComplete : Obligations.ChannelEventsComplete := by
  unfold Obligations.ChannelEventsComplete
  refine ⟨?_, ?_, ?_, ?_, ?_, ?_, ?_, ?_⟩
  · intro s ch rev f hup
    refine ⟨fun hcrc => congrArg (fun t => Host.Outcome.next (finishDrains t)) (receiveFrame_badCrc hup hcrc), fun hcrc hlen t ht => ?_⟩
    have hrun : exec (.linkFrameReceive ch rev f) s = .next (finishDrains _) :=
      congrArg (fun t => Host.Outcome.next (finishDrains t)) (receiveFrame_good hup hcrc hlen ht)
    refine ⟨fun hc => ?_, fun hc hn => ?_, fun hc hn => ?_⟩
    · rw [hrun, if_pos hc]
    · rw [hrun, if_neg (ne_true_of_eq_false hc), if_pos hn]
    · rw [hrun, if_neg (ne_true_of_eq_false hc), if_neg hn]
  · rintro s ch _ hup rfl
    exact congrArg Host.Outcome.next (if_pos hup)
  · intro s ch hup ho
    simp only [exec, execChannelDown, declareDown, ho, hup, if_true]
  · exact fun s src msg seg via n hrel hseen t u v ht hu x hx hv => exec_fabricControlFrame hrel hseen ht hu hx hv
  · exact fun s => rfl
  · exact fun s c lane ht hs bad rest hbad hrest =>
      ⟨fun spare hf => exec_copperLaneSwap_spare ht hs hbad hrest hf, exec_copperLaneSwap_none ht hs hbad hrest⟩
  · exact fun s c peer hrel hdom hdown => ⟨exec_courseTrained_miswired hrel hdom hdown,
      fun hp hown good hgood h4 t u v w ht hu hv hw => exec_courseTrained hrel hdom hdown hp hown hgood h4 ht hu hv hw⟩
  · intro s e k peer hup hown
    have hgo : ¬(!(s.eave e).dataUp || decide (peer = s.fabric.address)) = true := by simp [hup, hown]
    refine ⟨fun hlane htx hpeer t u ht hu => ?_, fun hslot hpeer b => ?_⟩
    · have hmatch : ¬(!(s.eave e).laneUp.getLsbD k || (s.tx (laneChan e k)).up || !true ||
          decide (peer ≠ txPeer s e (slotOf true e k (s.eave e).map))) = true := by simp [hlane, htx, hpeer]
      rw [← laneMatches_eq ht hu]
      exact congrArg Host.Outcome.next ((if_neg hgo).trans ((if_neg (by decide)).trans (if_neg hmatch)))
    · exact congrArg Host.Outcome.next ((if_neg hgo).trans ((if_pos rfl).trans (if_pos ⟨hslot, hpeer⟩)))

/-! ### Discovery -/

/-- A round of the flooding of the lowest FABRIC_ID, which ends once three rounds brought none lower, or at the 31st. -/
theorem exec_rackLeadRound {s : State} {lead low : W64} (hrel : s.boot.released = true)
    (hph : s.fabric.phase ≤ 3 ∨ lead.toNat < s.fabric.lead.toNat) {n next : Nat} {t : State}
    (hn : n = (if s.fabric.phase = 3 then s.fabric.leadRounds + 1 else 1))
    (hlow : low = (if lead.toNat < s.fabric.lead.toNat then lead else s.fabric.lead))
    (hnext : next = (if (s.fabric.lead.toNat ≤ lead.toNat ∧ 3 ≤ n) ∨ 31 ≤ n then afterLead s else 3))
    (ht : t = sendToken { s with fabric := { s.fabric with lead := low, leadRounds := n, phase := next } }
      1 [0, 1, 2, 3, 4] [{ ownEntry s with fabricId := low }]) :
    exec (.rackLeadRound lead) s = .next (if next = 6 then openTables t else if next = 7 then tellReady t else t) := by
  have hdone : ((!decide (lead.toNat < s.fabric.lead.toNat) && decide (3 ≤ n)) || decide (31 ≤ n)) = true ↔
      (s.fabric.lead.toNat ≤ lead.toNat ∧ 3 ≤ n) ∨ 31 ≤ n := by simp
  have hgo : ¬(3 < s.fabric.phase ∧ (!decide (lead.toNat < s.fabric.lead.toNat)) = true) := by
    simp only [Bool.not_eq_true', decide_eq_false_iff_not]
    omega
  simp only [exec, execRackLeadRound, hrel, Bool.not_true, Bool.false_eq_true, if_false, hgo, ← hn, hdone, ← hnext, decide_eq_true_eq,
    ← hlow, ← ht]

/-- Settles O25: each event's condition is met, and the branch it takes is the clause. -/
theorem discoveryEventsComplete : Obligations.DiscoveryEventsComplete := by
  unfold Obligations.DiscoveryEventsComplete
  refine ⟨?_, ?_, ?_, ?_, ?_⟩
  · intro s lead hrel hph n low next t hn hlow hnext ht
    exact exec_rackLeadRound hrel hph hn hlow hnext ht
  · intro s answers hph t ht
    have hfound : t = (List.range 8).foldl (fun s e => if (s.eave e).isUp then s.modEave e (fun x => x.found e answers) else s) s := ht
    simp only [exec, execDiscoverySweepDone, hph, ne_eq, not_true_eq_false, if_false, ← hfound]
  · intro s e off peer msg hrel hgrade hseen
    have hgo : ¬(!s.boot.released || s.boot.gradeB || s.fabric.seen.contains (peer.addr, 4, msg, 0)) = true := by
      rw [hgrade, Bool.or_false]
      exact ne_true_of_eq_false (unseen_goes hrel hseen)
    refine ⟨fun hw => congrArg Host.Outcome.next ((if_neg hgo).trans (if_neg (ne_true_of_eq_false hw))), fun hw t u ht hu => ?_⟩
    subst ht hu
    exact congrArg Host.Outcome.next ((if_neg hgo).trans (if_pos hw))
  · intro s es row via src msg hrel hseen t u ht hu
    subst ht hu
    exact congrArg Host.Outcome.next (if_neg (ne_true_of_eq_false (unseen_goes hrel hseen)))
  · intro s hrel hready t ht
    subst ht
    refine ⟨fun hall => ?_, fun hall => ?_⟩
    · refine congrArg Host.Outcome.next ((if_pos (by simp [hrel, hready, hall])).trans ?_)
      cases hshort : eaveShort { s with fabric := { s.fabric with ready := true }, boot := { s.boot with step := 9 } } <;>
        simp [reachReady, hshort]
    · exact congrArg Host.Outcome.next (if_pos (by simp [hrel, hready, hall]))

end Sys2Proof.Machine
end

section
/-!
PROOF. O26, O27, O29 (R103, R104, R278, R279, R293, R300 to R305, R309): the commands of the collective class, votes and decisions.
-/

namespace Sys2Proof.Machine

/-! ### Commands -/

/-- A backup that lies off the group, and reaches every rank of it, is named; so is its removal. -/
theorem backupBody_ok {s : State} {a n rank : W16} {addr : W32} {c : Instr} {m : ModColl} {k : Coll} {x : Allot} {grp : List W32}
    {others named : KMap W32} (hm : s.modColl a n = some m) (hk : s.collAny a n = some k) (hx : s.allot? a.toNat = some x)
    (ho : others = m.backups.filter (fun e => decide (e.1 ≠ rank.toNat)))
    (hn : named = (if addr = 0xFFFFFFFF then others else KMap.ins others rank.toNat addr))
    (hg : grp = groupOf s x.members k.plan.courses (if addr = s.fabric.address then named else m.backups)) (hr : rank.toNat < grp.length)
    (hfree : addr = 0xFFFFFFFF ∨ (addr ∉ grp ∧ (∀ e ∈ others, e.2 ≠ addr) ∧
      ∀ q ∈ grp, q ≠ addr → candidates s (fun b => x.members.contains b) addr q ≠ [])) {t : State}
    (ht : t = s.taken.modModColl a n (fun m => { m with backups := named })) :
    backupBody a n rank.toNat addr c s.taken s.lodge.nextId =
      moduleOutcome s (if firstUntouched t a n then adoptBackups t a n else t) c .ok [] := by
  have hm' : s.taken.modColl a n = some m := hm
  have hk' : s.taken.collAny a n = some k := hk
  have hx' : s.taken.allot? a.toNat = some x := hx
  have hnamed : (if decide (addr = 0xFFFFFFFF) = true then others else KMap.ins others rank.toNat addr) = named := by
    rw [hn]
    simp only [decide_eq_true_eq]
  have hgrp : groupOf s.taken x.members k.plan.courses (if addr = s.taken.fabric.address then named else m.backups) = grp := hg.symm
  have hclear : (decide (grp.length ≤ rank.toNat) ||
      (!decide (addr = 0xFFFFFFFF) && (grp.contains addr || others.any (fun e => decide (e.2 = addr))))) = false := by
    rw [decide_eq_false (Nat.not_le.mpr hr), Bool.false_or]
    rcases hfree with h | ⟨h1, h2, -⟩
    · rw [decide_eq_true h]
      rfl
    · have hnone : others.any (fun e => decide (e.2 = addr)) = false := by simpa using fun y z hz => h2 (y, z) hz
      have hout : grp.contains addr = false := by simpa using h1
      rw [hnone, hout, Bool.or_self, Bool.and_false]
  have hroutes : (!decide (addr = 0xFFFFFFFF) &&
      grp.any (fun q => decide (q ≠ addr) && (candidates s (fun b => x.members.contains b) addr q).isEmpty)) = false := by
    rcases hfree with h | ⟨-, -, h3⟩
    · rw [decide_eq_true h]
      rfl
    · have hall : grp.any (fun q => decide (q ≠ addr) && (candidates s (fun b => x.members.contains b) addr q).isEmpty) = false := by
        rw [List.any_eq_false]
        intro q hq
        simpa using h3 q hq
      rw [hall, Bool.and_false]
  subst ht
  simp only [backupBody, hm', hk', hx', ← ho, hnamed, hgrp, hclear, candidates_taken, hroutes, Bool.false_eq_true, if_false]
  rfl

/-- Settles O26: each unit command acts as its row says, and COLL_BACKUP's checks pass. -/
theorem collectiveCommandsComplete : Obligations.CollectiveCommandsComplete := by
  unfold Obligations.CollectiveCommandsComplete
  intro s h n
  refine ⟨?_, ?_, ?_, ?_, ?_, ?_⟩
  · exact fun words p hr => congrArg Host.Outcome.next (submit_unit rfl hr)
  · intro rank addr m k x grp others named hr ha hm hk hx haddr ho hn hg hrank hfree t ht
    have hform : (if h.allot = 0 ∨ (addr ≠ 0xFFFFFFFF ∧ addrReserved addr = true) then some Status.badParam else none) = none := by
      refine if_neg ?_
      rintro (h0 | ⟨h1, h2⟩)
      · exact ha h0
      · rcases haddr with h3 | ⟨h3, -⟩
        · exact h1 h3
        · exact absurd h2 (by rw [h3]; decide)
    have hmine : (decide (addr ≠ 0xFFFFFFFF) && !((s.taken.allot? h.allot.toNat).any (fun x => x.members.contains addr))) = false := by
      rw [show s.taken.allot? h.allot.toNat = some x from hx]
      rcases haddr with h3 | ⟨-, h3⟩
      · simp [h3]
      · simp [h3]
    rw [exec_module s rfl rfl, moduleNow, collBackupNow, submit_module _ _ _ rfl hr ?form ?scope]
    case form => exact hform
    case scope => exact hmine
    rw [backupBody_ok hm hk hx ho hn hg hrank hfree ht]
  · exact fun accumn tlate tlost hr => congrArg Host.Outcome.next (submit_unit rfl hr)
  · exact fun seq hr => congrArg Host.Outcome.next (submit_unit rfl hr)
  · exact fun hr => congrArg Host.Outcome.next (submit_unit rfl hr)
  · exact fun hr => congrArg Host.Outcome.next (submit_unit rfl hr)

/-- Settles O27: the sheaf's copy of the handle decides whether the failed round is run again, and the first sheaf aborts. -/
theorem commitAndAbortAct : Obligations.CommitAndAbortAct := by
  unfold Obligations.CommitAndAbortAct
  intro s g a n c
  refine ⟨fun seq t hc ht d hd => ?_, fun h ha hc hfirst hwait => ?_⟩
  · subst ht
    simp only [commitAct, hd]
  · subst ha
    have hgo : ¬((selOf h.path h.mask).sheaves.find? (fun g => (s.coll g h.allot n).isSome) ≠ some g ∨ awaitsDecision s h.allot n = true) := by
      rw [hfirst, hwait]
      simp
    simp only [abortAct, hgo, if_false, hc]
    rfl

/-! ### Votes and decisions -/

section
variable {s : State} {a n : W16} {m : ModColl} {c : Coll} (hm : s.modColl a n = some m) (hc : s.collAny a n = some c)
include hm hc

theorem exec_voteReceived (seq : W32) (run : Byte) (rank : Nat) (ok : Bool) (status : W16)
    (hrole : m.role s.fabric.address = .rank 0) (hrank : rank ≠ 0) :
    exec (.voteReceived a n seq run rank ok status c.plan.planId) s = .next (match c.age seq run with
      | .current => recordVote s a n rank ok (Status.ofCode status.toNat)
      | .ahead => s.modModColl a n (fun m => { m with early := m.early ++ [(seq, run, rank, ok, Status.ofCode status.toNat)] })
      | .old => s) := by
  have hgo : ¬(m.role s.fabric.address ≠ .rank 0 ∨ rank = 0) := by simp [hrole, hrank]
  have hplan : ¬(c.plan.planId ≠ c.plan.planId) := not_not.mpr rfl
  simp only [exec, execVoteReceived, hm, hc, if_neg hplan]
  exact congrArg Host.Outcome.next (if_neg hgo)

theorem exec_otherPlan {planId : W32} (hp : c.plan.planId ≠ planId) (seq : W32) (run : Byte) (rank : Nat) (ok : Bool) (status : W16)
    (addr : W32) :
    exec (.voteReceived a n seq run rank ok status planId) s = .next (planMismatch s a n) ∧
    exec (.decision a n seq run rank ok status planId) s = .next (planMismatch s a n) ∧
    exec (.decisionAcknowledged a n seq run rank planId) s = .next (planMismatch s a n) ∧
    exec (.decisionRequest a n seq run rank addr planId) s = .next (planMismatch s a n) := by
  refine ⟨?_, ?_, ?_, ?_⟩
  · simp only [exec, execVoteReceived, hm, hc, if_pos hp]
  · simp only [exec, execDecision, hm, hc, if_pos hp]
  · simp only [exec, execDecisionAcknowledged, hm, hc, if_pos hp]
  · simp only [exec, execDecisionRequest, hm, hc, if_pos hp]

end

/-- Settles O29: each event's condition is met, and the branch it takes is the clause. -/
theorem decisionEventsComplete : Obligations.DecisionEventsComplete := by
  unfold Obligations.DecisionEventsComplete
  intro s a n m c hm hc voters hvoters
  subst hvoters
  have hknown : ∀ rank, (∃ e ∈ m.voters s.fabric.address, e.1 = rank) →
      (m.voters s.fabric.address).all (fun e => decide (e.1 ≠ rank)) = false := by
    rintro rank ⟨e, he, hr⟩
    exact List.all_eq_false.mpr ⟨e, he, by simp [hr]⟩
  refine ⟨?_, ?_, ?_, ?_, ?_, ?_, ?_⟩
  · intro hv st hst
    subst hst
    simp only [exec, execVote, hm, hv, Bool.not_true, Bool.false_eq_true, if_false]
  · intro seq run rank ok status hrole hrank
    refine ⟨fun hage => ?_, fun hage => ?_⟩
    · rw [exec_voteReceived hm hc seq run rank ok status hrole hrank, hage]
    · rw [exec_voteReceived hm hc seq run rank ok status hrole hrank, hage]
  · exact fun seq run rank ok status addr planId hp => exec_otherPlan hm hc hp seq run rank ok status addr
  · intro seq run rank commit status hr0 hout hrank
    have hgo : ¬(m.role s.fabric.address = .rank 0 ∨ m.role s.fabric.address = .outside ∨
        (m.voters s.fabric.address).all (fun e => decide (e.1 ≠ rank)) = true) := by
      rw [hknown rank hrank]
      simp [hr0, hout]
    refine ⟨fun hseq hrun hfail => ?_, fun hold => ?_⟩
    · subst hseq hrun
      simp only [exec, execDecision, hm, hc, ne_eq, not_true_eq_false, if_false, hgo, hfail, and_self, if_true]
    · have hpast : ¬(c.openSeq = seq ∧ c.run = run ∧ c.isFailed = false) ∧
          (seq.toNat < c.openSeq.toNat ∨ (c.openSeq = seq ∧ run.toNat ≤ c.run.toNat)) := by
        rcases hold with h | ⟨rfl, rfl, h⟩ | ⟨rfl, h⟩
        · exact ⟨fun k => absurd h (by rw [k.1]; omega), Or.inl h⟩
        · exact ⟨fun k => absurd k.2.2 (by rw [h]; decide), Or.inr ⟨rfl, Nat.le_refl _⟩⟩
        · exact ⟨fun k => absurd h (by rw [k.2.1]; omega), Or.inr ⟨rfl, Nat.le_of_lt h⟩⟩
      simp only [exec, execDecision, hm, hc, ne_eq, not_true_eq_false, if_false, hgo, hpast, if_true]
  · intro seq run rank o ho hrank t ht
    subst ht
    simp only [exec, execDecisionAcknowledged, hm, hc, ne_eq, not_true_eq_false, if_false, hknown rank hrank, Bool.false_eq_true, ho]
    rfl
  · intro hv hf ho t ht
    have hgo : ¬(m.voted = false ∨ c.isFailed = true ∨ m.hasOutcome c = true) := by simp [hv, hf, ho]
    subst ht
    simp only [exec, execUndecided, hm, hc, hgo, if_false]
  · intro seq run rank addr d hrank hd
    simp only [exec, execDecisionRequest, hm, hc, ne_eq, not_true_eq_false, if_false, hknown rank hrank, Bool.false_eq_true, hd]

end Sys2Proof.Machine
end

section
/-!
PROOF. The trusses (O28): a frame that its truss takes is judged by the age of its round and by its kind; the rows of a bucket's own.
-/
namespace Sys2Proof.Machine

/-- A frame reaches its truss by the row of its kind. -/
theorem exec_frameRow (g : SheafIx) (k : CollFrame) (s : State) : exec (frameRow g k) s = .next (takeFrame s g k) := by
  cases k <;> rfl

/-! ### A frame that is taken -/

section taken
variable {s : State} {g : Nat} {m : ModColl} {p : Place} {c : Coll}

/-- What it means that a truss judges a frame by a handle, a place and a plan. -/
theorem frameAt_eq_some {k : CollFrame} (h : frameAt s g k = some (m, p, c)) :
    s.modColl k.handle.1 k.handle.2 = some m ∧ s.coll g k.handle.1 k.handle.2 = some c ∧ k.fpl.all (fplNear (fplInUse s)) = true ∧
    trussRuns s g = true ∧ frameFits s c k.plan k.index = true ∧
    k.index / c.plan.buckets.toNat = s.collPlace k.handle.1 k.handle.2 g ∧ placeOf s m c g (k.index % c.plan.buckets.toNat) = some p := by
  unfold frameAt at h
  split at h
  · next m' c' hm hc =>
    split at h
    · next hall =>
      obtain ⟨q, hq, he⟩ := Option.map_eq_some_iff.mp h
      cases he
      simp only [Bool.and_eq_true, decide_eq_true_eq] at hall
      obtain ⟨⟨⟨hnear, hruns⟩, hfits⟩, hplace⟩ := hall
      exact ⟨hm, hc, hnear, hruns, hfits, hplace, hq⟩
    · cases h
  · cases h

/-- A frame of a round ahead is kept (log entry 48). -/
theorem takeFrame_ahead {k : CollFrame} (h : frameAt s g k = some (m, p, c)) (hage : c.age k.round.1 k.round.2 = .ahead) :
    takeFrame s g k = s.modHandle g k.handle.1 k.handle.2 (fun c => { c with ahead := c.ahead ++ [k] }) := by
  obtain ⟨hm, hc, hnear, hruns, hfits, hplace, hp⟩ := frameAt_eq_some h
  simp only [takeFrame, hm, hc, hnear, hruns, hfits, hplace, hp, hage, Bool.not_true, Bool.false_eq_true, if_false, ne_eq, not_true]

/-- An input's exponent of the open round. -/
theorem takeFrame_exponent {f : CFrame} (h : frameAt s g (.exponent f) = some (m, p, c)) (hage : c.age f.seq f.run = .current) :
    takeFrame s g (.exponent f) = takeInputExponent s m p c f := by
  obtain ⟨hm, hc, hnear, hruns, hfits, hplace, hp⟩ := frameAt_eq_some h
  replace hage : c.age (CollFrame.exponent f).round.1 (CollFrame.exponent f).round.2 = .current := hage
  simp only [takeFrame, hm, hc, hnear, hruns, hfits, hplace, hp, hage, Bool.not_true, Bool.false_eq_true, if_false, ne_eq, not_true]

/-- A bucket's exponent of the open round, from the rank it comes from. -/
theorem takeFrame_exponentDown {f : CFrame} (h : frameAt s g (.exponentDown f) = some (m, p, c)) (hage : c.age f.seq f.run = .current)
    (hsrc : p.source m = some f.sender) :
    takeFrame s g (.exponentDown f) = if (c.bucket p.b).exponent.isSome then noteDuplicate s g f.allot f.handle
      else takeExponent s g f.allot f.handle p.b f.x f.nonfinite := by
  obtain ⟨hm, hc, hnear, hruns, hfits, hplace, hp⟩ := frameAt_eq_some h
  replace hage : c.age (CollFrame.exponentDown f).round.1 (CollFrame.exponentDown f).round.2 = .current := hage
  simp only [takeFrame, hm, hc, hnear, hruns, hfits, hplace, hp, hage, hsrc, Bool.not_true, Bool.false_eq_true, if_false, ne_eq, not_true] <;> rfl

/-- A contribution, a partial sum, or a backup's copy in a BROADCAST, of the open round. -/
theorem takeFrame_bucket {f : BFrame} (h : frameAt s g (.bucket f) = some (m, p, c)) (hage : c.age f.seq f.run = .current)
    (hkind : f.kind.toNat < 2 ∨ (f.kind = 3 ∧ f.backup = true ∧ c.plan.op = 3)) :
    takeFrame s g (.bucket f) = takeInputFrame s m p c f := by
  obtain ⟨hm, hc, hnear, hruns, hfits, hplace, hp⟩ := frameAt_eq_some h
  replace hage : c.age (CollFrame.bucket f).round.1 (CollFrame.bucket f).round.2 = .current := hage
  simp only [takeFrame, hm, hc, hnear, hruns, hfits, hplace, hp, hage, Bool.not_true, Bool.false_eq_true, if_false, ne_eq, not_true]
  exact if_pos hkind

/-- A result of the open round. -/
theorem takeFrame_result {f : BFrame} (h : frameAt s g (.result f) = some (m, p, c)) (hage : c.age f.seq f.run = .current)
    (hkind : f.kind.toNat = 2 ∨ f.kind.toNat = 3) : takeFrame s g (.result f) = takeResult s m p c f := by
  obtain ⟨hm, hc, hnear, hruns, hfits, hplace, hp⟩ := frameAt_eq_some h
  replace hage : c.age (CollFrame.result f).round.1 (CollFrame.result f).round.2 = .current := hage
  simp only [takeFrame, hm, hc, hnear, hruns, hfits, hplace, hp, hage, Bool.not_true, Bool.false_eq_true, if_false, ne_eq, not_true]
  exact if_pos hkind

/-- The failure of a bucket of the open round that has not failed here. -/
theorem takeFrame_fail {f : CFrame} (h : frameAt s g (.fail f) = some (m, p, c)) (hage : c.age f.seq f.run = .current)
    (hgood : (c.bucket p.b).failed = none) :
    takeFrame s g (.fail f) = pump (s.modBucket g f.allot f.handle p.b (fun x =>
      { x with failed := some (Status.ofCode f.status.toNat) })) g f.allot f.handle := by
  obtain ⟨hm, hc, hnear, hruns, hfits, hplace, hp⟩ := frameAt_eq_some h
  replace hage : c.age (CollFrame.fail f).round.1 (CollFrame.fail f).round.2 = .current := hage
  simp only [takeFrame, hm, hc, hnear, hruns, hfits, hplace, hp, hage, hgood, Option.isSome_none, Bool.not_true, Bool.false_eq_true,
    if_false, ne_eq, not_true] <;> rfl

end taken

/-! ### Frames that are not judged -/

section unjudged
variable {s : State} {g : Nat} {k : CollFrame} {m : ModColl} {c : Coll} (hm : s.modColl k.handle.1 k.handle.2 = some m)
  (hc : s.coll g k.handle.1 k.handle.2 = some c) (hnear : k.fpl.all (fplNear (fplInUse s)) = true)
include hm hc hnear

/-- A truss that stands keeps the frame. -/
theorem takeFrame_standing (h : trussRuns s g = false) :
    takeFrame s g k = s.modHandle g k.handle.1 k.handle.2 (fun c => { c with waiting := c.waiting ++ [k] }) := by
  simp only [takeFrame, hm, hc, hnear, h, Bool.not_true, Bool.not_false, Bool.false_eq_true, if_false, if_true]

/-- A frame outside the plan is counted (R281). -/
theorem takeFrame_misfit (hruns : trussRuns s g = true) (h : frameFits s c k.plan k.index = false) :
    takeFrame s g k = noteMismatch s g k.handle.1 k.handle.2 := by
  simp only [takeFrame, hm, hc, hnear, hruns, h, Bool.not_true, Bool.not_false, Bool.false_eq_true, if_false, if_true]

end unjudged

/-! ### What a frame of the open round does -/

section clauses
variable {s : State} {g : SheafIx} {m : ModColl} {p : Place} {c : Coll}

/-- An input's exponent is kept, and a second one is a duplicate (R286, R299). -/
theorem exponentFrame_taken {f : CFrame} (h : frameAt s g (.exponent f) = some (m, p, c)) (hage : c.age f.seq f.run = .current)
    (hexp : p.expects m f.sender f.backup = true) :
    (((c.bucket p.b).input f.sender f.backup).isSome = true →
      exec (.exponentFrame g f) s = .next (noteDuplicate (touchBucket s p c) p.g c.allot c.handle)) ∧
    ((c.bucket p.b).input f.sender f.backup = none → exec (.exponentFrame g f) s = .next (advanceBucket (settleLate
      ((touchBucket s p c).modBucket p.g c.allot c.handle p.b (fun x => x.putInput (CInput.ofExp f.sender f.backup f.x f.nonfinite)))
      p c f.sender f.backup) p.g c.allot c.handle p.b)) := by
  have hexec : exec (.exponentFrame g f) s = .next (takeInputExponent s m p c f) :=
    congrArg Host.Outcome.next (takeFrame_exponent h hage)
  constructor
  · intro hold
    rw [hexec]
    simp only [takeInputExponent, hexp, hold, Bool.not_true, Bool.false_eq_true, if_false, if_true]
  · intro hnew
    rw [hexec]
    simp only [takeInputExponent, hexp, hnew, Option.isSome_none, Bool.not_true, Bool.false_eq_true, if_false]

/-- A contribution or partial sum: rejected, a duplicate, or added (R292, R295, R296, R299). -/
theorem bucketFrame_taken {f : BFrame} (h : frameAt s g (.bucket f) = some (m, p, c)) (hage : c.age f.seq f.run = .current)
    (hkind : f.kind.toNat < 2 ∨ (f.kind = 3 ∧ f.backup = true ∧ c.plan.op = 3)) (hexp : p.expects m f.sender f.backup = true)
    {t u : State} (ht : t = touchBucket s p c) (hu : u = answerFrame t m p c f true) :
    (frameSound f = false → exec (.bucketFrame g f) s = .next (rejectFrame t m p c f)) ∧
    (frameSound f = true → ((c.bucket p.b).input f.sender f.backup).any (fun i => i.words.isSome) = true →
      exec (.bucketFrame g f) s = .next (noteDuplicate u p.g c.allot c.handle)) ∧
    (frameSound f = true → ((c.bucket p.b).input f.sender f.backup).any (fun i => i.words.isSome) = false → ∀ i : CInput,
      i = { rank := f.sender, backup := f.backup, x := ((c.bucket p.b).input f.sender f.backup).bind (·.x), nonfinite := f.nonfinite,
            words := some f.words, cs1 := f.cs1, cs2 := f.cs2, count := f.count, sub := f.substituted } →
      exec (.bucketFrame g f) s = .next (pump (advanceBucket (compareCopies (settleLate
        (u.modBucket p.g c.allot c.handle p.b (fun x => (x.putInput i).noteTaken f)) p c f.sender f.backup) m p c f.sender)
        p.g c.allot c.handle p.b) p.g c.allot c.handle)) := by
  have hexec : exec (.bucketFrame g f) s = .next (takeInputFrame s m p c f) :=
    congrArg Host.Outcome.next (takeFrame_bucket h hage hkind)
  refine ⟨fun hbad => ?_, fun hsound hold => ?_, fun hsound hnew i hi => ?_⟩
  · rw [hexec]
    simp only [takeInputFrame, hexp, hbad, ht, Bool.not_true, Bool.not_false, Bool.false_eq_true, if_false, if_true]
  · rw [hexec]
    simp only [takeInputFrame, hexp, hsound, hold, ht, hu, Bool.not_true, Bool.false_eq_true, if_false, if_true]
  · rw [hexec]
    simp only [takeInputFrame, hexp, hsound, hnew, ht, hu, hi, Bool.not_true, Bool.false_eq_true, if_false]

/-- A result: rejected, a duplicate, or delivered (R284, R285, R292). -/
theorem resultFrame_taken {f : BFrame} (h : frameAt s g (.result f) = some (m, p, c)) (hage : c.age f.seq f.run = .current)
    (hkind : f.kind.toNat = 2 ∨ f.kind.toNat = 3) (hsrc : p.source m = some f.sender) (hback : f.backup = false)
    (hnode : p.node ≠ 0 ∨ p.backup = true) {t u : State} (ht : t = touchBucket s p c) (hu : u = answerFrame t m p c f true) :
    (frameSound f = false → exec (.resultFrame g f) s = .next (rejectFrame t m p c f)) ∧
    (frameSound f = true → (c.bucket p.b).resultDone = true →
      exec (.resultFrame g f) s = .next (noteDuplicate u p.g c.allot c.handle)) ∧
    (frameSound f = true → (c.bucket p.b).resultDone = false → (c.bucket p.b).failed = none →
      exec (.resultFrame g f) s = .next (pump (deliver (u.modBucket p.g c.allot c.handle p.b (fun x =>
        (if x.exponent.isNone && decide (f.kind = 2) then { x with exponent := some f.exp, nonfinite := f.nonfinite } else x).noteTaken f))
        p c f.kind f.exp f.nonfinite f.substituted f.count f.words) p.g c.allot c.handle)) := by
  have hexec : exec (.resultFrame g f) s = .next (takeResult s m p c f) := congrArg Host.Outcome.next (takeFrame_result h hage hkind)
  have hfrom : ¬ (p.source m ≠ some f.sender ∨ f.backup = true ∨ (p.node = 0 ∧ p.backup = false)) := by
    rintro (hne | hb | ⟨h0, hp⟩)
    · exact hne hsrc
    · exact ne_true_of_eq_false hback hb
    · exact hnode.elim (· h0) (ne_true_of_eq_false hp)
  refine ⟨fun hbad => ?_, fun hsound hold => ?_, fun hsound hnew hgood => ?_⟩
  · rw [hexec]
    simp only [takeResult, hfrom, hbad, ht, Bool.not_false, if_false, if_true]
  · rw [hexec]
    simp only [takeResult, hfrom, hsound, hold, ht, hu, Bool.not_true, Bool.false_eq_true, if_false, if_true]
  · rw [hexec]
    simp only [takeResult, hfrom, hsound, hnew, hgood, ht, hu, Option.isSome_none, Bool.not_true, Bool.false_eq_true, if_false]

/-- A NACK and an acknowledgement of a frame that is held (R281, R292). -/
theorem bucketAnswer_taken {f : CFrame} {e : W32 × BFrame} (h : bucketNow s g f.allot f.handle
      (f.bucket % max 1 ((s.coll g f.allot f.handle).elim 1 (·.plan.buckets.toNat))) = some (m, p, c)) :
    (frameFits s c f.planId f.bucket = false → exec (.bucketNack g f) s = .next (noteMismatch s g f.allot f.handle) ∧
      exec (.bucketAck g f) s = .next (noteMismatch s g f.allot f.handle)) ∧
    (frameFits s c f.planId f.bucket = true → ∀ d, d = senderAddr m f.sender f.backup →
      ((c.bucket p.b).held ++ (c.bucket p.b).acked ++ c.lateHeld).find? (heldFor d f) = some e →
      (e.2.attempt < 2 → exec (.bucketNack g f) s = .next ((s.modHandle g c.allot c.handle (fun c =>
        c.resend p.b (heldFor d f) (d, { e.2 with attempt := e.2.attempt + 1 }))).send
          (.bucket d { e.2 with attempt := e.2.attempt + 1 }))) ∧
      (2 ≤ e.2.attempt → c.age f.seq f.run = .current →
        exec (.bucketNack g f) s = .next (pump (failBucket s m p c .checksumMismatch) p.g c.allot c.handle)) ∧
      exec (.bucketAck g f) s = .next (s.modHandle g c.allot c.handle (fun c => c.release p.b (heldFor d f)))) := by
  constructor
  · intro hmis
    constructor
    · simp only [exec, execBucketNack, h, hmis, Bool.not_false, if_true]
    · simp only [exec, execBucketAck, h, hmis, Bool.not_false, if_true]
  · intro hfit d hd hheld
    subst hd
    refine ⟨fun hfew => ?_, fun hmany hage => ?_, ?_⟩
    · simp only [exec, execBucketNack, h, hfit, hheld, Nat.not_le.mpr hfew, Bool.not_true, Bool.false_eq_true, if_false]
    · simp only [exec, execBucketNack, h, hfit, hheld, hmany, hage, Bool.not_true, Bool.false_eq_true, if_false, if_true]
    · simp only [exec, execBucketAck, h, hfit, Bool.not_true, Bool.false_eq_true, if_false]

end clauses

/-! ### The rows of a bucket's own -/

section bucket
variable {s : State} {g : SheafIx} {a n : W16} {b : Nat} {m : ModColl} {c : Coll}

/-- A bucket whose segments are all recorded, while its truss works. -/
theorem bucketReady_full {x : SrcBucket} (hm : s.modColl a n = some m) (hc : s.coll g a n = some c) (hb : b < c.plan.buckets.toNat)
    (hx : x = c.source (2 * b + c.usedOf b % 2)) (hfree : x.frozen = false) (hfull : x.segs.length * 16 = c.srcBytes)
    (hrec : s.recordsFor c = true) (hruns : trussRuns s g = true) :
    exec (.bucketReady g a n b) s = .next (
      if c.usedOf b < c.base then lateRound s g m c b
      else if c.accumn = 1 then pump (s.modHandle g a n (fun d =>
        { (d.setSource (2 * b + c.usedOf b % 2) { x with frozen := true }) with used := KMap.put 0 d.used b (c.usedOf b + 1) })) g a n
      else if c.accumn ≤ c.usedOf b - c.base then s
      else pump (accumulate s g c b (decide (c.usedOf b = c.base))) g a n) := by
  subst hx
  have hgo : ¬ (c.plan.buckets.toNat ≤ b ∨ (c.source (2 * b + c.usedOf b % 2)).frozen = true ∨
      (c.source (2 * b + c.usedOf b % 2)).segs.length * 16 ≠ c.srcBytes ∨ s.recordsFor c = false ∨ trussRuns s g = false) := by
    simp [Nat.not_le.mpr hb, hfree, hfull, hrec, hruns]
  simp only [exec, execBucketReady, hm, hc]
  exact congrArg Host.Outcome.next (if_neg hgo)

/-- A late primary (R295). -/
theorem tlateExpiry_late {p : Place} {rank : Nat} (hnow : bucketNow s g a n b = some (m, p, c)) (hb : b < c.plan.buckets.toNat)
    (hopen : c.isFailed = false) (harr : (c.bucket b).arrived = true) (htl : ¬ (c.bucket b).tlate = 0) (hdir : rank ∈ p.direct)
    (hnone : (c.bucket b).input rank false = none) (hsub : rank ∉ (c.bucket b).substituted)
    (hown : rank ≠ p.rank ∨ c.isReady b = false) :
    exec (.tlateExpiry g a n b rank) s = .next (if ((c.bucket b).input rank true).isSome && trussRuns s g
      then advanceBucket (substitute s p c rank) g a n b
      else s.modBucket g a n b (fun x => { x with lateRanks := x.lateRanks.erase rank ++ [rank] })) := by
  have hgo : ¬ (c.plan.buckets.toNat ≤ b ∨ c.isFailed = true ∨ (c.bucket b).arrived = false ∨ (c.bucket b).tlate = 0 ∨
      p.direct.contains rank = false ∨ ((c.bucket b).input rank false).isSome = true ∨
      (c.bucket b).substituted.contains rank = true ∨ (rank = p.rank ∧ c.isReady b = true)) := by
    have hr : ¬ (rank = p.rank ∧ c.isReady b = true) := fun ⟨he, hr⟩ => hown.elim (· he) (ne_true_of_eq_false · hr)
    simp only [not_or]
    exact ⟨Nat.not_le.mpr hb, ne_true_of_eq_false hopen, by simp [harr], htl, by simp [hdir], by simp [hnone], by simp [hsub], hr⟩
  simp only [exec, execTlateExpiry, hnow]
  exact congrArg Host.Outcome.next (if_neg hgo)

/-- TLOST after a bucket's first arrival (R296, R297, R299). -/
theorem tlostExpiry_of_bucket {p : Place} (hnow : bucketNow s g a n b = some (m, p, c)) (hb : b < c.plan.buckets.toNat) :
    exec (.tlostExpiry g a n b) s = .next (
      if (c.bucket b).contributed || (c.bucket b).arrived then
        if c.isFailed then s else pump (failBucket s m p c (if m.linkDown then .linkDown else .contributionLost)) g a n
      else s.modHandle g a n (fun c => { c with checks := c.checks.filter (fun k => decide (k.bucket ≠ b)) })) := by
  simp only [exec, execTlostExpiry, hnow, Nat.not_le.mpr hb, if_false]

end bucket

/-- Settles O28: a frame that its truss judges is taken by the age of its round and its kind (`takeFrame_*`), and the rows of a bucket's
own pass their checks. -/
theorem trussEventsComplete : Obligations.TrussEventsComplete := by
  intro s g
  refine ⟨?ready, ?unjudged, ?exponent, ?down, ?bucket, ?result, ?fail, ?answers, ?timers⟩
  case ready =>
    intro a n b m c x hm hc hb hx hfree hfull hrec hruns
    have h := bucketReady_full hm hc hb hx hfree hfull hrec hruns
    refine ⟨fun h1 hu => ?_, fun h1 hu hfew => ?_, fun hu hno => ?_, fun hu o ho => ⟨fun h1 => ?_, fun h1 t ht => ?_⟩⟩
    · rw [h, if_neg (Nat.not_lt.mpr hu), if_pos h1]
    · rw [h, if_neg (Nat.not_lt.mpr hu), if_neg h1, if_neg (Nat.not_le.mpr hfew)]
    · rw [h, if_pos hu]
      simp only [lateRound, hno]
    · rw [h, if_pos hu]
      simp only [lateRound, ho, h1, if_true]
    · rw [h, if_pos hu]
      simp only [lateRound, ho, h1, ht, if_false]
  case unjudged =>
    intro k m c hm hc hnear
    exact ⟨fun hstand => (exec_frameRow g k s).trans (congrArg Host.Outcome.next (takeFrame_standing hm hc hnear hstand)),
      fun hruns hmis => (exec_frameRow g k s).trans (congrArg Host.Outcome.next (takeFrame_misfit hm hc hnear hruns hmis)),
      fun p h hage => (exec_frameRow g k s).trans (congrArg Host.Outcome.next (takeFrame_ahead h hage))⟩
  case exponent =>
    intro f m p c h hage hexp t ht
    subst ht
    exact exponentFrame_taken h hage hexp
  case down =>
    intro f m p c h hage hsrc
    have hexec : exec (.bucketExponent g f) s = .next _ := congrArg Host.Outcome.next (takeFrame_exponentDown h hage hsrc)
    exact ⟨fun hold => hexec.trans (congrArg Host.Outcome.next (if_pos hold)),
      fun hnew => hexec.trans (congrArg Host.Outcome.next (if_neg (by simp [hnew])))⟩
  case bucket => exact fun f m p c h hage hkind hexp t u ht hu => bucketFrame_taken h hage hkind hexp ht hu
  case result => exact fun f m p c h hage hkind hsrc hback hnode t u ht hu => resultFrame_taken h hage hkind hsrc hback hnode ht hu
  case fail => exact fun f m p c h hage hgood => congrArg Host.Outcome.next (takeFrame_fail h hage hgood)
  case answers => exact fun f m p c e h => bucketAnswer_taken h
  case timers =>
    intro a n b m p c hnow hb
    refine ⟨fun rank hopen harr htl hdir hnone hsub hown => ?_, fun hopen hstart => ?_, fun hcon harr => ?_⟩
    · have h := tlateExpiry_late hnow hb hopen harr htl hdir hnone hsub hown
      refine ⟨fun hcopy hruns => ?_, fun hno => ?_⟩
      · rw [h, if_pos (by rw [hcopy, hruns]; rfl)]
      · rw [h, if_neg ?_]
        rcases hno with hno | hno <;> simp [hno]
    · rw [tlostExpiry_of_bucket hnow hb, if_pos (by simpa using hstart), if_neg (ne_true_of_eq_false hopen)]
    · rw [tlostExpiry_of_bucket hnow hb, if_neg (by simp [hcon, harr])]

end Sys2Proof.Machine
end

section
/-!
PROOF. O30 (R105, R106, R195, R213, R217, R264, R266, R276) and O31 (R107, R108, R358 to R369): the numerics class and the optics class.
-/
namespace Sys2Proof.Machine

/-! ### Numerics -/

theorem soilLoft_of_le (base : Nat) {lo hi : Nat} (loft : KMap Byte) (h : hi ≤ lo) : soilLoft base lo hi loft = loft := by
  simp [soilLoft, Nat.sub_eq_zero_of_le h]

/-- Where the reserve holds all that captures wrote, a WV_CONFIG shows none of it (R106, R266). -/
theorem configureSheaf_of_soiled_le {s : State} {g : Nat} (l : Nat) (on : Bool) (tol thr : W32) {r : Nat} (h : (s.sheaf g).wv.soiled ≤ r) :
    configureSheaf s g l on tol thr r = s.modSheaf g (fun sh => { sh with
      wv := { sh.wv.discard with enable := on, log2 := l, tolerance := tol, threshold := thr, reserve := r, counter := 0 } }) := by
  have hloft : soilLoft s.free (2 ^ 22 - (s.sheaf g).wv.soiled) (2 ^ 22 - r) (s.sheaf g).loft = (s.sheaf g).loft :=
    soilLoft_of_le _ _ (Nat.sub_le_sub_left h _)
  have hwv : (s.sheaf g).wv.configure l on tol thr r =
      { (s.sheaf g).wv.discard with enable := on, log2 := l, tolerance := tol, threshold := thr, reserve := r, counter := 0 } := by
    rw [Weathervane.configure, Nat.min_eq_left h]
    rfl
  simp only [configureSheaf, State.modSheaf, hloft, hwv, Nat.sub_eq_zero_of_le h]
  rfl

/-- Settles O30: each unit command acts as its row says, and the check of DETERMINISM passes. -/
theorem numericsCommandsComplete : Obligations.NumericsCommandsComplete := by
  intro s h
  refine ⟨?_, ?_, ?_, ?_, ?_, ?_, ?_⟩
  · exact fun v hr => congrArg Host.Outcome.next (submit_unit rfl hr)
  · exact fun l e tol thr r hr => congrArg Host.Outcome.next (submit_unit rfl hr)
  · exact fun g l on tol thr r hs => configureSheaf_of_soiled_le l on tol thr hs
  · exact fun clear hr => congrArg Host.Outcome.next (submit_unit rfl hr)
  · exact fun key step hr => congrArg Host.Outcome.next (submit_unit rfl hr)
  · exact fun clear hr => congrArg Host.Outcome.next (submit_unit rfl hr)
  · intro on a hr hon hallot ha hidle
    have hform : (if 1 < on.toNat ∨ h.allot = 0 then some Status.badParam else none) = none :=
      if_neg (not_or.mpr ⟨Nat.not_lt.mpr hon, hallot⟩)
    have hquiet : (setBits a.sheaves).any (fun g => (s.taken.sheaf g).busyCensus) = false :=
      List.any_eq_false.mpr (fun g hg => ne_true_of_eq_false (hidle g hg))
    refine congrArg Host.Outcome.next ((submit_module _ _ _ rfl hr hform rfl).trans ?_)
    rw [show s.taken.allot? h.allot.toNat = some a from ha]
    exact if_neg (ne_true_of_eq_false hquiet)

/-! ### Optics -/

/-- A command on one of the eight eaves, whose other fields are in range, passes its form check on a module that has eaves. -/
theorem eaveForm_none {s : State} {e : Byte} {fits : Bool} (hg : s.boot.gradeB = false) (he : e.toNat ≤ 7) (hfits : fits = true) :
    eaveForm s e fits = none := by
  simp [eaveForm, hg, hfits, Nat.not_lt.mpr he]

/-- Settles O31: each command's form check passes, and its body is the clause. -/
theorem opticsCommandsComplete : Obligations.OpticsCommandsComplete := by
  intro s h e hg he
  have hgt : s.taken.boot.gradeB = false := hg
  refine ⟨?_, ?_, ?_, ?_, ?_⟩
  · intro hr
    exact congrArg Host.Outcome.next (submit_module _ _ _ rfl hr (eaveForm_none hgt he rfl) rfl)
  · intro hr hoff
    rw [exec_module s rfl rfl, moduleNow, eaveCommissionNow, submit_module _ _ _ rfl hr (eaveForm_none hgt he rfl) rfl]
    exact congrArg Host.Outcome.next (if_neg hoff)
  · intro lane spare hr hl hsp hup harm hfree
    have hfits : (decide (lane.toNat ≤ 31) && decide (spare.toNat ≤ 3)) = true := by simp [hl, hsp]
    have hup' : ¬ (!(s.taken.eave e.toNat).isUp) = true := by simp [show (s.taken.eave e.toNat).isUp = true from hup]
    have harm' : ¬ ((s.taken.eave e.toNat).armOf lane.toNat).isSome = true := by
      simp [show (s.taken.eave e.toNat).armOf lane.toNat = none from harm]
    have hfree' : ¬ (!(s.taken.eave e.toNat).spareFree spare.toNat) = true := by
      simp [show (s.taken.eave e.toNat).spareFree spare.toNat = true from hfree]
    rw [exec_module s rfl rfl, moduleNow, laserSwapNow, submit_module _ _ _ rfl hr (eaveForm_none hgt he hfits) rfl]
    refine ⟨fun hon => ?_, fun hon old hold => ?_⟩
    · exact congrArg Host.Outcome.next ((if_neg hup').trans ((if_neg harm').trans ((if_neg hfree').trans (if_pos hon))))
    · rw [hold]
      exact congrArg Host.Outcome.next
        ((if_neg hup').trans ((if_neg harm').trans ((if_neg hfree').trans (if_neg (ne_true_of_eq_false hon)))))
  · intro laser us hr hlaser hmin hmax
    have hfits : (decide (laser.toNat ≤ 37) && decide (1 ≤ us.toNat) && decide (us.toNat ≤ 10000)) = true := by simp [hlaser, hmin, hmax]
    rw [exec_module s rfl rfl, moduleNow, monitorReadNow, submit_module _ _ _ rfl hr (eaveForm_none hgt he hfits) rfl]
    rfl
  · intro mask es hr hes
    have hform : (if s.taken.boot.gradeB then some Status.engineFused else none) = none := if_neg (ne_true_of_eq_false hgt)
    rw [hes, exec_module s rfl rfl, moduleNow, eaveSweepNow, submit_module _ _ _ rfl hr hform rfl]
    rfl

end Sys2Proof.Machine
end

section
/-!
PROOF. O32 (R24, R352, R355, R356, R359 to R365): what happens on an eave.
-/
namespace Sys2Proof.Machine

/-- An eave is cut off when neither of its two dies' network domains is awake. -/
theorem eaveCut_iff {s : State} {e : Nat} : eaveCut s e = true ↔ ∀ d ∈ [2 * e, 2 * e + 1], s.pow.net.toList[d]? ≠ some .awake := by
  have hoff : ∀ o : Option Dom, o.getD .off ≠ .awake ↔ o ≠ some .awake := by
    rintro (_ | d)
    · decide
    · exact not_congr (Option.some.injEq d .awake ▸ Iff.rfl)
  rw [eaveCut, Bool.and_eq_true, decide_eq_true_iff, decide_eq_true_iff, hoff, hoff]
  simp only [List.mem_cons, List.not_mem_nil, or_false, forall_eq_or_imp, forall_eq]

section events
variable {s : State} {e : EaveIx}

/-- A data lane that is locked again (R356, R370). -/
theorem relock_dataLane {k : Fin 34} (hk : k.val < 32) (hlock : (s.eave e).lockable e k = true) {t u : State}
    (ht : t = s.modEave e (fun x => { x with
      laneUp := setLane x.laneUp k true, relocks := (x.relocks + 1) % 2 ^ 32,
      quiesced := setLane x.quiesced k (x.arms.any (fun a => decide (a.lane = k.val) && a.moving)) })) (hu : u = dataChanged s e t) :
    exec (.relock e k) s = .next (if (u.tx (laneChan e k)).up then serveChan (resendAll u (laneChan e k)) (laneChan e k) else u) ∧
    ((s.tx (laneChan e k)).up = false → exec (.relockRetry e k true) s =
      .next (linkEvent (dataChanged s e (t.record (.laneToken e k))) 2 e k 1)) := by
  have hlane : ¬ 32 ≤ k.val := Nat.not_le.mpr hk
  refine ⟨?_, fun hdown => ?_⟩
  · subst hu ht
    exact congrArg Host.Outcome.next ((if_neg hlane).trans (if_pos hlock))
  · subst ht
    exact congrArg Host.Outcome.next ((if_neg hlane).trans (if_pos (by simp [hlock, hdown])))

/-- A control lane that loses its lock, is locked again, or comes back (R351, R356). -/
theorem controlLane_events {k : Fin 34} {c : Nat} (hk : 32 ≤ k.val) (hc : c = k.val - 32) {t : State}
    (ht : t = s.modEave e (fun x => { x with
      ctlLost := setLane x.ctlLost c false, ctlDown := setLane x.ctlDown c false, relocks := (x.relocks + 1) % 2 ^ 32 })) :
    (s.ctlUp e c = true → exec (.lockLost e k) s = .next (s.modEave e (fun x => { x with ctlLost := setLane x.ctlLost c true }))) ∧
    (s.ctlOn e c = true → (s.eave e).ctlLost.getLsbD c = true → exec (.relock e k) s = .next (resendAll t (chanOf e k))) ∧
    ((s.eave e).ctlDown.getLsbD c = true → exec (.relockRetry e k true) s = .next (linkEvent (t.record (.laneToken e k)) 2 e k 1)) := by
  subst ht hc
  refine ⟨fun hup => ?_, fun hon hlost => ?_, fun hdown => ?_⟩
  · exact congrArg Host.Outcome.next ((if_pos hk).trans (if_pos hup))
  · exact congrArg Host.Outcome.next ((if_pos hk).trans (if_pos (by rw [hon, hlost]; rfl)))
  · exact congrArg Host.Outcome.next ((if_pos hk).trans (if_pos hdown))

/-- A swap whose lane is locked, or has no laser, moves the lane (R360, R361, R364). -/
theorem swapComplete_moves {k : LaneIx} {a : Arm} (ha : (s.eave e).armOf k = some a) (hmov : a.moving = true) (hlock : a.locked = true)
    (hrange : (s.eave e).outOfRange = false)
    (hlane : (s.eave e).laser k = 255 ∨ (s.eave e).laneOn e k = false ∨ (s.eave e).laneUp.getLsbD k = true) {old : Nat} {t u v w : State}
    (hold : old = (s.eave e).laser k)
    (ht : t = bindRecord (s.modEave e (fun x =>
      let y := ((x.unwait k).setLevel old (-128)).quiesce k false
      { y with bind := listSet y.bind k (32 + a.spare), laneUp := setLane y.laneUp k true,
               offLaser := if old = 255 then y.offLaser else y.offLaser ++ [old], averages := KMap.del y.averages old,
               recover := KMap.del y.recover k, arms := y.arms.filter (fun b => decide (b.lane ≠ k.val)),
               swaps := if a.reason = 3 then y.swaps else (y.swaps + 1) % 65536 })) e k old (32 + a.spare) a.reason)
    (hu : u = (if (t.tx (laneChan e k)).up then serveChan (resendAll t (laneChan e k)) (laneChan e k) else t.record (.laneToken e k)))
    (hv : v = u.moduleEvent 0x0B08 4 .ok
      [BitVec.ofNat 8 e.val, BitVec.ofNat 8 k.val, BitVec.ofNat 8 old, BitVec.ofNat 8 (32 + a.spare), BitVec.ofNat 8 a.reason])
    (hw : w = swapReply v e k .ok) :
    exec (.swapComplete e k) s = .next (eaveChanged (applyPending w e) e) := by
  have hgo : (!a.moving || !a.locked || ((s.eave e).outOfRange ||
      (decide ((s.eave e).laser k ≠ 255) && (s.eave e).laneOn e k && !(s.eave e).laneUp.getLsbD k))) = false := by
    rw [hmov, hlock, hrange]
    obtain h | h | h := hlane <;> simp [h]
  subst hw hv hu ht hold
  simp only [exec, execSwapComplete, ha, hgo, Bool.false_eq_true, if_false]

/-- A fixed laser's failure (R365). -/
theorem fixedLaserFail_fails {cb : Bool} {t : State} (hon : (if cb then (s.eave e).cb else (s.eave e).ca) = true)
    (ht : t = (s.modEave e (fun x =>
      let y := if cb then { (x.setLevel 37 (-128)) with cb := false } else { (x.setLevel 36 (-128)) with ca := false }
      { y with st := if y.st = .up then .degraded else y.st,
               prior := if y.st = .sweeping ∧ y.prior = .up then .degraded else y.prior })).judgeSideband) :
    exec (.fixedLaserFail e cb) s = .next (if (t.eave e).ca || (t.eave e).cb then t else linkEvent t 1 e 0 2) := by
  subst ht
  exact congrArg Host.Outcome.next (if_neg (by rw [hon]; decide))

/-- The photonic die's temperature (R355, R440). -/
theorem photonicTemperatureRange_reads {temp : Int} {t : State}
    (ht : t = s.modEave e (fun x => { x with tempPhot := temp, outOfRange := decide (temp < 560 ∨ 1360 < temp) })) :
    exec (.photonicTemperatureRange e temp) s = .next (
      State.tripCheck (if (temp < 560 ∨ 1360 < temp) ∧ s.eavePowered e = true ∧ (s.eave e).outOfRange = false then
        eaveChanged ((t.modEave e (fun x => { x with quiesced := x.quiesced ||| x.litLanes e, laneUp := 0 })).moduleEvent 0x0B0B 6
          .thermalLimit (leBytes 2 (ofInt 16 temp) ++ [3])) e
      else if temp < 560 ∨ 1360 < temp then t else eaveChanged t e) (276 + e.val) temp) := by
  have hout : decide (temp < 560 ∨ 1360 < temp) = (decide (temp < 560) || decide (1360 < temp)) := Bool.decide_or _ _
  have hpow : t.eavePowered e = s.eavePowered e := by
    rw [ht, State.eavePowered, State.eavePowered, State.eave_modEave _ _ _ e.isLt]
  have hcond : ((decide (temp < 560) || decide (1360 < temp)) && s.eavePowered e && !(s.eave e).outOfRange) =
      decide ((temp < 560 ∨ 1360 < temp) ∧ s.eavePowered e = true ∧ (s.eave e).outOfRange = false) := by
    simp [Bool.and_assoc]
  rw [hout] at ht
  simp only [exec, execPhotonicTemperatureRange]
  rw [← ht, hpow, hcond, ← hout]
  simp only [decide_eq_true_eq]

/-- Both links of a powered eave are down with its two dies' domains (R24, R352). -/
theorem eaveLinksDown_cuts (hpow : s.eavePowered e = true) (hnet : ∀ d ∈ [2 * e.val, 2 * e.val + 1], s.pow.net.toList[d]? ≠ some .awake) :
    exec (.eaveLinksDown e) s = .next (eaveChanged ((s.modEave e (fun x => { x with linksDown := true })).judgeSideband) e) :=
  congrArg Host.Outcome.next (if_pos (by rw [hpow, eaveCut_iff.mpr hnet]; rfl))

/-- The averages of an eave's lasers (R359 to R363): the row takes them in, and judges armed spares and then lanes as the clause says. -/
theorem fadeAverage_judges {l : List (LaserIx × W16)} {t u : State} {fresh : Nat → Bool} {spent : List Arm} {waits : List Nat}
    (ht : t = l.foldl (fun s a => s.modEave e (fun x => x.average a.1 a.2.toNat (laserRef s e a.1))) s)
    (hfresh : ∀ i, fresh i = l.any (fun a => decide (a.1.val = i)))
    (hspent : spent = (t.eave e).arms.filter (fun a => fresh (32 + a.spare) &&
      crossed 10 (laserRef t e (32 + a.spare)) (KMap.get [] (t.eave e).averages (32 + a.spare))))
    (hu : u = spent.foldl (fun s a => if (s.eave e).arms.contains a then spareFails s e a else s) t)
    (hwaits : waits = (u.eave e).fadeWait) :
    exec (.fadeAverage e l) s = .next ((waits ++ (List.range 32).filter (fun k => !waits.contains k)).foldl (fun s k =>
      if (s.eave e).isUp && decide (((s.eave e).level[(s.eave e).laser k]?).getD (-128) ≠ -128) then
        if fresh ((s.eave e).laser k) then fadeLane s e k (KMap.get [] (s.eave e).averages ((s.eave e).laser k))
        else if (s.eave e).fadeWait.contains k then armLane s e k false 1 else s
      else s) u) := by
  obtain rfl : fresh = fun i => l.any (fun a => decide (a.1.val = i)) := funext hfresh
  have hlane : ∀ (v : State) (k : Nat) (x y : State),
      (if (v.eave e).isUp && decide (((v.eave e).level[(v.eave e).laser k]?).getD (-128) ≠ -128) then x else y) =
      if !(v.eave e).isUp || decide (((v.eave e).level[(v.eave e).laser k]?).getD (-128) = -128) then y else x := by
    intro v k x y
    cases (v.eave e).isUp <;> by_cases h : ((v.eave e).level[(v.eave e).laser k]?).getD (-128) = -128 <;> simp [h]
  simp only [hlane, hwaits, hu, hspent, ht]
  rfl

end events

/-- Settles O32: each event's conditions are the clause's. -/
theorem eaveEventsComplete : Obligations.EaveEventsComplete := by
  intro s e
  refine ⟨?lost, ?relock, ?control, ?fade, ?spare, ?swap, ?fixed, ?temperature, ?links⟩
  case lost => exact fun k hk hup => congrArg Host.Outcome.next ((if_neg (Nat.not_le.mpr hk)).trans (if_pos hup))
  case relock => exact fun k hk hlock t u ht hu => relock_dataLane hk hlock ht hu
  case control => exact fun k c t hk hc ht => controlLane_events hk hc ht
  case fade => exact fun l t u fresh spent waits ht hfresh hspent hu hwaits => fadeAverage_judges ht hfresh hspent hu hwaits
  case spare =>
    intro i a ha
    refine ⟨?_, ?_⟩
    · simp only [exec, execSpareLocked, ha]
    · simp only [exec, execSpareLockTimeout, ha]
  case swap =>
    exact fun k a ha hmov hlock hrange hlane old t u v w hold ht hu hv hw =>
      swapComplete_moves ha hmov hlock hrange hlane hold ht hu hv hw
  case fixed => exact fun cb t hon ht => fixedLaserFail_fails hon ht
  case temperature => exact fun temp t ht => photonicTemperatureRange_reads ht
  case links => exact eaveLinksDown_cuts

end Sys2Proof.Machine
end

section
/-!
PROOF. O33 (R109, R110, R337, R426, R432, R438, R441) and O34 (R31, R428, R431 to R440, R463): the power class and the power plane.
-/
namespace Sys2Proof.Machine

/-! ### Commands -/

/-- Each DOMAIN_SET on a domain of this module passes its form check. -/
theorem domainForm_none {s : State} {d on : Byte} (hd : d.toNat ≤ 12) (hon : on.toNat ≤ 1)
    (hg : s.boot.gradeB = false ∨ (8 ≤ d.toNat ∧ d.toNat ≤ 9)) :
    (if 12 < d.toNat ∨ 1 < on.toNat then some Status.badParam
      else if s.boot.gradeB && (decide (d.toNat ≤ 7) || decide (10 ≤ d.toNat)) then some .engineFused else none) = none := by
  rw [if_neg (by omega), if_neg]
  obtain hg | ⟨h8, h9⟩ := hg
  · simp [hg]
  · simp [Nat.not_le.mpr h8, Nat.not_le.mpr (Nat.lt_succ_of_le h9)]

/-- DOMAIN_SET on a domain of this module: nothing to do, a drain, no route left, or powering. -/
theorem exec_domainSet {s : State} {h : Hdr} {d on : Byte} (hr : moduleReady s (.domainSet h d on) = true) (hd : d.toNat ≤ 12)
    (hon : on.toNat ≤ 1) (hg : s.boot.gradeB = false ∨ (8 ≤ d.toNat ∧ d.toNat ≤ 9)) :
    exec (.domainSet h d on) s = .next (
      if domainIsOn s d.toNat = decide (on = 1) then moduleOutcome s s.taken (.domainSet h d on) .ok []
      else if on = 0 then
        if allPairsRouted (domainDown s.taken d.toNat)
        then finishDrains (holdFor (.drain d.toNat) (startDrain s.taken d.toNat) s.lodge.nextId (.domainSet h d on) .ok [])
        else moduleOutcome s s.taken (.domainSet h d on) .noRoute []
      else if d.toNat < 8 then
        moduleHeld s (s.taken.modEave d.toNat (fun x => { x with st := .commissioning, draining := false })) (.domainSet h d on) .ok []
      else moduleHeld s (s.taken.setCourse (d.toNat - 8) .powering) (.domainSet h d on) .ok []) := by
  rw [exec_module s rfl rfl, moduleNow, domainSetNow, submit_module _ _ _ rfl hr (domainForm_none (s := s.taken) hd hon hg) rfl]
  rfl

/-- Settles O33: each unit command acts as its row says; each module command's checks pass. -/
theorem powerCommandsComplete : Obligations.PowerCommandsComplete := by
  intro s h
  refine ⟨?_, ?_, ?_, ?_, ?_⟩
  · intro d on hr hd hon hg
    have hexec := exec_domainSet hr hd hon hg
    refine ⟨fun hsame => ?_, fun hison hon0 => ?_, fun hisoff hon1 hlow => ?_, fun hisoff hon1 hhigh => ?_⟩
    · rw [hexec, if_pos hsame]
    · subst hon0
      rw [hexec, if_neg (by rw [hison]; decide), if_pos rfl]
    · subst hon1
      rw [hexec, if_neg (by rw [hisoff]; decide), if_neg (by decide), if_pos hlow]
    · subst hon1
      rw [hexec, if_neg (by rw [hisoff]; decide), if_neg (by decide), if_neg (Nat.not_lt.mpr hhigh)]
      rfl
  · exact fun mhz hr => congrArg Host.Outcome.next (submit_unit rfl hr)
  · intro w hr hmin hmax
    have hform : (if w.toNat < 300 ∨ 3600 < w.toNat then some Status.badParam else none) = none := if_neg (by omega)
    exact congrArg Host.Outcome.next (submit_module _ _ _ rfl hr hform rfl)
  · exact fun hr => congrArg Host.Outcome.next (submit_unit rfl hr)
  · exact fun hr => congrArg Host.Outcome.next (submit_module _ _ _ rfl hr rfl rfl)

/-! ### The power plane -/

/-- The cap that acts moves no ceiling. -/
theorem capActs_ceiling (s : State) : (capActs s).pow.ceiling = s.pow.ceiling := by
  unfold capActs
  split <;> rfl

/-- An input sample, where the module has been released (R432, R433, R435). -/
theorem powerSample_moves {s : State} {inW avgW curA mv : Nat} (hrel : s.boot.released = true) {p q : Power} {start stop : Bool}
    {r t u : State} (hr : r = capActs s)
    (hp : p = { r.pow with inputW := inW, averageW := avgW, vin12mV := mv, energy := r.pow.energy + inW }) (hq : q = p.govern)
    (hstart : start = (!q.currentStretch && decide (310 < curA))) (hstop : stop = (q.currentStretch && decide (curA < 290)))
    (ht : t = (if start then State.mapClocks { r with pow := { q with currentStretch := (q.currentStretch || start) && !stop } }
          (fun c => { c.engage s.pow.ceiling with currentStretch := true })
        else if stop then thermalReports (State.mapClocks { r with pow := { q with currentStretch := (q.currentStretch || start) && !stop } }
          (fun c => (SClock.release { c with currentStretch := false }).settle c s.pow.ceiling))
        else { r with pow := { q with currentStretch := (q.currentStretch || start) && !stop } }))
    (hu : u = (if q.ceiling = s.pow.ceiling then t
        else t.mapClocks (fun c => if c.unstretched s.pow.ceiling = c.unstretched q.ceiling then c else { c with ramping := true }))) :
    exec (.powerSample inW avgW curA mv) s = .next (powerReport u) := by
  have hceil : p.ceiling = s.pow.ceiling := by
    rw [hp, hr]
    exact capActs_ceiling s
  rw [hu, ht, ← hceil, hstop, hstart, hq, hp, hr]
  exact congrArg Host.Outcome.next (if_neg (by simp [hrel]))

/-- A network domain that nothing needs sleeps, and cuts off its eave with the other (R24, R31, R428). -/
theorem networkDomainSleep_sleeps {s : State} {d : DieIx} (hnet : s.pow.net[d] = .awake) (hneed : networkNeeded s d = false) {t : State}
    (ht : t = ({ s with pow := { s.pow with net := s.pow.net.set d .sleeping } } : State)) :
    exec (.networkDomainSleep d) s = .next (if (∀ e ∈ [d.val / 2 * 2, d.val / 2 * 2 + 1], t.pow.net.toList[e]? ≠ some .awake)
        then linksLost t (d.val / 2) else t) := by
  subst ht
  refine congrArg Host.Outcome.next ((if_pos ⟨hnet, hneed⟩).trans ?_)
  rw [Nat.mul_comm]
  exact if_congr eaveCut_iff rfl rfl

theorem setIfInBounds_of_lt {α : Type} {n k : Nat} {v : Vector α n} (h : k < n) (x : α) : v.setIfInBounds k x = v.set k x h := by
  ext i hi
  simp [Vector.getElem_set, Vector.getElem_setIfInBounds]

/-- A sleeping network domain wakes, and joins its eave again (R24, R31, R428). -/
theorem networkDomainWake_wakes {s : State} {d : DieIx} (hnet : s.pow.net[d] = .sleeping) (hstep : s.boot.step ≠ 4) {t : State}
    (ht : t = ({ s with pow := { s.pow with net := s.pow.net.set d .awake, netTimer := s.pow.netTimer.set d 0 } } : State)) :
    exec (.networkDomainWake d) s = .next (if (t.eave (d.val / 2)).linksDown
        then serveEave (t.modEave (d.val / 2) (fun x => { x with linksDown := false })).judgeSideband (d.val / 2) else t) := by
  have hasleep : (s.pow.net.toList[d.val]?).getD .off = .sleeping := by
    rw [Vector.getElem?_toList, Vector.getElem?_eq_getElem d.isLt]
    exact hnet
  subst ht
  refine congrArg Host.Outcome.next ((if_neg hstep).trans ((if_pos (Or.inl hasleep)).trans ?_))
  rw [setIfInBounds_of_lt d.isLt, setIfInBounds_of_lt d.isLt]

/-- Settles O34: each event's conditions are the clause's. -/
theorem powerEventsComplete : Obligations.PowerEventsComplete := by
  refine ⟨?_, ?_, ?_, ?_, ?_, ?_, ?_, ?_, ?_⟩
  · exact fun s inW avgW curA mv hrel p q start stop r t u hr hp hq hstart hstop ht hu =>
      powerSample_moves hrel hr hp hq hstart hstop ht hu
  · intro s g hawake
    have hon : ¬ (s.sheaf g).power ≠ .awake := not_not_intro hawake
    refine ⟨congrArg Host.Outcome.next (if_neg hon), fun hstretch => congrArg Host.Outcome.next (if_neg ?_), fun temp =>
      congrArg Host.Outcome.next (if_neg hon)⟩
    simp [hawake, hstretch]
  · intro s d temp b t hb ht
    subst hb ht
    rfl
  · exact fun s g => rfl
  · exact fun s g => rfl
  · exact fun s g => rfl
  · exact fun s => rfl
  · exact fun s => rfl
  · exact fun s d => ⟨fun hnet hneed t ht => networkDomainSleep_sleeps hnet hneed ht,
      fun hnet hstep t ht => networkDomainWake_wakes hnet hstep ht⟩

end Sys2Proof.Machine
end

section
/-!
PROOF. O35 (R111, R112, R442 to R445, R447, R448, R450, R453, R454, R459, R462): the security class.
-/
namespace Sys2Proof.Machine

/-- A piece of an image within a slot, aligned, over bytes not yet written, passes the form check of FW_STAGE (R453). -/
theorem fwStageForm_none {b : Boot} {off : W32} {d : List Byte} (hmin : 16 ≤ d.length) (hmax : d.length ≤ 32768)
    (hend : off.toNat + d.length ≤ slotSize) (hoff : off.toNat % 16 = 0) (hlen : d.length % 16 = 0)
    (hfree : slotWritten (stageSlot b off.toNat) off.toNat d.length = false) :
    (if d.length < 16 ∨ 32768 < d.length ∨ slotSize < off.toNat + d.length then some Status.badParam
      else if slotWritten (stageSlot b off.toNat) off.toNat d.length then some .badParam
      else if off.toNat % 16 ≠ 0 ∨ d.length % 16 ≠ 0 then some .alignFault else none) = none := by
  rw [if_neg (by omega), if_neg (ne_true_of_eq_false hfree), if_neg (by omega)]

/-- Copying the module section into a slot spends no fuse of the anti-rollback counter. -/
theorem copySection_rollbackLeft (s : State) (slot : Nat) : (copySection s slot).boot.rollbackLeft = s.boot.rollbackLeft := rfl

theorem rollbackCounter_copySection (s : State) (slot : Nat) : rollbackCounter (copySection s slot) = rollbackCounter s :=
  congrArg (64 - ·) (copySection_rollbackLeft s slot)

/-- FW_ACTIVATE on a module with no busy reed (R454). -/
theorem exec_fwActivate {s : State} {h : Hdr} {adv : Byte} {slot need : Nat} {m : KMap Byte} (hr : moduleReady s (.fwActivate h adv) = true)
    (hadv : adv.toNat ≤ 1) (hidle : s.anyBusy = false) (hslot : slot = stagingSlot s.boot) (hm : m = slotBytes s.boot slot)
    (hneed : need = (if adv = 1 then (Config.svn slot m).toNat - rollbackCounter s else 0)) {t : State} (ht : t = copySection s.taken slot) :
    exec (.fwActivate h adv) s = .next (
      if slotVerifies t slot = false then moduleOutcome s t (.fwActivate h adv) .signatureInvalid []
      else if (Config.svn slot m).toNat < rollbackCounter s then moduleOutcome s t (.fwActivate h adv) .rollbackRefused []
      else if s.boot.rollbackLeft < need then moduleOutcome s t (.fwActivate h adv) .fuseBudgetExhausted []
      else activate t s.lodge.nextId (.fwActivate h adv) slot need) := by
  have hform : (if 1 < adv.toNat then some Status.badParam else none) = none := if_neg (Nat.not_lt.mpr hadv)
  have hcounter : rollbackCounter t = rollbackCounter s := ht ▸ rollbackCounter_copySection s.taken slot
  have hleft : t.boot.rollbackLeft = s.boot.rollbackLeft := ht ▸ copySection_rollbackLeft s.taken slot
  rw [← hcounter, ← hleft]
  subst ht hneed hm hslot
  refine congrArg Host.Outcome.next ((submit_module _ _ _ rfl hr hform rfl).trans ((if_neg (ne_true_of_eq_false hidle)).trans ?_))
  simp only [Bool.not_eq_true']
  rfl

/-- Settles O35: each command's form check passes, its budget is there, and its body is the clause. -/
theorem securityCommandsComplete : Obligations.SecurityCommandsComplete := by
  intro s h
  refine ⟨?_, ?_, ?_, ?_, ?_, ?_, ?_, ?_, ?_⟩
  · exact fun n hr => congrArg Host.Outcome.next (submit_module _ _ _ rfl hr rfl rfl)
  · exact fun hr => congrArg Host.Outcome.next (submit_module _ _ _ rfl hr rfl rfl)
  · intro off d hr hmin hmax hend hoff hlen hfree x hx
    subst hx
    exact congrArg Host.Outcome.next
      (submit_module _ _ _ rfl hr (fwStageForm_none (b := s.taken.boot) hmin hmax hend hoff hlen hfree) rfl)
  · exact fun adv slot m need hr hadv hidle hslot hm hneed t ht => exec_fwActivate hr hadv hidle hslot hm hneed ht
  · intro hr hleft hsome t left hl ht
    subst ht hl
    exact congrArg Host.Outcome.next ((submit_module _ _ _ rfl hr rfl rfl).trans ((if_neg hleft).trans (if_neg hsome)))
  · intro k hr hzero hcur hleft t left hl ht
    have hform : (if ofLe k = 0 ∨ BitVec.ofNat 256 (ofLe k) = s.taken.ownerHash then some Status.badParam else none) = none :=
      if_neg (not_or.mpr ⟨hzero, hcur⟩)
    subst ht hl
    exact congrArg Host.Outcome.next ((submit_module _ _ _ rfl hr hform rfl).trans (if_neg hleft))
  · intro p hr hp hleft hother t left hl ht
    have hform : (if 1 < p.toNat then some Status.badParam else none) = none := if_neg (Nat.not_lt.mpr hp)
    subst ht hl
    exact congrArg Host.Outcome.next ((submit_module _ _ _ rfl hr hform rfl).trans ((if_neg hleft).trans (if_neg hother)))
  · intro hr hleft t ht
    subst ht
    exact congrArg Host.Outcome.next ((submit_module _ _ _ rfl hr rfl rfl).trans (if_neg hleft))
  · intro first l hr hl
    subst hl
    exact congrArg Host.Outcome.next (submit_module _ _ _ rfl hr rfl rfl)

end Sys2Proof.Machine
end

section
/-!
PROOF. O36 (R412, R418, R421, R466, R469) and O37 (R312, R379, R413 to R421, R449, R452, R455, R456): rails, RESET_N and the boot steps.
-/
namespace Sys2Proof.Machine

/-! ### Rails and RESET_N -/

/-- Settles O36: each event's conditions are the clause's. -/
theorem railEventsComplete : Obligations.RailEventsComplete := by
  intro s
  refine ⟨?up, ?loss, ?good, ?main, ?assert, ?release⟩
  case up => exact fun h => congrArg Host.Outcome.next (if_neg (ne_true_of_eq_false h))
  case loss => exact fun tear h => congrArg Host.Outcome.next (if_neg (by simp [h]))
  case good =>
    intro h
    refine congrArg Host.Outcome.next ((if_neg (ne_true_of_eq_false h)).trans (if_congr ?_ rfl rfl))
    rw [Bool.and_eq_true, Bool.and_eq_true, Bool.not_eq_true', and_assoc]
  case main =>
    intro h t ht hstandby hreset hstep hhalt
    subst ht
    have hgo : ¬ (!(interruptStep { s with pow := { s.pow with main := false } }).pow.standby ||
        (interruptStep { s with pow := { s.pow with main := false } }).pow.resetLow ||
        decide ((interruptStep { s with pow := { s.pow with main := false } }).boot.step = 0)) = true := by
      rw [hstandby, hreset, decide_eq_false (Nat.ne_of_gt hstep)]
      decide
    exact congrArg Host.Outcome.next
      ((if_neg (by simp [h])).trans ((if_neg hgo).trans (if_neg (ne_true_of_eq_false hhalt))))
  case assert =>
    intro h t ht
    subst ht
    exact congrArg Host.Outcome.next (if_neg (ne_true_of_eq_false h))
  case release => exact fun h => congrArg Host.Outcome.next (if_neg (by simp [h]))

/-! ### The boot steps -/

section steps
variable {s : State}

/-- A step that is in progress passes the check of its row. -/
theorem not_not_atStep {n : Nat} (h : atStep s n = true) : ¬ (!atStep s n) = true := by
  simp [h]

/-- Where no failure of a step is recorded, none of its parts is skipped. -/
theorem failures_of_step_eq_nil {n : Nat} (h : s.boot.failed n = false) : s.boot.failures.filter (fun f => decide (f.step = n)) = [] := by
  rw [Boot.failed, List.any_eq_false] at h
  exact List.filter_eq_nil_iff.mpr h

theorem fuse_ends (hat : atStep s 1 = true) (hok : s.boot.failed 1 = false) :
    exec (.fuse true) s = .next (endStep (setMeas (clearFail s 1) [(0, Config.measure 0 (fuseNumbers (clearFail s 1)))]) 1) ∧
    exec (.fuse false) s = .next (haltBoot (addFail s 1 false 0) 1 s.boot.detail []) := by
  constructor
  · simp only [exec, execFuse, not_not_atStep hat, hok, Bool.not_true, Bool.false_eq_true, if_false]
    rfl
  · simp only [exec, execFuse, not_not_atStep hat, hok, Bool.not_false, Bool.false_eq_true, if_false, if_true]

theorem image_ends (p g : Bool) (hat : atStep s 2 = true) :
    (s.boot.failed 2 = false → exec (.image p g) s = .next (if slotPasses s p then endStep (useImage s s.boot.chosen) 2
      else if goldenPasses (addFail s 2 false 0) g then failStep (useImage (alterStep (addFail s 2 false 0) 2 0x02) 2) 2 []
      else haltBoot (addFail s 2 false 0) 2 0x03 [])) ∧
    (s.boot.failed 2 = true → ∀ t, t = alterStep s 2 0x02 →
      exec (.image p g) s = .next (if goldenPasses t g then endStep (useImage (clearFail t 2) 2) 2
        else if slotPasses t p then endStep (useImage (clearFail t 2) t.boot.chosen) 2 else haltBoot t 2 0x03 [])) := by
  refine ⟨fun hok => ?_, fun hbad t ht => ?_⟩
  · exact congrArg Host.Outcome.next ((if_neg (not_not_atStep hat)).trans (if_neg (ne_true_of_eq_false hok)))
  · subst ht
    exact congrArg Host.Outcome.next ((if_neg (not_not_atStep hat)).trans (if_pos hbad))

/-- Copying a step's record into the journal leaves `PWREPOCH` (R418). -/
theorem copyStep_epoch (t : State) (n : Nat) : (copyStep t n).epoch = t.epoch := by
  unfold copyStep
  split <;> rfl

theorem journal_ends {a b : Bool} (largest : W32) (hat : atStep s 3 = true) (hok : s.boot.failed 3 = false) (hread : a = true ∨ b = true)
    {r t k v : State} (hr : r = readJournal s false a b)
    (ht : t = (if s.boot.finalTorn then { alterStep r 3 0x04 with epoch := BitVec.ofNat 32 (newestEpoch r.boot.journal + 1) }
      else { r with epoch := BitVec.ofNat 32 (newestEpoch r.boot.journal + 1) }))
    (hk : k = ((copyStep (copyStep t 1) 2).journalAdd 0x0003 .ok (leBytes 4 t.epoch.toNat)).1) (hv : v = rebuildMaps (noteFallback k)) :
    exec (.journal a b largest) s = .next (endStep (setMeas (clearFail v 3) [(5, Config.measure 5
      (((v.boot.fusedMap ++ v.boot.journal).filter (fun r => decide (4 ≤ r.type) && decide (r.type ≤ 7))).map (fun r => ofLe r.body)))]) 3) := by
  have hread' : (a || b) = true := by simpa using hread
  have ht' : t = { (if s.boot.finalTorn then alterStep r 3 0x04 else r) with epoch := BitVec.ofNat 32 (newestEpoch r.boot.journal + 1) } := by
    rw [ht]
    split <;> rfl
  rw [← copyStep_epoch t 1, ← copyStep_epoch _ 2] at hk
  simp only [exec, execJournal, not_not_atStep hat, hok, hread', Bool.false_or, Bool.false_eq_true, if_false, if_true, ← hr, ← ht', ← hk,
    ← hv]

theorem power_ends (hat : atStep s 4 = true) (hmain : s.pow.main = true) (hok : s.boot.failed 4 = false) :
    exec (.power true) s = .next (endStep (clearFail { s with pow := { s.pow with
      feed := Vector.replicate 4 .awake, net := Vector.replicate 16 .awake, ports := Vector.replicate 2 .awake, pwrGood := true } } 4) 4) ∧
    exec (.power false) s = .next (haltBoot (addFail s 4 false 0) 4 0x07 []) := by
  have hgo : ¬ (!atStep s 4 || !s.pow.main) = true := by simp [hat, hmain]
  constructor
  · simp only [exec, execPower, hgo, hok, Bool.not_true, Bool.false_eq_true, if_false]
    rfl
  · simp only [exec, execPower, hgo, hok, Bool.not_false, Bool.false_eq_true, if_false, if_true]

theorem bist_ends {o : BistOutcome} (hat : atStep s 5 = true) (hok : s.boot.failed 5 = false) (hlate : o.watchdog = [])
    (hnet : o.netFailed = []) : exec (.bist o) s = .next (endStep (clearFail (bistRepairs s o (fun _ => true)) 5) 5) := by
  simp only [exec, execBist, not_not_atStep hat, failures_of_step_eq_nil hok, hlate, hnet, List.map_nil, List.isEmpty_nil, List.filter_nil,
    List.dedup_nil, List.any_nil, List.contains_nil, Bool.not_true, Bool.not_false, Bool.false_eq_true, if_false, if_true]

theorem memory_ends {rungs : List (Nat × Nat)} (hat : atStep s 6 = true) (hok : s.boot.failures = []) {rung : Nat → Nat}
    (hrung : rung = rungOf s rungs) {t u : State} (ht : t = (List.range 512).foldl (fun s ch => trainChannel s ch (rung ch)) s)
    (hu : u = (if (List.range 512).any (fun ch => decide (rung ch ≠ 0)) then setDetail t 0x0A else t)) :
    exec (.memory rungs) s = .next (if (List.range 512).filter (fun ch => decide (rung ch = 4)) = []
      then endStep (clearFail { u with mem := { u.mem with bytes := [], poison := [] } } 6) 6
      else haltBoot (((List.range 512).filter (fun ch => decide (rung ch = 4))).foldl (fun s ch => addFail s 6 false ch) u) 6 0x0B
        ((List.range 512).filter (fun ch => decide (rung ch = 4)))) := by
  simp only [exec, execMemory, not_not_atStep hat, hok, List.any_nil, Bool.false_eq_true, if_false, List.isEmpty_iff, ← hrung, ← ht, ← hu]

theorem eaves_ends {os : List CommOutcome} (hat : atStep s 7 = true) {skip lost : List Nat} {t : State}
    (hskip : skip = (s.boot.failures.filter (fun f => decide (f.step = 7))).map (·.item))
    (ht : t = (if s.boot.gradeB then s else (List.range 8).foldl (bootEave os skip) s))
    (hlost : lost = ((t.boot.failures.filter (fun f => decide (f.step = 7))).map (·.item)).filter (fun e => !skip.contains e)) :
    exec (.eaves os) s = .next (if lost = [] then endStep t 7 else failStep t 7 lost) := by
  simp only [exec, execEaves, hat, if_true, runEaves, ← hskip, ← ht, ← hlost, List.isEmpty_iff]

theorem released_releases (hat : atStep s 8 = true) (hrel : s.boot.released = false) {t : State} (ht : t = burnRollback s) :
    exec .released s = .next (tellFallback { t with
      boot := { t.boot with released := true, lastReleased := if t.boot.inUse ≤ 1 then t.boot.inUse else t.boot.lastReleased },
      fabric := { t.fabric with phase := 2, lead := Config.fabricId },
      pow := { t.pow with copper := Vector.ofFn (fun (c : Fin 5) => if t.boot.gradeB = true ∧ 2 ≤ c.val then .off else .powering) },
      eaves := t.eaves.map (fun x => { x with swaps := 0, fails := 0 }) }) := by
  have hgo : (!atStep s 8 || s.boot.released) = false := by simp [hat, hrel]
  simp only [exec, execReleased, hgo, Bool.false_eq_true, if_false, ← ht, Bool.and_eq_true, decide_eq_true_eq]

theorem stepWatchdog_ends (late : List Nat) {n : Nat} (hn : n = s.boot.step) (hat : atStep s n = true) :
    (n = 1 → exec (.stepWatchdog late) s = .next (haltBoot (addFail s 1 true 0) 1 s.boot.detail [])) ∧
    (n = 7 → exec (.stepWatchdog late) s = .next (runEaves s [])) ∧
    (n = 5 ∨ n = 6 → exec (.stepWatchdog late) s =
      .next (restartBoot ((lateParts s late).foldl (fun s i => addFail s n true i) s) n (lateParts s late))) ∧
    (n = 2 ∨ n = 3 ∨ (n = 4 ∧ s.pow.main = true) → exec (.stepWatchdog late) s = .next (restartBoot (addFail s n true 0) n [])) := by
  have hexec : exec (.stepWatchdog late) s = .next (
      if n = 0 || decide (7 < n) || !atStep s n || (decide (n = 4) && !s.pow.main) then s
      else if n = 1 then haltBoot (addFail s 1 true 0) 1 s.boot.detail []
      else if n = 7 then runEaves s []
      else if n = 5 || n = 6 then restartBoot ((lateParts s late).foldl (fun s i => addFail s n true i) s) n (lateParts s late)
      else restartBoot (addFail s n true 0) n []) := by
    subst hn
    rfl
  rw [hexec, hat]
  clear hexec hn hat
  refine ⟨fun h => ?_, fun h => ?_, fun h => ?_, fun h => ?_⟩
  · subst h
    rfl
  · subst h
    rfl
  · obtain rfl | rfl := h <;> rfl
  · obtain rfl | rfl | ⟨rfl, hmain⟩ := h
    · rfl
    · rfl
    · rw [hmain]
      rfl

end steps

/-- Settles O37: the row of each step, in progress, is the clause. -/
theorem bootStepsComplete : Obligations.BootStepsComplete := by
  intro s
  refine ⟨fun straps hat => ?_, fuse_ends, image_ends, ?_, power_ends, fun o => bist_ends, ?_, ?_, ?_, ?_⟩
  · exact congrArg Host.Outcome.next (if_neg (not_not_atStep hat))
  · exact fun a b largest hat hok hread r t k v hr ht hk hv => journal_ends largest hat hok hread hr ht hk hv
  · exact fun rungs hat hok rung hrung t u ht hu => memory_ends hat hok hrung ht hu
  · exact fun os skip hat hskip t lost ht hlost => eaves_ends hat hskip ht hlost
  · exact fun hat hrel t ht => released_releases hat hrel ht
  · exact fun n late hn hat => stepWatchdog_ends late hn hat

end Sys2Proof.Machine
end
